-- ==== Sys2Proof/Word.lean ====
section
/-!
DEFINITION. Words of the Akivo D7 and their plainest arithmetic (R7: byte, half, word, dword; little-endian).
-/

namespace Sys2Proof

/-- A byte (R7). -/
abbrev Byte := BitVec 8

/-- A word, 32 bits (R7). -/
abbrev Word := BitVec 32

/-- A dword, 64 bits (R7). -/
abbrev Dword := BitVec 64

/-- Sparse data by key, sorted by key with no repeats. -/
abbrev SMap (α : Type) := List (Nat × α)

/-- The field `x[hi:lo]` of a number. -/
def bitsOf (x hi lo : Nat) : Nat := (x >>> lo) % 2 ^ (hi + 1 - lo)

/-- Bit `i` of a number. -/
def bitOf (x i : Nat) : Bool := x.testBit i

end Sys2Proof
end

