-- ==== Sys2Proof/Syntax.lean ====
section
/-!
DEFINITION. The syntax: an instruction's fields (R168 to R176), and `Instr`, one constructor for each row of the
opcode table: the 152 instructions, each with its encoded fields, and the steps of the device, each with what the
step names (a group, an operation, a task, a register and the value written, ...).
-/

namespace Sys2Proof

/-- The fields of the control word that are not implied by the constructor (R170). -/
structure Ctl where
  space : BitVec 4
  wait  : BitVec 12
  setf  : BitVec 4
  hold  : Bool
  cede  : Bool
  lit   : BitVec 2
  la    : BitVec 2
  lb    : BitVec 2
  lc    : BitVec 2
  nwb   : Bool
  deriving DecidableEq, Repr

/-- Literal M (R176). `md` is MOD: bit `i` of it is bit `i + 8` of M. -/
structure LitM where
  guard : BitVec 4
  sa    : Bool
  sb    : Bool
  bi    : Bool
  md    : BitVec 17
  c     : BitVec 8
  deriving DecidableEq, Repr

/-- The encoded fields of an instruction: control word, the three low bytes of the operation word, literal M (all
zero when LIT is 0, R176) and the second literal (0 when absent). -/
structure Enc where
  ctl : Ctl
  d   : BitVec 8
  a   : BitVec 8
  b   : BitVec 8
  m   : LitM
  imm : Word
  deriving DecidableEq, Repr

/-- Where a card comes from (R141): host chain `h`, or the TASK that group `gid` holds outstanding as `op`. -/
inductive CardSrc where
  | chain (h : Nat)
  | task (gid op : Nat)
  deriving DecidableEq, Repr

/-- Where an uncorrectable error strikes (R374). -/
inductive ErrSite where
  | cleanCopy
  | dirtyL2 (pa : Nat)
  | dram (pa : Nat)
  | reg (gid reg lane : Nat)
  | icache
  | scratch (tm off : Nat)
  | engine (part tid : Nat)
  deriving DecidableEq, Repr

/-- A TLB (R356, R357): the first level of a core, or the second level of a die. -/
inductive TlbId where
  | core (n : Nat)
  | die (d : Nat)
  deriving DecidableEq, Repr

/-- The register space a write names (R400, R401): firmware's management space, the host window of the physical
function, or the virtual function of a partition. -/
inductive RegSpace where
  | mgmt
  | physical
  | virtual (part : Nat)
  deriving DecidableEq, Repr

/-- What a domain access does (R398): it reads `len` bytes, writes bytes, or is an atomic or RED of R250 (OP, AT, its operands,
and whether the old value is returned). -/
inductive DomOp where
  | read (len : Nat)
  | write (bs : List Byte)
  | rmw (op at_ b c : Nat) (ret : Bool)
  deriving DecidableEq, Repr

/-- A domain access that reaches this device as its target (R398): source, sequence number of the pair (R399), address at the
target, and what it does. -/
structure DomReq where
  srcDev  : Nat
  srcPart : Nat
  seq     : Nat
  addr    : Nat
  what    : DomOp
  deriving DecidableEq, Repr

/-- A write of a register by the host: the PCI Express link it comes through (R114) and the value. -/
structure LinkWrite where
  link : Nat
  val  : Dword
  deriving DecidableEq, Repr

/-- What lies in the package flash (R392): the vendor's key and the images, each with its signature. -/
structure Flash where
  key    : List Byte
  images : List (List Byte × List Byte)
  deriving DecidableEq, Repr

/-- A secret that came encrypted to the exchange key of a report (R395), by the report's number. -/
structure Secret where
  report : Nat
  data   : List Byte
  deriving DecidableEq, Repr

/-- Why a fatal error occurs (R407). -/
inductive FatalCause where
  | carmine
  | firmware
  | boot
  | hot
  deriving DecidableEq, Repr

/-- What firmware writes on the management processor (R401): device memory at a host physical address, or the domain
table's entry for a source device and partition (R398). -/
inductive FwTarget where
  | phys (pa : Nat)
  | domain (srcDev srcPart : Nat) (target : Option Nat)
  deriving DecidableEq, Repr

/-- One constructor for each row of spec/opcode_table.json. -/
inductive Instr where
  /-- IADD (R196): Lane 32-bit integer sum, optionally signed and saturating. -/
  | iadd (e : Enc)
  /-- ISUB (R196): Lane 32-bit integer difference, optionally signed and saturating. -/
  | isub (e : Enc)
  /-- IMUL (R196): Lane low 32 bits of an integer product. -/
  | imul (e : Enc)
  /-- IMULH (R196): Lane high 32 bits of a 64-bit integer product. -/
  | imulh (e : Enc)
  /-- IMAD (R196): Lane a times b plus c in 32 bits. -/
  | imad (e : Enc)
  /-- IMIN (R196): Lane smaller of two integers. -/
  | imin (e : Enc)
  /-- IMAX (R196): Lane larger of two integers. -/
  | imax (e : Enc)
  /-- IABS (R196): Lane magnitude of a signed word. -/
  | iabs (e : Enc)
  /-- IADD64 (R196): Lane 64-bit sum of register pairs. -/
  | iadd64 (e : Enc)
  /-- IMADW (R196): Lane 32x32 product plus a 64-bit addend. -/
  | imadw (e : Enc)
  /-- SHL (R197): Lane logical left shift. -/
  | shl (e : Enc)
  /-- SHR (R197): Lane logical right shift. -/
  | shr (e : Enc)
  /-- SAR (R197): Lane arithmetic right shift. -/
  | sar (e : Enc)
  /-- FSHF (R197): Lane funnel shift of a 64-bit string. -/
  | fshf (e : Enc)
  /-- LTAB (R197): Lane bitwise function of three words by truth table. -/
  | ltab (e : Enc)
  /-- POPC (R197): Lane count of one bits. -/
  | popc (e : Enc)
  /-- CLZ (R197): Lane count of leading zeros. -/
  | clz (e : Enc)
  /-- BREV (R197): Lane bit reversal. -/
  | brev (e : Enc)
  /-- BFE (R197): Lane bit-field extract. -/
  | bfe (e : Enc)
  /-- BFI (R197): Lane bit-field insert. -/
  | bfi (e : Enc)
  /-- BPICK (R197): Lane byte pick with sign fill. -/
  | bpick (e : Enc)
  /-- ICMP (R198): Lane integer compare into a predicate, optionally joined. -/
  | icmp (e : Enc)
  /-- PTAB (R198): Lane function of three predicates by truth table. -/
  | ptab (e : Enc)
  /-- SEL (R198): Lane select between two sources by predicate. -/
  | sel (e : Enc)
  /-- MOV (R198): Lane copy of source B. -/
  | mov (e : Enc)
  /-- RDSP (R199): Lane read of a lane special. -/
  | rdsp (e : Enc)
  /-- WRSP (R199): Lane write of a lane special (lg halves). -/
  | wrsp (e : Enc)
  /-- LEA (R196): Lane 64-bit base plus scaled index. -/
  | lea (e : Enc)
  /-- IDP4 (R196): Lane dot product of four byte pairs plus c. -/
  | idp4 (e : Enc)
  /-- FADD (R200): Lane floating sum rounded once. -/
  | fadd (e : Enc)
  /-- FMUL (R200): Lane floating product rounded once. -/
  | fmul (e : Enc)
  /-- FFMA (R200): Lane fused multiply-add rounded once. -/
  | ffma (e : Enc)
  /-- FMIN (R201): Lane floating minimum. -/
  | fmin (e : Enc)
  /-- FMAX (R201): Lane floating maximum. -/
  | fmax (e : Enc)
  /-- FCMP (R202): Lane floating compare into a predicate. -/
  | fcmp (e : Enc)
  /-- FCLASS (R203): Lane classification mask of a floating value. -/
  | fclass (e : Enc)
  /-- FSCALE (R200): Lane multiply by a power of two, one rounding. -/
  | fscale (e : Enc)
  /-- FRND (R200): Lane round to an integral value. -/
  | frnd (e : Enc)
  /-- CVT (R204): Lane conversion between formats and integer types. -/
  | cvt (e : Enc)
  /-- PKN (R205): Lane pack of FP32 registers into a narrow format. -/
  | pkn (e : Enc)
  /-- UPKN (R205): Lane unpack of a narrow register into FP32 registers. -/
  | upkn (e : Enc)
  /-- CFMA (R206): Lane complex fused multiply-add in four fused steps. -/
  | cfma (e : Enc)
  /-- CMUL (R206): Lane complex multiply, each part rounded once. -/
  | cmul (e : Enc)
  /-- FDP2 (R206): Lane two-term half-precision dot product plus FP32 addend. -/
  | fdp2 (e : Enc)
  /-- FRCP (R207): Ochre reciprocal, correctly rounded. -/
  | frcp (e : Enc)
  /-- FRSQ (R207): Ochre reciprocal square root. -/
  | frsq (e : Enc)
  /-- FSQRT (R207): Ochre square root. -/
  | fsqrt (e : Enc)
  /-- FDIV (R207): Ochre division. -/
  | fdiv (e : Enc)
  /-- FEXP2 (R207): Ochre base-two exponential. -/
  | fexp2 (e : Enc)
  /-- FLOG2 (R207): Ochre base-two logarithm. -/
  | flog2 (e : Enc)
  /-- XF (R232): Ochre transpose, conjugate or quantise across lanes. -/
  | xf (e : Enc)
  /-- DCD (R237): Ochre decode of stream records from scratchpad into registers. -/
  | dcd (e : Enc)
  /-- ENC (R239): Ochre encode of registers into stream records in scratchpad. -/
  | enc (e : Enc)
  /-- XLANE (R209): Cross-lane exchange within segments. -/
  | xlane (e : Enc)
  /-- POLL (R210): Gather one predicate per lane and test the word. -/
  | poll (e : Enc)
  /-- REDUX (R211): Reduction over participating lanes. -/
  | redux (e : Enc)
  /-- SCAN (R211): Prefix reduction over participating lanes. -/
  | scan (e : Enc)
  /-- MATCH (R212): Mask of lanes with equal bit patterns. -/
  | matchB (e : Enc)
  /-- TOPK (R213): Rank lane keys and select the k best. -/
  | topk (e : Enc)
  /-- RAND (R214): Draw one lane generator step. -/
  | rand (e : Enc)
  /-- PRUNE (R215): Zero elements at random by generator draws. -/
  | prune (e : Enc)
  /-- MMA (R223): Indigo matrix multiply-accumulate into accumulator rows. -/
  | mma (e : Enc)
  /-- MMAC (R223): Indigo matrix multiply from a zero accumulator. -/
  | mmac (e : Enc)
  /-- PLNST (R227): Write register columns into a plane-layout image. -/
  | plnst (e : Enc)
  /-- MDRN (R230): Drain accumulator rows to memory or scratchpad, optionally reducing. -/
  | mdrn (e : Enc)
  /-- LD (R245): Lane load from the byte space. -/
  | ld (e : Enc)
  /-- ST (R245): Lane store to the byte space. -/
  | st (e : Enc)
  /-- LDS (R247): Lane scratchpad load, plain, waiting or taking. -/
  | lds (e : Enc)
  /-- STS (R248): Lane scratchpad store that sets or keeps full bits. -/
  | sts (e : Enc)
  /-- ATOM (R251): Lane atomic read-modify-write at the home slice. -/
  | atom (e : Enc)
  /-- ATOMS (R251): Lane atomic read-modify-write in scratchpad. -/
  | atoms (e : Enc)
  /-- RED (R251): Lane atomic reduction with no return. -/
  | red (e : Enc)
  /-- TLD (R256): Bounds-checked tensor load through a shape record. -/
  | tld (e : Enc)
  /-- TSTR (R256): Bounds-checked tensor store through a shape record. -/
  | tstr (e : Enc)
  /-- PREF (R258): Prefetch a line into L2 or L1. -/
  | pref (e : Enc)
  /-- RESQ (R259): Request residency by writing fault-buffer records. -/
  | resq (e : Enc)
  /-- HINS (R261): Slate insert of a key and value. -/
  | hins (e : Enc)
  /-- HPROBE (R261): Slate probe of a key. -/
  | hprobe (e : Enc)
  /-- HACC (R261): Slate accumulate into a key's value. -/
  | hacc (e : Enc)
  /-- HDEL (R261): Slate delete of a key. -/
  | hdel (e : Enc)
  /-- GLD (R265): Read the neighbour at a rank of a list. -/
  | gld (e : Enc)
  /-- GDEG (R265): Read the degree of a list. -/
  | gdeg (e : Enc)
  /-- GADD (R266): Add an edge to the OUT and IN lists. -/
  | gadd (e : Enc)
  /-- GDEL (R267): Remove an edge by rank or key. -/
  | gdel (e : Enc)
  /-- GFIND (R265): Find the first entry at or above a key. -/
  | gfind (e : Enc)
  /-- GPAY (R265): Read the payload at a rank. -/
  | gpay (e : Enc)
  /-- COPEN (R269): Open a cursor on a list. -/
  | copen (e : Enc)
  /-- CNEXT (R270): Advance a cursor and deliver the next edge. -/
  | cnext (e : Enc)
  /-- CSEEK (R271): Reposition a cursor by rank or key. -/
  | cseek (e : Enc)
  /-- CINFO (R272): Read a cursor image into registers. -/
  | cinfo (e : Enc)
  /-- CCLOSE (R269): Close a cursor. -/
  | cclose (e : Enc)
  /-- GISECT (R273): Merge two cursors to the next common neighbour. -/
  | gisect (e : Enc)
  /-- SADD (R275): Uniform integer sum. -/
  | sadd (e : Enc)
  /-- SSUB (R275): Uniform integer difference. -/
  | ssub (e : Enc)
  /-- SMUL (R275): Uniform low product. -/
  | smul (e : Enc)
  /-- SMAD (R275): Uniform multiply-add. -/
  | smad (e : Enc)
  /-- SMIN (R275): Uniform minimum. -/
  | smin (e : Enc)
  /-- SMAX (R275): Uniform maximum. -/
  | smax (e : Enc)
  /-- SSHL (R275): Uniform left shift. -/
  | sshl (e : Enc)
  /-- SSHR (R275): Uniform logical right shift. -/
  | sshr (e : Enc)
  /-- SSAR (R275): Uniform arithmetic right shift. -/
  | ssar (e : Enc)
  /-- SLTAB (R275): Uniform truth-table bitwise function. -/
  | sltab (e : Enc)
  /-- SMOV (R275): Uniform move. -/
  | smov (e : Enc)
  /-- SCMP (R275): Uniform compare into a q predicate. -/
  | scmp (e : Enc)
  /-- SSEL (R275): Uniform select by q predicate. -/
  | ssel (e : Enc)
  /-- SADD64 (R275): Uniform 64-bit sum. -/
  | sadd64 (e : Enc)
  /-- SMADW (R275): Uniform widening multiply-add. -/
  | smadw (e : Enc)
  /-- SBFE (R275): Uniform bit-field extract. -/
  | sbfe (e : Enc)
  /-- SPOPC (R275): Uniform population count. -/
  | spopc (e : Enc)
  /-- SCLZ (R275): Uniform count of leading zeros. -/
  | sclz (e : Enc)
  /-- QTAB (R275): Truth-table function of three q predicates. -/
  | qtab (e : Enc)
  /-- SFFMA (R275): Uniform fused multiply-add. -/
  | sffma (e : Enc)
  /-- SCVT (R275): Uniform conversion. -/
  | scvt (e : Enc)
  /-- SLD (R276): Uniform load from the byte space. -/
  | sld (e : Enc)
  /-- SST (R276): Uniform store to the byte space. -/
  | sst (e : Enc)
  /-- SLDS (R277): Uniform scratchpad load ignoring full bits. -/
  | slds (e : Enc)
  /-- SSTS (R277): Uniform scratchpad store leaving full bits. -/
  | ssts (e : Enc)
  /-- SATOM (R276): Uniform atomic read-modify-write. -/
  | satom (e : Enc)
  /-- OINFO (R278): Read one word of an object-table entry. -/
  | oinfo (e : Enc)
  /-- BRA (R280): Branch, diverging on a lane guard. -/
  | bra (e : Enc)
  /-- BRL (R281): Voting branch that never diverges. -/
  | brl (e : Enc)
  /-- BRX (R282): Indirect branch, uniform or per lane. -/
  | brx (e : Enc)
  /-- RJN (R283): Set the pending rejoin address. -/
  | rjn (e : Enc)
  /-- CALL (R283): Write the return offset to s127 and jump. -/
  | call (e : Enc)
  /-- RET (R283): Jump to the offset in a uniform register. -/
  | ret (e : Enc)
  /-- EXIT (R285): End selected lanes. -/
  | exit (e : Enc)
  /-- LOOPN (R284): Decrement a counter and branch while nonzero. -/
  | loopn (e : Enc)
  /-- NOP (R285): No operation beyond its schedule fields. -/
  | nop (e : Enc)
  /-- BAR (R286): Arrive at a barrier word and park until the phase ends. -/
  | bar (e : Enc)
  /-- BARA (R286): Arrive at a barrier word and return the phase. -/
  | bara (e : Enc)
  /-- BARW (R286): Park until a barrier word's phase differs. -/
  | barw (e : Enc)
  /-- RCW (R288): Park until a row-count word reaches a value. -/
  | rcw (e : Enc)
  /-- GBAR (R289): Grid barrier over a set at a level. -/
  | gbar (e : Enc)
  /-- FENCE (R291): Acquire, release or full fence at a scope. -/
  | fence (e : Enc)
  /-- CQINIT (R292): Bind a chain slot to a chain object. -/
  | cqinit (e : Enc)
  /-- CQADV (R293): Advance a chain tail, releasing commands. -/
  | cqadv (e : Enc)
  /-- CQWAIT (R295): Park until a chain's DONE reaches a sequence. -/
  | cqwait (e : Enc)
  /-- CQSEQ (R295): Read a chain slot's TAIL or DONE. -/
  | cqseq (e : Enc)
  /-- TASK (R296): Submit a job card as a child task. -/
  | task (e : Enc)
  /-- TJOIN (R297): Wait for a child's record and return its status. -/
  | tjoin (e : Enc)
  /-- TSETTLE (R298): Release and test a watched region for settling. -/
  | tsettle (e : Enc)
  /-- HINIT (R299): Claim a Slate table and bind a spill region. -/
  | hinit (e : Enc)
  /-- SETFMT (R300): Write the split's fmt. -/
  | setfmt (e : Enc)
  /-- SETCMP (R301): Load a compand table from scratchpad. -/
  | setcmp (e : Enc)
  /-- RQUOTA (R302): Move register granules to another group. -/
  | rquota (e : Enc)
  /-- WRSR (R303): Write a handler register. -/
  | wrsr (e : Enc)
  /-- TRAP (R304): Raise a software trap with a code. -/
  | trap (e : Enc)
  /-- BKPT (R304): Raise a debug breakpoint. -/
  | bkpt (e : Enc)
  /-- TRET (R305): Leave handler mode and resume the split. -/
  | tret (e : Enc)
  /-- TKILL (R306): Kill the executing task or a descendant. -/
  | tkill (e : Enc)
  /-- OTSET (R307): Write an object-table entry from scratchpad. -/
  | otset (e : Enc)
  /-- PINV (R308): Invalidate a page translation in every TLB of the partition. -/
  | pinv (e : Enc)
  /-- RESULT_READABLE (R18): A fixed-latency result becomes readable L cycles after issue and its flag drops. -/
  | resultReadable (gid op : Nat)
  /-- OPERATION_COMPLETE (R20): A class V operation completes and decrements its flag. -/
  | operationComplete (gid op : Nat)
  /-- READY_AGE_PROMOTE (R25): A split ready for 64 cycles gains scheduling preference. -/
  | readyAgePromote (gid k : Nat)
  /-- STOP_BOUND (R22): A pending stop is taken at the 64th boundary without an open-window-free point. -/
  | stopBound (gid k : Nat)
  /-- GROUP_END (R29): A group whose lanes have all ended and operations completed ends and frees its quota. -/
  | groupEnd (gid : Nat)
  /-- TEAM_END (R29): A team ends when its groups have ended and its engine commands completed. -/
  | teamEnd (tm : Nat)
  /-- HOME_RECALL (R65): The home recalls an owned grain and merges dirty words before a conflicting store. -/
  | homeRecall (grain : Nat)
  /-- CONVERTED_WRITE (R72): A write to a converted MX page is merged and re-encoded at the home slice. -/
  | convertedWrite (part va : Nat) (data : List Byte)
  /-- CURSOR_BUFFER_DISCARD (R95): The device discards a cursor's buffer at a time of its choice. -/
  | cursorBufferDiscard (gid lane cur : Nat)
  /-- FAULT_RECORD (R359): A held non-resident access writes a fault-buffer record once room exists. -/
  | faultRecord (part idx : Nat)
  /-- HELD_ACCESS_REPLAY (R359): A held access is replayed and retranslated. -/
  | heldAccessReplay (part idx : Nat)
  /-- FBGEN_WRITE (R359): Firmware writes FBGEN, which replays every held access. -/
  | fbgenWrite (part : Nat) (v : Word)
  /-- UMBER_COMMAND_START (R122): Umber reads, checks and starts the next released command of a chain. -/
  | umberCommandStart (tm slot : Nat)
  /-- UMBER_COPY (R129): COPY command copies a tile, optionally transposed or as a plane image. -/
  | umberCopy (tm slot seq row : Nat)
  /-- UMBER_GATHER (R131): GATHER command copies indexed rows to destination rows. -/
  | umberGather (tm slot seq row : Nat)
  /-- UMBER_SCATTER (R131): SCATTER command writes source rows to indexed destinations, optionally reducing. -/
  | umberScatter (tm slot seq row : Nat)
  /-- UMBER_MERGE (R131): MERGE command reduces private copies into indexed rows. -/
  | umberMerge (tm slot seq row : Nat)
  /-- UMBER_BIN (R132): BIN command counts items, patches following commands and advances TAIL. -/
  | umberBin (tm slot seq : Nat)
  /-- UMBER_FENCE (R134): FENCE command waits for earlier commands and releases at its scope. -/
  | umberFence (tm slot seq : Nat)
  /-- ROW_LANDING (R124): A row lands, sets its full bits and adds to its row-count word. -/
  | rowLanding (tm slot seq row : Nat)
  /-- COMPLETION_WORD_WRITE (R123): DONE rises and Umber writes it to the completion word as a release. -/
  | completionWordWrite (tm slot : Nat)
  /-- CHAIN_ADVANCE (R121): A held advance is performed once the ring has room or a BIN has advanced. -/
  | chainAdvance (gid op : Nat)
  /-- HEAD_WRITE (R336): A HEAD write starts a new run of a host chain. -/
  | headWrite (part chain : Nat) (v : Dword)
  /-- TAIL_WRITE (R336): A TAIL high-word write releases cards of a host chain. -/
  | tailWrite (part chain : Nat) (v : LinkWrite)
  /-- CHAIN_ERR_CLEAR (R337): Writing 1 to ERR clears a stopped chain and sets IDLE. -/
  | chainErrClear (part chain : Nat)
  /-- CARD_ACCEPT (R143): Carmine reads and checks a job card, assigns an identifier and derives edges. -/
  | cardAccept (part : Nat) (src : CardSrc)
  /-- TASK_RELEASE (R340): A ready task is released to dispatch in ready order. -/
  | taskRelease (part tid : Nat)
  /-- FIRE (R160): A non-strict task fires with its present and settled operands. -/
  | fire (part tid : Nat)
  /-- RECORD_WRITE (R144): Carmine writes a task's completion record and it leaves the window. -/
  | recordWrite (part tid : Nat)
  /-- BULK_COPY (R146): A bulk-copy task copies bytes through Umber. -/
  | bulkCopy (part tid : Nat)
  /-- BULK_CONVERT (R146): A bulk-convert task converts elements through Umber. -/
  | bulkConvert (part tid : Nat)
  /-- GBUILD (R99): A bulk task adds sorted edge records to a graph. -/
  | gbuild (part tid : Nat)
  /-- GDUMP (R100): A bulk task exports lists in compressed-row form. -/
  | gdump (part tid : Nat)
  /-- DISPATCH_BATCH (R342): The global dispatcher hands a batch of the head grid's teams to a die. -/
  | dispatchBatch (part : Nat)
  /-- TEAM_ADMIT (R343): A die dispatcher places a team on a core and starts its groups. -/
  | teamAdmit (part : Nat)
  /-- PARTIAL_EVICTION (R344): The dispatchers choose a core and groups to evict for a higher-priority team. -/
  | partialEviction (part : Nat)
  /-- EVICTION_SAVE (R345): A drained evicted group saves its context and returns its quota. -/
  | evictionSave (gid : Nat)
  /-- GROUP_RETURN (R346): An evicted group returns to its core from its record. -/
  | groupReturn (gid : Nat)
  /-- GBAR_ARRIVAL (R348): A Carmine replica applies a grid barrier arrival message. -/
  | gbarArrival (part idx : Nat)
  /-- HANDLER_ENTRY (R368): A handler-bound trap stops the group and enters handler mode. -/
  | handlerEntry (gid k : Nat)
  /-- TASK_LEVEL_STOP (R367): Carmine stops a task on a task-level trap and writes FAULTED. -/
  | taskLevelStop (part tid : Nat)
  /-- DEBUG_HALT (R373): A drained group halts, writes its record and a halt notice. -/
  | debugHalt (gid : Nat)
  /-- DBGCTL_HALT (R373): A write of HALT stops every group of the partition. -/
  | dbgctlHalt (part : Nat)
  /-- DBGRES_WRITE (R373): A DBGRES write resumes halted groups from their records. -/
  | dbgresWrite (part : Nat) (v : Word)
  /-- CORRECTABLE_ERROR (R374): An ECC error is corrected in place and counted. -/
  | correctableError
  /-- UNCORRECTABLE_ERROR (R374): An uncorrectable error discards, poisons or strikes a task. -/
  | uncorrectableError (site : ErrSite)
  /-- SHOOTDOWN_SUBMIT (R403): Firmware submits a shoot-down through the shoot-down port. -/
  | shootdownSubmit (addr : Dword) (ctl : Word)
  /-- TLB_ACK (R363): A TLB acknowledges a shoot-down; the last acknowledgement completes it. -/
  | tlbAck (tlb : TlbId)
  /-- MIGRATION_SUBMIT (R361): Firmware starts a page migration through the migration port. -/
  | migrationSubmit (desc : List Word)
  /-- BLOCK_HANDOVER (R361): The old home hands a block's lines and state to the new home. -/
  | blockHandover
  /-- REQUEST_FORWARD (R362): A request reaching the old home after hand-over is forwarded to the new home. -/
  | requestForward (idx : Nat)
  /-- MIGSTAT_MAPPED (R403): A MAPPED write in FORWARD moves a migration to RETIRE. -/
  | migstatMapped
  /-- RESIZE_SUBMIT (R382): Firmware submits a resize descriptor, accepted or refused. -/
  | resizeSubmit (desc : List Word)
  /-- RESIZE_STATE_ADVANCE (R384): A resize enters its next state when the exit condition holds. -/
  | resizeStateAdvance (idx : Nat)
  /-- TEAM_MOVE (R385): A team on a leaving core moves to a target core. -/
  | teamMove (tm : Nat)
  /-- BUCKET_HANDOVER (R386): A slice or controller bucket is handed to its new home. -/
  | bucketHandover (idx : Nat) (ctrl : Bool) (bucket : Nat)
  /-- PCTL_WRITE (R379): A PCTL write enables the partition only when it holds every granule kind. -/
  | pctlWrite (part : Nat) (v : Word)
  /-- VQUOTA_WRITE (R379): A VQUOTA write below the held lines makes the oldest spill. -/
  | vquotaWrite (part : Nat) (v : Word)
  /-- OTINV_WRITE (R380): A handle write to OTINV invalidates cached copies of an entry. -/
  | otinvWrite (part : Nat) (v : Word)
  /-- OTINV_COMPLETE (R380): The last cached copy is dropped and BUSY clears. -/
  | otinvComplete (part : Nat)
  /-- REGISTER_WRITE (R401): A write to a management register without behaviour of its own. -/
  | registerWrite (space : RegSpace) (off : Nat) (v : Dword) (wide : Bool)
  /-- DIE_LINK_LOSS (R390): A lost die-to-die link fails affected grids and drops a die. -/
  | dieLinkLoss (a b : Nat)
  /-- LINK_PORT_LOSS (R399): An Akivo Link port fails and in-flight requests are resent. -/
  | linkPortLoss (port : Nat)
  /-- FLIT_ACK (R397): The far end acknowledges flits and compression tables advance. -/
  | flitAck (port n : Nat)
  /-- FLIT_RETRY (R397): A port resends its retained flits unchanged. -/
  | flitRetry (port : Nat)
  /-- DOMAIN_REQUEST (R398): A target device accepts or refuses a domain access. -/
  | domainRequest (r : DomReq)
  /-- RESET (R392): Reset starts measured boot from the package flash. -/
  | reset (images : Flash)
  /-- ATTESTATION_REQUEST (R394): Firmware returns a signed report for a nonce. -/
  | attestationRequest (part : Nat) (nonce : List Byte)
  /-- KEY_LOAD (R395): Firmware derives and loads a key pair into key slots. -/
  | keyLoad (part key : Nat) (peer : List Byte) (secret : Secret)
  /-- THROTTLE_STEP (R408): Every 10 ms the arithmetic clock steps down or up by temperature and power. -/
  | throttleStep (temps : List Nat) (watts : Nat)
  /-- FATAL_ERROR (R407): A fatal error stops every core, writes a dump and sets FATAL. -/
  | fatalError (why : FatalCause)
  /-- CORE_POWER_UP (R6): A core powers up and its cycle counter restarts at zero. -/
  | corePowerUp (core : Nat)
  /-- CORE_POWER_GATE (R363): A core is power-gated and its TLBs emptied. -/
  | corePowerGate (core : Nat)
  /-- HOST_MEMORY_WRITE (R114): The host writes device memory through one of its PCI Express links. -/
  | hostMemoryWrite (link part va : Nat) (data : List Byte)
  /-- FIRMWARE_MEMORY_WRITE (R401): Firmware on the management processor writes device memory by host physical address, such as page tables, object-table entries and domain tables. -/
  | firmwareMemoryWrite (what : FwTarget) (data : List Byte)
  /-- NOFRAME_STOP (R360): Firmware finds no evictable frame and stops the task with MEM, NOFRAME, which completes KILLED. -/
  | noframeStop (part tid va : Nat)
  /-- KEY_SLOT_ERASE (R395): When a job ends, firmware erases its key slots in the memory controllers. -/
  | keySlotErase (part key : Nat)
  /-- RETIRE_FAILING_UNIT (R404): Firmware retires a failing unit, swapping in a spare or taking its granule out of service and lowering caps. -/
  | retireFailingUnit (kind die unit : Nat)
  /-- GRANULE_REPAIR (R405): Firmware's repair procedure returns a quarantined granule to the pool after self-test and clears REPLREQ. -/
  | granuleRepair (kind g : Nat)
  /-- DIE_LINK_RETRAIN (R405): A failed die-to-die link is retrained, so that the dropped die's granules may be returned. -/
  | dieLinkRetrain (a b : Nat)
  deriving DecidableEq, Repr

end Sys2Proof
end

