-- ==== Sys2Proof/Machine/Forms.lean ====
section
/-!
DEFINITION. What R171 to R188 and each instruction's entry say of its encoding: opcode, latency class, the role of
each field, the modifier bits it uses, and the checks of R183 that are its own. One `Form` for each instruction.
-/

namespace Sys2Proof

/-- Field M[h:l] of literal M. -/
def Enc.M (e : Enc) (h l : Nat) : Nat := bitsOf e.m.md.toNat (h - 8) (l - 8)

/-- JG of form G-J (R171). -/
def Enc.jg (e : Enc) : Nat := bitsOf e.d.toNat 7 4

/-- OFFSET of form G-J, a signed word count (R172). -/
def Enc.offset (e : Enc) : Int :=
  (e.d.extractLsb 3 0 ++ e.a ++ e.b : BitVec 20).toInt

/-- Length in bytes (R168). -/
def Enc.length (e : Enc) : Nat := 8 + 4 * e.ctl.lit.toNat

end Sys2Proof

namespace Sys2Proof.Machine

/-- The latency classes (R188). -/
inductive LatClass where
  | A | F | D | V | N
  deriving DecidableEq, Repr

/-- The role that an entry gives a register field (R171, R173, R174). -/
inductive Role where
  /-- Unused: must be zero. -/
  | unused
  /-- A block of `n` v registers, destination or source. -/
  | vd (n : Nat)
  | vs (n : Nat)
  /-- A uniform operand of `n` words, source or destination. -/
  | us (n : Nat)
  | ud (n : Nat)
  /-- A predicate, destination or source; a cursor. -/
  | pd
  | pr
  | cur
  /-- A lane special (`true` for WRSP); the handler register of WRSR. -/
  | lsp (wr : Bool)
  | hc
  deriving DecidableEq, Repr

/-- How an immediate B is used (R178). -/
inductive BiKind where
  | no | w32 | n64 | s64 | f64
  deriving DecidableEq, Repr

/-- What the encoding rules say of one instruction. -/
structure Form where
  mnemonic    : String
  uni         : Bool
  op          : Nat
  gj          : Bool
  handlerOnly : Bool
  cls         : Enc → LatClass
  d           : Enc → Word → Role
  a           : Enc → Word → Role
  b           : Enc → Word → Role
  c           : Enc → Word → Role
  /-- The fields (high, low) of M[24:8] that the entry uses. -/
  mods        : Enc → List (Nat × Nat)
  bi          : Enc → BiKind
  /-- The second literal is an address offset when BI is clear. -/
  off         : Bool
  modOk       : Enc → Bool
  modFmt      : Enc → Word → Bool
  rsvd        : Enc → Bool
  /-- SA and SB are judged by `operandBad`, not as must-be-zero bits. -/
  saFree      : Bool
  operandBad  : Enc → Bool
  scope       : Option (Nat × Nat)
  formatBad   : Enc → Word → Bool
  absent      : Enc → Word → Word → Bool
  /-- HOLD must be clear (R182): the instruction can park or divide the split. -/
  parks       : Enc → Bool
  /-- It releases or acquires (R105): it waits until the group's earlier accesses are performed (R104). -/
  order       : Enc → Bool
  /-- It reads or writes scratchpad other than as a lane's load or store: it waits until the group's scratchpad accesses
  are performed (R104). -/
  scr         : Bool

/-- The fields of fmt (R53). -/
def fmtAF (f : Word) : Nat := bitsOf f.toNat 3 0
/-- BF. -/
def fmtBF (f : Word) : Nat := bitsOf f.toNat 7 4
/-- CF. -/
def fmtCF (f : Word) : Nat := bitsOf f.toNat 9 8
/-- SCF. -/
def fmtSCF (f : Word) : Nat := bitsOf f.toNat 11 10
/-- GSZ. -/
def fmtGSZ (f : Word) : Nat := bitsOf f.toNat 13 12
/-- RM. -/
def fmtRM (f : Word) : Nat := bitsOf f.toNat 16 14
/-- SAT. -/
def fmtSAT (f : Word) : Bool := bitOf f.toNat 17
/-- FTZ. -/
def fmtFTZ (f : Word) : Bool := bitOf f.toNat 18
/-- CT. -/
def fmtCT (f : Word) : Nat := bitsOf f.toNat 20 19
/-- CMPA. -/
def fmtCMPA (f : Word) : Bool := bitOf f.toNat 21

/-- A legal fmt (R54). -/
def fmtLegal (f : Word) : Bool :=
  bitsOf f.toNat 31 22 == 0 && decide (fmtRM f ≤ 5) && (!fmtCMPA f || fmtCT f != 0)

/-- Registers of an accumulator column (R222). -/
def fmtRc (f : Word) : Nat :=
  match fmtCF f with
  | 0 => 1
  | 3 => 4
  | _ => 2

/-- Fields of caps (R2). -/
def capSLATE (c : Word) : Bool := bitOf c.toNat 2
/-- DPX. -/
def capDPX (c : Word) : Bool := bitOf c.toNat 3
/-- ENCR. -/
def capENCR (c : Word) : Bool := bitOf c.toNat 4

/-- Registers of a value under W64 at M[bit] (R192). -/
def w64 (e : Enc) (bit : Nat) : Nat := 1 + e.M bit bit
/-- Registers of a value of FT (R193). -/
def ftW (e : Enc) : Nat := if e.M 9 8 = 1 then 2 else 1
/-- Class of a floating instruction with FT (R188). -/
def ftClass (e : Enc) : LatClass := if e.M 9 8 = 1 then .D else .F
/-- Immediate of a floating instruction with FT (R178). -/
def ftBi (e : Enc) : BiKind := if e.M 9 8 = 1 then .f64 else .w32
/-- Class of CFMA and CMUL (R206). -/
def cwClass (e : Enc) : LatClass := if e.M 8 8 = 1 then .D else .F
/-- RMO, whose top bit is at M[h], is defined (R192). -/
def rmoOk (e : Enc) (h : Nat) : Bool := e.M h (h - 2) != 7
/-- Immediate of an integer TY (R179, R178). -/
def tyBi (ty : Nat) : BiKind := if ty = 3 then .n64 else if ty = 7 then .s64 else .w32
/-- Registers of a CVT type (R204). -/
def cvtW (t : Nat) : Nat :=
  if t = 13 then 4 else if t = 1 ∨ t = 12 ∨ t = 19 ∨ t = 23 then 2 else 1
/-- Class of CVT and SCVT (R204). -/
def cvtClass (e : Enc) : LatClass :=
  if [1, 13, 19, 23].contains (e.M 12 8) || [1, 13, 19, 23].contains (e.M 17 13) then .D else .F
/-- An illegal pair of CVT types (R204). -/
def cvtBad (e : Enc) : Bool :=
  let s := e.M 12 8
  let d := e.M 17 13
  [10, 11, 15].contains s || [10, 11, 15].contains d || ([12, 13].contains s != [12, 13].contains d)
/-- Elements of PKN and UPKN (R205). -/
def pkN (df : Nat) : Nat :=
  if df = 2 ∨ df = 3 then 2 else if df = 8 then 8 else if 4 ≤ df ∧ df ≤ 9 then 4 else 1
/-- A DF that PKN and UPKN do not take (R205). -/
def pkBad (e : Enc) : Bool := !([2, 3, 4, 5, 6, 7, 8, 9].contains (e.M 11 8))
/-- Columns of code N (R222). -/
def mmaN (c : Nat) : Nat := if c = 0 then 32 else if c = 1 then 16 else 8
/-- Registers of an element of EF (R226). -/
def efRc (ef : Nat) : Nat := if ef = 13 then 4 else if ef = 1 ∨ ef = 12 then 2 else 1
/-- Source registers of XF (R232). -/
def xfSrc (e : Enc) : Nat :=
  match e.M 9 8 with
  | 1 => 64
  | 2 => (e.M 13 11 + 1) * (if e.M 10 10 = 1 then 4 else 2)
  | _ => 32
/-- Destination registers of XF (R232). -/
def xfDst (e : Enc) (fmt : Word) : Nat :=
  if e.M 9 8 = 3 then (if fmtGSZ fmt = 3 then 34 else 33) else xfSrc e
/-- A stream format that DCD and ENC do not take (R236). -/
def streamBad (e : Enc) (fmt : Word) : Bool :=
  match e.M 9 8 with
  | 0 => !([0, 2, 3].contains (e.M 13 10))
  | 1 => e.M 13 10 != 0
  | 2 => !(decide (4 ≤ e.M 13 10) && decide (e.M 13 10 ≤ 8))
  | _ => e.M 13 10 != 0 || fmtSCF fmt == 0
/-- The combinations of R219. -/
def mmaLegal (f : Word) : Bool :=
  match fmtBF f, fmtAF f, fmtCF f with
  | 10, a, 0 => [3, 4, 5].contains a && fmtSCF f != 0
  | 11, a, 0 => [3, 4, 5].contains a && fmtSCF f != 0
  | 4, 4, 0 => true
  | 5, 5, 0 => true
  | 3, 3, 0 => true
  | 2, 2, 0 => true
  | 0, 0, 0 => true
  | 1, 1, 1 => true
  | 12, 12, 2 => true
  | 13, 13, 3 => true
  | _, _, _ => false
/-- The combinations that need DPX (R219). -/
def mmaDpx (f : Word) : Bool := [1, 12, 13].contains (fmtAF f)
/-- The pairings of R229. -/
def mdrnLegal (e : Enc) (f : Word) : Bool :=
  let df := e.M 13 10
  let red := e.M 15 14
  match fmtCF f with
  | 0 => if red = 0 then [0, 2, 3, 4, 5].contains df else [0, 2, 3].contains df
  | 1 => [0, 1].contains df
  | 2 => df == 12 && decide (red ≤ 1)
  | _ => [12, 13].contains df && decide (red ≤ 1)
/-- Registers of a block of size code SZ (R241). -/
def szN (sz : Nat) : Nat := if sz = 5 then 2 else if sz = 6 then 4 else 1
/-- Registers of an AT (R250). -/
def atN (t : Nat) : Nat := if t = 2 ∨ t = 3 ∨ t = 5 then 2 else 1
/-- Immediate of an AT (R249, R178). -/
def atBi (t : Nat) : BiKind := if t = 2 then .n64 else if t = 3 then .s64 else if t = 5 then .f64 else .w32
/-- The pairs of OP and AT of R250. -/
def atomOk (op t : Nat) : Bool :=
  if op ≤ 5 then decide (t ≤ 3)
  else if op ≤ 7 then true
  else if op ≤ 9 then t == 0 || t == 2
  else decide (op ≤ 12) && decide (4 ≤ t)

/-- What an entry has unless it says otherwise: every field unused, no modifier, no immediate. -/
def base : Form where
  mnemonic := ""
  uni := false
  op := 0
  gj := false
  handlerOnly := false
  cls := fun _ => .A
  d := fun _ _ => .unused
  a := fun _ _ => .unused
  b := fun _ _ => .unused
  c := fun _ _ => .unused
  mods := fun _ => []
  bi := fun _ => .no
  off := false
  modOk := fun _ => true
  modFmt := fun _ _ => false
  rsvd := fun _ => false
  saFree := false
  operandBad := fun _ => false
  scope := none
  formatBad := fun _ _ => false
  absent := fun _ _ _ => false
  parks := fun _ => false
  order := fun _ => false
  scr := false

/-- IADD (R196). -/
def formIadd : Form :=
  { base with
    mnemonic := "IADD", op := 0x01, cls := fun _ => .A, d := fun _ _ => .vd 1, a := fun _ _ => .vs 1,
    b := fun _ _ => .vs 1, mods := fun _ => [(9, 8)], bi := fun _ => .w32 }

/-- ISUB (R196). -/
def formIsub : Form :=
  { base with
    mnemonic := "ISUB", op := 0x02, cls := fun _ => .A, d := fun _ _ => .vd 1, a := fun _ _ => .vs 1,
    b := fun _ _ => .vs 1, mods := fun _ => [(9, 8)], bi := fun _ => .w32 }

/-- IMUL (R196). -/
def formImul : Form :=
  { base with
    mnemonic := "IMUL", op := 0x03, cls := fun _ => .D, d := fun _ _ => .vd 1, a := fun _ _ => .vs 1,
    b := fun _ _ => .vs 1, bi := fun _ => .w32 }

/-- IMULH (R196). -/
def formImulh : Form :=
  { base with
    mnemonic := "IMULH", op := 0x04, cls := fun _ => .D, d := fun _ _ => .vd 1, a := fun _ _ => .vs 1,
    b := fun _ _ => .vs 1, mods := fun _ => [(8, 8)], bi := fun _ => .w32 }

/-- IMAD (R196). -/
def formImad : Form :=
  { base with
    mnemonic := "IMAD", op := 0x05, cls := fun _ => .D, d := fun _ _ => .vd 1, a := fun _ _ => .vs 1,
    b := fun _ _ => .vs 1, c := fun _ _ => .vs 1, mods := fun _ => [(9, 8)], bi := fun _ => .w32 }

/-- IMIN (R196). -/
def formImin : Form :=
  { base with
    mnemonic := "IMIN", op := 0x06, cls := fun _ => .A, d := fun _ _ => .vd 1, a := fun _ _ => .vs 1,
    b := fun _ _ => .vs 1, mods := fun _ => [(8, 8)], bi := fun _ => .w32 }

/-- IMAX (R196). -/
def formImax : Form :=
  { base with
    mnemonic := "IMAX", op := 0x07, cls := fun _ => .A, d := fun _ _ => .vd 1, a := fun _ _ => .vs 1,
    b := fun _ _ => .vs 1, mods := fun _ => [(8, 8)], bi := fun _ => .w32 }

/-- IABS (R196). -/
def formIabs : Form :=
  { base with
    mnemonic := "IABS", op := 0x08, cls := fun _ => .A, d := fun _ _ => .vd 1, a := fun _ _ => .vs 1,
    mods := fun _ => [(9, 9)] }

/-- IADD64 (R196). -/
def formIadd64 : Form :=
  { base with
    mnemonic := "IADD64", op := 0x09, cls := fun _ => .D, d := fun _ _ => .vd 2, a := fun _ _ => .vs 2,
    b := fun _ _ => .vs 2, mods := fun _ => [(9, 8)], bi := fun e => if e.M 8 8 = 1 then .s64 else .n64 }

/-- IMADW (R196). -/
def formImadw : Form :=
  { base with
    mnemonic := "IMADW", op := 0x0A, cls := fun _ => .D, d := fun _ _ => .vd 2, a := fun _ _ => .vs 1,
    b := fun _ _ => .vs 1, c := fun _ _ => .vs 2, mods := fun _ => [(8, 8)], bi := fun _ => .w32 }

/-- SHL (R197). -/
def formShl : Form :=
  { base with
    mnemonic := "SHL", op := 0x0B, cls := fun _ => .A, d := fun _ _ => .vd 1, a := fun _ _ => .vs 1,
    b := fun _ _ => .vs 1, mods := fun _ => [(8, 8)], bi := fun _ => .w32 }

/-- SHR (R197). -/
def formShr : Form :=
  { base with
    mnemonic := "SHR", op := 0x0C, cls := fun _ => .A, d := fun _ _ => .vd 1, a := fun _ _ => .vs 1,
    b := fun _ _ => .vs 1, mods := fun _ => [(8, 8)], bi := fun _ => .w32 }

/-- SAR (R197). -/
def formSar : Form :=
  { base with
    mnemonic := "SAR", op := 0x0D, cls := fun _ => .A, d := fun _ _ => .vd 1, a := fun _ _ => .vs 1,
    b := fun _ _ => .vs 1, mods := fun _ => [(8, 8)], bi := fun _ => .w32 }

/-- FSHF (R197). -/
def formFshf : Form :=
  { base with
    mnemonic := "FSHF", op := 0x0E, cls := fun _ => .A, d := fun _ _ => .vd 1, a := fun _ _ => .vs 1,
    b := fun _ _ => .vs 1, c := fun _ _ => .vs 1, mods := fun _ => [(8, 8)], bi := fun _ => .w32 }

/-- LTAB (R197). -/
def formLtab : Form :=
  { base with
    mnemonic := "LTAB", op := 0x0F, cls := fun _ => .A, d := fun _ _ => .vd 1, a := fun _ _ => .vs 1,
    b := fun _ _ => .vs 1, c := fun _ _ => .vs 1, mods := fun _ => [(15, 8)], bi := fun _ => .w32 }

/-- POPC (R197). -/
def formPopc : Form :=
  { base with
    mnemonic := "POPC", op := 0x10, cls := fun _ => .A, d := fun _ _ => .vd 1, a := fun _ _ => .vs 1 }

/-- CLZ (R197). -/
def formClz : Form :=
  { base with
    mnemonic := "CLZ", op := 0x11, cls := fun _ => .A, d := fun _ _ => .vd 1, a := fun _ _ => .vs 1 }

/-- BREV (R197). -/
def formBrev : Form :=
  { base with
    mnemonic := "BREV", op := 0x12, cls := fun _ => .A, d := fun _ _ => .vd 1, a := fun _ _ => .vs 1 }

/-- BFE (R197). -/
def formBfe : Form :=
  { base with
    mnemonic := "BFE", op := 0x13, cls := fun _ => .A, d := fun _ _ => .vd 1, a := fun _ _ => .vs 1,
    b := fun _ _ => .vs 1, mods := fun _ => [(8, 8)], bi := fun _ => .w32 }

/-- BFI (R197). -/
def formBfi : Form :=
  { base with
    mnemonic := "BFI", op := 0x14, cls := fun _ => .A, d := fun _ _ => .vd 1, a := fun _ _ => .vs 1,
    b := fun _ _ => .vs 1, c := fun _ _ => .vs 1, bi := fun _ => .w32 }

/-- BPICK (R197). -/
def formBpick : Form :=
  { base with
    mnemonic := "BPICK", op := 0x15, cls := fun _ => .A, d := fun _ _ => .vd 1, a := fun _ _ => .vs 1,
    b := fun _ _ => .vs 1, c := fun _ _ => .vs 1, bi := fun _ => .w32 }

/-- ICMP (R198). -/
def formIcmp : Form :=
  { base with
    mnemonic := "ICMP", op := 0x16, cls := fun _ => .A, d := fun _ _ => .pd,
    a := fun e _ => .vs (if e.M 12 12 = 1 then 2 else 1), b := fun e _ => .vs (if e.M 12 12 = 1 then 2 else 1),
    c := fun _ _ => .pr, mods := fun _ => [(17, 8)], bi := fun e => tyBi (e.M 14 12),
    modOk := fun e => e.M 11 8 ≤ 5 && (e.M 14 12 % 4 ≥ 2) }

/-- PTAB (R198). -/
def formPtab : Form :=
  { base with
    mnemonic := "PTAB", op := 0x17, cls := fun _ => .A, d := fun _ _ => .pd, a := fun _ _ => .pr,
    b := fun _ _ => .pr, c := fun _ _ => .pr, mods := fun _ => [(15, 8)] }

/-- SEL (R198). -/
def formSel : Form :=
  { base with
    mnemonic := "SEL", op := 0x18, cls := fun _ => .A, d := fun e _ => .vd (w64 e 8),
    a := fun e _ => .vs (w64 e 8), b := fun e _ => .vs (w64 e 8), c := fun _ _ => .pr,
    mods := fun _ => [(9, 8)], bi := fun e => if e.M 8 8 = 1 then .n64 else .w32 }

/-- MOV (R198). -/
def formMov : Form :=
  { base with
    mnemonic := "MOV", op := 0x19, cls := fun _ => .A, d := fun e _ => .vd (w64 e 8),
    b := fun e _ => .vs (w64 e 8), mods := fun _ => [(8, 8)],
    bi := fun e => if e.M 8 8 = 1 then .n64 else .w32 }

/-- RDSP (R199). -/
def formRdsp : Form :=
  { base with
    mnemonic := "RDSP", op := 0x1A, cls := fun _ => .A, d := fun _ _ => .vd 1, a := fun _ _ => .lsp false }

/-- WRSP (R199). -/
def formWrsp : Form :=
  { base with
    mnemonic := "WRSP", op := 0x1B, cls := fun _ => .A, a := fun _ _ => .lsp true, b := fun _ _ => .vs 1,
    bi := fun _ => .w32 }

/-- LEA (R196). -/
def formLea : Form :=
  { base with
    mnemonic := "LEA", op := 0x1C, cls := fun _ => .A, d := fun _ _ => .vd 2, a := fun _ _ => .vs 2,
    b := fun _ _ => .vs 1, mods := fun _ => [(11, 8)], bi := fun _ => .w32 }

/-- IDP4 (R196). -/
def formIdp4 : Form :=
  { base with
    mnemonic := "IDP4", op := 0x1D, cls := fun _ => .D, d := fun _ _ => .vd 1, a := fun _ _ => .vs 1,
    b := fun _ _ => .vs 1, c := fun _ _ => .vs 1, mods := fun _ => [(10, 8)], bi := fun _ => .w32 }

/-- FADD (R200). -/
def formFadd : Form :=
  { base with
    mnemonic := "FADD", op := 0x20, cls := fun e => ftClass e, d := fun e _ => .vd (ftW e),
    a := fun e _ => .vs (ftW e), b := fun e _ => .vs (ftW e), mods := fun _ => [(11, 8), (15, 13)],
    bi := fun e => ftBi e, modOk := fun e => rmoOk e 15 }

/-- FMUL (R200). -/
def formFmul : Form :=
  { base with
    mnemonic := "FMUL", op := 0x21, cls := fun e => ftClass e, d := fun e _ => .vd (ftW e),
    a := fun e _ => .vs (ftW e), b := fun e _ => .vs (ftW e), mods := fun _ => [(11, 8), (15, 13)],
    bi := fun e => ftBi e, modOk := fun e => rmoOk e 15 }

/-- FFMA (R200). -/
def formFfma : Form :=
  { base with
    mnemonic := "FFMA", op := 0x22, cls := fun e => ftClass e, d := fun e _ => .vd (ftW e),
    a := fun e _ => .vs (ftW e), b := fun e _ => .vs (ftW e), c := fun e _ => .vs (ftW e),
    mods := fun _ => [(15, 8)], bi := fun e => ftBi e, modOk := fun e => rmoOk e 15 }

/-- FMIN (R201). -/
def formFmin : Form :=
  { base with
    mnemonic := "FMIN", op := 0x23, cls := fun e => ftClass e, d := fun e _ => .vd (ftW e),
    a := fun e _ => .vs (ftW e), b := fun e _ => .vs (ftW e), mods := fun _ => [(11, 8), (16, 16)],
    bi := fun e => ftBi e }

/-- FMAX (R201). -/
def formFmax : Form :=
  { base with
    mnemonic := "FMAX", op := 0x24, cls := fun e => ftClass e, d := fun e _ => .vd (ftW e),
    a := fun e _ => .vs (ftW e), b := fun e _ => .vs (ftW e), mods := fun _ => [(11, 8), (16, 16)],
    bi := fun e => ftBi e }

/-- FCMP (R202). -/
def formFcmp : Form :=
  { base with
    mnemonic := "FCMP", op := 0x25, cls := fun e => ftClass e, d := fun _ _ => .pd,
    a := fun e _ => .vs (ftW e), b := fun e _ => .vs (ftW e), c := fun _ _ => .pr,
    mods := fun _ => [(11, 8), (22, 16)], bi := fun e => ftBi e, modOk := fun e => e.M 19 16 ≤ 13 }

/-- FCLASS (R203). -/
def formFclass : Form :=
  { base with
    mnemonic := "FCLASS", op := 0x26, cls := fun e => ftClass e, d := fun _ _ => .vd 1,
    a := fun e _ => .vs (ftW e), mods := fun _ => [(9, 8)] }

/-- FSCALE (R200). -/
def formFscale : Form :=
  { base with
    mnemonic := "FSCALE", op := 0x27, cls := fun e => ftClass e, d := fun e _ => .vd (ftW e),
    a := fun e _ => .vs (ftW e), b := fun _ _ => .vs 1, mods := fun _ => [(9, 8), (15, 13)],
    bi := fun _ => .w32, modOk := fun e => rmoOk e 15 }

/-- FRND (R200). -/
def formFrnd : Form :=
  { base with
    mnemonic := "FRND", op := 0x28, cls := fun e => ftClass e, d := fun e _ => .vd (ftW e),
    a := fun e _ => .vs (ftW e), mods := fun _ => [(9, 8), (15, 13)], modOk := fun e => rmoOk e 15 }

/-- CVT (R204). -/
def formCvt : Form :=
  { base with
    mnemonic := "CVT", op := 0x29, cls := fun e => cvtClass e, d := fun e _ => .vd (cvtW (e.M 17 13)),
    a := fun e _ => .vs (cvtW (e.M 12 8)), mods := fun _ => [(20, 8)],
    modOk := fun e => rmoOk e 20 && e.M 12 8 < 24 && e.M 17 13 < 24, formatBad := fun e _ => cvtBad e }

/-- PKN (R205). -/
def formPkn : Form :=
  { base with
    mnemonic := "PKN", op := 0x2A, cls := fun _ => .F, d := fun _ _ => .vd 1,
    a := fun e _ => .vs (pkN (e.M 11 8)), mods := fun _ => [(11, 8), (15, 13)], modOk := fun e => rmoOk e 15,
    formatBad := fun e _ => pkBad e }

/-- UPKN (R205). -/
def formUpkn : Form :=
  { base with
    mnemonic := "UPKN", op := 0x2B, cls := fun _ => .F, d := fun e _ => .vd (pkN (e.M 11 8)),
    a := fun _ _ => .vs 1, mods := fun _ => [(11, 8)], formatBad := fun e _ => pkBad e }

/-- CFMA (R206). -/
def formCfma : Form :=
  { base with
    mnemonic := "CFMA", op := 0x2C, cls := fun e => cwClass e,
    d := fun e _ => .vd (if e.M 8 8 = 1 then 4 else 2), a := fun e _ => .vs (if e.M 8 8 = 1 then 4 else 2),
    b := fun e _ => .vs (if e.M 8 8 = 1 then 4 else 2), c := fun e _ => .vs (if e.M 8 8 = 1 then 4 else 2),
    mods := fun _ => [(10, 8), (15, 13)], modOk := fun e => rmoOk e 15 }

/-- CMUL (R206). -/
def formCmul : Form :=
  { base with
    mnemonic := "CMUL", op := 0x2D, cls := fun e => cwClass e,
    d := fun e _ => .vd (if e.M 8 8 = 1 then 4 else 2), a := fun e _ => .vs (if e.M 8 8 = 1 then 4 else 2),
    b := fun e _ => .vs (if e.M 8 8 = 1 then 4 else 2), mods := fun _ => [(10, 8), (15, 13)],
    modOk := fun e => rmoOk e 15 }

/-- FDP2 (R206). -/
def formFdp2 : Form :=
  { base with
    mnemonic := "FDP2", op := 0x2E, cls := fun _ => .F, d := fun _ _ => .vd 1, a := fun _ _ => .vs 1,
    b := fun _ _ => .vs 1, c := fun _ _ => .vs 1, mods := fun _ => [(8, 8), (15, 13)], bi := fun _ => .w32,
    modOk := fun e => rmoOk e 15 }

/-- FRCP (R207). -/
def formFrcp : Form :=
  { base with
    mnemonic := "FRCP", op := 0x30, cls := fun _ => .V, d := fun e _ => .vd (ftW e),
    a := fun e _ => .vs (ftW e), mods := fun _ => [(9, 8), (15, 13)],
    modOk := fun e => rmoOk e 15 && e.M 9 8 ≤ 1 }

/-- FRSQ (R207). -/
def formFrsq : Form :=
  { base with
    mnemonic := "FRSQ", op := 0x31, cls := fun _ => .V, d := fun e _ => .vd (ftW e),
    a := fun e _ => .vs (ftW e), mods := fun _ => [(9, 8), (15, 13)],
    modOk := fun e => rmoOk e 15 && e.M 9 8 ≤ 1 }

/-- FSQRT (R207). -/
def formFsqrt : Form :=
  { base with
    mnemonic := "FSQRT", op := 0x32, cls := fun _ => .V, d := fun e _ => .vd (ftW e),
    a := fun e _ => .vs (ftW e), mods := fun _ => [(9, 8), (15, 13)],
    modOk := fun e => rmoOk e 15 && e.M 9 8 ≤ 1 }

/-- FEXP2 (R207). -/
def formFexp2 : Form :=
  { base with
    mnemonic := "FEXP2", op := 0x34, cls := fun _ => .V, d := fun e _ => .vd (ftW e),
    a := fun e _ => .vs (ftW e), mods := fun _ => [(9, 8), (15, 13)],
    modOk := fun e => rmoOk e 15 && e.M 9 8 ≤ 1 }

/-- FLOG2 (R207). -/
def formFlog2 : Form :=
  { base with
    mnemonic := "FLOG2", op := 0x35, cls := fun _ => .V, d := fun e _ => .vd (ftW e),
    a := fun e _ => .vs (ftW e), mods := fun _ => [(9, 8), (15, 13)],
    modOk := fun e => rmoOk e 15 && e.M 9 8 ≤ 1 }

/-- FDIV (R207). -/
def formFdiv : Form :=
  { base with
    mnemonic := "FDIV", op := 0x33, cls := fun _ => .V, d := fun e _ => .vd (ftW e),
    a := fun e _ => .vs (ftW e), b := fun e _ => .vs (ftW e), mods := fun _ => [(9, 8), (15, 13)],
    bi := fun e => ftBi e, modOk := fun e => rmoOk e 15 && e.M 9 8 ≤ 1 }

/-- XF (R232). -/
def formXf : Form :=
  { base with
    mnemonic := "XF", op := 0x36, cls := fun _ => .V, d := fun e fmt => .vd (xfDst e fmt),
    a := fun e _ => .vs (xfSrc e),
    mods := fun e => [(9, 8)] ++ (if e.M 9 8 = 0 then [] else [(10, 10)]) ++ (if e.M 9 8 = 2 then [(13, 11)] else []),
    operandBad := fun e => e.m.sa || e.m.sb || e.d.toNat % 4 != 0 || e.a.toNat % 4 != 0,
    formatBad := fun e fmt => e.M 9 8 == 3 && (fmtGSZ fmt = 1 || fmtGSZ fmt = 2 || fmtSCF fmt = 0),
    saFree := true, absent := fun e _ caps => e.M 9 8 = 2 && e.M 10 10 = 1 && !capDPX caps }

/-- DCD (R237). -/
def formDcd : Form :=
  { base with
    mnemonic := "DCD", scr := true, op := 0x37, cls := fun _ => .V, d := fun e _ => .vd (e.M 16 14 + 2),
    a := fun _ _ => .us 1, b := fun e _ => if e.M 9 8 = 1 then .us 1 else .unused, mods := fun _ => [(18, 8)],
    modOk := fun e => e.M 18 17 ≤ 2, operandBad := fun e => !e.m.sa || (e.m.sb != (e.M 9 8 == 1)),
    parks := fun e => e.M 18 17 != 0, formatBad := fun e fmt => streamBad e fmt, saFree := true,
    order := fun e => e.M 18 17 != 0 }

/-- ENC (R239). -/
def formEnc : Form :=
  { base with
    mnemonic := "ENC", op := 0x38, cls := fun _ => .V, d := fun _ _ => .vd 1, a := fun _ _ => .us 1,
    b := fun e _ => .vs (e.M 16 14 + 1), c := fun e _ => if e.M 9 8 = 1 then .us 1 else .unused,
    mods := fun _ => [(16, 8)], operandBad := fun e => !e.m.sa || e.m.sb,
    formatBad := fun e fmt => streamBad e fmt, saFree := true,
    order := fun _ => true }

/-- XLANE (R209). -/
def formXlane : Form :=
  { base with
    mnemonic := "XLANE", op := 0x3A, cls := fun _ => .V, d := fun e _ => .vd (w64 e 13),
    a := fun e _ => .vs (w64 e 13), b := fun _ _ => .vs 1, c := fun _ _ => .pd, mods := fun _ => [(13, 8)],
    bi := fun _ => .w32, modOk := fun e => e.M 12 10 ≤ 5 }

/-- POLL (R210). -/
def formPoll : Form :=
  { base with
    mnemonic := "POLL", op := 0x3B, cls := fun _ => .V, d := fun _ _ => .vd 1, a := fun _ _ => .pr,
    c := fun _ _ => .pd, mods := fun _ => [(10, 8)], modOk := fun e => e.M 9 8 ≤ 2 }

/-- REDUX (R211). -/
def formRedux : Form :=
  { base with
    mnemonic := "REDUX", op := 0x3C, cls := fun _ => .V, d := fun _ _ => .vd 1, a := fun _ _ => .vs 1,
    mods := fun _ => [(12, 8)], modOk := fun e => e.M 11 8 ≤ 8 }

/-- SCAN (R211). -/
def formScan : Form :=
  { base with
    mnemonic := "SCAN", op := 0x3D, cls := fun _ => .V, d := fun _ _ => .vd 1, a := fun _ _ => .vs 1,
    mods := fun _ => [(13, 8)], modOk := fun e => e.M 11 8 ≤ 8 }

/-- MATCH (R212). -/
def formMatchB : Form :=
  { base with
    mnemonic := "MATCH", op := 0x3E, cls := fun _ => .V, d := fun _ _ => .vd 1, a := fun e _ => .vs (w64 e 8),
    c := fun _ _ => .pd, mods := fun _ => [(8, 8)] }

/-- TOPK (R213). -/
def formTopk : Form :=
  { base with
    mnemonic := "TOPK", op := 0x3F, cls := fun _ => .V, d := fun _ _ => .vd 1, a := fun _ _ => .vs 1,
    b := fun _ _ => .vs 1, c := fun _ _ => .pd, mods := fun _ => [(10, 8)], bi := fun _ => .w32,
    modOk := fun e => e.M 9 8 ≤ 2 }

/-- RAND (R214). -/
def formRand : Form :=
  { base with
    mnemonic := "RAND", op := 0x40, cls := fun _ => .A, d := fun _ _ => .vd 1, mods := fun _ => [(8, 8)] }

/-- PRUNE (R215). -/
def formPrune : Form :=
  { base with
    mnemonic := "PRUNE", op := 0x41, cls := fun _ => .A, d := fun _ _ => .vd 1, a := fun _ _ => .vs 1,
    b := fun _ _ => .vs 1, mods := fun _ => [(9, 8)], bi := fun _ => .w32, modOk := fun e => e.M 9 8 ≤ 2 }

/-- MMA (R223). -/
def formMma : Form :=
  { base with
    mnemonic := "MMA", scr := true, op := 0x48, cls := fun _ => .V, d := fun e fmt => .vd (mmaN (e.M 9 8) * fmtRc fmt),
    a := fun _ _ => .us 1, b := fun _ _ => .us 1, c := fun _ _ => .us 1, mods := fun _ => [(15, 8)],
    modOk := fun e => e.M 9 8 ≤ 2 && e.M 11 10 ≤ 2 && e.M 13 12 ≤ 2, operandBad := fun e => !e.m.sa || !e.m.sb,
    parks := fun e => e.M 13 10 != 0,
    modFmt := fun e fmt => (e.M 15 14 != 0) && !(fmtAF fmt == 12 || fmtAF fmt == 13),
    formatBad := fun _ fmt => !mmaLegal fmt, absent := fun _ fmt caps => mmaDpx fmt && !capDPX caps,
    order := fun e => e.M 11 10 != 0 || e.M 13 12 != 0 }

/-- MMAC (R223). -/
def formMmac : Form :=
  { base with
    mnemonic := "MMAC", scr := true, op := 0x49, cls := fun _ => .V, d := fun e fmt => .vd (mmaN (e.M 9 8) * fmtRc fmt),
    a := fun _ _ => .us 1, b := fun _ _ => .us 1, c := fun _ _ => .us 1, mods := fun _ => [(15, 8)],
    modOk := fun e => e.M 9 8 ≤ 2 && e.M 11 10 ≤ 2 && e.M 13 12 ≤ 2, operandBad := fun e => !e.m.sa || !e.m.sb,
    parks := fun e => e.M 13 10 != 0,
    modFmt := fun e fmt => (e.M 15 14 != 0) && !(fmtAF fmt == 12 || fmtAF fmt == 13),
    formatBad := fun _ fmt => !mmaLegal fmt, absent := fun _ fmt caps => mmaDpx fmt && !capDPX caps,
    order := fun e => e.M 11 10 != 0 || e.M 13 12 != 0 }

/-- PLNST (R227). -/
def formPlnst : Form :=
  { base with
    mnemonic := "PLNST", scr := true, op := 0x4A, cls := fun _ => .V, a := fun _ _ => .us 1,
    b := fun e _ => .vs (2 ^ e.M 24 22 * efRc (e.M 11 8)), c := fun _ _ => .us 1, mods := fun _ => [(24, 8)],
    modOk := fun e => e.M 13 12 ≤ 2 && e.M 21 15 ≤ 95 && e.M 24 22 ≤ 5,
    operandBad := fun e => !e.m.sa || e.m.sb,
    formatBad := fun e _ => !([0, 1, 2, 3, 4, 5, 10, 11, 12, 13].contains (e.M 11 8)), saFree := true,
    absent := fun e _ caps => [1, 12, 13].contains (e.M 11 8) && !capDPX caps,
    order := fun e => e.M 14 14 == 0 }

/-- MDRN (R230). -/
def formMdrn : Form :=
  { base with
    mnemonic := "MDRN", op := 0x4B, cls := fun _ => .V,
    a := fun e _ => if e.m.sa then .us (if e.M 16 16 = 1 then 1 else 2) else .vs (if e.M 16 16 = 1 then 1 else 2),
    b := fun e fmt => .vs (mmaN (e.M 9 8) * fmtRc fmt), c := fun e _ => if e.m.sa then .us 1 else .unused,
    mods := fun _ => [(20, 8)], off := true, modOk := fun e => e.M 9 8 ≤ 2 && e.M 20 18 ≤ 4,
    rsvd := fun e => (e.M 16 16 == 1 && e.M 20 18 != 0) || (e.M 16 16 == 0 && e.M 17 17 == 1),
    operandBad := fun e => e.m.sb, formatBad := fun e fmt => !mdrnLegal e fmt, saFree := true,
    order := fun e => e.M 16 16 == 1 && e.M 17 17 == 0 }

/-- LD (R245). -/
def formLd : Form :=
  { base with
    mnemonic := "LD", op := 0x50, cls := fun _ => .V, d := fun e _ => .vd (szN (e.M 10 8)),
    a := fun _ _ => .vs 2, mods := fun _ => [(21, 8)], off := true,
    modOk := fun e => e.M 10 8 ≤ 6 && e.M 13 11 ≤ 4 && e.M 15 14 ≤ 1,
    rsvd := fun e => e.M 15 14 == 0 && e.M 18 16 != 0, scope := some (18, 16),
    order := fun e => e.M 15 14 == 1 }

/-- ST (R245). -/
def formSt : Form :=
  { base with
    mnemonic := "ST", op := 0x51, cls := fun _ => .V, a := fun _ _ => .vs 2,
    b := fun e _ => .vs (szN (e.M 10 8)), mods := fun _ => [(21, 8)], off := true,
    modOk := fun e => e.M 10 8 ≤ 6 && e.M 13 11 ≤ 4 && e.M 15 14 % 2 == 0 && e.M 15 14 ≤ 2,
    rsvd := fun e => e.M 15 14 == 0 && e.M 18 16 != 0, operandBad := fun e => e.m.sb && e.M 10 8 == 6,
    scope := some (18, 16),
    order := fun e => e.M 15 14 == 2 }

/-- LDS (R247). -/
def formLds : Form :=
  { base with
    mnemonic := "LDS", op := 0x52, cls := fun _ => .V, d := fun e _ => .vd (szN (e.M 10 8)),
    a := fun _ _ => .vs 1, mods := fun _ => [(12, 8)], off := true,
    modOk := fun e => e.M 10 8 ≤ 6 && e.M 12 11 ≤ 2, parks := fun e => e.M 12 11 != 0,
    order := fun e => e.M 12 11 != 0 }

/-- STS (R248). -/
def formSts : Form :=
  { base with
    mnemonic := "STS", op := 0x53, cls := fun _ => .V, a := fun _ _ => .vs 1,
    b := fun e _ => .vs (szN (e.M 10 8)), mods := fun _ => [(11, 8)], off := true,
    modOk := fun e => e.M 10 8 ≤ 6, operandBad := fun e => e.m.sb && e.M 10 8 == 6,
    order := fun e => e.M 11 11 == 0 }

/-- ATOM (R251). -/
def formAtom : Form :=
  { base with
    mnemonic := "ATOM", op := 0x54, cls := fun _ => .V, d := fun e _ => .vd (atN (e.M 14 12)),
    a := fun _ _ => .vs 2, b := fun e _ => .vs (atN (e.M 14 12)),
    c := fun e _ => if e.M 11 8 = 7 then .vs (atN (e.M 14 12)) else .unused, mods := fun _ => [(22, 8)],
    bi := fun e => atBi (e.M 14 12), modOk := fun e => atomOk (e.M 11 8) (e.M 14 12),
    rsvd := fun e => e.M 16 15 == 0 && e.M 19 17 != 0, scope := some (19, 17),
    order := fun e => e.M 16 15 != 0 }

/-- ATOMS (R251). -/
def formAtoms : Form :=
  { base with
    mnemonic := "ATOMS", op := 0x55, cls := fun _ => .V, d := fun e _ => .vd (atN (e.M 14 12)),
    a := fun _ _ => .vs 1, b := fun e _ => .vs (atN (e.M 14 12)),
    c := fun e _ => if e.M 11 8 = 7 then .vs (atN (e.M 14 12)) else .unused, mods := fun _ => [(19, 8)],
    bi := fun e => atBi (e.M 14 12), modOk := fun e => atomOk (e.M 11 8) (e.M 14 12),
    rsvd := fun e => e.M 16 15 == 0 && e.M 19 17 != 0, scope := some (19, 17),
    order := fun e => e.M 16 15 != 0 }

/-- RED (R251). -/
def formRed : Form :=
  { base with
    mnemonic := "RED", op := 0x56, cls := fun _ => .V, a := fun _ _ => .vs 2,
    b := fun e _ => .vs (atN (e.M 14 12)), mods := fun _ => [(22, 8)], bi := fun e => atBi (e.M 14 12),
    modOk := fun e => atomOk (e.M 11 8) (e.M 14 12) && e.M 11 8 != 6 && e.M 11 8 != 7 && e.M 16 15 % 2 == 0,
    rsvd := fun e => e.M 16 15 == 0 && e.M 19 17 != 0, scope := some (19, 17),
    order := fun e => e.M 16 15 != 0 }

/-- TLD (R256). -/
def formTld : Form :=
  { base with
    mnemonic := "TLD", op := 0x57, cls := fun _ => .V, d := fun _ _ => .vd 1, a := fun _ _ => .vs 1,
    b := fun _ _ => .vs 4, mods := fun _ => [(18, 8)], modOk := fun e => e.M 15 13 ≤ 4 }

/-- TSTR (R256). -/
def formTstr : Form :=
  { base with
    mnemonic := "TSTR", op := 0x58, cls := fun _ => .V, a := fun _ _ => .vs 1, b := fun _ _ => .vs 4,
    c := fun _ _ => .vs 1, mods := fun _ => [(18, 8)], modOk := fun e => e.M 15 13 ≤ 4 }

/-- PREF (R258). -/
def formPref : Form :=
  { base with
    mnemonic := "PREF", op := 0x59, cls := fun _ => .V, a := fun _ _ => .vs 2, mods := fun _ => [(8, 8)],
    off := true }

/-- RESQ (R259). -/
def formResq : Form :=
  { base with
    mnemonic := "RESQ", op := 0x5A, cls := fun _ => .V, a := fun _ _ => .vs 2, mods := fun _ => [(8, 8)],
    off := true }

/-- HINS (R261). -/
def formHins : Form :=
  { base with
    mnemonic := "HINS", op := 0x5C, cls := fun _ => .V, d := fun _ _ => .vd 1, a := fun _ _ => .vs 2,
    b := fun _ _ => .vs 2, mods := fun _ => [(10, 8)], absent := fun _ _ caps => !capSLATE caps }

/-- HPROBE (R261). -/
def formHprobe : Form :=
  { base with
    mnemonic := "HPROBE", op := 0x5D, cls := fun _ => .V, d := fun _ _ => .vd 2, a := fun _ _ => .vs 2,
    mods := fun _ => [(10, 8)], absent := fun _ _ caps => !capSLATE caps }

/-- HACC (R261). -/
def formHacc : Form :=
  { base with
    mnemonic := "HACC", op := 0x5E, cls := fun _ => .V, d := fun _ _ => .vd 1, a := fun _ _ => .vs 2,
    b := fun _ _ => .vs 2, mods := fun _ => [(13, 8)], modOk := fun e => e.M 13 11 ≤ 5,
    absent := fun _ _ caps => !capSLATE caps }

/-- HDEL (R261). -/
def formHdel : Form :=
  { base with
    mnemonic := "HDEL", op := 0x5F, cls := fun _ => .V, a := fun _ _ => .vs 2, mods := fun _ => [(10, 8)],
    absent := fun _ _ caps => !capSLATE caps }

/-- GLD (R265). -/
def formGld : Form :=
  { base with
    mnemonic := "GLD", op := 0x60, cls := fun _ => .V, d := fun _ _ => .vd 1, a := fun _ _ => .vs 1,
    b := fun _ _ => .vs 1, c := fun _ _ => .vs 1, mods := fun _ => [(11, 8)], bi := fun _ => .w32 }

/-- GDEG (R265). -/
def formGdeg : Form :=
  { base with
    mnemonic := "GDEG", op := 0x61, cls := fun _ => .V, d := fun _ _ => .vd 1, a := fun _ _ => .vs 1,
    b := fun _ _ => .vs 1, mods := fun _ => [(8, 8)], bi := fun _ => .w32 }

/-- GADD (R266). -/
def formGadd : Form :=
  { base with
    mnemonic := "GADD", op := 0x62, cls := fun _ => .V, d := fun _ _ => .vd 2, a := fun _ _ => .vs 1,
    b := fun _ _ => .vs 1, c := fun _ _ => .vs 4, mods := fun _ => [(11, 9)], bi := fun _ => .w32 }

/-- GDEL (R267). -/
def formGdel : Form :=
  { base with
    mnemonic := "GDEL", op := 0x63, cls := fun _ => .V, d := fun _ _ => .vd 2, a := fun _ _ => .vs 1,
    b := fun _ _ => .vs 1, c := fun _ _ => .vs 2, mods := fun _ => [(12, 9)], bi := fun _ => .w32 }

/-- GFIND (R265). -/
def formGfind : Form :=
  { base with
    mnemonic := "GFIND", op := 0x64, cls := fun _ => .V, d := fun _ _ => .vd 2, a := fun _ _ => .vs 1,
    b := fun _ _ => .vs 1, c := fun _ _ => .vs 2, mods := fun _ => [(11, 8)], bi := fun _ => .w32 }

/-- GPAY (R265). -/
def formGpay : Form :=
  { base with
    mnemonic := "GPAY", op := 0x65, cls := fun _ => .V, d := fun _ _ => .vd 2, a := fun _ _ => .vs 1,
    b := fun _ _ => .vs 1, c := fun _ _ => .vs 1, mods := fun _ => [(11, 8)], bi := fun _ => .w32 }

/-- COPEN (R269). -/
def formCopen : Form :=
  { base with
    mnemonic := "COPEN", op := 0x66, cls := fun _ => .V, d := fun _ _ => .cur, a := fun _ _ => .vs 1,
    b := fun _ _ => .vs 1, mods := fun _ => [(8, 8)], bi := fun _ => .w32 }

/-- CNEXT (R270). -/
def formCnext : Form :=
  { base with
    mnemonic := "CNEXT", op := 0x67, cls := fun _ => .V, d := fun _ _ => .vd 2, a := fun _ _ => .cur,
    b := fun _ _ => .pd, mods := fun _ => [(11, 9)] }

/-- CSEEK (R271). -/
def formCseek : Form :=
  { base with
    mnemonic := "CSEEK", op := 0x68, cls := fun _ => .V, d := fun _ _ => .cur, b := fun e _ => .vs (w64 e 8),
    mods := fun _ => [(8, 8)], bi := fun e => if e.M 8 8 = 1 then .n64 else .w32 }

/-- CINFO (R272). -/
def formCinfo : Form :=
  { base with
    mnemonic := "CINFO", op := 0x69, cls := fun _ => .V, d := fun _ _ => .vd 5, a := fun _ _ => .cur }

/-- CCLOSE (R269). -/
def formCclose : Form :=
  { base with
    mnemonic := "CCLOSE", op := 0x6A, cls := fun _ => .V, d := fun _ _ => .cur }

/-- GISECT (R273). -/
def formGisect : Form :=
  { base with
    mnemonic := "GISECT", op := 0x6B, cls := fun _ => .V, d := fun _ _ => .vd 1, a := fun _ _ => .cur,
    b := fun _ _ => .cur, mods := fun _ => [(11, 9)], operandBad := fun e => e.a == e.b }

/-- SADD (R275). -/
def formSadd : Form :=
  { base with
    mnemonic := "SADD", uni := true, op := 0x01, cls := fun _ => .A, d := fun _ _ => .ud 1,
    a := fun _ _ => .us 1, b := fun _ _ => .us 1, mods := fun _ => [(9, 8)], bi := fun _ => .w32 }

/-- SSUB (R275). -/
def formSsub : Form :=
  { base with
    mnemonic := "SSUB", uni := true, op := 0x02, cls := fun _ => .A, d := fun _ _ => .ud 1,
    a := fun _ _ => .us 1, b := fun _ _ => .us 1, mods := fun _ => [(9, 8)], bi := fun _ => .w32 }

/-- SMUL (R275). -/
def formSmul : Form :=
  { base with
    mnemonic := "SMUL", uni := true, op := 0x03, cls := fun _ => .D, d := fun _ _ => .ud 1,
    a := fun _ _ => .us 1, b := fun _ _ => .us 1, bi := fun _ => .w32 }

/-- SMAD (R275). -/
def formSmad : Form :=
  { base with
    mnemonic := "SMAD", uni := true, op := 0x04, cls := fun _ => .D, d := fun _ _ => .ud 1,
    a := fun _ _ => .us 1, b := fun _ _ => .us 1, c := fun _ _ => .us 1, mods := fun _ => [(9, 8)],
    bi := fun _ => .w32 }

/-- SMIN (R275). -/
def formSmin : Form :=
  { base with
    mnemonic := "SMIN", uni := true, op := 0x05, cls := fun _ => .A, d := fun _ _ => .ud 1,
    a := fun _ _ => .us 1, b := fun _ _ => .us 1, mods := fun _ => [(8, 8)], bi := fun _ => .w32 }

/-- SMAX (R275). -/
def formSmax : Form :=
  { base with
    mnemonic := "SMAX", uni := true, op := 0x06, cls := fun _ => .A, d := fun _ _ => .ud 1,
    a := fun _ _ => .us 1, b := fun _ _ => .us 1, mods := fun _ => [(8, 8)], bi := fun _ => .w32 }

/-- SSHL (R275). -/
def formSshl : Form :=
  { base with
    mnemonic := "SSHL", uni := true, op := 0x07, cls := fun _ => .A, d := fun _ _ => .ud 1,
    a := fun _ _ => .us 1, b := fun _ _ => .us 1, mods := fun _ => [(8, 8)], bi := fun _ => .w32 }

/-- SSHR (R275). -/
def formSshr : Form :=
  { base with
    mnemonic := "SSHR", uni := true, op := 0x08, cls := fun _ => .A, d := fun _ _ => .ud 1,
    a := fun _ _ => .us 1, b := fun _ _ => .us 1, mods := fun _ => [(8, 8)], bi := fun _ => .w32 }

/-- SSAR (R275). -/
def formSsar : Form :=
  { base with
    mnemonic := "SSAR", uni := true, op := 0x09, cls := fun _ => .A, d := fun _ _ => .ud 1,
    a := fun _ _ => .us 1, b := fun _ _ => .us 1, mods := fun _ => [(8, 8)], bi := fun _ => .w32 }

/-- SLTAB (R275). -/
def formSltab : Form :=
  { base with
    mnemonic := "SLTAB", uni := true, op := 0x0A, cls := fun _ => .A, d := fun _ _ => .ud 1,
    a := fun _ _ => .us 1, b := fun _ _ => .us 1, c := fun _ _ => .us 1, mods := fun _ => [(15, 8)],
    bi := fun _ => .w32 }

/-- SMOV (R275). -/
def formSmov : Form :=
  { base with
    mnemonic := "SMOV", uni := true, op := 0x0B, cls := fun _ => .A, d := fun e _ => .ud (w64 e 8),
    b := fun e _ => .us (w64 e 8), mods := fun _ => [(8, 8)],
    bi := fun e => if e.M 8 8 = 1 then .n64 else .w32 }

/-- SCMP (R275). -/
def formScmp : Form :=
  { base with
    mnemonic := "SCMP", uni := true, op := 0x0C, cls := fun _ => .A, d := fun _ _ => .pd,
    a := fun e _ => .us (if e.M 12 12 = 1 then 2 else 1), b := fun e _ => .us (if e.M 12 12 = 1 then 2 else 1),
    c := fun _ _ => .pr, mods := fun _ => [(17, 8)], bi := fun e => tyBi (e.M 14 12),
    modOk := fun e => e.M 11 8 ≤ 5 && (e.M 14 12 % 4 ≥ 2) }

/-- SSEL (R275). -/
def formSsel : Form :=
  { base with
    mnemonic := "SSEL", uni := true, op := 0x0D, cls := fun _ => .A, d := fun e _ => .ud (w64 e 8),
    a := fun e _ => .us (w64 e 8), b := fun e _ => .us (w64 e 8), c := fun _ _ => .pr,
    mods := fun _ => [(9, 8)], bi := fun e => if e.M 8 8 = 1 then .n64 else .w32 }

/-- SADD64 (R275). -/
def formSadd64 : Form :=
  { base with
    mnemonic := "SADD64", uni := true, op := 0x0E, cls := fun _ => .D, d := fun _ _ => .ud 2,
    a := fun _ _ => .us 2, b := fun _ _ => .us 2, mods := fun _ => [(9, 8)],
    bi := fun e => if e.M 8 8 = 1 then .s64 else .n64 }

/-- SMADW (R275). -/
def formSmadw : Form :=
  { base with
    mnemonic := "SMADW", uni := true, op := 0x0F, cls := fun _ => .D, d := fun _ _ => .ud 2,
    a := fun _ _ => .us 1, b := fun _ _ => .us 1, c := fun _ _ => .us 2, mods := fun _ => [(8, 8)],
    bi := fun _ => .w32 }

/-- SBFE (R275). -/
def formSbfe : Form :=
  { base with
    mnemonic := "SBFE", uni := true, op := 0x10, cls := fun _ => .A, d := fun _ _ => .ud 1,
    a := fun _ _ => .us 1, b := fun _ _ => .us 1, mods := fun _ => [(8, 8)], bi := fun _ => .w32 }

/-- SPOPC (R275). -/
def formSpopc : Form :=
  { base with
    mnemonic := "SPOPC", uni := true, op := 0x11, cls := fun _ => .A, d := fun _ _ => .ud 1,
    a := fun _ _ => .us 1 }

/-- SCLZ (R275). -/
def formSclz : Form :=
  { base with
    mnemonic := "SCLZ", uni := true, op := 0x12, cls := fun _ => .A, d := fun _ _ => .ud 1,
    a := fun _ _ => .us 1 }

/-- QTAB (R275). -/
def formQtab : Form :=
  { base with
    mnemonic := "QTAB", uni := true, op := 0x13, cls := fun _ => .A, d := fun _ _ => .pd, a := fun _ _ => .pr,
    b := fun _ _ => .pr, c := fun _ _ => .pr, mods := fun _ => [(15, 8)] }

/-- SFFMA (R275). -/
def formSffma : Form :=
  { base with
    mnemonic := "SFFMA", uni := true, op := 0x14, cls := fun e => ftClass e, d := fun e _ => .ud (ftW e),
    a := fun e _ => .us (ftW e), b := fun e _ => .us (ftW e), c := fun e _ => .us (ftW e),
    mods := fun _ => [(15, 8)], bi := fun e => ftBi e, modOk := fun e => rmoOk e 15 }

/-- SCVT (R275). -/
def formScvt : Form :=
  { base with
    mnemonic := "SCVT", uni := true, op := 0x15, cls := fun e => cvtClass e,
    d := fun e _ => .ud (cvtW (e.M 17 13)), a := fun e _ => .us (cvtW (e.M 12 8)), mods := fun _ => [(20, 8)],
    modOk := fun e => rmoOk e 20 && e.M 12 8 < 24 && e.M 17 13 < 24, formatBad := fun e _ => cvtBad e }

/-- SLD (R276). -/
def formSld : Form :=
  { base with
    mnemonic := "SLD", uni := true, op := 0x18, cls := fun _ => .V, d := fun e _ => .ud (szN (e.M 10 8)),
    a := fun _ _ => .us 2, mods := fun _ => [(21, 8)], off := true,
    modOk := fun e => e.M 10 8 ≤ 6 && e.M 13 11 ≤ 4 && e.M 15 14 ≤ 1,
    rsvd := fun e => e.M 15 14 == 0 && e.M 18 16 != 0, scope := some (18, 16),
    order := fun e => e.M 15 14 == 1 }

/-- SST (R276). -/
def formSst : Form :=
  { base with
    mnemonic := "SST", uni := true, op := 0x19, cls := fun _ => .V, a := fun _ _ => .us 2,
    b := fun e _ => .us (szN (e.M 10 8)), mods := fun _ => [(21, 8)],
    bi := fun e => if e.M 10 8 ≤ 4 then .w32 else .no, off := true,
    modOk := fun e => e.M 10 8 ≤ 6 && e.M 13 11 ≤ 4 && e.M 15 14 % 2 == 0 && e.M 15 14 ≤ 2,
    rsvd := fun e => e.M 15 14 == 0 && e.M 18 16 != 0, scope := some (18, 16),
    order := fun e => e.M 15 14 == 2 }

/-- SLDS (R277). -/
def formSlds : Form :=
  { base with
    mnemonic := "SLDS", uni := true, op := 0x1A, cls := fun _ => .V, d := fun e _ => .ud (szN (e.M 10 8)),
    a := fun _ _ => .us 1, mods := fun _ => [(10, 8)], off := true, modOk := fun e => e.M 10 8 ≤ 6 }

/-- SSTS (R277). -/
def formSsts : Form :=
  { base with
    mnemonic := "SSTS", uni := true, op := 0x1B, cls := fun _ => .V, a := fun _ _ => .us 1,
    b := fun e _ => .us (szN (e.M 10 8)), mods := fun _ => [(10, 8)], off := true,
    modOk := fun e => e.M 10 8 ≤ 6 }

/-- SATOM (R276). -/
def formSatom : Form :=
  { base with
    mnemonic := "SATOM", uni := true, op := 0x1C, cls := fun _ => .V, d := fun e _ => .ud (atN (e.M 14 12)),
    a := fun _ _ => .us 2, b := fun e _ => .us (atN (e.M 14 12)),
    c := fun e _ => if e.M 11 8 = 7 then .us (atN (e.M 14 12)) else .unused, mods := fun _ => [(22, 8)],
    bi := fun e => atBi (e.M 14 12), modOk := fun e => atomOk (e.M 11 8) (e.M 14 12),
    rsvd := fun e => e.M 16 15 == 0 && e.M 19 17 != 0, scope := some (19, 17),
    order := fun e => e.M 16 15 != 0 }

/-- OINFO (R278). -/
def formOinfo : Form :=
  { base with
    mnemonic := "OINFO", uni := true, op := 0x1D, cls := fun _ => .V, d := fun _ _ => .ud 1,
    a := fun _ _ => .us 1, b := fun _ _ => .us 1, bi := fun _ => .w32 }

/-- BRA (R280). -/
def formBra : Form :=
  { base with
    mnemonic := "BRA", uni := true, op := 0x20, gj := true, cls := fun _ => .N, parks := fun e => e.jg != 0 }

/-- BRL (R281). -/
def formBrl : Form :=
  { base with
    mnemonic := "BRL", uni := true, op := 0x21, gj := true, cls := fun _ => .N, mods := fun _ => [(8, 8)],
    parks := fun e => e.jg != 0 }

/-- BRX (R282). -/
def formBrx : Form :=
  { base with
    mnemonic := "BRX", uni := true, op := 0x22, cls := fun _ => .N,
    a := fun e _ => if e.M 8 8 = 1 then .vs 1 else .us 1, mods := fun _ => [(8, 8)], parks := fun _ => true }

/-- RJN (R283). -/
def formRjn : Form :=
  { base with
    mnemonic := "RJN", uni := true, op := 0x23, gj := true, cls := fun _ => .N, rsvd := fun e => e.jg != 0 }

/-- CALL (R283). -/
def formCall : Form :=
  { base with
    mnemonic := "CALL", uni := true, op := 0x24, gj := true, cls := fun _ => .A, rsvd := fun e => e.jg != 0 }

/-- RET (R283). -/
def formRet : Form :=
  { base with
    mnemonic := "RET", uni := true, op := 0x25, cls := fun _ => .N, a := fun _ _ => .us 1 }

/-- EXIT (R285). -/
def formExit : Form :=
  { base with
    mnemonic := "EXIT", uni := true, op := 0x26, cls := fun _ => .N, mods := fun _ => [(11, 8)],
    modOk := fun e => e.M 11 8 != 8, parks := fun _ => true }

/-- LOOPN (R284). -/
def formLoopn : Form :=
  { base with
    mnemonic := "LOOPN", uni := true, op := 0x27, gj := true, cls := fun _ => .A, c := fun _ _ => .ud 1,
    rsvd := fun e => e.jg != 0 }

/-- NOP (R285). -/
def formNop : Form :=
  { base with
    mnemonic := "NOP", uni := true, op := 0x28, cls := fun _ => .N, rsvd := fun e => e.m.guard != 0 }

/-- BAR (R286). -/
def formBar : Form :=
  { base with
    mnemonic := "BAR", uni := true, op := 0x30, cls := fun _ => .V, a := fun _ _ => .us 1,
    parks := fun _ => true,
    order := fun _ => true }

/-- BARA (R286). -/
def formBara : Form :=
  { base with
    mnemonic := "BARA", uni := true, op := 0x31, cls := fun _ => .V, d := fun _ _ => .ud 1,
    a := fun _ _ => .us 1,
    order := fun _ => true }

/-- BARW (R286). -/
def formBarw : Form :=
  { base with
    mnemonic := "BARW", uni := true, op := 0x32, cls := fun _ => .V, a := fun _ _ => .us 1,
    b := fun _ _ => .us 1, bi := fun _ => .w32, parks := fun _ => true,
    order := fun _ => true }

/-- RCW (R288). -/
def formRcw : Form :=
  { base with
    mnemonic := "RCW", uni := true, op := 0x33, cls := fun _ => .V, a := fun _ _ => .us 1,
    b := fun _ _ => .us 1, bi := fun _ => .w32, parks := fun _ => true,
    order := fun _ => true }

/-- GBAR (R289). -/
def formGbar : Form :=
  { base with
    mnemonic := "GBAR", uni := true, op := 0x34, cls := fun _ => .V, mods := fun _ => [(10, 8)],
    modOk := fun e => 2 ≤ e.M 10 8 && e.M 10 8 ≤ 6, parks := fun _ => true,
    order := fun _ => true }

/-- FENCE (R291). -/
def formFence : Form :=
  { base with
    mnemonic := "FENCE", uni := true, op := 0x35, cls := fun _ => .V, mods := fun _ => [(12, 8)],
    modOk := fun e => e.M 9 8 != 0, scope := some (12, 10),
    order := fun _ => true }

/-- CQINIT (R292). -/
def formCqinit : Form :=
  { base with
    mnemonic := "CQINIT", uni := true, op := 0x38, cls := fun _ => .V, a := fun _ _ => .us 1,
    mods := fun _ => [(8, 8)] }

/-- CQADV (R293). -/
def formCqadv : Form :=
  { base with
    mnemonic := "CQADV", uni := true, op := 0x39, cls := fun _ => .V, b := fun _ _ => .us 1,
    mods := fun _ => [(8, 8)], bi := fun _ => .w32,
    order := fun _ => true }

/-- CQWAIT (R295). -/
def formCqwait : Form :=
  { base with
    mnemonic := "CQWAIT", uni := true, op := 0x3A, cls := fun _ => .V, b := fun _ _ => .us 2,
    mods := fun _ => [(8, 8)], bi := fun _ => .n64, parks := fun _ => true,
    order := fun _ => true }

/-- CQSEQ (R295). -/
def formCqseq : Form :=
  { base with
    mnemonic := "CQSEQ", uni := true, op := 0x3B, cls := fun _ => .V, d := fun _ _ => .ud 2,
    mods := fun _ => [(9, 8)] }

/-- TASK (R296). -/
def formTask : Form :=
  { base with
    mnemonic := "TASK", uni := true, op := 0x3C, cls := fun _ => .V, d := fun _ _ => .ud 1,
    a := fun _ _ => .us 2,
    order := fun _ => true }

/-- TJOIN (R297). -/
def formTjoin : Form :=
  { base with
    mnemonic := "TJOIN", uni := true, op := 0x3D, cls := fun _ => .V, d := fun _ _ => .ud 1,
    a := fun _ _ => .us 1, parks := fun _ => true,
    order := fun _ => true }

/-- TSETTLE (R298). -/
def formTsettle : Form :=
  { base with
    mnemonic := "TSETTLE", uni := true, op := 0x3E, cls := fun _ => .V, d := fun _ _ => .pd,
    b := fun _ _ => .us 1, bi := fun _ => .w32,
    order := fun _ => true }

/-- HINIT (R299). -/
def formHinit : Form :=
  { base with
    mnemonic := "HINIT", uni := true, op := 0x3F, cls := fun _ => .V, d := fun _ _ => .pd,
    a := fun _ _ => .us 1, mods := fun _ => [(10, 8)], modOk := fun e => e.M 10 8 ≤ 4,
    absent := fun _ _ caps => !capSLATE caps }

/-- SETFMT (R300). -/
def formSetfmt : Form :=
  { base with
    mnemonic := "SETFMT", uni := true, op := 0x40, cls := fun _ => .N, b := fun _ _ => .us 1,
    bi := fun _ => .w32 }

/-- SETCMP (R301). -/
def formSetcmp : Form :=
  { base with
    mnemonic := "SETCMP", scr := true, uni := true, op := 0x41, cls := fun _ => .V, a := fun _ _ => .us 1,
    mods := fun _ => [(9, 8)], modOk := fun e => e.M 9 8 != 0 }

/-- RQUOTA (R302). -/
def formRquota : Form :=
  { base with
    mnemonic := "RQUOTA", uni := true, op := 0x42, cls := fun _ => .V, d := fun _ _ => .pd,
    a := fun _ _ => .us 1, b := fun _ _ => .us 1, bi := fun _ => .w32 }

/-- WRSR (R303). -/
def formWrsr : Form :=
  { base with
    mnemonic := "WRSR", uni := true, op := 0x43, handlerOnly := true, cls := fun _ => .N, d := fun _ _ => .hc,
    b := fun _ _ => .us 1, bi := fun _ => .w32 }

/-- TRAP (R304). -/
def formTrap : Form :=
  { base with
    mnemonic := "TRAP", uni := true, op := 0x48, cls := fun _ => .N, mods := fun _ => [(12, 8)] }

/-- BKPT (R304). -/
def formBkpt : Form :=
  { base with
    mnemonic := "BKPT", uni := true, op := 0x49, cls := fun _ => .N }

/-- TRET (R305). -/
def formTret : Form :=
  { base with
    mnemonic := "TRET", uni := true, op := 0x4A, handlerOnly := true, cls := fun _ => .N }

/-- TKILL (R306). -/
def formTkill : Form :=
  { base with
    mnemonic := "TKILL", uni := true, op := 0x4B, cls := fun _ => .N, a := fun _ _ => .us 1 }

/-- OTSET (R307). -/
def formOtset : Form :=
  { base with
    mnemonic := "OTSET", scr := true, uni := true, op := 0x4C, handlerOnly := true, cls := fun _ => .N,
    a := fun _ _ => .us 1, b := fun _ _ => .us 1, bi := fun _ => .w32 }

/-- PINV (R308). -/
def formPinv : Form :=
  { base with
    mnemonic := "PINV", uni := true, op := 0x4D, handlerOnly := true, cls := fun _ => .N,
    a := fun _ _ => .us 2 }

/-- The form of an instruction with its encoded fields; a step of the device has none. -/
def formOf (i : Instr) : Option (Form × Enc) :=
  match i with
  | .iadd e => some (formIadd, e)
  | .isub e => some (formIsub, e)
  | .imul e => some (formImul, e)
  | .imulh e => some (formImulh, e)
  | .imad e => some (formImad, e)
  | .imin e => some (formImin, e)
  | .imax e => some (formImax, e)
  | .iabs e => some (formIabs, e)
  | .iadd64 e => some (formIadd64, e)
  | .imadw e => some (formImadw, e)
  | .shl e => some (formShl, e)
  | .shr e => some (formShr, e)
  | .sar e => some (formSar, e)
  | .fshf e => some (formFshf, e)
  | .ltab e => some (formLtab, e)
  | .popc e => some (formPopc, e)
  | .clz e => some (formClz, e)
  | .brev e => some (formBrev, e)
  | .bfe e => some (formBfe, e)
  | .bfi e => some (formBfi, e)
  | .bpick e => some (formBpick, e)
  | .icmp e => some (formIcmp, e)
  | .ptab e => some (formPtab, e)
  | .sel e => some (formSel, e)
  | .mov e => some (formMov, e)
  | .rdsp e => some (formRdsp, e)
  | .wrsp e => some (formWrsp, e)
  | .lea e => some (formLea, e)
  | .idp4 e => some (formIdp4, e)
  | .fadd e => some (formFadd, e)
  | .fmul e => some (formFmul, e)
  | .ffma e => some (formFfma, e)
  | .fmin e => some (formFmin, e)
  | .fmax e => some (formFmax, e)
  | .fcmp e => some (formFcmp, e)
  | .fclass e => some (formFclass, e)
  | .fscale e => some (formFscale, e)
  | .frnd e => some (formFrnd, e)
  | .cvt e => some (formCvt, e)
  | .pkn e => some (formPkn, e)
  | .upkn e => some (formUpkn, e)
  | .cfma e => some (formCfma, e)
  | .cmul e => some (formCmul, e)
  | .fdp2 e => some (formFdp2, e)
  | .frcp e => some (formFrcp, e)
  | .frsq e => some (formFrsq, e)
  | .fsqrt e => some (formFsqrt, e)
  | .fdiv e => some (formFdiv, e)
  | .fexp2 e => some (formFexp2, e)
  | .flog2 e => some (formFlog2, e)
  | .xf e => some (formXf, e)
  | .dcd e => some (formDcd, e)
  | .enc e => some (formEnc, e)
  | .xlane e => some (formXlane, e)
  | .poll e => some (formPoll, e)
  | .redux e => some (formRedux, e)
  | .scan e => some (formScan, e)
  | .matchB e => some (formMatchB, e)
  | .topk e => some (formTopk, e)
  | .rand e => some (formRand, e)
  | .prune e => some (formPrune, e)
  | .mma e => some (formMma, e)
  | .mmac e => some (formMmac, e)
  | .plnst e => some (formPlnst, e)
  | .mdrn e => some (formMdrn, e)
  | .ld e => some (formLd, e)
  | .st e => some (formSt, e)
  | .lds e => some (formLds, e)
  | .sts e => some (formSts, e)
  | .atom e => some (formAtom, e)
  | .atoms e => some (formAtoms, e)
  | .red e => some (formRed, e)
  | .tld e => some (formTld, e)
  | .tstr e => some (formTstr, e)
  | .pref e => some (formPref, e)
  | .resq e => some (formResq, e)
  | .hins e => some (formHins, e)
  | .hprobe e => some (formHprobe, e)
  | .hacc e => some (formHacc, e)
  | .hdel e => some (formHdel, e)
  | .gld e => some (formGld, e)
  | .gdeg e => some (formGdeg, e)
  | .gadd e => some (formGadd, e)
  | .gdel e => some (formGdel, e)
  | .gfind e => some (formGfind, e)
  | .gpay e => some (formGpay, e)
  | .copen e => some (formCopen, e)
  | .cnext e => some (formCnext, e)
  | .cseek e => some (formCseek, e)
  | .cinfo e => some (formCinfo, e)
  | .cclose e => some (formCclose, e)
  | .gisect e => some (formGisect, e)
  | .sadd e => some (formSadd, e)
  | .ssub e => some (formSsub, e)
  | .smul e => some (formSmul, e)
  | .smad e => some (formSmad, e)
  | .smin e => some (formSmin, e)
  | .smax e => some (formSmax, e)
  | .sshl e => some (formSshl, e)
  | .sshr e => some (formSshr, e)
  | .ssar e => some (formSsar, e)
  | .sltab e => some (formSltab, e)
  | .smov e => some (formSmov, e)
  | .scmp e => some (formScmp, e)
  | .ssel e => some (formSsel, e)
  | .sadd64 e => some (formSadd64, e)
  | .smadw e => some (formSmadw, e)
  | .sbfe e => some (formSbfe, e)
  | .spopc e => some (formSpopc, e)
  | .sclz e => some (formSclz, e)
  | .qtab e => some (formQtab, e)
  | .sffma e => some (formSffma, e)
  | .scvt e => some (formScvt, e)
  | .sld e => some (formSld, e)
  | .sst e => some (formSst, e)
  | .slds e => some (formSlds, e)
  | .ssts e => some (formSsts, e)
  | .satom e => some (formSatom, e)
  | .oinfo e => some (formOinfo, e)
  | .bra e => some (formBra, e)
  | .brl e => some (formBrl, e)
  | .brx e => some (formBrx, e)
  | .rjn e => some (formRjn, e)
  | .call e => some (formCall, e)
  | .ret e => some (formRet, e)
  | .exit e => some (formExit, e)
  | .loopn e => some (formLoopn, e)
  | .nop e => some (formNop, e)
  | .bar e => some (formBar, e)
  | .bara e => some (formBara, e)
  | .barw e => some (formBarw, e)
  | .rcw e => some (formRcw, e)
  | .gbar e => some (formGbar, e)
  | .fence e => some (formFence, e)
  | .cqinit e => some (formCqinit, e)
  | .cqadv e => some (formCqadv, e)
  | .cqwait e => some (formCqwait, e)
  | .cqseq e => some (formCqseq, e)
  | .task e => some (formTask, e)
  | .tjoin e => some (formTjoin, e)
  | .tsettle e => some (formTsettle, e)
  | .hinit e => some (formHinit, e)
  | .setfmt e => some (formSetfmt, e)
  | .setcmp e => some (formSetcmp, e)
  | .rquota e => some (formRquota, e)
  | .wrsr e => some (formWrsr, e)
  | .trap e => some (formTrap, e)
  | .bkpt e => some (formBkpt, e)
  | .tret e => some (formTret, e)
  | .tkill e => some (formTkill, e)
  | .otset e => some (formOtset, e)
  | .pinv e => some (formPinv, e)
  | .resultReadable _ _ => none
  | .operationComplete _ _ => none
  | .readyAgePromote _ _ => none
  | .stopBound _ _ => none
  | .groupEnd _ => none
  | .teamEnd _ => none
  | .homeRecall _ => none
  | .convertedWrite _ _ _ => none
  | .cursorBufferDiscard _ _ _ => none
  | .faultRecord _ _ => none
  | .heldAccessReplay _ _ => none
  | .fbgenWrite _ _ => none
  | .umberCommandStart _ _ => none
  | .umberCopy _ _ _ _ => none
  | .umberGather _ _ _ _ => none
  | .umberScatter _ _ _ _ => none
  | .umberMerge _ _ _ _ => none
  | .umberBin _ _ _ => none
  | .umberFence _ _ _ => none
  | .rowLanding _ _ _ _ => none
  | .completionWordWrite _ _ => none
  | .chainAdvance _ _ => none
  | .headWrite _ _ _ => none
  | .tailWrite _ _ _ => none
  | .chainErrClear _ _ => none
  | .cardAccept _ _ => none
  | .taskRelease _ _ => none
  | .fire _ _ => none
  | .recordWrite _ _ => none
  | .bulkCopy _ _ => none
  | .bulkConvert _ _ => none
  | .gbuild _ _ => none
  | .gdump _ _ => none
  | .dispatchBatch _ => none
  | .teamAdmit _ => none
  | .partialEviction _ => none
  | .evictionSave _ => none
  | .groupReturn _ => none
  | .gbarArrival _ _ => none
  | .handlerEntry _ _ => none
  | .taskLevelStop _ _ => none
  | .debugHalt _ => none
  | .dbgctlHalt _ => none
  | .dbgresWrite _ _ => none
  | .correctableError => none
  | .uncorrectableError _ => none
  | .shootdownSubmit _ _ => none
  | .tlbAck _ => none
  | .migrationSubmit _ => none
  | .blockHandover => none
  | .requestForward _ => none
  | .migstatMapped => none
  | .resizeSubmit _ => none
  | .resizeStateAdvance _ => none
  | .teamMove _ => none
  | .bucketHandover _ _ _ => none
  | .pctlWrite _ _ => none
  | .vquotaWrite _ _ => none
  | .otinvWrite _ _ => none
  | .otinvComplete _ => none
  | .registerWrite _ _ _ _ => none
  | .dieLinkLoss _ _ => none
  | .linkPortLoss _ => none
  | .flitAck _ _ => none
  | .flitRetry _ => none
  | .domainRequest _ => none
  | .reset _ => none
  | .attestationRequest _ _ => none
  | .keyLoad _ _ _ _ => none
  | .throttleStep _ _ => none
  | .fatalError _ => none
  | .corePowerUp _ => none
  | .corePowerGate _ => none
  | .hostMemoryWrite _ _ _ _ => none
  | .firmwareMemoryWrite _ _ => none
  | .noframeStop _ _ _ => none
  | .keySlotErase _ _ => none
  | .retireFailingUnit _ _ _ => none
  | .granuleRepair _ _ => none
  | .dieLinkRetrain _ _ => none

end Sys2Proof.Machine
end

