-- ==== Sys2Proof/Machine/Checks.lean ====
section
/-!
DEFINITION. The encoding checks of R183, in their order, and the codes of cause group ENC (R185). Steps 1 to 3 are the
decoder's; `encCheck` makes the rest.
-/

namespace Sys2Proof.Machine

/-- What the checks read besides the words: handler mode, the members of the open chain already issued (0 when the
instruction does not directly follow a HOLD instruction), the quota, fmt, caps. -/
structure EncCtx where
  handler : Bool
  members : Nat
  quota   : Nat
  fmt     : Word
  caps    : Word
  deriving DecidableEq, Repr

/-- The role of a source whose SA or SB is set (R176). -/
def Role.marked (r : Role) (m : Bool) : Role :=
  match r, m with
  | .vs n, true => .us n
  | r, _ => r

/-- The entry reads a register source here. -/
def Role.isSrc (r : Role) : Bool :=
  match r with
  | .vs _ => true
  | .us _ => true
  | _ => false

/-- A source that a latch may replace: 32 or 64 bits (R180). -/
def Role.latchable (r : Role) : Bool :=
  match r with
  | .vs n => decide (n ≤ 2)
  | .us n => decide (n ≤ 2)
  | _ => false

/-- The fields and roles that name a register: a field that a latch or the immediate replaces is left out. -/
def namedFields (f : Form) (e : Enc) (fmt : Word) : List (Role × Nat) :=
  (if f.gj then [] else
    [(f.d e fmt, e.d.toNat)]
    ++ (if e.ctl.la ≠ 0 then [] else [((f.a e fmt).marked (e.m.sa && !f.uni), e.a.toNat)])
    ++ (if e.ctl.lb ≠ 0 ∨ e.m.bi then [] else [((f.b e fmt).marked (e.m.sb && !f.uni), e.b.toNat)]))
  ++ (if e.ctl.lc ≠ 0 then [] else [(f.c e fmt, e.m.c.toNat)])

/-- ENC, SETF (R170). -/
def setfBad (e : Enc) : Bool := decide (12 ≤ e.ctl.setf.toNat) && decide (e.ctl.setf.toNat ≤ 14)

/-- ENC, GUARD (R172, R176). -/
def guardBad (f : Form) (e : Enc) : Bool :=
  e.m.guard == 8 || (f.gj && (e.jg == 8 || (e.jg != 0 && e.m.guard != 0)))

/-- ENC, BI (R178). -/
def biBad (f : Form) (e : Enc) : Bool :=
  if e.m.bi then e.ctl.lit != 2 || f.bi e == .no
  else e.ctl.lit == 2 && !f.off

/-- The bits of MOD that the entry uses, as a mask of M[24:8] shifted down by 8. -/
def modMask (f : Form) (e : Enc) : BitVec 17 :=
  (f.mods e).foldl (fun acc (h, l) => acc ||| (BitVec.ofNat 17 (2 ^ (h + 1 - l) - 1) <<< (l - 8))) 0

/-- ENC, RSVD (R171, R176, R178, R179, R180, R195). -/
def rsvdBad (f : Form) (e : Enc) (fmt : Word) : Bool :=
  let a := f.a e fmt
  let b := f.b e fmt
  let c := f.c e fmt
  (!f.gj && ((f.d e fmt == .unused && e.d != 0) || (a == .unused && e.a != 0)
     || ((b == .unused || e.m.bi) && e.b != 0)))
  || (c == .unused && e.m.c != 0)
  || (e.m.md &&& ~~~ (modMask f e)) != 0
  || (f.uni && (e.m.sa || e.m.sb))
  || (!f.uni && !f.saFree && ((e.m.sa && !a.isSrc) || (e.m.sb && !b.isSrc)))
  || (e.ctl.la != 0 && a.isSrc && !e.m.sa && e.a != 0)
  || (e.ctl.lb != 0 && b.isSrc && !e.m.sb && !e.m.bi && e.b != 0)
  || (e.ctl.lc != 0 && c.isSrc && e.m.c != 0)
  || f.rsvd e

/-- ENC, LATCH (R180). -/
def latchBad (f : Form) (e : Enc) (fmt : Word) (members : Nat) : Bool :=
  let used := e.ctl.la != 0 || e.ctl.lb != 0 || e.ctl.lc != 0
  (used && members == 0)
  || (e.ctl.la != 0 && (!(f.a e fmt).latchable || e.m.sa))
  || (e.ctl.lb != 0 && (!(f.b e fmt).latchable || e.m.sb || e.m.bi))
  || (e.ctl.lc != 0 && !(f.c e fmt).latchable)

/-- ENC, NWB (R181). -/
def nwbBad (f : Form) (e : Enc) : Bool :=
  e.ctl.nwb && !(e.ctl.hold && (f.cls e == .A || f.cls e == .F))

/-- Effective SPACE (R17, R170). -/
def Enc.effSpace (e : Enc) : Nat := max e.ctl.space.toNat 1

/-- ENC, CHAIN (R182). -/
def chainBad (f : Form) (e : Enc) (members : Nat) : Bool :=
  (decide (0 < members) && (decide (1 < Enc.effSpace e) || e.ctl.wait != 0 || decide (8 ≤ members)))
  || (e.ctl.hold && f.parks e)

/-- ENC, OPERAND for one field (R173, R174). -/
def roleOperandBad (r : Role) (n : Nat) : Bool :=
  match r with
  | .vd k => n % (min k 4) != 0 || decide (256 < n + k)
  | .vs k => n % (min k 4) != 0 || decide (256 < n + k)
  | .us k => if k ≤ 1 then false
             else if k = 2 then !((decide (n < 128) && n % 2 == 0) || n == 129 || n == 138)
             else !(decide (n < 128) && n % 4 == 0)
  | .ud k => if k ≤ 1 then false
             else if k = 2 then !((decide (n < 128) && n % 2 == 0) || n == 129 || n == 138)
             else !(decide (n < 128) && n % 4 == 0)
  | .pd => decide (8 ≤ n)
  | .pr => decide (8 ≤ n)
  | .cur => decide (8 ≤ n)
  | _ => false

/-- ENC, SPECIAL for one field (R174, R175, R303). -/
def roleSpecialBad (r : Role) (n : Nat) : Bool :=
  match r with
  | .us _ => (decide (146 ≤ n) && decide (n ≤ 159)) || decide (176 ≤ n)
  | .ud _ => decide (128 ≤ n)
  | .lsp false => decide (11 ≤ n)
  | .lsp true => n != 9 && n != 10
  | .hc => !(decide (160 ≤ n) && decide (n ≤ 175))
  | _ => false

/-- A handler register as a uniform operand (R174). -/
def rolePriv (r : Role) (n : Nat) : Bool :=
  match r with
  | .us _ => decide (160 ≤ n) && decide (n ≤ 175)
  | _ => false

/-- ENC, QUOTA for one field (R27). -/
def roleQuotaBad (q : Nat) (r : Role) (n : Nat) : Bool :=
  match r with
  | .vd k => decide (8 * q < n + k)
  | .vs k => decide (8 * q < n + k)
  | _ => false

/-- ENC, OPERAND. -/
def operandBad (f : Form) (e : Enc) (fmt : Word) : Bool :=
  f.operandBad e || (namedFields f e fmt).any fun (r, n) => roleOperandBad r n

/-- ENC, SPECIAL. -/
def specialBad (f : Form) (e : Enc) (fmt : Word) : Bool :=
  (namedFields f e fmt).any fun (r, n) => roleSpecialBad r n

/-- ENC, SCOPE (R67, R179). -/
def scopeBad (f : Form) (e : Enc) : Bool :=
  match f.scope with
  | some (h, l) => decide (6 ≤ e.M h l)
  | none => false

/-- The first check of R183, steps 4 to 15, that fails: its code (R185). -/
def encCheck (f : Form) (e : Enc) (x : EncCtx) : Option Nat :=
  if f.handlerOnly && !x.handler then some 15
  else if setfBad e then some 4
  else if e.ctl.hold && e.ctl.cede then some 5
  else if guardBad f e then some 6
  else if biBad f e then some 7
  else if rsvdBad f e x.fmt then some 8
  else if latchBad f e x.fmt x.members then some 9
  else if nwbBad f e then some 10
  else if chainBad f e x.members then some 11
  else if !f.modOk e || f.modFmt e x.fmt then some 12
  else if operandBad f e x.fmt then some 13
  else if specialBad f e x.fmt then some 14
  else if !x.handler && (namedFields f e x.fmt).any (fun (r, n) => rolePriv r n) then some 15
  else if (namedFields f e x.fmt).any (fun (r, n) => roleQuotaBad x.quota r n) then some 16
  else if scopeBad f e then some 17
  else if f.formatBad e x.fmt then some 19
  else if f.absent e x.fmt x.caps then some 20
  else none

end Sys2Proof.Machine
end

