-- ==== Sys2Proof/WellFormed.lean ====
section
/-!
DEFINITION. Well-formed instructions: the encoded fields are those that words can carry, and the checks of R183 that
the words alone decide do not fail. The steps of the device are well-formed.
-/

namespace Sys2Proof

open Machine

/-- The fields that absent literal words leave at zero are zero (R176), and LIT is at most 2. -/
def Enc.canonical (e : Enc) : Bool :=
  e.ctl.lit != 3
  && (e.ctl.lit != 0 || e.m == ⟨0, false, false, false, 0, 0⟩)
  && (e.ctl.lit == 2 || e.imm == 0)

/-- The checks of R183 that the words alone decide, with their codes. fmt is read as 0. -/
def staticChecks (f : Form) (e : Enc) : List (Nat × Bool) :=
  [(4, setfBad e), (5, e.ctl.hold && e.ctl.cede), (6, guardBad f e), (7, biBad f e), (8, rsvdBad f e 0),
   (9, latchBad f e 0 1), (10, nwbBad f e), (11, e.ctl.hold && f.parks e), (12, !f.modOk e), (13, operandBad f e 0),
   (14, specialBad f e 0), (17, scopeBad f e)]

/-- An instruction that the words alone do not condemn. -/
def wellFormed (i : Instr) : Bool :=
  match formOf i with
  | none => true
  | some (f, e) => e.canonical && (staticChecks f e).all fun c => !c.2

/-- `wellFormed` as a proposition. -/
abbrev WellFormed (i : Instr) : Prop := wellFormed i = true

end Sys2Proof
end

