-- ==== Sys2Proof/Decode.lean ====
section
/-!
DEFINITION. The decoder (R168 to R176, R183 steps 1 to 3, R186, R187), total on any bytes, and the encoder.
-/

namespace Sys2Proof

open Machine

/-- Why bytes are no instruction: too few of them, or the first check of R183 that fails. -/
inductive DecodeError where
  | truncated
  | lit
  | zero
  | opcode
  deriving DecidableEq, Repr

/-- The lane set (R186). -/
def laneOp (op : Nat) : Option (Enc → Instr) :=
  match op with
  | 0x01 => some .iadd
  | 0x02 => some .isub
  | 0x03 => some .imul
  | 0x04 => some .imulh
  | 0x05 => some .imad
  | 0x06 => some .imin
  | 0x07 => some .imax
  | 0x08 => some .iabs
  | 0x09 => some .iadd64
  | 0x0A => some .imadw
  | 0x0B => some .shl
  | 0x0C => some .shr
  | 0x0D => some .sar
  | 0x0E => some .fshf
  | 0x0F => some .ltab
  | 0x10 => some .popc
  | 0x11 => some .clz
  | 0x12 => some .brev
  | 0x13 => some .bfe
  | 0x14 => some .bfi
  | 0x15 => some .bpick
  | 0x16 => some .icmp
  | 0x17 => some .ptab
  | 0x18 => some .sel
  | 0x19 => some .mov
  | 0x1A => some .rdsp
  | 0x1B => some .wrsp
  | 0x1C => some .lea
  | 0x1D => some .idp4
  | 0x20 => some .fadd
  | 0x21 => some .fmul
  | 0x22 => some .ffma
  | 0x23 => some .fmin
  | 0x24 => some .fmax
  | 0x25 => some .fcmp
  | 0x26 => some .fclass
  | 0x27 => some .fscale
  | 0x28 => some .frnd
  | 0x29 => some .cvt
  | 0x2A => some .pkn
  | 0x2B => some .upkn
  | 0x2C => some .cfma
  | 0x2D => some .cmul
  | 0x2E => some .fdp2
  | 0x30 => some .frcp
  | 0x31 => some .frsq
  | 0x32 => some .fsqrt
  | 0x33 => some .fdiv
  | 0x34 => some .fexp2
  | 0x35 => some .flog2
  | 0x36 => some .xf
  | 0x37 => some .dcd
  | 0x38 => some .enc
  | 0x3A => some .xlane
  | 0x3B => some .poll
  | 0x3C => some .redux
  | 0x3D => some .scan
  | 0x3E => some .matchB
  | 0x3F => some .topk
  | 0x40 => some .rand
  | 0x41 => some .prune
  | 0x48 => some .mma
  | 0x49 => some .mmac
  | 0x4A => some .plnst
  | 0x4B => some .mdrn
  | 0x50 => some .ld
  | 0x51 => some .st
  | 0x52 => some .lds
  | 0x53 => some .sts
  | 0x54 => some .atom
  | 0x55 => some .atoms
  | 0x56 => some .red
  | 0x57 => some .tld
  | 0x58 => some .tstr
  | 0x59 => some .pref
  | 0x5A => some .resq
  | 0x5C => some .hins
  | 0x5D => some .hprobe
  | 0x5E => some .hacc
  | 0x5F => some .hdel
  | 0x60 => some .gld
  | 0x61 => some .gdeg
  | 0x62 => some .gadd
  | 0x63 => some .gdel
  | 0x64 => some .gfind
  | 0x65 => some .gpay
  | 0x66 => some .copen
  | 0x67 => some .cnext
  | 0x68 => some .cseek
  | 0x69 => some .cinfo
  | 0x6A => some .cclose
  | 0x6B => some .gisect
  | _ => none

/-- The uniform set (R187). -/
def uniformOp (op : Nat) : Option (Enc → Instr) :=
  match op with
  | 0x01 => some .sadd
  | 0x02 => some .ssub
  | 0x03 => some .smul
  | 0x04 => some .smad
  | 0x05 => some .smin
  | 0x06 => some .smax
  | 0x07 => some .sshl
  | 0x08 => some .sshr
  | 0x09 => some .ssar
  | 0x0A => some .sltab
  | 0x0B => some .smov
  | 0x0C => some .scmp
  | 0x0D => some .ssel
  | 0x0E => some .sadd64
  | 0x0F => some .smadw
  | 0x10 => some .sbfe
  | 0x11 => some .spopc
  | 0x12 => some .sclz
  | 0x13 => some .qtab
  | 0x14 => some .sffma
  | 0x15 => some .scvt
  | 0x18 => some .sld
  | 0x19 => some .sst
  | 0x1A => some .slds
  | 0x1B => some .ssts
  | 0x1C => some .satom
  | 0x1D => some .oinfo
  | 0x20 => some .bra
  | 0x21 => some .brl
  | 0x22 => some .brx
  | 0x23 => some .rjn
  | 0x24 => some .call
  | 0x25 => some .ret
  | 0x26 => some .exit
  | 0x27 => some .loopn
  | 0x28 => some .nop
  | 0x30 => some .bar
  | 0x31 => some .bara
  | 0x32 => some .barw
  | 0x33 => some .rcw
  | 0x34 => some .gbar
  | 0x35 => some .fence
  | 0x38 => some .cqinit
  | 0x39 => some .cqadv
  | 0x3A => some .cqwait
  | 0x3B => some .cqseq
  | 0x3C => some .task
  | 0x3D => some .tjoin
  | 0x3E => some .tsettle
  | 0x3F => some .hinit
  | 0x40 => some .setfmt
  | 0x41 => some .setcmp
  | 0x42 => some .rquota
  | 0x43 => some .wrsr
  | 0x48 => some .trap
  | 0x49 => some .bkpt
  | 0x4A => some .tret
  | 0x4B => some .tkill
  | 0x4C => some .otset
  | 0x4D => some .pinv
  | _ => none

/-- A little-endian word (R7, R168). -/
def wordOfBytes (b0 b1 b2 b3 : Byte) : Word := b3 ++ b2 ++ b1 ++ b0

/-- The bytes of a word (R7, R168). -/
def bytesOfWord (w : Word) : List Byte :=
  [w.extractLsb' 0 8, w.extractLsb' 8 8, w.extractLsb' 16 8, w.extractLsb' 24 8]

/-- The words at the head of a byte string: at most `n` of them. -/
def takeWords (n : Nat) (bs : List Byte) : List Word × List Byte :=
  match n, bs with
  | n + 1, b0 :: b1 :: b2 :: b3 :: rest =>
    let r := takeWords n rest
    (wordOfBytes b0 b1 b2 b3 :: r.1, r.2)
  | _, bs => ([], bs)

/-- The control word's fields (R170). -/
def ctlOf (w : Word) : Ctl where
  space := w.extractLsb' 27 4
  wait := w.extractLsb' 15 12
  setf := w.extractLsb' 11 4
  hold := w.getLsbD 10
  cede := w.getLsbD 9
  lit := w.extractLsb' 7 2
  la := w.extractLsb' 5 2
  lb := w.extractLsb' 3 2
  lc := w.extractLsb' 1 2
  nwb := w.getLsbD 0

/-- Literal M's fields (R176). -/
def litMOf (w : Word) : LitM where
  guard := w.extractLsb' 28 4
  sa := w.getLsbD 27
  sb := w.getLsbD 26
  bi := w.getLsbD 25
  md := w.extractLsb' 8 17
  c := w.extractLsb' 0 8

/-- The fields of an instruction's words; absent literals read as zero (R176). -/
def encOf (cw ow : Word) (lits : List Word) : Enc where
  ctl := ctlOf cw
  d := ow.extractLsb' 16 8
  a := ow.extractLsb' 8 8
  b := ow.extractLsb' 0 8
  m := litMOf (lits.getD 0 0)
  imm := lits.getD 1 0

/-- The instruction at the head of a byte string, and the rest. The checks are R183's steps 1 to 3. -/
def decode (bs : List Byte) : Except DecodeError (Instr × List Byte) :=
  match takeWords 2 bs with
  | ([cw, ow], rest) =>
    let n := (cw.extractLsb' 7 2).toNat
    let op := (ow.extractLsb' 24 8).toNat
    if n = 3 then .error .lit
    else if op = 0 then .error .zero
    else
      match (if cw.getLsbD 31 then uniformOp op else laneOp op) with
      | none => .error .opcode
      | some mk =>
        let r := takeWords n rest
        if r.1.length = n then .ok (mk (encOf cw ow r.1), r.2) else .error .truncated
  | _ => .error .truncated

/-- A bit as a vector. -/
def bit1 (b : Bool) : BitVec 1 := BitVec.ofBool b

/-- The control word (R170); `s` is the set. -/
def ctlWord (s : Bool) (c : Ctl) : Word :=
  bit1 s ++ c.space ++ c.wait ++ c.setf ++ bit1 c.hold ++ bit1 c.cede ++ c.lit ++ c.la ++ c.lb ++ c.lc ++ bit1 c.nwb

/-- The operation word (R171). -/
def opWord (op : Nat) (e : Enc) : Word := BitVec.ofNat 8 op ++ e.d ++ e.a ++ e.b

/-- Literal M (R176). -/
def litMWord (m : LitM) : Word := m.guard ++ bit1 m.sa ++ bit1 m.sb ++ bit1 m.bi ++ m.md ++ m.c

/-- The words of an instruction; a step of the device has none. -/
def encode (i : Instr) : List Word :=
  match formOf i with
  | none => []
  | some (f, e) =>
    [ctlWord f.uni e.ctl, opWord f.op e] ++ [litMWord e.m, e.imm].take e.ctl.lit.toNat

/-- The bytes of an instruction, in ascending address order. -/
def encodeBytes (i : Instr) : List Byte := (encode i).flatMap bytesOfWord

/-- The byte string of `n` bytes that holds the number `w`, least significant first. -/
def bytesOfNat (n w : Nat) : List Byte :=
  match n with
  | 0 => []
  | n + 1 => BitVec.ofNat 8 w :: bytesOfNat n (w / 256)

/-- The bytes of a table word: bit 0 is the least significant bit of the control word, and the words follow one
another; above `nbits` every bit is 0, up to the longest instruction. -/
def tableBytes (nbits w : Nat) : List Byte := bytesOfNat 16 (w % 2 ^ nbits)

/-- What the decoder reads from a table word. -/
def decodeTableWord (nbits w : Nat) : Option Instr :=
  match decode (tableBytes nbits w) with
  | .ok r => some r.1
  | .error _ => none

end Sys2Proof
end

