-- ==== Sys2Proof/Machine/Maps.lean ====
section
/-!
DEFINITION. Sparse data by key, and memory: a list of (address, byte) pairs in one canonical form, addresses strictly
rising and no entry equal to 0, which is what an unlisted address reads as (log 3).
-/

namespace Sys2Proof.Machine

/-- The entry at a key. -/
def mfind {α : Type} (m : SMap α) (k : Nat) : Option α :=
  match m with
  | [] => none
  | (j, v) :: r => if j = k then some v else mfind r k

/-- The entry at a key, or a default. -/
def mget {α : Type} (m : SMap α) (k : Nat) (d : α) : α := (mfind m k).getD d

/-- Whether a key is listed. -/
def mhas {α : Type} (m : SMap α) (k : Nat) : Bool := (mfind m k).isSome

/-- Sets the entry at a key. -/
def mset {α : Type} (m : SMap α) (k : Nat) (v : α) : SMap α :=
  match m with
  | [] => [(k, v)]
  | (j, w) :: r => if j = k then (k, v) :: r else if k < j then (k, v) :: (j, w) :: r else (j, w) :: mset r k v

/-- Removes the entry at a key. -/
def mdel {α : Type} (m : SMap α) (k : Nat) : SMap α :=
  match m with
  | [] => []
  | (j, w) :: r => if j = k then mdel r k else (j, w) :: mdel r k

/-- Sets the entry at a key, where a default is not listed. -/
def mput {α : Type} [DecidableEq α] (d : α) (m : SMap α) (k : Nat) (v : α) : SMap α :=
  if v = d then mdel m k else mset m k v

/-- Changes a listed entry. -/
def mmod {α : Type} (m : SMap α) (k : Nat) (f : α → α) : SMap α :=
  match m with
  | [] => []
  | (j, v) :: r => if j = k then (j, f v) :: r else (j, v) :: mmod r k f

/-- The keys. -/
def mkeys {α : Type} (m : SMap α) : List Nat := m.map Prod.fst

/-- Keys strictly rise. -/
def mwf {α : Type} (m : SMap α) : Bool :=
  match m with
  | [] => true
  | [_] => true
  | (j, _) :: (k, w) :: r => decide (j < k) && mwf ((k, w) :: r)

/-- Memory as `Host.Cell`s. -/
abbrev Memory := List Host.Cell

/-- The canonical form: addresses strictly rise, and no byte is 0. -/
def Memory.wf (m : Memory) : Bool := mwf m && m.all fun c => c.2 != 0

/-- What an unlisted address reads as (log 3). -/
def emptyByte : Byte := 0

/-- One byte of memory. -/
def readByte (m : Memory) (a : Nat) : Byte := mget m a emptyByte

/-- One byte written; the canonical form is kept. -/
def writeByte (m : Memory) (a : Nat) (b : Byte) : Memory := mput emptyByte m a b

/-- `n` bytes from an address. -/
def readBytes (m : Memory) (a n : Nat) : List Byte :=
  match n with
  | 0 => []
  | n + 1 => readByte m a :: readBytes m (a + 1) n

/-- Bytes written from an address up. -/
def writeBytes (m : Memory) (a : Nat) (bs : List Byte) : Memory :=
  match bs with
  | [] => m
  | b :: r => writeBytes (writeByte m a b) (a + 1) r

/-- A little-endian number (R7). -/
def leNat (bs : List Byte) : Nat :=
  match bs with
  | [] => 0
  | b :: r => b.toNat + 256 * leNat r

/-- The `n` bytes of a number, little-endian (R7). -/
def leBytes (n x : Nat) : List Byte :=
  match n with
  | 0 => []
  | n + 1 => BitVec.ofNat 8 x :: leBytes n (x / 256)

/-- A range of numbers from `a`. -/
def rangeFrom (a n : Nat) : List Nat :=
  match n with
  | 0 => []
  | n + 1 => a :: rangeFrom (a + 1) n

/-- The set bits of a word, ascending (lanes of a mask). -/
def lanesOf (w : Word) : List Nat := (List.range 32).filter fun i => w.getLsbD i

/-- The mask of a list of lanes. -/
def maskOf (ls : List Nat) : Word := ls.foldl (fun acc i => acc ||| (1#32 <<< i)) 0#32

end Sys2Proof.Machine
end

