-- ==== Sys2Proof/Machine/Float.lean ====
section
/-!
DEFINITION. Exact values, the formats of R31 to R33, exact sums (R41), companding (R49 to R51), the one rounding of
R39 to R43, and the lane generator (R46 to R48).
-/

namespace Sys2Proof.Machine

/-- An exact value: (−1)^neg × m × 2^e; with `sticky`, the magnitude lies strictly between m × 2^e and
(m + 1) × 2^e. A zero keeps its sign. -/
inductive XVal where
  | nan
  | inf (neg : Bool)
  | fin (neg : Bool) (m : Nat) (e : Int) (sticky : Bool)
  deriving DecidableEq, Repr

/-- An exact dyadic number m × 2^e. -/
structure Dy where
  m : Int
  e : Int
  deriving DecidableEq, Repr

/-- m × 2^k for k ≥ 0. -/
def shiftInt (m : Int) (k : Int) : Int := m * (2 ^ k.toNat : Nat)

/-- The sum of two dyadics. -/
def Dy.add (a b : Dy) : Dy :=
  let e := min a.e b.e
  ⟨shiftInt a.m (a.e - e) + shiftInt b.m (b.e - e), e⟩

/-- The difference of two dyadics. -/
def Dy.sub (a b : Dy) : Dy := Dy.add a ⟨-b.m, b.e⟩

/-- a < b. -/
def Dy.lt (a b : Dy) : Bool := decide ((Dy.sub a b).m < 0)

/-- The larger of two dyadics. -/
def Dy.max (a b : Dy) : Dy := if Dy.lt a b then b else a

/-- The smaller of two dyadics. -/
def Dy.min (a b : Dy) : Dy := if Dy.lt a b then a else b

/-- a × 2^k. -/
def Dy.scale (a : Dy) (k : Int) : Dy := ⟨a.m, a.e + k⟩

/-- The exact value of a dyadic. -/
def Dy.toX (d : Dy) : XVal := .fin (decide (d.m < 0)) d.m.natAbs d.e false

/-- The dyadic of a finite exact value (its sticky part left out). -/
def XVal.dy (x : XVal) : Dy :=
  match x with
  | .fin n m e _ => ⟨if n then -(m : Int) else m, e⟩
  | _ => ⟨0, 0⟩

/-- The layout of a floating format (R31): exponent width, mantissa width, bias. -/
structure FF where
  ew   : Nat
  mw   : Nat
  bias : Nat
  deriving DecidableEq, Repr

/-- The floating formats of R31 by code. -/
def ffOf (code : Nat) : FF :=
  match code with
  | 0 => ⟨8, 23, 127⟩
  | 1 => ⟨11, 52, 1023⟩
  | 2 => ⟨5, 10, 15⟩
  | 3 => ⟨8, 7, 127⟩
  | 4 => ⟨4, 3, 7⟩
  | 5 => ⟨5, 2, 15⟩
  | 6 => ⟨2, 3, 1⟩
  | 7 => ⟨3, 2, 3⟩
  | _ => ⟨2, 1, 1⟩

/-- Formats with infinities and IEEE NaNs (R32). -/
def hasInf (code : Nat) : Bool := [0, 1, 2, 3, 5].contains code

/-- The formats that FTZ flushes (R43). -/
def isWide (code : Nat) : Bool := decide (code ≤ 3)

/-- The formats that companding acts on (R51). -/
def isNarrow (code : Nat) : Bool := decide (4 ≤ code) && decide (code ≤ 8)

/-- Bits of a floating format. -/
def FF.bits (f : FF) : Nat := 1 + f.ew + f.mw

/-- The canonical NaN (R33); formats without one have +0. -/
def canonNan (code : Nat) : Nat :=
  match code with
  | 0 => 0x7FC00000
  | 1 => 0x7FF8000000000000
  | 2 => 0x7E00
  | 3 => 0x7FC0
  | 4 => 0x7F
  | 5 => 0x7E
  | 14 => 0xFF
  | _ => 0

/-- The exact value of a pattern (R31, R32). -/
def fval (code p : Nat) : XVal :=
  if code = 14 then (if p % 256 = 255 then .nan else .fin false 1 ((p % 256 : Nat) - 127) false)
  else
    let f := ffOf code
    let m := p % 2 ^ f.mw
    let e := (p >>> f.mw) % 2 ^ f.ew
    let s := p.testBit (f.ew + f.mw)
    if hasInf code && e = 2 ^ f.ew - 1 then (if m = 0 then .inf s else .nan)
    else if code = 4 && e = 15 && m = 7 then .nan
    else if e = 0 then .fin s m (1 - (f.bias : Int) - f.mw) false
    else .fin s (2 ^ f.mw + m) ((e : Int) - f.bias - f.mw) false

/-- A subnormal pattern (R203, R43). -/
def isSubnormal (code p : Nat) : Bool :=
  let f := ffOf code
  (p >>> f.mw) % 2 ^ f.ew == 0 && p % 2 ^ f.mw != 0

/-- The pattern with its magnitude cleared: a zero of its sign. -/
def signedZero (code p : Nat) : Nat :=
  let f := ffOf code
  p % 2 ^ f.bits - p % 2 ^ (f.bits - 1)

/-- The flush of an operand (R43). -/
def flushIn (ftz : Bool) (code p : Nat) : Nat :=
  if ftz && isWide code && isSubnormal code p then signedZero code p else p

/-- The largest finite magnitude's pattern (R31). -/
def maxFinite (code : Nat) : Nat :=
  let f := ffOf code
  if hasInf code then (2 ^ f.ew - 1) * 2 ^ f.mw - 1
  else if code = 4 then 0x7E
  else 2 ^ (f.ew + f.mw) - 1

/-- A pattern with a sign. -/
def withSign (code : Nat) (neg : Bool) (p : Nat) : Nat :=
  if neg then p + 2 ^ ((ffOf code).bits - 1) else p

/-- One step of the generator (R46): the state and the output. -/
def genStep (lg : Dword) : Dword × Nat :=
  let l0 := if lg = 0 then 1 else lg
  let l1 := l0 ^^^ (l0 >>> 12)
  let l2 := l1 ^^^ (l1 <<< 25)
  let l3 := l2 ^^^ (l2 >>> 27)
  (l3, ((l3 * 0x2545F4914F6CDD1D#64) >>> 32).toNat)

/-- The seed of a lane (R47). -/
def seedLane (hs w : Dword) : Dword :=
  let z0 := hs + w * 0x9E3779B97F4A7C15#64
  let z1 := (z0 ^^^ (z0 >>> 30)) * 0xBF58476D1CE4E5B9#64
  let z2 := (z1 ^^^ (z1 >>> 27)) * 0x94D049BB133111EB#64
  let z3 := z2 ^^^ (z2 >>> 31)
  if z3 = 0 then 1 else z3

/-- A piecewise-linear function through 0 (R50): breakpoints, slope exponents. -/
def pwlRaw (bps : List Dy) (slopes : List Int) (x : Dy) : Dy :=
  match bps, slopes with
  | [], e :: _ => Dy.scale x e
  | b :: r, e :: es => go b r es (Dy.scale (Dy.min x b) e) x
  | _, [] => x
where
  /-- The part above breakpoint `b`. -/
  go (b : Dy) (r : List Dy) (es : List Int) (acc x : Dy) : Dy :=
    match r, es with
    | [], e :: _ => Dy.add acc (Dy.scale (Dy.sub (Dy.max x b) b) e)
    | c :: r', e :: es' => go c r' es' (Dy.add acc (Dy.scale (Dy.sub (Dy.min (Dy.max x b) c) b) e)) x
    | _, [] => acc

/-- The function with value 0 at 0. -/
def pwl (bps : List Dy) (slopes : List Int) (x : Dy) : Dy :=
  Dy.sub (pwlRaw bps slopes x) (pwlRaw bps slopes ⟨0, 0⟩)

/-- A compand table in exact form: breakpoints and slope exponents; none is the identity. -/
structure CTab where
  bps    : List Dy
  slopes : List Int
  deriving DecidableEq, Repr

/-- f of R50. -/
def CTab.fwd (t : CTab) (x : XVal) : XVal :=
  match x with
  | .fin n m e _ =>
    let y := pwl t.bps t.slopes x.dy
    if m = 0 then .fin n 0 e false else y.toX
  | y => y

/-- g of R50. -/
def CTab.inv (t : CTab) (x : XVal) : XVal :=
  match x with
  | .fin n m e _ =>
    let y := pwl (t.bps.map (pwl t.bps t.slopes)) (t.slopes.map fun k => -k) x.dy
    if m = 0 then .fin n 0 e false else y.toX
  | y => y

/-- What a rounding depends on: the mode (R40; 5 is SR), SAT, FTZ, and the compand table of the forward map. -/
structure RCtx where
  mode : Nat
  sat  : Bool
  ftz  : Bool
  comp : Option CTab
  deriving DecidableEq, Repr

/-- RNE without saturation, flush or companding (R250). -/
def RCtx.atomic : RCtx := ⟨0, false, false, none⟩

/-- Length of a number in bits. -/
def bitLen (n : Nat) : Nat := if n = 0 then 0 else Nat.log2 n + 1

/-- Rounds the magnitude m × 2^e (with its sticky part) to a multiple of 2^q: the multiple (R40). `out` is the
generator's output, used by SR. -/
def roundMag (mode out : Nat) (neg : Bool) (m : Nat) (e : Int) (sticky : Bool) (q : Int) : Nat :=
  let up := (e - q).toNat
  let dn := (q - e).toNat
  let lo := (m * 2 ^ up) / 2 ^ dn
  let rem := (m * 2 ^ up) % 2 ^ dn
  let half := 2 ^ dn
  let exact := rem == 0 && !sticky
  let hi := lo + 1
  if exact then lo
  else
    match mode with
    | 0 => if 2 * rem > half || (2 * rem = half && (sticky || lo % 2 = 1)) then hi else lo
    | 1 => lo
    | 2 => if neg then lo else hi
    | 3 => if neg then hi else lo
    | 4 => if 2 * rem ≥ half then hi else lo
    | _ => if (if sticky then out * half ≤ rem * 2 ^ 32 else out * half < rem * 2 ^ 32) then hi else lo

/-- The pattern of the overflowed magnitude (R42). -/
def overflowPattern (rc : RCtx) (code : Nat) (neg : Bool) : Nat :=
  let big := withSign code neg (maxFinite code)
  if rc.mode = 1 || (rc.mode = 2 && neg) || (rc.mode = 3 && !neg) then big
  else if hasInf code then
    (if rc.sat && code ≥ 2 then big else withSign code neg (maxFinite code + 1))
  else if code = 4 then (if rc.sat then big else canonNan 4)
  else big

/-- The pattern of an infinite input (R42). -/
def infPattern (rc : RCtx) (code : Nat) (neg : Bool) : Nat :=
  if hasInf code then withSign code neg (maxFinite code + 1)
  else if code = 4 && !rc.sat then canonNan 4
  else withSign code neg (maxFinite code)

/-- The pattern of a rounded finite nonzero value. -/
def finPattern (rc : RCtx) (code out : Nat) (neg : Bool) (m : Nat) (e : Int) (sticky : Bool) : Nat :=
  let f := ffOf code
  let top := e + bitLen m - 1
  let q := max (top - f.mw) (1 - (f.bias : Int) - f.mw)
  let n := roundMag rc.mode out neg m e sticky q
  let n' := if n = 2 ^ (f.mw + 1) then 2 ^ f.mw else n
  let q' := if n = 2 ^ (f.mw + 1) then q + 1 else q
  if n' < 2 ^ f.mw then
    withSign code neg (if rc.ftz && isWide code then 0 else n')
  else
    let p := (q' + f.mw + f.bias).toNat * 2 ^ f.mw + (n' - 2 ^ f.mw)
    if p > maxFinite code then overflowPattern rc code neg else withSign code neg p

/-- e of a conversion into E8M0 (R44). -/
def toE8M0 (x : XVal) : Nat :=
  match x with
  | .fin _ m e _ => if m = 0 then 0 else (max 0 (min 254 (e + bitLen m - 1 + 127))).toNat
  | _ => 0xFF

/-- The pattern of `x` in a floating format, given the generator's output (R189 round_to). -/
def roundPattern (rc : RCtx) (code out : Nat) (x : XVal) : Nat :=
  if code = 14 then toE8M0 x
  else
    let y := if isNarrow code then (match rc.comp with | some t => t.fwd x | none => x) else x
    match y with
    | .nan => canonNan code
    | .inf n => infPattern rc code n
    | .fin n m e st => if m = 0 && !st then withSign code n 0 else finPattern rc code out n m e st

/-- round_to: the pattern, and the generator after its step, if the mode is SR (R48). -/
def roundTo (rc : RCtx) (code : Nat) (x : XVal) (lg : Dword) : Nat × Dword :=
  if rc.mode = 5 then
    let g := genStep lg
    (roundPattern rc code g.2 x, g.1)
  else (roundPattern rc code 0 x, lg)

/-- A product of exact values: its zero has the sign of the operands' exclusive or. -/
def xmul (a b : XVal) : XVal :=
  match a, b with
  | .nan, _ => .nan
  | _, .nan => .nan
  | .inf s, .inf t => .inf (s != t)
  | .inf s, .fin t m _ _ => if m = 0 then .nan else .inf (s != t)
  | .fin s m _ _, .inf t => if m = 0 then .nan else .inf (s != t)
  | .fin s m e _, .fin t n f _ => .fin (s != t) (m * n) (e + f) false

/-- A negated exact value. -/
def xneg (a : XVal) : XVal :=
  match a with
  | .nan => .nan
  | .inf s => .inf (!s)
  | .fin s m e st => .fin (!s) m e st

/-- Whether a value is a zero. -/
def XVal.isZero (x : XVal) : Bool :=
  match x with
  | .fin _ m _ st => m == 0 && !st
  | _ => false

/-- A zero result takes the sign of R41: `mode` 3 is RDN. -/
def zeroSign (mode : Nat) (x : XVal) : XVal :=
  match x with
  | .fin false 0 e false => .fin (mode == 3) 0 e false
  | y => y

/-- A product as a result (R41): −0 for operands of opposite sign, else +0, or −0 in RDN. -/
def xprod (mode : Nat) (a b : XVal) : XVal := zeroSign mode (xmul a b)

/-- The exact sum of its terms (R41). -/
def exactSum (mode : Nat) (ts : List XVal) : XVal :=
  if ts.any (· == .nan) then .nan
  else
    let pos := ts.any (· == .inf false)
    let neg := ts.any (· == .inf true)
    if pos && neg then .nan
    else if pos then .inf false
    else if neg then .inf true
    else
      let d := ts.foldl (fun acc t => Dy.add acc t.dy) ⟨0, 0⟩
      if d.m = 0 then
        let allNeg := !ts.isEmpty && ts.all fun t => match t with | .fin n m _ _ => n && m == 0 | _ => false
        .fin (allNeg || mode == 3) 0 0 false
      else d.toX

/-- x < y, x = y for numbers; −0 equals +0 (R179). -/
def xlt (x y : XVal) : Bool :=
  match x, y with
  | .inf true, .inf true => false
  | .inf true, _ => true
  | _, .inf true => false
  | .inf false, _ => false
  | _, .inf false => true
  | a, b => Dy.lt a.dy b.dy

/-- Equality of numbers. -/
def xeq (x y : XVal) : Bool := !xlt x y && !xlt y x

/-- The sign of an exact value. -/
def XVal.neg (x : XVal) : Bool :=
  match x with
  | .nan => false
  | .inf s => s
  | .fin s _ _ _ => s

/-- x < y with −0 below +0 (R201). -/
def xltTotal (x y : XVal) : Bool := xlt x y || (xeq x y && x.neg && !y.neg)

/-- The comparisons of R179 on floating values. -/
def fcompare (c : Nat) (x y : XVal) : Bool :=
  let nan := x == .nan || y == .nan
  match c with
  | 0 => !nan && xeq x y
  | 1 => !nan && !xeq x y
  | 2 => !nan && xlt x y
  | 3 => !nan && !xlt y x
  | 4 => !nan && xlt y x
  | 5 => !nan && !xlt x y
  | 6 => !nan
  | 7 => nan
  | 8 => nan || xeq x y
  | 9 => nan || !xeq x y
  | 10 => nan || xlt x y
  | 11 => nan || !xlt y x
  | 12 => nan || xlt y x
  | _ => nan || !xlt x y

end Sys2Proof.Machine
end

