-- ==== Sys2Proof/Machine/Trans.lean ====
section
/-!
DEFINITION. The Ochre operations (R56, R207) as exact values with a sticky part: division, square roots, base-two
exponential and logarithm. An irrational value is bounded between two fixed-point numbers; the precision is raised
until both bounds agree on more bits than any rounding of FP64 reads (log 5).
-/

namespace Sys2Proof.Machine

/-- floor(sqrt n), bit by bit: `fuel` bits of the result. -/
def isqrtGo (fuel n r : Nat) : Nat :=
  match fuel with
  | 0 => r
  | k + 1 =>
    let c := r + 2 ^ k
    isqrtGo k n (if c * c ≤ n then c else r)

/-- floor(sqrt n). -/
def isqrt (n : Nat) : Nat := isqrtGo (bitLen n / 2 + 1) n 0

/-- A quotient of magnitudes with sign, at least 160 significant bits. -/
def xdivMag (neg : Bool) (m : Nat) (e : Int) (n : Nat) (f : Int) : XVal :=
  let k := 160 + bitLen n
  let q := (m * 2 ^ k) / n
  .fin neg q (e - f - k) ((m * 2 ^ k) % n != 0)

/-- Division (R41, R207). -/
def xdiv (mode : Nat) (a b : XVal) : XVal :=
  match a, b with
  | .nan, _ => .nan
  | _, .nan => .nan
  | .inf _, .inf _ => .nan
  | .inf s, .fin t _ _ _ => .inf (s != t)
  | .fin s _ _ _, .inf t => .fin (s != t) 0 0 false
  | .fin s m e _, .fin t n f _ =>
    if n = 0 then (if m = 0 then .nan else .inf (s != t))
    else if m = 0 then zeroSign mode (.fin (s != t) 0 0 false)
    else xdivMag (s != t) m e n f

/-- 1 / a (R207). -/
def xrcp (a : XVal) : XVal :=
  match a with
  | .nan => .nan
  | .inf s => .fin s 0 0 false
  | .fin s m e _ => if m = 0 then .inf s else xdivMag s 1 0 m e

/-- Square root (R207). -/
def xsqrt (a : XVal) : XVal :=
  match a with
  | .nan => .nan
  | .inf s => if s then .nan else .inf false
  | .fin s m e _ =>
    if m = 0 then .fin s 0 0 false
    else if s then .nan
    else
      let odd := e % 2 != 0
      let m' := (if odd then 2 * m else m) * 2 ^ 320
      let e' := (if odd then e - 1 else e) - 320
      let r := isqrt m'
      .fin false r (e' / 2) (r * r != m')

/-- Reciprocal square root (R207). -/
def xrsq (a : XVal) : XVal :=
  match a with
  | .nan => .nan
  | .inf s => if s then .nan else .fin false 0 0 false
  | .fin s m e _ =>
    if m = 0 then .inf s
    else if s then .nan
    else
      let odd := e % 2 != 0
      let m' := if odd then 2 * m else m
      let e' := if odd then e - 1 else e
      let k := 2 * (160 + bitLen m')
      let r := isqrt (2 ^ k / m')
      .fin false r (-(e' / 2) - (k / 2 : Nat)) (r * r * m' != 2 ^ k)

/-- ln 2 × 2^n, within one unit for each term: the sum of 1 / (k 2^k). -/
def ln2Go (fuel n k acc : Nat) : Nat :=
  match fuel with
  | 0 => acc
  | t + 1 => ln2Go t n (k + 1) (acc + 2 ^ n / (k * 2 ^ k))

/-- ln 2 × 2^n less at most n + 8. -/
def ln2Fix (n : Nat) : Nat := ln2Go (n + 8) n 1 0

/-- The Taylor sum of e^z from term `k` on, z = zf / 2^n: `t` is the last term. -/
def expGo (fuel n zf k t acc : Nat) : Nat :=
  match fuel with
  | 0 => acc
  | f + 1 =>
    let t' := t * zf / 2 ^ n / k
    expGo f n zf (k + 1) t' (acc + t')

/-- e^z × 2^n from below. -/
def expFix (n zf : Nat) : Nat := expGo (n / 2) n zf 1 (2 ^ n) (2 ^ n)

/-- The sum of t^(2k+1) / (2k+1): `p` is the current power. -/
def atanhGo (fuel n t2 p k acc : Nat) : Nat :=
  match fuel with
  | 0 => acc
  | f + 1 => atanhGo f n t2 (p * t2 / 2 ^ n) (k + 2) (acc + p / k)

/-- ln(num / den) × 2^n from below, for 1 ≤ num / den < 2. -/
def lnFix (n num den : Nat) : Nat :=
  let t := (num - den) * 2 ^ n / (num + den)
  2 * atanhGo (n / 2) n (t * t / 2 ^ n) t 1 0

/-- floor(x × 2^p) for 2^(num/2^k), 0 ≤ num < 2^k, when n bits of working precision decide it. -/
def exp2At (n p num k : Nat) : Option Nat :=
  let lo := num * ln2Fix n / 2 ^ k
  let a := expFix n lo
  let err := 8 * n + 64
  let l := a / 2 ^ (n - p)
  if l = (a + err) / 2 ^ (n - p) then some l else none

/-- 2^a (R207). -/
def xexp2 (a : XVal) : XVal :=
  match a with
  | .nan => .nan
  | .inf s => if s then .fin false 0 0 false else .inf false
  | .fin s m e _ =>
    if m = 0 then .fin false 1 0 false
    else if e + bitLen m > 40 then
      (if s then .fin false 1 (-(2 ^ 40)) true else .fin false 1 (2 ^ 40) false)
    else
      let x : Int := if s then -(m : Int) else m
      if e ≥ 0 then .fin false 1 (x * (2 ^ e.toNat : Nat)) false
      else
        let k := (-e).toNat
        let i := x / (2 ^ k : Nat)
        let num := (x % (2 ^ k : Nat)).toNat
        if num = 0 then .fin false 1 i false
        else if e + bitLen m < -160 then
          (if s then .fin false (2 ^ 160 - 1) (-160) true else .fin false (2 ^ 160) (-160) true)
        else
          let p := 160
          let r := match exp2At 384 p num k with
            | some r => r
            | none => (exp2At 1024 p num k).getD (2 ^ p)
          .fin false r (i - p) true

/-- floor(v × 2^p) for log2(num / den), when n bits decide it. -/
def log2At (n p num den : Nat) : Option Nat :=
  let ln2 := ln2Fix n
  let l := lnFix n num den
  let lo := l * 2 ^ n / (ln2 + n + 16)
  let hi := (l + 8 * n + 64) * 2 ^ n / ln2 + 1
  let r := lo / 2 ^ (n - p)
  if r = hi / 2 ^ (n - p) then some r else none

/-- log2 a (R207). -/
def xlog2 (a : XVal) : XVal :=
  match a with
  | .nan => .nan
  | .inf s => if s then .nan else .inf false
  | .fin s m e _ =>
    if m = 0 then .inf true
    else if s then .nan
    else
      let b := bitLen m - 1
      let E : Int := e + b
      if m = 2 ^ b then (if E = 0 then .fin false 0 0 false else .fin (decide (E < 0)) E.natAbs 0 false)
      else
        let p := 240
        let r := match log2At 384 p m (2 ^ b) with
          | some r => r
          | none => (log2At 1024 p m (2 ^ b)).getD 0
        let v : Int := E * (2 ^ p : Nat) + r
        if v < 0 then .fin true (-v - 1).toNat (-(p : Int)) true
        else .fin false v.toNat (-(p : Int)) true

end Sys2Proof.Machine
end

