-- ==== Sys2Proof/Machine/Convert.lean ====
section
/-!
DEFINITION. Conversions: integers (R44, R189), CVT's types (R204), group-scaled integers (R35, R36), packed elements
(R34, R205), MX blocks (R37, R72) and the conversions of pages (R45).
-/

namespace Sys2Proof.Machine

/-- Width of an integer TY (R179). -/
def tyBits (ty : Nat) : Nat := 8 * 2 ^ (ty % 4)

/-- Signedness of an integer TY. -/
def tySigned (ty : Nat) : Bool := decide (4 ≤ ty)

/-- Smallest value of an integer type. -/
def intLo (bits : Nat) (sg : Bool) : Int := if sg then -(2 ^ (bits - 1) : Nat) else 0

/-- Largest value of an integer type. -/
def intHi (bits : Nat) (sg : Bool) : Int := if sg then (2 ^ (bits - 1) : Nat) - 1 else (2 ^ bits : Nat) - 1

/-- The low `bits` bits of an integer, as a number. -/
def wrapTo (bits : Nat) (x : Int) : Nat := (x % (2 ^ bits : Nat)).toNat

/-- clamp of R189, as a pattern. -/
def clampTo (bits : Nat) (sg : Bool) (x : Int) : Nat := wrapTo bits (max (intLo bits sg) (min (intHi bits sg) x))

/-- The integer that the low `bits` bits of a number hold. -/
def asInt (bits : Nat) (sg : Bool) (p : Nat) : Int :=
  let u := p % 2 ^ bits
  if sg && u.testBit (bits - 1) then (u : Int) - (2 ^ bits : Nat) else u

/-- The exact value of an integer. -/
def intX (x : Int) : XVal := .fin (decide (x < 0)) x.natAbs 0 false

/-- A finite value rounded to an integer, by the mode and the generator's output (R40). -/
def roundInt (mode out : Nat) (neg : Bool) (m : Nat) (e : Int) (sticky : Bool) : Int :=
  let n := roundMag mode out neg m e sticky 0
  if neg then -(n : Int) else n

/-- A value rounded to an integer and saturated (R44): NaN gives 0. -/
def toIntSat (mode out : Nat) (lo hi : Int) (x : XVal) : Int :=
  match x with
  | .nan => 0
  | .inf s => if s then lo else hi
  | .fin n m e st =>
    if e + bitLen m > 80 then (if n then lo else hi)
    else max lo (min hi (roundInt mode out n m e st))

/-- A value converted to an integer type, with the generator's step under SR. -/
def toIntType (mode bits : Nat) (sg : Bool) (x : XVal) (lg : Dword) : Nat × Dword :=
  if mode = 5 then
    let g := genStep lg
    (wrapTo bits (toIntSat mode g.2 (intLo bits sg) (intHi bits sg) x), g.1)
  else (wrapTo bits (toIntSat mode 0 (intLo bits sg) (intHi bits sg) x), lg)

/-- FRND (R200): the integral value that the mode chooses, in format `code`. -/
def frndPattern (mode code out : Nat) (x : XVal) : Nat :=
  match x with
  | .nan => canonNan code
  | .inf s => withSign code s (maxFinite code + 1)
  | .fin n m e st =>
    if m = 0 then withSign code n 0
    else
      let k := if e ≥ 0 then m * 2 ^ e.toNat else roundMag mode out n m e st 0
      if k = 0 then withSign code n 0 else roundPattern RCtx.atomic code 0 (.fin n k 0 false)

/-- CVT of one real value (R204, R44): source and destination type codes, source pattern (as wide as its type), the
rounding context, the compand table of g (when CMPA is 1). A zero takes the sign of R41. R44 has no row for E8M0 and an integer
type: as the model's choice (log 50) E8M0 is a floating source, and an integer goes to E8M0 by its logarithm. -/
def cvtReal (rc : RCtx) (cmpa : Option CTab) (src dst p : Nat) (lg : Dword) : Nat × Dword :=
  let srcInt := src == 9 || src ≥ 16
  let sb := if src = 9 then 8 else tyBits (src - 16)
  let ss := src == 9 || tySigned (src - 16)
  let dstInt := dst == 9 || dst ≥ 16
  let db := if dst = 9 then 8 else tyBits (dst - 16)
  let ds := dst == 9 || tySigned (dst - 16)
  if srcInt && dstInt then
    let x := asInt sb ss p
    (if rc.sat then clampTo db ds x else wrapTo db x, lg)
  else
    let x0 : XVal := if srcInt then intX (asInt sb ss p)
      else fval src (flushIn rc.ftz src (p % 2 ^ (if src = 14 then 8 else (ffOf src).bits)))
    let x := if isNarrow src then (match cmpa with | some t => t.inv x0 | none => x0) else x0
    if dst = 14 then (toE8M0 x, lg)
    else if dstInt then toIntType rc.mode db ds x lg
    else roundTo rc dst (zeroSign rc.mode x) lg

/-- The higher bits of a register that a narrow destination fills (R204): sign fill for .s8, .s16 and INT8. -/
def cvtFill (dst p : Nat) : Nat :=
  if dst = 9 || dst = 20 then wrapTo 32 (asInt 8 true p)
  else if dst = 21 then wrapTo 32 (asInt 16 true p)
  else p

/-- Bits of a packed element of PKN and UPKN (R205). -/
def pkBits (df : Nat) : Nat := 32 / (if df = 2 ∨ df = 3 then 2 else if df = 8 then 8 else 4) - (if df = 6 ∨ df = 7 then 2 else 0)

/-- Elements of `w` bits packed from bit 0 up (R34). -/
def packBits (w : Nat) (xs : List Nat) : Nat :=
  match xs with
  | [] => 0
  | x :: r => x % 2 ^ w + 2 ^ w * packBits w r

/-- `n` elements of `w` bits (R34). -/
def unpackBits (w n x : Nat) : List Nat :=
  match n with
  | 0 => []
  | n + 1 => x % 2 ^ w :: unpackBits w n (x / 2 ^ w)

/-- The value of a group scale (R35): SCF 1 E8M0, 2 E4M3, 3 BF16. -/
def scaleX (scf p : Nat) : XVal :=
  match scf with
  | 1 => fval 14 p
  | 2 => fval 4 p
  | _ => fval 3 p

/-- Format code of the scale. -/
def scaleCode (scf : Nat) : Nat := match scf with | 1 => 14 | 2 => 4 | _ => 3

/-- q × g (R35). -/
def scaledX (q : Int) (g : XVal) : XVal := xmul (intX q) g

/-- The largest finite magnitude of a list, as a dyadic (R36, R37). -/
def amaxOf (xs : List XVal) : Dy :=
  xs.foldl (fun acc x => match x with | .fin _ m e _ => Dy.max acc ⟨m, e⟩ | _ => acc) ⟨0, 0⟩

/-- floor(log2 x) of a positive dyadic. -/
def dyLog (d : Dy) : Int := d.e + bitLen d.m.natAbs - 1

/-- Quotient of a value by a positive or negative finite scale, exact or with its sticky part. -/
def xquot (x g : XVal) : XVal :=
  match x, g with
  | .fin s m e _, .fin t n f _ =>
    if m = 0 then .fin (s != t) 0 0 false
    else if n = 2 ^ (bitLen n - 1) then .fin (s != t) m (e - f - (bitLen n - 1 : Nat)) false
    else xdivMag (s != t) m e n f
  | y, _ => y

/-- The value that a scale format receives for amax / Q (R36), under a table mapped by f (R50, R51): Q × f(amax / Q) is dyadic,
the same function with breakpoints Q times as large. -/
def quotMapped (comp : Option CTab) (code : Nat) (am : Dy) (q : Nat) : XVal :=
  match comp with
  | some t =>
    if isNarrow code then
      let y := pwl (t.bps.map fun b => ⟨b.m * q, b.e⟩) t.slopes am
      xdivMag false y.m.natAbs y.e q 0
    else xdivMag false am.m.natAbs am.e q 0
  | none => xdivMag false am.m.natAbs am.e q 0

/-- Quantises one group (R36): the scale's pattern, the elements, the generator. `always` takes one step for an element
even where the group's elements are 0 without rounding (R239). The scale flushes and maps as any result (R43, R51). A group of
infinities alone has no finite value: its amax is 0 as the model's choice (log 50). -/
def quantGroup (rc : RCtx) (scf qmax : Nat) (always : Bool) (xs : List XVal) (lg : Dword) : Nat × List Int × Dword :=
  let mode := rc.mode
  let zero (sc : Nat) : Nat × List Int × Dword :=
    (sc, xs.map fun _ => 0, if always && mode = 5 then xs.foldl (fun g _ => (genStep g).1) lg else lg)
  if xs.any (· == .nan) then zero (canonNan (scaleCode scf))
  else
    let am := amaxOf xs
    if am.m = 0 then zero 0
    else
      let sc :=
        if scf = 1 then (max (-127) (min 127 (dyLog am - (if qmax = 7 then 2 else 1))) + 127).toNat
        else
          let code := scaleCode scf
          roundPattern { rc with mode := 0, sat := true, comp := none } code 0 (quotMapped rc.comp code am qmax)
      let g := scaleX scf sc
      if g.isZero then zero sc
      else
        let r := xs.foldl (fun (acc : List Int × Dword) x =>
          let s := if mode = 5 then genStep acc.2 else (acc.2, 0)
          (toIntSat mode s.2 (if x == .inf true then -(qmax : Int) else -(qmax + 1 : Nat)) qmax (xquot x g) :: acc.1, s.1))
          ([], lg)
        (sc, r.1.reverse, r.2)

/-- emax of an MX element format (R37). -/
def mxEmax (ef : Nat) : Int := match ef with | 4 => 8 | 5 => 15 | 6 => 2 | 7 => 4 | _ => 2

/-- An MX element of `x` under the scale exponent `k` (R37): value / X, under an instruction's table mapped by f (R51), RNE,
saturated. -/
def mxElem (comp : Option CTab) (ef : Nat) (k : Int) (x : XVal) : Nat :=
  match x with
  | .fin n m e st =>
    if m = 0 then withSign ef n 0
    else
      let p := roundPattern { RCtx.atomic with sat := true, comp } ef 0 (.fin n m (e - k) st)
      if p % 2 ^ ((ffOf ef).bits - 1) > mxMax ef then withSign ef n (mxMax ef) else p
  | .inf n => withSign ef n (mxMax ef)
  | .nan => 0
where
  /-- The largest finite magnitude of the element format. -/
  mxMax (ef : Nat) : Nat := if ef = 5 then 0x7B else if ef = 4 then 0x7E else 2 ^ ((ffOf ef).bits - 1) - 1

/-- Encodes a block (R37): scale byte and elements. A block of infinities alone has no finite value: its amax is 0 as the model's
choice (log 50). -/
def mxEncode (comp : Option CTab) (ef : Nat) (xs : List XVal) : Nat × List Nat :=
  if xs.any (· == .nan) then (0xFF, xs.map fun _ => 0)
  else
    let am := amaxOf xs
    let k : Int := if am.m = 0 then -127 else max (-127) (min 127 (dyLog am - mxEmax ef))
    ((k + 127).toNat, xs.map (mxElem comp ef k))

/-- Decodes an element (R37). -/
def mxValue (ef scale p : Nat) : XVal :=
  if scale = 0xFF then .nan else xmul (fval ef p) (fval 14 scale)

/-- Whether a value divided by the scale and rounded stays within the largest magnitude (R72 step 4). -/
def mxFits (ef : Nat) (k : Int) (x : XVal) : Bool :=
  match x with
  | .fin _ m e st =>
    if m = 0 then true
    else
      -- rounded with one more exponent bit, so that an overflow shows
      let f := ffOf ef
      let top := e - k + bitLen m - 1
      let q := max (top - f.mw) (1 - (f.bias : Int) - f.mw)
      let n := roundMag 0 0 false m (e - k) st q
      match fval ef (mxElem.mxMax ef) with
      | .fin _ a b _ => !Dy.lt ⟨a, b⟩ ⟨n, q⟩
      | _ => false
  | _ => false

/-- R72's five steps on one block: the old scale and elements, the written values by position. -/
def mxMerge (ef scale : Nat) (elems : List Nat) (written : SMap XVal) : Nat × List Nat :=
  if written.length ≥ 32 then mxEncode none ef (written.map Prod.snd)
  else if scale = 0xFF then (scale, elems)
  else
    let k : Int := (scale : Int) - 127
    let merged := (List.range 32).map fun j => (mfind written j).getD (mxValue ef scale (elems.getD j 0))
    if merged.all (mxFits ef k) then
      (scale, (List.range 32).map fun j =>
        match mfind written j with
        | some x => mxElem none ef k x
        | none => elems.getD j 0)
    else mxEncode none ef merged

/-- The conversion of a page (R45): RNE, finite overflow and infinities to the largest finite value, NaN canonical. -/
def pageRound (code : Nat) (x : XVal) : Nat :=
  match x with
  | .nan => canonNan code
  | .inf n => withSign code n (maxFinite code)
  | y =>
    let p := roundPattern RCtx.atomic code 0 y
    if p % 2 ^ ((ffOf code).bits - 1) > maxFinite code then withSign code y.neg (maxFinite code) else p

end Sys2Proof.Machine
end

