-- ==== Sys2Proof/Machine/Crypto.lean ====
section
/-!
DEFINITION. AES-256-XTS of a 32-byte data unit (R355; the cipher of IEEE 1619 is a published standard, log 26) and
SHAKE256 (R392, R393, R395).
-/

namespace Sys2Proof.Machine

/-- x · 2 in the field of AES. -/
def xtime (x : Nat) : Nat := if x < 128 then 2 * x else (2 * x) % 256 ^^^ 0x1B

/-- The product of `a` and the low `n` bits of `b`. -/
def gmulGo (n a b acc : Nat) : Nat :=
  match n with
  | 0 => acc
  | k + 1 => gmulGo k (xtime a) (b / 2) (if b % 2 = 1 then acc ^^^ a else acc)

/-- Product in the field of AES. -/
def gmul (a b : Nat) : Nat := gmulGo 8 a b 0

/-- x^254, the inverse. -/
def ginv (x : Nat) : Nat :=
  let x2 := gmul x x
  let x3 := gmul x2 x
  let x12 := gmul (gmul x3 x3) (gmul x3 x3)
  let x15 := gmul x12 x3
  let x30 := gmul x15 x15
  let x60 := gmul x30 x30
  let x120 := gmul x60 x60
  let x240 := gmul x120 x120
  gmul (gmul x240 x12) x2

/-- Rotates a byte left. -/
def rotl8 (x k : Nat) : Nat := (x * 2 ^ k) % 256 ||| x / 2 ^ (8 - k)

/-- The substitution of AES. -/
def sbox (x : Nat) : Nat :=
  let y := ginv x
  y ^^^ rotl8 y 1 ^^^ rotl8 y 2 ^^^ rotl8 y 3 ^^^ rotl8 y 4 ^^^ 0x63

/-- The inverse substitution. -/
def invSbox (x : Nat) : Nat := ginv (rotl8 x 1 ^^^ rotl8 x 3 ^^^ rotl8 x 6 ^^^ 5)

/-- Exclusive or of two byte lists. -/
def xorBytes (a b : List Nat) : List Nat := List.zipWith (· ^^^ ·) a b

/-- Key schedule of AES-256: words of 4 bytes, last first. -/
def keySched (n i rcon : Nat) (ws : List (List Nat)) : List (List Nat) :=
  match n with
  | 0 => ws
  | k + 1 =>
    let t := ws.headD []
    let u :=
      if i % 8 = 0 then xorBytes ((t.tail ++ t.take 1).map sbox) [rcon, 0, 0, 0]
      else if i % 8 = 4 then t.map sbox
      else t
    keySched k (i + 1) (if i % 8 = 0 then xtime rcon else rcon) (xorBytes (ws.getD 7 []) u :: ws)

/-- A byte list cut into pieces of `k`. -/
def chunksOf (n k : Nat) (bs : List Nat) : List (List Nat) :=
  match n with
  | 0 => []
  | m + 1 => bs.take k :: chunksOf m k (bs.drop k)

/-- The 15 round keys of a 32-byte key. -/
def roundKeys (key : List Nat) : List (List Nat) :=
  chunksOf 15 16 (keySched 52 8 1 (chunksOf 8 4 key).reverse).reverse.flatten

/-- The byte that row shifting brings to place `i`. -/
def shiftIdx (i : Nat) : Nat := (i + 4 * (i % 4)) % 16

/-- The inverse of `shiftIdx`. -/
def invShiftIdx (i : Nat) : Nat := (i + 16 - 4 * (i % 4)) % 16

/-- Bytes picked by place. -/
def pick16 (f : Nat → Nat) (s : List Nat) : List Nat := (List.range 16).map fun i => s.getD (f i) 0

/-- One column mixed with coefficients. -/
def mixCol (c0 c1 c2 c3 : Nat) (col : List Nat) : List Nat :=
  (List.range 4).map fun r =>
    gmul c0 (col.getD r 0) ^^^ gmul c1 (col.getD ((r + 1) % 4) 0)
      ^^^ gmul c2 (col.getD ((r + 2) % 4) 0) ^^^ gmul c3 (col.getD ((r + 3) % 4) 0)

/-- Rounds of encryption after the first key. -/
def aesEncGo (ks : List (List Nat)) (s : List Nat) : List Nat :=
  match ks with
  | [] => s
  | [k] => xorBytes (pick16 shiftIdx (s.map sbox)) k
  | k :: r => aesEncGo r (xorBytes ((chunksOf 4 4 (pick16 shiftIdx (s.map sbox))).flatMap (mixCol 2 3 1 1)) k)

/-- AES-256 encryption of a block. -/
def aesEnc (ks : List (List Nat)) (s : List Nat) : List Nat :=
  match ks with
  | [] => s
  | k :: r => aesEncGo r (xorBytes s k)

/-- Rounds of decryption, last key first. -/
def aesDecGo (ks : List (List Nat)) (s : List Nat) : List Nat :=
  match ks with
  | [] => s
  | [k] => xorBytes ((pick16 invShiftIdx s).map invSbox) k
  | k :: r =>
    aesDecGo r ((chunksOf 4 4 (xorBytes ((pick16 invShiftIdx s).map invSbox) k)).flatMap (mixCol 14 11 13 9))

/-- AES-256 decryption of a block. -/
def aesDec (ks : List (List Nat)) (s : List Nat) : List Nat :=
  match ks.reverse with
  | [] => s
  | k :: r => aesDecGo r (xorBytes s k)

/-- The tweak times 2 in the field of XTS. -/
def xtsDouble (t : Nat) : Nat := if t < 2 ^ 127 then 2 * t else (2 * t) % 2 ^ 128 ^^^ 0x87

/-- Bytes of a number as numbers, little-endian. -/
def natBytes (n x : Nat) : List Nat :=
  match n with
  | 0 => []
  | k + 1 => x % 256 :: natBytes k (x / 256)

/-- The number of little-endian bytes. -/
def bytesNat (bs : List Nat) : Nat :=
  match bs with
  | [] => 0
  | b :: r => b + 256 * bytesNat r

/-- One block under a tweak. -/
def xtsBlock (f : List Nat → List Nat) (t : Nat) (b : List Nat) : List Nat :=
  xorBytes (f (xorBytes b (natBytes 16 t))) (natBytes 16 t)

/-- AES-256-XTS of one 32-byte data unit (R355): the 64-byte key pair, the unit's number, encrypt or decrypt. -/
def xtsUnit (enc : Bool) (pair : List Byte) (unit : Nat) (data : List Byte) : List Byte :=
  let kn := pair.map BitVec.toNat
  let k1 := roundKeys (kn.take 32)
  let k2 := roundKeys (kn.drop 32)
  let t := bytesNat (aesEnc k2 (natBytes 16 unit))
  let d := data.map BitVec.toNat
  let f := if enc then aesEnc k1 else aesDec k1
  (xtsBlock f t (d.take 16) ++ xtsBlock f (xtsDouble t) (d.drop 16)).map (BitVec.ofNat 8)

/-- One step of the shift register of Keccak's round constants. -/
def rcStep (n r : Nat) : Nat :=
  match n with
  | 0 => r
  | k + 1 => rcStep k (if r < 128 then 2 * r else (2 * r) % 256 ^^^ 0x71)

/-- The round constant of round `i`: bit 2^j − 1 is the register's low bit after 7i + j steps. -/
def keccakRC (i : Nat) : Nat :=
  (List.range 7).foldl (fun acc j => if rcStep (7 * i + j) 1 % 2 = 1 then acc ||| 2 ^ (2 ^ j - 1) else acc) 0

/-- Rotates a 64-bit lane left. -/
def rotl64 (x k : Nat) : Nat := ((x <<< k) % 2 ^ 64) ||| (x >>> (64 - k))

/-- The lane that ρ and π bring on: place, offset and lane value are followed for 24 steps. -/
def rhoPi (n t x y : Nat) (a b : List Nat) : List Nat :=
  match n with
  | 0 => b
  | k + 1 =>
    let x' := y
    let y' := (2 * x + 3 * y) % 5
    let off := ((t + 1) * (t + 2) / 2) % 64
    rhoPi k (t + 1) x' y' a (b.set (x' + 5 * y') (rotl64 (a.getD (x + 5 * y) 0) off))

/-- One round of Keccak-f[1600]. -/
def keccakRound (a : List Nat) (i : Nat) : List Nat :=
  let c := (List.range 5).map fun x =>
    a.getD x 0 ^^^ a.getD (x + 5) 0 ^^^ a.getD (x + 10) 0 ^^^ a.getD (x + 15) 0 ^^^ a.getD (x + 20) 0
  let t := (List.range 25).map fun p =>
    a.getD p 0 ^^^ c.getD ((p + 4) % 5) 0 ^^^ rotl64 (c.getD ((p + 1) % 5) 0) 1
  let b := rhoPi 24 0 1 0 t t
  let e := (List.range 25).map fun p =>
    let r := 5 * (p / 5)
    b.getD p 0 ^^^ ((2 ^ 64 - 1 - b.getD (r + (p + 1) % 5) 0) &&& b.getD (r + (p + 2) % 5) 0)
  e.set 0 (e.getD 0 0 ^^^ keccakRC i)

/-- Keccak-f[1600]. -/
def keccakF (a : List Nat) : List Nat := (List.range 24).foldl keccakRound a

/-- Absorbs blocks of 136 bytes. -/
def shakeAbsorb (n : Nat) (a bs : List Nat) : List Nat :=
  match n with
  | 0 => a
  | k + 1 =>
    let ls := (chunksOf 17 8 (bs.take 136)).map bytesNat ++ List.replicate 8 0
    shakeAbsorb k (keccakF (xorBytes a ls)) (bs.drop 136)

/-- SHAKE256 with an output of 64 bytes (R393: 512 bits). -/
def shake256 (msg : List Byte) : List Byte :=
  let m := msg.map BitVec.toNat
  let blocks := m.length / 136 + 1
  let pad := blocks * 136 - m.length
  let p := if pad = 1 then m ++ [0x9F] else m ++ [0x1F] ++ List.replicate (pad - 2) 0 ++ [0x80]
  let s := shakeAbsorb blocks (List.replicate 25 0) p
  ((s.take 8).flatMap (natBytes 8)).map (BitVec.ofNat 8)

end Sys2Proof.Machine
end

