-- ==== Sys2Proof/Config.lean ====
section
/-!
DEFINITION. What an implementation fixes, and the free values: constants without a body, which no proof can
evaluate. A claim about a free value holds whatever it is. Each is named in the assumption log.
-/

namespace Sys2Proof.Config

/-- The device's free choices, read at the counter `State.fresh` (R5 and every rule that names several allowed
outcomes): entry `k` decides the `k`-th choice. Log 1. -/
opaque freeChoice : Nat → Nat

/-- A free bit for a racing read of one register at one moment (R19, R21): old or new. Log 1. -/
opaque freeBit : Nat → Nat → Bool

/-- The word that bypass latch b1 receives, by moment and lane position, from an instruction of a hold chain that writes no
register (R24 names no value). Log 47. -/
opaque freeWord : Nat → Nat → Word

/-- What a byte load inside a formatted graph pool returns (R80, R81: Celadon owns these bytes and their layout is
not given). Log 23. -/
opaque poolByte : Nat → Nat → Byte

/-- The entries (neighbour, serial, payload) that a damaged list delivers (R81). Log 23. -/
opaque damagedList : Nat → List (Nat × Nat × Nat)

/-- A byte of another device's memory that this device has not written (R398). Log 24. -/
opaque remoteByte : Nat → Nat → Byte

/-- Whether a target device accepts a domain access (R398): its tables are not this device's. Log 24. -/
opaque remoteAccepts : Nat → Nat → Bool

/-- Ed448 verification of a boot image (R392): public key, image, signature. Log 26. -/
opaque ed448Verify : List Byte → List Byte → List Byte → Bool

/-- The fused SHAKE256 digest of the vendor's public key (R392). Log 26. -/
opaque fusedDigest : List Byte

/-- Ed448 signature under the fused identity key (R394), 114 bytes. Log 26. -/
opaque ed448Sign : List Byte → List Byte

/-- The fresh X448 public key of a report (R394), 56 bytes, by request number. Log 26. -/
opaque x448Public : Nat → List Byte

/-- The X448 shared secret of a job (R395), from the request number and the peer's share. Log 26. -/
opaque x448Shared : Nat → List Byte → List Byte

/-- Whether a failing unit passes its self-test (R405). Log 26. -/
opaque selfTest : Nat → Bool

/-- Where in the contents of a fatal error's dump, in R407's order, the byte lies that stands at a place of the dump region: the
layout is not given. Log 27. -/
opaque dumpPlace : Nat → Nat

/-- Where in die 0's memory the region reserved for the dump begins (R407). Log 27. -/
opaque dumpBase : Nat

/-- The set of a core's TLB, among those of a team's units, in which a page's entries lie (R356 gives no index). Log 56. -/
opaque tlbSet : Nat → Nat

/-- The cycles within which an access that nothing holds is performed (R110: a finite time, which the spec does not give).
Log 57. -/
opaque performWithin : Nat

/-- The device of the load-store domain that a port of Akivo Link leads to (R399). Log 24. -/
opaque portDevice : Nat → Nat

/-- The number of this device in its load-store domain, 0 to 63 (R398). Log 24. -/
opaque deviceNumber : Nat

end Sys2Proof.Config
end

