-- ==== Sys2Proof/Machine/State.lean ====
section
/-!
DEFINITION. The state of the device as plain data, and `State.reset`. Collections are lists sorted by key (`SMap`);
a key that is not listed reads as the default that the accessor of the collection names.
-/

namespace Sys2Proof.Machine

/-- Why the model itself stops. -/
inductive Fault where
  /-- Raised by every instruction's meaning when no split is the issuer (`State.cur` names no split). `step` never
  raises it: it issues only for a split. Safe. -/
  | noIssuer
  deriving DecidableEq, Repr

/-- Why the model gives an instruction no meaning. -/
inductive Refusal where
  /-- Raised only by an arm of `exec` whose instruction has no meaning yet. Safe. -/
  | notModelled (mnemonic : String)
  deriving DecidableEq, Repr

/-- A cause with its 96-bit detail (R364, R365). -/
structure TrapRec where
  group : Nat
  code  : Nat
  d0    : Word
  d1    : Word
  d2    : Word
  deriving DecidableEq, Repr

/-- A fixed-latency result inside its window (R17, R18): the register file already holds `val`; the issuing split
reads `old` until its nominal clock reaches `due`. For a register that splits share (R21): `uid` names the write, `cov` what
a split ordered after it has done since: the flags that it has set (bits 0 to 11), the words of scratchpad that it has used (bits
from 16), other engines' operands in scratchpad and grid barriers (bit 12); bit 13 marks a copy; `known` the splits, by age,
that are ordered after the write. -/
structure Stale where
  loc   : Nat
  val   : Word
  old   : Word
  due   : Nat
  uid   : Nat
  cov   : Nat
  known : List Nat
  deriving DecidableEq, Repr

/-- Why a split is parked (R15, R182, R247, R286, R289). -/
inductive Park where
  | none
  | rejoin
  | bar (addr : Nat) (phase : Bool)
  | gbar (level : Nat) (phase : Bool)
  /-- Parked before the instruction at the split's pc has issued; `got` holds the scratchpad bytes that a fill has
  already given it (R61), `granted` says that the fill satisfied it. -/
  | before (got : SMap Byte) (granted : Bool)
  deriving DecidableEq, Repr

/-- A trap that waits for its stop point: of a class V operation (R369) its flag, if it set one, and how many
instructions the split had issued when the operation did; `now` marks the trap of a hold chain's member, which is taken at the
boundary after the chain (R182). -/
structure HeldTrap where
  flag  : Option Nat
  cause : TrapRec
  since : Nat
  now   : Bool
  deriving DecidableEq, Repr

/-- A split (R12, R13, R17, R23, R25). `now` is its nominal clock, `chain` counts the issued members of its open hold
chain, `stop` the boundaries passed since a stop was asked for (R22), `handler` says that it runs in handler mode. -/
structure Split where
  pc        : Word
  active    : Word
  fmt       : Word
  pend      : Option Word
  park      : Park
  now       : Nat
  stale     : List Stale
  age       : Nat
  lastIssue : Option Nat
  readyAt   : Option Nat
  promoted  : Bool
  ceded     : Bool
  chain     : Nat
  stop      : Option Nat
  stopped   : Bool
  traps     : List HeldTrap
  handler   : Bool
  issued    : Nat
  deriving DecidableEq, Repr

/-- An entry of the reconvergence stack (R14, R347). `age` is that of the split whose lanes wait in it while it runs the
deferred lanes (R15, R25). -/
structure Entry where
  mask     : Word
  rejoin   : Option Word
  fmt      : Word
  resume   : Word
  deferred : Word
  age      : Option Nat
  deriving DecidableEq, Repr

/-- An entry of a cursor's buffer: the edge and its rank in the state it was fetched from (R95). -/
structure BufEnt where
  neigh  : Nat
  serial : Nat
  rank   : Nat
  deriving DecidableEq, Repr

/-- A cursor register (R92) with its buffer (R95). -/
structure Cursor where
  isOpen : Bool
  atEnd  : Bool
  shf    : Bool
  kv     : Bool
  rv     : Bool
  dirIn  : Bool
  handle : Nat
  vertex : Nat
  keyn   : Nat
  keys   : Nat
  rank   : Nat
  buf    : List BufEnt
  deriving DecidableEq, Repr

/-- A leaf of the translation (R351, R353) after both stages: where the frame begins, what it holds, what is allowed.
`frame` is a host physical address, or a guest one when `domain`; `guest` is the guest physical address. -/
structure Leaf where
  frame  : Nat
  guest  : Nat
  big    : Bool
  sf     : Nat
  df     : Nat
  drt    : Nat
  gr     : Nat
  pin    : Bool
  r      : Bool
  w      : Bool
  r1     : Bool
  w1     : Bool
  res    : Bool
  tag    : Nat
  key    : Nat
  domain : Bool
  deriving DecidableEq, Repr

/-- A compand table (R49): breakpoints b1 to b15 as FP32 patterns and slope exponents e0 to e15. -/
structure Compand where
  bps    : List Word
  slopes : List Int
  deriving DecidableEq, Repr

/-- One lane's access after the checks; no leaf where the page is not resident. -/
structure LaneAcc where
  lane : Nat
  va   : Nat
  n    : Nat
  leaf : Option Leaf
  deriving DecidableEq, Repr

/-- The sources of a class V instruction, read at issue (R191), so that a held access can be replayed (R77):
participants, per-lane address, per-lane data words, per-lane third source words, the lanes of the split. Once its checks have
passed it keeps what they found for the accesses that follow (R57): the lanes' accesses, what the objects that it names hold, by
lane, and the compand table that it reads (R52). -/
structure Capture where
  lanes   : List Nat
  addr    : SMap Nat
  data    : SMap (List Word)
  third   : SMap (List Word)
  fmt     : Word
  active  : Word
  checked : List LaneAcc
  found   : SMap (List Nat)
  table   : Option Compand
  deriving DecidableEq, Repr

/-- The change of one list that a mutation performed on the edge's other list still awaits (R87): the pool's base, the
list, entry added or removed, neighbour, serial, payload. -/
structure Half where
  pbase : Nat
  list  : Nat
  add   : Bool
  neigh : Nat
  ser   : Nat
  pay   : Nat
  deriving DecidableEq, Repr

/-- What an outstanding operation still needs (R20). -/
inductive Stage where
  /-- A fixed-latency instruction with a flag: readable at this cycle. -/
  | fixed (due : Nat)
  /-- Performed; destinations and flag follow at completion. -/
  | done
  /-- Not yet performed (R104), or held on non-resident pages (R77): instruction and captured sources. -/
  | held (i : Instr) (cap : Capture)
  /-- Being performed piece by piece (R102, R104): the pieces that are left, an instruction and its sources each, the changes
  that graph mutations performed so far still await (R87), and the scope trap of a piece performed (R68). -/
  | pieces (ps : List (Instr × Capture)) (todo : List Half) (t : Option TrapRec)
  /-- A graph mutation that has been performed on one list of each edge (R87). -/
  | half (todo : List Half)
  /-- A RESQ whose records are being written (R259). -/
  | resq (cap : Capture)
  /-- Its access faulted (R369). -/
  | faulted (cause : TrapRec)
  /-- A CQINIT that waits until DONE equals TAIL (R292). -/
  | cqinit (slot handle : Nat)
  /-- A CQADV held by R121 or R133. -/
  | cqadv (slot count : Nat)
  /-- An RQUOTA that moves `n` granules (R302). -/
  | rquota (recv n dest : Nat)
  /-- A TASK whose card waits for the window (R147). -/
  | task (dest card : Nat)
  deriving DecidableEq, Repr

/-- An outstanding operation of a group (R19, R20). `indigo` and `ochre` say which unit runs it (R135, R217);
`writes` are its register destinations by key; `lost` those that a later fixed-latency result has taken before the operation was
performed (R19); `since` is the cycle of its issue (R110). -/
structure Op where
  id     : Nat
  split  : Nat
  flag   : Option Nat
  writes : SMap Word
  indigo : Bool
  ochre  : Bool
  graph  : Bool
  loc    : Word
  at_    : Nat
  since  : Nat
  lost   : List Nat
  stage  : Stage
  deriving DecidableEq, Repr

/-- Handler mode (R368): the handler split by age, its set-aside rejoin address, its lanes and fmt at entry, and the stack
entries in use then. -/
structure Handler where
  split : Nat
  pend  : Option Word
  mask  : Word
  fmt   : Word
  slots : List Nat
  deriving DecidableEq, Repr

/-- Where a group is in an eviction (R345, R346): `slot` is the record slot that holds it (R347, R385). -/
inductive Residency where
  | resident
  | stopping
  | evicted (order slot : Nat)
  deriving DecidableEq, Repr

/-- A debugger halt of a group (R373): cause (1 BKPT, 2 HALT, 3 other) and the halting pc; once it is halted, the record slot
that holds its record (R347, R385). -/
inductive Halt where
  | running
  | stopping (cause : Nat) (pc : Word)
  | waiting (cause : Nat) (pc : Word)
  | halted (slot : Nat)
  deriving DecidableEq, Repr

/-- A group (R12). Register keys: `v` r of lane l at 256·l + r; `s` i at 8192 + i; `p` k of lane l at 8320 + 8·l + k;
`q` k at 8576 + k. `fence` is the widest scope of a lane's release fences, `reads`
what a lane has read since its last acquire fence under the scope checker: lane, address, line (R68, R106); `heard` the releases
of other parties that happen before what comes next, by party the cycle of the last one (R108). -/
structure Group where
  w1      : Nat
  quota   : Nat
  regs    : SMap Word
  lg      : SMap Dword
  cursors : SMap Cursor
  flags   : SMap Nat
  splits  : List Split
  entries : SMap Entry
  exited  : Word
  handler : Option Handler
  held    : List (Nat × TrapRec × Word)
  hc      : SMap Word
  ops     : List Op
  nextAge : Nat
  nextOp  : Nat
  age     : Nat
  res     : Residency
  halt    : Halt
  dirty   : List Nat
  fence   : SMap Nat
  reads   : List (Nat × Nat × Nat)
  heard   : SMap Nat
  deriving DecidableEq, Repr

/-- A row that a command of Umber is moving (R122): the source bytes read so far, by their place in the row, and the places
where pieces have been written. -/
structure RowBuf where
  got : SMap Byte
  put : List Nat
  deriving DecidableEq, Repr

/-- A command of a chain that Umber has started (R122, R127): its 16 words, the indices read (0 for a null one, else the index
plus 1), the rows being moved, the rows whose data are written, each with its index, and the rows that have landed (R124). -/
structure RunCmd where
  seq     : Nat
  words   : List Word
  index   : SMap Nat
  bufs    : SMap RowBuf
  written : SMap Nat
  landed  : List Nat
  deriving DecidableEq, Repr

/-- A chain slot of a team (R120): the bound object (BASE, LOG2N, CWA), the counters, the last command started, the
running commands, completed commands above DONE, the scope of each released command, and the 8-byte units of the next command's
slot that have been read (R113). -/
structure Chain where
  bound    : Option (Nat × Nat × Nat)
  seq0     : Nat
  tail     : Nat
  done     : Nat
  started  : Nat
  running  : List RunCmd
  finished : List Nat
  scopes   : SMap Nat
  got      : SMap Nat
  deriving DecidableEq, Repr

/-- A Slate table (R137 to R139): buckets, entries at 8·bucket + index, buckets marked SPILLED, the spill region. -/
structure Slate where
  nb      : Nat
  entries : SMap (Dword × Dword)
  spilled : List Nat
  base    : Nat
  ns      : Nat
  deriving DecidableEq, Repr

/-- A resident team (R11). -/
structure Team where
  part    : Nat
  tid     : Nat
  linear  : Nat
  core    : Nat
  slot    : Nat
  qb      : Nat
  ngrp    : Nat
  spread  : Nat
  prio    : Nat
  scr     : SMap Byte
  full    : SMap Bool
  scrbase : Nat
  scrsize : Nat
  chains  : SMap Chain
  failed  : Bool
  slate   : Option Slate
  ended   : Nat
  order   : Nat
  moving  : Bool
  deriving DecidableEq, Repr

/-- A core: carve-out code, compand tables 1 to 3, latches (96·quadrant + 32·(latch − 1) + lane), the cycle at which
its counter was zero, power gating, the team (by key) that holds each of its TLB's eight units (R356). -/
structure Core where
  carve   : Nat
  tables  : SMap Compand
  latches : SMap Word
  base    : Nat
  gated   : Bool
  units   : SMap Nat
  deriving DecidableEq, Repr

/-- A TLB entry (R356, R357). `slot` is its place in a core's TLB, 64·unit + 8·set + way, and 0 in a die's. -/
structure TlbEnt where
  at_   : TlbId
  slot  : Nat
  team  : Nat
  part  : Nat
  page  : Nat
  leaf  : Leaf
  deriving DecidableEq, Repr

/-- The scope record of an L2 line (R68): the scope, where the release came from, the team that made it, by partition, task
and linear index, the cycle of the release, and what its party had heard of other parties' releases by then: the cycle, by party
(R108). -/
structure ScopeRec where
  scope  : Nat
  die    : Nat
  core   : Nat
  slot   : Nat
  group  : Nat
  part   : Nat
  tid    : Nat
  linear : Nat
  stamp  : Nat
  heard  : SMap Nat
  deriving DecidableEq, Repr

/-- A grain owned by a core under OWN, with the bytes it has written (R64, R65); each byte with the key id its page
names. -/
structure OwnGrain where
  size  : Nat
  core  : Nat
  dirty : SMap (Byte × Nat)
  deriving DecidableEq, Repr

/-- A poisoned 512-byte block (R374): whether DRAM or a dirty L2 line was in error, and the bytes written since. -/
structure Poison where
  dram    : Bool
  written : List Nat
  deriving DecidableEq, Repr

/-- A footprint region (R142): `base` and `len` count 64-byte units. -/
structure Region where
  base  : Nat
  len   : Nat
  mode  : Nat
  verr  : Bool
  watch : Nat
  wfmt  : Nat
  deriving DecidableEq, Repr

/-- A job card (R141). -/
structure Card where
  kind    : Nat
  prio    : Nat
  ver     : Bool
  idem    : Bool
  wdr     : Bool
  nstr    : Bool
  opmask  : Nat
  cpat    : Word
  desc    : Nat
  crec    : Nat
  next    : Nat
  regions : List Region
  deriving DecidableEq, Repr

/-- A launch header (R338). -/
structure Header where
  quota  : Nat
  spread : Nat
  carve  : Nat
  gang   : Nat
  col    : Nat
  hnd    : Bool
  schk   : Bool
  scr    : Nat
  widths : List Nat
  exts   : List Nat
  code   : Nat
  clen   : Nat
  param  : Nat
  seed   : Nat
  hoff   : Nat
  deriving DecidableEq, Repr

/-- The status, cause and detail a task completes with (R144, R145). -/
structure Fate where
  status : Nat
  cause  : TrapRec
  deriving DecidableEq, Repr

/-- Where a task is (R149, R160, R163, R340). -/
inductive TaskState where
  | waiting
  | released
  | stopping
  | decided
  deriving DecidableEq, Repr

/-- A task in the window (R147). A stopping task without a fate is being restarted (R156). `ver` is its version: stored bytes
by host physical address with the key id of their page; `lines` are the L2 lines that it holds (R66); `code` keeps the bytes of a grid's code object as they stood at the
task's start (R169), by offset, where something has written them since; `desc` is a bulk task's descriptor once it has been
read, `pos` how far it has come, `total` the entries that a GDUMP has counted; `strike` is the hardware error for which a
stopping task is being restarted (R155, R375). -/
structure Task where
  tid      : Nat
  parent   : Option Nat
  card     : Card
  hdr      : Option Header
  st       : TaskState
  fate     : Option Fate
  order    : Nat
  opnd     : Word
  ver      : SMap (Byte × Nat)
  lines    : List Nat
  code     : SMap Byte
  taint    : Bool
  restarts : Nat
  settled  : List Nat
  admitted : Nat
  retired  : Nat
  cseq     : Nat
  desc     : List Word
  pos      : Nat
  total    : Nat
  strike   : Option TrapRec
  deriving DecidableEq, Repr

/-- A dependence edge (R148). `raw`: read-after-write; `region`: the consumer's region; `counts`: it counts in the
producer's demand (R162); `met`: the producer has left the window; `abs`: the producer's region `sreg` contains the
consumer's and has settled (R160). -/
structure Edge where
  src    : Nat
  dst    : Nat
  raw    : Bool
  sreg   : Nat
  region : Nat
  counts : Bool
  met    : Bool
  abs    : Bool
  deriving DecidableEq, Repr

/-- A child of a running task, for TJOIN (R166, R297). -/
structure Child where
  parent : Nat
  child  : Nat
  stat   : Option Word
  joined : Bool
  deriving DecidableEq, Repr

/-- A host chain (R335, R336). `low` and `hlow` are the held low words of TAIL and HEAD; `past` are the cards accepted in
this run, and `upto` is the last released card while it is not accepted. -/
structure HostChain where
  head  : Nat
  tail  : Nat
  low   : Nat
  hlow  : Nat
  cur   : Nat
  past  : List Nat
  upto  : Option Nat
  run   : Bool
  err   : Bool
  ecode : Nat
  deriving DecidableEq, Repr

/-- A grid barrier record (R348): task, level, set, phase and arrivals. -/
structure GbarRec where
  tid   : Nat
  level : Nat
  set   : Nat
  exp   : Nat
  phase : Bool
  arr   : Nat
  deriving DecidableEq, Repr

/-- A grid barrier arrival on its way to Carmine (R289, R348). -/
structure GbarMsg where
  tid    : Nat
  linear : Nat
  level  : Nat
  lanes  : Nat
  deriving DecidableEq, Repr

/-- Who waits for a non-resident page (R77, R359). -/
inductive HeldBy where
  | op (gid op : Nat)
  | fetch (gid split : Nat)
  | umber (tm slot seq : Nat)
  | card (h : Nat)
  | record (tid : Nat)
  | bulk (tid : Nat)
  | resq (gid op : Nat)
  /-- The access has been replayed; its fault record is not written yet (R359). -/
  | served
  deriving DecidableEq, Repr

/-- A held access and its record (R359): `recorded` says that its fault record is written (or discarded). -/
structure HeldAcc where
  who      : HeldBy
  va       : Nat
  write    : Bool
  source   : Nat
  core     : Nat
  tid      : Nat
  gen      : Nat
  recorded : Bool
  deriving DecidableEq, Repr

/-- A batch of a grid's teams, by linear index, handed to a die (R342). -/
structure Batch where
  tid   : Nat
  die   : Nat
  teams : List Nat
  deriving DecidableEq, Repr

/-- A partition: its register block (R378, R379), cached object-table entries (R380), its host chains, its window, and
what Carmine keeps for it. `trootReg` and `s2Reg` are the registers as written, `troot` and `s2base` what translations use
until the shoot-down of R349; `dropped` are the dies that lost links have made it drop, each with the die that it kept (R389). -/
structure Partition where
  en       : Bool
  lead     : Nat
  cg       : Nat
  sg       : Nat
  hg       : Nat
  troot    : Nat
  s2base   : Nat
  trootReg : Nat
  s2Reg    : Nat
  fbbase   : Nat
  fbsize   : Nat
  fbput    : Nat
  fbget    : Nat
  fbgen    : Nat
  ctxbase  : Nat
  vquota   : Nat
  vlogbase : Nat
  vloglen  : Nat
  cvsticky : Bool
  cvcount  : Nat
  rrole    : Bool
  rerr     : Nat
  rstate   : Nat
  otbase   : Nat
  otinv    : Option Nat
  otcache  : SMap Nat
  arm      : Bool
  dbgring  : Nat
  dbgrlen  : Nat
  dbgput   : Nat
  dbgget   : Nat
  chains   : SMap HostChain
  nextTid  : Nat
  nextCseq : Nat
  accepted : Nat
  window   : List Task
  edges    : List Edge
  children : List Child
  gbars    : List GbarRec
  msgs     : List GbarMsg
  held     : List HeldAcc
  batch    : List Batch
  evictor  : Option (Nat × Nat)
  gangDie  : SMap Nat
  slices   : SMap Nat
  ctrls    : SMap Nat
  spilled  : Nat
  dropped  : List (Nat × Nat)
  deriving DecidableEq, Repr

/-- One direction of one vertex's list (R82, R83, R85): entries (neighbour, serial, payload) in key order. -/
structure GList where
  ents   : List (Nat × Nat × Nat)
  ctr    : Nat
  blocks : Nat
  deriving DecidableEq, Repr

/-- A formatted graph pool (R80) with the fields it was formatted under: lists at 2·vertex + direction; `edited` lists the
bytes, by host physical address, that anyone but Celadon has written since (R81); `frames` says where each 64 KiB of it lies;
`torn` says that a mutation under other fields has changed its bytes (R79). -/
structure Pool where
  part  : Nat
  pbase : Nat
  plen  : Nat
  vlim  : Nat
  dirs  : Bool
  psz   : Nat
  lists : SMap GList
  edited : List Nat
  frames : SMap Nat
  torn   : Bool
  deriving DecidableEq, Repr

/-- A resize in progress (R382 to R384). `planS` and `planC` are the slice and controller buckets that a rehash has still
to hand over, each with its new home (R381, R386). -/
structure Resize where
  src     : Nat
  dst     : Nat
  cores   : Nat
  slices  : Nat
  chans   : Nat
  state   : Nat
  planS   : SMap Nat
  planC   : SMap Nat
  deriving DecidableEq, Repr

/-- The migration in progress (R361): `pos` is the next 512-byte block to hand over. -/
structure Migration where
  old   : Nat
  new   : Nat
  len   : Nat
  kold  : Nat
  knew  : Nat
  state : Nat
  pos   : Nat
  deriving DecidableEq, Repr

/-- A write that reached the old home of a migrated block after its hand-over (R361, R362), on its way to the new home:
the new address, the bytes, the new key id. -/
structure Request where
  pa   : Nat
  data : List Byte
  key  : Nat
  deriving DecidableEq, Repr

/-- The shoot-down in progress (R363): what it names, the TLBs that have not acknowledged, and the registers TROOT and S2BASE as
they stood when it began (R349). -/
structure Shootdown where
  part    : Nat
  all     : Bool
  stage2  : Bool
  addr    : Nat
  pending : List TlbId
  port    : Bool
  troot   : Nat
  s2base  : Nat
  deriving DecidableEq, Repr

/-- The dump of a fatal error (R407): the values of the management space by offset, the split records, the tasks in each
partition's window, the health register. It stands in die 0's memory too, in a layout that is not given (log 27). -/
structure Dump where
  regs   : List (Nat × Nat)
  splits : List (List Byte)
  window : List (Nat × List Task)
  health : Nat
  deriving DecidableEq, Repr

/-- What a flit asks for, or answers (R397, R398). -/
inductive FlitKind where
  | read
  | write
  | rmw
  | taken
  | refused
  deriving DecidableEq, Repr

/-- A flit that a port of Akivo Link has sent (R397): the device it goes to, its number among those of the pair of devices
(R399), the domain address, what it is, the bytes it carries. -/
structure Flit where
  dev  : Nat
  seq  : Nat
  addr : Nat
  kind : FlitKind
  data : List Byte
  deriving DecidableEq, Repr

/-- How far boot has come (R392). -/
inductive Boot where
  | off
  | running
  | failed
  deriving DecidableEq, Repr

/-- The management space and what firmware keeps there (R401 to R408). `lows` are the low words of 8-byte registers whose
high words have not been written; `spares` counts the spares in use, by 4·kind + die; `outUnits` are the granules that a
failing unit took out of service, by 64·kind + granule (kind 0 core, 1 slice, 2 channel); `swaps` are the failing
units (kind, die, unit) that await their spare (R404); `sent` counts the requests sent to each device (R399). -/
structure Mgmt where
  boot     : Boot
  measure  : List Byte
  boots    : Nat
  replreq  : Bool
  fatal    : Bool
  temp     : Nat
  throttle : Nat
  refx2    : Bool
  cec      : Nat
  dumpsel  : Nat
  dump     : Option Dump
  lows     : SMap Word
  evbase   : Nat
  evlog2   : Nat
  evput    : Nat
  evget    : Nat
  evovf    : Bool
  evseq    : Nat
  msix     : List Nat
  rport    : SMap Word
  mport    : SMap Word
  sport    : SMap Word
  migerr   : Bool
  mig      : Option Migration
  reqs     : List Request
  resizes  : List Resize
  down     : List Shootdown
  pool     : Nat × Nat × Nat
  quar     : Nat × Nat × Nat
  spares   : SMap Nat
  outUnits : List Nat
  swaps    : List (Nat × Nat × Nat)
  reports  : Nat
  lastRep  : List Byte
  deadDies : List (Nat × Nat)
  badDies  : List Nat
  badPorts : List Nat
  flits    : SMap (List Flit)
  compress : SMap Nat
  sent     : SMap Nat
  seen     : List (Nat × Nat)
  domains  : SMap Nat
  keys     : SMap (List Byte)
  coreNums : SMap Nat
  faults   : List (Nat × TrapRec)
  deriving DecidableEq, Repr

/-- The whole device. `cur` is the split (group, index) that issues; `agenda` holds the inputs from outside that have
not happened yet, of which the first `late` have been overtaken by a later one (R114); `fresh` is the counter at which the free values are read; `cycle` is the model's clock. Groups are
keyed by their record slot (R347), teams by 8·core + slot, cores by device core index. -/
structure State where
  fused   : Word
  caps    : Word
  cycle   : Nat
  fresh   : Nat
  cur     : Option (Nat × Nat)
  agenda  : List Instr
  late    : Nat
  mem     : Memory
  host    : Memory
  remote  : SMap Byte
  poison  : SMap Poison
  own     : SMap OwnGrain
  si      : SMap Byte
  scopes  : SMap ScopeRec
  tlb     : List TlbEnt
  cores   : SMap Core
  teams   : SMap Team
  groups  : SMap Group
  parts   : SMap Partition
  pools   : List Pool
  mgmt    : Mgmt
  order   : Nat
  deriving DecidableEq, Repr

/-- The identity compand table (R49). -/
def Compand.identity : Compand where
  bps := []
  slopes := []

/-- A core that holds nothing (R6, R49; latches and carve-out: log 2). -/
def Core.reset : Core where
  carve := 0
  tables := []
  latches := []
  base := 0
  gated := false
  units := []

/-- A host chain at reset (R335). -/
def HostChain.reset : HostChain where
  head := 0
  tail := 0
  low := 0
  hlow := 0
  cur := 0
  past := []
  upto := none
  run := false
  err := false
  ecode := 0

/-- A partition at reset (R379, R349, R358, R373, R380, R383). -/
def Partition.reset : Partition where
  en := false
  lead := 0
  cg := 0
  sg := 0
  hg := 0
  troot := 0
  s2base := 0
  trootReg := 0
  s2Reg := 0
  fbbase := 0
  fbsize := 6
  fbput := 0
  fbget := 0
  fbgen := 0
  ctxbase := 0
  vquota := 0
  vlogbase := 0
  vloglen := 0
  cvsticky := false
  cvcount := 0
  rrole := false
  rerr := 0
  rstate := 0
  otbase := 0
  otinv := none
  otcache := []
  arm := false
  dbgring := 0
  dbgrlen := 4
  dbgput := 0
  dbgget := 0
  chains := []
  nextTid := 1
  nextCseq := 1
  accepted := 0
  window := []
  edges := []
  children := []
  gbars := []
  msgs := []
  held := []
  batch := []
  evictor := none
  gangDie := []
  slices := []
  ctrls := []
  spilled := 0
  dropped := []

/-- The management space at reset (R392, R393, R402, R403, R406). Every granule is in the pool (log 2). -/
def Mgmt.reset : Mgmt where
  boot := .off
  measure := List.replicate 64 0
  boots := 0
  replreq := false
  fatal := false
  temp := 0
  throttle := 0
  refx2 := false
  cec := 0
  dumpsel := 0
  dump := none
  lows := []
  evbase := 0
  evlog2 := 6
  evput := 0
  evget := 0
  evovf := false
  evseq := 0
  msix := []
  rport := []
  mport := []
  sport := []
  migerr := false
  mig := none
  reqs := []
  resizes := []
  down := []
  pool := (2 ^ 64 - 1, 2 ^ 48 - 1, 2 ^ 32 - 1)
  quar := (0, 0, 0)
  spares := []
  outUnits := []
  swaps := []
  reports := 0
  lastRep := []
  deadDies := []
  badDies := []
  badPorts := []
  flits := []
  compress := []
  sent := []
  seen := []
  domains := []
  keys := []
  coreNums := []
  faults := []

/-- The device right after reset: nothing resident, every partition disabled, boot not yet run (R392). -/
def State.reset : State where
  fused := 0x0100F41F#32
  caps := 0x0100F41F#32
  cycle := 0
  fresh := 0
  cur := none
  agenda := []
  late := 0
  mem := []
  host := []
  remote := []
  poison := []
  own := []
  si := []
  scopes := []
  tlb := []
  cores := []
  teams := []
  groups := []
  parts := []
  pools := []
  mgmt := Mgmt.reset
  order := 0

/-- Granules of a kind on a die: core, slice, channel (R376). -/
def dieGranules (kind : Nat) : Nat := match kind with | 0 => 16 | 1 => 12 | _ => 8

/-- The granules of a part, by the dies that its fused word names (R1, R2, R376). -/
def fusedMasks (fused : Word) : Nat × Nat × Nat :=
  let m (kind : Nat) : Nat := (List.range 4).foldl (fun acc d =>
    if fused.getLsbD (12 + d) then acc + (2 ^ dieGranules kind - 1) * 2 ^ (dieGranules kind * d) else acc) 0
  (m 0, m 1, m 2)

/-- The device of any configuration of R1 after reset, by its fused word (R2): 0x0100F41F for HZ-AKD7-4, 0x0100F403 for
HZ-AKD7-4L, 0x0080341F for HZ-AKD7-2 and 0x00803403 for HZ-AKD7-2L, each plus its stepping in bits 31 to 28. -/
def State.resetOf (fused : Word) : State :=
  { State.reset with fused, caps := fused, mgmt := { Mgmt.reset with pool := fusedMasks fused } }

end Sys2Proof.Machine
end

