-- ==== Sys2Proof/Machine/Mem.lean ====
section
/-!
DEFINITION. The byte space: stored bytes at their home (R65, R355, R361), the two-stage translation (R349 to R357), and
converted pages (R69 to R76).
-/

namespace Sys2Proof.Machine

/-- A partition. -/
def getPart (s : State) (p : Nat) : Partition := mget s.parts p Partition.reset

/-- A changed partition. -/
def modPart (s : State) (p : Nat) (f : Partition → Partition) : State :=
  { s with parts := mset s.parts p (f (getPart s p)) }

/-- A core. -/
def getCore (s : State) (n : Nat) : Core := mget s.cores n Core.reset

/-- A changed core. -/
def modCore (s : State) (n : Nat) (f : Core → Core) : State := { s with cores := mset s.cores n (f (getCore s n)) }

/-- A free choice among `n` outcomes, and the counter advanced; with at most one outcome nothing is read. -/
def choose (s : State) (n : Nat) : Nat × State :=
  if n ≤ 1 then (0, s) else (Config.freeChoice s.fresh % n, { s with fresh := s.fresh + 1 })

/-- Where a host physical byte is now, and under which key (R361): after a block's hand-over the new home has it. -/
def homeOf (s : State) (a key : Nat) : Nat × Nat :=
  match s.mgmt.mig with
  | some m =>
    if m.state ≠ 0 ∧ m.state ≠ 3 ∧ m.old ≤ a ∧ a < m.old + min m.len m.pos then (m.new + (a - m.old), m.knew) else (a, key)
  | none => (a, key)

/-- The key pair of a key id at a host physical address (R395): one slot for each channel granule and key id. -/
def keyPair (s : State) (a key : Nat) : List Byte :=
  mget s.mgmt.keys ((a >>> 33) * 256 + key) (List.replicate 64 0)

/-- The address at which a host physical byte is kept now. -/
def canonA (s : State) (a : Nat) : Nat := (homeOf s a 0).1

/-- Where a byte was before the hand-over of its block (R361). -/
def origA (s : State) (a : Nat) : Nat :=
  match s.mgmt.mig with
  | some m =>
    if m.state ≠ 0 ∧ m.state ≠ 3 ∧ m.new ≤ a ∧ a < m.new + min m.len m.pos then m.old + (a - m.new) else a
  | none => a

/-- A pool holds a host physical byte. -/
def poolHolds (s : State) (q : Pool) (a : Nat) : Bool :=
  q.frames.any fun f => decide (f.2 ≤ origA s a) && decide (origA s a < f.2 + 2 ^ 16)

/-- A formatted graph pool owns a host physical byte, which nobody else has written since (R81). -/
def poolOwns (s : State) (a : Nat) : Bool := s.pools.any fun q => poolHolds s q a && !q.edited.contains (origA s a)

/-- A write by anyone but Celadon reaches the pools that hold the byte (R81). -/
def notePool (s : State) (a : Nat) : State :=
  if s.pools.isEmpty then s
  else
    { s with pools := s.pools.map fun q =>
        if poolHolds s q a && !q.edited.contains (origA s a) then { q with edited := origA s a :: q.edited } else q }

/-- A byte of device memory, decrypted (R355). What Celadon keeps in a pool is a free value (R80). -/
def physByte (s : State) (a key : Nat) : Byte :=
  if poolOwns s a then Config.poolByte s.fresh a
  else if key = 0 then readByte s.mem a
  else (xtsUnit false (keyPair s a key) (a / 32) (readBytes s.mem (a / 32 * 32) 32)).getD (a % 32) 0

/-- A byte of device memory written (R355): a unit under a key is decrypted, merged and encrypted. -/
def physWriteByte (s0 : State) (a key : Nat) (b : Byte) : State :=
  let s := notePool s0 a
  if key = 0 then { s with mem := writeByte s.mem a b }
  else
    let pair := keyPair s a key
    let u := a / 32
    let d := xtsUnit false pair u (readBytes s.mem (u * 32) 32)
    { s with mem := writeBytes s.mem (u * 32) (xtsUnit true pair u (d.set (a % 32) b)) }

/-- The grain that covers a byte, if a core owns one (R64): its base and record. -/
def ownGrain (s : State) (a : Nat) : Option (Nat × OwnGrain) :=
  let at_ (g : Nat) : Option (Nat × OwnGrain) :=
    match mfind s.own (a / g * g) with
    | some o => if o.size = g then some (a / g * g, o) else none
    | none => none
  (at_ 32).orElse fun _ => (at_ 128).orElse fun _ => at_ 512

/-- The youngest byte that is on its way from an old home to a new one (R361). -/
def queuedByte (rs : List Request) (a : Nat) : Option Byte :=
  match rs with
  | [] => none
  | r :: rest =>
    match queuedByte rest a with
    | some b => some b
    | none => if r.pa ≤ a then r.data[a - r.pa]? else none

/-- The byte that every coherent reader sees: an owner's dirty byte, one on its way, or the stored one. -/
def cohByte (s : State) (a key : Nat) : Byte :=
  let h := homeOf s a key
  let kept : Byte := (queuedByte s.mgmt.reqs h.1).getD (physByte s h.1 h.2)
  match ownGrain s h.1 with
  | some (_, o) => (match mfind o.dirty h.1 with | some b => b.1 | none => kept)
  | none => kept

/-- The 8-byte number that a UC read finds. -/
def cohRead8 (s : State) (a key : Nat) : Nat := leNat ((rangeFrom a 8).map fun x => cohByte s x key)

/-- A byte reaches its home: behind a request for it that is still on its way, else at once (R362). -/
def settleByte (s : State) (a key : Nat) (b : Byte) : State :=
  if (queuedByte s.mgmt.reqs a).isSome then
    { s with mgmt := { s.mgmt with reqs := s.mgmt.reqs ++ [⟨a, [b], key⟩] } }
  else physWriteByte s a key b

/-- A forwarded request is performed at the new home (R362). -/
def performReq (s : State) (r : Request) : State :=
  ((rangeFrom r.pa r.data.length).zip r.data).foldl (fun acc x => physWriteByte acc x.1 r.key x.2) s

/-- Performs every forwarded request, in order. -/
def forwardAll (s : State) : State :=
  s.mgmt.reqs.foldl performReq { s with mgmt := { s.mgmt with reqs := [] } }

/-- Merges an owned grain's dirty bytes into its home and ends the ownership (R65). -/
def recallGrain (s : State) (base : Nat) : State :=
  match mfind s.own base with
  | none => s
  | some o =>
    o.dirty.foldl (fun acc e => settleByte acc e.1 e.2.2 e.2.1) { s with own := mdel s.own base }

/-- Recalls the grain that covers a byte, unless core `c` owns it. -/
def recallFrom (s : State) (a : Nat) (c : Option Nat) : State :=
  match ownGrain s (canonA s a) with
  | some (b, o) => if some o.core = c then s else recallGrain s b
  | none => s

/-- A byte written at its home (R65): a dirty word of an owner is merged first. After a hand-over the old home forwards
it (R361, R362). -/
def homeWriteByte (s : State) (a key : Nat) (b : Byte) : State :=
  let h := homeOf s a key
  let s1 := match ownGrain s h.1 with
    | some (g, o) => if (rangeFrom (h.1 / 4 * 4) 4).any fun x => mhas o.dirty x then recallGrain s g else s
    | none => s
  if h.1 = a then settleByte s1 a key b
  else { s1 with mgmt := { s1.mgmt with reqs := s1.mgmt.reqs ++ [⟨h.1, [b], h.2⟩] } }

/-- Bytes written at their homes. -/
def homeWrite (s : State) (ws : List (Nat × Byte)) (key : Nat) : State :=
  ws.foldl (fun acc w => homeWriteByte acc w.1 key w.2) s

/-- Recalls every grain that begins inside a range. -/
def recallRange (s : State) (base n : Nat) : State :=
  (s.own.filter fun g => decide (base ≤ g.1) && decide (g.1 < base + n)).foldl (fun acc g => recallGrain acc g.1) s

/-- Bytes written under OWN by a core (R64): the grain is taken, and the bytes become dirty; a pool that holds them is changed
at once (R81). -/
def ownWrite (s : State) (core gsize : Nat) (ws : List (Nat × Byte)) (key : Nat) : State :=
  ws.foldl (fun acc0 w =>
    let acc := notePool acc0 (homeOf acc0 w.1 key).1
    let h := homeOf acc w.1 key
    let s1 := recallFrom acc w.1 (some core)
    match (ownGrain s1 h.1).map Prod.fst with
    | some base =>
      { s1 with own := mmod s1.own base fun o => { o with dirty := mset o.dirty h.1 (w.2, h.2) } }
    | none =>
      let base := h.1 / gsize * gsize
      let s2 := recallRange s1 base gsize
      { s2 with own := mset s2.own base ⟨gsize, core, [(h.1, (w.2, h.2))]⟩ }) s

/-- A core takes the grain of a byte that it loads under OWN (R64): another owner's grain goes home first (R65), and so
do smaller grains inside the one taken (R66). -/
def ownTake (s : State) (core gsize a : Nat) : State :=
  let s1 := recallFrom s a (some core)
  if (ownGrain s1 (canonA s1 a)).isSome then s1
  else
    let base := canonA s1 a / gsize * gsize
    let s2 := recallRange s1 base gsize
    { s2 with own := mset s2.own base ⟨gsize, core, []⟩ }

/-- Where the second-stage entry of a guest physical address below 2^38 lies (R353). -/
def s2At (s : State) (p g : Nat) : Nat := (getPart s p).s2base + 8 * bitsOf g 37 21

/-- Second stage (R353): the entry of a guest physical address below 2^38. -/
def s2Entry (s : State) (p g : Nat) : Nat := cohRead8 s (s2At s p g) 0

/-- A channel granule lies on a die that the partition has dropped (R389), and no link that remains leads from there to a die where
its pages could go: it is inaccessible (R391). -/
def stranded (s : State) (p g : Nat) : Bool :=
  let q := getPart s p
  let gone (d : Nat) : Bool := q.dropped.any (·.1 == d)
  gone (g / 8) && !(List.range 4).any fun x =>
    !gone x && bitsOf q.hg (8 * x + 7) (8 * x) != 0 && !s.mgmt.deadDies.contains (min (g / 8) x, max (g / 8) x)

/-- A partition holds the channel granule of a host physical address (R354, R387), and can reach it (R391). -/
def holdsPhys (s : State) (p h : Nat) : Bool := bitOf (getPart s p).hg (bitsOf h 37 33) && !stranded s p (bitsOf h 37 33)

/-- A second-stage entry is valid with its must-be-zero fields zero. -/
def s2Ok (e : Nat) : Bool := bitOf e 0 && bitsOf e 52 38 == 0 && bitsOf e 20 3 == 0

/-- What a translation gives: a leaf, a page that is valid but not resident, or a fault (group, code) of R365 with the
host address that PART names. -/
inductive Xlate where
  | ok (l : Leaf)
  | nonres (l : Leaf)
  | fault (group code at_ : Nat)
  deriving DecidableEq, Repr

/-- An 8-byte entry of a first-stage table (R350, R354): a fault, or the entry. A table whose second stage forbids
reading, whose key the part cannot use, or that lies in a channel granule not held faults as an access there would. -/
def readEntry (s : State) (p g : Nat) : Except (Nat × Nat × Nat) Nat :=
  if g ≥ 2 ^ 38 then .error (2, 1, 0)
  else if !holdsPhys s p (s2At s p g) then .error (13, 1, s2At s p g)
  else
    let e := s2Entry s p g
    let h := bitsOf e 37 21 * 2 ^ 21 + g % 2 ^ 21
    if !s2Ok e then .error (2, 1, 0)
    else if bitsOf e 55 53 ≠ 0 then .error (2, 6, 0)
    else if !bitOf e 1 then .error (2, 2, 0)
    else if bitsOf e 63 56 ≠ 0 && !capENCR s.caps then .error (2, 8, 0)
    else if !holdsPhys s p h then .error (13, 1, h)
    else .ok (cohRead8 s h (bitsOf e 63 56))

/-- A table entry is well formed (R351, R352), and its next table is aligned. -/
def tableOk (e align : Nat) : Bool :=
  bitOf e 0 && !bitOf e 1 && bitsOf e 63 52 == 0 && bitsOf e 5 2 == 0 && (bitsOf e 51 6 * 64) % align == 0

/-- Bytes of an element of a delivered format (R69). -/
def dfBytes (df : Nat) : Nat := if df = 3 then 4 else 2

/-- Element bits of a stored format (R69). -/
def sfBits (sf : Nat) : Nat := match sf with | 1 => 8 | 2 => 6 | 3 => 4 | 4 => 16 | _ => 8

/-- Element format code of a stored MX format (R31). -/
def sfCode (sf : Nat) : Nat := match sf with | 1 => 4 | 2 => 6 | 3 => 8 | _ => 5

/-- Format code of a delivered format. -/
def dfCode (df : Nat) : Nat := match df with | 1 => 3 | 2 => 2 | _ => 0

/-- Bytes of a chunk (R70). -/
def chunkBytes (sf : Nat) : Nat := if sf = 4 then 2048 else 128 * sfBits sf + 32

/-- Bytes of a frame (R70). -/
def frameBytes (sf df pageSize : Nat) : Nat := pageSize / dfBytes df / 1024 * chunkBytes sf

/-- A legal pair of stored and delivered format (R69). -/
def pairOk (sf df : Nat) : Bool := if sf = 0 then df == 0 else decide (sf ≤ 5) && df != 0

/-- The leaf of a first-stage entry and, when resident, its second stage (R352 to R354). -/
def leafOf (s : State) (p e : Nat) (big : Bool) : Xlate :=
  let size := if big then 2 ^ 21 else 2 ^ 16
  let sf := bitsOf e 58 56
  let df := bitsOf e 60 59
  let fa := bitsOf e 51 6 * 64
  let res := bitOf e 2
  let l : Leaf :=
    { frame := fa, guest := fa, big, sf, df, drt := bitsOf e 55 54, gr := bitsOf e 53 52, pin := bitOf e 5,
      r := bitOf e 3, w := bitOf e 4, r1 := true, w1 := true, res, tag := sf, key := 0, domain := false }
  if bitsOf e 63 61 ≠ 0 then .fault 2 1 0
  else if !res then .nonres l
  else if (if sf = 0 then fa % size ≠ 0
           else pairOk sf df && decide (fa % 2 ^ 21 + frameBytes sf df size > 2 ^ 21)) then .fault 2 1 0
  else if fa ≥ 2 ^ 38 then
    -- a domain address (R353, R398)
    if bitsOf fa 51 50 = 1 ∧ bitsOf fa 43 38 = 0 ∧ bitsOf fa 49 44 ≠ Config.deviceNumber then
      .ok { l with domain := true }
    else .fault 2 1 0
  else if !holdsPhys s p (s2At s p fa) then .fault 13 1 (s2At s p fa)
  else
    let e2 := s2Entry s p fa
    if !s2Ok e2 then .fault 2 1 0
    else .ok { l with frame := bitsOf e2 37 21 * 2 ^ 21 + fa % 2 ^ 21, r1 := bitOf e2 1, w1 := bitOf e2 2,
                      tag := bitsOf e2 55 53, key := bitsOf e2 63 56 }

/-- The walk of a virtual address (R350 to R353). -/
def walk (s : State) (p va : Nat) : Xlate :=
  match readEntry s p ((getPart s p).troot + 8 * bitsOf va 51 42) with
  | .error f => .fault f.1 f.2.1 f.2.2
  | .ok e1 =>
    if !tableOk e1 8192 then .fault 2 1 0
    else
      match readEntry s p (bitsOf e1 51 6 * 64 + 8 * bitsOf va 41 32) with
      | .error f => .fault f.1 f.2.1 f.2.2
      | .ok e2 =>
        if !tableOk e2 16384 then .fault 2 1 0
        else
          match readEntry s p (bitsOf e2 51 6 * 64 + 8 * bitsOf va 31 21) with
          | .error f => .fault f.1 f.2.1 f.2.2
          | .ok e3 =>
            if !bitOf e3 0 then .fault 2 1 0
            else if bitOf e3 1 then leafOf s p e3 true
            else if !tableOk e3 256 then .fault 2 1 0
            else
              match readEntry s p (bitsOf e3 51 6 * 64 + 8 * bitsOf va 20 16) with
              | .error f => .fault f.1 f.2.1 f.2.2
              | .ok e4 => if !bitOf e4 0 || !bitOf e4 1 then .fault 2 1 0 else leafOf s p e4 false

/-- The host addresses that reading a first-stage entry touches: its second-stage entry and itself. -/
def entryAddrs (s : State) (p g : Nat) : List Nat :=
  let e := s2Entry s p g
  s2At s p g :: (if s2Ok e then [bitsOf e 37 21 * 2 ^ 21 + g % 2 ^ 21] else [])

/-- The table of the next level, if an entry names one. -/
def nextTable (s : State) (p g align : Nat) : Option Nat :=
  match readEntry s p g with
  | .ok e => if tableOk e align then some (bitsOf e 51 6 * 64) else none
  | .error _ => none

/-- The host addresses that a walk reads. -/
def walkAddrs (s : State) (p va : Nat) : List Nat :=
  let g1 := (getPart s p).troot + 8 * bitsOf va 51 42
  let more (g : Option Nat) (f : Nat → List Nat) : List Nat := (g.map f).getD []
  let leaf : List Nat := match walk s p va with
    | .ok l => if l.domain then [] else [s2At s p l.guest]
    | _ => []
  entryAddrs s p g1 ++ leaf ++ more (nextTable s p g1 8192) fun t2 =>
    let g2 := t2 + 8 * bitsOf va 41 32
    entryAddrs s p g2 ++ more (nextTable s p g2 16384) fun t3 =>
      let g3 := t3 + 8 * bitsOf va 31 21
      entryAddrs s p g3 ++ more (nextTable s p g3 256) fun t4 => entryAddrs s p (t4 + 8 * bitsOf va 20 16)

/-- What an access does, for the permission check (R354). -/
inductive AccKind where
  | read
  | write
  | atomic
  deriving DecidableEq, Repr

/-- Steps 4 to 6 of R244 on a leaf, then ABSENT and GRANULE (R354). -/
def leafCheck (s : State) (p : Nat) (k : AccKind) (l : Leaf) : Option (Nat × Nat) :=
  let needR := k != .write
  let needW := k != .read
  if (needR && !(l.r && l.r1)) || (needW && !(l.w && l.w1)) then some (2, 2)
  else if l.gr = 3 || !pairOk l.sf l.df then some (2, 5)
  else if !l.res then none
  else if l.domain then none
  else if l.sf ≠ l.tag then some (2, 6)
  else if l.key ≠ 0 && !capENCR s.caps then some (2, 8)
  else if !holdsPhys s p l.frame then some (13, 1)
  else none

/-- The page number that a TLB entry of a leaf names: the address of its page. -/
def pageBase (l : Leaf) (va : Nat) : Nat := if l.big then va / 2 ^ 21 * 2 ^ 21 else va / 2 ^ 16 * 2 ^ 16

/-- The leaves that a team's entries in its core's TLB and its partition's in its die's hold for an address (R356, R357). An
engine outside the cores has no entries of a core. -/
def tlbHits (s : State) (p core team va : Nat) : List Leaf :=
  (s.tlb.filter fun t => t.part == p && t.page == pageBase t.leaf va
    && ((t.at_ == .core core && t.team == team) || t.at_ == .die (core / 64))).map (·.leaf)

/-- What a shoot-down names covers an entry (R363, R403). -/
def downCovers (d : Shootdown) (t : TlbEnt) : Bool :=
  t.part == d.part
  && (d.all || if d.stage2 then !t.leaf.domain && t.leaf.guest / 2 ^ 21 == d.addr / 2 ^ 21
        else t.page == pageBase t.leaf d.addr)

/-- The units of a core's TLB that a team holds (R356). -/
def tlbUnits (s : State) (core team : Nat) : List Nat :=
  (List.range 8).filter fun u => mfind (getCore s core).units u == some team

/-- The teams of a core, those admitted first in front. -/
def teamsByOrder (s : State) (core : Nat) : List (Nat × Team) :=
  let ts := s.teams.filter fun t => t.2.core == core
  (List.range ts.length).filterMap fun r => ts.find? fun t => (ts.filter fun u => decide (u.2.order < t.2.order)).length == r

/-- The teams that hold a core's eight units, unit by unit (R356): of `n` teams each has 8 / n, and the units that remain go one
each to the teams admitted first. Units go in that order too (log 56). -/
def unitOwners (s : State) (core : Nat) : List Nat :=
  let ts := teamsByOrder s core
  (ts.zipIdx).flatMap fun t => List.replicate (8 / ts.length + if t.2 < 8 % ts.length then 1 else 0) t.1.1

/-- After a team has come or gone, a core's units are reassigned, and every unit that changes hands is emptied (R356). -/
def assignUnits (s : State) (core : Nat) : State :=
  let new : SMap Nat := (List.range 8).zip (unitOwners s core)
  let kept (u : Nat) : Bool := mfind new u == mfind (getCore s core).units u
  let s1 := { s with tlb := s.tlb.filter fun e => e.at_ != .core core || kept (e.slot / 64) }
  modCore s1 core fun c => { c with units := new }

/-- Two entries of one TLB hold the same translation for the same party. -/
def sameEntry (a b : TlbEnt) : Bool := { a with slot := b.slot } == b

/-- The places of a core's TLB where a team's entry of a page may lie: the eight ways of its set (R356). -/
def tlbWays (s : State) (core team page : Nat) : List Nat :=
  let us := tlbUnits s core team
  if us.isEmpty then []
  else
    let i := Config.tlbSet page % (8 * us.length)
    rangeFrom (64 * us.getD (i / 8) 0 + 8 * (i % 8)) 8

/-- A TLB that has acknowledged a shoot-down takes no entry that it named (R363), and while a table root is being replaced none
from the old tables (R349). -/
def mayFill (s : State) (fresh : Bool) (e : TlbEnt) : Bool :=
  let q := getPart s e.part
  s.mgmt.down.all fun d =>
    !downCovers d e || d.pending.contains e.at_ || (fresh && !(d.all && (d.troot != q.troot || d.s2base != q.s2base)))

/-- A TLB takes an entry, a core's in its set and a die's anywhere; where there is no room, an entry of the device's choice makes
it (R356, R357). -/
def tlbFill (s : State) (fresh : Bool) (e : TlbEnt) : State :=
  if s.tlb.any (sameEntry e) || !mayFill s fresh e then s
  else
    match e.at_ with
    | .core n =>
      let ways := tlbWays s n e.team e.page
      let taken (w : Nat) : Bool := s.tlb.any fun t => t.at_ == e.at_ && t.slot == w
      let c := match ways.find? fun w => !taken w with
        | some w => (some w, s)
        | none => let c := choose s ways.length; (ways[c.1]?, c.2)
      match c.1 with
      | some w => { c.2 with tlb := c.2.tlb.filter (fun t => t.at_ != e.at_ || t.slot != w) ++ [{ e with slot := w }] }
      | none => c.2
    | .die _ =>
      let others := s.tlb.filter fun t => t.at_ == e.at_
      if others.length < 32768 then { s with tlb := s.tlb ++ [e] }
      else
        let c := choose s others.length
        match others[c.1]? with
        | some x => { c.2 with tlb := c.2.tlb.erase x ++ [e] }
        | none => c.2

/-- A translation (R354, R357): the tables, or an entry that a TLB still holds; a success fills both TLBs. `core` is the
device core index, `team` tags the first level; Carmine, whose tag is no team's, uses the second level alone. -/
def translate (s : State) (p core team va : Nat) : Xlate × State :=
  let fresh := walk s p va
  let old := ((tlbHits s p core team va).map Xlate.ok).filter (· != fresh)
  let c := choose s (1 + old.length)
  let r := if c.1 = 0 then fresh else old.getD (c.1 - 1) fresh
  match r with
  | .ok l =>
    let e (t : TlbId) : TlbEnt := ⟨t, 0, team, p, pageBase l va, l⟩
    let s1 := if team < 2 ^ 11 then tlbFill c.2 (r == fresh) (e (.core core)) else c.2
    (r, tlbFill s1 (r == fresh) (e (.die (core / 64))))
  | _ => (r, c.2)

/-- The stored byte that an access sees: the version's byte, else the coherent one (R152). -/
def storedByte (s : State) (ver : SMap (Byte × Nat)) (key a : Nat) : Byte :=
  match mfind ver (canonA s a) with
  | some b => b.1
  | none => cohByte s a key

/-- Element `i` of a converted frame, as its block's stored element (R70): block scale address, element bits. -/
def mxLoc (l : Leaf) (i : Nat) : Nat × Nat × Nat :=
  let c := i / 1024
  let b := i % 1024 / 32
  let base := l.frame + c * chunkBytes l.sf
  (base + 128 * sfBits l.sf + b, base + b * sfBits l.sf * 4, i % 32)

/-- The bits of element `j` of a run at byte address `a`. -/
def elemBits (rd : Nat → Byte) (w a j : Nat) : Nat :=
  let bit := w * j
  (leNat [rd (a + bit / 8), rd (a + bit / 8 + 1)] >>> (bit % 8)) % 2 ^ w

/-- The delivered pattern of element `i` (R71, R45). -/
def elemPattern (rd : Nat → Byte) (l : Leaf) (i : Nat) : Nat :=
  if l.sf = 4 then
    let a := l.frame + 2 * i
    pageRound (dfCode l.df) (fval 3 (leNat [rd a, rd (a + 1)]))
  else
    let p := mxLoc l i
    pageRound (dfCode l.df) (mxValue (sfCode l.sf) (rd p.1).toNat
      (elemBits rd (sfBits l.sf) p.2.1 p.2.2 % 2 ^ sfBits l.sf))

/-- Delivered bytes `off` to `off + n` of a page. -/
def deliver (rd : Nat → Byte) (l : Leaf) (off n : Nat) : List Byte :=
  if l.sf = 0 then (rangeFrom (l.frame + off) n).map rd
  else
    let d := dfBytes l.df
    (rangeFrom off n).map fun o => BitVec.ofNat 8 (elemPattern rd l (o / d) / 256 ^ (o % d))

/-- The delivered pattern of an element with written bytes in place (R72 step 1). -/
def mergedPattern (rd : Nat → Byte) (l : Leaf) (ws : SMap Byte) (i : Nat) : Nat :=
  let d := dfBytes l.df
  let old := elemPattern rd l i
  leNat ((List.range d).map fun k => mget ws (i * d + k) (BitVec.ofNat 8 (old / 256 ^ k)))

/-- The stored bytes of a run of elements of `w` bits. -/
def packedBytes (w a : Nat) (xs : List Nat) : List (Nat × Byte) :=
  let n := w * xs.length / 8
  (rangeFrom a n).zip (leBytes n (packBits w xs))

/-- The stored writes that a write of delivered bytes `ws` (by page offset) makes in block `b` of the page (R72), and
how many elements it counts (R74). -/
def mxBlockWrite (rd : Nat → Byte) (l : Leaf) (ws : SMap Byte) (b : Nat) : List (Nat × Byte) × Nat :=
  let d := dfBytes l.df
  let p := mxLoc l (32 * b)
  let w := sfBits l.sf
  let ef := sfCode l.sf
  let scale := (rd p.1).toNat
  let elems := (List.range 32).map fun j => elemBits rd w p.2.1 j % 2 ^ w
  let touched := (List.range 32).filter fun j => (List.range d).any fun k => mhas ws ((32 * b + j) * d + k)
  let written : SMap XVal := touched.map fun j => (j, fval (dfCode l.df) (mergedPattern rd l ws (32 * b + j)))
  let r := mxMerge ef scale elems written
  ((p.1, BitVec.ofNat 8 r.1) :: packedBytes w p.2.1 r.2,
   (written.filter fun x => x.2 == .inf false || x.2 == .inf true).length)

/-- The stored writes of a write of delivered bytes `bs` at page offset `off`, and its count (R72, R74). -/
def encodeWrite (rd : Nat → Byte) (l : Leaf) (off : Nat) (bs : List Byte) : List (Nat × Byte) × Nat :=
  if l.sf = 0 then ((rangeFrom (l.frame + off) bs.length).zip bs, 0)
  else
    let d := dfBytes l.df
    let ws : SMap Byte := (rangeFrom off bs.length).zip bs
    if l.sf = 4 then
      (rangeFrom (off / d) ((off + bs.length - 1) / d - off / d + 1)).foldl (fun acc i =>
        let x := fval (dfCode l.df) (mergedPattern rd l ws i)
        let p := pageRound 3 x
        let past : Bool := match x with
          | .fin _ _ _ _ => decide (roundPattern RCtx.atomic 3 0 x % 2 ^ 15 > maxFinite 3)
          | _ => false
        (acc.1 ++ (rangeFrom (l.frame + 2 * i) 2).zip (leBytes 2 p), acc.2 + if past then 1 else 0)) ([], 0)
    else
      let b0 := off / d / 32
      let b1 := (off + bs.length - 1) / d / 32
      (rangeFrom b0 (b1 - b0 + 1)).foldl (fun acc b =>
        let r := mxBlockWrite rd l ws b
        (acc.1 ++ r.1, acc.2 + r.2)) ([], 0)

/-- Adds to the conversion-saturated count (R74). -/
def countSat (s : State) (p n : Nat) : State :=
  if n = 0 then s
  else modPart s p fun q => { q with cvsticky := true, cvcount := min (2 ^ 32 - 1) (q.cvcount + n) }

end Sys2Proof.Machine
end

