-- ==== Sys2Proof/Machine/Operands.lean ====
section
/-!
DEFINITION. Where the issuing split is, its registers (R12, R17 to R21), the uniform operands and specials (R174,
R175), the sources of an instruction (R178, R180, R190), guards (R177) and the compand tables (R49).
-/

namespace Sys2Proof.Machine

/-- A group that holds nothing, for reads of a record that does not exist. -/
def Group.empty : Group where
  w1 := 0
  quota := 0
  regs := []
  lg := []
  cursors := []
  flags := []
  splits := []
  entries := []
  exited := 0
  handler := none
  held := []
  hc := []
  ops := []
  nextAge := 0
  nextOp := 0
  age := 0
  res := .resident
  halt := .running
  dirty := []
  fence := []
  reads := []
  heard := []

/-- A split that holds nothing. -/
def Split.empty : Split where
  pc := 0
  active := 0
  fmt := 0
  pend := none
  park := .none
  now := 0
  stale := []
  age := 0
  lastIssue := none
  readyAt := none
  promoted := false
  ceded := false
  chain := 0
  stop := none
  stopped := false
  traps := []
  handler := false
  issued := 0

/-- A team that holds nothing. -/
def Team.empty : Team where
  part := 0
  tid := 0
  linear := 0
  core := 0
  slot := 0
  qb := 0
  ngrp := 0
  spread := 1
  prio := 0
  scr := []
  full := []
  scrbase := 0
  scrsize := 0
  chains := []
  failed := false
  slate := none
  ended := 0
  order := 0
  moving := false

/-- A card that names nothing. -/
def Card.empty : Card where
  kind := 0
  prio := 0
  ver := false
  idem := false
  wdr := false
  nstr := false
  opmask := 0
  cpat := 0
  desc := 0
  crec := 0
  next := 0
  regions := []

/-- A task that does not exist. -/
def Task.empty : Task where
  tid := 0
  parent := none
  card := Card.empty
  hdr := none
  st := .decided
  fate := none
  order := 0
  opnd := 0
  ver := []
  lines := []
  code := []
  taint := false
  restarts := 0
  settled := []
  admitted := 0
  retired := 0
  cseq := 0
  desc := []
  pos := 0
  total := 0
  strike := none

/-- A launch header that names nothing. -/
def Header.empty : Header where
  quota := 0
  spread := 1
  carve := 0
  gang := 0
  col := 0
  hnd := false
  schk := false
  scr := 0
  widths := []
  exts := []
  code := 0
  clen := 0
  param := 0
  seed := 0
  hoff := 0

/-- The group at a record slot (R347). -/
def getGroup (s : State) (gid : Nat) : Group := mget s.groups gid Group.empty

/-- A changed group. -/
def modGroup (s : State) (gid : Nat) (f : Group → Group) : State := { s with groups := mmod s.groups gid f }

/-- A changed split. -/
def modSplit (s : State) (gid k : Nat) (f : Split → Split) : State :=
  modGroup s gid fun g => { g with splits := g.splits.modify k f }

/-- The team of a group: key 8 · core + slot. -/
def teamKey (gid : Nat) : Nat := gid / 32

/-- A team. -/
def getTeam (s : State) (tm : Nat) : Team := mget s.teams tm Team.empty

/-- A changed team. -/
def modTeam (s : State) (tm : Nat) (f : Team → Team) : State := { s with teams := mmod s.teams tm f }

/-- The task of a partition. -/
def findTask (s : State) (p tid : Nat) : Option Task := (getPart s p).window.find? fun t => t.tid == tid

/-- The task, or the task that does not exist. -/
def getTask (s : State) (p tid : Nat) : Task := (findTask s p tid).getD Task.empty

/-- A changed task. -/
def modTask (s : State) (p tid : Nat) (f : Task → Task) : State :=
  modPart s p fun q => { q with window := q.window.map fun t => if t.tid = tid then f t else t }

/-- The launch header of a task. -/
def Task.header (t : Task) : Header := t.hdr.getD Header.empty

/-- The quadrant of a group (R11). -/
def quadrantOf (tm : Team) (w1 : Nat) : Nat := (tm.qb + w1 % tm.spread) % 4

/-- Where the issuing split is. -/
structure At where
  gid  : Nat
  k    : Nat
  g    : Group
  sp   : Split
  tm   : Team
  task : Task

/-- The place of a split. -/
def atOf (s : State) (gid k : Nat) : Option At :=
  match mfind s.groups gid with
  | none => none
  | some g =>
    match g.splits[k]? with
    | none => none
    | some sp =>
      let tm := getTeam s (teamKey gid)
      some ⟨gid, k, g, sp, tm, getTask s tm.part tm.tid⟩

/-- The issuing split. -/
def curAt (s : State) : Option At := s.cur.bind fun c => atOf s c.1 c.2

/-- Key of v register `r` of a lane. -/
def vKey (lane r : Nat) : Nat := 256 * lane + r
/-- Key of s register `i`. -/
def sKey (i : Nat) : Nat := 8192 + i
/-- Key of predicate `k` of a lane. -/
def pKey (lane k : Nat) : Nat := 8320 + 8 * lane + k
/-- Key of uniform predicate `k`. -/
def qKey (k : Nat) : Nat := 8576 + k

/-- A register shared by the splits of a group (R21). -/
def sharedKey (key : Nat) : Bool := (decide (8192 ≤ key) && decide (key < 8320)) || decide (8576 ≤ key)

/-- A predicate that reads true and ignores writes (R173, R174). -/
def fixedTrue (key : Nat) : Bool := key == 8576 || (decide (8320 ≤ key) && decide (key < 8576) && key % 8 == 0)

/-- Entries inside their window at nominal time `now`: a matured one hides the earlier ones of its register and becomes
the old value of the later ones (R18). -/
def pruneStale (now : Nat) (es : List Stale) : List Stale :=
  es.foldl (fun acc e =>
    if e.due ≤ now then acc.filter (·.loc != e.loc)
    else
      match (es.filter fun m => m.loc == e.loc && decide (m.due ≤ now)).getLast? with
      | some m => if (acc.any (·.loc == e.loc)) then acc ++ [e] else acc ++ [{ e with old := m.val }]
      | none => acc ++ [e]) []

/-- Bit 12 of `Stale.cov`: scratchpad or a barrier has been used since the write, no word of which is told from another
(R21, log 53). -/
def scrCov : Nat := 2 ^ 12
/-- The bits of `Stale.cov` for the words of scratchpad that `n` bytes touch. -/
def wordCov (a n : Nat) : Nat := (2 ^ ((a + n - 1) / 4 - a / 4 + 1) - 1) * 2 ^ (16 + a / 4)
/-- What has been done since a write meets what is waited on: a flag, or a use of scratchpad that touches a common word. -/
def covMeets (a b : Nat) : Bool :=
  let any (x : Nat) : Bool := x.testBit 12
  let words (x : Nat) : Nat := x / 2 ^ 16
  (a &&& b) % 2 ^ 12 != 0 || (any a && (any b || words b != 0)) || (any b && words a != 0) || words a &&& words b != 0
/-- Bit 13 of `Stale.cov`: a window that a split has inherited from the split that wrote; only its own split reads it. -/
def copyCov : Nat := 2 ^ 13

/-- The 32-bit value that split `k` reads at a register key (R18, R19, R21): an open window gives the old value; the
window of another split on a shared register, where nothing orders the two, or an outstanding class V destination, gives a
free choice of old or new. -/
def readKey (s : State) (g : Group) (k : Nat) (key : Nat) : Word :=
  if fixedTrue key then 1
  else
    let base := mget g.regs key 0
    let me := g.splits.getD k Split.empty
    let v := match me.stale.find? (·.loc == key) with
      | some e => e.old
      | none =>
        if sharedKey key then
          match ((g.splits.eraseIdx k).flatMap (·.stale)).find? fun e =>
              e.loc == key && !e.cov.testBit 13 && !e.known.contains me.age with
          | some e => if e.old ≠ base ∧ Config.freeBit s.fresh key = true then e.old else base
          | none => base
        else base
    g.ops.foldl (fun acc o =>
      match mfind o.writes key with
      | some w => if w ≠ acc ∧ Config.freeBit s.fresh (key + 16384 * (o.id + 1)) = true then w else acc
      | none => acc) v

/-- The value an Indigo source reads (R217): earlier Indigo results are seen. -/
def readKeyIndigo (s : State) (g : Group) (k : Nat) (key : Nat) : Word :=
  match (g.ops.filter fun o => o.indigo && mhas o.writes key).getLast? with
  | some o => mget o.writes key 0
  | none => readKey s g k key

/-- A lane predicate. -/
def readP (s : State) (a : At) (lane k : Nat) : Bool := readKey s a.g a.k (pKey lane k) != 0
/-- A uniform predicate. -/
def readQ (s : State) (a : At) (k : Nat) : Bool := readKey s a.g a.k (qKey k) != 0

/-- The work identifier of a lane (R8). -/
def workId (a : At) (lane : Nat) : Nat :=
  lane + (a.g.w1 <<< 5) + (a.tm.linear <<< (5 + a.task.header.widths.getD 1 0))

/-- Position of field Wk in the work identifier (R8). -/
def fieldPos (ws : List Nat) (k : Nat) : Nat := (ws.take k).foldl (· + ·) 0

/-- Field Wk of a lane, in full. -/
def workField (a : At) (lane k : Nat) : Nat :=
  let ws := a.task.header.widths
  (workId a lane >>> fieldPos ws k) % 2 ^ (ws.getD k 0)

/-- Granules withheld by outstanding RQUOTAs (R302). -/
def withheld (g : Group) : Nat :=
  g.ops.foldl (fun acc o => match o.stage with | .rquota _ n _ => acc + n | _ => acc) 0

/-- The quota that R27 checks and special 137 reads. -/
def quotaNow (g : Group) : Nat := g.quota - withheld g

/-- The die of a device core index. -/
def dieOf (core : Nat) : Nat := core / 64

/-- A uniform operand of 32 bits (R174). -/
def uniWord (s : State) (a : At) (n : Nat) : Word :=
  if n < 128 then readKey s a.g a.k (sKey n)
  else if 160 ≤ n ∧ n ≤ 175 then mget a.g.hc (n - 160) 0
  else
    let cyc := s.cycle - (getCore s a.tm.core).base
    match n with
    | 129 => BitVec.ofNat 32 (workId a 0)
    | 130 => BitVec.ofNat 32 (workId a 0 >>> 32)
    | 131 => BitVec.ofNat 32 a.tm.linear
    | 132 => BitVec.ofNat 32 a.g.w1
    | 133 => BitVec.ofNat 32 a.tm.ngrp
    | 134 => BitVec.ofNat 32 a.tm.tid
    | 135 => a.task.opnd
    | 136 => a.sp.fmt
    | 137 => BitVec.ofNat 32 (quotaNow a.g)
    | 138 => BitVec.ofNat 32 cyc
    | 139 => BitVec.ofNat 32 (cyc >>> 32)
    | 140 => s.caps
    | 141 => BitVec.ofNat 32 a.tm.part
    | 142 => BitVec.ofNat 32 (mget s.mgmt.coreNums a.tm.core (a.tm.core % 64))
    | 143 => BitVec.ofNat 32 (dieOf a.tm.core)
    | 144 => BitVec.ofNat 32 a.tm.scrbase
    | 145 => BitVec.ofNat 32 a.tm.scrsize
    | _ => 0

/-- The number that `n` words from the lowest hold. -/
def wordsNat (ws : List Word) : Nat :=
  match ws with
  | [] => 0
  | w :: r => w.toNat + 2 ^ 32 * wordsNat r

/-- The `n` words of a number. -/
def natWords (n x : Nat) : List Word :=
  match n with
  | 0 => []
  | k + 1 => BitVec.ofNat 32 x :: natWords k (x / 2 ^ 32)

/-- A block of `n` v registers of a lane. -/
def readV (s : State) (a : At) (lane r n : Nat) : Nat :=
  wordsNat ((rangeFrom r n).map fun i => readKey s a.g a.k (vKey lane i))

/-- A uniform operand of `n` words. -/
def readU (s : State) (a : At) (i n : Nat) : Nat := wordsNat ((rangeFrom i n).map (uniWord s a))

/-- Key of latch `i` (1 to 3) of a quadrant in a lane position. -/
def latchKey (quad i lane : Nat) : Nat := 96 * quad + 32 * (i - 1) + lane

/-- A latch of the split's quadrant (R24). -/
def readLatch (s : State) (a : At) (i lane : Nat) : Word :=
  mget (getCore s a.tm.core).latches (latchKey (quadrantOf a.tm a.g.w1) i lane) 0

/-- The split's lowest-numbered active lane. -/
def lowLane (w : Word) : Nat := (lanesOf w).headD 0

/-- An immediate B, widened (R178). -/
def immValue (k : BiKind) (w : Word) : Nat :=
  match k with
  | .s64 => (w.signExtend 64).toNat
  | .f64 =>
    match fval 0 w.toNat with
    | .nan => canonNan 1
    | x => roundPattern RCtx.atomic 1 0 x
  | _ => w.toNat

/-- The value of a register source by its role (R176, R190), as a number of as many words as the role has. -/
def roleValue (s : State) (a : At) (r : Role) (field lane : Nat) : Nat :=
  match r with
  | .vs n => readV s a lane field n
  | .us n => readU s a field n
  | _ => 0

/-- The lane position of a latch source (R180): a uniform source reads that of the lowest-numbered active lane. -/
def latchLane (a : At) (r : Role) (lane : Nat) : Nat :=
  match r with
  | .us _ => lowLane a.sp.active
  | _ => lane

/-- Source A of a lane (R190). In the uniform set `lane` is the lowest active lane. -/
def srcA (s : State) (a : At) (f : Form) (e : Enc) (lane : Nat) : Nat :=
  if e.ctl.la ≠ 0 then (readLatch s a e.ctl.la.toNat (latchLane a (f.a e a.sp.fmt) lane)).toNat
  else roleValue s a ((f.a e a.sp.fmt).marked (e.m.sa && !f.uni)) e.a.toNat lane

/-- Source B. -/
def srcB (s : State) (a : At) (f : Form) (e : Enc) (lane : Nat) : Nat :=
  if e.ctl.lb ≠ 0 then (readLatch s a e.ctl.lb.toNat (latchLane a (f.b e a.sp.fmt) lane)).toNat
  else if e.m.bi then immValue (f.bi e) e.imm
  else roleValue s a ((f.b e a.sp.fmt).marked (e.m.sb && !f.uni)) e.b.toNat lane

/-- Source C. -/
def srcC (s : State) (a : At) (f : Form) (e : Enc) (lane : Nat) : Nat :=
  if e.ctl.lc ≠ 0 then (readLatch s a e.ctl.lc.toNat (latchLane a (f.c e a.sp.fmt) lane)).toNat
  else roleValue s a (f.c e a.sp.fmt) e.m.c.toNat lane

/-- A predicate source field: of the lane, or uniform. -/
def predField (s : State) (a : At) (uni : Bool) (lane k : Nat) : Bool := if uni then readQ s a k else readP s a lane k

/-- Whether a guard code holds (R176, R177): 0 none, 1 to 7 true, 9 to 15 negated. -/
def guardHolds (g : Nat) (rd : Nat → Bool) : Bool :=
  if g = 0 then true else if g < 8 then rd g else !rd (g - 8)

/-- The participants of a lane instruction: active lanes whose guard is true (R177, R191). -/
def participants (s : State) (a : At) (e : Enc) : List Nat :=
  (lanesOf a.sp.active).filter fun l => guardHolds e.m.guard.toNat (readP s a l)

/-- Whether a uniform instruction's guard is true. -/
def uniGuard (s : State) (a : At) (e : Enc) : Bool := guardHolds e.m.guard.toNat (readQ s a)

/-- A compand table in exact form; the identity is none (R49). -/
def Compand.exact (c : Compand) : Option CTab :=
  if c.bps.isEmpty then none else some ⟨c.bps.map fun b => (fval 0 b.toNat).dy, c.slopes⟩

/-- Table `t` of a core in exact form; table 0 is none (R49, R51). -/
def compTab (s : State) (core t : Nat) : Option CTab :=
  if t = 0 then none else (mfind (getCore s core).tables t).bind Compand.exact

/-- The rounding context of a split (R189): RMO overrides the mode when it is not 0 (R192). -/
def rctx (s : State) (a : At) (rmo : Nat) : RCtx :=
  let f := a.sp.fmt
  { mode := if rmo = 0 then fmtRM f else rmo - 1, sat := fmtSAT f, ftz := fmtFTZ f,
    comp := compTab s a.tm.core (fmtCT f) }

/-- The table of the inverse map, when CMPA is 1 (R51). -/
def cmpaTab (s : State) (a : At) : Option CTab :=
  if fmtCMPA a.sp.fmt then compTab s a.tm.core (fmtCT a.sp.fmt) else none

/-- A lane's generator. -/
def readLg (g : Group) (lane : Nat) : Dword := mget g.lg lane 0

/-- Bytes of a size code SZ (R241). -/
def szBytes (sz : Nat) : Nat := match sz with | 0 => 1 | 1 => 1 | 2 => 2 | 3 => 2 | 4 => 4 | 5 => 8 | _ => 16

/-- Bytes of an AT (R250). -/
def atBytes (t : Nat) : Nat := if t = 2 ∨ t = 3 ∨ t = 5 then 8 else 4

/-- The byte-space effective address (R240): base plus signed offset, modulo 2^64. -/
def effAddr64 (e : Enc) (base : Nat) : Nat :=
  let off : Int := if e.ctl.lit = 2 ∧ e.m.bi = false then e.imm.toInt else 0
  wrapTo 64 (base + off)

/-- The scratchpad effective address (R240): modulo 2^32. -/
def effAddr32 (e : Enc) (base : Nat) : Nat :=
  let off : Int := if e.ctl.lit = 2 ∧ e.m.bi = false then e.imm.toInt else 0
  wrapTo 32 (base + off)

end Sys2Proof.Machine
end

