-- ==== Sys2Proof/Machine/Ops.lean ====
section
/-!
DEFINITION. The named operations every instruction shares: taking a trap and leaving handler mode (R184, R367 to R370,
R305), stopping a task (R163, R367), and the frame of issue (R17 to R25, R183, R191).
-/

namespace Sys2Proof.Machine

/-- What a meaning answers. -/
abbrev Res := Host.Outcome State Fault Refusal

/-- The groups of a task, by key. -/
def groupsOf (s : State) (p tid : Nat) : List Nat :=
  (mkeys s.groups).filter fun g =>
    let t := getTeam s (teamKey g)
    mhas s.teams (teamKey g) && t.part == p && t.tid == tid

/-- Asks a split to stop at its next boundary (R22). -/
def askStop (sp : Split) : Split := if sp.stop.isSome || sp.stopped then sp else { sp with stop := some 0 }

/-- Asks every split of a group to stop. -/
def stopGroup (s : State) (gid : Nat) : State :=
  modGroup s gid fun g => { g with splits := g.splits.map askStop }

/-- The fate of a task that is withdrawn (R163). -/
def withdrawnFate : Fate := ⟨4, ⟨0, 0, 0, 0, 0⟩⟩

/-- Edges stop counting in their producers' demand (R162): the producers whose count this brings to zero. -/
def uncount (q : Partition) (hit : Edge → Bool) : List Nat × Partition :=
  let off (e : Edge) : Bool := e.counts && hit e
  let edges := q.edges.map fun e => if off e then { e with counts := false } else e
  ((((q.edges.filter off).map (·.src)).eraseDups).filter fun x => !edges.any fun e => e.counts && e.src == x,
   { q with edges })

/-- One task stops (R163, R367): a running task's groups are asked to stop, a queued one is decided at once; either way its
version is discarded (R155), here and now: what still drains reads as before the version (log 58). -/
def stopOne (s : State) (p tid : Nat) (fate : Fate) : State :=
  if (getTask s p tid).st = .waiting then modTask s p tid fun t => { t with st := .decided, fate := some fate, ver := [], lines := [] }
  else
    (groupsOf s p tid).foldl stopGroup
      (modTask s p tid fun t => { t with st := .stopping, fate := some fate, ver := [], lines := [] })

/-- Stops tasks, and withdraws each withdrawable producer whose demand their completion brings to zero (R162, R163). A task
that has a fate keeps it. -/
def stopAll (fuel : Nat) (s : State) (p : Nat) (work : List (Nat × Fate)) : State :=
  match fuel, work with
  | 0, _ => s
  | _, [] => s
  | n + 1, (tid, fate) :: rest =>
    match findTask s p tid with
    | none => stopAll n s p rest
    | some t =>
      if t.fate.isSome ∨ t.st = .decided then stopAll n s p rest
      else
        let s1 := stopOne s p tid fate
        let r := uncount (getPart s1 p) fun e => e.dst == tid
        let more := r.1.filter fun x => (getTask s1 p x).card.wdr
        stopAll n (modPart s1 p fun _ => r.2) p (rest ++ more.map fun x => (x, withdrawnFate))

/-- Carmine stops a task (R163, R306, R367). -/
def stopTask (s : State) (p tid : Nat) (fate : Fate) : State :=
  stopAll (2 * (getPart s p).window.length + 2) s p [(tid, fate)]

/-- The status with which a trap ends its task (R367): NOFRAME and HW kill, DIELINK fails, the rest fault. -/
def trapStatus (t : TrapRec) : Nat :=
  if t.group = 2 ∧ t.code = 9 then 3
  else if t.group = 9 then 3
  else if t.group = 10 ∧ t.code = 1 then 5
  else 2

/-- Firmware learns of a fault (R367). -/
def reportFault (s : State) (p : Nat) (t : TrapRec) : State :=
  { s with mgmt := { s.mgmt with faults := s.mgmt.faults ++ [(p, t)] } }

/-- Resolves a trap at task level (R367); PART GRANULE goes to firmware first (R354). -/
def trapTask (s : State) (p tid : Nat) (t : TrapRec) : State :=
  stopTask (if t.group = 13 then reportFault s p t else s) p tid ⟨trapStatus t, t⟩

/-- RX of R370: hc0 is the trapping instruction itself (STACK; encoding checks never reach the handler). -/
def trapRx (t : TrapRec) : Bool := t.group == 5 && t.code == 1

/-- A split of a group in handler mode that is parked has stopped where it stood (R368): its windows are closed before the
handler runs (R22). -/
def settleParked (x : Split) : Split :=
  if !x.handler && x.stop.isSome && x.park != .none && x.chain == 0 then { x with stale := [] } else x

/-- Handler entry (R368): registers hc0 to hc6, the handler's offset, fmt 0, the rejoin address set aside, the other
splits asked to stop; open windows yield the new value (R22). -/
def enterHandler (s : State) (gid k : Nat) (t : TrapRec) (resume : Word) : State :=
  match atOf s gid k with
  | none => s
  | some a =>
    let sp := a.sp
    let hc3 : Nat := t.code + (t.group <<< 5) + (if trapRx t then 1024 else 0)
    modGroup s gid fun g =>
      { g with
        handler := some ⟨sp.age, sp.pend, sp.active, sp.fmt, mkeys g.entries⟩
        hc := (rangeFrom 0 7).foldl (fun m i =>
          mset m i ([resume, sp.active, sp.fmt, BitVec.ofNat 32 hc3, t.d0, t.d1, t.d2].getD i 0)) g.hc
        splits := g.splits.mapIdx fun i x =>
          if i = k then
            { x with pc := BitVec.ofNat 32 a.task.header.hoff, fmt := 0, pend := none, stale := [], chain := 0,
                     handler := true, park := .none }
          else settleParked (askStop x) }

/-- A debugger halt of a group (R373): every split is asked to stop. -/
def haltGroup (s : State) (gid cause : Nat) (pc : Word) : State :=
  modGroup s gid fun g =>
    if g.halt = .running then { g with halt := .stopping cause pc, splits := g.splits.map askStop } else g

/-- Where a trap of a split goes (R367, R368): a halt, the grid's handler, or the task level. `resume` is where the
split goes on after a handler or a halt. -/
def takeTrap (s : State) (gid k : Nat) (t : TrapRec) (resume : Word) : State :=
  match atOf s gid k with
  | none => s
  | some a =>
    let p := a.tm.part
    if t.group = 12 ∧ (getPart s p).arm then
      haltGroup (modSplit s gid k fun x => { x with pc := resume, stale := [], chain := 0 }) gid
        (if t.code = 1 then 1 else 3) resume
    else if [4, 5, 11, 12].contains t.group && !a.task.card.ver && a.task.header.hnd && !a.sp.handler then
      if a.g.handler.isSome then
        modGroup (modSplit s gid k fun x => { x with pc := resume, stale := [], chain := 0, stopped := true }) gid
          fun g => { g with held := g.held ++ [(a.sp.age, t, resume)] }
      else enterHandler s gid k t resume
    else trapTask (modSplit s gid k fun x => { x with pc := resume, chain := 0, stopped := true }) p a.tm.tid t

/-- The location word L (R184, R364). -/
def locWord (pc : Word) (uni : Bool) : Word := (pc &&& 0xFFFFFFFC#32) ||| (if uni then 1#32 else 0#32)

/-- A trap of cause group ENC at the split's instruction (R184). -/
def trapEnc (s : State) (a : At) (cw ow : Word) (uni : Bool) (code : Nat) : State :=
  takeTrap s a.gid a.k ⟨1, code, cw, ow, locWord a.sp.pc uni⟩ a.sp.pc

/-- A precise trap at the split's instruction. -/
def trapHere (s : State) (a : At) (t : TrapRec) : State := takeTrap s a.gid a.k t a.sp.pc

/-- A split is parked. -/
def parked (x : Split) : Bool := x.park != .none

/-- Ends handler mode: the other splits resume, unless the task is stopping (R368). -/
def leaveHandler (s : State) (gid : Nat) : State :=
  let tm := getTeam s (teamKey gid)
  let stopping := (getTask s tm.part tm.tid).st != .released
  modGroup s gid fun g =>
    let keep := stopping || g.res != .resident || g.halt != .running
    let heldBy := g.held.map Prod.fst
    { g with
      handler := none
      splits := g.splits.map fun x =>
        { settleParked x with
                 handler := false
                 stop := if keep then x.stop else none
                 stopped := if keep || heldBy.contains x.age then x.stopped else false } }

/-- The instruction that issues: its place after the bookkeeping of issue, its own offset, L, whether it belongs to a
hold chain, and its encoding. -/
structure Iss where
  a     : At
  pc    : Word
  loc   : Word
  chain : Bool
  f     : Form
  e     : Enc

/-- Latency of a class (R18, R188: N counts as A). -/
def latency (c : LatClass) : Nat :=
  match c with
  | .F => 5
  | .D => 8
  | _ => 4

/-- A flag of a group (R20). -/
def getFlag (g : Group) (k : Nat) : Nat := mget g.flags k 0

/-- The flags that WAIT names (R170). -/
def waitFlags (e : Enc) : List Nat := (List.range 12).filter fun k => e.ctl.wait.getLsbD k

/-- Whether a trap without a flag must be taken before this instruction (R369): one that waits on a flag, the 64th after the
operation, or an EXIT, after which the split may have no boundary left. -/
def bound (a : At) (f : Form) (e : Enc) (since : Nat) : Bool :=
  e.ctl.wait != 0 || decide (a.sp.issued ≥ since + 64) || (f.uni && f.op == 0x26)

/-- The trap of a hold chain's member that waits for the boundary after the chain (R182). -/
def chainTrap (x : Split) : Option HeldTrap := if x.chain > 0 then none else x.traps.find? (·.now)

/-- The held trap that stops the split before this instruction, and whether it must: one of a chain that has ended (R182); one
of a class V operation (R369) whose flag the instruction waits on, or one without a flag, which the device may take at any
boundary up to the bound. Nothing is taken inside a hold chain (R23). -/
def dueTrap (a : At) (f : Form) (e : Enc) : Option (HeldTrap × Bool) :=
  if a.sp.chain > 0 then none
  else
    match a.sp.traps.find? fun t => t.now || (match t.flag with | some k => (waitFlags e).contains k | none => false) with
    | some t => some (t, true)
    | none =>
      match a.sp.traps.find? (·.flag.isNone) with
      | some t => some (t, bound a f e t.since)
      | none => none

/-- A faulted operation without a flag of this split whose detection can wait no longer (R369). -/
def overdueFault (a : At) (f : Form) (e : Enc) : Option Op :=
  if a.sp.chain > 0 then none
  else
    a.g.ops.find? fun o => o.split == a.sp.age && o.flag.isNone && bound a f e o.at_
      && (match o.stage with | .faulted _ => true | _ => false)

/-- An operation whose accesses are not all performed yet. -/
def unperformed (o : Op) : Bool :=
  match o.stage with
  | .held _ _ => true
  | .pieces _ _ _ => true
  | .half _ => true
  | _ => false

/-- An operation that may still fault. -/
def mayFault (o : Op) : Bool :=
  unperformed o || (match o.stage with | .cqinit _ _ => true | .cqadv _ _ => true | _ => false)

/-- An operation without a flag that may still fault, and whose trap could not be taken later than here (R369). -/
def faultPending (a : At) (f : Form) (e : Enc) : Bool :=
  a.sp.chain == 0 && a.g.ops.any fun o => o.split == a.sp.age && o.flag.isNone && bound a f e o.at_ && mayFault o

/-- An instruction that accesses scratchpad as a lane or as the split's one party; of an MMA the plain operands (R224). -/
def scrAccess (i : Instr) : Bool :=
  match i with
  | .lds _ => true
  | .slds _ => true
  | .sts _ => true
  | .ssts _ => true
  | .atoms _ => true
  | .mdrn e => e.M 16 16 == 1
  | .mma _ => true
  | .mmac _ => true
  | _ => false

/-- A scratchpad access that is not performed yet. -/
def scrPending (o : Op) : Bool :=
  match o.stage with
  | .held i _ => scrAccess i
  | .pieces ps _ _ => ps.any fun p => scrAccess p.1
  | _ => false

/-- What an operation has still to perform. -/
def opParts (o : Op) : List (Instr × Capture) :=
  match o.stage with
  | .held i cap => [(i, cap)]
  | .pieces ps _ _ => ps
  | _ => []

/-- An earlier release or acquire is not performed yet: no later access of any kind is performed before it (R104, R105). -/
def orderHeld (earlier : List Op) : Bool :=
  earlier.any fun o => (opParts o).any fun p => (formOf p.1).elim false fun x => x.1.order x.2

/-- An instruction of Indigo (R217). -/
def isIndigo (f : Form) : Bool := !f.uni && decide (0x48 ≤ f.op) && decide (f.op ≤ 0x4B)

/-- An instruction of Indigo in the split's quadrant is not performed yet: the array takes one at a time, in issue order
(R217). -/
def indigoBusy (s : State) (a : At) : Bool :=
  s.groups.any fun g => g.1 / 256 == a.gid / 256
    && quadrantOf (getTeam s (teamKey g.1)) g.2.w1 == quadrantOf a.tm a.g.w1
    && g.2.ops.any fun o => o.indigo && unperformed o

/-- An instruction that reads an object-table entry at issue (R278, R292, R299): OINFO, CQINIT, HINIT. -/
def readsEntry (f : Form) : Bool := f.uni && [0x1D, 0x38, 0x3F].contains f.op

/-- The conditions of R17 and R20 for issue, of R104: a release or acquire waits for the group's earlier accesses, what acts at
issue for an earlier acquire, and of R369: an instruction waits for what could still fault before it. -/
def eligible (s : State) (a : At) (f : Form) (e : Enc) : Bool :=
  !faultPending a f e
  && !(isIndigo f && indigoBusy s a)
  && !(f.order e && a.g.ops.any unperformed)
  && !(f.scr && (a.g.ops.any scrPending || orderHeld a.g.ops))
  && !(readsEntry f && orderHeld a.g.ops)
  && (waitFlags e).all (fun k => getFlag a.g k == 0)
  && (e.ctl.setf == 15 || decide (getFlag a.g e.ctl.setf.toNat < 63))
  && (match a.sp.lastIssue with
      | some c => decide (c + Enc.effSpace e ≤ s.cycle)
      | none => true)

/-- The flag that the instruction counts. -/
def flagOf (e : Enc) : Option Nat := if e.ctl.setf = 15 then none else some e.ctl.setf.toNat

/-- The bit of `Stale.cov` for the flag that the instruction counts. -/
def flagCov (e : Enc) : Nat := match flagOf e with | some k => 2 ^ k | none => 0

/-- Two records of one write. -/
def sameWrite (x y : Stale) : Bool := x.uid == y.uid && x.loc == y.loc

/-- Another split's write as a split `me` issues (R21): where `me` waits on what has come after the write (`wait`, as in
`Stale.cov`) it is ordered after it; what `me` sets (`cov`) comes after every write it is ordered after. -/
def hearWrite (me : Split) (cov wait : Nat) (x : Stale) : Stale :=
  let knows := x.known.contains me.age || me.stale.any (sameWrite x)
  let hears := !knows && covMeets x.cov wait
  { x with cov := if knows || hears then x.cov ||| cov else x.cov
           known := if hears then me.age :: x.known else x.known }

/-- Another split's writes as a split issues. -/
def hearSplit (me : Split) (cov wait : Nat) (x : Split) : Split := { x with stale := x.stale.map (hearWrite me cov wait) }

/-- What a WAIT hears: the flags it names, and with any of them scratchpad accesses (R21). -/
def waitCov (e : Enc) : Nat := if e.ctl.wait = 0 then 0 else e.ctl.wait.toNat ||| scrCov

/-- The split after the bookkeeping of issue: nominal clock, windows, program counter, chain. -/
def bookSplit (s : State) (a : At) (e : Enc) (x : Split) : Split :=
  let now := a.sp.now + Enc.effSpace e
  { x with pc := x.pc + BitVec.ofNat 32 e.length, now, lastIssue := some s.cycle,
           stale := (pruneStale now x.stale).map fun y => { y with cov := y.cov ||| flagCov e }, readyAt := none, promoted := false, ceded := e.ctl.cede, chain := if e.ctl.hold then x.chain + 1 else 0,
           stop := x.stop.map (· + 1), issued := x.issued + 1 }

/-- The group after the bookkeeping of issue: its split, and the flag. -/
def bookGroup (s : State) (a : At) (e : Enc) (g : Group) : Group :=
  { g with
    splits := g.splits.mapIdx fun j x => if j = a.k then bookSplit s a e x else hearSplit a.sp (flagCov e) (waitCov e) x
    flags := match flagOf e with | some k => mput 0 g.flags k (getFlag g k + 1) | none => g.flags }

/-- The latches of a quadrant are zero (R180). -/
def clearLatches (q : Nat) (m : SMap Word) : SMap Word :=
  m.filter fun x => !(decide (96 * q ≤ x.1) && decide (x.1 < 96 * q + 96))

/-- The bookkeeping of issue: split and flag, and the latches at a chain's start (R180). -/
def book (s : State) (a : At) (e : Enc) : State :=
  let s1 := modGroup s a.gid (bookGroup s a e)
  if e.ctl.hold && a.sp.chain == 0 then
    modCore s1 a.tm.core fun c => { c with latches := clearLatches (quadrantOf a.tm a.g.w1) c.latches }
  else s1

/-- What the frame decides before the effect. -/
inductive Gate where
  /-- No split issues. -/
  | noIssuer
  /-- A trap is taken, or the instruction stays: the state is all that changes. -/
  | still (s : State)
  /-- The instruction issues in this state. -/
  | go (s : State) (i : Iss)

/-- A trap that is about to be taken waits no longer, at its split or, undetected, at its operation. -/
def claimTrap (s : State) (a : At) (t : HeldTrap) : State :=
  if a.sp.traps.contains t then modSplit s a.gid a.k fun x => { x with traps := x.traps.erase t }
  else modGroup s a.gid fun g => { g with ops := g.ops.map fun o =>
    if o.split = a.sp.age ∧ o.flag = none ∧ o.stage = .faulted t.cause then { o with stage := .done } else o }

/-- The frame of R191 up to the effect: a held trap, the checks of R183, the waits of R17 and R20, the bookkeeping. Where an
earlier member of an open chain has raised a trap that waits for the chain's end and this instruction fails a check, the check's
trap is taken (R182 does not say which; log 59). -/
def gate (f : Form) (e : Enc) (s : State) : Gate :=
  match curAt s with
  | none => .noIssuer
  | some a =>
    let due := match overdueFault a f e, dueTrap a f e with
      | _, some d => some d
      | some o, none => (match o.stage with | .faulted t => some (⟨none, t, o.at_, false⟩, true) | _ => none)
      | none, none => none
    let pick := match due with
      | some (_, false) => choose s 2
      | some (_, true) => (1, s)
      | none => (0, s)
    match due, pick.1 with
    | some (t, _), 1 =>
      .still (takeTrap (claimTrap pick.2 a t) a.gid a.k t.cause a.sp.pc)
    | _, _ =>
      let s := pick.2
      match encCheck f e ⟨a.sp.handler, a.sp.chain, quotaNow a.g, a.sp.fmt, s.caps⟩ with
      | some code => .still (trapEnc s a (ctlWord f.uni e.ctl) (opWord f.op e) f.uni code)
      | none =>
        if !eligible s a f e then .still s
        else
          let s1 := book s a e
          match atOf s1 a.gid a.k with
          | some b => .go s1 ⟨b, a.sp.pc, locWord a.sp.pc f.uni, e.ctl.hold || decide (a.sp.chain > 0), f, e⟩
          | none => .still s
/-- An instruction's meaning: the frame, then its effect once it issues. -/
def issue (f : Form) (e : Enc) (s : State) (eff : Iss → State → State) : Res :=
  match gate f e s with
  | .noIssuer => .fault .noIssuer
  | .still s' => .next s'
  | .go s' i => .next (eff i s')

/-- The register that an operation writes when it completes, with a value not known before (R28, R296). -/
def lateDest (o : Op) : Option Nat :=
  match o.stage with
  | .task d _ => some (sKey d)
  | .rquota _ _ d => some (qKey d)
  | _ => none

/-- An operation's writes with a destination that it learns at its end, unless a later result has taken that (R19,
log 54). -/
def lateWrites (o : Op) (key : Nat) (w : Word) : SMap Word :=
  if fixedTrue key || o.lost.contains key then o.writes else mset o.writes key w

/-- One fixed-latency write (R18, R19): the window opens, and against an outstanding class V destination the device
picks which result stays (TASK's sd and RQUOTA's qd among them, log 54). -/
def writeFixed1 (fresh cov k due : Nat) (g : Group) (w : Nat × Word) : Group :=
  if fixedTrue w.1 then g
  else
    { g with
      regs := mput 0 g.regs w.1 w.2
      splits := g.splits.modify k fun x => { x with stale := x.stale ++ [⟨w.1, w.2, mget g.regs w.1 0, due, fresh, cov, []⟩] }
      ops := g.ops.map fun o =>
        if (mhas o.writes w.1 || unperformed o || lateDest o == some w.1) && Config.freeBit fresh (w.1 + 16384 * (o.id + 1)) then
          { o with writes := mdel o.writes w.1, lost := w.1 :: o.lost }
        else o }

/-- Fixed-latency writes of an instruction. -/
def writeFixed (s : State) (i : Iss) (ws : List (Nat × Word)) : State :=
  let due := i.a.sp.now + latency (i.f.cls i.e)
  modGroup s i.a.gid fun g => ws.foldl (writeFixed1 s.fresh (flagCov i.e) i.a.k due) g

/-- The latches of a quadrant shifted, with a result, or zero, in b1 of each lane position (R24). -/
def shiftRow (q : Nat) (res m : SMap Word) : SMap Word :=
  (List.range 32).foldl (fun acc l =>
    let b1 := mget m (latchKey q 1 l) 0
    let b2 := mget m (latchKey q 2 l) 0
    mput 0 (mput 0 (mput 0 acc (latchKey q 3 l) b2) (latchKey q 2 l) b1) (latchKey q 1 l) (mget res l 0)) m

/-- Shifts the latches of the split's quadrant (R24). -/
def shiftLatches (s : State) (i : Iss) (res : SMap Word) : State :=
  modCore s i.a.tm.core fun c => { c with latches := shiftRow (quadrantOf i.a.tm i.a.g.w1) res c.latches }

/-- The flag of a class A, F, D or N instruction drops L cycles after issue (R20). -/
def flagFixed (s : State) (i : Iss) : State :=
  match flagOf i.e with
  | none => s
  | some k =>
    modGroup s i.a.gid fun g =>
      { g with ops := g.ops ++ [⟨g.nextOp, i.a.sp.age, some k, [], false, false, false, i.loc, i.a.sp.issued,
                                 s.cycle, [], .fixed (s.cycle + latency (i.f.cls i.e))⟩],
               nextOp := g.nextOp + 1 }

/-- Retires a class A, F or D instruction (R190): `regs` are register writes, `preds` predicate writes, `res` the
result of each lane position for the latches. NWB keeps a register result in b1 only. -/
def retire (s : State) (i : Iss) (regs preds : List (Nat × Word)) (res : SMap Word) : State :=
  let c := i.f.cls i.e
  let s1 := if i.chain && (c == .A || c == .F) then shiftLatches s i res else s
  flagFixed (writeFixed s1 i ((if i.e.ctl.nwb then [] else regs) ++ preds)) i

/-- A trap that a member of a hold chain raises while its HOLD is set takes effect at the boundary after the chain (R182). -/
def raiseInChain (s : State) (i : Iss) (t : TrapRec) : State :=
  modSplit s i.a.gid i.a.k fun x => { x with traps := x.traps ++ [⟨none, t, i.a.sp.issued, true⟩] }

/-- Retires a class N instruction. -/
def retireN (s : State) (i : Iss) : State := flagFixed s i

/-- The instruction uses scratchpad or a barrier (R21). -/
def usesScr (f : Form) : Bool :=
  f.scr || (if f.uni then [0x1A, 0x1B, 0x30, 0x31, 0x32, 0x33, 0x34] else [0x38, 0x4B, 0x52, 0x53, 0x55]).contains f.op

/-- The words of scratchpad that an instruction uses, as bits of `Stale.cov` (R21): of its lanes' accesses or its barrier word;
bit 12 for the instructions with larger operands and for grid barriers (log 53). -/
def scrUse (s : State) (i : Iss) : Nat :=
  let lane (n : Nat) (l : Nat) : Nat := wordCov (effAddr32 i.e (srcA s i.a i.f i.e l)) n
  let l0 := lowLane i.a.sp.active
  if !i.f.uni && (i.f.op == 0x52 || i.f.op == 0x53) then
    (participants s i.a i.e).foldl (fun m l => m ||| lane (szBytes (i.e.M 10 8)) l) 0
  else if !i.f.uni && i.f.op == 0x55 then (participants s i.a i.e).foldl (fun m l => m ||| lane (atBytes (i.e.M 14 12)) l) 0
  else if i.f.uni && (i.f.op == 0x1A || i.f.op == 0x1B) then lane (szBytes (i.e.M 10 8)) l0
  else if i.f.uni && [0x30, 0x31, 0x32, 0x33].contains i.f.op then wordCov (srcA s i.a i.f i.e l0 % 2 ^ 32) 4
  else scrCov

/-- A group as its split `me` uses words of scratchpad or a barrier: `me` is ordered after the writes of splits that have used
them, and before whoever uses them later (R21). -/
def hearScr (me : Split) (use : Nat) (g : Group) : Group :=
  { g with splits := g.splits.map fun x =>
      if x.age = me.age then { x with stale := x.stale.map fun y => { y with cov := y.cov ||| use } }
      else hearSplit me use use x }

/-- An instruction of Ochre (R135). -/
def isOchre (f : Form) : Bool := !f.uni && decide (0x30 ≤ f.op) && decide (f.op ≤ 0x38)

/-- A class V operation goes outstanding (R19, R20): its destinations and what it still needs. -/
def outstanding (s : State) (i : Iss) (ws : List (Nat × Word)) (stage : Stage) (indigo graph : Bool) : State :=
  let writes : SMap Word := ws.foldl (fun m w => if fixedTrue w.1 then m else mset m w.1 w.2) []
  modGroup s i.a.gid fun g0 =>
    let g := if usesScr i.f then hearScr i.a.sp (scrUse s i) g0 else g0
    { g with ops := g.ops ++ [⟨g.nextOp, i.a.sp.age, flagOf i.e, writes, indigo || isIndigo i.f, isOchre i.f, graph, i.loc,
                               i.a.sp.issued, s.cycle, [], stage⟩],
             nextOp := g.nextOp + 1 }

/-- A class V operation that is performed. -/
def retireV (s : State) (i : Iss) (ws : List (Nat × Word)) : State := outstanding s i ws .done false false

/-- A class V operation whose access faulted (R369). -/
def faultV (s : State) (i : Iss) (t : TrapRec) : State := outstanding s i [] (.faulted t) false false

/-- Words written to a v block of a lane. -/
def vWrites (lane r n x : Nat) : List (Nat × Word) := (rangeFrom (vKey lane r) n).zip (natWords n x)
/-- Words written to an s block. -/
def sWrites (r n x : Nat) : List (Nat × Word) := (rangeFrom (sKey r) n).zip (natWords n x)
/-- A predicate's register word. -/
def boolWord (b : Bool) : Word := if b then 1 else 0
/-- A lane predicate written. -/
def pWrite (lane k : Nat) (b : Bool) : Nat × Word := (pKey lane k, boolWord b)
/-- A uniform predicate written. -/
def qWrite (k : Nat) (b : Bool) : Nat × Word := (qKey k, boolWord b)

/-- A lane's generator set. -/
def setLg (s : State) (gid lane : Nat) (x : Dword) : State :=
  modGroup s gid fun g => { g with lg := mput 0 g.lg lane x }

/-- What one lane of an arithmetic instruction reads. -/
structure LaneIn where
  a  : Nat
  b  : Nat
  c  : Nat
  pa : Bool
  pb : Bool
  pc : Bool
  lg : Dword

/-- What one lane computes: the destination and the generator. -/
structure LaneOut where
  d  : Nat
  lg : Dword

/-- The sources of a lane. -/
def laneIn (s : State) (i : Iss) (lane : Nat) : LaneIn where
  a := srcA s i.a i.f i.e lane
  b := srcB s i.a i.f i.e lane
  c := srcC s i.a i.f i.e lane
  pa := predField s i.a i.f.uni lane (i.e.a.toNat % 8)
  pb := predField s i.a i.f.uni lane (i.e.b.toNat % 8)
  pc := predField s i.a i.f.uni lane (i.e.m.c.toNat % 8)
  lg := readLg i.a.g lane

/-- The destination writes of a result, by the role of D: registers, predicates. -/
def destWrites (i : Iss) (lane d : Nat) : List (Nat × Word) × List (Nat × Word) :=
  match i.f.d i.e i.a.sp.fmt with
  | .vd n => (vWrites lane i.e.d.toNat n d, [])
  | .ud n => (sWrites i.e.d.toNat n d, [])
  | .pd => ([], [if i.f.uni then qWrite i.e.d.toNat (d != 0) else pWrite lane i.e.d.toNat (d != 0)])
  | _ => ([], [])

/-- What b1 receives of `lanes` from an instruction that writes no register (a predicate, or nothing): the spec names no
value, and the model's choice is a free one (R24, R190, log 47). -/
def freeLatch (s : State) (lanes : List Nat) : SMap Word := lanes.map fun l => (l, Config.freeWord s.fresh l)

/-- The effect of a class A, F or D lane instruction: one function of each participant's sources. What b1 receives from one that
writes no register is free (log 47). -/
def laneEffect (fn : State → Iss → LaneIn → LaneOut) (i : Iss) (s : State) : State :=
  let ls := participants s i.a i.e
  let outs := ls.map fun l => (l, fn s i (laneIn s i l))
  let ws := outs.map fun o => destWrites i o.1 o.2.d
  let s1 := outs.foldl (fun acc o => setLg acc i.a.gid o.1 o.2.lg) s
  let isReg := match i.f.d i.e i.a.sp.fmt with | .vd _ => true | _ => false
  retire s1 i (ws.flatMap Prod.fst) (ws.flatMap Prod.snd)
    (if isReg then outs.map fun o => (o.1, BitVec.ofNat 32 o.2.d) else freeLatch s ls)

/-- The effect of a uniform instruction of class A, F or D: the same function, once for the split; the generator is that
of its lowest-numbered active lane (R274, R275). -/
def uniEffect (fn : State → Iss → LaneIn → LaneOut) (i : Iss) (s : State) : State :=
  if uniGuard s i.a i.e then
    let l := lowLane i.a.sp.active
    let o := fn s i (laneIn s i l)
    let w := destWrites i l o.d
    let isReg := match i.f.d i.e i.a.sp.fmt with | .ud _ => true | _ => false
    retire (setLg s i.a.gid l o.lg) i w.1 w.2
      (if isReg then (List.range 32).map fun x => (x, BitVec.ofNat 32 o.d) else freeLatch s (List.range 32))
  else retire s i [] [] []

/-- The meaning of a lane arithmetic instruction. -/
def execLane (f : Form) (fn : State → Iss → LaneIn → LaneOut) (e : Enc) (s : State) : Res :=
  issue f e s (laneEffect fn)

/-- The meaning of a uniform arithmetic instruction. -/
def execUni (f : Form) (fn : State → Iss → LaneIn → LaneOut) (e : Enc) (s : State) : Res :=
  issue f e s (uniEffect fn)

end Sys2Proof.Machine
end

