-- ==== Sys2Proof/Machine/Splits.lean ====
section
/-!
DEFINITION. Splits and the reconvergence stack (R13 to R17), and the end of lanes (R29, R285).
-/

namespace Sys2Proof.Machine

/-- `a` lies within `b`. -/
def maskIn (a b : Word) : Bool := a &&& ~~~b == 0

/-- The number of lanes of a mask. -/
def laneCount (w : Word) : Nat := (lanesOf w).length

/-- The innermost open entry of a split: the smallest mask that contains its lanes (R14, R15). -/
def innermost (g : Group) (active : Word) : Option (Nat × Entry) :=
  g.entries.foldl (fun acc e =>
    if maskIn active e.2.mask then
      match acc with
      | some b => if laneCount e.2.mask < laneCount b.2.mask then some e else acc
      | none => some e
    else acc) none

/-- A free slot of the 32-entry stack (R14). -/
def freeEntry (g : Group) : Option Nat := (List.range 32).find? fun i => !mhas g.entries i

/-- The lane of a lane-private register key. -/
def keyLane (key : Nat) : Option Nat :=
  if key < 8192 then some (key / 256)
  else if 8320 ≤ key ∧ key < 8576 then some ((key - 8320) / 8)
  else none

/-- The windows that concern the lanes of a mask, or no one lane. -/
def staleFor (m : Word) (es : List Stale) : List Stale :=
  es.filter fun e => match keyLane e.loc with | some l => m.getLsbD l | none => true

/-- Windows that a new split inherits: other splits read the writer's own (R21). -/
def copyStale (es : List Stale) : List Stale := es.map fun e => { e with cov := copyCov }

/-- A window put in its place in issue order (R18): `uid` grows with it. -/
def insertStale (e : Stale) (es : List Stale) : List Stale :=
  match es with
  | [] => [e]
  | f :: r => if e.uid < f.uid then e :: f :: r else f :: insertStale e r

/-- A split of age `new` knows the writes that split `x` made or is ordered after (R21). -/
def knowAs (x : Split) (new : Nat) (y : Split) : Split :=
  { y with stale := y.stale.map fun e =>
      if e.known.contains x.age || x.stale.any (sameWrite e) then { e with known := new :: e.known } else e }

/-- A two-way divergence of split `k` (R14): the lanes of `taken` go to `target`. Nothing happens with 32 entries in
use; the branch has trapped before. -/
def diverge (s : State) (gid k : Nat) (taken target : Word) : State :=
  modGroup s gid fun g =>
    match g.splits[k]?, freeEntry g with
    | some x, some slot =>
      let rejoin := match x.pend with
        | some r => some r
        | none => (innermost g x.active).bind fun e => e.2.rejoin
      let spare := g.splits.length < 4
      let keep := x.active &&& ~~~taken
      let e : Entry := ⟨x.active, rejoin, x.fmt, target, if spare then 0 else taken, none⟩
      let x' := { x with active := keep, pend := none, stale := if spare then staleFor keep x.stale else x.stale }
      let y := { x with pc := target, active := taken, pend := none, stale := copyStale (staleFor taken x.stale),
                        age := g.nextAge, traps := [], chain := 0, readyAt := none, promoted := false, ceded := false }
      { g with entries := mset g.entries slot e
               splits := if spare then (g.splits.set k x').map (knowAs x g.nextAge) ++ [y] else g.splits.set k x'
               nextAge := if spare then g.nextAge + 1 else g.nextAge }
    | _, _ => g

/-- A split is parked at its rejoin point. -/
def atRejoin (x : Split) : Bool := x.park == .rejoin

/-- Entry `i` is complete (R15): nothing deferred, no entry inside it, and every split inside it parked there. -/
def entryDone (g : Group) (i : Nat) (e : Entry) : Bool :=
  e.deferred == 0
  && (g.entries.all fun f => f.1 == i || !maskIn f.2.mask e.mask)
  && (g.splits.all fun x => !maskIn x.active e.mask || x.active == 0 || atRejoin x)

/-- A window moved from a split's nominal clock to another's. -/
def rebase (x : Split) (now : Nat) : List Stale := x.stale.map fun e => { e with due := now + (e.due - x.now) }

/-- The windows of merged splits (R17), in issue order: of a register that no one lane owns, those of the path with the smallest
distance. -/
def mergeStale (xs : List Split) (now : Nat) : List Stale :=
  xs.foldl (fun acc x =>
    (rebase x now).foldl (fun acc2 e =>
      match acc2.find? (sameWrite e) with
      | some f =>
        let cov := if f.cov.testBit 13 then e.cov else f.cov
        acc2.map fun h => if h == f then { (if f.due < e.due then e else f) with cov } else h
      | none => insertStale e acc2) acc) []

/-- Frees a complete entry: its splits become one, without the exited lanes (R15). Where every lane left waits in the entry,
the split that has ended inside it, `base`, gives what the entry does not record. A rejoin address that a split had pending is
dropped (R15 does not say; log 60). -/
def completeEntry (base : Split) (g : Group) (i : Nat) (e : Entry) : Group :=
  let inside := g.splits.filter fun x => maskIn x.active e.mask && x.active != 0
  let rest := g.splits.filter fun x => !(maskIn x.active e.mask && x.active != 0)
  let live := e.mask &&& ~~~g.exited
  let outer := g.handler.any fun h => h.slots.contains i
  let from_ := if inside.isEmpty then
      [{ base with stale := staleFor live base.stale, traps := [], handler := base.handler && !outer }]
    else inside
  let now := from_.foldl (fun m x => max m x.now) 0
  let issued := from_.foldl (fun m x => max m x.issued) 0
  let ages := e.age.toList ++ from_.map (·.age)
  let age := ages.foldl min (ages.headD 0)
  let merged : Split :=
    { from_.headD base with
      pc := e.rejoin.getD 0, active := live, fmt := e.fmt, pend := none, park := .none, now
      stale := mergeStale from_ now, age, issued, chain := 0, readyAt := none, promoted := false, ceded := false
      lastIssue := from_.foldl (fun m x => match m, x.lastIssue with
        | some a, some b => some (max a b) | none, b => b | a, none => a) none
      stop := (from_.filterMap (·.stop)).head?
      stopped := from_.any (·.stopped)
      traps := from_.flatMap fun x => x.traps.map fun t => { t with since := issued - (x.issued - t.since) } }
  let know (x : Split) : Split := from_.foldl (fun y m => knowAs m age y) x
  { g with
    entries := mdel g.entries i
    splits := if live = 0 then rest else rest.map know ++ [merged]
    ops := g.ops.map fun o =>
      match inside.find? (·.age == o.split) with
      | some x => { o with split := age, at_ := issued - (x.issued - o.at_) }
      | none => o }

/-- Completes every entry that is complete. -/
def settleEntries (n : Nat) (base : Split) (g : Group) : Group :=
  match n with
  | 0 => g
  | k + 1 =>
    match g.entries.find? fun e => entryDone g e.1 e.2 with
    | some e => settleEntries k base (completeEntry base g e.1 e.2)
    | none => g

/-- Split `k` has reached the rejoin point of its innermost open entry (R15). -/
def atRejoinPoint (g : Group) (x : Split) : Bool :=
  match innermost g x.active with
  | some e => e.2.rejoin == some x.pc
  | none => false

/-- R15 at a rejoin point: take the deferred lanes, or park and merge. A hold chain that reaches it ends there (log 48); a split
that takes deferred lanes keeps its pending rejoin address (log 60). -/
def reachRejoin (s : State) (gid k : Nat) : State :=
  modGroup s gid fun g =>
    match g.splits[k]? with
    | none => g
    | some x =>
      match innermost g x.active with
      | none => g
      | some (i, e) =>
        if e.deferred ≠ 0 then
          { g with splits := g.splits.set k { x with active := e.deferred, pc := e.resume, chain := 0 }
                   entries := mset g.entries i { e with deferred := 0, age := some x.age } }
        else settleEntries 33 x { g with splits := g.splits.set k { x with park := .rejoin, chain := 0 } }

/-- The lanes that wait in entry `i` for its merge and belong to no split other than `k` (R15). -/
def waitingLanes (g : Group) (i : Nat) (e : Entry) (k : Nat) : Word :=
  let others := ((g.splits.eraseIdx k).filter fun x => maskIn x.active e.mask).foldl (fun m x => m ||| x.active) 0
  let inner := (g.entries.filter fun f => f.1 != i && maskIn f.2.mask e.mask).foldl (fun m f => m ||| f.2.mask) 0
  e.mask &&& ~~~g.exited &&& ~~~others &&& ~~~inner

/-- A trap that waited at a split (R369) when its group was `g0` and waits at none now. -/
def orphanTrap (g0 g : Group) : Option TrapRec :=
  ((g0.splits.flatMap (·.traps)).find? fun t => g.splits.all fun x => x.traps.all fun u => u.cause != t.cause).map (·.cause)

/-- The handler split as it goes on with lanes of an entry that was open at handler entry: it is the trapped split again
(R368). -/
def leaveFor (h : Option Handler) (i : Nat) (x : Split) : Split :=
  match h with
  | some h => if x.handler && h.slots.contains i then { x with handler := false, fmt := h.fmt, pend := h.pend } else x
  | none => x

/-- Lanes of split `k` end (R29, R285): a split without lanes takes deferred lanes of its innermost entry, or ends. A
trap that waits for its stop point when its split ends is resolved at task level. -/
def exitLanes (s : State) (gid k : Nat) (lanes : Word) : State :=
  let s1 := modGroup s gid fun g =>
    match g.splits[k]? with
    | none => g
    | some x =>
      let gone := x.active &&& lanes
      let left := x.active &&& ~~~lanes
      let g1 := { g with exited := g.exited ||| gone }
      if left ≠ 0 then { g1 with splits := g.splits.set k { x with active := left } }
      else
        match innermost g x.active with
        | some (i, e) =>
          let y := leaveFor g.handler i x
          if e.deferred ≠ 0 then
            { g1 with splits := g.splits.set k { y with active := e.deferred, pc := e.resume, chain := 0 }
                      entries := mset g.entries i { e with deferred := 0 } }
          else
            let wait := waitingLanes g1 i e k
            settleEntries 33 x (if wait = 0 then { g1 with splits := g.splits.eraseIdx k }
              else { g1 with splits := g.splits.set k { y with active := wait, park := .rejoin, chain := 0 } })
        | none => { g1 with splits := g.splits.eraseIdx k }
  let g := getGroup s1 gid
  let s2 := match orphanTrap (getGroup s gid) g with
    | some t => let tm := getTeam s1 (teamKey gid); trapTask s1 tm.part tm.tid t
    | none => s1
  if g.handler.isSome && !(g.splits.any (·.handler)) then leaveHandler s2 gid else s2

end Sys2Proof.Machine
end

