-- ==== Sys2Proof/Machine/Place.lean ====
section
/-!
DEFINITION. A program placed from outside (log 4): one partition, its page tables, one task with one team of one group
on core 0, and an instruction's bytes at the start of its code object.
-/

namespace Sys2Proof.Machine

/-- The first-stage leaf of the code page: V, L, RES, R, W, WT, frame 0. -/
def placeLeaf : Nat := 0x1F + (1 <<< 54)

/-- The bytes that hold the page tables and the code. Host physical memory equals guest physical memory here: code at
0, tables at 0x10000 (levels 1 to 4, 0x4000 apart), the second-stage array at 0x100000. -/
def placeMem (code : List Byte) : Memory :=
  let m := writeBytes [] 0 code
  let m := writeBytes m 0x10000 (leBytes 8 (0x14000 + 1))
  let m := writeBytes m 0x14000 (leBytes 8 (0x18000 + 1))
  let m := writeBytes m 0x18000 (leBytes 8 (0x1C000 + 1))
  let m := writeBytes m 0x1C000 (leBytes 8 placeLeaf)
  writeBytes m 0x100000 (leBytes 8 7)

/-- The partition: enabled, with one granule of each kind. -/
def placePart : Partition :=
  { Partition.reset with
    en := true, cg := 1, sg := 1, hg := 1, troot := 0x10000, s2base := 0x100000, trootReg := 0x10000,
    s2Reg := 0x100000,
    nextTid := 2, gbars := (rangeFrom 2 5).map fun k => ⟨1, k, 0, 32, false, 0⟩,
    window := [{ Task.empty with
      tid := 1, st := .released, admitted := 1,
      hdr := some { Header.empty with
        quota := 32, spread := 4, col := 6, hnd := true, scr := 1, widths := [5, 0, 0, 0, 0, 0], exts := [32, 1, 1, 1, 1, 1],
        code := 0, clen := 16 } }] }

/-- The team: one group, 4 KiB of scratchpad. -/
def placeTeam : Team :=
  { Team.empty with tid := 1, ngrp := 1, spread := 4, scrsize := 4096 }

/-- The group at its entry state (R12), its generators seeded from seed 0 (R47). -/
def placeGroup : Group :=
  { Group.empty with
    quota := 32, splits := [{ Split.empty with active := 0xFFFFFFFF#32 }], nextAge := 1
    lg := (List.range 32).map fun l => (l, seedLane 0 (BitVec.ofNat 64 l)) }

/-- The state with an instruction's bytes where the next step fetches. Whatever else could act first is taken away. -/
def placeCode (s : State) (code : List Byte) : State :=
  { s with
    agenda := [], cur := none, mem := placeMem code, own := [], si := [], tlb := [], poison := [],
    cores := [], teams := [(0, placeTeam)], groups := [(0, placeGroup)], parts := [(0, placePart)], pools := [],
    mgmt := { s.mgmt with fatal := false, mig := none, reqs := [], resizes := [], down := [], throttle := 0, temp := 0 } }

end Sys2Proof.Machine
end

