-- ==== Sys2Proof/Machine/Ctl.lean ====
section
/-!
DEFINITION. Branches and splits (R279 to R285): BRA BRL BRX RJN CALL RET LOOPN EXIT NOP.
-/

namespace Sys2Proof.Machine

/-- An instruction with a trap of its own that stops the split before it, without any effect (R279, R282, R305, R307). In a
hold chain that goes on, a trap other than ENC waits for its end (R182). -/
def issueChecked (f : Form) (e : Enc) (s : State) (chk : State → Iss → Option TrapRec) (eff : Iss → State → State) : Res :=
  match gate f e s with
  | .noIssuer => .fault .noIssuer
  | .still s' => .next s'
  | .go s1 i =>
    match chk s1 i with
    | some t =>
      if i.e.ctl.hold && t.group != 1 then .next (raiseInChain (retireN s1 i) i t)
      else .next (takeTrap { s with fresh := s1.fresh } i.a.gid i.a.k t i.pc)
    | none => .next (eff i s1)

/-- The target of form G-J (R172). -/
def jumpTarget (i : Iss) : Word := i.pc + BitVec.ofInt 32 (4 * i.e.offset)

/-- The split goes on at an offset. -/
def jumpTo (s : State) (i : Iss) (target : Word) : State := modSplit s i.a.gid i.a.k fun x => { x with pc := target }

/-- SYNC, STACK (R14, R282, R365). -/
def stackTrap (i : Iss) : TrapRec := ⟨5, 1, i.a.sp.active, BitVec.ofNat 32 i.a.g.entries.length, i.loc⟩

/-- The active lanes for which JG is true. -/
def jgLanes (s : State) (i : Iss) : List Nat :=
  (lanesOf i.a.sp.active).filter fun l => guardHolds i.e.jg (readP s i.a l)

/-- The branch diverges: its active lanes disagree (R14). -/
def jgSplits (s : State) (i : Iss) : Bool :=
  i.e.jg != 0 && (let t := maskOf (jgLanes s i); t != 0 && t != i.a.sp.active)

/-- BRA's trap: a divergence with every entry in use. -/
def braCheck (s : State) (i : Iss) : Option TrapRec :=
  if uniGuard s i.a i.e && jgSplits s i && (freeEntry i.a.g).isNone then some (stackTrap i) else none

/-- The effect of BRA (R280). -/
def braEffect (i : Iss) (s : State) : State :=
  let t := maskOf (jgLanes s i)
  let s1 := if !uniGuard s i.a i.e then s
    else if jgSplits s i then diverge s i.a.gid i.a.k t (jumpTarget i)
    else if i.e.jg = 0 ∨ t ≠ 0 then jumpTo s i (jumpTarget i)
    else s
  retireN s1 i

/-- BRA (R280). -/
def execBra (e : Enc) (s : State) : Res := issueChecked formBra e s braCheck braEffect

/-- The effect of BRL (R281): MODE M[8]. -/
def brlEffect (i : Iss) (s : State) : State :=
  let v := maskOf (jgLanes s i)
  let jump := if i.e.M 8 8 = 1 then v == i.a.sp.active else v != 0
  retireN (if uniGuard s i.a i.e && jump then jumpTo s i (jumpTarget i) else s) i

/-- BRL (R281). -/
def execBrl (e : Enc) (s : State) : Res := issue formBrl e s brlEffect

/-- MEM, FETCH at a branch (R279, R366). -/
def targetTrap (i : Iss) (lane : Nat) (t : Word) : TrapRec := ⟨2, 7, t, BitVec.ofNat 32 (lane * 2 ^ 20), i.loc⟩

/-- The target of each active lane of BRX.lane. -/
def brxTargets (s : State) (i : Iss) : List (Nat × Word) :=
  (lanesOf i.a.sp.active).map fun l => (l, BitVec.ofNat 32 (srcA s i.a i.f i.e l))

/-- A sorted list with one more element, kept once. -/
def insertOnce (x : Nat) (xs : List Nat) : List Nat :=
  match xs with
  | [] => [x]
  | y :: r => if x < y then x :: y :: r else if x = y then y :: r else y :: insertOnce x r

/-- The distinct targets, ascending. -/
def distinctTargets (ts : List (Nat × Word)) : List Nat := ts.foldl (fun acc t => insertOnce t.2.toNat acc) []

/-- The uniform target. -/
def uniTarget (s : State) (i : Iss) : Word := BitVec.ofNat 32 (srcA s i.a i.f i.e (lowLane i.a.sp.active))

/-- BRX's traps: a target with low bits set, then the stack (R279, R282): LANE M[8]. -/
def brxCheck (s : State) (i : Iss) : Option TrapRec :=
  if !uniGuard s i.a i.e then none
  else if i.e.M 8 8 = 0 then
    if (uniTarget s i).toNat % 4 ≠ 0 then some (targetTrap i 0 (uniTarget s i)) else none
  else
    let ts := brxTargets s i
    match ts.find? fun t => t.2.toNat % 4 != 0 with
    | some t => some (targetTrap i t.1 t.2)
    | none =>
      if (distinctTargets ts).length - 1 + i.a.g.entries.length > 32 then some (stackTrap i) else none

/-- The series of divergences of BRX.lane (R282). -/
def brxDiverge (s : State) (i : Iss) (ts : List (Nat × Word)) (ds : List Nat) : State :=
  match ds with
  | [] => s
  | [t] => jumpTo s i (BitVec.ofNat 32 t)
  | t :: rest =>
    let lanes := (ts.filter fun x => x.2.toNat == t).map Prod.fst
    brxDiverge (diverge s i.a.gid i.a.k (maskOf lanes) (BitVec.ofNat 32 t)) i ts rest

/-- The effect of BRX (R282). -/
def brxEffect (i : Iss) (s : State) : State :=
  let s1 := if !uniGuard s i.a i.e then s
    else if i.e.M 8 8 = 0 then jumpTo s i (uniTarget s i)
    else
      let ts := brxTargets s i
      brxDiverge s i ts (distinctTargets ts)
  retireN s1 i

/-- BRX (R282). -/
def execBrx (e : Enc) (s : State) : Res := issueChecked formBrx e s brxCheck brxEffect

/-- The effect of RJN (R13, R283). -/
def rjnEffect (i : Iss) (s : State) : State :=
  retireN (if uniGuard s i.a i.e then
    modSplit s i.a.gid i.a.k fun x => { x with pend := some (jumpTarget i) } else s) i

/-- RJN (R283). -/
def execRjn (e : Enc) (s : State) : Res := issue formRjn e s rjnEffect

/-- A class A result in an s register, seen by the latches in every lane position (R24). -/
def retireS (s : State) (i : Iss) (r : Nat) (v : Word) : State :=
  retire s i (sWrites r 1 v.toNat) [] ((List.range 32).map fun l => (l, v))

/-- The effect of CALL (R283): the offset of the instruction that follows. -/
def callEffect (i : Iss) (s : State) : State :=
  if uniGuard s i.a i.e then jumpTo (retireS s i 127 i.a.sp.pc) i (jumpTarget i) else retire s i [] [] []

/-- CALL (R283). -/
def execCall (e : Enc) (s : State) : Res := issue formCall e s callEffect

/-- RET's trap. -/
def retCheck (s : State) (i : Iss) : Option TrapRec :=
  if uniGuard s i.a i.e && (uniTarget s i).toNat % 4 != 0 then some (targetTrap i 0 (uniTarget s i)) else none

/-- The effect of RET (R283). -/
def retEffect (i : Iss) (s : State) : State :=
  retireN (if uniGuard s i.a i.e then jumpTo s i (uniTarget s i) else s) i

/-- RET (R283). -/
def execRet (e : Enc) (s : State) : Res := issueChecked formRet e s retCheck retEffect

/-- The effect of LOOPN (R284): the counter is an s register named by C. -/
def loopnEffect (i : Iss) (s : State) : State :=
  if uniGuard s i.a i.e then
    let r := i.e.m.c.toNat
    let n := uniWord s i.a r - 1
    let s1 := retireS s i r n
    if n ≠ 0 then jumpTo s1 i (jumpTarget i) else s1
  else retire s i [] [] []

/-- LOOPN (R284). -/
def execLoopn (e : Enc) (s : State) : Res := issue formLoopn e s loopnEffect

/-- The lanes that EXIT names (R285): LP M[11:8]. -/
def exitMask (s : State) (i : Iss) : Word :=
  maskOf ((lanesOf i.a.sp.active).filter fun l => guardHolds (i.e.M 11 8) (readP s i.a l))

/-- The effect of EXIT (R285). -/
def exitEffect (i : Iss) (s : State) : State :=
  let m := exitMask s i
  let s1 := retireN s i
  if uniGuard s i.a i.e && m != 0 then exitLanes s1 i.a.gid i.a.k m else s1

/-- EXIT (R285). -/
def execExit (e : Enc) (s : State) : Res := issue formExit e s exitEffect

/-- NOP (R285). -/
def execNop (e : Enc) (s : State) : Res := issue formNop e s fun i s => retireN s i

end Sys2Proof.Machine
end

