-- ==== Sys2Proof/Machine/Flags.lean ====
section
/-!
DEFINITION. Comparisons, joined predicates and truth tables (R179, R192, R197, R198). The D7 has no condition flags: a
comparison writes a predicate. The completion flags f0 to f11 (R20) are counted by the frame of issue in Ops.lean.
-/

namespace Sys2Proof.Machine

/-- An integer comparison (R179): codes 0 to 5. -/
def icompare (c : Nat) (x y : Int) : Bool :=
  match c with
  | 0 => x == y
  | 1 => x != y
  | 2 => decide (x < y)
  | 3 => decide (x ≤ y)
  | 4 => decide (y < x)
  | _ => decide (y ≤ x)

/-- A result joined with the combining predicate (R192, R198). -/
def joinPred (pj : Nat) (r q : Bool) : Bool :=
  match pj with
  | 0 => r
  | 1 => r && q
  | 2 => r || q
  | _ => r != q

/-- A truth table of three bits (R197, R198). -/
def tabBit (tab : Nat) (a b c : Bool) : Bool :=
  tab.testBit (4 * a.toNat + 2 * b.toNat + c.toNat)

end Sys2Proof.Machine
end

