-- ==== Sys2Proof/Machine/Fp.lean ====
section
/-!
DEFINITION. Floating-point arithmetic, conversion, complex arithmetic and the Ochre operations of the lane set (R200 to
R207), and SFFMA and SCVT (R275).
-/

namespace Sys2Proof.Machine

/-- FT of the instruction (R193). -/
def ftOf (i : Iss) : Nat := i.e.M 9 8
/-- NA. -/
def naBit (i : Iss) : Bool := i.e.M 10 10 == 1
/-- NB. -/
def nbBit (i : Iss) : Bool := i.e.M 11 11 == 1

/-- Element `k` of an FT operand (R193). -/
def elemOf (ft k p : Nat) : Nat := if ft ≤ 1 then p else p / 2 ^ (16 * k) % 2 ^ 16

/-- A function of each element, element 0 first (R193). -/
def ftMap (ft : Nat) (fn : Nat → Dword → Nat × Dword) (lg : Dword) : LaneOut :=
  let r0 := fn 0 lg
  if ft ≤ 1 then ⟨r0.1, r0.2⟩
  else
    let r1 := fn 1 r0.2
    ⟨r0.1 + 2 ^ 16 * r1.1, r1.2⟩

/-- The sign bit of a pattern inverted (R192). -/
def flipSign (code p : Nat) : Nat :=
  let top := 2 ^ ((ffOf code).bits - 1)
  if p / top % 2 = 1 then p - top else p + top

/-- A pattern after NA, NB or NC and the flush of R43. -/
def fpPat (rc : RCtx) (ft : Nat) (neg : Bool) (p : Nat) : Nat := flushIn rc.ftz ft (if neg then flipSign ft p else p)

/-- The value of an element of an operand, after its sign modifier and the flush. -/
def fpVal (rc : RCtx) (ft k : Nat) (neg : Bool) (p : Nat) : XVal := fval ft (fpPat rc ft neg (elemOf ft k p))

/-- FADD. -/
def opFadd (s : State) (i : Iss) (x : LaneIn) : LaneOut :=
  let rc := rctx s i.a (i.e.M 15 13)
  ftMap (ftOf i) (fun k g => roundTo rc (ftOf i)
    (exactSum rc.mode [fpVal rc (ftOf i) k (naBit i) x.a, fpVal rc (ftOf i) k (nbBit i) x.b]) g) x.lg
/-- FMUL. -/
def opFmul (s : State) (i : Iss) (x : LaneIn) : LaneOut :=
  let rc := rctx s i.a (i.e.M 15 13)
  ftMap (ftOf i) (fun k g => roundTo rc (ftOf i)
    (xprod rc.mode (fpVal rc (ftOf i) k (naBit i) x.a) (fpVal rc (ftOf i) k (nbBit i) x.b)) g) x.lg
/-- FFMA: NC at M[12]. -/
def opFfma (s : State) (i : Iss) (x : LaneIn) : LaneOut :=
  let rc := rctx s i.a (i.e.M 15 13)
  ftMap (ftOf i) (fun k g => roundTo rc (ftOf i)
    (exactSum rc.mode [xmul (fpVal rc (ftOf i) k (naBit i) x.a) (fpVal rc (ftOf i) k (nbBit i) x.b),
      fpVal rc (ftOf i) k (i.e.M 12 12 == 1) x.c]) g) x.lg

/-- FMIN and FMAX of two flushed patterns (R201). -/
def fminmax (code : Nat) (max nanp : Bool) (a b : Nat) : Nat :=
  let va := fval code a
  let vb := fval code b
  if va == .nan && vb == .nan then canonNan code
  else if va == .nan || vb == .nan then (if nanp then canonNan code else if va == .nan then b else a)
  else if (if max then xltTotal va vb else xltTotal vb va) then b else a

/-- FMIN and FMAX of an instruction. -/
def opMinmax (max : Bool) (s : State) (i : Iss) (x : LaneIn) : LaneOut :=
  let rc := rctx s i.a 0
  ftMap (ftOf i) (fun k g => (fminmax (ftOf i) max (i.e.M 16 16 == 1)
    (fpPat rc (ftOf i) (naBit i) (elemOf (ftOf i) k x.a)) (fpPat rc (ftOf i) (nbBit i) (elemOf (ftOf i) k x.b)), g)) x.lg

/-- FCMP: CMP M[19:16], PJ M[21:20], NCP M[22]; element 0 only (R202). -/
def opFcmp (s : State) (i : Iss) (x : LaneIn) : LaneOut :=
  let rc := rctx s i.a 0
  let r := fcompare (i.e.M 19 16) (fpVal rc (ftOf i) 0 (naBit i) x.a) (fpVal rc (ftOf i) 0 (nbBit i) x.b)
  ⟨(joinPred (i.e.M 21 20) r (x.pc != (i.e.M 22 22 == 1))).toNat, x.lg⟩

/-- The class bit of a pattern (R203). -/
def fclassBit (code p : Nat) : Nat :=
  match fval code p with
  | .nan => 8
  | .inf s => if s then 0 else 7
  | .fin s m _ _ =>
    if m = 0 then (if s then 3 else 4)
    else if isSubnormal code p then (if s then 2 else 5)
    else (if s then 1 else 6)

/-- FCLASS. -/
def opFclass (_ : State) (i : Iss) (x : LaneIn) : LaneOut :=
  ftMap (ftOf i) (fun k g => (2 ^ fclassBit (ftOf i) (elemOf (ftOf i) k x.a), g)) x.lg

/-- A value scaled by 2^k. A scale beyond every format's range acts as the end of the range. -/
def xscale (k : Int) (x : XVal) : XVal :=
  match x with
  | .fin n m e st => .fin n m (e + max (-5000) (min 5000 k)) st
  | y => y

/-- FSCALE. The multiplication's other operand, 2^k, is positive, which fixes the sign of a zero (R41). -/
def opFscale (s : State) (i : Iss) (x : LaneIn) : LaneOut :=
  let rc := rctx s i.a (i.e.M 15 13)
  ftMap (ftOf i) (fun k g =>
    let n : Int := if ftOf i ≤ 1 then asInt 32 true x.b else asInt 16 true (elemOf (ftOf i) k x.b)
    roundTo rc (ftOf i) (zeroSign rc.mode (xscale n (fpVal rc (ftOf i) k false x.a))) g) x.lg

/-- FRND. -/
def opFrnd (s : State) (i : Iss) (x : LaneIn) : LaneOut :=
  let rc := rctx s i.a (i.e.M 15 13)
  ftMap (ftOf i) (fun k g =>
    let st := if rc.mode = 5 then genStep g else (g, 0)
    (frndPattern rc.mode (ftOf i) st.2 (fpVal rc (ftOf i) k false x.a), st.1)) x.lg

/-- CVT (R204): SRC M[12:8], DST M[17:13], RMO M[20:18]; a complex pair converts part by part. -/
def opCvt (s : State) (i : Iss) (x : LaneIn) : LaneOut :=
  let rc := rctx s i.a (i.e.M 20 18)
  let src := i.e.M 12 8
  let dst := i.e.M 17 13
  if src = 12 ∨ src = 13 then
    let sw := if src = 12 then 32 else 64
    let dw := if dst = 12 then 32 else 64
    let re := cvtReal rc (cmpaTab s i.a) (src - 12) (dst - 12) (x.a % 2 ^ sw) x.lg
    let im := cvtReal rc (cmpaTab s i.a) (src - 12) (dst - 12) (x.a / 2 ^ sw) re.2
    ⟨re.1 + 2 ^ dw * im.1, im.2⟩
  else
    let r := cvtReal rc (cmpaTab s i.a) src dst x.a x.lg
    ⟨cvtFill dst r.1, r.2⟩

/-- Converts elements in ascending order: the results and the generator. -/
def cvtList (rc : RCtx) (cmpa : Option CTab) (src dst : Nat) (ps : List Nat) (lg : Dword) : List Nat × Dword :=
  match ps with
  | [] => ([], lg)
  | p :: r =>
    let x := cvtReal rc cmpa src dst p lg
    let y := cvtList rc cmpa src dst r x.2
    (x.1 :: y.1, y.2)

/-- PKN (R205): DF M[11:8], RMO M[15:13]. -/
def opPkn (s : State) (i : Iss) (x : LaneIn) : LaneOut :=
  let df := i.e.M 11 8
  let r := cvtList (rctx s i.a (i.e.M 15 13)) none 0 df (unpackBits 32 (pkN df) x.a) x.lg
  ⟨packBits (pkBits df) r.1, r.2⟩

/-- UPKN (R205): exact, so no generator step, unless the inverse map of CMPA is rounded. -/
def opUpkn (s : State) (i : Iss) (x : LaneIn) : LaneOut :=
  let df := i.e.M 11 8
  let ps := unpackBits (pkBits df) (pkN df) x.a
  let rc := rctx s i.a 0
  let r := if isNarrow df && fmtCMPA i.a.sp.fmt then cvtList rc (cmpaTab s i.a) df 0 ps x.lg
    else ((cvtList { rc with mode := 0 } none df 0 ps x.lg).1, x.lg)
  ⟨packBits 32 r.1, r.2⟩

/-- A component of a complex operand: real 0, imaginary 1; `cj` negates the imaginary part. -/
def cPart (rc : RCtx) (ft k : Nat) (cj : Bool) (p : Nat) : XVal :=
  let w := 32 * 2 ^ ft
  fval ft (fpPat rc ft (cj && k == 1) (p / 2 ^ (w * k) % 2 ^ w))

/-- The four fused steps of R55 for one complex product. -/
def cfmaSteps (rc : RCtx) (ft : Nat) (ar ai br bi : XVal) (cre cim : Nat) (lg : Dword) : Nat × Nat × Dword :=
  let fma (p : XVal) (c : Nat) (g : Dword) := roundTo rc ft (exactSum rc.mode [p, fval ft (flushIn rc.ftz ft c)]) g
  let r1 := fma (xmul ar br) cre lg
  let r2 := fma (xneg (xmul ai bi)) r1.1 r1.2
  let m1 := fma (xmul ar bi) cim r2.2
  let m2 := fma (xmul ai br) m1.1 m1.2
  (r2.1, m2.1, m2.2)

/-- CFMA: CW M[8], CJA M[9], CJB M[10], RMO M[15:13]. -/
def opCfma (s : State) (i : Iss) (x : LaneIn) : LaneOut :=
  let rc := rctx s i.a (i.e.M 15 13)
  let ft := i.e.M 8 8
  let w := 32 * 2 ^ ft
  let a (k : Nat) := cPart rc ft k (i.e.M 9 9 == 1) x.a
  let b (k : Nat) := cPart rc ft k (i.e.M 10 10 == 1) x.b
  let r := cfmaSteps rc ft (a 0) (a 1) (b 0) (b 1) (x.c % 2 ^ w) (x.c / 2 ^ w) x.lg
  ⟨r.1 + 2 ^ w * r.2.1, r.2.2⟩

/-- CMUL. -/
def opCmul (s : State) (i : Iss) (x : LaneIn) : LaneOut :=
  let rc := rctx s i.a (i.e.M 15 13)
  let ft := i.e.M 8 8
  let a (k : Nat) := cPart rc ft k (i.e.M 9 9 == 1) x.a
  let b (k : Nat) := cPart rc ft k (i.e.M 10 10 == 1) x.b
  let re := roundTo rc ft (exactSum rc.mode [xmul (a 0) (b 0), xneg (xmul (a 1) (b 1))]) x.lg
  let im := roundTo rc ft (exactSum rc.mode [xmul (a 0) (b 1), xmul (a 1) (b 0)]) re.2
  ⟨re.1 + 2 ^ (32 * 2 ^ ft) * im.1, im.2⟩

/-- FDP2: HF M[8]. -/
def opFdp2 (s : State) (i : Iss) (x : LaneIn) : LaneOut :=
  let rc := rctx s i.a (i.e.M 15 13)
  let hf := 2 + i.e.M 8 8
  let v (k p : Nat) := fpVal rc hf k false p
  let r := roundTo rc 0 (exactSum rc.mode
    [xmul (v 0 x.a) (v 0 x.b), xmul (v 1 x.a) (v 1 x.b), fpVal rc 0 0 false x.c]) x.lg
  ⟨r.1, r.2⟩

/-- FADD (R200). -/
def execFadd (e : Enc) (s : State) : Res := execLane formFadd opFadd e s
/-- FMUL (R200). -/
def execFmul (e : Enc) (s : State) : Res := execLane formFmul opFmul e s
/-- FFMA (R200). -/
def execFfma (e : Enc) (s : State) : Res := execLane formFfma opFfma e s
/-- FMIN (R201). -/
def execFmin (e : Enc) (s : State) : Res := execLane formFmin (opMinmax false) e s
/-- FMAX (R201). -/
def execFmax (e : Enc) (s : State) : Res := execLane formFmax (opMinmax true) e s
/-- FCMP (R202). -/
def execFcmp (e : Enc) (s : State) : Res := execLane formFcmp opFcmp e s
/-- FCLASS (R203). -/
def execFclass (e : Enc) (s : State) : Res := execLane formFclass opFclass e s
/-- FSCALE (R200). -/
def execFscale (e : Enc) (s : State) : Res := execLane formFscale opFscale e s
/-- FRND (R200). -/
def execFrnd (e : Enc) (s : State) : Res := execLane formFrnd opFrnd e s
/-- CVT (R204). -/
def execCvt (e : Enc) (s : State) : Res := execLane formCvt opCvt e s
/-- PKN (R205). -/
def execPkn (e : Enc) (s : State) : Res := execLane formPkn opPkn e s
/-- UPKN (R205). -/
def execUpkn (e : Enc) (s : State) : Res := execLane formUpkn opUpkn e s
/-- CFMA (R206). -/
def execCfma (e : Enc) (s : State) : Res := execLane formCfma opCfma e s
/-- CMUL (R206). -/
def execCmul (e : Enc) (s : State) : Res := execLane formCmul opCmul e s
/-- FDP2 (R206). -/
def execFdp2 (e : Enc) (s : State) : Res := execLane formFdp2 opFdp2 e s
/-- SFFMA (R275). -/
def execSffma (e : Enc) (s : State) : Res := execUni formSffma opFfma e s
/-- SCVT (R275). -/
def execScvt (e : Enc) (s : State) : Res := execUni formScvt opCvt e s

/-- The effect of a class V lane instruction that computes each participant's result at issue (R194, R208): the
destinations stay outstanding. -/
def laneEffectV (fn : State → Iss → LaneIn → LaneOut) (i : Iss) (s : State) : State :=
  let outs := (participants s i.a i.e).map fun l => (l, fn s i (laneIn s i l))
  let ws := outs.flatMap fun o => (destWrites i o.1 o.2.d).1
  retireV (outs.foldl (fun acc o => setLg acc i.a.gid o.1 o.2.lg) s) i ws

/-- An Ochre operation of one lane: FT M[9:8], RMO M[15:13]; the exact value rounded once (R207). -/
def opOchre (fn : Nat → XVal → XVal → XVal) (s : State) (i : Iss) (x : LaneIn) : LaneOut :=
  let rc := rctx s i.a (i.e.M 15 13)
  let r := roundTo rc (ftOf i) (fn rc.mode (fpVal rc (ftOf i) 0 false x.a) (fpVal rc (ftOf i) 0 false x.b)) x.lg
  ⟨r.1, r.2⟩

/-- FRCP (R207). -/
def execFrcp (e : Enc) (s : State) : Res := issue formFrcp e s (laneEffectV (opOchre fun _ a _ => xrcp a))
/-- FRSQ (R207). -/
def execFrsq (e : Enc) (s : State) : Res := issue formFrsq e s (laneEffectV (opOchre fun _ a _ => xrsq a))
/-- FSQRT (R207). -/
def execFsqrt (e : Enc) (s : State) : Res := issue formFsqrt e s (laneEffectV (opOchre fun _ a _ => xsqrt a))
/-- FDIV (R207). -/
def execFdiv (e : Enc) (s : State) : Res := issue formFdiv e s (laneEffectV (opOchre xdiv))
/-- FEXP2 (R207). -/
def execFexp2 (e : Enc) (s : State) : Res := issue formFexp2 e s (laneEffectV (opOchre fun _ a _ => xexp2 a))
/-- FLOG2 (R207): log2 1 is an exact zero (R41). -/
def execFlog2 (e : Enc) (s : State) : Res :=
  issue formFlog2 e s (laneEffectV (opOchre fun m a _ => zeroSign m (xlog2 a)))

end Sys2Proof.Machine
end

