-- ==== Sys2Proof/Machine/Access.lean ====
section
/-!
DEFINITION. One access to the byte space: its checks (R244, R354), what a read returns (R64, R71, R109, R152), where a
write goes (R64, R65, R72 to R76, R152, R159), scope records (R68, R106), poison (R374) and held accesses (R77, R359).
-/

namespace Sys2Proof.Machine

/-- The party that makes an access: partition, task, device core index, TLB tag, group if it is one, SRC of R366, and
L of the instruction it acts for, or the slot and sequence of a command of Umber (R364, R366). -/
structure Acc where
  p    : Nat
  tid  : Nat
  core : Nat
  team : Nat
  gid  : Option Nat
  src  : Nat
  w2   : Word
  deriving DecidableEq, Repr

/-- The party of an instruction. -/
def accOf (i : Iss) : Acc := ⟨i.a.tm.part, i.a.tm.tid, i.a.tm.core, teamKey i.a.gid, some i.a.gid, 0, i.loc⟩

/-- The party of an outstanding operation. -/
def accOfOp (s : State) (gid : Nat) (loc : Word) : Acc :=
  let tm := getTeam s (teamKey gid)
  ⟨tm.part, tm.tid, tm.core, teamKey gid, some gid, 0, loc⟩

/-- Word 1 of a MEM detail (R366). -/
def memWord1 (c : Acc) (lane : Nat) (wr : Bool) (va : Nat) : Word :=
  BitVec.ofNat 32 (bitsOf va 51 32 + (if c.src = 0 then lane else 0) * 2 ^ 20 + (if wr then 2 ^ 25 else 0) + c.src * 2 ^ 26)

/-- L of the instruction that a party acts for, all ones where it is none: a command of Umber (R364). -/
def Acc.instr (c : Acc) : Word := if c.src = 1 then 0xFFFFFFFF#32 else c.w2

/-- The trap of a failed access (R365, R366): MEM, PART or LINK. `g` is the physical address that PART and LINK name. Word 2 of
MEM is L, or the command's slot and sequence, and all ones for Carmine, Slate and Celadon. -/
def memTrap (c : Acc) (lane : Nat) (wr : Bool) (group code va g : Nat) : TrapRec :=
  match group with
  | 13 => ⟨13, code, BitVec.ofNat 32 (g / 64), BitVec.ofNat 32 (g / 2 ^ 33), c.instr⟩
  | 10 => ⟨10, code, BitVec.ofNat 32 (bitsOf g 49 44), BitVec.ofNat 32 g, c.instr⟩
  | k => ⟨k, code, BitVec.ofNat 32 va, memWord1 c lane wr va, if c.src ≥ 2 then 0xFFFFFFFF#32 else c.w2⟩

/-- What the checks of one access find. -/
inductive Chk where
  | ok (l : Leaf)
  | nonres
  | bad (t : TrapRec)
  deriving DecidableEq, Repr

/-- Steps 4 to 6 with the format rule of an instruction (R253) in step 5. -/
def leafGate (s : State) (p : Nat) (k : AccKind) (l : Leaf) (fmtOk : Leaf → Bool) : Option (Nat × Nat) :=
  match leafCheck s p k l with
  | some (2, 2) => some (2, 2)
  | some (2, 5) => some (2, 5)
  | r => if fmtOk l then r else some (2, 5)

/-- A page that takes every access. -/
def anyPage (_ : Leaf) : Bool := true

/-- The ports that work and lead to a device (R399). -/
def portsTo (s : State) (dev : Nat) : List Nat :=
  (List.range 12).filter fun p => Config.portDevice p == dev && !s.mgmt.badPorts.contains p

/-- Whether a target device takes a domain access (R398): its tables do, and a port to it remains (R399). -/
def domainTakes (s : State) (g : Nat) : Bool :=
  Config.remoteAccepts (bitsOf g 49 44) (g % 2 ^ 38) && !(portsTo s (bitsOf g 49 44)).isEmpty

/-- The bucket of a host physical address and its slice (R381); a bucket that has never moved is at the lowest slice. -/
def sliceOf (s : State) (p a : Nat) : Nat :=
  let b := a >>> 9
  let q := getPart s p
  mget q.slices ((b ^^^ (b >>> 12) ^^^ (b >>> 24)) % 4096) (4 * ((List.range 48).find? (bitOf q.sg)).getD 0)

/-- The bucket of a graph list in the controller map (R381), and the controller that it is homed at. -/
def listBucket (handle vertex dir : Nat) : Nat :=
  (handle * 2 ^ 33 + 2 * vertex + dir) * 0x9E3779B97F4A7C15 % 2 ^ 64 / 2 ^ 56

/-- The controller that a graph list is homed at (R381). -/
def ctrlOf (s : State) (p handle vertex dir : Nat) : Nat :=
  let q := getPart s p
  mget q.ctrls (listBucket handle vertex dir) (2 * ((List.range 32).find? (bitOf q.hg)).getD 0)

/-- A struck task may be restarted (R375). -/
def mayRestart (k : Task) : Bool :=
  k.card.ver && k.card.idem && !k.taint && k.settled.isEmpty && decide (k.restarts < 3)

/-- The fate of a struck task that is not restarted (R375). -/
def strikeFate (k : Task) (t : TrapRec) : Fate := ⟨3, { t with d2 := BitVec.ofNat 32 k.restarts }⟩

/-- A task is struck by an uncorrectable error (R156, R375): restarted, or killed. Without a fate a stopping task is
restarted once it has drained, unless it may not be any more; one that has not started has nothing to discard. A further strike while the task
stops for its restart is not counted (log 67). -/
def strikeTask (s : State) (p tid : Nat) (t : TrapRec) : State :=
  match findTask s p tid with
  | none => s
  | some k =>
    match k.st with
    | .released =>
      if mayRestart k then
        (groupsOf s p tid).foldl stopGroup
          (modTask s p tid fun x => { x with st := .stopping, fate := none, strike := some t })
      else stopTask s p tid (strikeFate k t)
    | .waiting =>
      if mayRestart k then modTask s p tid fun x => { x with restarts := x.restarts + 1 } else stopTask s p tid (strikeFate k t)
    | _ => s

/-- A read that touches a poisoned block strikes its task (R374). The channel within its granule is free. -/
def strikePoison (s : State) (c : Acc) (addrs : List Nat) : State :=
  match addrs.find? fun a => mhas s.poison (a / 512) with
  | none => s
  | some a =>
    let b := mget s.poison (a / 512) ⟨false, []⟩
    let g := a / 2 ^ 33
    let ch := choose s (if b.dram then 4 else 1)
    let unit := if b.dram then g / 8 + (g % 8 * 4 + ch.1) * 4
      else sliceOf s c.p a / 48 + sliceOf s c.p a % 48 * 4
    strikeTask ch.2 c.p c.tid ⟨9, if b.dram then 3 else 2, BitVec.ofNat 32 unit, BitVec.ofNat 32 (a / 64), 0⟩

/-- A walk that reads a poisoned block strikes its task too (R374); an address that a TLB holds is not walked. -/
def strikeWalk (s : State) (c : Acc) (va : Nat) : State :=
  if s.poison.isEmpty || !(tlbHits s c.p c.core c.team va).isEmpty then s
  else strikePoison s c ((walkAddrs s c.p va).map (canonA s))

/-- The checks of R244 for an access of `n` bytes. -/
def checkAcc (s : State) (c : Acc) (k : AccKind) (lane va n : Nat) (fmtOk : Leaf → Bool) : Chk × State :=
  let bad (g e h : Nat) : Chk := .bad (memTrap c lane (k != .read) g e va h)
  if va ≥ 2 ^ 52 then (bad 2 1 0, s)
  else if va % n ≠ 0 then (bad 2 3 0, s)
  else
    let r := translate (strikeWalk s c va) c.p c.core c.team va
    match r.1 with
    | .fault g e h => (bad g e h, r.2)
    | .nonres l =>
      match leafGate r.2 c.p k l fmtOk with
      | some f => (bad f.1 f.2 0, r.2)
      | none => (.nonres, r.2)
    | .ok l =>
      let h := l.frame + (va - pageBase l va)
      match leafGate r.2 c.p k l fmtOk with
      | some f => (bad f.1 f.2 h, r.2)
      | none => if l.domain && !domainTakes r.2 h then (bad 10 3 h, r.2) else (.ok l, r.2)

/-- The checks of every participant, ascending (R244): the first lane that fails gives the trap. -/
def checkLanes (s : State) (c : Acc) (k : AccKind) (fmtOk : Leaf → Bool) (xs : List (Nat × Nat × Nat)) :
    Except TrapRec (List LaneAcc) × State :=
  match xs with
  | [] => (.ok [], s)
  | x :: rest =>
    let r := checkAcc s c k x.1 x.2.1 x.2.2 fmtOk
    match r.1 with
    | .bad t => (.error t, r.2)
    | _ =>
      let l := match r.1 with | .ok l => some l | _ => none
      let q := checkLanes r.2 c k fmtOk rest
      match q.1 with
      | .error t => (.error t, q.2)
      | .ok ls => (.ok (⟨x.1, x.2.1, x.2.2, l⟩ :: ls), q.2)

/-- The offset in its page. -/
def pageOff (l : Leaf) (va : Nat) : Nat := va - pageBase l va

/-- Key under which a stored byte is kept in a version: a domain address lies above every host physical one. -/
def domainKey (g : Nat) : Nat := 2 ^ 60 + g

/-- A flit to a device goes out through a working port to it, of the device's choice; the port keeps it as it was sent until it
is acknowledged (R397, R399). Its number is the next of the pair of devices. -/
def sendTo (s : State) (dev addr : Nat) (kind : FlitKind) (data : List Byte) : State :=
  let ok := portsTo s dev
  let c := choose s ok.length
  match ok[c.1]? with
  | none => c.2
  | some port =>
    let m := c.2.mgmt
    let seq := mget m.sent dev 0
    { c.2 with mgmt := { m with flits := mset m.flits port (mget m.flits port [] ++ [⟨dev, seq, addr, kind, data⟩])
                                sent := mset m.sent dev (seq + 1) } }

/-- A request for a domain address goes to the device that it names (R398). -/
def sendFlit (s : State) (addr : Nat) (kind : FlitKind) (data : List Byte) : State := sendTo s (bitsOf addr 49 44) addr kind data

/-- A byte of another device. -/
def remoteByteOf (s : State) (g : Nat) : Byte :=
  (mfind s.remote g).getD (Config.remoteByte (bitsOf g 49 44) (g % 2 ^ 38))

/-- The version that a party reads and writes (R152). -/
def versionOf (s : State) (c : Acc) : SMap (Byte × Nat) :=
  let t := getTask s c.p c.tid
  if t.card.ver then t.ver else []

/-- The stored bytes of element `i` of a converted view: of an MX element its own, then its block's scale. -/
def elemAddrs (l : Leaf) (i : Nat) : List Nat :=
  if l.sf = 4 then [l.frame + 2 * i, l.frame + 2 * i + 1]
  else
    let p := mxLoc l i
    [p.2.1 + sfBits l.sf * p.2.2 / 8, p.2.1 + (sfBits l.sf * (p.2.2 + 1) - 1) / 8, p.1]

/-- The stored bytes that a leaf and an offset name, by host physical address; those of the first element come first. -/
def physAddrs (l : Leaf) (off n : Nat) : List Nat :=
  if l.sf = 0 then rangeFrom (l.frame + off) n
  else
    let d := dfBytes l.df
    (rangeFrom (off / d) ((off + n - 1) / d - off / d + 1)).flatMap (elemAddrs l)

/-- Where the stored bytes that an access touches are kept now (R361). -/
def keptAddrs (s : State) (l : Leaf) (off n : Nat) : List Nat := (physAddrs l off n).map (canonA s)

/-- The delivered bytes as the home serves them. -/
def freshBytes (s : State) (ver : SMap (Byte × Nat)) (l : Leaf) (off n : Nat) : List Byte :=
  if l.domain then
    (rangeFrom (l.frame + off) n).map fun g =>
      match mfind ver (domainKey g) with
      | some b => b.1
      | none => remoteByteOf s g
  else deliver (storedByte s ver l.key) l off n

/-- Keys of SI copies: a core's part of the key space, and within it a view of a frame. -/
def siCore (core : Nat) : Nat := core * 2 ^ 100

/-- The view of a page (R76): 0 RAW, else by stored and delivered format. -/
def viewOf (l : Leaf) : Nat := if l.sf = 0 then 0 else 4 * l.sf + l.df

/-- Key of an SI copy of a delivered byte (R64): of a RAW page where the byte is kept now (R118). -/
def siKey (s : State) (core : Nat) (l : Leaf) (off : Nat) : Nat :=
  if l.sf = 0 then siCore core + canonA s (l.frame + off)
  else siCore core + viewOf l * 2 ^ 90 + l.frame * 2 ^ 22 + off

/-- The view that the key of an SI copy names. -/
def siView (k : Nat) : Nat := k % 2 ^ 100 / 2 ^ 90

/-- A page of a frame and view, as far as its stored bytes go. -/
def viewLeaf (frame view : Nat) : Leaf :=
  { frame, guest := 0, big := false, sf := view / 4, df := view % 4, drt := 0, gr := 0, pin := false, r := false, w := false,
    r1 := false, w1 := false, res := false, tag := 0, key := 0, domain := false }

/-- The stored bytes behind an SI copy, by where they are kept now. -/
def siPhys (s : State) (k : Nat) : List Nat :=
  if siView k = 0 then [k % 2 ^ 90] else (physAddrs (viewLeaf (k % 2 ^ 90 / 2 ^ 22) (siView k)) (k % 2 ^ 22) 1).map (canonA s)

/-- Key of the L2 line of a delivered byte (R66, R76): of a RAW page by where the line is kept now, of a converted one by its
view, its frame before any hand-over, and its place in the page. -/
def lineKey (s : State) (l : Leaf) (off : Nat) : Nat :=
  if l.sf = 0 then canonA s (l.frame + off) / 64 else viewOf l * 2 ^ 80 + origA s l.frame * 2 ^ 15 + off / 64

/-- The L2 lines of an access (R66). -/
def linesOf (s : State) (l : Leaf) (off n : Nat) : List Nat :=
  if l.domain ∨ n = 0 then []
  else (rangeFrom (off / 64) ((off + n - 1) / 64 - off / 64 + 1)).map fun k => lineKey s l (64 * k)

/-- What a write of `n` bytes at an address writes (R116): every element of the MX blocks that it touches, else the bytes
named. -/
def writtenRange (l : Leaf) (va n : Nat) : Nat × Nat :=
  let u := if l.sf = 0 ∨ l.sf = 4 then 1 else 32 * dfBytes l.df
  (va / u * u, (va + n + u - 1) / u * u - va / u * u)

/-- The L2 lines that a write writes. -/
def writtenLines (s : State) (l : Leaf) (va n : Nat) : List Nat :=
  let r := writtenRange l va n
  linesOf s l (pageOff l r.1) r.2

/-- The stored bytes of a converted page's line, by where they are kept now. -/
def linePhys (s : State) (k : Nat) : List Nat :=
  (physAddrs (viewLeaf (k % 2 ^ 80 / 2 ^ 15) (k / 2 ^ 80)) (64 * (k % 2 ^ 15)) 64).map (canonA s)

/-- Drops the sectors (R66) of the SI copies that `hit` names. -/
def dropSectors (s : State) (hit : Nat → Bool) : State :=
  if s.si.isEmpty then s
  else
    let bad := ((mkeys s.si).filter hit).map (· / 32)
    { s with si := s.si.filter fun e => !bad.contains (e.1 / 32) }

/-- Drops every core's SI copies of stored bytes. -/
def dropStored (s : State) (addrs : List Nat) : State := dropSectors s fun k => (siPhys s k).any addrs.contains

/-- Before a write through a view the other views' lines of the 512-byte blocks that it writes are invalidated, with their L1
copies (R76): a line filled again carries no release (R68). -/
def dropViews (s : State) (l : Leaf) (phys : List Nat) : State :=
  let blocks := (phys.map (· / 512)).eraseDups
  let hit (xs : List Nat) : Bool := xs.any fun a => blocks.contains (a / 512)
  let s1 := dropSectors s fun k => siView k != viewOf l && hit (siPhys s k)
  if s.scopes.isEmpty then s1
  else { s1 with scopes := s1.scopes.filter fun x =>
    !(decide (2 ^ 80 ≤ x.1) && x.1 / 2 ^ 80 != viewOf l && hit (linePhys s x.1)) }

/-- At a commit (R154) no copy of an older value is left: copies of the bytes written are dropped, and of converted pages every copy
of the blocks written (R76). -/
def dropBlocks (s : State) (addrs : List Nat) : State :=
  let blocks := (addrs.map (· / 512)).eraseDups
  dropSectors s fun k => (siPhys s k).any fun a => addrs.contains a || (siView k != 0 && blocks.contains (a / 512))

/-- A core's read of a converted page drops its copies of the same elements in other views, so that no later read through them is
older (R103, R116). -/
def dropOther (s : State) (core : Nat) (l : Leaf) (off n : Nat) : State :=
  if l.sf = 0 || s.si.isEmpty then s
  else
    let phys := keptAddrs s l off n
    dropSectors s fun k => k / 2 ^ 100 == core && siView k != viewOf l && (siPhys s k).any phys.contains

/-- Drops a core's SI copies (R64, R105). -/
def dropSi (s : State) (core : Nat) : State := { s with si := s.si.filter fun e => e.1 / 2 ^ 100 != core }

/-- A frame that a migration is moving (R361). -/
def migrating (s : State) (l : Leaf) : Bool :=
  match s.mgmt.mig with
  | some m =>
    let n := if l.big then 2 ^ 21 else 2 ^ 16
    let meets (b : Nat) : Bool := decide (l.frame < b + m.len) && decide (b < l.frame + n)
    !l.domain && (meets m.old || meets m.new)
  | none => false

/-- Whether a version holds a byte that an access touches. -/
def inVersion (s : State) (ver : SMap (Byte × Nat)) (l : Leaf) (off n : Nat) : Bool :=
  !ver.isEmpty && (if l.domain then (rangeFrom (l.frame + off) n).any fun g => mhas ver (domainKey g)
    else (keptAddrs s l off n).any fun a => mhas ver a)

/-- A read under SI (R64): a sector that the core holds as a copy may be served from it; a sector read anew is kept. What a
version holds is read from it (R152); a converted page that is being moved has no copies (R118, log 49). -/
def siRead (s : State) (core : Nat) (ver : SMap (Byte × Nat)) (l : Leaf) (off n : Nat) : List Byte × State :=
  let fresh := freshBytes s ver l off n
  if inVersion s ver l off n || (l.sf != 0 && migrating s l) then (fresh, s)
  else
    let base := off / 32 * 32
    let held := (rangeFrom off n).all fun o => mhas s.si (siKey s core l o)
    let copy := (rangeFrom off n).map fun o => mget s.si (siKey s core l o) 0
    let c := if held && copy != fresh then choose s 2 else (0, s)
    if held && c.1 = 1 then (copy, c.2)
    else if held && copy == fresh then (fresh, c.2)
    else
      let sector := (rangeFrom base 32).zip (freshBytes s [] l base 32)
      let s1 := dropOther c.2 core l base 32
      (fresh, { s1 with si := sector.foldl (fun m e => mset m (siKey s core l e.1) e.2) s1.si })

/-- A core's read past its SI copies: it drops those it holds of the bytes read, so that no later read is older (R103). -/
def siPass (s : State) (core : Nat) (l : Leaf) (off n : Nat) : State :=
  if s.si.isEmpty then s else
  let ks := (rangeFrom off n).map (siKey s core l)
  dropSectors (dropOther s core l off n) ks.contains

/-- L1 and L2 copies at a write by a core of the stored bytes `phys`: a RAW copy of its own is updated, a converted one of its own
is dropped where a stored byte of it is written (R73, R116), and other views' lines and copies are invalidated everywhere
(R76). -/
def siWrite (s0 : State) (core : Nat) (l : Leaf) (off : Nat) (bs : List Byte) (phys : List Nat) : State :=
  let s := dropViews s0 l phys
  if s.si.isEmpty then s
  else
    let s1 := dropSectors s fun k => l.sf != 0 && k / 2 ^ 100 == core && siView k == viewOf l && (siPhys s k).any phys.contains
    if l.sf = 0 then
      { s1 with si := ((rangeFrom off bs.length).zip bs).foldl (fun m e =>
          if mhas m (siKey s core l e.1) then mset m (siKey s core l e.1) e.2 else m) s1.si }
    else s1

/-- Poison after a write (R374): a block that has been written whole is clean. -/
def clearPoison (s : State) (addrs : List Nat) : State :=
  if s.poison.isEmpty then s
  else
    { s with poison := addrs.foldl (fun m a =>
        match mfind m (a / 512) with
        | none => m
        | some b =>
          let w := if b.written.contains a then b.written else a :: b.written
          if w.length ≥ 512 then mdel m (a / 512) else mset m (a / 512) { b with written := w }) s.poison }

/-- The request type of an access (R64, R179): 1 OWN, 2 WT, 3 SI, 4 UC; 5 stands for a read-modify-write at the home, one request
(R103). -/
def reqOf (req : Nat) (l : Leaf) : Nat := if req = 0 then l.drt + 1 else req

/-- Bytes of a coherence grain (R66). -/
def grainBytes (gr : Nat) : Nat := if gr = 0 then 32 else if gr = 1 then 128 else 512

/-- A read of `n` delivered bytes at a virtual address, on its leaf. -/
def readAt (s : State) (c : Acc) (l : Leaf) (va n req : Nat) : List Byte × State :=
  let off := pageOff l va
  let ver := versionOf s c
  let s1 := if s.poison.isEmpty || l.domain then s
    else strikePoison s c ((keptAddrs s l off n).filter fun a => !mhas ver a)
  let s1 := if l.domain && req != 5 then sendFlit s1 (l.frame + off) .read [] else s1
  let r := match reqOf req l with
    | 3 => siRead s1 c.core ver l off n
    | 1 =>
      let s2 := if l.sf = 0 && !l.domain then ownTake s1 c.core (grainBytes l.gr) (l.frame + off) else s1
      (freshBytes s2 ver l off n, s2)
    | _ => (freshBytes s1 ver l off n, s1)
  if reqOf req l = 3 then r else (r.1, siPass r.2 c.core l off n)

/-- The regions of a task's card that version a byte of a range (R152). -/
def verRegions (t : Task) (va n : Nat) : List Nat :=
  (List.range t.card.regions.length).filter fun k =>
    match t.card.regions[k]? with
    | some r => r.verr && decide (64 * r.base < va + n) && decide (va < 64 * (r.base + r.len))
    | none => false

/-- The 64-byte version lines of a partition (R66, R153). -/
def versionLines (s : State) (p : Nat) : Nat := ((getPart s p).window.map fun t => t.lines.length).foldl (· + ·) 0

/-- Adds stored bytes, which lie on some L2 lines, to a task's version; beyond the quota lines spill, and a full log ends the task
(R153). The log's own bytes are not written: the spec gives them no layout, and only the number of lines is kept (log 52). -/
def versionWrite (s : State) (p tid : Nat) (lines : List Nat) (ws : List (Nat × Byte × Nat)) : State :=
  let s1 := modTask s p tid fun t =>
    { t with ver := ws.foldl (fun m w => mset m w.1 w.2) t.ver
             lines := lines.foldl (fun m x => if m.contains x then m else x :: m) t.lines }
  let q := getPart s1 p
  let spill := versionLines s1 p - q.vquota
  if spill > q.vloglen then
    trapTask s1 p tid ⟨8, 5, 0, 0, 0xFFFFFFFF#32⟩
  else modPart s1 p fun q => { q with spilled := max q.spilled spill }

/-- The page offsets of the delivered bytes of a page, `n` of them from `lo`, that stored bytes about to be written lie behind. -/
def offsetsOf (s : State) (l : Leaf) (lo n : Nat) (phys : List Nat) : List Nat :=
  if l.domain then []
  else if l.sf = 0 then
    (phys.filterMap fun a => if l.frame ≤ origA s a ∧ origA s a < l.frame + lo + n then some (origA s a - l.frame)
      else if l.frame ≤ a ∧ a < l.frame + lo + n then some (a - l.frame) else none).filter fun o => decide (lo ≤ o)
  else
    let fb := frameBytes l.sf l.df (if l.big then 2 ^ 21 else 2 ^ 16)
    if phys.any fun a => decide (l.frame ≤ origA s a) && decide (origA s a < l.frame + fb) then
      (rangeFrom lo n).filter fun o => (keptAddrs s l o 1).any phys.contains
    else []

/-- What a task keeps of its code object as it stood at its start (R169), as stored bytes behind it are about to be written, under
whatever mapping (R75): the bytes of those words that it does not keep yet. -/
def keepCode (s : State) (p : Nat) (phys : List Nat) (t : Task) : Task :=
  match t.hdr with
  | none => t
  | some h =>
    let first := h.code / 2 ^ 16
    let pages := rangeFrom first ((h.code + h.clen + 2 ^ 16 - 1) / 2 ^ 16 - first)
    let bytes := pages.flatMap fun pg =>
      match walk s p (pg * 2 ^ 16) with
      | .ok l =>
        let b := pageOff l (pg * 2 ^ 16)
        ((offsetsOf s l b (2 ^ 16) phys).map (· / 4)).eraseDups.flatMap fun w =>
          (rangeFrom (4 * w) 4).map fun o => (pg * 2 ^ 16 + (o - b), (freshBytes s [] l o 1).headD 0)
      | _ => []
    let mine := bytes.filter fun x => decide (h.code ≤ x.1) && decide (x.1 < h.code + h.clen)
    { t with code := mine.foldl (fun m x => if mhas m (x.1 - h.code) then m else mset m (x.1 - h.code) x.2) t.code }

/-- Every running task of a partition keeps its code before a write of stored bytes. -/
def noteCode (s : State) (p : Nat) (phys : List Nat) : State :=
  if (getPart s p).window.isEmpty then s
  else modPart s p fun q => { q with window := q.window.map (keepCode s p phys) }

/-- The host physical address of a virtual one on a resident page of this device. -/
def pagePhys (s : State) (p va : Nat) : Option Nat :=
  match walk s p va with
  | .ok l => if l.domain then none else some (l.frame + pageOff l va)
  | _ => none

/-- Where each 64 KiB of a range lies that is resident now. -/
def pagesNow (s : State) (p base len : Nat) : SMap Nat :=
  (List.range (len / 2 ^ 16)).filterMap fun k => (pagePhys s p (base + k * 2 ^ 16)).map fun a => (k, a)

/-- A graph pool with the pages that have become resident since it was formatted (R80, R81). -/
def adoptPool (s : State) (q : Pool) : Pool :=
  { q with frames := ((pagesNow s q.part q.pbase q.plen).filter fun f => !mhas q.frames f.1).foldl (fun m f => mset m f.1 f.2) q.frames }

/-- The pools of a partition take in such pages, before anything is written to them. -/
def adoptPages (s : State) (p : Nat) : State :=
  if s.pools.isEmpty then s else { s with pools := s.pools.map fun q => if q.part = p then adoptPool s q else q }

/-- A write of delivered bytes at a virtual address, on its leaf (R64, R72, R73, R152). In a VERR region of a versioned task it enters
the version; a settled region traps (R159). Every other write of a versioned task taints it. -/
def writeUnit (s : State) (c : Acc) (l : Leaf) (va : Nat) (bs : List Byte) (req : Nat) : State :=
  let off := pageOff l va
  let t := getTask s c.p c.tid
  let kept (x : Nat × Byte) : Nat × Byte × Nat :=
    if l.domain then (domainKey x.1, x.2, 0) else ((homeOf s x.1 l.key).1, x.2, (homeOf s x.1 l.key).2)
  let all := writtenRange l va bs.length
  let rs := if t.card.ver then verRegions t all.1 all.2 else []
  if !rs.isEmpty then
    match rs.find? t.settled.contains with
    | some r => trapTask s c.p c.tid ⟨8, 6, BitVec.ofNat 32 r, 0, c.instr⟩
    | none =>
      let w := if l.domain then ((rangeFrom (l.frame + off) bs.length).zip bs, 0)
        else encodeWrite (storedByte s t.ver l.key) l off bs
      let lines := if l.domain then ((rangeFrom (l.frame + off) bs.length).map fun g => domainKey g / 64).eraseDups
        else writtenLines s l va bs.length
      versionWrite (countSat s c.p w.2) c.p c.tid lines (w.1.map kept)
  else
    let s0 := if t.card.ver then modTask s c.p c.tid fun t => { t with taint := true } else s
    if l.domain then
      let s0 := sendFlit s0 (l.frame + off) (if req = 5 then .rmw else .write) bs
      let s1 := { s0 with remote := ((rangeFrom (l.frame + off) bs.length).zip bs).foldl (fun m w => mset m w.1 w.2) s0.remote }
      siWrite s1 c.core l off bs (rangeFrom (l.frame + off) bs.length)
    else
      let w := encodeWrite (storedByte s0 [] l.key) l off bs
      let s0 := noteCode s0 c.p (w.1.map fun x => canonA s0 x.1)
      let s1 := adoptPages (clearPoison (countSat s0 c.p w.2) (w.1.map fun x => canonA s0 x.1)) c.p
      let s2 := if l.sf = 0 && reqOf req l == 1 then ownWrite s1 c.core (grainBytes l.gr) w.1 l.key
        else homeWrite s1 w.1 l.key
      siWrite s2 c.core l off bs (w.1.map fun x => canonA s0 x.1)

/-- The pieces of a range that lie in one block of `u` bytes each: address and length. -/
def blockPieces (u fuel va n : Nat) : List (Nat × Nat) :=
  match fuel with
  | 0 => []
  | k + 1 =>
    if n = 0 then []
    else
      let m := min n (u - va % u)
      (va, m) :: blockPieces u k (va + m) (n - m)

/-- The bytes that a versioned task writes as one: regions begin and end at multiples of 64, and an MX block is written whole
(R72, R152). -/
def verUnit (l : Leaf) : Nat := if l.sf = 0 ∨ l.sf = 4 then 64 else 32 * dfBytes l.df

/-- A write of any length. -/
def writeAt (s : State) (c : Acc) (l : Leaf) (va : Nat) (bs : List Byte) (req : Nat) : State :=
  if (getTask s c.p c.tid).card.ver then
    (blockPieces (verUnit l) (bs.length / verUnit l + 2) va bs.length).foldl
      (fun acc x => writeUnit acc c l x.1 ((bs.drop (x.1 - va)).take x.2) req) s
  else writeUnit s c l va bs req

/-- A direct write of a versioned task taints it (R152). -/
def taintTask (s : State) (c : Acc) : State :=
  if (getTask s c.p c.tid).card.ver then modTask s c.p c.tid fun t => { t with taint := true } else s

/-- A release's record (R68), with what its group has heard; group 99 stands for an engine of the team. -/
def scopeRec (s : State) (c : Acc) (scope : Nat) : ScopeRec :=
  ⟨scope, dieOf c.core, c.core, c.team % 8, match c.gid with | some g => g % 32 | none => 99, c.p, c.tid,
   (getTeam s c.team).linear, s.cycle, match c.gid with | some g => (getGroup s g).heard | none => []⟩

/-- A party that releases, as a number: by task, team and group. -/
def ScopeRec.party (r : ScopeRec) : Nat := ((r.part * 2 ^ 32 + r.tid) * 2 ^ 48 + r.linear) * 128 + r.group

/-- A release covers an earlier one (R105, R108): its own party's, or one that its party has heard of. -/
def covers (me x : ScopeRec) : Bool :=
  x.party == me.party || (match mfind me.heard x.party with | some t => decide (x.stamp ≤ t) | none => false)

/-- Records a scope on lines (R68). A release makes visible at its scope what it covers: those records widen. -/
def recordScope (s : State) (c : Acc) (scope : Nat) (lines : List Nat) : State :=
  let me := scopeRec s c scope
  let old := s.scopes.map fun x => (x.1, if covers me x.2 && decide (x.2.scope < scope) then me else x.2)
  { s with scopes := lines.foldl (fun m x => mset m x me) old }

/-- The larger cycle for each party. -/
def joinHeard (a b : SMap Nat) : SMap Nat := b.foldl (fun m x => mset m x.1 (max x.2 (mget m x.1 0))) a

/-- A group has synchronised with releases (R107): what they cover happens before what it does next (R108). -/
def hearRecs (s : State) (gid : Nat) (rs : List ScopeRec) : State :=
  modGroup s gid fun g => { g with heard := rs.foldl (fun h r => joinHeard h (mset r.heard r.party r.stamp)) g.heard }

/-- The scope of the release fence that precedes an access of some lanes in their program order (R106). -/
def fenceOf (g : Group) (lanes : List Nat) : Option Nat :=
  (lanes.filterMap fun l => mfind g.fence l).foldl (fun m x => some (max x (m.getD 0))) none

/-- Lines that a plain write of some lanes touched: under a release fence they carry its scope (R106), else they wait for the
group's next release (R68). -/
def notePlain (s : State) (c : Acc) (lanes lines : List Nat) : State :=
  match c.gid with
  | none => s
  | some gid =>
    match fenceOf (getGroup s gid) lanes with
    | some sc => recordScope s c sc lines
    | none => modGroup s gid fun g => { g with dirty := lines.foldl (fun d x => if d.contains x then d else x :: d) g.dirty }

/-- A release at a scope that writes `lines`: it makes the group's earlier writes visible too (R68, R105). -/
def noteRelease (s : State) (c : Acc) (scope : Nat) (lines : List Nat) : State :=
  match c.gid with
  | none => recordScope s c scope lines
  | some gid =>
    let s1 := recordScope s c scope (lines ++ (getGroup s gid).dirty)
    modGroup s1 gid fun g => { g with dirty := [] }

/-- An acquire (R64, R95, R105): the group's cursor buffers are discarded, and from .die up its core's SI copies. -/
def acquire (s : State) (gid core scope : Nat) : State :=
  let s1 := modGroup s gid fun g => { g with cursors := g.cursors.map fun c => (c.1, { c.2 with buf := [] }) }
  if scope ≥ 2 then dropSi s1 core else s1

/-- The narrowest scope that contains a releaser and a group (R67). -/
def neededScope (r : ScopeRec) (core team w1 : Nat) : Nat :=
  if r.core = core ∧ r.slot = team % 8 then (if r.group = w1 then 0 else 1)
  else if r.die = dieOf core then 2
  else 3

/-- A group has synchronised with the releases that `hit` names. -/
def hearWhere (s : State) (gid : Nat) (hit : ScopeRec → Bool) : State := hearRecs s gid ((s.scopes.map Prod.snd).filter hit)

/-- What a wake or a wait in scratchpad synchronises with (R107), as the model has it: every release of the group's team so far,
or of its grid (log 61). -/
def hearAround (s : State) (gid : Nat) (grid : Bool) : State :=
  let tm := getTeam s (teamKey gid)
  hearWhere s gid fun r => r.part == tm.part && r.tid == tm.tid && (grid || r.linear == tm.linear)

/-- An acquire by a wake or a wait in scratchpad at .team, or a grid barrier (R105). -/
def acquireAround (s : State) (gid core scope : Nat) : State := acquire (hearAround s gid (decide (2 ≤ scope))) gid core scope

/-- An acquire of a line at a scope synchronises with the line's release where both scopes hold both parties (R107). -/
def hearLine (s : State) (c : Acc) (scope line : Nat) : State :=
  match c.gid, mfind s.scopes line with
  | some gid, some r => if neededScope r c.core c.team (gid % 32) ≤ min r.scope scope then hearRecs s gid [r] else s
  | _, _ => s

/-- The scope checker (R68): the trap of an acquire of a line by a lane of a group. -/
def scopeCheck (s : State) (c : Acc) (va : Nat) (line : Nat) : Option TrapRec :=
  match c.gid, mfind s.scopes line with
  | some gid, some r =>
    let need := neededScope r c.core c.team (gid % 32)
    if (getTask s c.p c.tid).header.schk && decide (need > r.scope) then
      some ⟨5, 2, BitVec.ofNat 32 va, BitVec.ofNat 32 (bitsOf va 51 32 + r.scope * 2 ^ 20 + need * 2 ^ 23), c.w2⟩
    else none
  | _, _ => none

/-- The base of the page of an address that is not resident, of 64 KiB or 2 MiB (R350, R352). -/
def heldBase (s : State) (p va : Nat) : Nat :=
  match walk s p va with
  | .nonres l => pageBase l va
  | .ok l => pageBase l va
  | _ => va / 2 ^ 16 * 2 ^ 16

/-- Notes what lanes have read, where the grid checks scopes (R68, R106). -/
def noteReads (s : State) (c : Acc) (xs : List (Nat × Nat × Nat)) : State :=
  match c.gid with
  | none => s
  | some gid =>
    if (getTask s c.p c.tid).header.schk then
      modGroup s gid fun g => { g with reads := xs.foldl (fun r x => if r.contains x then r else r ++ [x]) g.reads }
    else s

/-- An acquire fence acts on the reads of some lanes before it (R106): the first scope trap of their lines (R68), and what the
group hears; they are not looked at again. -/
def readCheck (s : State) (c : Acc) (scope : Nat) (lanes : List Nat) : Option TrapRec × State :=
  match c.gid with
  | none => (none, s)
  | some gid =>
    let mine (x : Nat × Nat × Nat) : Bool := lanes.contains x.1
    let rs := (getGroup s gid).reads
    if rs.isEmpty then (none, s)
    else ((rs.filter mine).findSome? fun x => scopeCheck s c x.2.1 x.2.2,
      modGroup ((rs.filter mine).foldl (fun acc x => hearLine acc c scope x.2.2) s) gid fun g =>
        { g with reads := g.reads.filter fun x => !mine x })

/-- A held access joins the list; one whose record is still to be written takes its place in it again (R359). -/
def joinHeld (h : HeldAcc) (hs : List HeldAcc) : List HeldAcc :=
  match hs with
  | [] => [h]
  | x :: r => if x == { h with who := .served } then h :: r else x :: joinHeld h r

/-- Adds held accesses to a partition (R77): one for each distinct page. -/
def addHeld (s : State) (c : Acc) (who : HeldBy) (write : Bool) (source : Nat) (vas : List Nat) : State :=
  let pages := (vas.map (heldBase s c.p)).eraseDups
  modPart s c.p fun q =>
    { q with held := pages.foldl (fun hs pg => joinHeld
        ⟨who, (vas.find? fun v => heldBase s c.p v == pg).getD 0, write, source, c.core, c.tid, q.fbgen, false⟩ hs) q.held }

/-- Ends the held accesses of a party. A record that has not been written stays, while FBGEN has not changed (R359). -/
def dropHeld (s : State) (p : Nat) (who : HeldBy) : State :=
  let keep (gen : Nat) (h : HeldAcc) : Option HeldAcc :=
    if h.who != who then some h
    else if h.recorded || h.gen != gen then none
    else some { h with who := .served }
  modPart s p fun q => { q with held := q.held.filterMap (keep q.fbgen) }

/-- Of the entries with one key, one of the device's choice (R5, R245). -/
def pickWinners {α : Type} (fuel : Nat) (s : State) (xs : List (Nat × α)) : List (Nat × α) × State :=
  match fuel, xs with
  | 0, _ => (xs, s)
  | _, [] => ([], s)
  | n + 1, x :: rest =>
    let same := x :: rest.filter fun y => y.1 == x.1
    let c := choose s same.length
    let r := pickWinners n c.2 (rest.filter fun y => y.1 != x.1)
    (same.getD c.1 x :: r.1, r.2)

/-- How performing a class V operation ends: its register destinations and a trap it raised meanwhile, a trap before any
effect, or a wait for non-resident pages (R77): the access writes, the source of R358, the addresses. -/
inductive Perf where
  | done (ws : List (Nat × Word)) (t : Option TrapRec)
  | fail (t : TrapRec)
  | hold (write : Bool) (source : Nat) (vas : List Nat)

/-- The accesses have been made. -/
def Perf.isDone (p : Perf) : Bool := match p with | .done _ _ => true | _ => false

/-- The stage of an outstanding operation set. -/
def setStage (s : State) (gid op : Nat) (st : Stage) : State :=
  modGroup s gid fun g => { g with ops := g.ops.map fun o => if o.id = op then { o with stage := st } else o }

/-- A class V operation goes outstanding as its performance at issue ended. -/
def settle (s : State) (i : Iss) (instr : Instr) (cap : Capture) (graph : Bool) (p : Perf) : State :=
  match p with
  | .done ws none => outstanding s i ws .done false graph
  | .done ws (some t) => outstanding s i ws (.faulted t) false graph
  | .fail t => outstanding s i [] (.faulted t) false graph
  | .hold w src vas =>
    let id := (getGroup s i.a.gid).nextOp
    addHeld (outstanding s i [] (.held instr cap) false graph) (accOf i) (.op i.a.gid id) w src vas

/-- A held operation as its replay ended (R359): a trap leaves its destinations as they were (R369). -/
def settleReplay (s : State) (c : Acc) (gid op : Nat) (p : Perf) : State :=
  let set (s : State) (ws : List (Nat × Word)) (st : Stage) : State :=
    modGroup s gid fun g => { g with ops := g.ops.map fun o =>
      if o.id = op then
        { o with stage := st, writes := ws.foldl (fun m w =>
            if fixedTrue w.1 || o.lost.contains w.1 then m else mset m w.1 w.2) o.writes }
      else o }
  let s1 := dropHeld s c.p (.op gid op)
  match p with
  | .done ws none => set s1 ws .done
  | .done ws (some t) => set s1 ws (.faulted t)
  | .fail t =>
    modGroup s1 gid fun g => { g with ops := g.ops.map fun o =>
      if o.id = op then { o with stage := .faulted t, writes := [] } else o }
  | .hold w src vas => addHeld s1 c (.op gid op) w src vas

end Sys2Proof.Machine
end

