-- ==== Sys2Proof/Machine/Range.lean ====
section
/-!
DEFINITION. Accesses of engines and of Carmine to ranges of the byte space, page by page, without alignment.
-/

namespace Sys2Proof.Machine

/-- The pieces of `n` bytes from `va`, a 64 KiB page each. -/
def piecesOf (va n : Nat) : List (Nat × Nat) := blockPieces (2 ^ 16) (n / 2 ^ 16 + 2) va n

/-- The checks of a range: the leaf of each piece, or the first trap, or the first page that is not resident, with
`source` of R358 (4 for Carmine). -/
def rangeCheck (s : State) (c : Acc) (k : AccKind) (source : Nat) (fmtOk : Leaf → Bool) (ps : List (Nat × Nat)) :
    Except Perf (List (Nat × Nat × Leaf)) × State :=
  match ps with
  | [] => (.ok [], s)
  | p :: rest =>
    let r := checkAcc s c k 0 p.1 1 fmtOk
    match r.1 with
    | .bad t => (.error (.fail t), r.2)
    | .nonres => (.error (.hold (k != .read) source [p.1]), r.2)
    | .ok l =>
      let q := rangeCheck r.2 c k source fmtOk rest
      match q.1 with
      | .error e => (.error e, q.2)
      | .ok ls => (.ok ((p.1, p.2, l) :: ls), q.2)

/-- Bytes of a range. -/
def rangeRead (s : State) (c : Acc) (source va n req : Nat) : Except Perf (List Byte) × State :=
  let r := rangeCheck s c .read source anyPage (piecesOf va n)
  match r.1 with
  | .error e => (.error e, r.2)
  | .ok ls =>
    let q := ls.foldl (fun (acc : List Byte × State) x =>
      let y := readAt acc.2 c x.2.2 x.1 x.2.1 req
      (acc.1 ++ y.1, y.2)) ([], r.2)
    (.ok q.1, q.2)

/-- Bytes written to a range, whole or not at all; the lines written. -/
def rangeWrite (s : State) (c : Acc) (source va : Nat) (bs : List Byte) (req : Nat) : Except Perf (List Nat) × State :=
  let r := rangeCheck s c .write source anyPage (piecesOf va bs.length)
  match r.1 with
  | .error e => (.error e, r.2)
  | .ok ls =>
    let q := ls.foldl (fun (acc : State) x => writeAt acc c x.2.2 x.1 ((bs.drop (x.1 - va)).take x.2.1) req) r.2
    (.ok (ls.flatMap fun x => writtenLines r.2 x.2.2 x.1 x.2.1), q)

/-- A byte as the tables show it now, without effects; 0 where no page is resident. -/
def peekByte (s : State) (p va : Nat) : Byte :=
  match walk s p va with
  | .ok l => if l.domain then remoteByteOf s (l.frame + pageOff l va) else (freshBytes s [] l (pageOff l va) 1).headD 0
  | _ => 0

/-- The code object of a grid as it stands now, by offset, where its pages are resident (R169). -/
def codeAt (s : State) (p : Nat) (t : Task) : SMap Byte :=
  match t.hdr with
  | none => []
  | some h => (rangeFrom 0 h.clen).filterMap fun off =>
    match walk s p (h.code + off) with
    | .ok l => some (off, (freshBytes s [] l (pageOff l (h.code + off)) 1).headD 0)
    | _ => none

/-- A word of the code object as it stood at the task's start. -/
def codeWord (t : Task) (off : Nat) : Option (List Byte) :=
  let bs := (rangeFrom off 4).filterMap fun k => mfind t.code k
  if bs.length = 4 then some bs else none

end Sys2Proof.Machine
end

