-- ==== Sys2Proof/Machine/Fetch.lean ====
section
/-!
DEFINITION. Fetch: the code object, the words of an instruction, and what the fetch raises (R168, R169, R183).
-/

namespace Sys2Proof.Machine

/-- What a fetch finds. -/
inductive Fetched where
  | instr (i : Instr)
  /-- A check of R183, steps 1 to 3, that fails, with both words. -/
  | enc (code : Nat) (cw ow : Word)
  | trap (t : TrapRec)
  | nonres (va : Nat)
  deriving DecidableEq, Repr

/-- The party of a code fetch (R169, R366); `uni` is the set of the instruction, once its control word is known (R364). -/
def fetchAcc (a : At) (uni : Bool) : Acc :=
  ⟨a.tm.part, a.tm.tid, a.tm.core, teamKey a.gid, some a.gid, 0, locWord a.sp.pc uni⟩

/-- A word of code that has been written since the task's start, by the task's own version among others, may be the old or the new
one, freely (R169). -/
def oldOrNew (s : State) (t : Task) (off : Nat) (now own : List Byte) : List Byte :=
  let new := if own != now && Config.freeBit s.cycle (off + 1) then own else now
  match codeWord t off with
  | some old => if old != new && Config.freeBit s.cycle off then old else new
  | none => new

/-- One word of the code object at an offset: translated and read as the tables say (R169). The trap of an offset outside
the code object names the offset. -/
def fetchWord (s : State) (a : At) (uni : Bool) (off : Nat) : Except Fetched (List Byte) :=
  let h := a.task.header
  let c := fetchAcc a uni
  if off ≥ h.clen ∨ off % 4 ≠ 0 then .error (.trap (memTrap c 0 false 2 7 off 0))
  else
    let va := h.code + off
    let bad (g e pa : Nat) : Except Fetched (List Byte) := .error (.trap (memTrap c 0 false g e va pa))
    if va ≥ 2 ^ 52 then bad 2 1 0
    else
      match walk s a.tm.part va with
      | .fault g e pa => bad g e pa
      | .nonres l =>
        match leafCheck s a.tm.part .read l with
        | some f => bad f.1 f.2 0
        | none => .error (.nonres va)
      | .ok l =>
        let pa := l.frame + (va - pageBase l va)
        match leafCheck s a.tm.part .read l with
        | some f => bad f.1 f.2 pa
        | none =>
          if l.domain && !domainTakes s pa then bad 10 3 pa
          else
            let po := va - pageBase l va
            .ok (oldOrNew s a.task off (freshBytes s [] l po 4) (freshBytes s (versionOf s c) l po 4))

/-- `n` words from an offset. -/
def fetchWords (s : State) (a : At) (uni : Bool) (n off : Nat) : Except Fetched (List Byte) :=
  match n with
  | 0 => .ok []
  | k + 1 =>
    match fetchWord s a uni off with
    | .error f => .error f
    | .ok bs =>
      match fetchWords s a uni k (off + 4) with
      | .error f => .error f
      | .ok r => .ok (bs ++ r)

/-- The code of ENC for a refusal of the decoder (R185). -/
def decodeCode (d : DecodeError) : Nat := match d with | .lit => 1 | .zero => 2 | _ => 3

/-- The control word and the operation word at an offset. -/
def fetchHead (s : State) (a : At) (pc : Nat) : Except Fetched (List Byte) :=
  match fetchWord s a false pc with
  | .error f => .error f
  | .ok bs =>
    match fetchWord s a ((bs.getD 3 0).getLsbD 7) (pc + 4) with
    | .error f => .error f
    | .ok r => .ok (bs ++ r)

/-- The set that the control word at the split's program counter names, as far as it can be read. -/
def fetchSet (s : State) (a : At) : Bool :=
  match fetchWord s a false a.sp.pc.toNat with
  | .ok bs => (bs.getD 3 0).getLsbD 7
  | .error _ => false

/-- The instruction at the split's program counter. -/
def fetch (s : State) (a : At) : Fetched :=
  let pc := a.sp.pc.toNat
  match fetchHead s a pc with
  | .error f => f
  | .ok head =>
    let w (i : Nat) : Word := wordOfBytes (head.getD i 0) (head.getD (i + 1) 0) (head.getD (i + 2) 0) (head.getD (i + 3) 0)
    match decode head with
    | .ok r => .instr r.1
    | .error .truncated =>
      match fetchWords s a ((w 0).getLsbD 31) ((w 0).extractLsb' 7 2).toNat (pc + 8) with
      | .error f => f
      | .ok lits =>
        match decode (head ++ lits) with
        | .ok r => .instr r.1
        | .error d => .enc (decodeCode d) (w 0) (w 4)
    | .error d => .enc (decodeCode d) (w 0) (w 4)

/-- Encoded fields of an instruction, for the conditions of issue. -/
def encOfInstr (i : Instr) : Option Enc := (formOf i).map Prod.snd

end Sys2Proof.Machine
end

