-- ==== Sys2Proof/Machine/Plane.lean ====
section
/-!
DEFINITION. The plane layout of Indigo operand B (R130, R221).
-/

namespace Sys2Proof.Machine

/-- The bits that a real floating element contributes, in plane order (R130): sign, exponent, significand, hidden bit. -/
def floatPlanes (code p : Nat) : List Bool :=
  let f := ffOf code
  [p.testBit (f.ew + f.mw)] ++ (List.range f.ew).map (fun k => p.testBit (f.mw + k))
    ++ (List.range f.mw).map (fun k => p.testBit k) ++ [(p >>> f.mw) % 2 ^ f.ew != 0]

/-- Bits of an element of format `ef`, as it lies in memory or registers. -/
def efBits (ef : Nat) : Nat :=
  match ef with
  | 10 => 4
  | 11 => 3
  | 12 => 64
  | 13 => 128
  | 14 => 8
  | 9 => 8
  | k => (ffOf k).bits

/-- The bits that an element contributes, in plane order (R130). -/
def elemPlanes (ef p : Nat) : List Bool :=
  match ef with
  | 10 => (List.range 4).map fun k => p.testBit k
  | 11 => (List.range 3).map fun k => p.testBit k
  | 12 => floatPlanes 0 (p % 2 ^ 32) ++ floatPlanes 0 (p / 2 ^ 32 % 2 ^ 32)
  | 13 => floatPlanes 1 (p % 2 ^ 64) ++ floatPlanes 1 (p / 2 ^ 64 % 2 ^ 64)
  | k => floatPlanes k p

/-- Planes of a format (R130). -/
def planeCount (ef : Nat) : Nat :=
  match ef with
  | 10 => 4
  | 11 => 3
  | 12 => 66
  | 13 => 130
  | k => (ffOf k).ew + (ffOf k).mw + 2

/-- The pattern of a real floating element from its planes; the hidden-bit plane does not enter (R221). -/
def floatOfPlanes (code : Nat) (bit : Nat → Bool) : Nat :=
  let f := ffOf code
  packBits 1 ((List.range f.mw).map (fun k => (bit (1 + f.ew + k)).toNat)
    ++ (List.range f.ew).map (fun k => (bit (1 + k)).toNat) ++ [(bit 0).toNat])

/-- The pattern of an element from its planes. -/
def elemOfPlanes (ef : Nat) (bit : Nat → Bool) : Nat :=
  match ef with
  | 10 => packBits 1 ((List.range 4).map fun k => (bit k).toNat)
  | 11 => packBits 1 ((List.range 3).map fun k => (bit k).toNat)
  | 12 => floatOfPlanes 0 bit + 2 ^ 32 * floatOfPlanes 0 fun k => bit (33 + k)
  | 13 => floatOfPlanes 1 bit + 2 ^ 64 * floatOfPlanes 1 fun k => bit (65 + k)
  | k => floatOfPlanes k bit

/-- Bytes of one plane (R130). -/
def planeStride (k n : Nat) : Nat := (k * n + 127) / 128 * 16

/-- Groups of a scale area (R130). -/
def gszOf (code : Nat) : Nat := match code with | 0 => 32 | 1 => 64 | 2 => 128 | _ => 16

/-- Bytes of a group scale. -/
def scaleBytes (scf : Nat) : Nat := if scf = 3 then 2 else 1

/-- Bytes of a scale area, padded to 16 (R130). -/
def scaleArea (ef k n gsz scf : Nat) : Nat :=
  if ef = 10 ∨ ef = 11 then ((k + gszOf gsz - 1) / gszOf gsz * n * scaleBytes scf + 15) / 16 * 16 else 0

/-- Bytes of an image (R221). -/
def imageBytes (ef k n gsz scf : Nat) : Nat := planeCount ef * planeStride k n + scaleArea ef k n gsz scf

/-- K of an A format (R219): elements in a 96-byte row. -/
def mmaK (af : Nat) : Nat :=
  match af with
  | 0 => 24
  | 1 => 12
  | 2 => 48
  | 3 => 48
  | 12 => 12
  | 13 => 6
  | _ => 96

/-- The pattern of B element (k, n) of an image at `base` (R221). -/
def imageElem (rd : Nat → Byte) (ef kk nn base k n : Nat) : Nat :=
  let q := k * nn + n
  elemOfPlanes ef fun p => (rd (base + p * planeStride kk nn + q / 8)).getLsbD (q % 8)

/-- The scale pattern of B element (k, n). -/
def imageScale (rd : Nat → Byte) (ef kk nn gsz scf base k n : Nat) : Nat :=
  let a := base + planeCount ef * planeStride kk nn + (k / gszOf gsz * nn + n) * scaleBytes scf
  leNat ((rangeFrom a (scaleBytes scf)).map rd)

end Sys2Proof.Machine
end

