-- ==== Sys2Proof/Machine/Scratch.lean ====
section
/-!
DEFINITION. Scratchpad (R59), full-empty bits (R60), and the stream records that DCD and ENC move (R136, R237, R239).
-/

namespace Sys2Proof.Machine

/-- A byte of a team's scratchpad; at admission it reads zero (R59). -/
def scrByte (tm : Team) (a : Nat) : Byte := mget tm.scr a 0

/-- `n` bytes of scratchpad. -/
def scrRead (tm : Team) (a n : Nat) : List Byte := (rangeFrom a n).map (scrByte tm)

/-- Bytes written to scratchpad. -/
def scrWrite (s : State) (tk a : Nat) (bs : List Byte) : State :=
  modTeam s tk fun t => { t with scr := ((rangeFrom a bs.length).zip bs).foldl (fun m w => mput 0 m w.1 w.2) t.scr }

/-- The granules that bytes `a` to `a + n` touch. -/
def granules (a n : Nat) : List Nat := if n = 0 then [] else rangeFrom (a / 16) ((a + n - 1) / 16 - a / 16 + 1)

/-- Whether a granule is full. -/
def isFull (tm : Team) (g : Nat) : Bool := mget tm.full g false

/-- Full bits set, with no one woken. -/
def markFull (s : State) (tk : Nat) (gs : List Nat) : State :=
  modTeam s tk fun t => { t with full := gs.foldl (fun m g => mset m g true) t.full }

/-- Full bits cleared. -/
def markEmpty (s : State) (tk : Nat) (gs : List Nat) : State :=
  modTeam s tk fun t => { t with full := gs.foldl mdel t.full }

/-- The scratchpad trap of an access (R59, R57): code 4 SCRATCH or 3 ALIGN, with the offset (R366). -/
def scrTrap (c : Acc) (lane : Nat) (wr : Bool) (code a : Nat) : TrapRec :=
  ⟨2, code, BitVec.ofNat 32 a, memWord1 c lane wr (a % 2 ^ 32), c.w2⟩

/-- The checks of a scratchpad access: alignment, then the bound. -/
def scrCheck (c : Acc) (tm : Team) (lane : Nat) (wr : Bool) (a n : Nat) : Option TrapRec :=
  if a % n ≠ 0 then some (scrTrap c lane wr 3 a)
  else if a + n > tm.scrsize then some (scrTrap c lane wr 4 a)
  else none

/-- Scratchpad as it was seen when a wait was satisfied, over the scratchpad as it is. -/
def seenBytes (tm : Team) (got : SMap Byte) (a n : Nat) : List Byte :=
  (rangeFrom a n).map fun x => (mfind got x).getD (scrByte tm x)

/-- A snapshot of granules. -/
def snapshot (tm : Team) (got : SMap Byte) (gs : List Nat) : SMap Byte :=
  gs.foldl (fun m g => (rangeFrom (16 * g) 16).foldl (fun m2 a => mset m2 a (scrByte tm a)) m) got

/-- Why a read of records stops. -/
inductive DcdStop where
  /-- A granule is not at hand. -/
  | need (g : Nat)
  /-- A byte lies at or beyond scrsize. -/
  | bound (a : Nat)
  /-- A malformed varint at a byte offset, in a record. -/
  | bad (a record : Nat)
  deriving DecidableEq, Repr

/-- Bytes of a record: each granule is asked for before its bytes are read. -/
def recBytes (tm : Team) (rd : Nat → Option Byte) (a n : Nat) : Except DcdStop (List Byte) :=
  match n with
  | 0 => .ok []
  | k + 1 =>
    if a ≥ tm.scrsize then .error (.bound a)
    else
      match rd a with
      | none => .error (.need (a / 16))
      | some b =>
        match recBytes tm rd (a + 1) k with
        | .error e => .error e
        | .ok r => .ok (b :: r)

/-- One varint (R136): value and length. -/
def varint (tm : Team) (rd : Nat → Option Byte) (start r fuel a : Nat) : Except DcdStop (Nat × Nat) :=
  match fuel with
  | 0 => .error (.bad start r)
  | k + 1 =>
    match recBytes tm rd a 1 with
    | .error e => .error e
    | .ok bs =>
      let b := leNat bs
      if k = 0 ∧ b ≥ 16 then .error (.bad start r)
      else if b < 128 then .ok (b, 1)
      else
        match varint tm rd start r k (a + 1) with
        | .error e => .error e
        | .ok v => .ok (b % 128 + 128 * v.1, v.2 + 1)

/-- `n` varints: the running sums from `x`, and the bytes they take. -/
def varints (tm : Team) (rd : Nat → Option Byte) (r n a x : Nat) : Except DcdStop (List Nat × Nat) :=
  match n with
  | 0 => .ok ([], 0)
  | k + 1 =>
    match varint tm rd a r 5 a with
    | .error e => .error e
    | .ok v =>
      let y := (x + v.1) % 2 ^ 32
      match varints tm rd r k (a + v.2) y with
      | .error e => .error e
      | .ok q => .ok (y :: q.1, v.2 + q.2)

/-- The elements of a BMAP record in lane order. -/
def bmapSpread (es : Nat) (m : Nat) (lane n : Nat) (bs : List Byte) : List Nat :=
  match n with
  | 0 => []
  | k + 1 =>
    if m.testBit lane then leNat (bs.take es) :: bmapSpread es m (lane + 1) k (bs.drop es)
    else 0 :: bmapSpread es m (lane + 1) k bs

/-- One record (R237): the 32 values and the bytes it occupies. `st` 0 BMAP, 1 DVAR, 2 MXB, 3 I4G. -/
def dcdRecord (tm : Team) (rd : Nat → Option Byte) (st ef scf r a base : Nat) : Except DcdStop (List Nat × Nat) :=
  match st with
  | 0 =>
    match recBytes tm rd a 4 with
    | .error e => .error e
    | .ok h =>
      let m := leNat h
      let es := if ef = 0 then 4 else 2
      let n := 4 * ((((List.range 32).filter fun k => m.testBit k).length * es + 3) / 4)
      match recBytes tm rd (a + 4) n with
      | .error e => .error e
      | .ok bs => .ok (bmapSpread es m 0 32 bs, 4 + n)
  | 1 => varints tm rd r 32 a base
  | 2 =>
    let w := (ffOf ef).bits
    match recBytes tm rd a (4 * w + 1) with
    | .error e => .error e
    | .ok bs =>
      let x := leNat bs
      .ok ((unpackBits w 32 x).map fun p => pageRound 0 (mxValue ef (x / 2 ^ (32 * w)) p), 4 * w + 1)
  | _ =>
    let n := if scf = 3 then 18 else 17
    match recBytes tm rd a n with
    | .error e => .error e
    | .ok bs =>
      let x := leNat bs
      let g := scaleX scf (x / 2 ^ 128)
      .ok ((unpackBits 4 32 x).map fun q => pageRound 0 (scaledX (asInt 4 true q) g), n)

/-- `n` records back to back (R237): each with its 32 values; the next DVAR base is the last value. -/
def dcdRecords (tm : Team) (rd : Nat → Option Byte) (st ef scf r n a base : Nat) :
    Except DcdStop (List (List Nat) × Nat) :=
  match n with
  | 0 => .ok ([], 0)
  | k + 1 =>
    match dcdRecord tm rd st ef scf r a base with
    | .error e => .error e
    | .ok v =>
      match dcdRecords tm rd st ef scf (r + 1) k (a + v.2) (v.1.getD 31 0) with
      | .error e => .error e
      | .ok q => .ok (v.1 :: q.1, v.2 + q.2)

/-- Reads records under a wait (R238): a granule that is full is seen, and stays seen; the first that is not stops. -/
def dcdWait (fuel : Nat) (tm : Team) (st ef scf n a base : Nat) (got : SMap Byte) :
    Except DcdStop (List (List Nat) × Nat) × SMap Byte :=
  match fuel with
  | 0 => (.error (.need 0), got)
  | k + 1 =>
    match dcdRecords tm (mfind got) st ef scf 0 n a base with
    | .error (.need g) =>
      if isFull tm g then dcdWait k tm st ef scf n a base (snapshot tm got [g]) else (.error (.need g), got)
    | r => (r, got)

/-- Fewest bytes of a varint (R136). -/
def varintBytes (fuel x : Nat) : List Byte :=
  match fuel with
  | 0 => []
  | k + 1 => if x < 128 then [BitVec.ofNat 8 x] else BitVec.ofNat 8 (x % 128 + 128) :: varintBytes k (x / 128)

/-- The deltas of a DVAR record (R239) over the lanes from `prev`: a lane without a value adds 0. -/
def dvarBytes (prev : Nat) (xs : List (Option Nat)) : List Byte × Nat :=
  match xs with
  | [] => ([], prev)
  | x :: r =>
    let y := x.getD prev
    let q := dvarBytes y r
    (varintBytes 5 ((y + 2 ^ 32 - prev) % 2 ^ 32) ++ q.1, q.2)

/-- A BMAP record: the present elements of `es` bytes. -/
def bmapBytes (es : Nat) (xs : List (Option Nat)) : List Byte :=
  let vs := xs.map fun x => (x.getD 0) % 256 ^ es
  let body := (vs.filter (· ≠ 0)).flatMap (leBytes es)
  let pad := (4 - body.length % 4) % 4
  leBytes 4 (packBits 1 (vs.map fun v => if v = 0 then 0 else 1)) ++ body ++ List.replicate pad 0

end Sys2Proof.Machine
end

