-- ==== Sys2Proof/Machine/Waits.lean ====
section
/-!
DEFINITION. Waits on full-empty bits (R61, R224, R238, R247), barrier and row-count words (R286, R288), chains (R295)
and children (R297), and the filling of granules. A split that waits is parked
before its instruction; a fill that satisfies it is seen in the snapshot that the park keeps.
-/

namespace Sys2Proof.Machine

/-- The access of an LDS or STS lane: its scratchpad address. -/
def scrAddr (s : State) (a : At) (f : Form) (e : Enc) (lane : Nat) : Nat := effAddr32 e (srcA s a f e lane)

/-- The addresses of an MMA (R222): a_base, a_stride, b_base. -/
structure MmaAddr where
  abase  : Nat
  stride : Nat
  bbase  : Nat

/-- Reads an MMA's addresses. -/
def mmaAddr (s : State) (a : At) (f : Form) (e : Enc) : MmaAddr :=
  let l := lowLane a.sp.active
  ⟨srcA s a f e l, srcC s a f e l, srcB s a f e l⟩

/-- Address of a lane's A row (R220). -/
def mmaRow (m : MmaAddr) (lane : Nat) : Nat := m.abase + lane * m.stride

/-- Bytes of the B image that an MMA reads. -/
def mmaImage (e : Enc) (fmt : Word) : Nat :=
  imageBytes (fmtBF fmt) (mmaK (fmtAF fmt)) (mmaN (e.M 9 8)) (fmtGSZ fmt) (fmtSCF fmt)

/-- The address checks of R225. -/
def mmaCheck (c : Acc) (tm : Team) (e : Enc) (fmt : Word) (m : MmaAddr) (ls : List Nat) : Option TrapRec :=
  if m.abase % 16 ≠ 0 then some (scrTrap c 0 false 3 m.abase)
  else if m.stride % 16 ≠ 0 then some (scrTrap c 0 false 3 m.stride)
  else if m.bbase % 16 ≠ 0 then some (scrTrap c 0 false 3 m.bbase)
  else
    match ls.find? fun l => mmaRow m l + 96 > tm.scrsize with
    | some l => some (scrTrap c l false 4 (mmaRow m l))
    | none => if m.bbase + mmaImage e fmt > tm.scrsize then some (scrTrap c 0 false 4 m.bbase) else none

/-- How a wait stands. -/
inductive WaitRes where
  /-- The instruction waits for nothing. -/
  | none
  /-- Every granule is full: what is seen, and the granules that a take clears. -/
  | ready (got : SMap Byte) (take : List Nat)
  /-- It parks; what is already seen stays seen. -/
  | no (got : SMap Byte)

/-- A wait for a fixed set of granules. -/
def staticWait (tm : Team) (wait take : List Nat) : WaitRes :=
  if wait.all (isFull tm) then .ready (snapshot tm [] wait) take else .no []

/-- The party of a split's instruction, for checks made before issue. -/
def accAt (a : At) (loc : Word) : Acc := ⟨a.tm.part, a.tm.tid, a.tm.core, teamKey a.gid, some a.gid, 0, loc⟩

/-- The wait of an MMA or MMAC (R224). -/
def mmaWait (s : State) (a : At) (f : Form) (e : Enc) : WaitRes :=
  let ls := participants s a e
  let m := mmaAddr s a f e
  let qa := e.M 11 10
  let qb := e.M 13 12
  if ls.isEmpty || (qa == 0 && qb == 0) || (mmaCheck (accAt a 0) a.tm e a.sp.fmt m ls).isSome then .none
  else
    let ga := ls.flatMap fun l => granules (mmaRow m l) 96
    let gb := granules m.bbase (mmaImage e a.sp.fmt)
    staticWait a.tm ((if qa = 0 then [] else ga) ++ (if qb = 0 then [] else gb))
      ((if qa = 2 then ga else []) ++ (if qb = 2 then gb else []))

/-- The wait of an LDS (R247). -/
def ldsWait (s : State) (a : At) (e : Enc) : WaitRes :=
  let q := e.M 12 11
  let n := szBytes (e.M 10 8)
  let ad := (participants s a e).map fun l => (l, scrAddr s a formLds e l)
  if q == 0 || ad.isEmpty || (ad.any fun x => (scrCheck (accAt a 0) a.tm x.1 false x.2 n).isSome) then .none
  else
    let gs := ad.flatMap fun x => granules x.2 n
    staticWait a.tm gs (if q = 2 then gs else [])

/-- The records of a DCD under its wait (R238). -/
def dcdTry (s : State) (a : At) (e : Enc) (got : SMap Byte) : Except DcdStop (List (List Nat) × Nat) × SMap Byte :=
  let l := lowLane a.sp.active
  dcdWait 200 a.tm (e.M 9 8) (e.M 13 10) (fmtSCF a.sp.fmt) (e.M 16 14 + 1)
    (srcA s a formDcd e l) (srcB s a formDcd e l) got

/-- The wait of a DCD. A take looks at every granule anew: one that another take has emptied is waited for again (R61). -/
def dcdWaitRes (s : State) (a : At) (e : Enc) (got : SMap Byte) : WaitRes :=
  let q := e.M 18 17
  if q == 0 || (participants s a e).isEmpty then .none
  else
    let r := dcdTry s a e (if q = 2 then [] else got)
    match r.1 with
    | .error (.need _) => .no r.2
    | .error _ => .ready r.2 []
    | .ok v => .ready r.2 (if q = 2 then granules (srcA s a formDcd e (lowLane a.sp.active)) v.2 else [])

/-- The scratchpad word at an address. -/
def scrWord (tm : Team) (a : Nat) : Nat := leNat (scrRead tm a 4)

/-- PH of a barrier word (R62). -/
def barPhase (w : Nat) : Bool := bitOf w 31

/-- The address of BAR, BARA, BARW and RCW. -/
def barAddr (s : State) (a : At) (f : Form) (e : Enc) : Nat := srcA s a f e (lowLane a.sp.active) % 2 ^ 32

/-- A wait on one word of scratchpad; without a guard or with a bad address there is none. -/
def wordWait (s : State) (a : At) (f : Form) (e : Enc) (ok : Nat → Bool) : WaitRes :=
  let ad := barAddr s a f e
  if !uniGuard s a e || (scrCheck (accAt a 0) a.tm 0 false ad 4).isSome then .none
  else if ok (scrWord a.tm ad) then .ready [] [] else .no []

/-- The wait of BARW (R286). -/
def barwWait (s : State) (a : At) (e : Enc) : WaitRes :=
  wordWait s a formBarw e fun w => barPhase w != bitOf (srcB s a formBarw e (lowLane a.sp.active)) 0

/-- The wait of RCW (R288). -/
def rcwWait (s : State) (a : At) (e : Enc) : WaitRes :=
  wordWait s a formRcw e fun w => decide (srcB s a formRcw e (lowLane a.sp.active) % 2 ^ 32 ≤ w)

/-- A chain slot of a team. -/
def getChain (tm : Team) (slot : Nat) : Option Chain := mfind tm.chains slot

/-- Every command of a chain before one has completed (R134). -/
def earlierDone (c : Chain) (seq : Nat) : Bool :=
  (rangeFrom (c.done + 1) (seq - 1 - c.done)).all c.finished.contains

/-- The wait of CQWAIT (R295). -/
def cqWait (s : State) (a : At) (e : Enc) : WaitRes :=
  let n := srcB s a formCqwait e (lowLane a.sp.active)
  match getChain a.tm (e.M 8 8) with
  | some c =>
    if !uniGuard s a e || c.bound.isNone then .none
    else if n ≤ c.done then .ready [] [] else .no []
  | none => .none

/-- The wait of TJOIN (R297). -/
def tjoinWait (s : State) (a : At) (e : Enc) : WaitRes :=
  let i := srcA s a formTjoin e (lowLane a.sp.active)
  if !uniGuard s a e then .none
  else if (getPart s a.tm.part).children.any fun c =>
      c.parent == a.tm.tid && c.child == i && !c.joined && c.stat.isNone then .no []
  else .ready [] []

/-- The wait of the instruction at a split. -/
def waitOf (s : State) (a : At) (i : Instr) (got : SMap Byte) : WaitRes :=
  match encOfInstr i with
  | none => .none
  | some e =>
    match i with
    | .lds _ => ldsWait s a e
    | .mma _ => mmaWait s a formMma e
    | .mmac _ => mmaWait s a formMmac e
    | .dcd _ => dcdWaitRes s a e got
    | .barw _ => barwWait s a e
    | .rcw _ => rcwWait s a e
    | .cqwait _ => cqWait s a e
    | .tjoin _ => tjoinWait s a e
    | _ => .none

/-- The splits of a team that are parked before an instruction and not yet satisfied. One whose stop is asked for has stopped,
but for the last member of a hold chain (R23). -/
def parkedOf (s : State) (tk : Nat) : List (Nat × Nat × SMap Byte) :=
  (s.groups.filter fun g => teamKey g.1 == tk && g.2.res == .resident).flatMap fun g =>
    (List.range g.2.splits.length).filterMap fun k =>
      match g.2.splits[k]? with
      | some x =>
        match x.park with
        | .before got false => if (x.stop.isNone || x.chain > 0) && !x.stopped then some (g.1, k, got) else none
        | _ => none
      | none => none

/-- How the wait of a parked split stands. -/
def parkedWait (s : State) (x : Nat × Nat × SMap Byte) : WaitRes :=
  match atOf s x.1 x.2.1 with
  | none => .none
  | some a =>
    match fetch s a with
    | .instr i =>
      let now := a.sp.now + (encOfInstr i).elim 1 Enc.effSpace
      let s1 := modSplit s x.1 x.2.1 fun y => { y with stale := pruneStale now y.stale }
      match atOf s1 x.1 x.2.1 with
      | some b => waitOf s1 b i x.2.2
      | none => .none
    | _ => .none

/-- Parks a split with what it has seen. -/
def setPark (s : State) (gid k : Nat) (got : SMap Byte) (granted : Bool) : State :=
  modSplit s gid k fun x => { x with park := .before got granted }

/-- Every parked wait without a take that is satisfied (R61). -/
def grantWaits (s : State) (tk : Nat) : State :=
  (parkedOf s tk).foldl (fun acc x =>
    match parkedWait acc x with
    | .ready got [] => setPark acc x.1 x.2.1 got true
    | .no got => setPark acc x.1 x.2.1 got false
    | _ => acc) s

/-- One of the parked takes that are satisfied, of the device's choice, then further ones as granules stay full
(R61). -/
def grantTakes (fuel : Nat) (s : State) (tk : Nat) : State :=
  match fuel with
  | 0 => s
  | n + 1 =>
    let cs := (parkedOf s tk).filterMap fun x =>
      match parkedWait s x with
      | .ready got (g :: gs) => some (x.1, x.2.1, got, g :: gs)
      | _ => none
    let c := choose s cs.length
    match cs[c.1]? with
    | none => s
    | some x => grantTakes n (markEmpty (setPark c.2 x.1 x.2.1 x.2.2.1 true) tk x.2.2.2) tk

/-- Granules become full (R60, R61). -/
def fill (s : State) (tk : Nat) (gs : List Nat) : State :=
  if gs.isEmpty then s
  else
    let s1 := markFull s tk gs
    let n := (parkedOf s1 tk).length
    if n = 0 then s1 else grantTakes n (grantWaits s1 tk) tk

/-- The split is no longer parked. -/
def unpark (s : State) (i : Iss) : State := modSplit s i.a.gid i.a.k fun x => { x with park := .none }

/-- The meaning of an instruction that parks until its granules are full: the frame, then the wait, then its effect on
what the wait saw. A parked instruction has not issued. -/
def issueWait (f : Form) (e : Enc) (i : Instr) (s : State) (eff : SMap Byte → Iss → State → State) : Res :=
  match gate f e s with
  | .noIssuer => .fault .noIssuer
  | .still s' => .next s'
  | .go s1 it =>
    match it.a.sp.park with
    | .before got true => .next (eff got it (unpark s1 it))
    | p =>
      match waitOf s1 it.a i (match p with | .before got _ => got | _ => []) with
      | .none => .next (eff [] it (unpark s1 it))
      | .ready got take => .next (eff got it (markEmpty (unpark s1 it) (teamKey it.a.gid) take))
      | .no got => .next (setPark { s with fresh := s1.fresh } it.a.gid it.a.k got false)

end Sys2Proof.Machine
end

