-- ==== Sys2Proof/Machine/Matrix.lean ====
section
/-!
DEFINITION. Indigo: MMA, MMAC, PLNST and MDRN (R216 to R231, R55).
-/

namespace Sys2Proof.Machine

/-- A block of `n` v registers as an Indigo source (R217). -/
def readVIndigo (s : State) (a : At) (lane r n : Nat) : Nat :=
  wordsNat ((rangeFrom r n).map fun k => readKeyIndigo s a.g a.k (vKey lane k))

/-- Component `k` of a pattern of base format `ft`: its value, its sign inverted under `neg`, flushed under FTZ. -/
def compVal (rc : RCtx) (ft k : Nat) (neg : Bool) (p : Nat) : XVal :=
  let w := 32 * 2 ^ ft
  fval ft (fpPat rc ft neg (p / 2 ^ (w * k) % 2 ^ w))

/-- What an MMA lane needs: the rounding context, fmt, the A patterns, and the B element and scale patterns by k and n. -/
structure MmaIn where
  rc    : RCtx
  fmt   : Word
  inv   : Option CTab
  cja   : Bool
  cjb   : Bool
  a     : List Nat
  b     : Nat → Nat → Nat
  scale : Nat → Nat → Nat

/-- A real A element (R223): flushed, and mapped by g where CMPA acts (R51). -/
def MmaIn.aVal (x : MmaIn) (p : Nat) : XVal :=
  let af := fmtAF x.fmt
  let v := fval af (flushIn x.rc.ftz af p)
  if isNarrow af then (match x.inv with | some t => t.inv v | none => v) else v

/-- A real B element (R35, R221). -/
def MmaIn.bVal (x : MmaIn) (k n : Nat) : XVal :=
  let bf := fmtBF x.fmt
  if bf = 10 ∨ bf = 11 then
    let sc := if fmtSCF x.fmt = 3 then flushIn x.rc.ftz 3 (x.scale k n) else x.scale k n
    scaledX (asInt (efBits bf) true (x.b k n)) (scaleX (fmtSCF x.fmt) sc)
  else fval bf (flushIn x.rc.ftz bf (x.b k n))

/-- The chain of fused steps of FP32 and FP64 (R55). -/
def mmaChain (x : MmaIn) (ft k n : Nat) (as_ : List Nat) (c : Nat) (lg : Dword) : Nat × Dword :=
  match as_ with
  | [] => (c, lg)
  | p :: r =>
    let y := roundTo x.rc ft (exactSum x.rc.mode [xmul (x.aVal p) (x.bVal k n), fval ft (flushIn x.rc.ftz ft c)]) lg
    mmaChain x ft (k + 1) n r y.1 y.2

/-- The chain of complex products (R55): real and imaginary part of the accumulator. -/
def mmaComplex (x : MmaIn) (ft k n : Nat) (as_ : List Nat) (re im : Nat) (lg : Dword) : Nat × Nat × Dword :=
  match as_ with
  | [] => (re, im, lg)
  | p :: r =>
    let q := x.b k n
    let y := cfmaSteps x.rc ft (compVal x.rc ft 0 false p) (compVal x.rc ft 1 x.cja p)
      (compVal x.rc ft 0 false q) (compVal x.rc ft 1 x.cjb q) re im lg
    mmaComplex x ft (k + 1) n r y.1 y.2.1 y.2.2

/-- The products of one column, exact. -/
def mmaProducts (x : MmaIn) (k n : Nat) (as_ : List Nat) : List XVal :=
  match as_ with
  | [] => []
  | p :: r => xmul (x.aVal p) (x.bVal k n) :: mmaProducts x (k + 1) n r

/-- One column of one lane (R223): from the old accumulator pattern to the new one. -/
def mmaColumn (x : MmaIn) (n c : Nat) (lg : Dword) : Nat × Dword :=
  let af := fmtAF x.fmt
  if af = 12 ∨ af = 13 then
    let ft := af - 12
    let w := 32 * 2 ^ ft
    let r := mmaComplex x ft 0 n x.a (c % 2 ^ w) (c / 2 ^ w) lg
    (r.1 + 2 ^ w * r.2.1, r.2.2)
  else if af ≤ 1 then mmaChain x af 0 n x.a c lg
  else roundTo x.rc 0 (exactSum x.rc.mode (fval 0 (flushIn x.rc.ftz 0 c) :: mmaProducts x 0 n x.a)) lg

/-- The columns of one lane, ascending, from column `n` on. -/
def mmaColumns (x : MmaIn) (old : Nat → Nat) (n m : Nat) (lg : Dword) : List Nat × Dword :=
  match m with
  | 0 => ([], lg)
  | j + 1 =>
    let r := mmaColumn x n (old n) lg
    let q := mmaColumns x old (n + 1) j r.2
    (r.1 :: q.1, q.2)

/-- The table that a captured instruction reads: the one that it has read already (R52), or the core's. -/
def capTab (s : State) (core : Nat) (cap : Capture) : Option CTab :=
  match cap.table with
  | some c => c.exact
  | none => compTab s core (fmtCT cap.fmt)

/-- An instruction that is performed in pieces reads its table once (R52). -/
def keepTable (s : State) (core : Nat) (cap : Capture) : Capture :=
  { cap with table := some (if fmtCT cap.fmt = 0 then Compand.identity else mget (getCore s core).tables (fmtCT cap.fmt) Compand.identity) }

/-- The rounding context of captured fmt. -/
def capCtx (s : State) (core : Nat) (cap : Capture) : RCtx :=
  { mode := fmtRM cap.fmt, sat := fmtSAT cap.fmt, ftz := fmtFTZ cap.fmt, comp := capTab s core cap }

/-- What an MMA captures at issue: in `addr` the bytes that its waits saw, in `data` its three addresses, in `third` each lane's
accumulator and generator. -/
def mmaCapture (mmac : Bool) (got : SMap Byte) (s : State) (i : Iss) : Capture :=
  let m := mmaAddr s i.a i.f i.e
  let n := mmaN (i.e.M 9 8) * fmtRc i.a.sp.fmt
  let ls := participants s i.a i.e
  { lanes := ls, addr := got.map fun x => (x.1, x.2.toNat)
    data := [m.abase, m.stride, m.bbase].mapIdx fun k x => (k, [BitVec.ofNat 32 x])
    third := ls.map fun l =>
      (l, natWords n (if mmac then 0 else readVIndigo s i.a l i.e.d.toNat n) ++ natWords 2 (readLg i.a.g l).toNat)
    fmt := i.a.sp.fmt, active := i.a.sp.active, checked := [], found := [], table := none }

/-- The addresses that an MMA captured. -/
def mmaPlace (cap : Capture) : MmaAddr :=
  let w (k : Nat) : Nat := wordsNat (mget cap.data k [])
  ⟨w 0, w 1, w 2⟩

/-- The columns of one lane of an MMA (R223) on what it captured, its plain operands read now: N M[9:8], CJA M[14],
CJB M[15]. -/
def mmaLane (s : State) (tm : Team) (e : Enc) (cap : Capture) (lane : Nat) : List (Nat × Word) × Dword :=
  let fmt := cap.fmt
  let m := mmaPlace cap
  let kk := mmaK (fmtAF fmt)
  let nn := mmaN (e.M 9 8)
  let es := efBits (fmtAF fmt) / 8
  let nr := fmtRc fmt
  let rd (a : Nat) : Byte := ((mfind cap.addr a).map (BitVec.ofNat 8)).getD (scrByte tm a)
  let ws := mget cap.third lane []
  let x : MmaIn :=
    { rc := capCtx s tm.core cap, fmt, inv := if fmtCMPA fmt then capTab s tm.core cap else none
      cja := e.M 14 14 == 1, cjb := e.M 15 15 == 1
      a := (List.range kk).map fun k => leNat ((rangeFrom (mmaRow m lane + k * es) es).map rd)
      b := imageElem rd (fmtBF fmt) kk nn m.bbase
      scale := imageScale rd (fmtBF fmt) kk nn (fmtGSZ fmt) (fmtSCF fmt) m.bbase }
  let old (n : Nat) : Nat := wordsNat ((ws.drop (n * nr)).take nr)
  let r := mmaColumns x old 0 nn (BitVec.ofNat 64 (wordsNat (ws.drop (nn * nr))))
  (vWrites lane e.d.toNat (nn * nr) (packBits (32 * nr) r.1), r.2)

/-- The effect of MMA and MMAC. Its generators step at issue (R194). A plain operand is read now or before completion, as the
device chooses (R224). -/
def mmaEffect (mmac : Bool) (got : SMap Byte) (i : Iss) (s : State) : State :=
  let k := mmaCapture mmac got s i
  let c := accOf i
  if k.lanes.isEmpty then outstanding s i [] .done true false
  else
    match mmaCheck c i.a.tm i.e k.fmt (mmaPlace k) k.lanes with
    | some t => outstanding s i [] (.faulted t) true false
    | none =>
      let outs := k.lanes.map fun l => (l, mmaLane s i.a.tm i.e k l)
      let s1 := outs.foldl (fun acc o => setLg acc i.a.gid o.1 o.2.2) s
      let ch := if i.e.M 11 10 ≠ 0 ∧ i.e.M 13 12 ≠ 0 then (0, s1) else choose s1 2
      let s2 := if ch.1 = 1 then outstanding ch.2 i [] (.held (if mmac then .mmac i.e else .mma i.e) k) true false
        else outstanding ch.2 i (outs.flatMap fun o => o.2.1) .done true false
      if i.e.M 13 10 != 0 then acquireAround s2 i.a.gid c.core 1 else s2

/-- MMA (R223). -/
def execMma (e : Enc) (s : State) : Res := issueWait formMma e (.mma e) s (mmaEffect false)
/-- MMAC (R223). -/
def execMmac (e : Enc) (s : State) : Res := issueWait formMmac e (.mmac e) s (mmaEffect true)

/-- MMA and MMAC. -/
def isMma (i : Instr) : Bool :=
  match i with
  | .mma _ => true
  | .mmac _ => true
  | _ => false

/-- The 8-byte units of an MMA's plain operands that are not read yet. -/
def mmaUnits (e : Enc) (cap : Capture) : List Nat :=
  let m := mmaPlace cap
  let es := efBits (fmtAF cap.fmt) / 8 * mmaK (fmtAF cap.fmt)
  let as_ := (cap.lanes.flatMap fun l => rangeFrom (mmaRow m l) es) ++ rangeFrom m.bbase (mmaImage e cap.fmt)
  ((as_.filter fun a => !mhas cap.addr a).map (· / 8)).eraseDups

/-- A held MMA reads one unit of a plain operand, or what is left of them and is performed (R109, R224). -/
def performMma (s : State) (gid : Nat) (o : Op) (i : Instr) (cap : Capture) : State :=
  let tm := getTeam s (teamKey gid)
  match (formOf i).map Prod.snd with
  | none => s
  | some e =>
    let us := mmaUnits e cap
    let c := choose s (us.length + 1)
    match us[c.1]? with
    | some u =>
      let got := (rangeFrom (8 * u) 8).foldl (fun m a => if mhas m a then m else mset m a (scrByte tm a).toNat) cap.addr
      setStage c.2 gid o.id (.held i { cap with addr := got })
    | none =>
      settleReplay c.2 (accOfOp c.2 gid o.loc) gid o.id
        (.done (cap.lanes.flatMap fun l => (mmaLane c.2 tm e cap l).1) none)

/-- A bit of scratchpad set. -/
def setScrBit (m : SMap Byte) (q : Nat) (v : Bool) : SMap Byte :=
  let b := mget m (q / 8) 0
  mput 0 m (q / 8) (if v then b ||| (1#8 <<< (q % 8)) else b &&& ~~~(1#8 <<< (q % 8)))

/-- Writes an element's planes (R227): `q` is its bit in each plane, `stride` the bytes of a plane. -/
def writePlanes (m : SMap Byte) (base q stride : Nat) (bits : List Bool) : SMap Byte :=
  match bits with
  | [] => m
  | b :: r => writePlanes (setScrBit m (8 * base + q) b) (base + stride) q stride r

/-- PLNST's data block: a latch, or the registers as an Indigo source (R180, R217). -/
def srcBlock (s : State) (i : Iss) (l : Nat) : Nat :=
  if i.e.ctl.lb ≠ 0 then srcB s i.a i.f i.e l
  else readVIndigo s i.a l i.e.b.toNat (efRc (i.e.M 11 8) * 2 ^ i.e.M 24 22)

/-- The effect of PLNST: EF M[11:8], N M[13:12], KEEP M[14], K − 1 M[21:15], CNT M[24:22]. It is performed whole as it issues
(log 12); one that writes no granule fills none. -/
def plnstEffect (i : Iss) (s : State) : State :=
  let l0 := lowLane i.a.sp.active
  let c := accOf i
  let tk := teamKey i.a.gid
  let base := srcA s i.a i.f i.e l0
  let k0 := srcC s i.a i.f i.e l0
  let ef := i.e.M 11 8
  let nn := mmaN (i.e.M 13 12)
  let kk := i.e.M 21 15 + 1
  let nr := efRc ef
  let stride := planeStride kk nn
  let es : List (Nat × Nat × Nat) := ((participants s i.a i.e).filter (· < nn)).flatMap fun l =>
    ((List.range (2 ^ i.e.M 24 22)).filter fun j => k0 + j < kk).map fun j =>
      (l, (k0 + j) * nn + l, srcBlock s i l / 2 ^ (32 * nr * j) % 2 ^ efBits ef)
  let last (q : Nat) : Nat := base + (planeCount ef - 1) * stride + q / 8
  if (participants s i.a i.e).isEmpty then outstanding s i [] .done true false
  else if base % 16 ≠ 0 then outstanding s i [] (.faulted (scrTrap c 0 true 3 base)) true false
  else
    match es.find? fun x => last x.2.1 ≥ i.a.tm.scrsize with
    | some x => outstanding s i [] (.faulted (scrTrap c x.1 true 4 (last x.2.1))) true false
    | none =>
      let s1 := modTeam s tk fun t =>
        { t with scr := es.foldl (fun m x => writePlanes m base x.2.1 stride (elemPlanes ef x.2.2)) t.scr }
      let gs := (es.flatMap fun x => (List.range (planeCount ef)).map fun p => (base + p * stride + x.2.1 / 8) / 16).eraseDups
      let s2 := outstanding s1 i [] .done true false
      if i.e.M 14 14 = 1 ∨ gs.isEmpty then s2 else fill (noteRelease s2 c 1 []) tk gs

/-- PLNST (R227). -/
def execPlnst (e : Enc) (s : State) : Res := issue formPlnst e s plnstEffect

/-- Bytes of an element of MDRN's DF. -/
def mdrnEs (df : Nat) : Nat := efBits df / 8

/-- The roundings of one column: two for a complex one. -/
def mdrnParts (df : Nat) : Nat := if df = 12 ∨ df = 13 then 2 else 1

/-- One element of MDRN (R230): the column's pattern, the old element's, the generator outputs; N, RED and DF as
encoded. -/
def mdrnElem (rc : RCtx) (cf df red col old : Nat) (outs : List Nat) : Nat :=
  let cx := df = 12 ∨ df = 13
  let cb := if cf ≥ 2 then cf - 2 else cf
  let db := if cx then df - 12 else df
  let wb := if cx then 32 * 2 ^ db else (ffOf db).bits
  packBits wb ((List.range (mdrnParts df)).map fun k =>
    let x := compVal rc cb k false col
    let o := fval db (flushIn rc.ftz db (old / 2 ^ (wb * k) % 2 ^ wb))
    let y := match red with
      | 0 => x
      | 1 => exactSum rc.mode [o, x]
      | 2 => if o == .nan || x == .nan then .nan else if xltTotal x o then x else o
      | _ => if o == .nan || x == .nan then .nan else if xltTotal o x then x else o
    roundPattern rc db (outs.getD k 0) (zeroSign rc.mode y))

/-- What MDRN captures at issue: rows' addresses, column words, and under SR the generator outputs (R194). -/
def mdrnCapture (s : State) (i : Iss) : Capture × State :=
  let ls := participants s i.a i.e
  let fmt := i.a.sp.fmt
  let nn := mmaN (i.e.M 9 8)
  let nr := fmtRc fmt
  let sp := i.e.M 16 16 == 1
  let addr (l : Nat) : Nat :=
    let b := srcA s i.a i.f i.e l
    let x : Int := b + (if i.e.m.sa then (l : Int) * asInt 32 true (srcC s i.a i.f i.e l) else 0)
    let y := wrapTo 64 x
    if sp then effAddr32 i.e y else effAddr64 i.e y
  let steps := if fmtRM fmt = 5 then nn * mdrnParts (i.e.M 13 10) else 0
  let draw (lg : Dword) : List Word × Dword := (List.range steps).foldl (fun acc _ =>
    let g := genStep acc.2
    (acc.1 ++ [BitVec.ofNat 32 g.2], g.1)) ([], lg)
  let draws := ls.map fun l => (l, draw (readLg i.a.g l))
  let s1 := draws.foldl (fun acc o => setLg acc i.a.gid o.1 o.2.2) s
  (⟨ls, ls.map fun l => (l, addr l),
    ls.map fun l => (l, natWords (nn * nr) (readVIndigo s i.a l i.e.b.toNat (nn * nr))),
    draws.map fun o => (o.1, o.2.1), fmt, i.a.sp.active, [], [], none⟩, s1)

/-- The elements of an MDRN in row order: lane, element number, address. -/
def mdrnSites (e : Enc) (cap : Capture) : List (Nat × Nat × Nat) :=
  let es := mdrnEs (e.M 13 10)
  cap.lanes.flatMap fun l => (List.range (mmaN (e.M 9 8))).map fun n => (l, n, mget cap.addr l 0 + n * es)

/-- The new element at a site, given the old one. -/
def mdrnNew (rc : RCtx) (e : Enc) (cap : Capture) (lane n old : Nat) : Nat :=
  let nr := fmtRc cap.fmt
  let parts := mdrnParts (e.M 13 10)
  let col := wordsNat (((mget cap.data lane []).drop (n * nr)).take nr)
  let outs := (((mget cap.third lane []).drop (n * parts)).take parts).map (·.toNat)
  mdrnElem rc (fmtCF cap.fmt) (e.M 13 10) (e.M 15 14) col old outs

/-- A list in an order of the device's choice. -/
def shuffle {α : Type} (fuel : Nat) (s : State) (xs : List α) : List α × State :=
  match fuel with
  | 0 => (xs, s)
  | n + 1 =>
    let c := choose s xs.length
    match xs[c.1]? with
    | none => ([], c.2)
    | some x =>
      let r := shuffle n c.2 (xs.eraseIdx c.1)
      (x :: r.1, r.2)

/-- The bytes of a row that MDRN forms without RED (R230). -/
def mdrnBytes (rc : RCtx) (e : Enc) (cap : Capture) (lane : Nat) : List Byte :=
  (List.range (mmaN (e.M 9 8))).flatMap fun n => leBytes (mdrnEs (e.M 13 10)) (mdrnNew rc e cap lane n 0)

/-- The units of R102 in which an MDRN without RED stores its rows: lane, number, address. An element of 16 bytes has two. A piece
names its unit in `cap.found`. -/
def mdrnUnits (e : Enc) (cap : Capture) : List (Nat × Nat × Nat) :=
  let u := min 8 (mdrnEs (e.M 13 10))
  let n := mmaN (e.M 9 8) * (mdrnEs (e.M 13 10) / u)
  (cap.lanes.flatMap fun l => (List.range n).map fun k => (l, k, mget cap.addr l 0 + k * u)).filter fun x =>
    match mfind cap.found x.1 with
    | some (k :: _) => x.2.1 == k
    | _ => true

/-- The bytes of a unit. -/
def unitBytes (rc : RCtx) (e : Enc) (cap : Capture) (x : Nat × Nat × Nat) : List Byte :=
  let u := min 8 (mdrnEs (e.M 13 10))
  ((mdrnBytes rc e cap x.1).drop (x.2.1 * u)).take u

/-- The checks of MDRN to scratchpad (R230). -/
def mdrnScrCheck (s : State) (c : Acc) (e : Enc) (cap : Capture) : Option TrapRec :=
  let es := mdrnEs (e.M 13 10)
  let nn := mmaN (e.M 9 8)
  cap.lanes.findSome? fun l =>
    let a := mget cap.addr l 0
    if a % es ≠ 0 then some (scrTrap c l true 3 a)
    else if a + nn * es > (getTeam s c.team).scrsize then some (scrTrap c l true 4 a)
    else none

/-- MDRN to scratchpad (R230, R231): rows without RED unit by unit, each place keeping one lane's value of the device's choice; with
RED all rows in one update, in an order of its choice. One without a participant does nothing (R216). -/
def mdrnScratch (s : State) (c : Acc) (e : Enc) (cap : Capture) : Perf × State :=
  let es := mdrnEs (e.M 13 10)
  let rc := capCtx s c.core cap
  let s1 := if e.M 15 14 = 0 then
      let us := mdrnUnits e cap
      let r := pickWinners us.length s (us.map fun x => (x.2.2, x))
      r.1.foldl (fun acc x => scrWrite acc c.team x.1 (unitBytes rc e cap x.2)) r.2
    else
      let sites := mdrnSites e cap
      let r := shuffle cap.lanes.length s (cap.lanes.map fun l => sites.filter fun x => x.1 == l)
      r.1.flatten.foldl (fun acc x =>
        let old := leNat (scrRead (getTeam acc c.team) x.2.2 es)
        scrWrite acc c.team x.2.2 (leBytes es (mdrnNew rc e cap x.1 x.2.1 old))) r.2
  let gs := (if e.M 15 14 = 0 then (mdrnUnits e cap).flatMap fun x => granules x.2.2 (min 8 es)
    else cap.lanes.flatMap fun l => granules (mget cap.addr l 0) (mmaN (e.M 9 8) * es)).eraseDups
  (.done [] none, if e.M 17 17 = 1 ∨ gs.isEmpty then s1 else fill (noteRelease s1 c 1 []) c.team gs)

/-- One element of an MDRN: lane, number, address, leaf. -/
abbrev MdrnSite := (Nat × Nat × Nat) × Leaf

/-- Bytes of a row written from its first byte on, those of one page as one. -/
def rowWrite (c : Acc) (req : Nat) (s : State) (lane : Nat) (bs : List (Nat × Leaf × Byte)) : State :=
  let pages := (bs.map fun x => x.2.1).eraseDups
  pages.foldl (fun acc l =>
    let part := bs.filter fun x => x.2.1 == l
    match part.head? with
    | none => acc
    | some h =>
      notePlain (writeAt acc c l h.1 (part.map fun x => x.2.2) req) c [lane] (writtenLines acc l h.1 part.length)) s

/-- A row of an MDRN with RED to memory, one update at its home (R72, R231): every element is formed from what the row held, then
the bytes on each page are written as one. -/
def mdrnRow (c : Acc) (rc : RCtx) (e : Enc) (cap : Capture) (s : State) (row : List MdrnSite) : State :=
  let es := mdrnEs (e.M 13 10)
  let news := row.foldl (fun (acc : List (Nat × Leaf × Byte) × State) x =>
    let old := readAt acc.2 c x.2 x.1.2.2 es 5
    let bs := leBytes es (mdrnNew rc e cap x.1.1 x.1.2.1 (leNat old.1))
    (acc.1 ++ (rangeFrom x.1.2.2 es).zip (bs.map fun b => (x.2, b)), old.2)) ([], s)
  match row.head? with
  | none => s
  | some h => rowWrite c 5 news.2 h.1.1 news.1

/-- Neighbouring entries whose first components follow each other, as runs. -/
def runsUp {α : Type} (xs : List (Nat × α)) : List (List (Nat × α)) :=
  match xs with
  | [] => []
  | x :: rest =>
    match runsUp rest with
    | (y :: ys) :: more => if y.1 = x.1 + 1 then (x :: y :: ys) :: more else [x] :: (y :: ys) :: more
    | more => [x] :: more

/-- The checks of MDRN to memory (R57, R230): it names no residency predicate. -/
def mdrnCheck (s : State) (c : Acc) (e : Enc) (cap : Capture) : Except Perf (List LaneAcc) × State :=
  let es := mdrnEs (e.M 13 10)
  let k := checkLanes s c (if e.M 15 14 = 0 then .write else .atomic) anyPage ((mdrnSites e cap).map fun x => (x.1, x.2.2, es))
  match k.1 with
  | .error t => (.error (.fail t), k.2)
  | .ok accs =>
    let out := accs.filter fun x => x.leaf.isNone
    if out.isEmpty then (.ok accs, k.2) else (.error (.hold true 0 (out.map (·.va))), k.2)

/-- The page of a byte of a lane's row, among what the checks found. -/
def rowLeaf (cap : Capture) (lane va : Nat) : Option Leaf :=
  (cap.checked.find? fun x => x.lane == lane && decide (x.va ≤ va) && decide (va < x.va + x.n)).bind (·.leaf)

/-- MDRN to memory on what its checks found (R230, R231). With RED rows come in an order of the device's choice. Without, each unit
where rows meet keeps the value of one lane of its choice, an element where the page is converted; what a row keeps next to each
other is one write (log 42). -/
def mdrnMemory (s : State) (c : Acc) (e : Enc) (cap : Capture) : Perf × State :=
  let rc := capCtx s c.core cap
  if e.M 15 14 ≠ 0 then
    let xs : List MdrnSite := (mdrnSites e cap).filterMap fun x => (rowLeaf cap x.1 x.2.2).map fun l => (x, l)
    let o := shuffle cap.lanes.length s ((cap.lanes.map fun l => xs.filter fun x => x.1.1 == l).filter fun r => !r.isEmpty)
    (.done [] none, o.1.foldl (mdrnRow c rc e cap) o.2)
  else
    let us := (mdrnUnits e cap).filterMap fun x => (rowLeaf cap x.1 x.2.2).map fun l => (x, l)
    let key (x : (Nat × Nat × Nat) × Leaf) : Nat :=
      let off := pageOff x.2 x.1.2.2
      if x.2.sf = 0 then siKey s 0 x.2 off else siKey s 0 x.2 (off / dfBytes x.2.df * dfBytes x.2.df)
    let w := pickWinners us.length s ((us.map fun x => (key x, x.1.1)).eraseDups)
    let o := shuffle cap.lanes.length w.2 (cap.lanes.map fun l => (l, us.filter fun x => x.1.1 == l && w.1.contains (key x, l)))
    (.done [] none, o.1.foldl (fun acc r =>
      let bs := r.2.flatMap fun x => (rangeFrom x.1.2.2 8).zip ((unitBytes rc e cap x.1).map fun b => (x.2, b))
      (runsUp bs).foldl (fun a run => rowWrite c (e.M 20 18) a r.1 run) acc) o.2)

end Sys2Proof.Machine
end

