-- ==== Sys2Proof/Machine/LdSt.lean ====
section
/-!
DEFINITION. Loads, stores and atomics of the byte space and of scratchpad, tensor accesses, PREF and RESQ, in the lane
set (R240 to R259) and the uniform set (R276 to R278). A uniform access is that of one party, lane 0 in its details.
-/

namespace Sys2Proof.Machine

/-- The parties of an instruction: its participants, or one for a uniform instruction whose guard is true. -/
def parties (s : State) (i : Iss) : List Nat :=
  if i.f.uni then (if uniGuard s i.a i.e then [0] else []) else participants s i.a i.e

/-- The lane whose sources a party reads. -/
def srcLane (i : Iss) (l : Nat) : Nat := if i.f.uni then lowLane i.a.sp.active else l

/-- What a memory instruction captures at issue: addresses, `nb` words of B, `nc` words of C. -/
def memCapture (s : State) (i : Iss) (wide : Bool) (nb nc : Nat) : Capture :=
  let ls := parties s i
  ⟨ls,
    ls.map fun l =>
      let x := srcA s i.a i.f i.e (srcLane i l)
      (l, if wide then effAddr64 i.e x else effAddr32 i.e x),
    ls.map fun l => (l, natWords nb (srcB s i.a i.f i.e (srcLane i l))),
    ls.map fun l => (l, natWords nc (srcC s i.a i.f i.e (srcLane i l))),
    i.a.sp.fmt, i.a.sp.active, [], [], none⟩

/-- Destination writes of a party. -/
def blockWrites (uni : Bool) (lane d n x : Nat) : List (Nat × Word) := if uni then sWrites d n x else vWrites lane d n x

/-- A residency predicate, p or q, if one is named (R243). -/
def resWrite (uni : Bool) (lane res : Nat) (v : Bool) : List (Nat × Word) :=
  if res = 0 then [] else [if uni then qWrite res v else pWrite lane res v]

/-- The value of a load (R241). -/
def extendLoad (sz : Nat) (bs : List Byte) : Nat :=
  let x := leNat bs
  if sz = 1 then wrapTo 32 (asInt 8 true x) else if sz = 3 then wrapTo 32 (asInt 16 true x) else x

/-- The parties' accesses with their checks; a page that is not resident holds the instruction unless a residency
predicate is named (R77). -/
def gatherAccs (s : State) (c : Acc) (k : AccKind) (fmtOk : Leaf → Bool) (res : Nat) (xs : List (Nat × Nat × Nat)) :
    Except Perf (List LaneAcc) × State :=
  let r := checkLanes s c k fmtOk xs
  match r.1 with
  | .error t => (.error (.fail t), r.2)
  | .ok accs =>
    let out := accs.filter fun x => x.leaf.isNone
    if res = 0 && !out.isEmpty then (.error (.hold (k != .read) 0 (out.map (·.va))), r.2)
    else (.ok accs, r.2)

/-- What the lanes of an instruction have done so far: destination writes, the first trap, the lines written by lane, the
lines read by lane and address, whether an access was performed. -/
structure LaneRun where
  ws    : List (Nat × Word)
  trap  : Option TrapRec
  lines : List (Nat × Nat)
  reads : List (Nat × Nat × Nat)
  any   : Bool

/-- Nothing done yet. -/
def LaneRun.start : LaneRun := ⟨[], none, [], [], false⟩

/-- Adds destination writes. -/
def LaneRun.addWrites (r : LaneRun) (ws : List (Nat × Word)) : LaneRun := { r with ws := r.ws ++ ws }

/-- The line that holds the word read at an address (R68). -/
def readLine (s : State) (l : Leaf) (va : Nat) : Option Nat := (linesOf s l (pageOff l va) 1).head?

/-- An acquiring read of a line: the scope checker (R68), and what the group hears (R107). -/
def acquireRead (s : State) (c : Acc) (acq : Bool) (scope : Nat) (l : Leaf) (va : Nat) : Option TrapRec × State :=
  match acq, readLine s l va with
  | true, some x => (scopeCheck s c va x, hearLine s c scope x)
  | _, _ => (none, s)

/-- What a plain read leaves for a later acquire fence (R106). -/
def plainRead (s : State) (acq : Bool) (l : Leaf) (lane va : Nat) : List (Nat × Nat × Nat) :=
  if acq then [] else (readLine s l va).toList.map fun x => (lane, va, x)

/-- The lanes in whose program order a party's access stands (R104): its own, or every lane of the split. -/
def orderLanes (uni : Bool) (cap : Capture) (l : Nat) : List Nat := if uni then lanesOf cap.active else [l]

/-- The scope at which a release of some lanes acts: its own, or a wider one of a release fence before it (R106). -/
def releaseScope (s : State) (c : Acc) (lanes : List Nat) (scope : Nat) : Nat :=
  match c.gid with
  | some gid => max scope ((fenceOf (getGroup s gid) lanes).getD 0)
  | none => scope

/-- Ends an instruction's accesses: its reads, its acquire (R105), its release or its plain writes (R68). -/
def finishAccs (s : State) (c : Acc) (uni : Bool) (cap : Capture) (acq rel : Bool) (scope : Nat) (r : LaneRun) : State :=
  let s0 := noteReads s c (r.reads.flatMap fun x => (orderLanes uni cap x.1).map fun l => (l, x.2))
  let s1 := if rel && !r.lines.isEmpty then noteRelease s0 c (releaseScope s0 c (r.lines.flatMap fun x => orderLanes uni cap x.1) scope) (r.lines.map Prod.snd)
    else r.lines.foldl (fun acc x => notePlain acc c (orderLanes uni cap x.1) [x.2]) s0
  match c.gid with
  | some gid => if acq && r.any then acquire s1 gid c.core scope else s1
  | none => s1

/-- LD and SLD performed on what their checks found (R245, R276), an acquire past the core's SI copies (R110): SZ M[10:8],
REQ M[13:11], ORD M[15:14], SCOPE M[18:16], RES M[21:19]. -/
def ldPerform (uni : Bool) (s : State) (c : Acc) (e : Enc) (cap : Capture) : Perf × State :=
  let sz := e.M 10 8
  let n := szBytes sz
  let res := e.M 21 19
  let acq := e.M 15 14 == 1
  let step (acc : LaneRun × State) (x : LaneAcc) : LaneRun × State :=
    match x.leaf with
    | none =>
      (acc.1.addWrites (blockWrites uni x.lane e.d.toNat (szN sz) 0 ++ resWrite uni x.lane res true), acc.2)
    | some l =>
      let v := readAt acc.2 c l x.va n (if acq && reqOf (e.M 13 11) l == 3 then 2 else e.M 13 11)
      let a := acquireRead v.2 c acq (e.M 18 16) l x.va
      let ws := acc.1.ws ++ blockWrites uni x.lane e.d.toNat (szN sz) (extendLoad sz v.1) ++ resWrite uni x.lane res false
      (⟨ws, acc.1.trap.orElse fun _ => a.1, [], acc.1.reads ++ plainRead v.2 acq l x.lane x.va, true⟩, a.2)
  let q := cap.checked.foldl step (LaneRun.start, s)
  (.done q.1.ws q.1.trap, finishAccs q.2 c uni cap acq false (e.M 18 16) q.1)

/-- The 8-byte halves of a store's bytes (R102), with offsets. -/
def halves (bs : List Byte) : List (Nat × List Byte) :=
  if bs.length > 8 then [(0, bs.take 8), (8, bs.drop 8)] else [(0, bs)]

/-- ST and SST performed on what their checks found (R245, R276). Lanes come one by one in an order of the device's choice, also
those that meet in one MX block (R73, R104, log 12). -/
def stPerform (uni : Bool) (s : State) (c : Acc) (e : Enc) (cap : Capture) : Perf × State :=
  let n := szBytes (e.M 10 8)
  let res := e.M 21 19
  let rel := e.M 15 14 == 2
  let ws := cap.checked.flatMap fun x => resWrite uni x.lane res x.leaf.isNone
  let units := cap.checked.flatMap fun x =>
    match x.leaf with
    | none => []
    | some l => (halves (leBytes n (wordsNat (mget cap.data x.lane [])))).map fun h =>
        (siKey s 0 l (pageOff l x.va + h.1), x.lane, l, x.va + h.1, h.2)
  let w := pickWinners units.length s units
  let s1 := w.1.foldl (fun acc u => writeAt acc c u.2.2.1 u.2.2.2.1 u.2.2.2.2 (e.M 13 11)) w.2
  let lines := units.flatMap fun u => (writtenLines s u.2.2.1 u.2.2.2.1 u.2.2.2.2.length).map fun x => (u.2.1, x)
  (.done ws none, finishAccs s1 c uni cap false rel (e.M 18 16) { LaneRun.start with lines })

/-- A floating atomic on one element (R250): 10 .fadd, 11 .fmin, 12 .fmax. -/
def atomFloat (op code o b : Nat) : Nat :=
  if op = 10 then roundPattern RCtx.atomic code 0 (exactSum 0 [fval code o, fval code b])
  else fminmax code (op == 12) true o b

/-- The new value of an atomic (R250), or none for a .cas that fails. -/
def atomNew (op t o b c : Nat) : Option Nat :=
  let bits := 8 * atBytes t
  let sg := t == 1 || t == 3
  match op with
  | 0 => some ((o + b) % 2 ^ bits)
  | 1 => some (if asInt bits sg b < asInt bits sg o then b else o)
  | 2 => some (if asInt bits sg o < asInt bits sg b then b else o)
  | 3 => some (o &&& b)
  | 4 => some (o ||| b)
  | 5 => some (o ^^^ b)
  | 6 => some b
  | 7 => if o = c then some b else none
  | 8 => some (if o ≥ b then 0 else o + 1)
  | 9 => some (if o = 0 ∨ o > b then b else o - 1)
  | _ =>
    if t = 4 then some (atomFloat op 0 o b)
    else if t = 5 then some (atomFloat op 1 o b)
    else
      let code := if t = 6 then 2 else 3
      some (atomFloat op code (o % 2 ^ 16) (b % 2 ^ 16) + 2 ^ 16 * atomFloat op code (o / 2 ^ 16) (b / 2 ^ 16))

/-- The pages that an atomic takes (R253). -/
def atomPage (op t : Nat) (l : Leaf) : Bool :=
  l.sf == 0
  || (decide (10 ≤ op) && ((t == 4 && l.df == 3) || (t == 6 && l.df == 2) || (t == 7 && l.df == 1)))
  || ((op == 6 || op == 7) && t == 0)

/-- ATOM, RED and SATOM performed on what their checks found (R251 to R253): OP M[11:8], AT M[14:12], ORD M[16:15], SCOPE M[19:17],
RES M[22:20]; `ret` says that the old value is returned. Each lane's is one read-modify-write at the home (R103). -/
def atomPerform (uni ret : Bool) (s : State) (c : Acc) (e : Enc) (cap : Capture) : Perf × State :=
  let op := e.M 11 8
  let t := e.M 14 12
  let n := atBytes t
  let res := e.M 22 20
  let ord := e.M 16 15
  let acq := ord % 2 == 1
  let rel := decide (2 ≤ ord)
  let dest (lane x : Nat) : List (Nat × Word) := if ret then blockWrites uni lane e.d.toNat (atN t) x else []
  let step (acc : LaneRun × State) (x : LaneAcc) : LaneRun × State :=
    match x.leaf with
    | none => (acc.1.addWrites (dest x.lane 0 ++ resWrite uni x.lane res true), acc.2)
    | some l =>
      let v := readAt acc.2 c l x.va n 5
      let o := leNat v.1
      let b := wordsNat (mget cap.data x.lane [])
      let new := atomNew op t o b (wordsNat (mget cap.third x.lane []))
      let a := acquireRead v.2 c acq (e.M 19 17) l x.va
      let s1 := match new with
        | some y => writeAt a.2 c l x.va (leBytes n y) 5
        | none => if l.domain then sendFlit a.2 (l.frame + pageOff l x.va) .rmw [] else a.2
      let lines := acc.1.lines ++ (if new.isSome then (writtenLines v.2 l x.va n).map fun y => (x.lane, y) else [])
      (⟨acc.1.ws ++ dest x.lane o ++ resWrite uni x.lane res false, acc.1.trap.orElse fun _ => a.1, lines,
        acc.1.reads ++ plainRead v.2 acq l x.lane x.va, true⟩, s1)
  let q := cap.checked.foldl step (LaneRun.start, s)
  (.done q.1.ws q.1.trap, finishAccs q.2 c uni cap acq rel (e.M 19 17) q.1)

/-- The object-table entry of a handle (R380): fresh, or the cached copy that has not been dropped. -/
def otEntry (s : State) (p h : Nat) : Nat × State :=
  let q := getPart s p
  let fresh := leNat ((rangeFrom (q.otbase + 32 * (h % 2 ^ 16)) 32).map fun a => cohByte s a 0)
  match mfind q.otcache (h % 2 ^ 16) with
  | some old =>
    let c := if old = fresh then (0, s) else choose s 2
    if c.1 = 1 then (old, c.2)
    else (fresh, modPart c.2 p fun q => { q with otcache := mset q.otcache (h % 2 ^ 16) fresh })
  | none => (fresh, modPart s p fun q => { q with otcache := mset q.otcache (h % 2 ^ 16) fresh })

/-- An object-table entry as an instruction or an engine reads it (R252): PART, GRANULE for a table in a granule that the
partition does not hold (R387), unless the entry is cached; a poisoned block strikes the task (R374). -/
def otRead (s : State) (c : Acc) (h : Nat) : Except TrapRec Nat × State :=
  let q := getPart s c.p
  let a := q.otbase + 32 * (h % 2 ^ 16)
  match mfind q.otcache (h % 2 ^ 16), holdsPhys s c.p a with
  | none, false => (.error (memTrap c 0 false 13 1 0 a), s)
  | some x, false => (.ok x, s)
  | _, true =>
    let r := otEntry (if s.poison.isEmpty then s else strikePoison s c ((rangeFrom a 32).map (canonA s))) c.p h
    (.ok r.1, r.2)

/-- The trap of cause group OBJ (R257, R365). -/
def objTrap (c : Acc) (lane code h entry : Nat) : TrapRec :=
  ⟨3, code, BitVec.ofNat 32 (h % 2 ^ 16 + entry % 256 * 2 ^ 16 + lane * 2 ^ 24), 0, c.w2⟩

/-- Extent `k` of a shape record; an unused dimension acts as 1 (R254). -/
def shapeExt (x k : Nat) : Nat := if k ≤ bitsOf x 15 14 then bitsOf x (87 + 24 * k) (64 + 24 * k) else 1

/-- Stride `k` of a shape record. -/
def shapeStr (x k : Nat) : Nat := if k = 0 then 1 else bitsOf x (159 + 32 * k) (128 + 32 * k)

/-- A legal shape record (R254). -/
def shapeLegal (x : Nat) : Bool :=
  let nd := bitsOf x 15 14
  x % 256 == 1 && [0, 1, 2, 3, 4, 5, 9, 12, 13, 14].contains (bitsOf x 13 10)
  && (List.range 4).all fun k =>
    if k ≤ nd then bitsOf x (87 + 24 * k) (64 + 24 * k) != 0
    else bitsOf x (87 + 24 * k) (64 + 24 * k) == 0 && shapeStr x k == 0

/-- One lane's tensor access: the record, the element size, how many of its elements lie in bounds, the address. -/
structure TenAcc where
  lane : Nat
  es   : Nat
  m    : Nat
  va   : Nat

/-- Steps 1 to 3 of R255 for a lane, and where its elements lie (R256). The coordinates are in `cap.data`, the handle in
`cap.addr`. -/
def tensorLane (s : State) (c : Acc) (st : Bool) (n : Nat) (cap : Capture) (lane : Nat) : Except TrapRec TenAcc × State :=
  let h := mget cap.addr lane 0
  let r := otRead s c h
  let x := r.1.toOption.getD 0
  let es := efBits (bitsOf x 13 10) / 8
  match r.1 with
  | .error t => (.error t, r.2)
  | .ok _ =>
  if !shapeLegal x then (.error (objTrap c lane 1 h x), r.2)
  else if !bitOf x (if st then 9 else 8) then (.error (objTrap c lane 2 h x), r.2)
  else if n * es > 16 then (.error (objTrap c lane 3 h x), r.2)
  else
    let co (k : Nat) : Nat := ((mget cap.data lane []).getD k 0).toNat
    let rest := (List.range 3).all fun k => co (k + 1) < shapeExt x (k + 1)
    let m := if rest then ((List.range n).filter fun j => co 0 + j < shapeExt x 0).length else 0
    let idx := (List.range 4).foldl (fun acc k => acc + co k * shapeStr x k) 0
    (.ok ⟨lane, es, m, 16 * bitsOf x 63 16 + es * idx⟩, r.2)

/-- The tensor accesses of every participant with all their checks (R255); the page of a lane none of whose elements is
in bounds is not touched. -/
def tensorLanes (s : State) (c : Acc) (st : Bool) (n : Nat) (cap : Capture) (ls : List Nat) :
    Except TrapRec (List (TenAcc × Option Chk)) × State :=
  match ls with
  | [] => (.ok [], s)
  | l :: rest =>
    let r := tensorLane s c st n cap l
    match r.1 with
    | .error t => (.error t, r.2)
    | .ok t =>
      let k := if t.m = 0 then (none, r.2)
        else
          let y := checkAcc r.2 c (if st then .write else .read) l t.va (n * t.es) anyPage
          (some y.1, y.2)
      match k.1 with
      | some (.bad e) => (.error e, k.2)
      | _ =>
        let q := tensorLanes k.2 c st n cap rest
        match q.1 with
        | .error e => (.error e, q.2)
        | .ok xs => (.ok ((t, k.1) :: xs), q.2)

/-- What the checks of a tensor access found, as `Capture` keeps it: the lanes' accesses (of no bytes where no element is in bounds)
and, by lane, the element size and how many elements are in bounds. -/
def tensorFound (xs : List (TenAcc × Option Chk)) : List LaneAcc × SMap (List Nat) :=
  (xs.map fun x => ⟨x.1.lane, x.1.va, x.1.m * x.1.es, match x.2 with | some (.ok l) => some l | _ => none⟩,
   xs.map fun x => (x.1.lane, [x.1.es, x.1.m]))

/-- VEC: elements of a tensor access, M[9:8]. -/
def vecN (e : Enc) : Nat := 2 ^ e.M 9 8

/-- The checks of TLD and TSTR (R255), RES M[18:16]. -/
def tensorCheckAll (st : Bool) (s : State) (c : Acc) (e : Enc) (cap : Capture) : Except Perf Capture × State :=
  let r := tensorLanes s c st (vecN e) cap cap.lanes
  match r.1 with
  | .error t => (.error (.fail t), r.2)
  | .ok xs =>
    let out := xs.filter fun x => x.2 == some .nonres
    if e.M 18 16 = 0 && !out.isEmpty then (.error (.hold st 0 (out.map fun x => x.1.va)), r.2)
    else (.ok { cap with checked := (tensorFound xs).1, found := (tensorFound xs).2 }, r.2)

/-- The part of a tensor lane's bytes that a piece moves: from, and how many; a half is named in `cap.found`. -/
def tensorPart (cap : Capture) (x : LaneAcc) : Nat × Nat :=
  match mget cap.found x.lane [] with
  | [_, _, h] => (8 * h, min 8 (x.n - 8 * h))
  | _ => (0, x.n)

/-- The predicates of a tensor lane (R256): IB M[12:10] first, then RES M[18:16], as the entry lists them (log 62). -/
def tensorPreds (e : Enc) (cap : Capture) (x : LaneAcc) : List (Nat × Word) :=
  pWrite x.lane (e.M 12 10) ((mget cap.found x.lane []).getD 1 0 == vecN e)
    :: resWrite false x.lane (e.M 18 16) (x.n != 0 && x.leaf.isNone)

/-- TSTR performed on what its checks found (R255, R256): REQ M[15:13]. Units of one length contest a place (R5); of two lengths
both are stored, in an order of the device's choice. -/
def tstrPerform (s : State) (c : Acc) (e : Enc) (cap : Capture) : Perf × State :=
  let units := cap.checked.flatMap fun x =>
    match x.leaf with
    | some l =>
      let p := tensorPart cap x
      let bs := ((leBytes x.n (wordsNat (mget cap.third x.lane []))).drop p.1).take p.2
      ((halves bs).filter fun h => !h.2.isEmpty).map fun h =>
        (32 * siKey s 0 l (pageOff l x.va + p.1 + h.1) + h.2.length, x.lane, l, x.va + p.1 + h.1, h.2)
    | none => []
  let w := pickWinners units.length s units
  let o := if units.length ≤ 1 then (0, w.2) else choose w.2 2
  let s1 := (if o.1 = 1 then w.1.reverse else w.1).foldl (fun acc u =>
    writeAt acc c u.2.2.1 u.2.2.2.1 u.2.2.2.2 (e.M 15 13)) o.2
  let lines := units.flatMap fun u => (writtenLines s u.2.2.1 u.2.2.2.1 u.2.2.2.2.length).map fun x => (u.2.1, x)
  (.done (cap.checked.flatMap (tensorPreds e cap)) none, finishAccs s1 c false cap false false 0 { LaneRun.start with lines })

/-- TLD performed on what its checks found (R255, R256): elements out of bounds read as 0. -/
def tldPerform (s : State) (c : Acc) (e : Enc) (cap : Capture) : Perf × State :=
  let step (acc : LaneRun × State) (x : LaneAcc) : LaneRun × State :=
    let es := (mget cap.found x.lane []).getD 0 1
    let p := tensorPart cap x
    let v := match x.leaf with
      | some l => if p.2 = 0 then ([], acc.2) else readAt acc.2 c l (x.va + p.1) p.2 (e.M 15 13)
      | none => ([], acc.2)
    let reads := match x.leaf with
      | some l => if p.2 = 0 then [] else plainRead v.2 false l x.lane (x.va + p.1)
      | none => []
    let regs := (vecN e * es + 3) / 4
    let ws := match mget cap.found x.lane [] with
      | [_, _, h] => vWrites x.lane (e.d.toNat + 2 * h) (min 2 (regs - 2 * h)) (leNat v.1)
      | _ => vWrites x.lane e.d.toNat regs (leNat v.1)
    ({ acc.1 with ws := acc.1.ws ++ ws ++ tensorPreds e cap x, reads := acc.1.reads ++ reads }, v.2)
  let q := cap.checked.foldl step (LaneRun.start, s)
  (.done q.1.ws none, finishAccs q.2 c false cap false false 0 q.1)

/-- The first failing scratchpad check, lowest lane first. -/
def scrChecks (c : Acc) (tm : Team) (wr : Bool) (n : Nat) (xs : List (Nat × Nat)) : Option TrapRec :=
  xs.findSome? fun x => scrCheck c tm x.1 wr x.2 n

/-- LDS and SLDS performed (R247, R277): SZ M[10:8], Q M[12:11]; `got` is what a wait saw. -/
def ldsPerform (uni : Bool) (got : SMap Byte) (s : State) (c : Acc) (e : Enc) (cap : Capture) : Perf × State :=
  let tm := getTeam s c.team
  let sz := e.M 10 8
  let ws := cap.addr.flatMap fun x =>
    blockWrites uni x.1 e.d.toNat (szN sz) (extendLoad sz (seenBytes tm got x.2 (szBytes sz)))
  (.done ws none, if !uni && e.M 12 11 != 0 && !cap.lanes.isEmpty then
      (match c.gid with | some gid => acquireAround s gid c.core 1 | none => s)
    else s)

/-- STS and SSTS performed (R248, R277): KEEP M[11]. -/
def stsPerform (uni : Bool) (s : State) (c : Acc) (e : Enc) (cap : Capture) : Perf × State :=
  let n := szBytes (e.M 10 8)
  let units := cap.addr.flatMap fun x =>
    (halves (leBytes n (wordsNat (mget cap.data x.1 [])))).map fun h => (x.2 + h.1, h.2)
  let w := pickWinners units.length s units
  let s1 := w.1.foldl (fun acc u => scrWrite acc c.team u.1 u.2) w.2
  (.done [] none, if uni || e.M 11 11 == 1 || units.isEmpty then s1
    else fill (noteRelease s1 c 1 []) c.team ((cap.addr.flatMap fun x => granules x.2 n).eraseDups))

/-- ATOMS performed (R251): in the SRAM, lanes ascending; a scope of .die or wider acts as .team (R105). -/
def atomsPerform (s : State) (c : Acc) (e : Enc) (cap : Capture) : Perf × State :=
  let op := e.M 11 8
  let t := e.M 14 12
  let n := atBytes t
  let ord := e.M 16 15
  let step (acc : List (Nat × Word) × Bool × State) (x : Nat × Nat) : List (Nat × Word) × Bool × State :=
    let o := leNat (scrRead (getTeam acc.2.2 c.team) x.2 n)
    let ws := acc.1 ++ vWrites x.1 e.d.toNat (atN t) o
    match atomNew op t o (wordsNat (mget cap.data x.1 [])) (wordsNat (mget cap.third x.1 [])) with
    | some y => (ws, true, scrWrite acc.2.2 c.team x.2 (leBytes n y))
    | none => (ws, acc.2.1, acc.2.2)
  let q := cap.addr.foldl step ([], false, s)
  let scope := min (e.M 19 17) 1
  let s2 := if decide (2 ≤ ord) && q.2.1 then noteRelease q.2.2 c scope [] else q.2.2
  (.done q.1 none, match c.gid with
    | some gid => if ord % 2 = 1 ∧ !cap.lanes.isEmpty then acquireAround s2 gid c.core scope else s2
    | none => s2)

/-- The checks of an access of the byte space: what it captured with what they found. -/
def checkPlain (s : State) (c : Acc) (k : AccKind) (fmtOk : Leaf → Bool) (res n : Nat) (cap : Capture) :
    Except Perf Capture × State :=
  let r := gatherAccs s c k fmtOk res (cap.addr.map fun x => (x.1, x.2, n))
  match r.1 with
  | .error p => (.error p, r.2)
  | .ok accs => (.ok { cap with checked := accs }, r.2)

/-- The checks of an access of scratchpad. -/
def checkScr (s : State) (t : Option TrapRec) (cap : Capture) : Except Perf Capture × State :=
  match t with
  | some t => (.error (.fail t), s)
  | none => (.ok cap, s)

/-- The checks of a memory instruction (R57, R59, R77, R244, R255), all before any of its accesses: how it stops or is held, or what
it captured with what they found. -/
def checkMem (s : State) (c : Acc) (i : Instr) (cap : Capture) : Except Perf Capture × State :=
  let tm := getTeam s c.team
  match i with
  | .ld e => checkPlain s c .read anyPage (e.M 21 19) (szBytes (e.M 10 8)) cap
  | .sld e => checkPlain s c .read anyPage (e.M 21 19) (szBytes (e.M 10 8)) cap
  | .st e => checkPlain s c .write anyPage (e.M 21 19) (szBytes (e.M 10 8)) cap
  | .sst e => checkPlain s c .write anyPage (e.M 21 19) (szBytes (e.M 10 8)) cap
  | .atom e => checkPlain s c .atomic (atomPage (e.M 11 8) (e.M 14 12)) (e.M 22 20) (atBytes (e.M 14 12)) cap
  | .red e => checkPlain s c .atomic (atomPage (e.M 11 8) (e.M 14 12)) (e.M 22 20) (atBytes (e.M 14 12)) cap
  | .satom e => checkPlain s c .atomic (atomPage (e.M 11 8) (e.M 14 12)) (e.M 22 20) (atBytes (e.M 14 12)) cap
  | .tld e => tensorCheckAll false s c e cap
  | .tstr e => tensorCheckAll true s c e cap
  | .mdrn e =>
    if e.M 16 16 = 1 then checkScr s (mdrnScrCheck s c e cap) cap
    else
      let r := mdrnCheck s c e cap
      match r.1 with
      | .error p => (.error p, r.2)
      | .ok accs => (.ok { cap with checked := accs }, r.2)
  | .lds e => checkScr s (scrChecks c tm false (szBytes (e.M 10 8)) cap.addr) cap
  | .slds e => checkScr s (scrChecks c tm false (szBytes (e.M 10 8)) cap.addr) cap
  | .sts e => checkScr s (scrChecks c tm true (szBytes (e.M 10 8)) cap.addr) cap
  | .ssts e => checkScr s (scrChecks c tm true (szBytes (e.M 10 8)) cap.addr) cap
  | .atoms e => checkScr s (scrChecks c tm true (atBytes (e.M 14 12)) cap.addr) cap
  | _ => (.ok cap, s)

/-- A memory instruction, or a piece of one, performed on what it captured and what its checks found. -/
def runMem (s : State) (c : Acc) (i : Instr) (cap : Capture) : Perf × State :=
  match i with
  | .ld e => ldPerform false s c e cap
  | .sld e => ldPerform true s c e cap
  | .st e => stPerform false s c e cap
  | .sst e => stPerform true s c e cap
  | .atom e => atomPerform false true s c e cap
  | .red e => atomPerform false false s c e cap
  | .satom e => atomPerform true true s c e cap
  | .tld e => tldPerform s c e cap
  | .tstr e => tstrPerform s c e cap
  | .mdrn e => if e.M 16 16 = 1 then mdrnScratch s c e cap else mdrnMemory s c e cap
  | .lds e => ldsPerform false [] s c e cap
  | .slds e => ldsPerform true [] s c e cap
  | .sts e => stsPerform false s c e cap
  | .ssts e => stsPerform true s c e cap
  | .atoms e => atomsPerform s c e cap
  | _ => (.done [] none, s)

/-- A memory instruction performed whole on what it captured: its checks, then its accesses. -/
def performMem (s : State) (c : Acc) (i : Instr) (cap : Capture) : Perf × State :=
  let r := checkMem s c i cap
  match r.1 with
  | .error p => (p, r.2)
  | .ok k => runMem r.2 c i k

/-- What the accesses of a memory instruction touch: lane, address, bytes, and whether it is scratchpad. -/
def touches (s : State) (c : Acc) (i : Instr) (cap : Capture) : List (Nat × Nat × Nat × Bool) :=
  let plain (n : Nat) (scr : Bool) : List (Nat × Nat × Nat × Bool) := cap.addr.map fun x => (x.1, x.2, n, scr)
  let tensor (st : Bool) (n : Nat) : List (Nat × Nat × Nat × Bool) :=
    if cap.found.isEmpty then cap.lanes.filterMap fun l =>
      match (tensorLane s c st n cap l).1 with
      | .ok t => some (l, t.va, t.m * t.es, false)
      | .error _ => none
    else cap.checked.map fun x => (x.lane, x.va + (tensorPart cap x).1, (tensorPart cap x).2, false)
  -- the rows and the image that an MMA has still to read (R224)
  let mma (e : Enc) : List (Nat × Nat × Nat × Bool) :=
    let m := mmaPlace cap
    let row (l : Nat) : List (Nat × Nat × Nat × Bool) :=
      if e.M 11 10 = 0 then [(l, mmaRow m l, efBits (fmtAF cap.fmt) / 8 * mmaK (fmtAF cap.fmt), true)] else []
    let image (l : Nat) : List (Nat × Nat × Nat × Bool) :=
      if e.M 13 12 = 0 then [(l, m.bbase, mmaImage e cap.fmt, true)] else []
    cap.lanes.flatMap fun l => row l ++ image l
  match i with
  | .ld e => plain (szBytes (e.M 10 8)) false
  | .sld e => plain (szBytes (e.M 10 8)) false
  | .st e => plain (szBytes (e.M 10 8)) false
  | .sst e => plain (szBytes (e.M 10 8)) false
  | .atom e => plain (atBytes (e.M 14 12)) false
  | .red e => plain (atBytes (e.M 14 12)) false
  | .satom e => plain (atBytes (e.M 14 12)) false
  | .tld e => tensor false (vecN e)
  | .tstr e => tensor true (vecN e)
  | .mdrn e =>
    if e.M 15 14 = 0 then (mdrnUnits e cap).map fun x => (x.1, x.2.2, min 8 (mdrnEs (e.M 13 10)), e.M 16 16 == 1)
    else cap.addr.map fun x => (x.1, x.2, mmaN (e.M 9 8) * mdrnEs (e.M 13 10), e.M 16 16 == 1)
  | .mma e => mma e
  | .mmac e => mma e
  | .lds e => plain (szBytes (e.M 10 8)) true
  | .slds e => plain (szBytes (e.M 10 8)) true
  | .sts e => plain (szBytes (e.M 10 8)) true
  | .ssts e => plain (szBytes (e.M 10 8)) true
  | .atoms e => plain (atBytes (e.M 14 12)) true
  | _ => []

/-- The locations of an access (R102): scratchpad bytes, virtual bytes, and where those are now. -/
def locKeys (s : State) (p va n : Nat) (scr : Bool) : List Nat :=
  if scr then (rangeFrom va n).map (4 * ·)
  else
    (rangeFrom va n).map (4 * · + 1) ++
      (match walk s p va with
       | .ok l => if l.domain then [] else (physAddrs l (pageOff l va) n).map (4 * · + 2)
       | _ => [])

/-- Whether an instruction is of the uniform set. -/
def isUni (i : Instr) : Bool := (formOf i).elim false fun x => x.1.uni

/-- Whether an earlier access that is not performed yet must come before a later one (R104): it releases or acquires, or
one lane makes both to one location. -/
def mustPrecede (s : State) (c : Acc) (i : Instr) (ci : Capture) (j : Instr) (cj : Capture) : Bool :=
  ((formOf i).elim false fun x => x.1.order x.2)
  || (touches s c i ci).any fun x => (touches s c j cj).any fun y =>
      (isUni i || isUni j || x.1 == y.1)
      && (locKeys s c.p x.2.1 x.2.2.1 x.2.2.2).any (locKeys s c.p y.2.1 y.2.2.1 y.2.2.2).contains

/-- Whether an instruction must wait for earlier operations of its group that are not performed yet. -/
def mustWait (s : State) (c : Acc) (earlier : List Op) (j : Instr) (cj : Capture) : Bool :=
  earlier.any fun o => (opParts o).any fun p => mustPrecede s c p.1 p.2 j cj

/-- What one lane of a captured instruction needs. -/
def capLane (cap : Capture) (l : Nat) : Capture :=
  { cap with lanes := [l], addr := cap.addr.filter (·.1 == l), data := cap.data.filter (·.1 == l)
             third := cap.third.filter (·.1 == l), checked := cap.checked.filter (·.lane == l)
             found := cap.found.filter (·.1 == l) }

/-- The 8-byte half `h` of a 16-byte access (R102): the encoding with size code 5, of a load with its half of the block. -/
def halfEnc (e : Enc) (load : Bool) (h : Nat) : Enc :=
  { e with d := if load then e.d + BitVec.ofNat 8 (2 * h) else e.d
           m := { e.m with md := (e.m.md &&& ~~~7#17) ||| 5#17 } }

/-- What a half of a 16-byte access needs. -/
def halfCap (cap : Capture) (h : Nat) : Capture :=
  { cap with addr := cap.addr.map fun x => (x.1, x.2 + 8 * h)
             data := cap.data.map fun x => (x.1, (x.2.drop (2 * h)).take 2)
             checked := cap.checked.map fun x => { x with va := x.va + 8 * h, n := 8 } }

/-- The loads and stores of a size code: the encoding, the constructor, whether it loads. -/
def sizedAcc (i : Instr) : Option (Enc × (Enc → Instr) × Bool) :=
  match i with
  | .ld e => some (e, .ld, true)
  | .sld e => some (e, .sld, true)
  | .st e => some (e, .st, false)
  | .sst e => some (e, .sst, false)
  | .lds e => some (e, .lds, true)
  | .slds e => some (e, .slds, true)
  | .sts e => some (e, .sts, false)
  | .ssts e => some (e, .ssts, false)
  | _ => none

/-- The halves of a tensor lane's bytes, where it has more than 8 of them in bounds. -/
def tensorHalves (i : Instr) (cap : Capture) : List (Instr × Capture) :=
  if cap.checked.any fun x => decide (x.n > 8) then
    [0, 1].map fun h => (i, { cap with found := cap.found.map fun x => (x.1, x.2 ++ [h]) })
  else [(i, cap)]

/-- The rows of an MDRN without RED unit by unit (R231); on a converted page a row stays whole, one write of its blocks (R72,
log 42). -/
def rowUnits (e : Enc) (cap : Capture) : List (Instr × Capture) :=
  if cap.checked.all fun x => x.leaf.all (·.sf == 0) then
    (mdrnUnits e cap).map fun x => (.mdrn e, { cap with found := [(x.1, [x.2.1])] })
  else [(.mdrn e, cap)]

/-- The pieces in which one lane's access may be performed (R102): the halves of 16 bytes, the units of a row, or the whole. -/
def lanePieces (i : Instr) (cap : Capture) : List (Instr × Capture) :=
  match sizedAcc i with
  | some (e, mk, load) =>
    if e.M 10 8 = 6 then [0, 1].map fun h => (mk (halfEnc e load h), halfCap cap h) else [(i, cap)]
  | none =>
    match i with
    | .tld _ => tensorHalves i cap
    | .tstr _ => tensorHalves i cap
    | .mdrn e => if e.M 15 14 = 0 then rowUnits e cap else [(i, cap)]
    | _ => [(i, cap)]

/-- The pieces in which an instruction may be performed once its checks have passed: its lanes are not ordered among each other
(R104). Rows of MDRN with RED in scratchpad are one update (R231). -/
def piecesOfInstr (i : Instr) (cap : Capture) : List (Instr × Capture) :=
  let lanes (j : Instr) : List (Instr × Capture) := cap.lanes.flatMap fun l => lanePieces j (capLane cap l)
  match i with
  | .ld e => lanes (.ld e)
  | .sld e => lanes (.sld e)
  | .st e => lanes (.st e)
  | .sst e => lanes (.sst e)
  | .atom e => lanes (.atom e)
  | .red e => lanes (.red e)
  | .tld e => lanes (.tld e)
  | .tstr e => lanes (.tstr e)
  | .mdrn e => if e.M 16 16 = 1 ∧ e.M 15 14 ≠ 0 then [(.mdrn e, cap)] else lanes (.mdrn e)
  | .lds e => lanes (.lds e)
  | .slds e => lanes (.slds e)
  | .sts e => lanes (.sts e)
  | .ssts e => lanes (.ssts e)
  | .atoms e => lanes (.atoms e)
  | j => [(j, cap)]

/-- An atomic, whose lanes at one location are performed in ascending order (R251). -/
def isAtomic (i : Instr) : Bool :=
  match i with
  | .atom _ => true
  | .red _ => true
  | .atoms _ => true
  | _ => false

/-- Two pieces touch one location. -/
def piecesMeet (s : State) (c : Acc) (p q : Instr × Capture) : Bool :=
  (touches s c p.1 p.2).any fun x => (touches s c q.1 q.2).any fun y =>
    (locKeys s c.p x.2.1 x.2.2.1 x.2.2.2).any (locKeys s c.p y.2.1 y.2.2.1 y.2.2.2).contains

/-- The pieces that may be performed next, by place in the list. -/
def openPieces (s : State) (c : Acc) (ps : List (Instr × Capture)) : List Nat :=
  (List.range ps.length).filter fun k =>
    match ps[k]? with
    | some p => !isAtomic p.1 || (ps.take k).all fun q => !piecesMeet s c q p
    | none => false

/-- The granules that a piece of a filling store touches. -/
def pieceGranules (p : Instr × Capture) : List Nat :=
  match p.1 with
  | .mdrn e => (mdrnUnits e p.2).map (·.2.2 / 16)
  | _ => p.2.addr.map (·.2 / 16)

/-- A piece of a filling store leaves the full bits of a granule to the last piece that touches it (R60, R231, R248). -/
def pieceInstr (p : Instr × Capture) (rest : List (Instr × Capture)) : Instr :=
  let later := rest.any fun q => (pieceGranules q).any (pieceGranules p).contains
  match p.1 with
  | .sts e => if later then .sts { e with m := { e.m with md := e.m.md ||| 8#17 } } else .sts e
  | .mdrn e => if later && e.M 16 16 == 1 then .mdrn { e with m := { e.m with md := e.m.md ||| 0x200#17 } } else .mdrn e
  | i => i

/-- One piece of an operation is performed by `run`, of the device's choice among those, by place, that may be next; a piece that
has to wait stays. -/
def pickPiece (run : State → Instr × Capture → List (Instr × Capture) → Perf × State) (ks : List Nat) (s : State) (c : Acc)
    (gid : Nat) (o : Op) (ps : List (Instr × Capture)) (todo : List Half) (t : Option TrapRec) : State :=
  let ch := choose s ks.length
  let k := ks.getD ch.1 0
  match ps[k]? with
  | none => settleReplay ch.2 c gid o.id (.done [] t)
  | some p =>
    let rest := ps.eraseIdx k
    let r := run ch.2 p rest
    match r.1 with
    | .done ws u =>
      let s1 := settleReplay r.2 c gid o.id (.done ws (t.orElse fun _ => u))
      if rest.isEmpty then s1 else setStage s1 gid o.id (.pieces rest todo (t.orElse fun _ => u))
    | q => settleReplay r.2 c gid o.id q

/-- One piece of a memory operation is performed. -/
def performPiece (s : State) (c : Acc) (gid : Nat) (o : Op) (ps : List (Instr × Capture)) (todo : List Half)
    (t : Option TrapRec) : State :=
  pickPiece (fun s p rest => runMem s c (pieceInstr p rest) p.2) (openPieces s c ps) s c gid o ps todo t

/-- A held memory operation is performed: after its checks whole, or from now on piece by piece on what they found, as the device
chooses (R57, R104); it reads a compand table once (R52). -/
def performWhole (s : State) (c : Acc) (gid : Nat) (o : Op) (i : Instr) (cap : Capture) : State :=
  let r := checkMem s c i cap
  match r.1 with
  | .error p => settleReplay r.2 c gid o.id p
  | .ok k0 =>
    let k := match i with | .mdrn _ => keepTable r.2 c.core k0 | _ => k0
    let ps := piecesOfInstr i k
    let ch := if ps.length ≤ 1 then (0, r.2) else choose r.2 2
    if ch.1 = 1 then setStage ch.2 gid o.id (.pieces ps [] none)
    else
      let q := runMem ch.2 c i k
      settleReplay q.2 c gid o.id q.1

/-- A memory instruction goes outstanding: performed at once, or later, as the device chooses (R104); one behind an access that
must come first, later. -/
def memIssue (instr : Instr) (k : Capture) (i : Iss) (s : State) : State :=
  let c := accOf i
  let later := mustWait s c (getGroup s i.a.gid).ops instr k
  let ch := if later then (0, s) else choose s 2
  if later || ch.1 = 1 then outstanding ch.2 i [] (.held instr k) false false
  else
    let r := performMem ch.2 c instr k
    settle r.2 i instr k false r.1

/-- The effect of a memory instruction. -/
def memEffect (instr : Instr) (cap : State → Iss → Capture) (i : Iss) (s : State) : State := memIssue instr (cap s i) i s

/-- LD (R245). -/
def execLd (e : Enc) (s : State) : Res := issue formLd e s (memEffect (.ld e) fun s i => memCapture s i true 0 0)
/-- ST (R245). -/
def execSt (e : Enc) (s : State) : Res :=
  issue formSt e s (memEffect (.st e) fun s i => memCapture s i true (szN (e.M 10 8)) 0)
/-- SLD (R276). -/
def execSld (e : Enc) (s : State) : Res := issue formSld e s (memEffect (.sld e) fun s i => memCapture s i true 0 0)
/-- SST (R276). -/
def execSst (e : Enc) (s : State) : Res :=
  issue formSst e s (memEffect (.sst e) fun s i => memCapture s i true (szN (e.M 10 8)) 0)
/-- ATOM (R251). -/
def execAtom (e : Enc) (s : State) : Res :=
  issue formAtom e s (memEffect (.atom e) fun s i => memCapture s i true (atN (e.M 14 12)) (atN (e.M 14 12)))
/-- RED (R251). -/
def execRed (e : Enc) (s : State) : Res :=
  issue formRed e s (memEffect (.red e) fun s i => memCapture s i true (atN (e.M 14 12)) 0)
/-- SATOM (R276). -/
def execSatom (e : Enc) (s : State) : Res :=
  issue formSatom e s (memEffect (.satom e) fun s i => memCapture s i true (atN (e.M 14 12)) (atN (e.M 14 12)))

/-- MDRN (R230): N M[9:8], DF M[13:10], RED M[15:14], SP M[16], KEEP M[17], REQ M[20:18]. -/
def mdrnEffect (i : Iss) (s : State) : State :=
  let k := mdrnCapture s i
  memIssue (.mdrn i.e) k.1 i k.2

/-- MDRN (R230). -/
def execMdrn (e : Enc) (s : State) : Res := issue formMdrn e s mdrnEffect

/-- Registers of the tensor data block that a record gives (R255). -/
def tensorRegs (e : Enc) (x : Nat) : Nat := (vecN e * (efBits (bitsOf x 13 10) / 8) + 3) / 4

/-- A legal record that a lane's handle names, as far as the object table can be read. -/
def tensorRecord (s : State) (a : At) (f : Form) (e : Enc) (l : Nat) : Option Nat :=
  (otRead s ⟨a.tm.part, a.tm.tid, a.tm.core, teamKey a.gid, some a.gid, 0, 0⟩ (srcA s a f e l % 2 ^ 16)).1.toOption.filter
    shapeLegal

/-- What TLD and TSTR capture: handles, coordinates, data words. -/
def tensorCapture (st : Bool) (s : State) (i : Iss) : Capture :=
  let ls := participants s i.a i.e
  let hs := ls.map fun l => (l, srcA s i.a i.f i.e l % 2 ^ 16)
  ⟨ls, hs, ls.map fun l => (l, natWords 4 (srcB s i.a i.f i.e l)),
    if st then hs.map fun x =>
      let n := min 4 (((tensorRecord s i.a i.f i.e x.1).map (tensorRegs i.e)).getD 0)
      (x.1, natWords n (if i.e.ctl.lc = 0 then readV s i.a x.1 i.e.m.c.toNat n else srcC s i.a i.f i.e x.1)) else [],
    i.a.sp.fmt, i.a.sp.active, [], [], none⟩

/-- TLD or TSTR with a data block of `n` registers. -/
def blockForm (st : Bool) (f : Form) (n : Nat) : Form :=
  if st then { f with c := fun _ _ => .vs n } else { f with d := fun _ _ => .vd n }

/-- What the encoding checks of an instruction read (R183). -/
def encCtx (s : State) (a : At) : EncCtx := ⟨a.sp.handler, a.sp.chain, quotaNow a.g, a.sp.fmt, s.caps⟩

/-- Of two forms of an instruction the one that fails the earlier check of R183; codes stand in the order of the checks. -/
def worseForm (e : Enc) (x : EncCtx) (f g : Form) : Form :=
  match encCheck f e x, encCheck g e x with
  | none, some _ => g
  | some b, some c => if c < b then g else f
  | _, none => f

/-- The form of TLD or TSTR whose checks are made (R173, R183): once it may issue, the records of its participants give the size of
the data block, and the block that fails first counts. -/
def tensorForm (st : Bool) (f : Form) (e : Enc) (s : State) : Form :=
  match curAt s with
  | none => f
  | some a =>
    if !eligible s a f e then f
    else
      match atOf (book s a e) a.gid a.k with
      | none => f
      | some b =>
        let sizes := ((participants s b e).filterMap fun l => (tensorRecord s b f e l).map (tensorRegs e)).eraseDups
        (sizes.map (blockForm st f)).foldl (worseForm e (encCtx s a)) f

/-- The effect of TLD and TSTR. -/
def tensorEffect (st : Bool) (instr : Instr) (i : Iss) (s : State) : State :=
  memEffect instr (fun s i => tensorCapture st s i) i s

/-- TLD (R256). -/
def execTld (e : Enc) (s : State) : Res := issue (tensorForm false formTld e s) e s (tensorEffect false (.tld e))
/-- TSTR (R256). -/
def execTstr (e : Enc) (s : State) : Res := issue (tensorForm true formTstr e s) e s (tensorEffect true (.tstr e))

/-- The effect of LDS: a wait's snapshot is read at once. -/
def ldsEffect (got : SMap Byte) (i : Iss) (s : State) : State :=
  let k := memCapture s i false 0 0
  if i.e.M 12 11 = 0 then memIssue (.lds i.e) k i s
  else
    let c := checkMem s (accOf i) (.lds i.e) k
    let r := match c.1 with
      | .error p => (p, c.2)
      | .ok k1 => ldsPerform false got c.2 (accOf i) i.e k1
    settle r.2 i (.lds i.e) k false r.1

/-- LDS (R247). -/
def execLds (e : Enc) (s : State) : Res := issueWait formLds e (.lds e) s ldsEffect
/-- SLDS (R277). -/
def execSlds (e : Enc) (s : State) : Res := issue formSlds e s (memEffect (.slds e) fun s i => memCapture s i false 0 0)
/-- STS (R248). -/
def execSts (e : Enc) (s : State) : Res :=
  issue formSts e s (memEffect (.sts e) fun s i => memCapture s i false (szN (e.M 10 8)) 0)
/-- SSTS (R277). -/
def execSsts (e : Enc) (s : State) : Res :=
  issue formSsts e s (memEffect (.ssts e) fun s i => memCapture s i false (szN (e.M 10 8)) 0)
/-- ATOMS (R251). -/
def execAtoms (e : Enc) (s : State) : Res :=
  issue formAtoms e s (memEffect (.atoms e) fun s i => memCapture s i false (atN (e.M 14 12)) (atN (e.M 14 12)))

/-- PREF (R258): it changes no value that a read returns. -/
def execPref (e : Enc) (s : State) : Res := issue formPref e s fun i s => retireV s i []

/-- The effect of RESQ (R259): W M[8]; the operation stays until its records are written (R78). -/
def resqEffect (i : Iss) (s : State) : State :=
  let c := accOf i
  let k := memCapture s i true 0 0
  let w := i.e.M 8 8 == 1
  let r := checkLanes s c (if w then .write else .read) anyPage (k.addr.map fun x => (x.1, x.2, 1))
  match r.1 with
  | .error t => faultV r.2 i t
  | .ok accs =>
    let out := accs.filter fun x => x.leaf.isNone
    if out.isEmpty then retireV r.2 i []
    else
      let id := (getGroup r.2 i.a.gid).nextOp
      addHeld (outstanding r.2 i [] (.resq k) false false) c (.resq i.a.gid id) w 0 (out.map (·.va))

/-- RESQ (R259). -/
def execResq (e : Enc) (s : State) : Res := issue formResq e s resqEffect

/-- The effect of OINFO (R278). -/
def oinfoEffect (i : Iss) (s : State) : State :=
  if uniGuard s i.a i.e then
    let l := lowLane i.a.sp.active
    let r := otRead s (accOf i) (srcA s i.a i.f i.e l)
    match r.1 with
    | .error t => faultV r.2 i t
    | .ok x => retireV r.2 i (sWrites i.e.d.toNat 1 (x / 2 ^ (32 * (srcB s i.a i.f i.e l % 8))))
  else retireV s i []

/-- OINFO (R278). -/
def execOinfo (e : Enc) (s : State) : Res := issue formOinfo e s oinfoEffect

end Sys2Proof.Machine
end

