-- ==== Sys2Proof/Machine/Slate.lean ====
section
/-!
DEFINITION. Slate (R137 to R140): HINS, HPROBE, HACC, HDEL (R260, R261) and HINIT (R299). A lane's operation is performed
as a whole; one that meets a non-resident page of its spill region is held and done again from its start.
-/

namespace Sys2Proof.Machine

/-- The key that is never stored (R137). -/
def badKey : Nat := 2 ^ 64 - 1

/-- The party that Slate is towards the byte space (R366). -/
def slateAcc (c : Acc) : Acc := { c with src := 3 }

/-- `n` bytes of the spill region, read as UC. -/
def slateRead (s : State) (c : Acc) (va n : Nat) : Except Perf (List Byte × State) :=
  let r := checkAcc s c .read 0 va n anyPage
  match r.1 with
  | .ok l => .ok (readAt r.2 c l va n 4)
  | .nonres => .error (.hold false 2 [va])
  | .bad t => .error (.fail t)

/-- Bytes of the spill region written as UC. -/
def slateWrite (s : State) (c : Acc) (va : Nat) (bs : List Byte) : Except Perf State :=
  let r := checkAcc s c .write 0 va bs.length anyPage
  match r.1 with
  | .ok l => .ok (writeAt r.2 c l va bs 4)
  | .nonres => .error (.hold true 2 [va])
  | .bad t => .error (.fail t)

/-- The bucket of a key (R139). -/
def slateBucket (nb k : Nat) : Nat := k * 0x9E3779B97F4A7C15 % 2 ^ 64 / 2 ^ (64 - Nat.log2 nb)

/-- The first spill entry of a key's walk (R139). -/
def slateStart (ns k : Nat) : Nat := k * 0x9E3779B97F4A7C15 % 2 ^ 64 / 2 ^ 16 % ns

/-- Address of a spill entry (R138). -/
def spillVa (t : Slate) (i : Nat) : Nat := t.base + 64 + 16 * i

/-- A spill entry: key and value. -/
def spillRead (s : State) (c : Acc) (t : Slate) (i : Nat) : Except Perf (Nat × Nat × State) := do
  let (bs, s) ← slateRead s c (spillVa t i) 16
  .ok (leNat (bs.take 8), leNat (bs.drop 8), s)

/-- Where a key is. -/
inductive Found where
  | bucket (slot : Nat)
  | spill (i : Nat)
  | none
  deriving DecidableEq, Repr

/-- The walk of `locate` (R139). -/
def spillFind (fuel : Nat) (s : State) (c : Acc) (t : Slate) (k i : Nat) : Except Perf (Found × State) :=
  match fuel with
  | 0 => .ok (.none, s)
  | n + 1 => do
    let (key, v, s) ← spillRead s c t i
    if key = badKey ∧ v = 0 then .ok (.none, s)
    else if key = k then .ok (.spill i, s)
    else spillFind n s c t k ((i + 1) % t.ns)

/-- The walk of an insertion: the first tombstone or empty entry (R139). -/
def spillFree (fuel : Nat) (s : State) (c : Acc) (t : Slate) (i : Nat) : Except Perf (Option Nat × State) :=
  match fuel with
  | 0 => .ok (none, s)
  | n + 1 => do
    let (key, _, s) ← spillRead s c t i
    if key = badKey then .ok (some i, s) else spillFree n s c t ((i + 1) % t.ns)

/-- The entry of a bucket that holds a key. -/
def bucketFind (t : Slate) (j k : Nat) : Option Nat :=
  ((List.range 8).map fun i => 8 * j + i).find? fun x =>
    match mfind t.entries x with
    | some e => e.1.toNat == k
    | none => false

/-- The lowest-numbered free entry of a bucket. -/
def bucketFree (t : Slate) (j : Nat) : Option Nat :=
  ((List.range 8).map fun i => 8 * j + i).find? fun x => !mhas t.entries x

/-- `locate` (R139). -/
def slateLocate (s : State) (c : Acc) (t : Slate) (k : Nat) : Except Perf (Found × State) :=
  match bucketFind t (slateBucket t.nb k) k with
  | some x => .ok (.bucket x, s)
  | none =>
    if t.spilled.contains (slateBucket t.nb k) then spillFind t.ns s c t k (slateStart t.ns k)
    else .ok (.none, s)

/-- The value at a place. -/
def slateValue (s : State) (c : Acc) (t : Slate) (f : Found) : Except Perf (Nat × State) :=
  match f with
  | .bucket x => .ok ((mget t.entries x (0, 0)).2.toNat, s)
  | .spill i => do
    let (_, v, s) ← spillRead s c t i
    .ok (v, s)
  | .none => .ok (0, s)

/-- A team's table changed. -/
def modSlate (s : State) (tk : Nat) (f : Slate → Slate) : State :=
  modTeam s tk fun t => { t with slate := t.slate.map f }

/-- The value at a place changed. -/
def slateSetValue (s : State) (c : Acc) (tk : Nat) (t : Slate) (k : Nat) (f : Found) (v : Nat) : Except Perf State :=
  match f with
  | .bucket x =>
    .ok (modSlate s tk fun t => { t with entries := mset t.entries x (BitVec.ofNat 64 k, BitVec.ofNat 64 v) })
  | .spill i => slateWrite s c (spillVa t i + 8) (leBytes 8 v)
  | .none => .ok s

/-- The region's counters changed: SPILLS, INSPILL, FULLS, each saturating (R138). -/
def slateCount (s : State) (c : Acc) (t : Slate) (spills inspill fulls : Int) : Except Perf State := do
  let (bs, s) ← slateRead s c t.base 16
  let w (i : Nat) (d : Int) : List Byte :=
    leBytes 4 (min (2 ^ 32 - 1) ((leNat ((bs.drop (4 * i)).take 4) : Int) + d).toNat)
  slateWrite s c t.base (w 0 spills ++ w 1 inspill ++ w 2 fulls ++ bs.drop 12)

/-- Inserts an absent key (R139): whether it was placed. -/
def slateInsert (s : State) (c : Acc) (tk : Nat) (t : Slate) (k v : Nat) : Except Perf (Bool × State) :=
  let j := slateBucket t.nb k
  match bucketFree t j with
  | some x =>
    .ok (true, modSlate s tk fun t => { t with entries := mset t.entries x (BitVec.ofNat 64 k, BitVec.ofNat 64 v) })
  | none => do
    let s := modSlate s tk fun t => { t with spilled := if t.spilled.contains j then t.spilled else j :: t.spilled }
    let (f, s) ← spillFree t.ns s c t (slateStart t.ns k)
    match f with
    | some i => do
      let s ← slateWrite s c (spillVa t i) (leBytes 8 k ++ leBytes 8 v)
      let s ← slateCount s c t 1 1 0
      .ok (true, s)
    | none => do
      let s ← slateCount s c t 0 0 1
      .ok (false, s)

/-- HACC's new value of a present key (R261). -/
def haccNew (op v b : Nat) : Nat :=
  match op with
  | 0 => (v + b) % 2 ^ 64
  | 1 => atomFloat 10 1 v b
  | 2 => atomFloat 10 0 (v % 2 ^ 32) (b % 2 ^ 32) + v / 2 ^ 32 * 2 ^ 32
  | 3 => if asInt 64 true b < asInt 64 true v then b else v
  | 4 => if asInt 64 true v < asInt 64 true b then b else v
  | _ => v ||| b

/-- HACC's value of an absent key (R261). -/
def haccFirst (op b : Nat) : Nat := if op = 2 then b % 2 ^ 32 else b

/-- The status and the predicate of an insertion that an operation ends with (R260, R261). -/
def slateStatus (lane d pr status : Nat) (ok : Bool) : List (Nat × Word) :=
  vWrites lane d 1 status ++ [pWrite lane pr ok]

/-- HINS for one lane (R261). -/
def hinsLane (s : State) (c : Acc) (tk : Nat) (t : Slate) (e : Enc) (lane k b : Nat) :
    Except Perf (List (Nat × Word) × State) :=
  if k = badKey then .ok (slateStatus lane e.d.toNat (e.M 10 8) 3 false, s)
  else do
    let (f, s) ← slateLocate s c t k
    match f with
    | .none => do
      let (ok, s) ← slateInsert s c tk t k b
      .ok (slateStatus lane e.d.toNat (e.M 10 8) (if ok then 0 else 2) ok, s)
    | _ => .ok (slateStatus lane e.d.toNat (e.M 10 8) 1 false, s)

/-- HACC for one lane (R261): OP M[13:11]. -/
def haccLane (s : State) (c : Acc) (tk : Nat) (t : Slate) (e : Enc) (lane k b : Nat) :
    Except Perf (List (Nat × Word) × State) :=
  if k = badKey then .ok (slateStatus lane e.d.toNat (e.M 10 8) 3 false, s)
  else do
    let (f, s) ← slateLocate s c t k
    match f with
    | .none => do
      let (ok, s) ← slateInsert s c tk t k (haccFirst (e.M 13 11) b)
      .ok (slateStatus lane e.d.toNat (e.M 10 8) (if ok then 0 else 2) ok, s)
    | f => do
      let (v, s) ← slateValue s c t f
      let s ← slateSetValue s c tk t k f (haccNew (e.M 13 11) v b)
      .ok (slateStatus lane e.d.toNat (e.M 10 8) 1 true, s)

/-- HPROBE for one lane (R261). -/
def hprobeLane (s : State) (c : Acc) (t : Slate) (e : Enc) (lane k : Nat) : Except Perf (List (Nat × Word) × State) :=
  if k = badKey then .ok (vWrites lane e.d.toNat 2 0 ++ [pWrite lane (e.M 10 8) false], s)
  else do
    let (f, s) ← slateLocate s c t k
    let (v, s) ← slateValue s c t f
    .ok (vWrites lane e.d.toNat 2 v ++ [pWrite lane (e.M 10 8) (f != .none)], s)

/-- HDEL for one lane (R139, R261). -/
def hdelLane (s : State) (c : Acc) (tk : Nat) (t : Slate) (e : Enc) (lane k : Nat) :
    Except Perf (List (Nat × Word) × State) :=
  if k = badKey then .ok ([pWrite lane (e.M 10 8) false], s)
  else do
    let (f, s) ← slateLocate s c t k
    match f with
    | .none => .ok ([pWrite lane (e.M 10 8) false], s)
    | .bucket x =>
      .ok ([pWrite lane (e.M 10 8) true], modSlate s tk fun t => { t with entries := mdel t.entries x })
    | .spill i => do
      let s ← slateWrite s c (spillVa t i) (leBytes 8 badKey ++ leBytes 8 1)
      let s ← slateCount s c t 0 (-1) 0
      .ok ([pWrite lane (e.M 10 8) true], s)

/-- One lane of a Slate instruction, on the team's table as the lane before it left it (R140). -/
def slateLane (s : State) (c : Acc) (tk : Nat) (i : Instr) (lane k b : Nat) : Except Perf (List (Nat × Word) × State) :=
  match (getTeam s tk).slate with
  | none => .error (.fail ⟨6, 4, 0, 0, c.w2⟩)
  | some t =>
    match i with
    | .hins e => hinsLane s (slateAcc c) tk t e lane k b
    | .hprobe e => hprobeLane s (slateAcc c) t e lane k
    | .hacc e => haccLane s (slateAcc c) tk t e lane k b
    | .hdel e => hdelLane s (slateAcc c) tk t e lane k
    | _ => .ok ([], s)

/-- How far the lanes of a Slate instruction have come: destination writes, the lanes left, how the first of them stopped, the state
that the others left. -/
structure SlateRun where
  ws   : List (Nat × Word)
  rest : List Nat
  stop : Perf
  st   : State

/-- The lanes of a Slate instruction, ascending, up to the first that cannot be performed; that one has done nothing. -/
def slateLanes (s : State) (c : Acc) (i : Instr) (cap : Capture) (ls : List Nat) : SlateRun :=
  match ls with
  | [] => ⟨[], [], .done [] none, s⟩
  | l :: rest =>
    match slateLane s c c.team i l (mget cap.addr l 0) (wordsNat (mget cap.data l [])) with
    | .error p => ⟨[], ls, p, s⟩
    | .ok (w, s1) =>
      let r := slateLanes s1 c i cap rest
      { r with ws := w ++ r.ws }

/-- The lanes' operations of a Slate instruction, each its own (R261). -/
def slatePieces (i : Instr) (cap : Capture) (ls : List Nat) : List (Instr × Capture) := ls.map fun l => (i, capLane cap l)

/-- A Slate operation that is outstanding is performed, its lanes one after another; a lane that waits for its page leaves those
from it on to be performed later (R140). -/
def slatePerform (s : State) (c : Acc) (gid op : Nat) (i : Instr) (cap : Capture) : State :=
  let r := slateLanes s c i cap cap.lanes
  match r.stop with
  | .done _ _ => settleReplay r.st c gid op (.done r.ws none)
  | p => settleReplay (setStage (settleReplay r.st c gid op (.done r.ws none)) gid op (.pieces (slatePieces i cap r.rest) [] none))
      c gid op p

/-- The lane that may be performed next: the lowest, whatever its key, since R5 leaves free only the order among different
instructions, and with it where a spilled key lands (R139, R140). -/
def slateOpen (ps : List (Instr × Capture)) : List Nat := if ps.isEmpty then [] else [0]

/-- 64 KiB units of a table (R137). -/
def slateUnits (nb : Nat) : Nat := nb / 512

/-- 64 KiB units of the hash area of a carve-out code (R58). -/
def hashUnits (carve : Nat) : Nat := match carve with | 4 => 8 | 5 => 8 | 6 => 16 | 7 => 16 | _ => 0

/-- Units that a held HINIT of a team has claimed (R137): `cap.third` of lane 0 is listed once it has claimed. -/
def claimedBy (s : State) (tk : Nat) : Nat :=
  ((s.groups.filter fun g => teamKey g.1 == tk).flatMap fun g => g.2.ops).foldl (fun acc o =>
    match o.stage with
    | .held (.hinit e) cap => if mhas cap.third 0 then acc + 2 ^ e.M 10 8 else acc
    | _ => acc) 0

/-- Free units for a claim by a team (R137): its own table's count as free. -/
def freeUnits (s : State) (core tk : Nat) : Nat :=
  let used := (s.teams.filter fun t => t.2.core == core && t.1 != tk).foldl (fun acc t =>
    acc + (t.2.slate.elim 0 fun x => slateUnits x.nb) + claimedBy s t.1) 0
  hashUnits (getCore s core).carve - used

/-- A legal spill region entry (R138). -/
def spillLegal (x : Nat) : Bool :=
  bitsOf x 255 192 == 0 && decide (1 ≤ bitsOf x 191 128) && decide (bitsOf x 191 128 ≤ 2 ^ 32)
  && bitsOf x 127 64 % 64 == 0 && bitsOf x 63 8 == 0 && x % 256 == 3

/-- A byte of a region just claimed: zero in the header, empty in every entry (R137). -/
def wipeByte (base a : Nat) : Byte := if a < base + 64 then 0 else if (a - base) % 16 < 8 then 0xFF else 0

/-- Writes a spill region page by page from `va` to `hi`: how it ended, and how far it came. -/
def wipeRegion (fuel : Nat) (s : State) (c : Acc) (base va hi : Nat) : Option Perf × Nat × State :=
  match fuel with
  | 0 => (none, va, s)
  | n + 1 =>
    if va ≥ hi then (none, va, s)
    else
      let next := min hi (va / 2 ^ 16 * 2 ^ 16 + 2 ^ 16)
      let r := checkAcc s c .write 0 va 1 anyPage
      match r.1 with
      | .ok l =>
        wipeRegion n (writeAt r.2 c l va ((rangeFrom va (next - va)).map (wipeByte base)) 4) c base next hi
      | .nonres => (some (.hold true 2 [va]), va, r.2)
      | .bad t => (some (.fail t), va, r.2)

/-- HINS, HPROBE, HACC or HDEL. -/
def isSlate (i : Instr) : Bool :=
  match i with
  | .hins _ => true
  | .hprobe _ => true
  | .hacc _ => true
  | .hdel _ => true
  | _ => false

/-- A Slate operation or HINIT that is not performed yet. -/
def slateHeld (o : Op) : Bool := (opParts o).any fun p => isSlate p.1 || (match p.1 with | .hinit _ => true | _ => false)

/-- The Slate operations of a team that are not performed yet: group and operation, in pairs. -/
def slateBefore (s : State) (tk : Nat) : List Word :=
  (s.groups.filter fun g => teamKey g.1 == tk).flatMap fun g =>
    (g.2.ops.filter slateHeld).flatMap fun o => [BitVec.ofNat 32 g.1, BitVec.ofNat 32 o.id]

/-- One of the operations in a list of pairs is not performed yet. -/
def anyHeld (s : State) (ws : List Word) : Bool :=
  match ws with
  | g :: n :: r => ((getGroup s g.toNat).ops.any fun o => o.id == n.toNat && slateHeld o) || anyHeld s r
  | _ => false

/-- HINIT performed on what it captured (R137, R299): the entry's number in `cap.data`, with the operations that issued before it;
how far the region is written in `cap.addr`. It waits for those operations. -/
def hinitPerform (s : State) (c : Acc) (e : Enc) (cap : Capture) : Perf × Capture × State :=
  let x := wordsNat (mget cap.data 0 [])
  let q (b : Bool) : Perf := .done [qWrite e.d.toNat b] none
  if anyHeld s (mget cap.data 1 []) then (.hold false 2 [], cap, s)
  else if !mhas cap.third 0 && decide (freeUnits s c.core c.team < 2 ^ e.M 10 8) then (q false, cap, s)
  else
    let base := bitsOf x 127 64
    let ns := bitsOf x 191 128
    let r := wipeRegion (ns / 4096 + 3) s (slateAcc c) base (mget cap.addr 0 0) (base + 64 + 16 * ns)
    match r.1 with
    | some p => (p, { cap with addr := [(0, r.2.1)], third := [(0, [])] }, r.2.2)
    | none =>
      (q true, cap, modTeam r.2.2 c.team fun t => { t with slate := some ⟨512 * 2 ^ e.M 10 8, [], [], base, ns⟩ })

/-- The held operation keeps a new capture. -/
def recapture (s : State) (gid op : Nat) (i : Instr) (cap : Capture) : State :=
  modGroup s gid fun g => { g with ops := g.ops.map fun o => if o.id = op then { o with stage := .held i cap } else o }

/-- A Slate operation that is not performed yet is performed, whole or from now on lane by lane, as the device chooses (R140,
R261); while a HINIT of its team has claimed its units and still wipes its region, it waits (R299). -/
def performSlate (s : State) (gid : Nat) (o : Op) : State :=
  let c := accOfOp s gid o.loc
  let waits := claimedBy s c.team != 0
  if orderHeld ((getGroup s gid).ops.takeWhile (·.id != o.id)) then s
  else
    match o.stage with
    | .held (.hinit e) cap =>
      let r := hinitPerform s c e cap
      settleReplay (recapture r.2.2 gid o.id (.hinit e) r.2.1) c gid o.id r.1
    | .held i cap =>
      if waits then s
      else
        let ch := if cap.lanes.length ≤ 1 then (0, s) else choose s 2
        if ch.1 = 1 then setStage ch.2 gid o.id (.pieces (slatePieces i cap cap.lanes) [] none)
        else slatePerform ch.2 c gid o.id i cap
    | .pieces ps todo t =>
      if waits then s
      else
        let run (s : State) (p : Instr × Capture) (_ : List (Instr × Capture)) : Perf × State :=
          let r := slateLanes s c p.1 p.2 p.2.lanes
          match r.stop with
          | .done _ _ => (.done r.ws none, r.st)
          | q => (q, r.st)
        pickPiece run (slateOpen ps) s c gid o ps todo t
    | _ => s

/-- The effect of a Slate instruction: performed at once or later, as the device chooses (R140). -/
def slateEffect (instr : Instr) (wide : Nat) (i : Iss) (s : State) : State :=
  let ls := participants s i.a i.e
  let k : Capture :=
    ⟨ls, ls.map fun l => (l, srcA s i.a i.f i.e l), ls.map fun l => (l, natWords wide (srcB s i.a i.f i.e l)), [],
      i.a.sp.fmt, i.a.sp.active, [], [], none⟩
  let c := accOf i
  if i.a.tm.slate.isNone && claimedBy s c.team == 0 then faultV s i ⟨6, 4, 0, 0, i.loc⟩
  else
    let ch := choose s 2
    let s1 := outstanding ch.2 i [] (.held instr k) false false
    if ch.1 = 1 || claimedBy s c.team != 0 || orderHeld i.a.g.ops then s1
    else slatePerform s1 c i.a.gid (getGroup s i.a.gid).nextOp instr k

/-- HINS (R261). -/
def execHins (e : Enc) (s : State) : Res := issue formHins e s (slateEffect (.hins e) 2)
/-- HPROBE (R261). -/
def execHprobe (e : Enc) (s : State) : Res := issue formHprobe e s (slateEffect (.hprobe e) 0)
/-- HACC (R261). -/
def execHacc (e : Enc) (s : State) : Res := issue formHacc e s (slateEffect (.hacc e) 2)
/-- HDEL (R261). -/
def execHdel (e : Enc) (s : State) : Res := issue formHdel e s (slateEffect (.hdel e) 0)

/-- The effect of HINIT (R299): the region's fields are captured at the claim. -/
def hinitEffect (i : Iss) (s : State) : State :=
  if uniGuard s i.a i.e then
    let c := accOf i
    let l := lowLane i.a.sp.active
    let h := srcA s i.a i.f i.e l % 2 ^ 16
    let r := otRead s c h
    match r.1 with
    | .error t => faultV r.2 i t
    | .ok x =>
    if !spillLegal x then faultV r.2 i (objTrap c 0 1 h x)
    else
      let k : Capture := ⟨[0], [(0, bitsOf x 127 64)], [(0, natWords 8 x), (1, slateBefore s c.team)], [],
        i.a.sp.fmt, i.a.sp.active, [], [], none⟩
      let q := if orderHeld i.a.g.ops then (.hold false 2 [], k, r.2) else hinitPerform r.2 c i.e k
      settle q.2.2 i (.hinit i.e) q.2.1 false q.1
  else retireV s i []

/-- HINIT (R299). -/
def execHinit (e : Enc) (s : State) : Res := issue formHinit e s hinitEffect

end Sys2Proof.Machine
end

