-- ==== Sys2Proof/Machine/Graph.lean ====
section
/-!
DEFINITION. Graphs (R79 to R97) and the graph and cursor instructions (R262 to R273). An instruction is performed at
issue or later, whole or lane by lane, as the device chooses (R86 to R88, R264, R268).
-/

namespace Sys2Proof.Machine

/-- The fields of a graph's object-table entry (R79), and the entry itself. -/
structure GEntry where
  raw   : Nat
  plen  : Nat
  pbase : Nat
  vlim  : Nat
  mutOk : Bool
  rd    : Bool
  psz   : Nat
  dirs  : Bool

/-- Reads an entry. -/
def gEntry (x : Nat) : GEntry where
  raw := x
  plen := bitsOf x 191 128
  pbase := bitsOf x 127 64
  vlim := bitsOf x 63 32
  mutOk := bitOf x 12
  rd := bitOf x 11
  psz := bitsOf x 10 9
  dirs := bitOf x 8

/-- Lists kept for a vertex. -/
def GEntry.kept (g : GEntry) : Nat := if g.dirs then 2 else 1

/-- Bytes of the header and the vertex area (R80). -/
def GEntry.areaBytes (g : GEntry) : Nat := 64 + g.vlim * 16 * g.kept

/-- A legal graph entry (R80). -/
def graphLegal (x : Nat) : Bool :=
  let g := gEntry x
  x % 256 == 2 && bitsOf x 255 192 == 0 && bitsOf x 31 13 == 0 && g.psz != 3
  && g.pbase % 2 ^ 16 == 0 && g.plen % 2 ^ 16 == 0 && decide (g.areaBytes ≤ g.plen)

/-- Entries of a block (R85). -/
def blockCap (psz : Nat) : Nat := match psz with | 0 => 7 | 1 => 4 | _ => 3

/-- Fewest blocks of a list of a degree (R85). -/
def leastBlocks (psz d : Nat) : Nat := (d + blockCap psz - 1) / blockCap psz

/-- The key of an entry (R82). -/
def gKey (n s : Nat) : Nat := n * 2 ^ 32 + s

/-- Key of an entry of a list. -/
def entKey (e : Nat × Nat × Nat) : Nat := gKey e.1 e.2.1

/-- An empty list (R80). -/
def GList.empty : GList where
  ents := []
  ctr := 0
  blocks := 0

/-- Number of a list: 2 · vertex + direction. -/
def listNo (v : Nat) (dirIn : Bool) : Nat := 2 * v + (if dirIn then 1 else 0)

/-- An entry inserted in key order. -/
def entInsert (es : List (Nat × Nat × Nat)) (e : Nat × Nat × Nat) : List (Nat × Nat × Nat) :=
  match es with
  | [] => [e]
  | x :: r => if entKey e < entKey x then e :: x :: r else x :: entInsert r e

/-- An entry removed by key. -/
def entRemove (es : List (Nat × Nat × Nat)) (k : Nat) : List (Nat × Nat × Nat) := es.filter fun e => entKey e != k

/-- The pool that an entry names, formatted under these fields. -/
def poolIs (p : Nat) (g : GEntry) (q : Pool) : Bool :=
  q.part == p && q.pbase == g.pbase && q.plen == g.plen && q.vlim == g.vlim && q.dirs == g.dirs && q.psz == g.psz

/-- The frames, as they are kept now, that hold the resident pages of an entry's pool. -/
def poolFrames (s : State) (p : Nat) (g : GEntry) : List Nat := (pagesNow s p g.pbase g.plen).map fun f => canonA s f.2

/-- A pool that shares bytes with what lies in some frames, under whatever virtual address. -/
def poolMeets (s : State) (frames : List Nat) (q : Pool) : Bool := q.frames.any fun f => frames.contains (canonA s f.2)

/-- The bytes that must read zero in a new pool (R80) read zero. -/
def poolNew (s : State) (p : Nat) (g : GEntry) : Bool :=
  (rangeFrom g.pbase 4 ++ rangeFrom (g.pbase + 64) (g.areaBytes - 64)).all fun a =>
    peekByte s p a == 0 && !(pagePhys s p a).any (poolOwns s)

/-- The pages of a pool lie where they lay (R81): the pool's bytes are those that Celadon wrote. -/
def poolHere (s : State) (p : Nat) (q : Pool) : Bool :=
  q.frames.all fun f => match pagePhys s p (q.pbase + f.1 * 2 ^ 16) with
    | some a => canonA s a == canonA s f.2
    | none => true

/-- A pool's pages as they lie now; one that is not resident keeps its place. -/
def poolMoved (s : State) (p : Nat) (q : Pool) : Pool :=
  { q with frames := (pagesNow s p q.pbase q.plen).foldl (fun m f => mset m f.1 f.2) q.frames }

/-- A mutation under other fields changes the bytes of the pools it meets (R79). -/
def tearPools (s : State) (p : Nat) (g : GEntry) : State :=
  let fs := poolFrames s p g
  { s with pools := s.pools.map fun q => if poolMeets s fs q then { q with torn := true } else q }

/-- The pool at a base that was opened last. -/
def atBase (p pbase : Nat) (q : Pool) : Bool := q.part == p && q.pbase == pbase

/-- A pool comes before others at its base, which lie in other frames. -/
def frontPool (s : State) (q : Pool) : State :=
  if s.pools.find? (atBase q.part q.pbase) = some q then s else { s with pools := q :: s.pools.filter (· != q) }

/-- The entry's pool at a graph access: `true` when it is intact. The pool is the one that lies in the frames that the pages have
now; a new one is formatted (R80); one whose bytes or whose fields a program has changed is not intact (R79, R81). Where the pages
are in frames that are not as new, the device's choice says whether a pool formatted under these fields has moved along. -/
def openPool (s0 : State) (p : Nat) (g : GEntry) : Bool × State :=
  let s := adoptPages s0 p
  match s.pools.find? fun q => poolIs p g q && poolHere s p q with
  | some q => if q.edited.isEmpty && !q.torn then (true, frontPool s q) else renew s
  | none =>
    match poolNew s p g, s.pools.find? (poolIs p g) with
    | false, some q =>
      let c := choose s 2
      if c.1 = 1 then (false, c.2) else (true, { c.2 with pools := poolMoved s p q :: c.2.pools.filter (· != q) })
    | _, _ => renew s
where
  /-- Formats the pool when its bytes are those of a new one; pools whose frames it takes are gone. -/
  renew (s : State) : Bool × State :=
    if poolNew s p g then
      (true, { s with pools := ⟨p, g.pbase, g.plen, g.vlim, g.dirs, g.psz, [], [], pagesNow s p g.pbase g.plen, false⟩
        :: s.pools.filter fun q => !poolMeets s (poolFrames s p g) q })
    else (false, s)

/-- A list of an intact pool. -/
def getList (s : State) (p : Nat) (g : GEntry) (n : Nat) : GList :=
  match s.pools.find? (poolIs p g) with
  | some q => mget q.lists n GList.empty
  | none => GList.empty

/-- A list of the pool at a base changed. -/
def setList (s : State) (p pbase n : Nat) (l : GList) : State :=
  match s.pools.findIdx? (atBase p pbase) with
  | none => s
  | some k => { s with pools := s.pools.modify k fun q => { q with lists := mset q.lists n l } }

/-- A read of one list: the list, or CORRUPT (R81) for the vertex. -/
def readList (s : State) (p : Nat) (g : GEntry) (n : Nat) : Option GList × State :=
  let o := openPool s p g
  if o.1 then (some (getList o.2 p g n), o.2)
  else
    let c := choose o.2 2
    if c.1 = 0 then (none, c.2)
    else (some ⟨Config.damagedList c.2.fresh, Config.freeChoice (c.2.fresh + 1), 0⟩, { c.2 with fresh := c.2.fresh + 2 })

/-- A word of a bulk task's descriptor. -/
def dWord (t : Task) (i : Nat) : Nat := (t.desc.getD i 0).toNat

/-- A dword of the descriptor, at a word offset. -/
def dDword (t : Task) (i : Nat) : Nat := dWord t i + 2 ^ 32 * dWord t (i + 1)

/-- Words of a descriptor after which a GBUILD keeps the last record's vertices, and after those the half of an edge that
its other list awaits (R87): list, neighbour, serial, payload, pool base. -/
def halfWords (h : Half) : List Word :=
  let w (n : Nat) : List Word := [BitVec.ofNat 32 n, BitVec.ofNat 32 (n / 2 ^ 32)]
  w h.list ++ [BitVec.ofNat 32 h.neigh, BitVec.ofNat 32 h.ser] ++ w h.pay ++ w h.pbase

/-- The awaited half, from its words. -/
def wordsHalf (t : Task) : Half := ⟨dDword t 24, dDword t 18, true, dWord t 20, dWord t 21, dDword t 22⟩

/-- A GBUILD's edge is half performed. -/
def halfBuilt (t : Task) : Bool := t.card.kind == 4 && decide (18 < t.desc.length)

/-- What mutations of an operation performed on one list still owe the other (R87). -/
def halvesOf (o : Op) : List Half :=
  match o.stage with
  | .half todo => todo
  | .pieces _ todo _ => todo
  | _ => []

/-- An operation whose awaited halves that `sel` picks have been performed. -/
def dropHalves (sel : Half → Bool) (o : Op) : Op :=
  match o.stage with
  | .half todo => { o with stage := .half (todo.filter fun h => !sel h) }
  | .pieces ps todo t => { o with stage := .pieces ps (todo.filter fun h => !sel h) t }
  | _ => o

/-- Every half that a list of a partition's graphs awaits, with the operation, by group and number, or none for a bulk task. -/
def awaited (s : State) (p : Nat) : List (Option (Nat × Nat) × Half) :=
  ((s.groups.filter fun g => (getTeam s (teamKey g.1)).part == p).flatMap fun g =>
    g.2.ops.flatMap fun o => (halvesOf o).map fun h => (some (g.1, o.id), h))
  ++ ((getPart s p).window.filter halfBuilt).map fun t => (none, wordsHalf t)

/-- A half belongs to a list of an entry's graph. -/
def awaits (g : GEntry) (n : Nat) (h : Half) : Bool := h.pbase == g.pbase && h.list == n

/-- Blocks that mutations performed on one list have reserved for the other (R89). -/
def reserved (s : State) (p pbase : Nat) : Nat := ((awaited s p).filter fun x => x.2.add && x.2.pbase == pbase).length

/-- Free blocks of a pool (R85). -/
def freeBlocks (s : State) (p : Nat) (g : GEntry) : Nat :=
  let used := match s.pools.find? (poolIs p g) with
    | some q => q.lists.foldl (fun acc l => acc + l.2.blocks) 0
    | none => 0
  (g.plen - (g.areaBytes + 63) / 64 * 64) / 64 - used - reserved s p g.pbase

/-- One entry added to or removed from one list; the blocks within R85 are the device's choice. -/
def changeList (s : State) (p pbase psz n : Nat) (add : Bool) (e : Nat × Nat × Nat) : State :=
  match s.pools.find? (atBase p pbase) with
  | none => s
  | some q =>
    let l := mget q.lists n GList.empty
    let ents := if add then entInsert l.ents e else entRemove l.ents (entKey e)
    let lo := leastBlocks psz ents.length
    let a := if add then max l.blocks lo else lo
    let b := if add then min (l.blocks + 1) (2 * lo) else min l.blocks (2 * lo)
    let c := choose s (b - a + 1)
    setList c.2 p pbase n { l with ents, blocks := a + c.1 }

/-- A trap of cause group GRAPH (R101, R365). -/
def graphTrap (c : Acc) (lane code w1 : Nat) : TrapRec := ⟨7, code, BitVec.ofNat 32 lane, BitVec.ofNat 32 w1, c.w2⟩

/-- What a graph instruction needs of the entry. -/
inductive GNeed where
  | read
  | mutate
  deriving DecidableEq, Repr

/-- Steps 1 to 3 and 5 of R263 for a lane: the entry, or the trap. -/
def graphCheck (s : State) (c : Acc) (need : GNeed) (lane h : Nat) (dirIn : Bool) (v : Nat) (vs : List Nat) :
    Except TrapRec GEntry × State :=
  let r := otRead s c h
  let x := r.1.toOption.getD 0
  let g := gEntry x
  let denied := match need with | .read => !g.rd | .mutate => !g.mutOk
  let bad : Option TrapRec :=
    match r.1 with
    | .error t => some t
    | .ok _ =>
      if !graphLegal x then some (objTrap c lane 1 h x)
      else if denied then some (objTrap c lane 2 h x)
      else if dirIn && !g.dirs then some (graphTrap c lane 2 v)
      else (vs.find? (· ≥ g.vlim)).map (graphTrap c lane 1)
  match bad with
  | some t => (.error t, r.2)
  | none => (.ok g, r.2)

/-- The cursor register of a lane. -/
def curKey (lane k : Nat) : Nat := 8 * lane + k

/-- A closed cursor (R92). -/
def Cursor.closed : Cursor where
  isOpen := false
  atEnd := false
  shf := false
  kv := false
  rv := false
  dirIn := false
  handle := 0
  vertex := 0
  keyn := 0
  keys := 0
  rank := 0
  buf := []

/-- A cursor. -/
def getCur (g : Group) (lane k : Nat) : Cursor := mget g.cursors (curKey lane k) Cursor.closed

/-- A cursor set. -/
def setCur (s : State) (gid lane k : Nat) (c : Cursor) : State :=
  modGroup s gid fun g => { g with cursors := mput Cursor.closed g.cursors (curKey lane k) c }

/-- The 160-bit image (R92). -/
def Cursor.image (c : Cursor) : Nat :=
  c.isOpen.toNat + 2 * c.atEnd.toNat + 4 * c.shf.toNat + 16 * c.kv.toNat + 32 * c.rv.toNat + 64 * c.dirIn.toNat
  + c.handle % 2 ^ 16 * 2 ^ 16 + c.vertex % 2 ^ 32 * 2 ^ 32 + c.keyn % 2 ^ 32 * 2 ^ 64 + c.keys % 2 ^ 32 * 2 ^ 96
  + c.rank % 2 ^ 28 * 2 ^ 128

/-- The cursor of an image, with an empty buffer (R95). -/
def Cursor.ofImage (x : Nat) : Cursor where
  isOpen := bitOf x 0
  atEnd := bitOf x 1
  shf := bitOf x 2
  kv := bitOf x 4
  rv := bitOf x 5
  dirIn := bitOf x 6
  handle := bitsOf x 31 16
  vertex := bitsOf x 63 32
  keyn := bitsOf x 95 64
  keys := bitsOf x 127 96
  rank := bitsOf x 155 128
  buf := []

/-- Up to 16 entries that follow the cursor key in a list, with ranks (R95). -/
def Cursor.fetch (c : Cursor) (l : GList) : List BufEnt :=
  let above (e : Nat × Nat × Nat) : Bool := !c.kv || decide (gKey c.keyn c.keys < entKey e)
  (((l.ents.zipIdx).filter fun x => above x.1).take 16).map fun x => ⟨x.1.1, x.1.2.1, x.2⟩

/-- The cursor with the next entry at the head of its buffer, if there is one (R93, R95). -/
def Cursor.look (c : Cursor) (l : GList) : Cursor := if c.buf.isEmpty then { c with buf := c.fetch l } else c

/-- Delivers an entry (R93). -/
def Cursor.deliver (c : Cursor) (e : BufEnt) : Cursor :=
  { c with shf := e.rank != (if c.rv then (c.rank + 1) % 2 ^ 28 else 0), keyn := e.neigh, keys := e.serial,
           rank := e.rank, kv := true, rv := true, atEnd := false, buf := c.buf.drop 1 }

/-- The cursor at a key: K, or none when K lies below every key (R94). -/
def Cursor.seek (c : Cursor) (l : GList) (k : Option Nat) : Cursor :=
  let n := match k with
    | some k => (l.ents.filter fun e => decide (entKey e ≤ k)).length
    | none => 0
  { c with kv := k.isSome, keyn := (k.getD 0) / 2 ^ 32, keys := (k.getD 0) % 2 ^ 32,
           rank := if n = 0 then c.rank else n - 1, rv := n != 0, atEnd := false, shf := false, buf := [] }

/-- K of a seek to a key: k − 1 (R94). -/
def below (k : Nat) : Option Nat := if k = 0 then none else some (k - 1)

/-- K of a seek to a rank (R94). -/
def rankKey (l : GList) (j : Nat) : Option Nat :=
  match l.ents[j]? with
  | some e => below (entKey e)
  | none => l.ents.getLast?.map entKey

/-- One side of a merge: its cursor, its list, and the OR of SHF over its deliveries, if any. -/
structure Side where
  c   : Cursor
  l   : GList
  shf : Option Bool

/-- Delivers on one side. -/
def Side.deliver (x : Side) (e : BufEnt) : Side :=
  let d := x.c.deliver e
  ⟨d, x.l, some (x.shf.getD false || d.shf)⟩

/-- The cursor that a side ends with: SHF is the OR over its deliveries, unchanged without one (R97). -/
def Side.result (x : Side) (shf0 : Bool) : Cursor := { x.c with shf := x.shf.getD shf0 }

/-- The merge of R97: the neighbour, if it found a match. -/
def gisect (steps : Nat) (a b : Side) : Option Nat × Side × Side :=
  let a := { a with c := a.c.look a.l }
  let b := { b with c := b.c.look b.l }
  match a.c.buf.head?, b.c.buf.head? with
  | none, _ => (none, { a with c := { a.c with atEnd := true } }, b)
  | _, none => (none, a, { b with c := { b.c with atEnd := true } })
  | some x, some y =>
    if x.neigh = y.neigh then (some x.neigh, a.deliver x, b.deliver y)
    else
      match steps with
      | 0 => (none, a, b)
      | n + 1 => if x.neigh < y.neigh then gisect n (a.deliver x) b else gisect n a (b.deliver y)

/-- The record of a list (R80). How the vertex area orders the directions is not stated: either way, as the device has it
(log 18). -/
def recordVa (g : GEntry) (n : Nat) : Nat :=
  let k := if !g.dirs then n / 2 else if Config.freeBit 0 (2 ^ 40) then n else n % 2 * g.vlim + n / 2
  g.pbase + 64 + 16 * k

/-- A graph access that reads a poisoned block strikes its task (R374): the block of a record; which other blocks of the pool it
reads is the device's choice. -/
def strikePool (s : State) (c : Acc) (g : GEntry) (lists : List Nat) : State :=
  if s.poison.isEmpty then s
  else
    let at_ := (lists.map (recordVa g)).filterMap (pagePhys s c.p)
    let frames := (pagesNow s c.p g.pbase g.plen).map Prod.snd
    let others := ((mkeys s.poison).map (512 * ·)).filter fun a => frames.any fun f => decide (f ≤ a) && decide (a < f + 2 ^ 16)
    let ch := choose s (others.length + 1)
    strikePoison ch.2 c ((at_ ++ (others[ch.1]?).toList).map (canonA s))

/-- What stops an access to pages of a pool: a trap, pages that are not resident, or nothing. -/
def touchPages (s : State) (c : Acc) (mutate : Bool) (lane : Nat) (pages : List Nat) : Option Perf × State :=
  pages.foldl (fun acc va =>
    match acc.1 with
    | some (.fail t) => (some (.fail t), acc.2)
    | _ =>
      let r := checkAcc acc.2 { c with src := 3 } (if mutate then .atomic else .read) lane va 1 anyPage
      match r.1, acc.1 with
      | .ok _, x => (x, r.2)
      | .nonres, some (.hold m k vas) => (some (.hold m k (vas ++ [va])), r.2)
      | .nonres, _ => (some (.hold mutate 3 [va]), r.2)
      | .bad t, _ => (some (.fail t), r.2)) (none, s)

/-- The page of a list's record. -/
def recordPage (g : GEntry) (n : Nat) : Nat := recordVa g n / 2 ^ 16 * 2 ^ 16

/-- The pool's pages that an access touches: the records of its lists and one page of the device's choice (R81). -/
def poolAccess (s : State) (c : Acc) (g : GEntry) (mutate : Bool) (lane : Nat) (lists : List Nat) : Option Perf × State :=
  let ch := choose s (g.plen / 2 ^ 16)
  touchPages (strikePool ch.2 c g lists) c mutate lane ((lists.map (recordPage g)) ++ [g.pbase + ch.1 * 2 ^ 16]).eraseDups

/-- The checks of every participant (R263) with its pool page (R81). -/
def graphChecks (s : State) (c : Acc) (mutate : Bool) (ls : List Nat)
    (chk : State → Nat → Except TrapRec (List (GEntry × List Nat)) × State) :
    Except Perf (List (Nat × List GEntry)) × State :=
  match ls with
  | [] => (.ok [], s)
  | l :: rest =>
    let r := chk s l
    match r.1 with
    | .error t => (.error (.fail t), r.2)
    | .ok gs =>
      let q := graphChecks r.2 c mutate rest chk
      match q.1 with
      | .error (.fail t) => (.error (.fail t), q.2)
      | rest' =>
        let a := gs.foldl (fun (acc : Option Perf × State) g =>
          match acc.1 with
          | some _ => acc
          | none => poolAccess acc.2 c g.1 mutate l g.2) (none, q.2)
        match a.1, rest' with
        | some p, _ => (.error p, a.2)
        | none, .ok xs => (.ok ((l, gs.map Prod.fst) :: xs), a.2)
        | none, .error p => (.error p, a.2)

/-- What a lane of a graph instruction has done: destination writes, a trap after them, a mutation half done; or what kept it from
doing anything. -/
structure GRun where
  ws   : List (Nat × Word)
  trap : Option TrapRec
  todo : List Half
  stop : Option Perf

/-- A lane that has written destinations. -/
def GRun.gives (ws : List (Nat × Word)) (todo : List Half) : GRun := ⟨ws, none, todo, none⟩

/-- A lane that has trapped. -/
def GRun.traps (t : TrapRec) : GRun := ⟨[], some t, [], none⟩

/-- A captured data word of a lane. -/
def capWord (m : SMap (List Word)) (lane k : Nat) : Nat := ((mget m lane []).getD k 0).toNat

/-- PR or SP: M[11:9]. -/
def graphPr (e : Enc) : Nat := e.M 11 9

/-- A read of one list by a lane (R265). -/
def graphRead (i : Instr) (cap : Capture) (lane : Nat) (l : GList) : List (Nat × Word) :=
  match i with
  | .gld e =>
    let x := l.ents[capWord cap.third lane 0]?
    vWrites lane e.d.toNat 1 (match x with | some y => y.1 | none => 0xFFFFFFFF) ++ [pWrite lane (graphPr e) x.isSome]
  | .gdeg e => vWrites lane e.d.toNat 1 l.ents.length
  | .gfind e =>
    let n := capWord cap.third lane 0
    let k := gKey n (capWord cap.third lane 1)
    match (l.ents.zipIdx).find? fun x => decide (k ≤ entKey x.1) with
    | some x => vWrites lane e.d.toNat 2 (x.2 + 2 ^ 32 * x.1.2.1) ++ [pWrite lane (graphPr e) (x.1.1 == n)]
    | none => vWrites lane e.d.toNat 2 (l.ents.length + 2 ^ 32 * 0xFFFFFFFF) ++ [pWrite lane (graphPr e) false]
  | .gpay e =>
    let x := l.ents[capWord cap.third lane 0]?
    vWrites lane e.d.toNat 2 (match x with | some y => y.2.2 | none => 0) ++ [pWrite lane (graphPr e) x.isSome]
  | _ => []

/-- The rest of mutations half done (R87). -/
def graphFinish (s : State) (p : Nat) (todo : List Half) : State :=
  todo.foldl (fun acc h =>
    match acc.pools.find? (atBase p h.pbase) with
    | none => acc
    | some q => changeList acc p h.pbase q.psz h.list h.add (h.neigh, h.ser, h.pay)) s

/-- The half-performed mutations that `sel` picks, by operation, are performed on their other list. A mutation that depends on
them comes after them in the list's order (R86). -/
def settleHalves (s : State) (p : Nat) (sel : Option (Nat × Nat) → Half → Bool) : State :=
  let mine (gid : Nat) : Bool := (getTeam s (teamKey gid)).part == p
  let due := (awaited s p).filter fun x => sel x.1 x.2
  let picked (t : Task) : Bool := halfBuilt t && sel none (wordsHalf t)
  if due.isEmpty then s
  else
    let s1 := graphFinish s p (due.map Prod.snd)
    let drop (g : Nat × Group) : Nat × Group :=
      if mine g.1 then (g.1, { g.2 with ops := g.2.ops.map fun o => dropHalves (sel (some (g.1, o.id))) o }) else g
    let s2 := { s1 with groups := s1.groups.map drop }
    modPart s2 p fun q => { q with window := q.window.map fun t => if picked t then { t with desc := t.desc.take 18 } else t }

/-- Adds one edge's entries: at once on both lists, or on one of them first (R87), as the device chooses. -/
def graphBoth (s : State) (p : Nat) (g : GEntry) (add : Bool) (u v ser pay : Nat) : List Half × State :=
  let out : Half := ⟨g.pbase, listNo u false, add, v, ser, pay⟩
  let inn : Half := ⟨g.pbase, listNo v true, add, u, ser, pay⟩
  if !g.dirs then ([], graphFinish s p [out])
  else
    let ch := choose s 3
    match ch.1 with
    | 0 => ([], graphFinish ch.2 p [out, inn])
    | 1 => ([inn], graphFinish ch.2 p [out])
    | _ => ([out], graphFinish ch.2 p [inn])

/-- The payload bits that PSZ keeps (R84). -/
def pszPay (psz x : Nat) : Nat := match psz with | 0 => 0 | 1 => x % 2 ^ 32 | _ => x % 2 ^ 64

/-- Entries of a list, and those that mutations half performed will add to it (R82, R87). -/
def degreeDue (s : State) (p : Nat) (g : GEntry) (n : Nat) : Nat :=
  (getList s p g n).ents.length + ((awaited s p).filter fun x => x.2.add && awaits g n x.2).length

/-- How an addition ends (R89, R266): 0 ADDED with the serial, 1 POOL, 2 DEGREE, 3 SERIAL. -/
def graphAdd (s : State) (p : Nat) (g : GEntry) (u v pay : Nat) : (Nat × Nat × List Half) × State :=
  let l := getList s p g (listNo u false)
  if l.ctr = 0xFFFFFFFF then ((3, 0, []), s)
  else if decide (degreeDue s p g (listNo u false) ≥ 2 ^ 28) || (g.dirs && decide (degreeDue s p g (listNo v true) ≥ 2 ^ 28)) then
    ((2, 0, []), s)
  else if freeBlocks s p g < g.kept then ((1, 0, []), s)
  else
    let s1 := setList s p g.pbase (listNo u false) { l with ctr := l.ctr + 1 }
    let r := graphBoth s1 p g true u v l.ctr (pszPay g.psz pay)
    ((0, l.ctr, r.1), r.2)

/-- The outstanding operation that a lane belongs to: group and number. -/
abbrev OpRef := Nat × Nat

/-- One lane of GADD (R266). CORRUPT names either vertex, as the device chooses (log 18). What u's OUT list still awaits comes first:
the serials follow the list's order (R83, R86); so does what earlier lanes owe v's IN list (R264). -/
def gaddLane (s : State) (c : Acc) (op : OpRef) (e : Enc) (cap : Capture) (g : GEntry) (lane : Nat) : GRun × State :=
  let u := capWord cap.data lane 0
  let v := capWord cap.third lane 0
  let pay := capWord cap.third lane 2 + 2 ^ 32 * capWord cap.third lane 3
  let s1 := settleHalves s c.p fun w h => awaits g (listNo u false) h || (w == some op && awaits g (listNo v true) h)
  let o := openPool s1 c.p g
  let status (x ser : Nat) : List (Nat × Word) :=
    vWrites lane e.d.toNat 2 (if x = 0 then ser else 0xFFFFFFFF + 2 ^ 32 * x) ++ [pWrite lane (graphPr e) (x == 0)]
  if o.1 then
    let a := graphAdd o.2 c.p g u v pay
    match a.1.1 with
    | 3 => (.traps (graphTrap c lane 4 u), a.2)
    | x => (.gives (status x a.1.2.1) a.1.2.2, if x = 0 then taintTask a.2 c else a.2)
  else
    let ch := choose o.2 (if g.dirs then 6 else 5)
    match ch.1 with
    | 3 => (.traps (graphTrap c lane 4 u), ch.2)
    | 4 => (.traps (graphTrap c lane 5 u), ch.2)
    | 5 => (.traps (graphTrap c lane 5 v), ch.2)
    | x => (.gives (status x (Config.freeChoice ch.2.fresh)) [], taintTask (tearPools { ch.2 with fresh := ch.2.fresh + 1 } c.p g) c)

/-- The entry of a list that GDEL names (R267): MODE M[12]. -/
def gdelHit (e : Enc) (cap : Capture) (lane : Nat) (ents : List (Nat × Nat × Nat)) : Option (Nat × Nat × Nat) :=
  let x := capWord cap.third lane 0
  if e.M 12 12 = 0 then ents[x]? else ents.find? fun y => entKey y == gKey x (capWord cap.third lane 1)

/-- One lane of GDEL (R267). What u's OUT list still awaits comes first, and so does the IN entry of the edge it removes, with what
earlier lanes owe that list (R264). The page of the IN list's record must be there before anything changes (R81). -/
def gdelLane (s : State) (c : Acc) (op : OpRef) (e : Enc) (cap : Capture) (g : GEntry) (lane : Nat) : GRun × State :=
  let u := capWord cap.data lane 0
  let l := readList (settleHalves s c.p fun _ h => awaits g (listNo u false) h) c.p g (listNo u false)
  match l.1 with
  | none => (.traps (graphTrap c lane 5 u), l.2)
  | some l1 =>
    match gdelHit e cap lane l1.ents with
    | none => (.gives (vWrites lane e.d.toNat 2 (2 ^ 64 - 1) ++ [pWrite lane (graphPr e) false]) [], l.2)
    | some y =>
      let at_ := if g.dirs then touchPages l.2 c true lane [recordPage g (listNo y.1 true)] else (none, l.2)
      match at_.1 with
      | some p => (⟨[], none, [], some p⟩, at_.2)
      | none =>
        let ws := vWrites lane e.d.toNat 2 (y.1 + 2 ^ 32 * y.2.1) ++ [pWrite lane (graphPr e) true]
        let s2 := settleHalves at_.2 c.p fun w h =>
          awaits g (listNo y.1 true) h && (w == some op || (h.add && h.neigh == u && h.ser == y.2.1))
        let whole := s2.pools.any fun q => poolIs c.p g q && q.edited.isEmpty && !q.torn && poolHere s2 c.p q
        let b := if whole then graphBoth s2 c.p g false u y.1 y.2.1 y.2.2 else ([], tearPools s2 c.p g)
        (.gives ws b.1, taintTask b.2 c)

/-- One lane of an instruction that reads a list. -/
def greadLane (s : State) (c : Acc) (i : Instr) (dirIn : Bool) (cap : Capture) (g : GEntry) (lane : Nat) : GRun × State :=
  let u := capWord cap.data lane 0
  let l := readList s c.p g (listNo u dirIn)
  match l.1 with
  | none => (.traps (graphTrap c lane 5 u), l.2)
  | some l1 => (.gives (graphRead i cap lane l1) [], l.2)

/-- One lane of CNEXT (R270): SP M[11:9], the predicate in field B. -/
def cnextLane (s : State) (c : Acc) (gid : Nat) (e : Enc) (g : GEntry) (lane : Nat) : GRun × State :=
  let k := e.a.toNat
  let x := getCur (getGroup s gid) lane k
  let l := if x.buf.isEmpty then readList s c.p g (listNo x.vertex x.dirIn) else (some GList.empty, s)
  match l.1 with
  | none => (.traps (graphTrap c lane 5 x.vertex), l.2)
  | some l1 =>
    let y := x.look l1
    match y.buf.head? with
    | some b =>
      let z := y.deliver b
      (.gives (vWrites lane e.d.toNat 2 (b.neigh + 2 ^ 32 * b.rank) ++ [pWrite lane e.b.toNat true, pWrite lane (graphPr e) z.shf]) [],
        setCur l.2 gid lane k z)
    | none =>
      (.gives (vWrites lane e.d.toNat 2 (2 ^ 64 - 1) ++ [pWrite lane (graphPr e) false, pWrite lane e.b.toNat false]) [],
        setCur l.2 gid lane k { y with atEnd := true })

/-- One lane of CSEEK (R271): MODE M[8]. -/
def cseekLane (s : State) (c : Acc) (gid : Nat) (e : Enc) (cap : Capture) (g : GEntry) (lane : Nat) : GRun × State :=
  let k := e.d.toNat
  let x := getCur (getGroup s gid) lane k
  let l := readList s c.p g (listNo x.vertex x.dirIn)
  match l.1 with
  | none => (.traps (graphTrap c lane 5 x.vertex), l.2)
  | some l1 =>
    let w0 := capWord cap.data lane 0
    let w1 := capWord cap.data lane 1
    (.gives [] [], setCur l.2 gid lane k (x.seek l1 (if e.M 8 8 = 1 then below (gKey w0 w1) else rankKey l1 w0)))

/-- One lane of GISECT (R273). -/
def gisectLane (s : State) (c : Acc) (gid : Nat) (e : Enc) (ga gb : GEntry) (lane : Nat) : GRun × State :=
  let x := getCur (getGroup s gid) lane e.a.toNat
  let y := getCur (getGroup s gid) lane e.b.toNat
  let l := readList s c.p ga (listNo x.vertex x.dirIn)
  let m := readList l.2 c.p gb (listNo y.vertex y.dirIn)
  match l.1, m.1 with
  | some l1, some m1 =>
    let z := gisect 256 ⟨x, l1, none⟩ ⟨y, m1, none⟩
    (.gives (vWrites lane e.d.toNat 1 (z.1.getD 0xFFFFFFFF) ++ [pWrite lane (graphPr e) z.1.isSome]) [],
     setCur (setCur m.2 gid lane e.a.toNat (z.2.1.result x.shf)) gid lane e.b.toNat (z.2.2.result y.shf))
  | none, _ => (.traps (graphTrap c lane 5 x.vertex), m.2)
  | _, none => (.traps (graphTrap c lane 5 y.vertex), m.2)

/-- The checks of a lane of an instruction that names a graph by handle; `more` names the lists that it touches besides the first
vertex's. -/
def handleCheck (c : Acc) (need : GNeed) (dirIn : Bool) (cap : Capture) (two : Bool) (more : State → GEntry → Nat → List Nat)
    (s : State) (lane : Nat) : Except TrapRec (List (GEntry × List Nat)) × State :=
  let u := capWord cap.data lane 0
  let v := capWord cap.third lane 0
  let r := graphCheck s c need lane (mget cap.addr lane 0) dirIn u (if two then [u, v] else [u])
  match r.1 with
  | .ok g => (.ok [(g, listNo u dirIn :: (if g.dirs then more r.2 g lane else []))], r.2)
  | .error t => (.error t, r.2)

/-- Lists that a lane of GADD or GDEL touches besides u's OUT list: v's IN list, as far as it is known. -/
def moreLists (i : Instr) (p : Nat) (cap : Capture) (s : State) (g : GEntry) (lane : Nat) : List Nat :=
  match i with
  | .gadd _ => [listNo (capWord cap.third lane 0) true]
  | .gdel e =>
    ((gdelHit e cap lane (getList s p g (listNo (capWord cap.data lane 0) false)).ents).map fun y => listNo y.1 true).toList
  | _ => []

/-- The checks of a lane of an instruction that names open cursors (R263): step 4 first. -/
def cursorCheck (c : Acc) (gid : Nat) (ks : List Nat) (s : State) (lane : Nat) :
    Except TrapRec (List (GEntry × List Nat)) × State :=
  let cs := ks.map fun k => getCur (getGroup s gid) lane k
  if cs.any fun x => !x.isOpen then (.error (graphTrap c lane 3 0), s)
  else
    cs.foldl (fun acc x =>
      match acc.1 with
      | .error t => (.error t, acc.2)
      | .ok gs =>
        let r := graphCheck acc.2 c .read lane x.handle x.dirIn x.vertex [x.vertex]
        match r.1 with
        | .ok g => (.ok (gs ++ [(g, [listNo x.vertex x.dirIn])]), r.2)
        | .error t => (.error t, r.2)) (.ok [], s)

/-- The checks of a lane of CINFO and CCLOSE, which accept a closed cursor and touch no list. -/
def anyCursor (c : Acc) (gid k : Nat) (s : State) (lane : Nat) : Except TrapRec (List (GEntry × List Nat)) × State :=
  if (getCur (getGroup s gid) lane k).isOpen then
    let r := cursorCheck c gid [k] s lane
    (r.1.map fun _ => [], r.2)
  else (.ok [], s)

/-- The checks of an instruction, and whether it changes lists. COPEN touches no page of the pool (log 18). -/
def graphGate (s : State) (c : Acc) (gid : Nat) (i : Instr) (cap : Capture) :
    Except Perf (List (Nat × List GEntry)) × State :=
  let byHandle (need : GNeed) (dirIn two : Bool) := graphChecks s c (need == .mutate) cap.lanes
    (handleCheck c need dirIn cap two (moreLists i c.p cap))
  let byCursor (ks : List Nat) := graphChecks s c false cap.lanes (cursorCheck c gid ks)
  match i with
  | .gld e => byHandle .read (e.M 8 8 == 1) false
  | .gdeg e => byHandle .read (e.M 8 8 == 1) false
  | .gfind e => byHandle .read (e.M 8 8 == 1) false
  | .gpay e => byHandle .read (e.M 8 8 == 1) false
  | .gadd _ => byHandle .mutate false true
  | .gdel _ => byHandle .mutate false false
  | .copen e => graphChecks s c false cap.lanes fun s l =>
    let r := handleCheck c .read (e.M 8 8 == 1) cap false (fun _ _ _ => []) s l
    (r.1.map fun _ => [], r.2)
  | .cnext e => byCursor [e.a.toNat]
  | .cseek e => byCursor [e.d.toNat]
  | .gisect e => byCursor [e.a.toNat, e.b.toNat]
  | .cinfo e => graphChecks s c false cap.lanes (anyCursor c gid e.a.toNat)
  | .cclose e => graphChecks s c false cap.lanes (anyCursor c gid e.d.toNat)
  | _ => (.ok (cap.lanes.map fun l => (l, [])), s)

/-- One lane of a graph instruction whose checks have passed: `cap.found` names its graphs' entries. -/
def graphLane (s : State) (c : Acc) (op : OpRef) (i : Instr) (cap : Capture) (l : Nat) : GRun × State :=
  let g (k : Nat) : GEntry := gEntry ((mget cap.found l []).getD k 0)
  let gid := op.1
  match i with
  | .gld e => greadLane s c i (e.M 8 8 == 1) cap (g 0) l
  | .gdeg e => greadLane s c i (e.M 8 8 == 1) cap (g 0) l
  | .gfind e => greadLane s c i (e.M 8 8 == 1) cap (g 0) l
  | .gpay e => greadLane s c i (e.M 8 8 == 1) cap (g 0) l
  | .gadd e => gaddLane s c op e cap (g 0) l
  | .gdel e => gdelLane s c op e cap (g 0) l
  | .copen e =>
    (.gives [] [], setCur s gid l e.d.toNat { Cursor.closed with
      isOpen := true, dirIn := e.M 8 8 == 1, handle := mget cap.addr l 0, vertex := capWord cap.data l 0 })
  | .cnext e => cnextLane s c gid e (g 0) l
  | .cseek e => cseekLane s c gid e cap (g 0) l
  | .cinfo e => (.gives (vWrites l e.d.toNat 5 (getCur (getGroup s gid) l e.a.toNat).image) [], s)
  | .cclose e => (.gives [] [], setCur s gid l e.d.toNat Cursor.closed)
  | .gisect e => gisectLane s c gid e (g 0) (g 1) l
  | _ => (.gives [] [], s)

/-- A graph operation goes on with `rest`, or ends: what it has written, what its mutations still owe, the trap of the lowest lane
that has trapped. A trap comes after every list has been changed (R87, R266). -/
def graphNext (s : State) (c : Acc) (op : OpRef) (rest : List (Instr × Capture)) (ws : List (Nat × Word)) (todo : List Half)
    (t : Option TrapRec) : State :=
  let s1 := settleReplay s c op.1 op.2 (.done ws t)
  if !rest.isEmpty then setStage s1 op.1 op.2 (.pieces rest todo t)
  else if t.isSome then graphFinish s1 c.p todo
  else if todo.isEmpty then s1
  else setStage s1 op.1 op.2 (.half todo)

/-- Of the traps of two lanes that of the lower one. -/
def lowerTrap (t u : Option TrapRec) : Option TrapRec :=
  match t, u with
  | some x, some y => if y.d0.toNat < x.d0.toNat then u else t
  | none, _ => u
  | _, none => t

/-- One lane of an outstanding graph operation is performed, one event on each list that it touches (R264): whether it was, and
the state. -/
def graphStep (s : State) (c : Acc) (op : OpRef) (p : Instr × Capture) (rest : List (Instr × Capture)) : Bool × State :=
  let r := graphLane s c op p.1 p.2 (p.2.lanes.headD 0)
  let o := (getGroup r.2 op.1).ops.find? (·.id == op.2)
  let todo := o.elim [] halvesOf
  let t := o.bind fun o => match o.stage with | .pieces _ _ t => t | _ => none
  match r.1.stop with
  | none => (true, graphNext r.2 c op rest r.1.ws (todo ++ r.1.todo) (lowerTrap t r.1.trap))
  | some (.fail x) => (false, settleReplay (graphFinish r.2 c.p todo) c op.1 op.2 (.fail x))
  | some q => (false, settleReplay r.2 c op.1 op.2 q)

/-- The lanes of an outstanding graph operation, ascending, up to the first that cannot be performed. -/
def graphRun (s : State) (c : Acc) (op : OpRef) (ps : List (Instr × Capture)) : State :=
  match ps with
  | [] => s
  | p :: rest =>
    let r := graphStep s c op p rest
    if r.1 then graphRun r.2 c op rest else r.2

/-- What a graph instruction captured with what its checks found: the entries that its lanes name. -/
def graphFound (cap : Capture) (xs : List (Nat × List GEntry)) : Capture :=
  { cap with found := xs.map fun x => (x.1, x.2.map (·.raw)) }

/-- The cursors that an instruction names (R268). -/
def cursorsOf (i : Instr) : List Nat :=
  match i with
  | .copen e => [e.d.toNat]
  | .cnext e => [e.a.toNat]
  | .cseek e => [e.d.toNat]
  | .cinfo e => [e.a.toNat]
  | .cclose e => [e.d.toNat]
  | .gisect e => [e.a.toNat, e.b.toNat]
  | _ => []

/-- A graph instruction that works on cursors (R268). -/
def isCursor (i : Instr) : Bool := !(cursorsOf i).isEmpty

/-- GADD or GDEL, whose completion discards the group's buffers (R95). -/
def isMutation (i : Instr) : Bool :=
  match i with
  | .gadd _ => true
  | .gdel _ => true
  | _ => false

/-- An earlier instruction of one of the lanes that names one of the cursors is not performed yet (R88, R268,
log 18): others of the group do not hold it. -/
def cursorWaits (earlier : List Op) (i : Instr) (cap : Capture) : Bool :=
  earlier.any fun o => (opParts o).any fun p =>
    (cursorsOf p.1).any (cursorsOf i).contains && p.2.lanes.any cap.lanes.contains

/-- The lists that a lane's operation touches, by pool base, as far as they are known. -/
def graphLists (s : State) (c : Acc) (gid : Nat) (p : Instr × Capture) : List (Nat × Nat) :=
  let l := p.2.lanes.headD 0
  let g (k : Nat) : GEntry := gEntry ((mget p.2.found l []).getD k 0)
  let u := capWord p.2.data l 0
  let mine (n : Nat) : Nat × Nat := ((g 0).pbase, n)
  let more := if (g 0).dirs then (moreLists p.1 c.p p.2 s (g 0) l).map mine else []
  match p.1 with
  | .gld e => [mine (listNo u (e.M 8 8 == 1))]
  | .gdeg e => [mine (listNo u (e.M 8 8 == 1))]
  | .gfind e => [mine (listNo u (e.M 8 8 == 1))]
  | .gpay e => [mine (listNo u (e.M 8 8 == 1))]
  | .gadd _ => mine (listNo u false) :: more
  | .gdel _ => mine (listNo u false) :: more
  | .cnext _ => cursorLists l
  | .cseek _ => cursorLists l
  | .gisect _ => cursorLists l
  | _ => []
where
  /-- The lists of the cursors that the instruction names. -/
  cursorLists (l : Nat) : List (Nat × Nat) := (cursorsOf p.1).zipIdx.map fun k =>
    let x := getCur (getGroup s gid) l k.1
    ((gEntry ((mget p.2.found l []).getD k.2 0)).pbase, listNo x.vertex x.dirIn)

/-- The lanes that may be performed next: those that touch one list come in ascending order (R264). -/
def graphOpen (s : State) (c : Acc) (gid : Nat) (ps : List (Instr × Capture)) : List Nat :=
  (List.range ps.length).filter fun k => (ps[k]?).any fun p =>
    (ps.take k).all fun q => !(graphLists s c gid q).any (graphLists s c gid p).contains

/-- A graph operation that is not performed yet is performed, unless an earlier release or acquire or a cursor instruction must
come first: after its checks its lanes at once, or from now on one by one, as the device chooses. -/
def performGraph (s : State) (gid : Nat) (o : Op) : State :=
  let c := accOfOp s gid o.loc
  match o.stage with
  | .held i cap =>
    let earlier := (getGroup s gid).ops.takeWhile (·.id != o.id)
    if cursorWaits earlier i cap || orderHeld earlier then s
    else
      let r := graphGate s c gid i cap
      match r.1 with
      | .error p => settleReplay r.2 c gid o.id p
      | .ok xs =>
        let k := graphFound cap xs
        let ps := k.lanes.map fun l => (i, capLane k l)
        let ch := if ps.length ≤ 1 then (0, r.2) else choose r.2 2
        if ps.isEmpty then settleReplay ch.2 c gid o.id (.done [] none)
        else
          let s1 := setStage ch.2 gid o.id (.pieces ps [] none)
          if ch.1 = 1 then s1 else graphRun s1 c (gid, o.id) ps
  | .pieces ps _ _ =>
    let ks := graphOpen s c gid ps
    let ch := choose s ks.length
    let k := ks.getD ch.1 0
    match ps[k]? with
    | none => ch.2
    | some p => (graphStep ch.2 c (gid, o.id) p (ps.eraseIdx k)).2
  | .half todo => setStage (graphFinish s c.p todo) gid o.id .done
  | _ => s

/-- The effect of a graph instruction: it goes outstanding, and is performed at once or later, as the device chooses. -/
def graphEffect (instr : Instr) (nb nc : Nat) (i : Iss) (s : State) : State :=
  let ls := participants s i.a i.e
  let k : Capture :=
    ⟨ls, ls.map fun l => (l, srcA s i.a i.f i.e l % 2 ^ 16), ls.map fun l => (l, natWords nb (srcB s i.a i.f i.e l)),
      ls.map fun l => (l, natWords nc (srcC s i.a i.f i.e l)), i.a.sp.fmt, i.a.sp.active, [], [], none⟩
  let ch := choose s 2
  let s1 := outstanding ch.2 i [] (.held instr k) false (isMutation instr)
  if ch.1 = 1 then s1
  else
    match (getGroup s1 i.a.gid).ops.getLast? with
    | some o => performGraph s1 i.a.gid o
    | none => s1

/-- GLD (R265). -/
def execGld (e : Enc) (s : State) : Res := issue formGld e s (graphEffect (.gld e) 1 1)
/-- GDEG (R265). -/
def execGdeg (e : Enc) (s : State) : Res := issue formGdeg e s (graphEffect (.gdeg e) 1 0)
/-- GADD (R266). -/
def execGadd (e : Enc) (s : State) : Res := issue formGadd e s (graphEffect (.gadd e) 1 4)
/-- GDEL (R267). -/
def execGdel (e : Enc) (s : State) : Res := issue formGdel e s (graphEffect (.gdel e) 1 2)
/-- GFIND (R265). -/
def execGfind (e : Enc) (s : State) : Res := issue formGfind e s (graphEffect (.gfind e) 1 2)
/-- GPAY (R265). -/
def execGpay (e : Enc) (s : State) : Res := issue formGpay e s (graphEffect (.gpay e) 1 1)
/-- COPEN (R269). -/
def execCopen (e : Enc) (s : State) : Res := issue formCopen e s (graphEffect (.copen e) 1 0)
/-- CNEXT (R270). -/
def execCnext (e : Enc) (s : State) : Res := issue formCnext e s (graphEffect (.cnext e) 0 0)
/-- CSEEK (R271). -/
def execCseek (e : Enc) (s : State) : Res := issue formCseek e s (graphEffect (.cseek e) 2 0)
/-- CINFO (R272). -/
def execCinfo (e : Enc) (s : State) : Res := issue formCinfo e s (graphEffect (.cinfo e) 0 0)
/-- CCLOSE (R269). -/
def execCclose (e : Enc) (s : State) : Res := issue formCclose e s (graphEffect (.cclose e) 0 0)
/-- GISECT (R273). -/
def execGisect (e : Enc) (s : State) : Res := issue formGisect e s (graphEffect (.gisect e) 0 0)

end Sys2Proof.Machine
end

