-- ==== Sys2Proof/Machine/Chains.lean ====
section
/-!
DEFINITION. Command chains as a program sees them (R119 to R123, R133, R292 to R295): CQINIT CQADV CQWAIT CQSEQ.
-/

namespace Sys2Proof.Machine

/-- A slot that no CQINIT has bound. -/
def Chain.unbound : Chain where
  bound := none
  seq0 := 0
  tail := 0
  done := 0
  started := 0
  running := []
  finished := []
  scopes := []
  got := []

/-- A chain slot. -/
def chainOf (s : State) (tk slot : Nat) : Chain := (getChain (getTeam s tk) slot).getD Chain.unbound

/-- A chain slot changed. -/
def modChain (s : State) (tk slot : Nat) (f : Chain → Chain) : State :=
  modTeam s tk fun t => { t with chains := mset t.chains slot (f ((getChain t slot).getD Chain.unbound)) }

/-- The party that Umber is for a command of a team's chain (R366). -/
def umberAcc (s : State) (tk slot seq : Nat) : Acc :=
  let t := getTeam s tk
  ⟨t.part, t.tid, t.core, tk, none, 1, BitVec.ofNat 32 (slot + 2 * (seq % 2 ^ 31))⟩

/-- Address of the slot of a command (R120). -/
def slotVa (base log2n seq : Nat) : Nat := base + (seq - 1) % 2 ^ log2n * 64

/-- A legal chain entry (R119). -/
def chainLegal (x : Nat) : Bool :=
  x % 256 == 4 && bitsOf x 11 8 == 0 && decide (4 ≤ bitsOf x 15 12) && decide (bitsOf x 15 12 ≤ 12)
  && bitsOf x 63 16 == 0 && bitsOf x 127 64 % 4096 == 0 && bitsOf x 191 128 % 8 == 0 && bitsOf x 255 192 == 0

/-- The release scope of a command's CTL (R127): 0 acts as .team. -/
def ctlScope (w : Nat) : Nat := if bitsOf w 27 25 = 0 then 1 else min 5 (bitsOf w 27 25)

/-- Held pages of a party, each recorded once. -/
def holdPages (s : State) (c : Acc) (who : HeldBy) (write : Bool) (source : Nat) (vas : List Nat) : State :=
  let have_ (v : Nat) : Bool := (getPart s c.p).held.any fun h => h.who == who && heldBase s c.p h.va == heldBase s c.p v
  addHeld s c who write source (vas.filter fun v => !have_ v)

/-- A byte as Umber reads it for a team (R152), without effects: none on a page that is not resident, 0 where there is none. -/
def umberByte (s : State) (u : Acc) (va : Nat) : Option Byte :=
  match walk s u.p va with
  | .ok l => some ((freshBytes s (versionOf s u) l (pageOff l va) 1).headD 0)
  | .nonres _ => none
  | .fault _ _ _ => some 0

/-- The CTL word of a command that lies in its slot, as Umber reads it: none where its page is not resident. -/
def slotCtl (s : State) (u : Acc) (b : Nat × Nat × Nat) (seq : Nat) : Option Nat :=
  let bs := (rangeFrom (slotVa b.1 b.2.1 seq) 4).filterMap (umberByte s u)
  if bs.length = 4 then some (leNat bs) else none

/-- TAIL names a released BIN that has not advanced (R133); while Umber cannot read the command there, it may be one. -/
def binPending (s : State) (u : Acc) (c : Chain) : Bool :=
  match c.bound with
  | none => false
  | some b =>
    decide (c.done < c.tail) && !c.finished.contains c.tail
    && (match c.running.find? (·.seq == c.tail) with
        | some r => bitsOf (r.words.getD 0 0).toNat 31 28 == 5
        | none => decide (c.started < c.tail) && (slotCtl s u b c.tail).all fun w => bitsOf w 31 28 == 5)

/-- An earlier operation of the group on the same slot is still held. -/
def cqBehind (g : Group) (op slot : Nat) : Bool :=
  (g.ops.takeWhile (·.id != op)).any fun o =>
    match o.stage with
    | .cqinit k _ => k == slot
    | .cqadv k _ => k == slot
    | _ => false

/-- Binds a slot (R120, R292): the counters and the completion word become 0, as a release at .team by Umber. -/
def performInit (s : State) (gid op slot h : Nat) (loc : Word) : State :=
  let c := accOfOp s gid loc
  let u := umberAcc s c.team slot 0
  let r := otRead s c h
  let x := r.1.toOption.getD 0
  match r.1 with
  | .error t => setStage r.2 gid op (.faulted t)
  | .ok _ =>
  if !chainLegal x then setStage r.2 gid op (.faulted (objTrap c 0 1 h x))
  else
    let cwa := bitsOf x 191 128
    let w := rangeWrite r.2 u 1 cwa (leBytes 8 0) 4
    match w.1 with
    | .error (.fail t) => setStage w.2 gid op (.faulted t)
    | .error (.hold wr src vas) => holdPages w.2 c (.op gid op) wr src vas
    | .error (.done _ _) => w.2
    | .ok lines =>
      let s1 := dropHeld (recordScope w.2 u 1 lines) c.p (.op gid op)
      setStage (modChain s1 c.team slot fun _ =>
        { Chain.unbound with bound := some (bitsOf x 127 64, bitsOf x 15 12, cwa) }) gid op .done

/-- Performs an advance (R121, R293): the scopes of the commands it passes are read, and the group releases at the
widest. On pages that are not resident it waits (R77). -/
def performAdvance (s : State) (gid op slot n : Nat) (loc : Word) : State :=
  let c := accOfOp s gid loc
  let u := umberAcc s c.team slot 0
  let ch := chainOf s c.team slot
  match ch.bound with
  | none => setStage s gid op (.faulted ⟨6, 5, BitVec.ofNat 32 slot, 0, loc⟩)
  | some b =>
    if n > 2 ^ b.2.1 then setStage s gid op (.faulted ⟨6, 6, BitVec.ofNat 32 slot, BitVec.ofNat 32 n, loc⟩)
    else if binPending s u ch || decide (ch.tail + n - ch.done > 2 ^ b.2.1) then s
    else
      let seqs := rangeFrom (ch.tail + 1) n
      let away := seqs.filter fun q => (slotCtl s u b q).isNone
      if !away.isEmpty then holdPages s c (.op gid op) false 1 (away.map (slotVa b.1 b.2.1))
      else
      let scopes := seqs.map fun q => (q, ctlScope ((slotCtl s u b q).getD 0))
      let s1 := noteRelease (dropHeld s c.p (.op gid op)) c (scopes.foldl (fun m x => max m x.2) 1) []
      setStage (modChain s1 c.team slot fun h =>
        { h with tail := h.tail + n, scopes := scopes.foldl (fun m x => mset m x.1 x.2) h.scopes }) gid op .done

/-- A held CQINIT or CQADV is performed when it can be (R121, R133, R292). -/
def performCq (s : State) (gid : Nat) (o : Op) : State :=
  match o.stage with
  | .cqinit slot h =>
    let ch := chainOf s (teamKey gid) slot
    if cqBehind (getGroup s gid) o.id slot || ch.done != ch.tail then s else performInit s gid o.id slot h o.loc
  | .cqadv slot n => if cqBehind (getGroup s gid) o.id slot then s else performAdvance s gid o.id slot n o.loc
  | _ => s

/-- An operation goes outstanding and is performed at once when it can be. -/
def cqIssue (s : State) (i : Iss) (st : Stage) : State :=
  let s1 := outstanding s i [] st false false
  match (getGroup s1 i.a.gid).ops.getLast? with
  | some o => performCq s1 i.a.gid o
  | none => s1

/-- The effect of CQINIT (R292): SLOT M[8]. -/
def cqinitEffect (i : Iss) (s : State) : State :=
  if !uniGuard s i.a i.e then retireV s i []
  else
    let h := srcA s i.a i.f i.e (lowLane i.a.sp.active) % 2 ^ 16
    let r := otRead s (accOf i) h
    match r.1 with
    | .error t => faultV r.2 i t
    | .ok x =>
    if !chainLegal x then faultV r.2 i (objTrap (accOf i) 0 1 h x)
    else cqIssue r.2 i (.cqinit (i.e.M 8 8) h)

/-- CQINIT (R292). -/
def execCqinit (e : Enc) (s : State) : Res := issue formCqinit e s cqinitEffect

/-- The effect of CQADV (R293). -/
def cqadvEffect (i : Iss) (s : State) : State :=
  if !uniGuard s i.a i.e then retireV s i []
  else cqIssue s i (.cqadv (i.e.M 8 8) (srcB s i.a i.f i.e (lowLane i.a.sp.active) % 2 ^ 32))

/-- CQADV (R293). -/
def execCqadv (e : Enc) (s : State) : Res := issue formCqadv e s cqadvEffect

/-- ENG, NOCHAIN (R295). -/
def noChain (i : Iss) : TrapRec := ⟨6, 5, BitVec.ofNat 32 (i.e.M 8 8), 0, i.loc⟩

/-- The effect of CQWAIT, once DONE has reached its sequence (R295): an acquire at the command's scope. -/
def cqwaitEffect (_ : SMap Byte) (i : Iss) (s : State) : State :=
  let ch := chainOf s (teamKey i.a.gid) (i.e.M 8 8)
  if !uniGuard s i.a i.e then retireV s i []
  else if ch.bound.isNone then faultV s i (noChain i)
  else
    let n := srcB s i.a i.f i.e (lowLane i.a.sp.active)
    let s1 := retireV s i []
    if n = 0 then s1 else acquire (hearAround s1 i.a.gid false) i.a.gid i.a.tm.core (mget ch.scopes n 1)

/-- CQWAIT (R295). -/
def execCqwait (e : Enc) (s : State) : Res := issueWait formCqwait e (.cqwait e) s cqwaitEffect

/-- The effect of CQSEQ (R295): SEL M[9]. -/
def cqseqEffect (i : Iss) (s : State) : State :=
  let ch := chainOf s (teamKey i.a.gid) (i.e.M 8 8)
  if !uniGuard s i.a i.e then retireV s i []
  else if ch.bound.isNone then faultV s i (noChain i)
  else retireV s i (sWrites i.e.d.toNat 2 (if i.e.M 9 9 = 1 then ch.done else ch.tail))

/-- CQSEQ (R295). -/
def execCqseq (e : Enc) (s : State) : Res := issue formCqseq e s cqseqEffect

end Sys2Proof.Machine
end

