-- ==== Sys2Proof/Machine/Tasks.lean ====
section
/-!
DEFINITION. Tasks in Carmine's window: the event ring (R402), watches and settling (R157, R158), commit (R154, R117),
completion and its record (R144, R145, R149, R150, R162).
-/

namespace Sys2Proof.Machine

/-- Records of the event ring (R402). -/
def eventSlots (s : State) : Nat := 2 ^ (if 6 ≤ s.mgmt.evlog2 ∧ s.mgmt.evlog2 ≤ 12 then s.mgmt.evlog2 else 6)

/-- A function of the device signals its MSI-X vector 0 (R400): 0 the physical one, n + 1 partition n's. -/
def signalMsix (s : State) (f : Nat) : State := { s with mgmt := { s.mgmt with msix := s.mgmt.msix ++ [f] } }

/-- An event is raised (R402): its record is written, then PUT advances and vector 0 is signalled; or it is dropped. -/
def reportEvent (s : State) (ty die part info : Nat) : State :=
  let m := s.mgmt
  let seq := m.evseq + 1
  let s1 := { s with mgmt := { m with evseq := seq } }
  if m.evbase = 0 then s1
  else if (m.evput + 2 ^ 32 - m.evget) % 2 ^ 32 = eventSlots s then { s1 with mgmt := { s1.mgmt with evovf := true } }
  else
    let a := m.evbase + 16 * (m.evput % eventSlots s)
    let rec_ := [BitVec.ofNat 8 ty, BitVec.ofNat 8 die, BitVec.ofNat 8 part, 0] ++ leBytes 4 info ++ leBytes 8 seq
    signalMsix { s1 with host := writeBytes s1.host a rec_
                         mgmt := { s1.mgmt with evput := (m.evput + 1) % 2 ^ 32 } } 0

/-- Carmine's own access (R366, R358): direct, on no group's behalf, from the partition's lead die. -/
def carmineAcc (s : State) (p : Nat) : Acc := ⟨p, 0, 64 * (getPart s p).lead, 2 ^ 13, none, 2, 0xFFFFFFFF#32⟩

/-- Bytes of a watched element (R142). -/
def watchBytes (wfmt : Nat) : Nat := match wfmt with | 0 => 4 | 1 => 8 | _ => 2

/-- An element equals the watched pattern (R142, R157). -/
def watchHit (r : Region) (cpat : Word) (x : Nat) : Bool :=
  match r.watch with
  | 1 => x == 0
  | 2 => x % 2 ^ (8 * watchBytes r.wfmt - 1) == 0
  | 3 => fval r.wfmt x == .inf false
  | 4 => fval r.wfmt x == .inf true
  | 5 => fval r.wfmt x == .nan
  | 6 => x == cpat.toNat % 2 ^ (8 * watchBytes r.wfmt)
  | _ => false

/-- Both bits of a 32-byte sector are set (R157): the version has written it, and every element equals the pattern. -/
def sectorMatches (s : State) (p : Nat) (t : Task) (r : Region) (va : Nat) : Bool :=
  match walk s p va with
  | .ok l =>
    let off := pageOff l va
    let stored := if l.domain then (rangeFrom (l.frame + off) 32).map domainKey else keptAddrs s l off 32
    let bs := (freshBytes s t.ver l off 32).map (·.toNat)
    stored.any (mhas t.ver)
    && (unpackBits (8 * watchBytes r.wfmt) (32 / watchBytes r.wfmt) (bytesNat bs)).all (watchHit r t.card.cpat)
  | _ => false

/-- A region may settle absorbing (R157, R158): versioned, watched, all-matching, not settled before. -/
def maySettle (s : State) (p : Nat) (t : Task) (j : Nat) : Bool :=
  match t.card.regions[j]? with
  | none => false
  | some r =>
    t.card.ver && r.mode != 0 && r.watch != 0 && !t.settled.contains j
    && (List.range (2 * r.len)).all fun k => sectorMatches s p t r (64 * r.base + 32 * k)

/-- Region `a` lies inside region `b`. -/
def regionIn (a b : Region) : Bool := decide (b.base ≤ a.base) && decide (a.base + a.len ≤ b.base + b.len)

/-- A region that names nothing. -/
def Region.empty : Region where
  base := 0
  len := 0
  mode := 0
  verr := false
  watch := 0
  wfmt := 0

/-- A region of a card. -/
def Task.region (t : Task) (j : Nat) : Region := t.card.regions.getD j Region.empty

/-- A region settles absorbing (R158, R160): operands that it contains are settled. -/
def settleRegion (s : State) (p tid j : Nat) : State :=
  let big := (getTask s p tid).region j
  let s1 := modTask s p tid fun t => { t with settled := t.settled ++ [j] }
  modPart s1 p fun q => { q with edges := q.edges.map fun e =>
    if e.src = tid && e.raw && e.sreg == j && regionIn ((getTask s p e.dst).region e.region) big then { e with abs := true }
    else e }

/-- Consecutive bytes as runs: the first address and the bytes, the last run first. -/
def runsOf (ws : List (Nat × Byte)) : List (Nat × List Byte) :=
  ws.foldl (fun acc w =>
    match acc with
    | (a, bs) :: rest => if a + bs.length = w.1 then (a, bs ++ [w.2]) :: rest else (w.1, [w.2]) :: acc
    | [] => [(w.1, [w.2])]) []

/-- The version becomes visible (R117, R154): its bytes go to their homes, those of other devices in flits, and no copy of an
older value is left. -/
def commitVersion (s : State) (p tid : Nat) : State :=
  let v := (getTask s p tid).ver
  let far := (v.filter (2 ^ 60 ≤ ·.1)).map fun e => (e.1 - 2 ^ 60, e.2.1)
  let s0 := adoptPages (noteCode ((runsOf far).foldr (fun r acc => sendFlit acc r.1 .write r.2) s) p
    ((v.map Prod.fst).filter (· < 2 ^ 60))) p
  let s1 := v.foldl (fun acc e =>
    if e.1 ≥ 2 ^ 60 then { acc with remote := mset acc.remote (e.1 - 2 ^ 60) e.2.1 }
    else homeWriteByte acc e.1 e.2.2 e.2.1) s0
  let s2 := clearPoison s1 ((v.map Prod.fst).filter (· < 2 ^ 60))
  let s3 := dropBlocks s2 (v.map fun e => if e.1 ≥ 2 ^ 60 then e.1 - 2 ^ 60 else e.1)
  modTask s3 p tid fun t => { t with ver := [], lines := [] }

/-- A task releases at .sys as it completes (R105): every record of it is as wide as a line without one (R68). -/
def releaseTask (s : State) (p tid : Nat) : State :=
  { s with scopes := s.scopes.filter fun x => !(x.2.part == p && x.2.tid == tid) }

/-- A task is decided DONE (R144, R154, R157): its matching regions settle, its version commits, it takes the next commit
number, and its demand on its producers ends (R162). -/
def finishTask (s : State) (p tid : Nat) : State :=
  let t := getTask s p tid
  let s1 := ((List.range t.card.regions.length).filter (maySettle s p t)).foldl (fun acc j => settleRegion acc p tid j) s
  let s2 := releaseTask (commitVersion s1 p tid) p tid
  let n := (getPart s2 p).nextCseq
  let ended (q : Partition) : Partition :=
    { q with nextCseq := n + 1, gbars := q.gbars.filter fun b => b.tid != tid }
  let s3 := modTask (modPart s2 p ended) p tid fun t =>
    { t with st := .decided, fate := some ⟨1, ⟨0, 0, 0, 0, 0⟩⟩, cseq := n }
  let r := uncount (getPart s3 p) fun e => e.dst == tid
  let gone := r.1.filter fun x => (getTask s3 p x).card.wdr
  stopAll (2 * r.2.window.length + 2) (modPart s3 p fun _ => r.2) p (gone.map fun x => (x, withdrawnFate))

/-- A stopped task is decided (R163, R367), once its groups are gone: its completion record is a release at .sys too (R105). -/
def decideTask (s : State) (p tid : Nat) : State :=
  releaseTask (modTask s p tid fun t => { t with st := .decided, ver := [], lines := [] }) p tid

/-- Word 0 of a completion record (R144). -/
def statWord (t : Task) : Nat :=
  match t.fate with
  | none => 0
  | some f =>
    f.status + (if t.taint then 8 else 0) + 16 * t.restarts + f.cause.group * 2 ^ 8 + f.cause.code * 2 ^ 13

/-- The detail of a record: zero for DONE and WITHDRAWN. -/
def recordDetail (f : Fate) : List Byte :=
  if f.status = 1 ∨ f.status = 4 then List.replicate 12 0
  else leBytes 4 f.cause.d0.toNat ++ leBytes 4 f.cause.d1.toNat ++ leBytes 4 f.cause.d2.toNat

/-- Words 1 to 7 of a completion record. -/
def recordBody (t : Task) (f : Fate) : List Byte :=
  leBytes 4 t.tid ++ recordDetail f ++ leBytes 4 (if t.card.kind = 1 then t.retired else 0)
    ++ leBytes 8 (if f.status = 1 then t.cseq else 0)

/-- A status with which a task takes its read-after-write successors along (R150). -/
def failsSuccessors (st : Nat) : Bool := st == 2 || st == 3 || st == 5

/-- A task leaves the window (R147): its edges are satisfied (R149), its status is there for a TJOIN (R166), and if it
failed, its successors that have not started are killed (R150). -/
def leaveWindow (s : State) (p : Nat) (t : Task) : State :=
  let stat := BitVec.ofNat 32 (statWord t)
  let succ := (((getPart s p).edges.filter fun e => e.src == t.tid && e.raw).map (·.dst)).eraseDups
  let s1 := modPart s p fun q =>
    { q with
      window := q.window.filter fun x => x.tid != t.tid
      edges := (q.edges.filter fun e => e.dst != t.tid).map fun e =>
        if e.src = t.tid then { e with src := 0, counts := false, met := true } else e
      children := q.children.map fun c => if c.child = t.tid ∧ c.stat.isNone then { c with stat := some stat } else c
      gbars := q.gbars.filter fun b => b.tid != t.tid
      held := q.held.filter fun h => h.who != .record t.tid && h.who != .bulk t.tid }
  if failsSuccessors ((t.fate.map (·.status)).getD 0) then
    let dead := succ.filter fun d => (getTask s1 p d).st == .waiting
    stopAll (2 * (getPart s1 p).window.length + 2) s1 p (dead.map fun d => (d, ⟨3, ⟨8, 4, BitVec.ofNat 32 t.tid, 0, 0xFFFFFFFF#32⟩⟩))
  else s1

/-- RECORD_WRITE (R144): words 1 to 7, then word 0, as one release at .sys; a record that cannot be written is given up, its fault
goes to firmware, and an event tells the host. -/
def execRecordWrite (part tid : Nat) (s : State) : Res :=
  match findTask s part tid with
  | none => .next s
  | some t =>
    match t.fate with
    | none => .next s
    | some f =>
      if t.st ≠ .decided then .next s
      else
        let c := carmineAcc s part
        let lost (s : State) (e : Perf) : State :=
          let s1 := match e with | .fail x => reportFault s part x | _ => s
          leaveWindow (reportEvent s1 6 0xFF part tid) part t
        if t.card.crec % 32 ≠ 0 then .next (lost s (.fail (memTrap c 0 true 2 3 t.card.crec 0)))
        else
          let w := rangeWrite s c 4 (t.card.crec + 4) (recordBody t f) 4
          match w.1 with
          | .error (.hold wr src vas) => .next (holdPages w.2 { c with tid := tid } (.record tid) wr src vas)
          | .error e => .next (lost w.2 e)
          | .ok _ =>
            let z := rangeWrite w.2 c 4 t.card.crec (leBytes 4 (statWord t)) 4
            match z.1 with
            | .ok lines => .next (leaveWindow (recordScope z.2 c 5 lines) part t)
            | .error e => .next (lost z.2 e)

/-- The producer of an edge has completed: its record is written, or it has committed (R149, R164). -/
def sourceDone (q : Partition) (e : Edge) : Bool :=
  e.met || q.window.any fun t => t.tid == e.src && t.st == .decided && t.fate.any fun f => f.status == 1

/-- The edges of a task that must be met before it starts: all of a strict one's, all but those into operands of a
non-strict one (R149, R160). -/
def edgesMet (q : Partition) (t : Task) : Bool :=
  q.edges.all fun e => e.dst != t.tid || sourceDone q e || (t.card.nstr && e.raw && bitOf t.card.opmask e.region)

/-- Operand `i` is present: every producer has completed (R160). -/
def operandPresent (q : Partition) (t : Task) (i : Nat) : Bool :=
  q.edges.all fun e => e.dst != t.tid || !e.raw || e.region != i || sourceDone q e

/-- Operand `i` is settled absorbing (R160). -/
def operandSettled (q : Partition) (t : Task) (i : Nat) : Bool :=
  q.edges.any fun e => e.dst == t.tid && e.raw && e.region == i && e.abs

/-- The operands of a non-strict task. -/
def operandsOf (t : Task) : List Nat := (List.range 8).filter fun i => bitOf t.card.opmask i

/-- A waiting task may fire (R160). -/
def mayFire (q : Partition) (t : Task) : Bool :=
  t.st == .waiting && t.card.nstr && edgesMet q t
  && ((operandsOf t).all (operandPresent q t) || (operandsOf t).any (operandSettled q t))

/-- A waiting strict task is ready (R149). -/
def isReady (q : Partition) (t : Task) : Bool := t.st == .waiting && !t.card.nstr && edgesMet q t

/-- Before in ready order (R340). -/
def readyBefore (a b : Task) : Bool :=
  decide (b.card.prio < a.card.prio) || (a.card.prio == b.card.prio && decide (a.order < b.order))

/-- A waiting task is ready: a strict one, or one that may fire. -/
def mayGo (q : Partition) (t : Task) : Bool := isReady q t || mayFire q t

/-- No other ready task comes before one in ready order (R340). -/
def firstReady (q : Partition) (t : Task) : Bool := q.window.all fun u => !(mayGo q u && readyBefore u t)

/-- TASK_RELEASE (R149, R340): the first ready task in ready order. -/
def execTaskRelease (part tid : Nat) (s : State) : Res :=
  let q := getPart s part
  match findTask s part tid with
  | none => .next s
  | some t =>
    if isReady q t && firstReady q t then
      .next (modTask s part tid fun x => { x with st := .released, code := codeAt s part t })
    else .next s

/-- FIRE (R160 to R163, R340): in ready order, opnd is fixed, and each edge into an absent operand stops counting. -/
def execFire (part tid : Nat) (s : State) : Res :=
  let q := getPart s part
  match findTask s part tid with
  | none => .next s
  | some t =>
    if mayFire q t && firstReady q t then
      let bits (f : Nat → Bool) : Nat := (operandsOf t).foldl (fun m i => if f i then m + 2 ^ i else m) 0
      let pres := operandPresent q t
      let abs := operandSettled q t
      let s1 := modTask s part tid fun x =>
        { x with st := .released, code := codeAt s part t, opnd := BitVec.ofNat 32 (2 ^ 8 * bits pres + bits abs) }
      let absent := (operandsOf t).filter fun i => !pres i && !abs i
      let r := uncount (getPart s1 part) fun e => e.dst == tid && e.raw && absent.contains e.region
      let gone := r.1.filter fun x => (getTask s1 part x).card.wdr
      .next (stopAll (2 * r.2.window.length + 2) (modPart s1 part fun _ => r.2) part (gone.map fun x => (x, withdrawnFate)))
    else .next s

end Sys2Proof.Machine
end

