-- ==== Sys2Proof/Machine/Context.lean ====
section
/-!
DEFINITION. A group's context record (R347): written by an eviction and a debugger halt, and read back on return and on
resume.
-/

namespace Sys2Proof.Machine

/-- Bytes of a record slot (R347). -/
def slotBytes : Nat := 40960

/-- The address of a record slot in the partition's context area. -/
def slotBase (s : State) (p slot : Nat) : Nat := (getPart s p).ctxbase + slotBytes * slot

/-- An offset, or none as all ones. -/
def optWord (o : Option Word) : Nat := (o.getD 0xFFFFFFFF#32).toNat

/-- All ones as none. -/
def wordOpt (w : Nat) : Option Word := if w = 2 ^ 32 - 1 then none else some (BitVec.ofNat 32 w)

/-- The park word and the park address of a split record; a split parked before an instruction waits anew. -/
def parkWords (k : Park) : Nat × Nat :=
  match k with
  | .none => (0, 0)
  | .before _ _ => (0, 0)
  | .rejoin => (1, 0)
  | .bar a ph => (2 + 4 * ph.toNat, a)
  | .gbar l ph => (3 + 4 * ph.toNat, l)

/-- The park of a split record. -/
def wordPark (w a : Nat) : Park :=
  match w % 4 with
  | 0 => .none
  | 1 => .rejoin
  | 2 => .bar a (bitOf w 2)
  | _ => .gbar a (bitOf w 2)

/-- Words laid out as bytes. -/
def wordsBytes (xs : List Nat) : List Byte := xs.flatMap (leBytes 4)

/-- A split record: 32 bytes. -/
def splitBytes (x : Split) : List Byte :=
  let p := parkWords x.park
  wordsBytes [x.pc.toNat, x.active.toNat, x.fmt.toNat, optWord x.pend, p.1, p.2, x.age, 0]

/-- A stack entry: 32 bytes. -/
def entryBytes (e : Entry) : List Byte :=
  wordsBytes [e.mask.toNat, optWord e.rejoin, e.fmt.toNat, e.resume.toNat, e.deferred.toNat, 0, 0, 0]

/-- Bytes up to a length, with zeros. -/
def padTo (n : Nat) (bs : List Byte) : List Byte := bs ++ List.replicate (n - bs.length) 0

/-- Seven predicates as bits 7 to 1. -/
def predByte (m : SMap Word) (key : Nat → Nat) : Nat :=
  (rangeFrom 1 7).foldl (fun acc k => if mget m (key k) 0 = 0 then acc else acc + 2 ^ k) 0

/-- The control word of a record, at 0x14. -/
def ctxCtl (g : Group) : Nat :=
  g.handler.isSome.toNat + 2 * g.splits.length + 2 ^ 8 * (predByte g.regs qKey + 1) + 2 ^ 16 * g.entries.length

/-- A group's context record (R347). -/
def ctxRecord (t : Team) (g : Group) : List Byte :=
  padTo 0x40 (wordsBytes [t.tid] ++ leBytes 8 t.linear ++ wordsBytes [g.w1, g.quota, ctxCtl g])
  ++ wordsBytes ((List.range 128).map fun i => (mget g.regs (sKey i) 0).toNat)
  ++ padTo 128 (g.splits.flatMap splitBytes)
  ++ wordsBytes ((List.range 16).map fun i => (mget g.hc i 0).toNat)
  ++ padTo 1024 (g.entries.flatMap fun e => entryBytes e.2)
  ++ (List.range 32).map (fun l => BitVec.ofNat 8 (predByte g.regs (pKey l)))
  ++ (List.range 32).flatMap (fun l => leBytes 8 (mget g.lg l 0).toNat)
  ++ (List.range 256).flatMap (fun k => leBytes 20 (mget g.cursors k Cursor.closed).image)
  ++ List.replicate 992 0
  ++ (List.range (8 * g.quota)).flatMap fun r => (List.range 32).flatMap fun l => leBytes 4 (mget g.regs (vKey l r) 0).toNat

/-- `n` bytes at an offset of a record, as a number. -/
def recNat (bs : List Byte) (off n : Nat) : Nat := leNat ((bs.drop off).take n)

/-- A split as its record says; what the record does not hold is the split's own. -/
def loadSplit (bs : List Byte) (old : Split) : Split :=
  let w (k : Nat) : Nat := recNat bs (4 * k) 4
  { old with
    pc := BitVec.ofNat 32 (w 0), active := BitVec.ofNat 32 (w 1), fmt := BitVec.ofNat 32 (w 2), pend := wordOpt (w 3)
    park := wordPark (w 4) (w 5), age := w 6, stale := [], chain := 0, readyAt := none, promoted := false }

/-- A stack entry as its record says; the age, which the record does not hold, is the entry's own. -/
def loadEntry (bs : List Byte) (age : Option Nat) : Entry :=
  let w (k : Nat) : Nat := recNat bs (4 * k) 4
  ⟨BitVec.ofNat 32 (w 0), wordOpt (w 1), BitVec.ofNat 32 (w 2), BitVec.ofNat 32 (w 3), BitVec.ofNat 32 (w 4), age⟩

/-- The predicates of a byte. -/
def loadPreds (b : Nat) (key : Nat → Nat) : List (Nat × Word) :=
  (rangeFrom 1 7).map fun k => (key k, if bitOf b k then 1 else 0)

/-- The registers of a record. -/
def loadRegs (quota : Nat) (bs : List Byte) : SMap Word :=
  let word (off : Nat) : Word := BitVec.ofNat 32 (recNat bs off 4)
  let s := (List.range 128).map fun i => (sKey i, word (0x40 + 4 * i))
  let p := (List.range 32).flatMap fun l => loadPreds (recNat bs (0x700 + l) 1) (pKey l)
  let q := loadPreds (recNat bs 0x15 1) qKey
  let v := (List.range (8 * quota)).flatMap fun r =>
    (List.range 32).map fun l => (vKey l r, word (0x2000 + 128 * r + 4 * l))
  (s ++ p ++ q ++ v).foldl (fun m x => mput 0 m x.1 x.2) []

/-- Handler mode as a record says; with no handler split known, the first split. Stack entries are renumbered in order. -/
def loadHandler (on : Bool) (g : Group) (first : Split) : Option Handler :=
  let h := g.handler.getD ⟨first.age, none, first.active, 0, mkeys g.entries⟩
  if on then some { h with slots := h.slots.filterMap fun i => (mkeys g.entries).idxOf? i } else none

/-- A group as its record says (R346, R373): task, team index, W1 and quota are not read back. -/
def loadCtx (g : Group) (bs : List Byte) : Group :=
  let ctl := recNat bs 0x14 4
  let splits := (List.range (bitsOf ctl 3 1)).map fun k => loadSplit (bs.drop (0x240 + 32 * k)) (g.splits.getD k Split.empty)
  let h := loadHandler (bitOf ctl 0) g (splits.headD Split.empty)
  { g with
    regs := loadRegs g.quota bs
    splits := splits.map fun x => { x with handler := (h.map (·.split)) == some x.age }
    handler := h
    hc := (List.range 16).foldl (fun m i => mput 0 m i (BitVec.ofNat 32 (recNat bs (0x2C0 + 4 * i) 4))) []
    entries := (List.range (bitsOf ctl 21 16)).map fun i =>
      (i, loadEntry (bs.drop (0x300 + 32 * i)) ((g.entries[i]?).bind fun e => e.2.age))
    lg := (List.range 32).foldl (fun m l => mput 0 m l (BitVec.ofNat 64 (recNat bs (0x720 + 8 * l) 8))) []
    cursors := (List.range 256).foldl (fun m k =>
      mput Cursor.closed m k (Cursor.ofImage (recNat bs (0x820 + 20 * k) 20))) [] }

/-- Writes a group's record; none where the partition does not map its slot. -/
def saveCtx (s : State) (gid slot : Nat) : Option State :=
  let t := getTeam s (teamKey gid)
  let w := rangeWrite s (carmineAcc s t.part) 4 (slotBase s t.part slot) (ctxRecord t (getGroup s gid)) 4
  match w.1 with
  | .ok _ => some w.2
  | .error _ => none

/-- A record that lies in a poisoned block strikes the group's task as it is read (R374). -/
def strikeRecord (s : State) (gid slot : Nat) : State :=
  if s.poison.isEmpty then s
  else
    let t := getTeam s (teamKey gid)
    let pieces := piecesOf (slotBase s t.part slot) (0x2000 + 1024 * (getGroup s gid).quota)
    strikePoison s { carmineAcc s t.part with tid := t.tid } (pieces.flatMap fun x =>
      match walk s t.part x.1 with
      | .ok l => if l.domain then [] else keptAddrs s l (pageOff l x.1) x.2
      | _ => [])

/-- Reads a group's record back. -/
def restoreCtx (s : State) (gid slot : Nat) : Option State :=
  let t := getTeam s (teamKey gid)
  let r := rangeRead s (carmineAcc s t.part) 4 (slotBase s t.part slot) (0x2000 + 1024 * (getGroup s gid).quota) 4
  match r.1 with
  | .ok bs => some (strikeRecord (modGroup r.2 gid fun g => loadCtx g bs) gid slot)
  | .error _ => none

/-- Every split of a group has stopped or is parked, outside a hold chain (R22, R23, R368). -/
def groupQuiet (g : Group) : Bool :=
  g.splits.all fun x => x.stopped || (x.stop.isSome && x.chain == 0 && (match x.park with | .none => false | .before _ true => false | _ => true))

/-- A group has drained (R345). -/
def drained (g : Group) : Bool := groupQuiet g && g.ops.isEmpty

/-- The splits of a group go on, but for those that handler mode keeps stopped. -/
def resumeSplits (g : Group) : Group :=
  let keep := g.res != .resident || g.halt != .running
  let heldBy := g.held.map Prod.fst
  { g with splits := g.splits.map fun x =>
      if keep || heldBy.contains x.age || (g.handler.isSome && !x.handler) then x
      else { x with stop := none, stopped := false } }

/-- An outstanding RQUOTA whose receiver is evicted ends with no effect (R28, R302): its predicate becomes false and the
granules are the giver's again. -/
def refuseQuota (evicted giver : Nat) (g : Group) : Group :=
  { g with
    ops := g.ops.map fun o =>
      match o.stage with
      | .rquota recv _ dest =>
        if 32 * teamKey giver + recv = evicted then { o with stage := .done, writes := lateWrites o (qKey dest) 0 } else o
      | _ => o }

/-- The record of a group that is to be evicted: its slot, and the state once it is written. That of a halted group has been written,
and the debugger may have changed it (R373). -/
def evictRecord (s : State) (gid : Nat) (g : Group) : Option (Nat × State) :=
  match g.halt with
  | .halted slot => some (slot, s)
  | _ => (saveCtx s gid gid).map fun s1 => (gid, s1)

/-- EVICTION_SAVE (R345, R347): a drained group's state goes to its record, and its quota returns; an RQUOTA that would
give to it ends with no effect. -/
def execEvictionSave (gid : Nat) (s : State) : Res :=
  match mfind s.groups gid with
  | none => .next s
  | some g =>
    if g.res = .stopping ∧ drained g then
      match evictRecord s gid g with
      | some (slot, s1) =>
        let gs := s1.groups.map fun x => (x.1, refuseQuota gid x.1 x.2)
        .next (modGroup { s1 with groups := gs, order := s1.order + 1 } gid fun g =>
          { g with res := .evicted s.order slot, flags := [] })
      | none => .next s
    else .next s

end Sys2Proof.Machine
end

