-- ==== Sys2Proof/Machine/Sync.lean ====
section
/-!
DEFINITION. Barriers, row counts and fences (R62, R63, R286 to R291): BAR BARA BARW RCW GBAR FENCE.
-/

namespace Sys2Proof.Machine

/-- The arrival of `n` lanes at a barrier word (R62). -/
def arriveWord (w n : Nat) : Nat :=
  let exp := bitsOf w 14 0
  let t := bitsOf w 30 15 + n
  if t < exp then bitsOf w 31 31 * 2 ^ 31 + t * 2 ^ 15 + exp
  else (1 - bitsOf w 31 31) * 2 ^ 31 + exp

/-- The splits that a wake reaches go on, each ordered after what came before the other arrivals at the barrier word or grid barrier
that `use` names (R21). -/
def unparkWhere (use : Nat) (hit : Split → Bool) (g : Group) : Group :=
  let g1 := (g.splits.filter hit).foldl (fun acc x => hearScr x use acc) g
  { g1 with splits := g1.splits.map fun x => if hit x then { x with park := .none } else x }

/-- A split parked at a barrier may go on once its phase has changed (R287, R368, R372, R373): of a group that is resident, not
about to halt, and of a task that runs; in handler mode the handler split alone. -/
def wakesNow (s : State) (gid : Nat) (x : Split) : Bool :=
  let g := getGroup s gid
  let tm := getTeam s (teamKey gid)
  g.res == .resident && g.halt == .running && (g.handler.isNone || x.handler) && (getTask s tm.part tm.tid).st == .released

/-- The splits of a group that wait after a BAR at a word whose phase has changed go on; each wake acquires (R286). -/
def wakeBars (s : State) (gid core addr : Nat) (ph : Bool) : State :=
  let hit (x : Split) : Bool :=
    (match x.park with | .bar a p => a == addr && p != ph | _ => false) && wakesNow s gid x
  if (getGroup s gid).splits.any hit then
    acquireAround (modGroup s gid (unparkWhere (wordCov addr 4) hit)) gid core 1
  else s

/-- The groups of a team, by key. -/
def teamGroups (s : State) (tk : Nat) : List Nat := (mkeys s.groups).filter fun g => teamKey g == tk

/-- Wakes what waits on a word of a team's scratchpad: splits after a BAR, and parked waits (R61, R286). -/
def wakeWord (s : State) (tk addr : Nat) : State :=
  let tm := getTeam s tk
  grantWaits ((teamGroups s tk).foldl (fun acc gid =>
    wakeBars acc gid tm.core addr (barPhase (scrWord tm addr))) s) tk

/-- An arrival of a split (R62, R286): the release, the word updated and whoever waits on it woken; the phase before. -/
def barArrive (s : State) (i : Iss) (addr : Nat) : Bool × State :=
  let tk := teamKey i.a.gid
  let w := scrWord i.a.tm addr
  let y := arriveWord w (laneCount i.a.sp.active)
  let s0 := modGroup s i.a.gid (hearScr i.a.sp (wordCov addr 4))
  let s1 := scrWrite (noteRelease s0 (accOf i) 1 []) tk addr (leBytes 4 y)
  (barPhase w, if barPhase y == barPhase w then s1 else wakeWord s1 tk addr)

/-- The traps of a barrier arrival: address, then EXP 0 (R62, R286). -/
def barTrap (s : State) (i : Iss) (addr : Nat) : Option TrapRec :=
  match scrCheck (accOf i) i.a.tm 0 true addr 4 with
  | some t => some t
  | none => if bitsOf (scrWord (getTeam s (teamKey i.a.gid)) addr) 14 0 = 0
      then some ⟨5, 3, BitVec.ofNat 32 addr, 0, i.loc⟩ else none

/-- The effect of BARA (R286). -/
def baraEffect (i : Iss) (s : State) : State :=
  if !uniGuard s i.a i.e then retireV s i []
  else
    let ad := barAddr s i.a i.f i.e
    match barTrap s i ad with
    | some t => faultV s i t
    | none =>
      let r := barArrive s i ad
      retireV r.2 i (sWrites i.e.d.toNat 1 r.1.toNat)

/-- BARA (R286). -/
def execBara (e : Enc) (s : State) : Res := issue formBara e s baraEffect

/-- The effect of BAR (R286): the flag drops at issue, and the split parks unless the phase has ended. -/
def barEffect (i : Iss) (s : State) : State :=
  if !uniGuard s i.a i.e then retireV s i []
  else
    let ad := barAddr s i.a i.f i.e
    match barTrap s i ad with
    | some t => faultV s i t
    | none =>
      let r := barArrive s i ad
      let s1 := retireV r.2 i []
      if barPhase (scrWord (getTeam s1 (teamKey i.a.gid)) ad) == r.1 then
        modSplit s1 i.a.gid i.a.k fun x => { x with park := .bar ad r.1, chain := 0 }
      else acquireAround s1 i.a.gid i.a.tm.core 1

/-- BAR (R286). -/
def execBar (e : Enc) (s : State) : Res := issue formBar e s barEffect

/-- The effect of BARW and RCW, once their word allows it (R286, R288). -/
def wordEffect (_ : SMap Byte) (i : Iss) (s : State) : State :=
  if !uniGuard s i.a i.e then retireV s i []
  else
    match scrCheck (accOf i) i.a.tm 0 false (barAddr s i.a i.f i.e) 4 with
    | some t => faultV s i t
    | none => acquireAround (retireV s i []) i.a.gid i.a.tm.core 1

/-- BARW (R286). -/
def execBarw (e : Enc) (s : State) : Res := issueWait formBarw e (.barw e) s wordEffect
/-- RCW (R288). -/
def execRcw (e : Enc) (s : State) : Res := issueWait formRcw e (.rcw e) s wordEffect

/-- The set of a team at a level (R10): its linear index without the fields below the level. -/
def setOf (h : Header) (linear level : Nat) : Nat :=
  if level ≥ 6 then 0 else linear / 2 ^ (((h.widths.take level).drop 2).foldl (· + ·) 0)

/-- The barrier record of a set (R348). -/
def gbarRec (s : State) (p tid level set : Nat) : Option GbarRec :=
  (getPart s p).gbars.find? fun r => r.tid == tid && r.level == level && r.set == set

/-- The effect of GBAR (R289): LEVEL M[10:8]; the arrival is a message to Carmine. -/
def gbarEffect (i : Iss) (s : State) : State :=
  let k := i.e.M 10 8
  let tm := i.a.tm
  let h := i.a.task.header
  if !uniGuard s i.a i.e then retireV s i []
  else if h.col < k then faultV s i ⟨5, 4, BitVec.ofNat 32 k, BitVec.ofNat 32 h.col, i.loc⟩
  else
    let ph := ((gbarRec s tm.part tm.tid k (setOf h tm.linear k)).map (·.phase)).getD false
    let s1 := retireV (noteRelease s (accOf i) 3 []) i []
    let s2 := modPart s1 tm.part fun q =>
      { q with msgs := q.msgs ++ [⟨tm.tid, tm.linear, k, laneCount i.a.sp.active⟩] }
    modSplit s2 i.a.gid i.a.k fun x => { x with park := .gbar k ph, chain := 0 }

/-- GBAR (R289). -/
def execGbar (e : Enc) (s : State) : Res := issue formGbar e s gbarEffect

/-- A split that waits after a GBAR whose phase has changed goes on; the wake acquires (R290). -/
def wakeGbar (s : State) (gid : Nat) : State :=
  let tm := getTeam s (teamKey gid)
  let h := (getTask s tm.part tm.tid).header
  let hit (x : Split) : Bool := (match x.park with
    | .gbar k p => (gbarRec s tm.part tm.tid k (setOf h tm.linear k)).any fun r => r.phase != p
    | _ => false) && wakesNow s gid x
  if (getGroup s gid).splits.any hit then
    acquireAround (modGroup s gid (unparkWhere scrCov hit)) gid tm.core 3
  else s

/-- A parked split whose BAR or GBAR phase has ended meanwhile goes on (R287, R289). -/
def wakeParked (s : State) (gid k : Nat) : State :=
  match atOf s gid k with
  | none => s
  | some a =>
    match a.sp.park with
    | .bar addr _ => wakeBars s gid a.tm.core addr (barPhase (scrWord a.tm addr))
    | .gbar _ _ => wakeGbar s gid
    | _ => s

/-- Whether that has happened. -/
def mayWake (s : State) (gid k : Nat) : Bool :=
  match atOf s gid k with
  | none => false
  | some a =>
    wakesNow s gid a.sp && match a.sp.park with
    | .bar addr p => barPhase (scrWord a.tm addr) != p
    | .gbar l p => (gbarRec s a.tm.part a.tm.tid l (setOf a.task.header a.tm.linear l)).any fun r => r.phase != p
    | _ => false

/-- The effect of FENCE (R106, R291): ORD M[9:8], SCOPE M[12:10]. A release fence gives its scope to the later plain writes of
its split's lanes; an acquire fence checks the lines that those lanes have read since their last acquire (R68). -/
def fenceEffect (i : Iss) (s : State) : State :=
  let ord := i.e.M 9 8
  let scope := i.e.M 12 10
  if !uniGuard s i.a i.e then retireV s i []
  else
    let s1 := if ord ≥ 2 then
        modGroup (noteRelease s (accOf i) scope []) i.a.gid fun g =>
          { g with fence := (lanesOf i.a.sp.active).foldl (fun m l => mset m l (max scope (mget m l 0))) g.fence }
      else s
    if ord % 2 = 1 then
      let r := readCheck s1 (accOf i) scope (lanesOf i.a.sp.active)
      let s2 := acquire r.2 i.a.gid i.a.tm.core scope
      (match r.1 with | some t => faultV s2 i t | none => retireV s2 i [])
    else retireV s1 i []

/-- FENCE (R291). -/
def execFence (e : Enc) (s : State) : Res := issue formFence e s fenceEffect

end Sys2Proof.Machine
end

