-- ==== Sys2Proof/Machine/Room.lean ====
section
/-!
DEFINITION. Room on cores (R11, R58, R59, R341) and how a grid's teams are cut into batches (R10, R342).
-/

namespace Sys2Proof.Machine

/-- Scratchpad bytes of a carve-out code (R58). -/
def carveScr (code : Nat) : Nat :=
  2 ^ 19 * (match code with | 0 => 1 | 1 => 2 | 2 => 3 | 3 => 4 | 4 => 2 | 5 => 3 | 6 => 1 | _ => 2)

/-- Cores that leave a partition in a resize (R384). -/
def leavingCores (s : State) (p : Nat) : Nat :=
  s.mgmt.resizes.foldl (fun m r => if r.src = p ∧ 1 ≤ r.state ∧ r.state ≤ 5 then m ||| r.cores else m) 0

/-- A partition holds a resource on a die (R376). -/
def onDie (q : Partition) (d : Nat) : Bool :=
  bitsOf q.cg (16 * d + 15) (16 * d) != 0 || bitsOf q.sg (12 * d + 11) (12 * d) != 0 || bitsOf q.hg (8 * d + 7) (8 * d) != 0

/-- The die that a partition drops when the link between two of its dies fails (R389). -/
def dropDie (q : Partition) (a b : Nat) : Option Nat :=
  if onDie q a && onDie q b then some (if q.lead = a then b else if q.lead = b then a else max a b) else none

/-- The dies that a partition has dropped. -/
def droppedDies (s : State) (p : Nat) : List Nat :=
  s.mgmt.deadDies.filterMap fun x => dropDie (getPart s p) x.1 x.2

/-- The cores of a partition that teams may be placed on, ascending (R376, R384, R389). -/
def coresOf (s : State) (p : Nat) : List Nat :=
  let m := (getPart s p).cg &&& (2 ^ 64 - 1 - leavingCores s p)
  let drop := droppedDies s p
  (List.range 256).filter fun n => bitOf m (n / 4) && !(getCore s n).gated && !drop.contains (n / 64)

/-- Teams on a core, with their keys. -/
def teamsOn (s : State) (core : Nat) : List (Nat × Team) := s.teams.filter fun t => t.1 / 8 == core

/-- Groups on a core, with their keys. -/
def groupsOn (s : State) (core : Nat) : List (Nat × Group) := s.groups.filter fun g => g.1 / 256 == core

/-- An evicted group. -/
def isEvicted (g : Group) : Bool := match g.res with | .evicted _ _ => true | _ => false

/-- What is left on a core: team slots, its carve-out code unless it is empty, scratchpad in use, and each quadrant's free
granules and groups. -/
structure Room where
  slots : Nat
  carve : Option Nat
  used  : List (Nat × Nat)
  gran  : List Nat
  grps  : List Nat

/-- The room on an empty core. -/
def Room.empty : Room where
  slots := 8
  carve := none
  used := []
  gran := List.replicate 4 256
  grps := List.replicate 4 16

/-- The room on a core (R341); an evicted group holds no granules (R345). -/
def roomOf (s : State) (core : Nat) : Room :=
  let ts := teamsOn s core
  let gs := (groupsOn s core).filter fun g => !isEvicted g.2
  let inQuad (q : Nat) : List (Nat × Group) := gs.filter fun g => quadrantOf (getTeam s (teamKey g.1)) g.2.w1 == q
  { slots := 8 - ts.length
    carve := if ts.isEmpty then none else some (getCore s core).carve
    used := ts.map fun t => (t.2.scrbase, t.2.scrsize)
    gran := (List.range 4).map fun q => 256 - (inQuad q).foldl (fun m g => m + g.2.quota) 0
    grps := (List.range 4).map fun q => 16 - (inQuad q).length }

/-- The lowest offset with `n` free contiguous bytes (R59). -/
def freeScr (used : List (Nat × Nat)) (total n : Nat) : Option Nat :=
  ((0 :: used.map fun u => u.1 + u.2).filter fun o =>
    decide (o + n ≤ total) && used.all fun u => decide (o + n ≤ u.1) || decide (u.1 + u.2 ≤ o)).min?

/-- Groups of a team in the `i`-th quadrant of its spread (R11). -/
def spreadCount (h : Header) (i : Nat) : Nat := (h.exts.getD 1 1 + h.spread - 1 - i) / h.spread

/-- Granules that a team needs in quadrant `q` with base `qb`. -/
def quadNeed (h : Header) (qb q : Nat) : Nat :=
  let i := (q + 4 - qb) % 4
  if i < h.spread then spreadCount h i * h.quota else 0

/-- Groups that a team has in quadrant `q` with base `qb`. -/
def quadGroups (h : Header) (qb q : Nat) : Nat :=
  let i := (q + 4 - qb) % 4
  if i < h.spread then spreadCount h i else 0

/-- The base, lowest first, for which every quadrant has room (R343). -/
def baseFor (r : Room) (h : Header) : Option Nat :=
  (List.range 4).find? fun qb => (List.range 4).all fun q =>
    decide (quadNeed h qb q ≤ r.gran.getD q 0) && decide (quadGroups h qb q ≤ r.grps.getD q 0)

/-- The first three conditions of R341: a team slot, the carve-out code, the scratchpad. -/
def roomSlot (r : Room) (h : Header) : Option Nat :=
  if r.slots = 0 then none
  else
    match r.carve with
    | some c => if c = h.carve then freeScr r.used (carveScr h.carve) h.scr else none
    | none => freeScr [] (carveScr h.carve) h.scr

/-- A team placed: its scratchpad offset, its base, and the room that is left. -/
def fitTeam (r : Room) (h : Header) : Option (Nat × Nat × Room) :=
  match roomSlot r h, baseFor r h with
  | some o, some qb =>
    some (o, qb,
      { slots := r.slots - 1, carve := some h.carve, used := (o, h.scr) :: r.used
        gran := (List.range 4).map fun q => r.gran.getD q 0 - quadNeed h qb q
        grps := (List.range 4).map fun q => r.grps.getD q 0 - quadGroups h qb q })
  | _, _ => none

/-- How many teams a core could take at once, at most `fuel`. -/
def fitCount (fuel : Nat) (r : Room) (h : Header) : Nat :=
  match fuel with
  | 0 => 0
  | n + 1 => match fitTeam r h with | some x => fitCount n x.2.2 h + 1 | none => 0

/-- An evicted group of equal or higher priority returns to its core first (R30, R346). -/
def coreReserved (s : State) (core prio : Nat) : Bool :=
  (groupsOn s core).any fun g => isEvicted g.2 && decide (prio ≤ (getTeam s (teamKey g.1)).prio)

/-- A core can take a team of a grid (R341). -/
def takes (s : State) (t : Task) (core : Nat) : Bool :=
  !coreReserved s core t.card.prio && (fitTeam (roomOf s core) t.header).isSome

/-- Free slots of each die of a partition for a grid (R341). -/
def freeSlots (s : State) (p : Nat) (t : Task) : SMap Nat :=
  (coresOf s p).foldl (fun m c =>
    let n := if coreReserved s c t.card.prio then 0 else fitCount 8 (roomOf s c) t.header
    mset m (dieOf c) (mget m (dieOf c) 0 + n)) []

/-- Slots of each die if its cores were empty (R10). -/
def emptySlots (s : State) (p : Nat) (h : Header) : SMap Nat :=
  (coresOf s p).foldl (fun m c => mset m (dieOf c) (mget m (dieOf c) 0 + fitCount 8 Room.empty h)) []

/-- Teams of a set at a level (R10). -/
def setTeams (h : Header) (level : Nat) : Nat := ((h.exts.take level).drop 2).foldl (· * ·) 1

/-- Teams of a grid. -/
def gridTeams (h : Header) : Nat := setTeams h 6

/-- The linear index of the `n`-th team, in increasing order (R9). -/
def teamIndex (h : Header) (n : Nat) : Nat :=
  (List.range 4).foldl (fun acc i =>
    let k := i + 2
    acc + n / setTeams h k % h.exts.getD k 1 * 2 ^ (((h.widths.take k).drop 2).foldl (· + ·) 0)) 0

/-- The die with the most free slots, the lowest on a tie (R342). -/
def mostFree (fs : SMap Nat) : Option (Nat × Nat) :=
  fs.foldl (fun acc d => match acc with
    | some b => if b.2 < d.2 then some d else acc
    | none => if d.2 = 0 then none else some d) none

/-- Key of a gang set's die. -/
def gangKey (tid set : Nat) : Nat := tid * 2 ^ 64 + set

/-- The next batch from the `pos`-th team (R342): the die and the number of teams. A gang set goes to its own die; one of a
co-resident set goes there only whole. -/
def nextBatch (h : Header) (tid : Nat) (fs gangs : SMap Nat) (pos stop : Nat) : Option (Nat × Nat) :=
  let g := h.gang
  let ng := if g = 0 then 1 else setTeams h g
  let pick : Option (Nat × Nat) :=
    match if g = 0 then none else mfind gangs (gangKey tid (pos / ng)) with
    | some d => some (d, mget fs d 0)
    | none =>
      match mostFree fs with
      | some b =>
        let need := if h.col = 0 then 1 else if g = 0 then 1 else min ng (setTeams h h.col)
        if need ≤ b.2 then some b else none
      | none => none
  match pick with
  | none => none
  | some (d, free) =>
    let left := if g = 0 then stop - pos else min (stop - pos) ((pos / ng + 1) * ng - pos)
    if free = 0 then none else some (d, min 64 (min left free))

/-- The batches of teams `pos` to `stop - 1`, all of them or none; and the dies of the gang sets. -/
def cutBatches (fuel : Nat) (h : Header) (tid : Nat) (fs gangs : SMap Nat) (pos stop : Nat) :
    Option (List Batch × SMap Nat) :=
  match fuel with
  | 0 => none
  | n + 1 =>
    if pos ≥ stop then some ([], gangs)
    else
      match nextBatch h tid fs gangs pos stop with
      | none => none
      | some (d, k) =>
        let b : Batch := ⟨tid, d, (rangeFrom pos k).map (teamIndex h)⟩
        let gangs' := if h.gang = 0 then gangs else mset gangs (gangKey tid (pos / setTeams h h.gang)) d
        (cutBatches n h tid (mset fs d (mget fs d 0 - k)) gangs' (pos + k) stop).map fun r => (b :: r.1, r.2)

/-- Teams that a partition can hold at most. -/
def slotSum (fs : SMap Nat) : Nat := fs.foldl (fun m d => m + d.2) 0

/-- Barrier records of a co-resident set (R348). -/
def gbarCount (h : Header) : Nat := (rangeFrom 2 (h.col - 1)).foldl (fun m k => m + setTeams h h.col / setTeams h k) 0

/-- A co-resident set of the grid can never be admitted (R10, R348). -/
def cannotFit (s : State) (p : Nat) (h : Header) : Bool :=
  let n := setTeams h h.col
  let fs := emptySlots s p h
  h.col != 0 && (decide (gbarCount h > 4096) || decide (n > slotSum fs) || (cutBatches (n + 1) h 0 fs [] 0 n).isNone)

/-- The barrier records of the co-resident set that begins at the `pos`-th team (R289, R348). -/
def gbarsFor (h : Header) (tid pos : Nat) : List GbarRec :=
  (rangeFrom 2 (h.col - 1)).flatMap fun k =>
    (List.range (setTeams h h.col / setTeams h k)).map fun i =>
      ⟨tid, k, setOf h (teamIndex h (pos + i * setTeams h k)) k, 32 * h.exts.getD 1 1 * setTeams h k, false, 0⟩

end Sys2Proof.Machine
end

