-- ==== Sys2Proof/Machine/Teams.lean ====
section
/-!
DEFINITION. From a released grid to resident teams and back: dispatch (R340 to R343), partial eviction and return (R344 to
R346), the ends of groups, teams and grids (R29, R154), grid barrier arrivals (R348), task-level stops (R163, R367).
-/

namespace Sys2Proof.Machine

/-- A grid that still has teams to admit (R340). -/
def wantsTeams (t : Task) : Bool :=
  t.st == .released && t.card.kind == 1 && t.hdr.isSome && decide (t.admitted < gridTeams t.header)

/-- The head grid of a partition (R340). -/
def headGrid (q : Partition) : Option Task :=
  (q.window.filter wantsTeams).foldl (fun acc t => match acc with
    | some u => if readyBefore t u then some t else acc
    | none => some t) none

/-- Batches of the head grid with teams left (R340): those of any other grid have gone back. -/
def liveBatches (q : Partition) : List Batch :=
  q.batch.filter fun b => !b.teams.isEmpty && (headGrid q).any fun t => t.tid == b.tid

/-- The core for a team of a batch (R343). -/
def coreFor (s : State) (p : Nat) (t : Task) (die : Nat) : Option Nat :=
  let ok := (coresOf s p).filter fun c => dieOf c == die && takes s t c
  let rank (c : Nat) : List Nat :=
    [(groupsOn s c).length, if (getCore s c).carve = t.header.carve then 0 else 1, c]
  let lt (x y : List Nat) : Bool :=
    decide (x.getD 0 0 < y.getD 0 0) || (x.getD 0 0 == y.getD 0 0 && (decide (x.getD 1 0 < y.getD 1 0)
      || (x.getD 1 0 == y.getD 1 0 && decide (x.getD 2 0 < y.getD 2 0))))
  ok.foldl (fun acc c => match acc with
    | some b => if lt (rank c) (rank b) then some c else acc
    | none => some c) none

/-- The lowest free team slot of a core (R347). -/
def freeTeamSlot (s : State) (core : Nat) : Option Nat := (List.range 8).find? fun k => !mhas s.teams (8 * core + k)

/-- A group in its entry state (R12). -/
def entryGroup (h : Header) (linear w1 age : Nat) : Group :=
  let s0 : List (Nat × Nat) := [(0, h.param), (1, h.param / 2 ^ 32), (2, w1), (3, linear)]
  let wid (l : Nat) : Nat := l + w1 * 2 ^ 5 + linear * 2 ^ (5 + h.widths.getD 1 0)
  { Group.empty with
    w1, quota := h.quota, age
    regs := s0.foldl (fun m x => mput 0 m (sKey x.1) (BitVec.ofNat 32 x.2)) []
    lg := (List.range 32).map fun l => (l, seedLane (BitVec.ofNat 64 h.seed) (BitVec.ofNat 64 (wid l)))
    splits := [{ Split.empty with active := 0xFFFFFFFF#32 }]
    nextAge := 1 }

/-- A core that changes its carve-out writes back and empties its L1 (R58). -/
def recarve (s : State) (core carve : Nat) : State :=
  if (getCore s core).carve = carve then s
  else dropSi (((s.own.filter fun g => g.2.core == core).map Prod.fst).foldl recallGrain s) core

/-- A team starts on a core (R11, R12, R58, R59, R107, R356). -/
def startTeam (s : State) (p : Nat) (t : Task) (core slot linear base qb : Nat) : State :=
  let h := t.header
  let ngrp := h.exts.getD 1 1
  let tk := 8 * core + slot
  let team : Team :=
    { Team.empty with
      part := p, tid := t.tid, linear, core, slot, qb, ngrp, spread := h.spread, prio := t.card.prio,
      scrbase := base, scrsize := h.scr, order := s.order }
  let s1 := modCore (recarve s core h.carve) core fun c => { c with carve := h.carve }
  let s2 := assignUnits
    { s1 with
      teams := mset s1.teams tk team
      tlb := s1.tlb.filter fun e => !(e.at_ == .core core && e.team == tk)
      order := s1.order + 1 } core
  let s3 := (List.range ngrp).foldl (fun acc w1 =>
    { acc with groups := mset acc.groups (32 * tk + w1) (entryGroup h linear w1 acc.order), order := acc.order + 1 }) s2
  modTask (dropSi s3 core) p t.tid fun x => { x with admitted := x.admitted + 1 }

/-- A die dispatcher places a team of a grid on its die (R343), if a core can take it. -/
def seatTeam (s : State) (p tid die linear : Nat) : Option State :=
  let t := getTask s p tid
  (coreFor s p t die).bind fun c =>
    match freeTeamSlot s c, fitTeam (roomOf s c) t.header with
    | some k, some f => some (modPart (startTeam s p t c k linear f.1 f.2.1) p fun q => { q with evictor := none })
    | _, _ => none

/-- The teams of batches placed one at a time in linear-index order, all of them or none (R10, R342). -/
def seatAll (s : State) (p : Nat) (tid : Nat) (xs : List (Nat × Nat)) : Option State :=
  match xs with
  | [] => some s
  | x :: rest => (seatTeam s p tid x.1 x.2).bind fun s1 => seatAll s1 p tid rest

/-- TEAM_ADMIT (R343): the first team of the batch; a batch whose team has no core goes back. -/
def execTeamAdmit (part : Nat) (s : State) : Res :=
  let q := getPart s part
  match liveBatches q with
  | [] => .next s
  | b :: rest =>
    .next (match seatTeam s part b.tid b.die (b.teams.headD 0) with
      | none => modPart s part fun q => { q with batch := [] }
      | some s1 => modPart s1 part fun q => { q with batch := { b with teams := b.teams.drop 1 } :: rest })

/-- DISPATCH_BATCH (R10, R340, R342, R348): the head grid's next batch goes to a die; a co-resident set is handed over and admitted
whole, batch by batch, with its barrier records, when it fits at once, and nothing comes between (log 66). -/
def execDispatchBatch (part : Nat) (s : State) : Res :=
  let q := getPart s part
  match headGrid q with
  | none => .next s
  | some t =>
    if !(liveBatches q).isEmpty then .next s
    else
      let h := t.header
      let fs := freeSlots s part t
      let pos := t.admitted
      if h.col = 0 then
        match nextBatch h t.tid fs q.gangDie pos (gridTeams h) with
        | none => .next s
        | some (d, k) =>
          .next (modPart s part fun q =>
            { q with batch := [⟨t.tid, d, (rangeFrom pos k).map (teamIndex h)⟩]
                     gangDie := if h.gang = 0 then q.gangDie
                       else mset q.gangDie (gangKey t.tid (pos / setTeams h h.gang)) d })
      else if cannotFit s part h then
        .next (trapTask s part t.tid ⟨8, 2, BitVec.ofNat 32 h.col, 0, 0xFFFFFFFF#32⟩)
      else
        let nc := setTeams h h.col
        let news := if pos % nc = 0 then (gbarsFor h t.tid pos).filter fun b => !q.gbars.contains b else []
        if q.gbars.length + news.length > 4096 then .next s
        else
          match cutBatches (nc + 1) h t.tid fs q.gangDie pos ((pos / nc + 1) * nc) with
          | none => .next s
          | some (bs, gangs) =>
            let s1 := modPart s part fun q => { q with gangDie := gangs, gbars := q.gbars ++ news }
            .next ((seatAll s1 part t.tid (bs.flatMap fun b => b.teams.map fun x => (b.die, x))).getD s)

/-- The dies that the head grid's next team may go to (R342, R344). -/
def diesFor (q : Partition) (t : Task) (core : Nat) : Bool :=
  let h := t.header
  match if h.gang = 0 then none else mfind q.gangDie (gangKey t.tid (t.admitted / setTeams h h.gang)) with
  | some d => dieOf core == d
  | none => true

/-- Granules of a core's quadrant that are free or being freed. -/
def soonFree (s : State) (core q : Nat) : Nat :=
  let gs := (groupsOn s core).filter fun g => quadrantOf (getTeam s (teamKey g.1)) g.2.w1 == q && g.2.res == .resident
  256 - gs.foldl (fun m g => m + g.2.quota) 0

/-- Groups of lower priority that an eviction on a core may take (R344). -/
def evictable (s : State) (core prio : Nat) : List (Nat × Group) :=
  (groupsOn s core).filter fun g =>
    g.2.res == .resident && g.2.quota != 0 && decide ((getTeam s (teamKey g.1)).prio < prio)

/-- Groups that a core's quadrant has room for, with those that are leaving gone (R11). -/
def soonRoom (s : State) (core q : Nat) : Nat :=
  16 - ((groupsOn s core).filter fun g =>
    quadrantOf (getTeam s (teamKey g.1)) g.2.w1 == q && g.2.res == .resident).length

/-- What a core would have to free in each quadrant for a team with a base, if it can (R11, R344): granules, and groups. -/
def evictNeed (s : State) (t : Task) (core qb : Nat) : Option (List (Nat × Nat)) :=
  let need := (List.range 4).map fun q =>
    (quadNeed t.header qb q - soonFree s core q, quadGroups t.header qb q - soonRoom s core q)
  let mine (q : Nat) : List (Nat × Group) := (evictable s core t.card.prio).filter fun g =>
    quadrantOf (getTeam s (teamKey g.1)) g.2.w1 == q
  let can (q : Nat) : Bool := decide ((need.getD q (0, 0)).1 ≤ (mine q).foldl (fun m g => m + g.2.quota) 0)
    && decide ((need.getD q (0, 0)).2 ≤ (mine q).length)
  if (List.range 4).all can then some need else none

/-- The granules to free. -/
def total (xs : List (Nat × Nat)) : Nat := xs.foldl (fun m x => m + x.1) 0

/-- The base that needs the fewest granules, the lowest on a tie (R344). -/
def bestBase (s : State) (t : Task) (core : Nat) : Option (List (Nat × Nat)) :=
  ((List.range 4).filterMap (evictNeed s t core)).foldl (fun acc n => match acc with
    | some b => if total n < total b then some n else acc
    | none => some n) none

/-- The core that an eviction is made on: the fewest granules, then the lowest number (R344). -/
def evictCore (s : State) (p : Nat) (t : Task) : Option (Nat × List (Nat × Nat)) :=
  let ok := (coresOf s p).filter fun c => diesFor (getPart s p) t c && (roomSlot (roomOf s c) t.header).isSome
  (ok.filterMap fun c => (bestBase s t c).map fun n => (c, n)).foldl (fun acc x => match acc with
    | some b => if total x.2 < total b.2 then some x else acc
    | none => some x) none

/-- Before in the order of eviction (R344): lowest priority, latest team, highest W1. -/
def evictBefore (s : State) (a b : Nat × Group) : Bool :=
  let x := getTeam s (teamKey a.1)
  let y := getTeam s (teamKey b.1)
  decide (x.prio < y.prio) || (x.prio == y.prio && (decide (y.order < x.order)
    || (x.order == y.order && decide (b.2.w1 < a.2.w1))))

/-- An element inserted by an order. -/
def insertBy {α : Type} (lt : α → α → Bool) (x : α) (ys : List α) : List α :=
  match ys with
  | [] => [x]
  | y :: r => if lt x y then x :: y :: r else y :: insertBy lt x r

/-- Asks a group to leave (R345). -/
def evictGroup (s : State) (gid : Nat) : State :=
  modGroup s gid fun g =>
    if g.res = .resident then { g with res := .stopping, splits := g.splits.map askStop } else g

/-- Evicts groups in order until every quadrant has room. -/
def evictFrom (s : State) (gs : List (Nat × Group)) (need : List (Nat × Nat)) : State :=
  match gs with
  | [] => s
  | g :: rest =>
    let q := quadrantOf (getTeam s (teamKey g.1)) g.2.w1
    let n := need.getD q (0, 0)
    if n = (0, 0) then evictFrom s rest need
    else evictFrom (evictGroup s g.1) rest (need.set q (n.1 - g.2.quota, n.2 - 1))

/-- The head grid's next team waits for an eviction (R344). -/
def needsEviction (s : State) (part : Nat) : Option Task :=
  let q := getPart s part
  match headGrid q with
  | none => none
  | some t =>
    if (liveBatches q).isEmpty
        && !((coresOf s part).any fun c => diesFor q t c && takes s t c)
        && (s.teams.any fun x => x.2.part == part && decide (x.2.prio < t.card.prio))
        && !(q.evictor.any fun e => e.2 == t.tid && (groupsOn s e.1).any fun g => g.2.res == .stopping) then some t
    else none

/-- PARTIAL_EVICTION (R344): the core and the groups on it are chosen. -/
def execPartialEviction (part : Nat) (s : State) : Res :=
  match needsEviction s part with
  | none => .next s
  | some t =>
    match evictCore s part t with
    | none => .next s
    | some (c, need) =>
      let gs := (evictable s c t.card.prio).foldl (fun acc g => insertBy (evictBefore s) g acc) []
      .next (modPart (evictFrom s gs need) part fun q => { q with evictor := some (c, t.tid) })

/-- When an evicted group left, or nothing for another group. -/
def evictedAt (g : Group) : Option (Nat × Nat) := match g.res with | .evicted o k => some (o, k) | _ => none

/-- A team of higher priority waits to be placed on the core that has been chosen for it (R343, R344, R346). -/
def higherWaits (s : State) (p core prio : Nat) : Bool :=
  let q := getPart s p
  (q.evictor.any fun e => e.1 == core && q.window.any fun t => t.tid == e.2 && wantsTeams t && decide (prio < t.card.prio))
  || ((liveBatches q).take 1).any fun b =>
      decide (prio < (getTask s p b.tid).card.prio) && coreFor s p (getTask s p b.tid) b.die == some core

/-- An evicted group may return (R346): the oldest of its core, with room in its quadrant. -/
def mayReturn (s : State) (gid : Nat) : Bool :=
  let g := getGroup s gid
  let tm := getTeam s (teamKey gid)
  match evictedAt g with
  | none => false
  | some (o, _) =>
    let r := roomOf s tm.core
    let q := quadrantOf tm g.w1
    !tm.moving && decide (g.quota ≤ r.gran.getD q 0) && decide (0 < r.grps.getD q 0)
    && (groupsOn s tm.core).all (fun x => match evictedAt x.2 with
        | some (o', _) => decide (o ≤ o') || (getTeam s (teamKey x.1)).moving
        | none => true)
    && !higherWaits s tm.part tm.core tm.prio

/-- GROUP_RETURN (R346): the group resumes from its record. -/
def execGroupReturn (gid : Nat) (s : State) : Res :=
  match mfind s.groups gid with
  | none => .next s
  | some g =>
    match evictedAt g with
    | none => .next s
    | some (_, slot) =>
      if !mayReturn s gid then .next s
      else
        match restoreCtx s gid slot with
        | none => .next s
        | some s1 =>
          let tm := getTeam s1 (teamKey gid)
          let stopping := (getTask s1 tm.part tm.tid).st != .released
          .next (modGroup { s1 with order := s1.order + 1 } gid fun g =>
            let g1 := { g with res := .resident, age := s1.order }
            if stopping then g1 else resumeSplits g1)

/-- GROUP_END (R29): every lane has ended and every operation has completed; the quota returns. -/
def execGroupEnd (gid : Nat) (s : State) : Res :=
  match mfind s.groups gid with
  | none => .next s
  | some g =>
    if g.splits.isEmpty && g.ops.isEmpty && !isEvicted g then
      .next (modTeam { s with groups := mdel s.groups gid } (teamKey gid) fun t => { t with ended := t.ended + 1 })
    else .next s

/-- Whether what waits for a page belongs to a team. -/
def heldOfTeam (tk : Nat) (h : HeldBy) : Bool :=
  match h with
  | .op g _ => teamKey g == tk
  | .fetch g _ => teamKey g == tk
  | .umber t _ _ => t == tk
  | .resq g _ => teamKey g == tk
  | _ => false

/-- A team's groups, scratchpad, table, chains and TLB sets are freed (R137, R356, R372). -/
def freeTeam (s : State) (tk : Nat) : State :=
  let t := getTeam s tk
  modPart
    (assignUnits
      { s with
        groups := s.groups.filter fun g => teamKey g.1 != tk
        teams := mdel s.teams tk } t.core)
    t.part fun q => { q with held := q.held.filter fun h => !heldOfTeam tk h.who }

/-- Every released command of a team's chains has completed (R29). -/
def chainsDone (t : Team) : Bool := t.chains.all fun c => c.2.done == c.2.tail && c.2.running.isEmpty && c.2.finished.isEmpty

/-- TEAM_END (R29, R154): with the last team the grid ends. -/
def execTeamEnd (tm : Nat) (s : State) : Res :=
  match mfind s.teams tm with
  | none => .next s
  | some t =>
    let k := getTask s t.part t.tid
    if (teamGroups s tm).isEmpty && chainsDone t && k.st == .released then
      let s1 := modTask (freeTeam s tm) t.part t.tid fun x => { x with retired := x.retired + 1 }
      .next (if k.retired + 1 = gridTeams k.header then finishTask s1 t.part t.tid else s1)
    else .next s

/-- The teams of a task. -/
def teamsOf (s : State) (p tid : Nat) : List (Nat × Team) := s.teams.filter fun t => t.2.part == p && t.2.tid == tid

/-- A command that waits for others: a FENCE for earlier commands of its chain or for the other chain to reach its OSEQ (R134), a
BIN for room in its ring (R121, R132). -/
def cmdStuck (t : Team) (slot : Nat) (c : Chain) (r : RunCmd) : Bool :=
  let oseq := (r.words.getD 10 0).toNat + 2 ^ 32 * (r.words.getD 11 0).toNat
  let nbin := (r.words.getD 3 0).toNat
  match bitsOf (r.words.getD 0 0).toNat 31 28, c.bound with
  | 6, _ => !earlierDone c r.seq
      || (oseq != 0 && t.chains.all fun x => x.1 == slot || x.2.bound.isNone || decide (x.2.done < oseq))
  | 5, some b => c.tail == r.seq && decide (nbin + 1 ≤ 2 ^ b.2.1) && decide (c.tail + nbin - c.done > 2 ^ b.2.1)
  | _, _ => false

/-- The running commands of a team have completed, DONE with them (R123, R125, R126, R163); one that waits for commands which
will not start, or not complete, runs on without effect. -/
def umberIdle (t : Team) : Bool :=
  t.chains.all fun c => c.2.running.all (cmdStuck t c.1 c.2) && !c.2.finished.contains (c.2.done + 1)

/-- A CQINIT or CQADV that waits for commands of its chain (R121, R133, R292). -/
def cqStuck (t : Team) (o : Op) : Bool :=
  let open_ (slot : Nat) : Bool := t.chains.any fun c => c.1 == slot && c.2.done != c.2.tail
  match o.stage with
  | .cqinit slot _ => open_ slot
  | .cqadv slot _ => open_ slot
  | _ => false

/-- A stopping task has come to rest (R163): its groups have drained or are evicted, no command runs, and no edge of a
GBUILD is half performed. What waits on a chain whose commands will not complete is over (R125). -/
def taskAtRest (s : State) (p tid : Nat) : Bool :=
  (groupsOf s p tid).all (fun g =>
    let x := getGroup s g
    isEvicted x || (groupQuiet x && x.ops.all (cqStuck (getTeam s (teamKey g)))))
  && (teamsOf s p tid).all (fun t => umberIdle t.2)
  && !((getTask s p tid).card.kind == 4 && decide (18 < (getTask s p tid).desc.length))

/-- TASK_LEVEL_STOP (R163, R367, R372): the teams are freed, and the task is decided; without a fate it is restarted
(R156, R375). -/
def execTaskLevelStop (part tid : Nat) (s : State) : Res :=
  let t := getTask s part tid
  if t.st = .stopping ∧ taskAtRest s part tid then
    let s1 := (teamsOf s part tid).foldl (fun acc x => freeTeam acc x.1) s
    let s2 := modPart s1 part fun q =>
      { q with gbars := q.gbars.filter fun b => b.tid != tid
               msgs := q.msgs.filter fun m => m.tid != tid
               batch := q.batch.filter fun b => b.tid != tid
               held := q.held.filter fun h => h.who != .bulk tid
               gangDie := q.gangDie.filter fun x => x.1 / 2 ^ 64 != tid }
    .next (if t.fate.isSome then decideTask s2 part tid
      else if !mayRestart t then stopTask s part tid (strikeFate t (t.strike.getD ⟨9, 6, 0, 0, 0⟩))
      else modTask s2 part tid fun x =>
        { x with st := .released, ver := [], lines := [], code := codeAt s part t, restarts := x.restarts + 1, admitted := 0, retired := 0, desc := [],
                 pos := 0, total := 0, strike := none })
  else .next s

/-- A grid barrier record after an arrival (R62, R289). -/
def arriveGbar (r : GbarRec) (n : Nat) : GbarRec :=
  if r.arr + n < r.exp then { r with arr := r.arr + n } else { r with arr := 0, phase := !r.phase }

/-- GBAR_ARRIVAL (R289, R290, R348): one message, in any order; a flip wakes the set's splits. -/
def execGbarArrival (part idx : Nat) (s : State) : Res :=
  let q := getPart s part
  match q.msgs[idx]? with
  | none => .next s
  | some m =>
    let set := setOf (getTask s part m.tid).header m.linear m.level
    let hit (r : GbarRec) : Bool := r.tid == m.tid && r.level == m.level && r.set == set
    let s1 := modPart s part fun q =>
      { q with msgs := q.msgs.eraseIdx idx
               gbars := q.gbars.map fun r => if hit r then arriveGbar r m.lanes else r }
    .next ((groupsOf s1 part m.tid).foldl wakeGbar s1)

end Sys2Proof.Machine
end

