-- ==== Sys2Proof/Machine/Umber.lean ====
section
/-!
DEFINITION. Umber's steps (R119 to R134): starting a command, moving its rows, landing them, completing commands.
-/

namespace Sys2Proof.Machine

/-- A command's fields (R127). -/
structure UCmd where
  op   : Nat
  scope : Nat
  dsp  : Bool
  ssp  : Bool
  trn  : Bool
  conj : Bool
  pln  : Bool
  ef   : Nat
  red  : Nat
  isp  : Bool
  i64  : Bool
  idn  : Bool
  rcw  : Nat
  rows : Nat
  cols : Nat
  src  : Nat
  dst  : Nat
  sstr : Int
  dstr : Int
  idx  : Nat
  psc  : Nat
  w34  : Nat
  w38  : Nat
  deriving DecidableEq, Repr

/-- Word `k` of a command. -/
def cmdWord (ws : List Word) (k : Nat) : Nat := (ws.getD k 0).toNat

/-- A dword of a command. -/
def cmdDword (ws : List Word) (k : Nat) : Nat := cmdWord ws k + 2 ^ 32 * cmdWord ws (k + 1)

/-- Reads a command. -/
def ucmd (ws : List Word) : UCmd :=
  let c := cmdWord ws 0
  let dsp := bitOf c 24
  let ssp := bitOf c 23
  { op := bitsOf c 31 28, scope := bitsOf c 27 25, dsp, ssp, trn := bitOf c 22, conj := bitOf c 21, pln := bitOf c 20,
    ef := bitsOf c 19 16, red := bitsOf c 15 14, isp := bitOf c 13, i64 := bitOf c 12, idn := bitOf c 11,
    rcw := cmdWord ws 1, rows := cmdWord ws 2, cols := cmdWord ws 3,
    src := if ssp then cmdWord ws 4 else cmdDword ws 4, dst := if dsp then cmdWord ws 6 else cmdDword ws 6,
    sstr := asInt 32 true (cmdWord ws 8), dstr := asInt 32 true (cmdWord ws 9), idx := cmdDword ws 10,
    psc := cmdWord ws 12, w34 := cmdWord ws 13, w38 := cmdWord ws 14 }

/-- CSTR of a MERGE. -/
def UCmd.cstr (c : UCmd) : Int := asInt 64 true (c.psc + 2 ^ 32 * c.w34)

/-- Element size of an EF; 0 for packed elements and formats that are never legal (R128). -/
def umEs (ef : Nat) : Nat :=
  match ef with
  | 0 => 4 | 1 => 8 | 2 => 2 | 3 => 2 | 4 => 1 | 5 => 1 | 9 => 1 | 12 => 8 | 13 => 16 | 14 => 1
  | _ => 0

/-- Packed element bits. -/
def umPack (ef : Nat) : Nat := match ef with | 10 => 4 | 11 => 3 | _ => 0

/-- Bytes of `n` elements. -/
def umBytes (ef n : Nat) : Nat := if umPack ef ≠ 0 then (n * umPack ef + 7) / 8 else n * umEs ef

/-- A stride or address that is no multiple of `k`. -/
def offGrid (x : Int) (k : Nat) : Bool := decide (k ≠ 0) && x % (k : Int) != 0

/-- What CTL breaks for a data command (R127, R128, R130). Bits that the OP gives no meaning are ignored (log 64). -/
def ctlBad (c : UCmd) (ctl : Nat) : Bool :=
  c.op == 0 || decide (c.op > 6) || decide (c.scope > 5) || ctl % 2048 != 0
  || (if c.op ≥ 5 then c.ef != 0 || c.pln || c.conj || c.red != 0
      else
        (umEs c.ef == 0 && !(umPack c.ef != 0 && c.pln))
        || (c.pln && (c.op != 1 || !c.dsp || !([0, 1, 2, 3, 4, 5, 10, 11, 12, 13].contains c.ef)))
        || (c.conj && c.ef != 12 && c.ef != 13)
        || (c.red != 0 && (decide (c.op < 3) || !([0, 1, 2, 3, 12, 13].contains c.ef) || (decide (c.ef ≥ 12) && c.red != 1)))
        || (c.op == 4 && c.red == 0))

/-- The words of a command that must be zero (R127). -/
def zeroWords (c : UCmd) : List Nat :=
  match c.op with
  | 1 => [14, 15]
  | 2 => [12, 13, 14, 15]
  | 3 => [12, 13, 14, 15]
  | 4 => [15]
  | 5 => [1, 4, 5, 8, 9, 12, 13, 14, 15]
  | _ => [1, 2, 3, 4, 5, 6, 7, 8, 9, 12, 13, 14, 15]

/-- The field at a byte offset breaks a limit of a data command (R128 to R131). -/
def dataBad (c : UCmd) (off : Nat) : Bool :=
  let es := umEs c.ef
  match off with
  | 0x04 => c.rcw != 0xFFFFFFFF && c.rcw % 4 != 0
  | 0x08 => decide (c.rows > 2 ^ 24) || (c.op == 1 && c.trn && decide (c.rows > 128))
      || (c.pln && (c.rows == 0 || decide (c.rows > 96)))
  | 0x0C => c.cols == 0 || decide (c.cols > 4096) || decide (umBytes c.ef c.cols > 16384)
      || (c.op == 1 && c.trn && decide (c.cols > 128)) || (c.pln && c.cols != 8 && c.cols != 16 && c.cols != 32)
  | 0x10 => offGrid c.src es
  | 0x18 => offGrid c.dst es || (c.dsp && c.dst % 16 != 0)
  | 0x20 => offGrid c.sstr es
  | 0x24 => offGrid c.dstr es || (c.dsp && offGrid c.dstr 16)
  | 0x28 => c.op == 1 && umPack c.ef == 0 && c.idx != 0
  | 0x30 => (c.op == 1 && (if umPack c.ef = 0 then c.psc != 0 else c.psc % 4 == 0)) || (c.op == 4 && offGrid c.cstr es)
  | 0x34 => c.op == 1 && umPack c.ef == 0 && c.w34 != 0
  | 0x38 => c.op == 4 && (c.w38 == 0 || decide (c.w38 > 256))
  | _ => false

/-- The field at a byte offset breaks a limit of BIN (R127, R132). -/
def binBad (c : UCmd) (off : Nat) : Bool :=
  match off with
  | 0x08 => decide (c.rows > 2 ^ 24)
  | 0x0C => c.cols == 0 || decide (c.cols > 64)
  | 0x18 => c.dst % (if c.dsp then 16 else 4) != 0
  | _ => false

/-- The byte offset of the first failing field of a command, if any (R125, R128). -/
def cmdCheck (ws : List Word) : Option Nat :=
  let c := ucmd ws
  (List.range 16).findSome? fun k =>
    let off := 4 * k
    let bad := (k == 0 && ctlBad c (cmdWord ws 0)) || ((zeroWords c).contains k && cmdWord ws k != 0)
      || (decide (c.op ≤ 4) && dataBad c off) || (c.op == 5 && binBad c off)
    if bad then some (if k = 5 ∨ k = 7 then off - 4 else off) else none

/-- Rows of a command (R124, R129, R130). -/
def UCmd.total (c : UCmd) : Nat :=
  if c.op ≥ 5 then 0
  else if c.rows = 0 then 0
  else if c.op = 1 ∧ c.pln then 1
  else if c.op = 1 ∧ c.trn then c.cols
  else c.rows

/-- Bytes of a destination row. -/
def UCmd.rowBytes (c : UCmd) : Nat :=
  if c.op = 1 ∧ c.pln then imageBytes c.ef c.rows c.cols (bitsOf c.psc 3 2) (bitsOf c.psc 1 0)
  else if c.op = 1 ∧ c.trn then umBytes c.ef c.rows
  else umBytes c.ef c.cols

/-- A running command of a chain. -/
def runningCmd (s : State) (tk slot seq : Nat) : Option RunCmd :=
  (chainOf s tk slot).running.find? (·.seq == seq)

/-- A running command changed. -/
def modRun (s : State) (tk slot seq : Nat) (f : RunCmd → RunCmd) : State :=
  modChain s tk slot fun c => { c with running := c.running.map fun r => if r.seq = seq then f r else r }

/-- A command fails (R125): no further command of the team starts, and Carmine resolves the trap at task level. -/
def umberFail (s : State) (tk slot seq : Nat) (t : TrapRec) : State :=
  let tm := getTeam s tk
  let s1 := modChain s tk slot fun c => { c with running := c.running.filter (·.seq != seq) }
  trapTask (modTeam s1 tk fun t => { t with failed := true }) tm.part tm.tid t

/-- ENG, CMD or BIN (R365). -/
def engTrap (code slot seq off : Nat) : TrapRec :=
  ⟨6, code, BitVec.ofNat 32 (off + 128 * slot), BitVec.ofNat 32 seq, 0xFFFFFFFF#32⟩

/-- A step of Umber that did not finish: a failure, or pages that are held (R77, R125). -/
def umberStop (s : State) (tk slot seq : Nat) (p : Perf) : State :=
  match p with
  | .fail t => umberFail s tk slot seq t
  | .hold w src vas => holdPages s (umberAcc s tk slot seq) (.umber tk slot seq) w src vas
  | .done _ _ => s

/-- A command completes (R120, R122). -/
def cmdComplete (s : State) (tk slot seq : Nat) : State :=
  dropHeld (modChain s tk slot fun c =>
    { c with running := c.running.filter (·.seq != seq), finished := seq :: c.finished })
    (getTeam s tk).part (.umber tk slot seq)

/-- Umber may start the next command (R122, R125, R126, R134). -/
def canStart (s : State) (tk slot : Nat) : Bool :=
  let tm := getTeam s tk
  let c := chainOf s tk slot
  c.bound.isSome && decide (c.started < c.tail) && decide (c.running.length < 4) && !tm.failed && !tm.moving
  && (getTask s tm.part tm.tid).st == .released
  && c.running.all fun r => bitsOf (cmdWord r.words 0) 31 28 != 6

/-- The units of the next command's slot that Umber has not read. -/
def slotUnits (c : Chain) : List Nat := (List.range 8).filter fun k => !mhas c.got k

/-- UMBER_COMMAND_START (R113, R122): the next released command is read, 8 bytes at a time; with the last of them it is checked
and started. -/
def execUmberCommandStart (tm slot : Nat) (s : State) : Res :=
  let c := chainOf s tm slot
  match c.bound with
  | none => .next s
  | some b =>
    if !canStart s tm slot then .next s
    else
      let seq := c.started + 1
      let pick := choose s (slotUnits c).length
      let k := (slotUnits c).getD pick.1 0
      let r := rangeRead pick.2 (umberAcc s tm slot seq) 1 (slotVa b.1 b.2.1 seq + 8 * k) 8 4
      match r.1 with
      | .error p => .next (umberStop r.2 tm slot seq p)
      | .ok bs =>
        let got := mset c.got k (leNat bs)
        let ws := (List.range 8).flatMap fun j => natWords 2 (mget got j 0)
        let s1 := dropHeld r.2 (getTeam s tm).part (.umber tm slot seq)
        if got.length < 8 then .next (modChain s1 tm slot fun h => { h with got })
        else
        match cmdCheck ws with
        | some off => .next (umberFail s1 tm slot seq (engTrap 1 slot seq off))
        | none =>
          let s2 := modChain s1 tm slot fun h =>
            { h with started := seq, running := h.running ++ [⟨seq, ws, [], [], [], []⟩], got := []
                     scopes := mset h.scopes seq (ctlScope (cmdWord ws 0)) }
          .next (if (ucmd ws).op ≤ 5 ∧ (ucmd ws).rows = 0 then cmdComplete s2 tm slot seq else s2)

/-- An address that an engine computes; one outside the byte space names no page there (R131). -/
def umAddr (a : Int) : Nat := if 0 ≤ a ∧ a < 2 ^ 52 then a.toNat else 2 ^ 52 + wrapTo 52 a

/-- Bytes of a command's source. -/
def umRead (s : State) (u : Acc) (scr : Bool) (a : Int) (n : Nat) : Except Perf (List Byte × State) :=
  let x := umAddr a
  if scr then
    let tm := getTeam s u.team
    if x + n > tm.scrsize then .error (.fail (scrTrap u 0 false 4 x)) else .ok (scrRead tm x n, s)
  else
    let r := rangeRead s u 1 x n 4
    match r.1 with
    | .ok bs => .ok (bs, r.2)
    | .error p => .error p

/-- Bytes of a command's destination written: full bits are left for the landing; the release scope is recorded. -/
def umWrite (s : State) (u : Acc) (scr : Bool) (scope : Nat) (a : Int) (bs : List Byte) : Except Perf State :=
  let x := umAddr a
  if scr then
    if x + bs.length > (getTeam s u.team).scrsize then .error (.fail (scrTrap u 0 true 4 x))
    else .ok (scrWrite s u.team x bs)
  else
    let r := rangeWrite s u 1 x bs 4
    match r.1 with
    | .ok lines => .ok (recordScope r.2 u scope lines)
    | .error p => .error p

/-- The scope that a command releases at. -/
def UCmd.rel (c : UCmd) : Nat := if c.scope = 0 then 1 else c.scope

/-- The plane image of a COPY (R130), of its source bytes: the runs of elements, then the rows of scales. The padding of a plane and
of the scale area is zero (log 63). -/
def planeImage (c : UCmd) (bs : List Byte) : List Byte :=
  let w := if umPack c.ef ≠ 0 then umPack c.ef else 8 * umEs c.ef
  let runs := if c.trn then c.cols else c.rows
  let len := if c.trn then c.rows else c.cols
  let n := umBytes c.ef len
  let vals := (List.range runs).map fun k => unpackBits w len (leNat ((bs.drop (k * n)).take n))
  let flip (x : Nat) : Nat := if c.conj then x ^^^ 2 ^ (8 * umEs c.ef - 1) else x
  let elem (k n : Nat) : Nat := flip (if c.trn then (vals.getD n []).getD k 0 else (vals.getD k []).getD n 0)
  let stride := planeStride c.rows c.cols
  let planes := (List.range c.rows).foldl (fun m k => (List.range c.cols).foldl (fun m n =>
    writePlanes m 0 (k * c.cols + n) stride (elemPlanes c.ef (elem k n))) m) []
  let body := (rangeFrom 0 (planeCount c.ef * stride)).map (fun a => mget planes a 0) ++ bs.drop (runs * n)
  body ++ List.replicate (c.rowBytes - body.length) 0

/-- The source of a plane image: address and bytes of each run. -/
def planeSource (c : UCmd) : List (Int × Nat) :=
  let runs := if c.trn then c.cols else c.rows
  let len := if c.trn then c.rows else c.cols
  let groups := if umPack c.ef = 0 then 0 else (c.rows + gszOf (bitsOf c.psc 3 2) - 1) / gszOf (bitsOf c.psc 3 2)
  ((List.range runs).map fun k => (c.src + k * c.sstr, umBytes c.ef len))
  ++ (List.range groups).map fun g =>
    ((if c.ssp then c.idx % 2 ^ 32 else c.idx : Nat) + g * asInt 32 true c.w34, c.cols * scaleBytes (bitsOf c.psc 1 0))

/-- Entry `i` of the index vector (R131): none for a null index. An entry that is not aligned is read from where it lies, as the
model's choice (log 51). -/
def umIndex (s : State) (u : Acc) (c : UCmd) (i : Nat) : Except Perf (Option Nat × State) :=
  if c.idn then .ok (some i, s)
  else do
    let n : Nat := if c.i64 then 8 else 4
    let (bs, s) ← umRead s u c.isp ((if c.isp then c.idx % 2 ^ 32 else c.idx) + i * n : Nat) n
    .ok (if leNat bs = 2 ^ (8 * n) - 1 then none else some (leNat bs), s)

/-- One element reduced (R131): RED 1 add, 2 min, 3 max. -/
def redElem (red ef o b : Nat) : Nat :=
  let op := if red = 1 then 10 else if red = 2 then 11 else 12
  match ef with
  | 12 => atomFloat op 0 (o % 2 ^ 32) (b % 2 ^ 32) + 2 ^ 32 * atomFloat op 0 (o / 2 ^ 32) (b / 2 ^ 32)
  | 13 => atomFloat op 1 (o % 2 ^ 64) (b % 2 ^ 64) + 2 ^ 64 * atomFloat op 1 (o / 2 ^ 64) (b / 2 ^ 64)
  | k => atomFloat op k o b

/-- A reduction whose grouping the device chooses (R5, R131). -/
def redFree (fuel : Nat) (s : State) (red ef : Nat) (xs : List Nat) : Nat × State :=
  match fuel, xs with
  | _, [] => (0, s)
  | _, [x] => (x, s)
  | 0, x :: _ => (x, s)
  | _, [x, y] => (redElem red ef x y, s)
  | n + 1, xs =>
    let a := choose s xs.length
    let x := xs.getD a.1 0
    let rest := xs.eraseIdx a.1
    let b := choose a.2 rest.length
    redFree n b.2 red ef (redElem red ef x (rest.getD b.1 0) :: rest.eraseIdx b.1)

/-- The elements of a row. -/
def rowElems (es : Nat) (bs : List Byte) : List Nat := unpackBits (8 * es) (bs.length / es) (leNat bs)

/-- A row of elements as bytes. -/
def elemBytes (es : Nat) (xs : List Nat) : List Byte := xs.flatMap (leBytes es)

/-- Reduces columns of a MERGE. -/
def mergeCols (s : State) (red ef : Nat) (old : List Nat) (srcs : List (List Nat)) (k : Nat) : List Nat × State :=
  match old with
  | [] => ([], s)
  | x :: rest =>
    let r := redFree (srcs.length + 1) s red ef (x :: srcs.map fun y => y.getD k 0)
    let q := mergeCols r.2 red ef rest srcs (k + 1)
    (r.1 :: q.1, q.2)

/-- The index of a row: none for a null one, which reads as 0, or for one that has not been read. -/
def RunCmd.entry (r : RunCmd) (c : UCmd) (row : Nat) : Option Nat :=
  if c.idn || c.op == 1 then some row
  else match mget r.index row 0 with
    | 0 => none
    | k + 1 => some k

/-- The rows whose indices a row still needs (R131): of a MERGE every row. -/
def RunCmd.unread (r : RunCmd) (c : UCmd) (row : Nat) : List Nat :=
  if c.op = 1 ∨ c.idn then []
  else (if c.op = 4 then List.range c.rows else [row]).filter fun k => !mhas r.index k

/-- The rows of a MERGE with the index of a row. -/
def RunCmd.alike (r : RunCmd) (c : UCmd) (row : Nat) : List Nat :=
  (List.range c.rows).filter fun k => r.entry c k == r.entry c row

/-- The source of a row, whose index has been read: address and bytes of each run (R129 to R131). -/
def RunCmd.source (r : RunCmd) (c : UCmd) (row : Nat) : List (Int × Nat) :=
  match c.op, r.entry c row with
  | 1, _ =>
    if c.pln then planeSource c
    else if c.trn then (List.range c.rows).map fun i => (c.src + i * c.sstr + row * umEs c.ef, umEs c.ef)
    else [(c.src + row * c.sstr, c.rowBytes)]
  | 2, some k => [(c.src + k * c.sstr, c.rowBytes)]
  | 3, some _ => [(c.src + row * c.sstr, c.rowBytes)]
  | 4, some _ => (List.range c.w38).flatMap fun cp => (r.alike c row).map fun k => (c.src + cp * c.cstr + k * c.sstr, c.rowBytes)
  | _, _ => []

/-- Where a row goes. -/
def RunCmd.dest (r : RunCmd) (c : UCmd) (row : Nat) : Int :=
  c.dst + (if c.op ≥ 3 then (r.entry c row).getD 0 else row) * c.dstr

/-- A run in the units of R102: place in the row, address, bytes. -/
def cutRun (pos : Nat) (a : Int) (n : Nat) : List (Nat × Nat × Nat) :=
  (blockPieces 8 (n / 8 + 2) (umAddr a) n).map fun x => (pos + (x.1 - umAddr a), x.1, x.2)

/-- Runs in the units of R102. -/
def cutRuns (pos : Nat) (runs : List (Int × Nat)) : List (Nat × Nat × Nat) :=
  match runs with
  | [] => []
  | x :: rest => cutRun pos x.1 x.2 ++ cutRuns (pos + x.2) rest

/-- The pieces in which a row is written: place and bytes. A MERGE writes it as one, and a reducing SCATTER by element
(R131). -/
def RunCmd.pieces (r : RunCmd) (c : UCmd) (row : Nat) : List (Nat × Nat) :=
  if c.op ≥ 3 ∧ r.entry c row = none then []
  else if c.op = 4 then [(0, c.rowBytes)]
  else if c.red ≠ 0 then (List.range c.cols).map fun k => (k * umEs c.ef, umEs c.ef)
  else (cutRun 0 (r.dest c row) c.rowBytes).map fun x => (x.1, x.2.2)

/-- A row that is being moved. -/
def RunCmd.buf (r : RunCmd) (row : Nat) : RowBuf := mget r.bufs row ⟨[], []⟩

/-- What Umber can do next for a row: read an index, read a unit of the source, write a piece. -/
inductive RowAct where
  | index (k : Nat)
  | read (pos a n : Nat)
  | write (pos n : Nat)
  deriving DecidableEq, Repr

/-- Another row of a SCATTER without reduction that has the same index is being written: the destination row ends holding one whole
source row (R131). -/
def RunCmd.contested (r : RunCmd) (c : UCmd) (row : Nat) : Bool :=
  c.op == 3 && c.red == 0 && r.bufs.any fun b =>
    b.1 != row && !b.2.put.isEmpty && !mhas r.written b.1 && r.entry c b.1 == r.entry c row

/-- The source bytes that a piece is made of have been read: its own places, or every place of an image or a MERGE; a null index
of a GATHER needs none. -/
def RunCmd.mayPut (r : RunCmd) (c : UCmd) (row : Nat) (x : Nat × Nat) : Bool :=
  let src := r.source c row
  if r.contested c row then false
  else if src.isEmpty then true
  else if c.pln ∨ c.op = 4 then decide ((src.map Prod.snd).foldl (· + ·) 0 ≤ (r.buf row).got.length)
  else (rangeFrom x.1 x.2).all (mhas (r.buf row).got)

/-- The pieces of a row that are not written. -/
def RunCmd.left (r : RunCmd) (c : UCmd) (row : Nat) : List (Nat × Nat) :=
  (r.pieces c row).filter fun x => !(r.buf row).put.contains x.1

/-- What Umber can do next for a row (R122). -/
def RunCmd.acts (r : RunCmd) (c : UCmd) (row : Nat) : List RowAct :=
  if !(r.unread c row).isEmpty then (r.unread c row).map .index
  else
    (((cutRuns 0 (r.source c row)).filter fun x => !mhas (r.buf row).got x.1).map fun x => RowAct.read x.1 x.2.1 x.2.2)
    ++ ((r.left c row).filter (r.mayPut c row)).map fun x => .write x.1 x.2

/-- The reads of a row's source, a run each. -/
def runReads (pos : Nat) (runs : List (Int × Nat)) : List RowAct :=
  match runs with
  | [] => []
  | x :: rest => (if x.2 = 0 then [] else [.read pos (umAddr x.1) x.2]) ++ runReads (pos + x.2) rest

/-- What Umber does for a row where it does at once what it can: the indices, then the runs of the source, then the row as one
write, in which a block of a converted page that it covers is encoded afresh (R72). -/
def RunCmd.bulk (r : RunCmd) (c : UCmd) (row : Nat) : List RowAct :=
  let left := r.left c row
  if !(r.unread c row).isEmpty then (r.unread c row).map .index
  else if (r.buf row).got.isEmpty && (r.source c row).any (·.2 != 0) then runReads 0 (r.source c row)
  else if (r.buf row).put.isEmpty && !left.isEmpty && left.all (r.mayPut c row) then [.write 0 c.rowBytes]
  else r.acts c row

/-- A source byte of a row, the imaginary sign of its element inverted where CONJ is set (R129). -/
def RunCmd.byte (r : RunCmd) (c : UCmd) (row k : Nat) : Byte :=
  let b := mget (r.buf row).got k 0
  if c.conj ∧ k % umEs c.ef = umEs c.ef - 1 ∧ mhas (r.buf row).got k then b ^^^ 0x80 else b

/-- The bytes of a piece, before any reduction. -/
def RunCmd.out (r : RunCmd) (c : UCmd) (row pos n : Nat) : List Byte :=
  if c.pln then
    ((planeImage c ((List.range (((planeSource c).map Prod.snd).foldl (· + ·) 0)).map fun k => mget (r.buf row).got k 0)).drop pos).take n
  else (rangeFrom pos n).map (r.byte c row)

/-- A piece is written (R131): as it is, reduced into what is there, or, of a MERGE, the whole row. -/
def rowPut (s : State) (u : Acc) (c : UCmd) (r : RunCmd) (row pos n : Nat) : Except Perf State :=
  let es := umEs c.ef
  let at_ : Int := umAddr (r.dest c row) + pos
  if c.op = 3 ∧ c.red ≠ 0 then do
    let (old, s) ← umRead s u c.dsp at_ n
    umWrite s u c.dsp c.rel at_
      (elemBytes es (((rowElems es old).zip (rowElems es (r.out c row pos n))).map fun x => redElem c.red c.ef x.1 x.2))
  else if c.op = 4 then do
    let (old, s) ← umRead s u c.dsp at_ n
    let srcs := (List.range (c.w38 * (r.alike c row).length)).map fun k => rowElems es (r.out c row (k * n) n)
    let m := mergeCols s c.red c.ef (rowElems es old) srcs 0
    umWrite m.2 u c.dsp c.rel at_ (elemBytes es m.1)
  else umWrite s u c.dsp c.rel at_ (r.out c row pos n)

/-- One act for a row. -/
def rowAct (s : State) (u : Acc) (c : UCmd) (r : RunCmd) (row : Nat) (act : RowAct) : Except Perf (RunCmd × State) :=
  let keep (b : RowBuf) : RunCmd := { r with bufs := mset r.bufs row b }
  let b := r.buf row
  match act with
  | .index k => do
    let (i, s) ← umIndex s u c k
    .ok ({ r with index := mset r.index k (i.elim 0 (· + 1)) }, s)
  | .read pos a n => do
    let (bs, s) ← umRead s u c.ssp a n
    .ok (keep { b with got := ((rangeFrom pos n).zip bs).foldl (fun m x => mset m x.1 x.2) b.got }, s)
  | .write pos n => do
    let s ← rowPut s u c r row pos n
    .ok (keep { b with put := ((r.pieces c row).map Prod.fst).filter (fun k => decide (pos ≤ k) && decide (k < pos + n)) ++ b.put }, s)

/-- Acts for a row, one after another without a step of others between. -/
def rowActs (s : State) (u : Acc) (c : UCmd) (r : RunCmd) (row : Nat) (acts : List RowAct) : Except Perf (RunCmd × State) :=
  match acts with
  | [] => .ok (r, s)
  | act :: rest => do
    let x ← rowAct s u c r row act
    rowActs x.2 u c x.1 row rest

/-- A row, or the rows of a MERGE with its index, of which nothing is left to write, is written: with 0 for a null index, else the
index plus 1. -/
def rowDone (c : UCmd) (row : Nat) (r : RunCmd) : RunCmd :=
  if (r.unread c row).isEmpty && (r.left c row).isEmpty then
    let v := (r.entry c row).elim 0 (· + 1)
    let rows := if c.op = 4 ∧ v ≠ 0 then r.alike c row else [row]
    { r with written := rows.foldl (fun m k => mset m k v) r.written, bufs := mdel r.bufs row }
  else r

/-- A step of a running command for one of its rows (R122, R124, R129 to R131), of the device's choice: one act, or as many as
can be done at once; nothing when the row is not one to write. -/
def umberStep (op tk slot seq row : Nat) (s : State) : Res :=
  match runningCmd s tk slot seq with
  | none => .next s
  | some r =>
    let c := ucmd r.words
    if c.op ≠ op ∨ row ≥ c.total ∨ mhas r.written row then .next s
    else
      let acts := r.acts c row
      let whole := choose s 2
      let pick := choose whole.2 acts.length
      let todo := if whole.1 = 0 then (r.bulk c row, whole.2) else ((acts[pick.1]?).toList, pick.2)
      match rowActs todo.2 (umberAcc s tk slot seq) c r row todo.1 with
      | .ok x => .next (dropHeld (modRun x.2 tk slot seq fun _ => rowDone c row x.1) (getTeam s tk).part (.umber tk slot seq))
      | .error p => .next (umberStop todo.2 tk slot seq p)

/-- UMBER_COPY (R129, R130): a destination row is written. -/
def execUmberCopy (tm slot seq row : Nat) (s : State) : Res := umberStep 1 tm slot seq row s

/-- UMBER_GATHER (R131): a destination row is written, with zeros for a null index. -/
def execUmberGather (tm slot seq row : Nat) (s : State) : Res := umberStep 2 tm slot seq row s

/-- UMBER_SCATTER (R131): a source row is written to the row its index names, or reduced into it. -/
def execUmberScatter (tm slot seq row : Nat) (s : State) : Res := umberStep 3 tm slot seq row s

/-- UMBER_MERGE (R131): the destination row of an entry receives the reduction of every copy's rows with its index. -/
def execUmberMerge (tm slot seq row : Nat) (s : State) : Res := umberStep 4 tm slot seq row s

/-- An entry of a SCATTER to scratchpad that has not been written may still name the row of index `d` (R131). -/
def scatterPending (c : UCmd) (r : RunCmd) (d : Nat) : Bool :=
  c.op == 3 && c.dsp && (List.range c.rows).any fun k =>
    !mhas r.written k && (!(r.unread c k).isEmpty || r.entry c k == some d)

/-- ROW_LANDING (R124, R131): a written row's full bits are set, its row-count word gains 1, and the last row completes
the command. -/
def execRowLanding (tm slot seq row : Nat) (s : State) : Res :=
  match runningCmd s tm slot seq with
  | none => .next s
  | some r =>
    let c := ucmd r.words
    let u := umberAcc s tm slot seq
    match mfind r.written row with
    | none => .next s
    | some ix =>
      if r.landed.contains row || (decide (0 < ix) && scatterPending c r (ix - 1)) then .next s
      else
        let base : Int := c.dst + (if c.op ≥ 3 then (ix : Int) - 1 else row) * c.dstr
        let s1 := if c.dsp && !(c.op ≥ 3 && ix == 0) then fill s tm (granules (umAddr base) c.rowBytes) else s
        if c.rcw ≠ 0xFFFFFFFF ∧ c.rcw + 4 > (getTeam s tm).scrsize then
          .next (umberFail s1 tm slot seq (scrTrap u 0 true 4 c.rcw))
        else
          let s2 := if c.rcw = 0xFFFFFFFF then s1
            else wakeWord (scrWrite s1 tm c.rcw (leBytes 4 (scrWord (getTeam s1 tm) c.rcw + 1))) tm c.rcw
          let s3 := modRun s2 tm slot seq fun x => { x with landed := row :: x.landed }
          .next (if r.landed.length + 1 = c.total then cmdComplete s3 tm slot seq else s3)

/-- UMBER_FENCE (R134): completes once every earlier command of its chain has, and the other chain has reached OSEQ. -/
def execUmberFence (tm slot seq : Nat) (s : State) : Res :=
  match runningCmd s tm slot seq with
  | none => .next s
  | some r =>
    let c := ucmd r.words
    let ch := chainOf s tm slot
    let other := chainOf s tm (1 - slot)
    if c.op = 6 ∧ earlierDone ch seq ∧ (c.idx = 0 ∨ (other.bound.isSome ∧ other.done ≥ c.idx)) then
      .next (cmdComplete s tm slot seq)
    else .next s

/-- Counts of a BIN's items, or none for an item that is too large (R132). -/
def binCounts (nbin : Nat) (items : List Nat) : Option (List Nat) :=
  if items.any fun x => decide (nbin ≤ x) && x != 0xFFFFFFFF then none
  else some ((List.range nbin).map fun j => (items.filter (· == j)).length)

/-- The patches of a BIN's targets. -/
def binPatch (s : State) (u : Acc) (b : Nat × Nat × Nat) (scope seq : Nat) (cs : List Nat) : Except Perf State :=
  match cs with
  | [] => .ok s
  | x :: rest => do
    let s ← umWrite s u false scope (slotVa b.1 b.2.1 seq + 8) (leBytes 4 x)
    binPatch s u b scope (seq + 1) rest

/-- The CTL words of a BIN's targets. -/
def binTargets (s : State) (u : Acc) (b : Nat × Nat × Nat) (seq n : Nat) : Except Perf (List Nat × State) :=
  match n with
  | 0 => .ok ([], s)
  | k + 1 => do
    let (w, s) ← umRead s u false (slotVa b.1 b.2.1 seq) 4
    let (ws, s) ← binTargets s u b (seq + 1) k
    .ok (leNat w :: ws, s)

/-- What a BIN does once its advance fits (R132). -/
def binRun (s : State) (tk slot seq : Nat) (b : Nat × Nat × Nat) (c : UCmd) : Except Perf State := do
  let u := umberAcc s tk slot seq
  let bad (off : Nat) : Perf := .fail (engTrap 2 slot seq off)
  let (bs, s) ← umRead s u c.isp (if c.isp then c.idx % 2 ^ 32 else c.idx) (4 * c.rows)
  match binCounts c.cols (rowElems 4 bs) with
  | none => .error (bad 0x28)
  | some cs =>
    if (chainOf s tk slot).tail ≠ seq then .error (bad 0)
    else do
      let (ts, s) ← binTargets s u b (seq + 1) c.cols
      if ts.any fun w => bitsOf w 31 28 == 0 || decide (bitsOf w 31 28 > 4) || bitOf w 20 then .error (bad 0x0C)
      else if c.cols + 1 > 2 ^ b.2.1 then .error (bad 0x0C)
      else do
        let s ← binPatch s u b c.rel (seq + 1) cs
        let s ← if c.dst = 0 then Except.ok s else umWrite s u c.dsp c.rel c.dst (elemBytes 4 cs)
        .ok (cmdComplete (modChain s tk slot fun h =>
          { h with tail := h.tail + c.cols
                   scopes := (List.range c.cols).foldl (fun m j => mset m (seq + 1 + j) (ctlScope (ts.getD j 0))) h.scopes })
          tk slot seq)

/-- UMBER_BIN (R132): held until its advance fits the ring (R121). -/
def execUmberBin (tm slot seq : Nat) (s : State) : Res :=
  match runningCmd s tm slot seq, (chainOf s tm slot).bound with
  | some r, some b =>
    let c := ucmd r.words
    let ch := chainOf s tm slot
    if c.op ≠ 5 then .next s
    else if ch.tail = seq ∧ c.cols + 1 ≤ 2 ^ b.2.1 ∧ ch.tail + c.cols - ch.done > 2 ^ b.2.1 then .next s
    else
      match binRun s tm slot seq b c with
      | .ok s1 => .next s1
      | .error p => .next (umberStop s tm slot seq p)
  | _, _ => .next s

/-- How far DONE can rise. -/
def doneTo (fuel : Nat) (fin : List Nat) (d : Nat) : Nat :=
  match fuel with
  | 0 => d
  | n + 1 => if fin.contains (d + 1) then doneTo n fin (d + 1) else d

/-- COMPLETION_WORD_WRITE (R123): DONE rises, and Umber writes it to the completion word as a release at the widest scope
among the commands that the rise passes. -/
def execCompletionWordWrite (tm slot : Nat) (s : State) : Res :=
  let c := chainOf s tm slot
  match c.bound with
  | none => .next s
  | some b =>
    let d := doneTo c.finished.length c.finished c.done
    if d = c.done then .next s
    else
      let u := umberAcc s tm slot d
      let w := rangeWrite s u 1 b.2.2 (leBytes 8 d) 4
      match w.1 with
      | .error (.fail t) => .next (umberFail (modChain w.2 tm slot fun h => { h with finished := [] }) tm slot d t)
      | .error p => .next (umberStop w.2 tm slot d p)
      | .ok lines =>
        let scope := (rangeFrom (c.done + 1) (d - c.done)).foldl (fun m q => max m (mget c.scopes q 1)) 1
        let s1 := dropHeld (recordScope w.2 u scope lines) (getTeam s tm).part (.umber tm slot d)
        .next (modChain s1 tm slot fun h => { h with done := d, finished := h.finished.filter (· > d) })

/-- CHAIN_ADVANCE (R121, R133, R292): a held CQADV or CQINIT is performed once it can be. -/
def execChainAdvance (gid op : Nat) (s : State) : Res :=
  match (getGroup s gid).ops.find? (·.id == op) with
  | some o => .next (performCq s gid o)
  | none => .next s

end Sys2Proof.Machine
end

