-- ==== Sys2Proof/Machine/Complete.lean ====
section
/-!
DEFINITION. What a core and its memory do after issue: completion (R18 to R20, R28, R369), the scheduler's aging (R25),
stops (R22, R368), homes (R65, R72), cursor buffers (R95) and the fault buffer (R358, R359).
-/

namespace Sys2Proof.Machine

/-- An outstanding operation. -/
def findOp (g : Group) (op : Nat) : Option Op := g.ops.find? (·.id == op)

/-- An operation ends: its destinations are written and its flag drops (R19, R20). A window of a fixed-latency result on one of
them is over: what is read from now on is the operation's result. -/
def endOp (s : State) (gid : Nat) (o : Op) : State :=
  modGroup s gid fun g =>
    { g with
      regs := o.writes.foldl (fun m w => mput 0 m w.1 w.2) g.regs
      flags := match o.flag with | some k => mput 0 g.flags k (getFlag g k - 1) | none => g.flags
      splits := if o.writes.isEmpty then g.splits else g.splits.map fun x =>
        { x with stale := x.stale.filter fun e => !mhas o.writes e.loc }
      cursors := if o.graph then g.cursors.map fun c => (c.1, { c.2 with buf := [] }) else g.cursors
      ops := g.ops.filter fun x => x.id != o.id }

/-- A faulted operation's trap waits at its split (R369); with the split gone, it is resolved at task level. -/
def holdTrap (s : State) (gid : Nat) (o : Op) (t : TrapRec) : State :=
  let g := getGroup s gid
  let tm := getTeam s (teamKey gid)
  if g.splits.any (·.age == o.split) then
    modGroup s gid fun g => { g with splits := g.splits.map fun x =>
      if x.age = o.split then { x with traps := x.traps ++ [⟨o.flag, t, o.at_, false⟩] } else x }
  else trapTask s tm.part tm.tid t

/-- RESULT_READABLE (R18, R20): L cycles after issue the flag of a fixed-latency instruction drops. -/
def execResultReadable (gid op : Nat) (s : State) : Res :=
  match findOp (getGroup s gid) op with
  | some o => (match o.stage with
    | .fixed due => .next (if due ≤ s.cycle then endOp s gid o else s)
    | _ => .next s)
  | none => .next s

/-- An instruction of Celadon (R262). -/
def isGraph (i : Instr) : Bool :=
  match i with
  | .gld _ => true
  | .gdeg _ => true
  | .gadd _ => true
  | .gdel _ => true
  | .gfind _ => true
  | .gpay _ => true
  | _ => isCursor i

/-- An operation that is not performed yet is performed, if nothing must come first (R104). -/
def performOp (s : State) (gid : Nat) (o : Op) : State :=
  match o.stage with
  | .half _ => performGraph s gid o
  | .held i cap =>
    if isSlate i || (match i with | .hinit _ => true | _ => false) then performSlate s gid o
    else if isGraph i then performGraph s gid o
    else
      let c := accOfOp s gid o.loc
      if mustWait s c ((getGroup s gid).ops.takeWhile (·.id != o.id)) i cap then s
      else if isMma i then performMma s gid o i cap
      else performWhole s c gid o i cap
  | .pieces ps todo t =>
    if ps.any fun p => isGraph p.1 then performGraph s gid o
    else if ps.any fun p => isSlate p.1 then performSlate s gid o
    else performPiece s (accOfOp s gid o.loc) gid o ps todo t
  | .cqinit _ _ => performCq s gid o
  | .cqadv _ _ => performCq s gid o
  | _ => s

/-- What a party waits for is held in its partition. -/
def isHeld (q : Partition) (w : HeldBy) : Bool := q.held.any fun h => h.who == w

/-- An instruction not yet performed may write a v register at or above `lo`. A TLD's block has at most four registers. -/
def pieceReaches (lo : Nat) (p : Instr × Capture) : Bool :=
  match formOf p.1 with
  | some (f, e) =>
    (match f.d e p.2.fmt, p.1 with
     | .vd _, .tld _ => decide (lo < e.d.toNat + 4)
     | .vd n, _ => decide (lo < e.d.toNat + n)
     | _, _ => false)
  | none => false

/-- An operation may still write a v register at or above `lo` (R28). -/
def opReaches (o : Op) (lo : Nat) : Bool :=
  (o.writes.any fun w => decide (w.1 < 8192) && decide (lo ≤ w.1 % 256))
  || (match o.stage with
      | .held i cap => pieceReaches lo (i, cap)
      | .pieces ps _ _ => ps.any (pieceReaches lo)
      | _ => false)

/-- The RQUOTAs of a group, in issue order. -/
def rquotas (g : Group) : List Op := g.ops.filter fun o => match o.stage with | .rquota _ _ _ => true | _ => false

/-- Registers at and above a granule are taken out of a group (R28). -/
def dropRegs (lo : Nat) (m : SMap Word) : SMap Word := m.filter fun x => !(decide (x.1 < 8192) && decide (lo ≤ x.1 % 256))

/-- An RQUOTA completes (R28, R302): the receiver gains the granules, reading zero, or they go back; or it still waits. -/
def completeRquota (s : State) (gid : Nat) (o : Op) (recv n dest : Nat) : State :=
  let g := getGroup s gid
  let dst := 32 * teamKey gid + recv
  let r := getGroup s dst
  let done (s : State) (v : Bool) : State := endOp s gid { o with writes := lateWrites o (qKey dest) (boolWord v) }
  if g.res ≠ .resident ∨ !mhas s.groups dst ∨ r.res ≠ .resident ∨ r.quota + n > 32 then done s false
  else if ((rquotas g).head?.map (·.id)) ≠ some o.id ∨ g.ops.any (fun x => opReaches x (8 * (g.quota - n))) then s
  else
    let s1 := modGroup s gid fun g => { g with quota := g.quota - n, regs := dropRegs (8 * (g.quota - n)) g.regs }
    done (modGroup s1 dst fun r => { r with quota := r.quota + n, regs := dropRegs (8 * r.quota) r.regs }) true

/-- The operation at hand after it may have been performed. -/
def closeOp (s : State) (gid op : Nat) : State :=
  match findOp (getGroup s gid) op with
  | none => s
  | some o =>
    match o.stage with
    | .done => endOp s gid o
    | .faulted t => holdTrap (endOp s gid o) gid o t
    | _ => s

/-- An earlier operation of the same unit is outstanding: Indigo and Ochre finish a group's instructions in issue order (R135,
R217). -/
def indigoBehind (g : Group) (o : Op) : Bool :=
  let earlier := g.ops.takeWhile (·.id != o.id)
  (o.indigo && earlier.any (·.indigo)) || (o.ochre && earlier.any (·.ochre))

/-- OPERATION_COMPLETE (R19, R20, R28, R259, R369). -/
def execOperationComplete (gid op : Nat) (s : State) : Res :=
  let g := getGroup s gid
  let p := (getTeam s (teamKey gid)).part
  match findOp g op with
  | none => .next s
  | some o =>
    if indigoBehind g o then .next s
    else
      match o.stage with
      | .rquota recv n dest => .next (completeRquota s gid o recv n dest)
      | .resq _ =>
        if (getPart s p).held.any fun h => h.who == .resq gid op && !h.recorded then .next s
        else .next (endOp (dropHeld s p (.resq gid op)) gid o)
      | .fixed _ => .next s
      | _ => .next (if isHeld (getPart s p) (.op gid op) then s else closeOp (performOp s gid o) gid op)

/-- READY_AGE_PROMOTE (R25, R26): a split that has been ready for 64 cycles goes first. -/
def execReadyAgePromote (gid k : Nat) (s : State) : Res :=
  .next (modSplit s gid k fun x =>
    if x.readyAt.any (fun t => decide (t + 64 ≤ s.cycle)) then { x with promoted := true } else x)

/-- Takes the stop (R22): every window is closed. -/
def takeStop (s : State) (gid k : Nat) : State :=
  modSplit s gid k fun x => { x with stopped := true, stale := [] }

/-- STOP_BOUND (R22): the 64th boundary, windows or not. -/
def execStopBound (gid k : Nat) (s : State) : Res :=
  match (getGroup s gid).splits[k]? with
  | some x =>
    .next (if x.stop.any (fun n => decide (64 ≤ n)) && x.chain == 0 && !x.stopped then takeStop s gid k else s)
  | none => .next s

/-- HOME_RECALL (R65). -/
def execHomeRecall (grain : Nat) (s : State) : Res := .next (recallGrain s grain)

/-- CONVERTED_WRITE (R72 to R76, R116): a write that reaches the home of a converted page. -/
def execConvertedWrite (part va : Nat) (data : List Byte) (s : State) : Res :=
  let c := carmineAcc s part
  let r := checkAcc s c .write 0 va 1 anyPage
  match r.1 with
  | .ok l =>
    if l.sf ≠ 0 ∧ !l.domain ∧ !data.isEmpty ∧ pageOff l va + data.length ≤ (if l.big then 2 ^ 21 else 2 ^ 16) then
      .next (writeAt r.2 c l va data 4)
    else .next s
  | _ => .next s

/-- CURSOR_BUFFER_DISCARD (R95). -/
def execCursorBufferDiscard (gid lane cur : Nat) (s : State) : Res :=
  .next (modGroup s gid fun g => { g with cursors := mmod g.cursors (curKey lane cur) fun c => { c with buf := [] } })

/-- HANDLER_ENTRY (R368): a trap that was held while the group was in handler mode, the oldest split first. -/
def execHandlerEntry (gid k : Nat) (s : State) : Res :=
  match atOf s gid k with
  | none => .next s
  | some a =>
    match a.g.held.find? (·.1 == a.sp.age) with
    | some (_, t, resume) =>
      if a.g.handler.isNone && a.g.held.all (fun h => decide (a.sp.age ≤ h.1)) && a.g.res == .resident
          && a.g.halt == .running && a.task.st == .released then
        let s1 := modGroup (modSplit s gid k fun x => { x with stop := none, stopped := false }) gid fun g =>
          { g with held := g.held.filter (·.1 != a.sp.age) }
        .next (enterHandler s1 gid k t resume)
      else .next s
    | none => .next s

/-- Records of a fault buffer (R358). -/
def fbSlots (q : Partition) : Nat := 2 ^ (if 6 ≤ q.fbsize ∧ q.fbsize ≤ 16 then q.fbsize else 6)

/-- FULL (R358). -/
def fbFull (q : Partition) : Bool := (q.fbput + 2 ^ 32 - q.fbget) % 2 ^ 32 == fbSlots q

/-- A fault record (R358). -/
def faultRecord (h : HeldAcc) : List Byte :=
  let resq := match h.who with | .resq _ _ => 8 | _ => 0
  let info := (if h.write then 4 else 0) + resq + h.core / 64 * 2 ^ 4
    + (if h.source = 4 then 2 ^ 13 else h.source + h.core % 64 * 2 ^ 6)
  leBytes 8 h.va ++ leBytes 4 h.gen ++ leBytes 4 h.tid ++ leBytes 4 info ++ List.replicate 12 0

/-- FAULT_RECORD (R358, R359): the record is written and PUT advances; it waits for room, and is discarded when FBGEN has
changed, or where the buffer lies in a granule that the partition does not hold (R387). -/
def execFaultRecord (part idx : Nat) (s : State) : Res :=
  let q := getPart s part
  match q.held[idx]? with
  | none => .next s
  | some h =>
    let mark (q : Partition) : Partition := if h.who == .served then { q with held := q.held.eraseIdx idx }
      else { q with held := q.held.modify idx fun h => { h with recorded := true } }
    if h.recorded then .next s
    else if h.gen ≠ q.fbgen then .next (modPart s part mark)
    else if fbFull q then .next s
    else
      let at_ := q.fbbase + 32 * (q.fbput % fbSlots q)
      if !holdsPhys s part at_ then .next (reportFault (modPart s part mark) part
        ⟨13, 1, BitVec.ofNat 32 (at_ / 64), BitVec.ofNat 32 (at_ / 2 ^ 33), 0xFFFFFFFF#32⟩)
      else .next (modPart (homeWrite s ((rangeFrom at_ 32).zip (faultRecord h)) 0) part fun q =>
        { mark q with fbput := (q.fbput + 1) % 2 ^ 32 })

/-- A held access is tried again (R77, R359); the wait of a card, record, command or fetch ends, and its step is tried
anew. -/
def replayHeld (s : State) (p : Nat) (w : HeldBy) : State :=
  match w with
  | .op gid op =>
    (match findOp (getGroup s gid) op with
     | some o => performOp (dropHeld s p w) gid o
     | none => dropHeld s p w)
  | .resq gid op =>
    modPart s p fun q => { q with held := q.held.map fun h => if h.who = .resq gid op then { h with recorded := true } else h }
  | _ => dropHeld s p w

/-- HELD_ACCESS_REPLAY (R359). -/
def execHeldAccessReplay (part idx : Nat) (s : State) : Res :=
  match (getPart s part).held[idx]? with
  | none => .next s
  | some h => .next (match h.who with | .resq _ _ => s | .served => s | w => replayHeld s part w)

/-- FBGEN_WRITE (R359): a change of FBGEN replays every held access. -/
def execFbgenWrite (part : Nat) (v : Word) (s : State) : Res :=
  let q := getPart s part
  if v.toNat = q.fbgen then .next s
  else
    let s1 := modPart s part fun q => { q with fbgen := v.toNat }
    .next ((((q.held.map (·.who)).eraseDups)).foldl (fun acc w => replayHeld acc part w) s1)

end Sys2Proof.Machine
end

