-- ==== Sys2Proof/Machine/Cards.lean ====
section
/-!
DEFINITION. Job cards (R141 to R143), launch headers (R338, R339), dependence edges (R148), host chains (R335 to R337),
and the acceptance of a card (R143, R147).
-/

namespace Sys2Proof.Machine

/-- A region from its 96 bits (R142). -/
def regionOf (x : Nat) : Region where
  base := bitsOf x 45 0
  len := bitsOf x 77 46
  mode := bitsOf x 79 78
  verr := bitOf x 80
  watch := bitsOf x 83 81
  wfmt := bitsOf x 85 84

/-- A card from its 128 bytes (R141). -/
def cardOf (bs : List Byte) : Card :=
  let ctl := recNat bs 0 4
  { kind := bitsOf ctl 3 0, prio := bitsOf ctl 6 4, ver := bitOf ctl 8, idem := bitOf ctl 9, wdr := bitOf ctl 10,
    nstr := bitOf ctl 11, opmask := bitsOf ctl 19 12, cpat := BitVec.ofNat 32 (recNat bs 4 4), desc := recNat bs 8 8,
    crec := recNat bs 0x10 8, next := recNat bs 0x18 8
    regions := (List.range 8).map fun i => regionOf (recNat bs (0x20 + 12 * i) 12) }

/-- A region that R142 or R143 refuses. -/
def regionBad (ver : Bool) (x : Nat) : Bool :=
  let r := regionOf x
  x / 2 ^ 86 != 0 || r.watch == 7 || (r.mode == 0 && x != 0) || (r.mode != 0 && r.len == 0)
  || (r.watch != 0 && (!r.verr || decide (r.mode < 2) || !ver)) || (r.watch == 6 && r.wfmt == 1) || (r.verr && !ver)

/-- The control word of a card fails a check of R143: must-be-zero bits, KIND, OPMASK and NSTR. -/
def cardCtlBad (ctl : Nat) (c : Card) : Bool :=
  bitsOf ctl 31 20 != 0 || bitOf ctl 7 || c.kind == 0 || decide (5 < c.kind) || (c.opmask != 0) != c.nstr
  || (List.range 8).any fun i => bitOf c.opmask i && ((c.regions.getD i Region.empty).mode != 1)

/-- The offset of the first faulty field of a card (R143). -/
def cardBad (bs : List Byte) : Option Nat :=
  let c := cardOf bs
  if cardCtlBad (recNat bs 0 4) c then some 0
  else ((List.range 8).find? fun i => regionBad c.ver (recNat bs (0x20 + 12 * i) 12)).map fun i => 0x20 + 12 * i

/-- Quadrant spread of code QS (R338). -/
def spreadOf (qs : Nat) : Nat := match qs with | 0 => 4 | 1 => 2 | _ => 1

/-- A launch header from its 128 bytes (R338). -/
def headerOf (bs : List Byte) : Header :=
  let ctl := recNat bs 0 4
  { quota := bitsOf ctl 5 0, spread := spreadOf (bitsOf ctl 8 7), carve := bitsOf ctl 11 9, gang := bitsOf ctl 14 12,
    col := bitsOf ctl 17 15, hnd := bitOf ctl 18, schk := bitOf ctl 19, scr := recNat bs 4 4
    widths := (List.range 6).map fun k => recNat bs (8 + k) 1
    exts := 32 :: (List.range 5).map fun k => recNat bs (0x10 + 8 * k) 8
    code := recNat bs 0x38 8, clen := recNat bs 0x40 8, param := recNat bs 0x48 8, seed := recNat bs 0x50 8,
    hoff := recNat bs 0x58 8 }

/-- The fields of a header that fail a check of R339, by offset. -/
def headerFaults (bs : List Byte) : List Nat :=
  let ctl := recNat bs 0 4
  let h := headerOf bs
  let ngrp := h.exts.getD 1 0
  let bad (off : Nat) (b : Bool) : List Nat := if b then [off] else []
  bad 0 (bitsOf ctl 31 20 != 0 || bitOf ctl 6 || [1, 7].contains h.col || [1, 7].contains h.gang
    || bitsOf ctl 8 7 == 3 || decide (32 < h.quota))
  ++ bad 4 (h.scr == 0 || h.scr % 4096 != 0 || decide (carveScr h.carve < h.scr))
  ++ bad 8 (h.widths.getD 0 0 != 5 || decide (64 < h.widths.foldl (· + ·) 0))
  ++ bad 9 (decide (5 < h.widths.getD 1 0))
  ++ (rangeFrom 2 4).flatMap (fun k => bad (8 + k) (decide (59 < h.widths.getD k 0)))
  ++ bad 0x0E (recNat bs 0x0E 2 != 0)
  ++ bad 0x10 (decide (16 * h.spread < ngrp) || decide (256 < (ngrp + h.spread - 1) / h.spread * h.quota))
  ++ (rangeFrom 1 5).flatMap (fun k =>
    bad (0x10 + 8 * (k - 1)) (h.exts.getD k 0 == 0 || decide (2 ^ h.widths.getD k 0 < h.exts.getD k 0)))
  ++ bad 0x38 (h.code % 64 != 0)
  ++ bad 0x40 (h.clen == 0 || h.clen % 4 != 0)
  ++ bad 0x48 (h.param % 64 != 0)
  ++ bad 0x58 (h.hnd && (h.hoff % 4 != 0 || decide (h.clen ≤ h.hoff)))
  ++ bad 0x60 (recNat bs 0x60 32 != 0)

/-- The offset of the first failing field of a header (R339). -/
def headerBad (bs : List Byte) : Option Nat := (headerFaults bs).min?

/-- Two regions share a byte (R148). -/
def regionsMeet (a b : Region) : Bool :=
  a.mode != 0 && b.mode != 0 && decide (a.base < b.base + b.len) && decide (b.base < a.base + a.len)

/-- The edges that one pair of overlapping regions gives (R148). -/
def pairEdges (e t : Nat) (i j : Nat) (a b : Region) : List Edge :=
  if !regionsMeet a b then []
  else
    let mk (raw : Bool) : Edge := ⟨e, t, raw, i, j, raw, false, false⟩
    (if a.mode ≥ 2 ∧ b.mode % 2 = 1 then [mk true] else [])
    ++ (if a.mode % 2 = 1 ∧ b.mode ≥ 2 then [mk false] else [])
    ++ (if a.mode ≥ 2 ∧ b.mode ≥ 2 then [mk false] else [])

/-- The edges from an earlier task (R148); an operand that a settled region already contains is settled. -/
def edgesFrom (e : Task) (t : Task) : List Edge :=
  (e.card.regions.zipIdx).flatMap fun a => (t.card.regions.zipIdx).flatMap fun b =>
    (pairEdges e.tid t.tid a.2 b.2 a.1 b.1).map fun x =>
      { x with abs := x.raw && e.settled.contains a.2 && regionIn b.1 a.1 }

/-- The parent of a task, by the children that Carmine keeps. -/
def parentOf (q : Partition) (tid : Nat) : Option Nat := (q.children.find? fun c => c.child == tid).map (·.parent)

/-- The ancestors of a task under TASK (R151). -/
def ancestors (fuel : Nat) (q : Partition) (tid : Nat) : List Nat :=
  match fuel with
  | 0 => []
  | n + 1 => match parentOf q tid with | some p => p :: ancestors n q p | none => []

/-- The next identifier (R144). -/
def tidAfter (t : Nat) : Nat := if t = 2 ^ 32 - 1 then 1 else t + 1

/-- A card is accepted (R143, R147, R148, R151): the task enters the window with its edges; one that is refused is decided
FAULTED. -/
def acceptTask (s : State) (p : Nat) (parent : Option Nat) (card : Card) (hdr : Option Header) (bad : Option TrapRec)
    (refused : Bool) : Nat × State :=
  let q := getPart s p
  let tid := q.nextTid
  let t : Task :=
    { Task.empty with
      tid, parent, card := if refused then { card with regions := [] } else card, hdr, st := .waiting, order := q.accepted }
  let anc := match parent with
    | some x => x :: ancestors (q.children.length + 1) q x
    | none => []
  let es := if refused then [] else (q.window.filter fun e => !anc.contains e.tid).flatMap fun e => edgesFrom e t
  let s1 := modPart s p fun q =>
    { q with window := q.window ++ [t], edges := q.edges ++ es, nextTid := tidAfter tid, accepted := q.accepted + 1
             children := match parent with | some x => q.children ++ [⟨x, tid, none, false⟩] | none => q.children }
  (tid, match bad with | some f => stopTask s1 p tid ⟨2, f⟩ | none => s1)

/-- A trap of cause TASK of an acceptance. -/
def taskTrap (code w0 : Nat) : TrapRec := ⟨8, code, BitVec.ofNat 32 w0, 0, 0xFFFFFFFF#32⟩

/-- What the launch header of a grid card gives: the header, a trap, or pages that are held (R339, R143). -/
inductive HdrRes where
  | ok (h : Header)
  | bad (t : TrapRec)
  | hold (vas : List Nat)

/-- Reads and checks a launch header (R339, R10). -/
def readHeader (s : State) (p desc : Nat) : HdrRes × State :=
  let c := carmineAcc s p
  if desc % 64 ≠ 0 then (.bad (memTrap c 0 false 2 3 desc 0), s)
  else
    let r := rangeRead s c 4 desc 128 4
    match r.1 with
    | .error (.hold _ _ vas) => (.hold vas, r.2)
    | .error (.fail t) => (.bad t, r.2)
    | .error (.done _ _) => (.bad (taskTrap 1 0), r.2)
    | .ok bs =>
      match headerBad bs with
      | some off => (.bad (taskTrap 1 off), r.2)
      | none =>
        let h := headerOf bs
        if cannotFit r.2 p h then (.bad (taskTrap 2 h.col), r.2) else (.ok h, r.2)

/-- How an acceptance ends. -/
inductive AcceptRes where
  /-- Accepted with an identifier. -/
  | taken (tid : Nat)
  /-- The card cannot be read (R143). -/
  | unread (t : TrapRec)
  /-- Pages are awaited (R77). -/
  | held (vas : List Nat)

/-- Carmine reads a card and accepts it; one that it cannot read is reported to firmware (R143). -/
def acceptCard (s : State) (p : Nat) (parent : Option Nat) (va : Nat) : AcceptRes × State :=
  let r := rangeRead s (carmineAcc s p) 4 va 128 4
  match r.1 with
  | .error (.hold _ _ vas) => (.held vas, r.2)
  | .error (.fail t) => (.unread t, reportFault r.2 p t)
  | .error (.done _ _) => (.unread (taskTrap 3 0), r.2)
  | .ok bs =>
    let card := cardOf bs
    let take (hdr : Option Header) (bad : Option TrapRec) (refused : Bool) (s : State) : AcceptRes × State :=
      let a := acceptTask s p parent card hdr bad refused
      (.taken a.1, a.2)
    match cardBad bs with
    | some off => take none (some (taskTrap 3 off)) true r.2
    | none =>
      if card.kind = 1 then
        let h := readHeader r.2 p card.desc
        match h.1 with
        | .ok x => take (some x) none false h.2
        | .bad t => take none (some t) false h.2
        | .hold vas => (.held vas, h.2)
      else take none none false r.2

/-- A host chain of a partition (R335). -/
def getHc (q : Partition) (h : Nat) : HostChain := mget q.chains h HostChain.reset

/-- A host chain changed. -/
def modHc (s : State) (p h : Nat) (f : HostChain → HostChain) : State :=
  modPart s p fun q => { q with chains := mset q.chains h (f (getHc q h)) }

/-- IDLE (R335). -/
def hcIdle (c : HostChain) : Bool := !c.run || c.cur == c.tail

/-- The function of a partition takes a write of a chain register (R335, R400). -/
def chainOpen (s : State) (p h : Nat) : Bool := decide (p < 8) && decide (h < 32) && (getPart s p).en

/-- HEAD written (R336): a new run, when the chain is idle and without an error. -/
def headSet (v : Nat) (c : HostChain) : HostChain :=
  if hcIdle c && !c.err then { c with head := v, cur := 0, past := [], upto := none, run := true } else c

/-- TAIL written (R336): the cards up to it are released, unless it names one already accepted in this run. -/
def tailSet (v : Nat) (c : HostChain) : HostChain :=
  { c with tail := v, upto := if c.run && !c.err && !c.past.contains v then some v else c.upto }

/-- HEAD_WRITE (R335, R336). -/
def execHeadWrite (part chain : Nat) (v : Dword) (s : State) : Res :=
  .next (if chainOpen s part chain then modHc s part chain (headSet v.toNat) else s)

/-- TAIL_WRITE (R335, R336, R114). -/
def execTailWrite (part chain : Nat) (v : LinkWrite) (s : State) : Res :=
  .next (if v.link < 2 && chainOpen s part chain then modHc s part chain (tailSet v.val.toNat) else s)

/-- CHAIN_ERR_CLEAR (R337). -/
def execChainErrClear (part chain : Nat) (s : State) : Res :=
  .next (if chainOpen s part chain && (getHc (getPart s part) chain).err then
    modHc s part chain fun c => { c with err := false, ecode := 0, run := false, upto := none } else s)

/-- Carmine stops a chain (R337, R400, R402). -/
def chainStop (s : State) (p h code : Nat) : State :=
  signalMsix (reportEvent (modHc s p h fun c => { c with err := true, ecode := code, upto := none }) 4 0xFF p
    (h + 2 ^ 8 * code)) (p + 1)

/-- The next card of a chain (R336): at HEAD, or as the last accepted card's NEXT now says. -/
def nextCard (s : State) (p : Nat) (c : HostChain) : Except Perf Nat × State :=
  if c.past.isEmpty then (.ok c.head, s)
  else
    let r := rangeRead s (carmineAcc s p) 4 (c.cur + 0x18) 8 4
    (r.1.map leNat, r.2)

/-- The window has room for a card (R147, R379). -/
def windowOpen (q : Partition) : Bool := q.en && decide (q.window.length < 4096)

/-- A chain's next card is accepted, or the chain stops (R336, R337). -/
def acceptFromChain (s : State) (p h : Nat) : State :=
  let c := getHc (getPart s p) h
  let hold (s : State) (vas : List Nat) : State := holdPages s (carmineAcc s p) (.card h) false 4 vas
  match c.upto with
  | none => s
  | some last =>
    let n := nextCard s p c
    match n.1 with
    | .error (.hold _ _ vas) => hold n.2 vas
    | .error _ => chainStop n.2 p h 3
    | .ok va =>
      if va = 0 ∧ !c.past.isEmpty then chainStop n.2 p h 2
      else if va % 128 ≠ 0 then chainStop n.2 p h 1
      else
        let a := acceptCard n.2 p none va
        match a.1 with
        | .held vas => hold a.2 vas
        | .unread _ => chainStop (dropHeld a.2 p (.card h)) p h 3
        | .taken _ =>
          modHc (dropHeld a.2 p (.card h)) p h fun c =>
            { c with cur := va, past := va :: c.past, upto := if va = last then none else some last }

/-- The card of a TASK is accepted (R165, R296): its identifier, or 0 for a card that cannot be read. -/
def acceptFromTask (s : State) (p gid op dest card : Nat) : State :=
  let done (s : State) (tid : Nat) : State :=
    modGroup (dropHeld s p (.op gid op)) gid fun g => { g with ops := g.ops.map fun o =>
      if o.id = op then { o with stage := .done, writes := lateWrites o (sKey dest) (BitVec.ofNat 32 tid) } else o }
  let a := acceptCard s p (some (getTeam s (teamKey gid)).tid) card
  match a.1 with
  | .taken tid => done a.2 tid
  | .unread _ => done a.2 0
  | .held vas => holdPages a.2 (carmineAcc s p) (.op gid op) false 4 vas

/-- CARD_ACCEPT (R143, R147). -/
def execCardAccept (part : Nat) (src : CardSrc) (s : State) : Res :=
  if !windowOpen (getPart s part) then .next s
  else
    match src with
    | .chain h => .next (acceptFromChain s part h)
    | .task gid op =>
      match (getGroup s gid).ops.find? (·.id == op) with
      | some o =>
        match o.stage with
        | .task dest card =>
          .next (if (getTeam s (teamKey gid)).part = part then acceptFromTask s part gid op dest card else s)
        | _ => .next s
      | none => .next s

end Sys2Proof.Machine
end

