-- ==== Sys2Proof/Machine/Bulk.lean ====
section
/-!
DEFINITION. Bulk tasks (R146, R340): copies and conversions, which Umber engines carry out, and GBUILD and GDUMP (R98 to
R100), which Celadon carries out, a piece at a time.
-/

namespace Sys2Proof.Machine

/-- The party of a bulk task: an engine of a core of the partition, of the device's choice. Word 2 of an Umber engine's
MEM detail names a chain slot and sequence, which a bulk task has not: a free value. -/
def bulkAcc (s : State) (p tid src : Nat) : Acc × State :=
  let cs := coresOf s p
  let c := choose s cs.length
  let core := cs.getD c.1 (64 * (getPart s p).lead)
  if src = 1 then
    (⟨p, tid, core, 2 ^ 13, none, 1, BitVec.ofNat 32 (Config.freeChoice c.2.fresh)⟩, { c.2 with fresh := c.2.fresh + 1 })
  else (⟨p, tid, core, 2 ^ 13, none, src, 0xFFFFFFFF#32⟩, c.2)

/-- A piece of a bulk task that a page or a fault has stopped. -/
def bulkStop (s : State) (c : Acc) (f : Perf) : State :=
  match f with
  | .hold wr src vas => holdPages s c (.bulk c.tid) wr src vas
  | .fail t => trapTask s c.p c.tid t
  | .done _ _ => s

/-- A bulk task waits for a page. -/
def bulkHeld (q : Partition) (tid : Nat) : Bool := q.held.any fun h => h.who == .bulk tid

/-- A released task of these kinds that has not read its descriptor and waits for no page. -/
def bulkWaits (q : Partition) (kinds : List Nat) (t : Task) : Bool :=
  t.st == .released && kinds.contains t.card.kind && t.desc.isEmpty && !bulkHeld q t.tid

/-- A bulk task may go on (R340): it has begun, or it is the first in ready order for its engines. -/
def bulkTurn (q : Partition) (kinds : List Nat) (t : Task) : Bool :=
  t.st == .released && !bulkHeld q t.tid
  && (!t.desc.isEmpty || q.window.all fun u => !(bulkWaits q kinds u && readyBefore u t))

/-- The words of 64 bytes. -/
def wordsOf (bs : List Byte) : List Word := (List.range 16).map fun i => BitVec.ofNat 32 (recNat bs (4 * i) 4)

/-- Carmine reads the descriptor of a bulk task (R143): the task with it. -/
def readDesc (s : State) (p : Nat) (t : Task) : Option Task × State :=
  let c : Acc := { carmineAcc s p with tid := t.tid }
  let r := rangeRead s c 4 t.card.desc 64 4
  match r.1 with
  | .ok bs => (some { t with desc := wordsOf bs }, modTask r.2 p t.tid fun x => { x with desc := wordsOf bs })
  | .error f => (none, bulkStop r.2 c f)

/-- A task that is still released is done. -/
def bulkDone (s : State) (p tid : Nat) : State := if (getTask s p tid).st = .released then finishTask s p tid else s

/-- How far a bulk task has come. -/
def bulkAt (s : State) (p tid pos : Nat) : State := modTask s p tid fun t => { t with pos }

/-- A format that BULK-CONVERT takes (R146). -/
def bulkFmt (k : Nat) : Bool := decide (k ≤ 9) || k == 14

/-- Bits of an element of a format code (R31). -/
def bulkBits (k : Nat) : Nat := match k with | 12 => 64 | 13 => 128 | 14 => 8 | 9 => 8 | _ => (ffOf k).bits

/-- Bytes of the source and of the destination of a bulk copy or conversion. -/
def bulkSizes (t : Task) : Nat × Nat :=
  let n := dDword t 6
  if t.card.kind = 2 then (n, n)
  else
    let f (k : Nat) : Nat := (n * bulkBits k + 7) / 8
    (f (dWord t 0 % 16), f (dWord t 0 / 16 % 16))

/-- The offsets at which a bulk descriptor can be said to fail first, none when it is legal (R146). For an overlap the
spec names no field: SRC or DST. -/
def bulkBad (t : Task) : List Nat :=
  let ctl := dWord t 0
  let sf := ctl % 16
  let df := ctl / 16 % 16
  let fmts := (bulkFmt sf && bulkFmt df) || (sf == 12 && df == 13) || (sf == 13 && df == 12)
  let badCtl := if t.card.kind = 2 then ctl != 0 else !fmts || decide (5 < ctl / 2 ^ 8 % 8) || ctl / 2 ^ 12 != 0
  let n := bulkSizes t
  if t.card.desc % 64 ≠ 0 || badCtl then [0]
  else if dWord t 1 ≠ 0 then [4]
  else if dDword t 2 < dDword t 4 + n.2 && dDword t 4 < dDword t 2 + n.1 then [8, 16]
  else if (t.desc.drop 8).any (· != 0) then [0x20]
  else []

/-- Bytes up to the next page boundary of either side. -/
def copyChunk (a b left : Nat) : Nat := min left (min (2 ^ 16 - a % 2 ^ 16) (2 ^ 16 - b % 2 ^ 16))

/-- The step of a bulk copy or conversion up to its next piece: the descriptor and its checks. -/
def bulkStep (kind part tid : Nat) (s : State) (f : Acc → Task → State → State) : Res :=
  match findTask s part tid with
  | none => .next s
  | some t =>
    if t.card.kind ≠ kind ∨ !bulkTurn (getPart s part) [2, 3] t then .next s
    else if t.desc.isEmpty then
      if t.card.desc % 64 ≠ 0 then .next (trapTask s part tid (taskTrap 7 0))
      else
        let r := readDesc s part t
        match r.1 with
        | none => .next r.2
        | some t =>
          let bad := bulkBad t
          if bad.isEmpty then .next r.2
          else
            let c := choose r.2 bad.length
            .next (trapTask c.2 part tid (taskTrap 7 (bad.getD c.1 0)))
    else if t.pos ≥ dDword t 6 then .next (bulkDone s part tid)
    else
      let c := bulkAcc s part tid 1
      .next (f c.1 t c.2)

/-- A piece of a bulk copy: up to the next page boundary of either side, written as one write (log 65). -/
def copyPiece (c : Acc) (t : Task) (s : State) : State :=
  let a := dDword t 2 + t.pos
  let b := dDword t 4 + t.pos
  let n := copyChunk a b (dDword t 6 - t.pos)
  let r := rangeRead s c 1 a n 4
  match r.1 with
  | .error f => bulkStop r.2 c f
  | .ok bs =>
    let w := rangeWrite r.2 c 1 b bs 4
    match w.1 with
    | .error f => bulkStop w.2 c f
    | .ok _ => bulkAt w.2 c.p c.tid (t.pos + n)

/-- BULK_COPY (R146). -/
def execBulkCopy (part tid : Nat) (s : State) : Res := bulkStep 2 part tid s copyPiece

/-- One element converted (R44), a complex one by components. Under SR the generator is not stated: `lg` is free. -/
def bulkElem (rc : RCtx) (sf df x : Nat) (lg : Dword) : Nat :=
  if sf = 12 then
    let re := cvtReal rc none 0 1 (x % 2 ^ 32) lg
    re.1 + 2 ^ 64 * (cvtReal rc none 0 1 (x / 2 ^ 32) re.2).1
  else if sf = 13 then
    let re := cvtReal rc none 1 0 (x % 2 ^ 64) lg
    re.1 + 2 ^ 32 * (cvtReal rc none 1 0 (x / 2 ^ 64) re.2).1
  else (cvtReal rc none sf df x lg).1

/-- An address is not aligned for elements of `w` bits (R57). -/
def elemMisaligned (w a : Nat) : Bool := decide (8 ≤ w) && a % (w / 8) != 0

/-- A piece of a bulk conversion: 32 elements, written as one write (log 65). The bits of the last byte beyond the last packed element are not stated:
free. -/
def convertPiece (c : Acc) (t : Task) (s : State) : State :=
  let ctl := dWord t 0
  let sf := ctl % 16
  let df := ctl / 16 % 16
  let sw := bulkBits sf
  let dw := bulkBits df
  let n := min 32 (dDword t 6 - t.pos)
  let a := dDword t 2 + t.pos * sw / 8
  let b := dDword t 4 + t.pos * dw / 8
  if elemMisaligned sw a then bulkStop s c (.fail (memTrap c 0 false 2 3 a 0))
  else if elemMisaligned dw b then bulkStop s c (.fail (memTrap c 0 true 2 3 b 0))
  else
    let r := rangeRead s c 1 a ((n * sw + 7) / 8) 4
    match r.1 with
    | .error f => bulkStop r.2 c f
    | .ok bs =>
      let rc : RCtx := ⟨ctl / 2 ^ 8 % 8, bitOf ctl 11, false, none⟩
      let k := r.2.fresh
      let xs := (unpackBits sw n (leNat bs)).mapIdx fun j x =>
        bulkElem rc sf df x (BitVec.ofNat 64 (Config.freeChoice (k + j)))
      let pad := if n * dw % 8 = 0 then 0 else Config.freeChoice (k + 32) * 2 ^ (n * dw)
      let w := rangeWrite { r.2 with fresh := k + 33 } c 1 b (leBytes ((n * dw + 7) / 8) (packBits dw xs + pad)) 4
      match w.1 with
      | .error f => bulkStop w.2 c f
      | .ok _ => bulkAt w.2 c.p c.tid (t.pos + n)

/-- BULK_CONVERT (R146). -/
def execBulkConvert (part tid : Nat) (s : State) : Res := bulkStep 3 part tid s convertPiece

/-- The trap of a bad graph bulk descriptor (R98): word 0 is 0, word 1 all ones. -/
def buildTrap (c : Acc) : TrapRec := graphTrap c 0 6 0xFFFFFFFF

/-- A must-be-zero field of a graph bulk descriptor is not zero (R98). -/
def graphDescBad (t : Task) : Bool :=
  dWord t 0 / 2 ^ 19 != 0 || dWord t 1 != 0 || (t.card.kind == 4 && dDword t 6 != 0)

/-- The lowest vertex of a GDUMP's range at or above VLIM. -/
def dumpBeyond (t : Task) (g : GEntry) : Option Nat :=
  let lo := dDword t 4
  let hi := dDword t 6
  if lo < hi ∧ g.vlim < hi then some (max lo g.vlim) else none

/-- What a graph bulk task finds of its graph: a trap, or the entry (R80, R90, R100). -/
def bulkGraph (s : State) (c : Acc) (t : Task) : Except TrapRec GEntry × State :=
  let dump := t.card.kind == 5
  let r := graphCheck s c (if dump then .read else .mutate) 0 (dWord t 0 % 2 ^ 16) (dump && bitOf (dWord t 0) 16)
    (dDword t 4) []
  match r.1 with
  | .error e => (.error e, r.2)
  | .ok g =>
    match if dump then dumpBeyond t g else none with
    | some v => (.error (graphTrap c 0 1 v), r.2)
    | none => (.ok g, r.2)

/-- The step of a graph bulk task up to its next piece: the descriptor, the entry and a page of the pool. -/
def graphBulkStep (kind part tid : Nat) (s : State) (f : Acc → Task → GEntry → State → State) : Res :=
  match findTask s part tid with
  | none => .next s
  | some t =>
    if t.card.kind ≠ kind ∨ !bulkTurn (getPart s part) [4, 5] t then .next s
    else if t.desc.isEmpty then
      let cc := carmineAcc s part
      if t.card.desc % 64 ≠ 0 then .next (trapTask s part tid (memTrap cc 0 false 2 3 t.card.desc 0))
      else
        let r := readDesc s part t
        match r.1 with
        | none => .next r.2
        | some t => .next (if graphDescBad t then trapTask r.2 part tid (buildTrap cc) else r.2)
    else
      let c := bulkAcc s part tid 3
      let g := bulkGraph c.2 c.1 t
      match g.1 with
      | .error e => .next (trapTask g.2 part tid e)
      | .ok x =>
        let a := poolAccess g.2 c.1 x (kind == 4) 0 []
        match a.1 with
        | some p => .next (bulkStop a.2 c.1 p)
        | none => .next (f c.1 t x a.2)

/-- A GBUILD record in place (R99): its vertices are kept for the next record's check. -/
def recordTaken (t : Task) (u v : Nat) (half : List Word) : Task :=
  { t with pos := t.pos + 1, desc := t.desc.take 16 ++ [BitVec.ofNat 32 u, BitVec.ofNat 32 v] ++ half }

/-- A record of a GBUILD whose pool a program has damaged (R81): CORRUPT, or any outcome of a damaged list. -/
def damagedRecord (s : State) (c : Acc) (t : Task) (g : GEntry) (u v : Nat) : State :=
  let ch := choose s (if g.dirs then 5 else 4)
  match ch.1 with
  | 0 => modTask (taintTask ch.2 c) c.p c.tid fun t => recordTaken t u v []
  | 1 => trapTask ch.2 c.p c.tid (graphTrap c 0 7 t.pos)
  | 2 => trapTask ch.2 c.p c.tid (graphTrap c 0 4 u)
  | 4 => trapTask ch.2 c.p c.tid (graphTrap c 0 5 v)
  | _ => trapTask ch.2 c.p c.tid (graphTrap c 0 5 u)

/-- A GBUILD record added, as a GADD would (R99). -/
def buildAdd (s : State) (c : Acc) (t : Task) (g : GEntry) (u v pay : Nat) : State :=
  let o := openPool (settleHalves s c.p fun _ h => awaits g (listNo u false) h) c.p g
  if !o.1 then damagedRecord (tearPools o.2 c.p g) c t g u v
  else
    let a := graphAdd o.2 c.p g u v pay
    match a.1.1 with
    | 0 => modTask (taintTask a.2 c) c.p c.tid fun t => recordTaken t u v (a.1.2.2.flatMap halfWords)
    | 3 => trapTask a.2 c.p c.tid (graphTrap c 0 4 u)
    | _ => trapTask a.2 c.p c.tid (graphTrap c 0 7 t.pos)

/-- The next record of a GBUILD (R99). -/
def buildPiece (c : Acc) (t : Task) (g : GEntry) (s : State) : State :=
  if t.pos ≥ dDword t 4 then bulkDone s c.p c.tid
  else
    let pb := match g.psz with | 0 => 0 | 1 => 4 | _ => 8
    let a := dDword t 2 + t.pos * (8 + pb)
    if a % 4 ≠ 0 then bulkStop s c (.fail (memTrap c 0 false 2 3 a 0))
    else
      let r := rangeRead s c 3 a (8 + pb) 4
      match r.1 with
      | .error f => bulkStop r.2 c f
      | .ok bs =>
        let u := recNat bs 0 4
        let v := recNat bs 4 4
        let below := decide (0 < t.pos)
          && (decide (u < dWord t 16) || (u == dWord t 16 && decide (v < dWord t 17)))
        if below then trapTask r.2 c.p c.tid (graphTrap c 0 6 t.pos)
        else if u ≥ g.vlim ∨ v ≥ g.vlim then trapTask r.2 c.p c.tid (graphTrap c 0 1 t.pos)
        else
          let a := poolAccess r.2 c g true 0 (listNo u false :: (if g.dirs then [listNo v true] else []))
          match a.1 with
          | some f => bulkStop a.2 c f
          | none => buildAdd a.2 c t g u v (leNat (bs.drop 8))

/-- GBUILD (R99): the awaited half of an edge, or the next record. -/
def execGbuild (part tid : Nat) (s : State) : Res :=
  match findTask s part tid with
  | none => .next s
  | some t =>
    if halfBuilt t then
      .next (modTask (graphFinish s part [wordsHalf t]) part tid fun x => { x with desc := x.desc.take 18 })
    else graphBulkStep 4 part tid s buildPiece

/-- The list of one vertex goes out (R100): row offset, then neighbours, serials and payloads where the list fits. -/
def dumpList (c : Acc) (t : Task) (g : GEntry) (l : GList) (s : State) : Except Perf State := do
  let ctl := dWord t 0
  let n := l.ents.length
  let pb := match g.psz with | 0 => 0 | 1 => 4 | _ => 8
  let put (s : State) (w base k : Nat) (bs : List Byte) : Except Perf State :=
    if bs.isEmpty then .ok s
    else if (base + k * w) % w ≠ 0 then .error (.fail (memTrap c 0 true 2 3 (base + k * w) 0))
    else
      let r := rangeWrite s c 3 (base + k * w) bs 4
      match r.1 with
      | .ok _ => .ok r.2
      | .error f => .error f
  let s ← if t.pos = 0 then put s 8 (dDword t 2) 0 (leBytes 8 0) else .ok s
  let s ← put s 8 (dDword t 2) (t.pos + 1) (leBytes 8 (t.total + n))
  if t.total + n > dDword t 10 then .ok s
  else
    let s ← put s 4 (dDword t 8) t.total (l.ents.flatMap fun e => leBytes 4 e.1)
    let s ← if bitOf ctl 17 then put s 4 (dDword t 12) t.total (l.ents.flatMap fun e => leBytes 4 e.2.1) else .ok s
    if bitOf ctl 18 then put s pb (dDword t 14) t.total (l.ents.flatMap fun e => leBytes pb e.2.2) else .ok s

/-- The next list of a GDUMP (R100). An empty range writes its one row offset; one that ends below its start writes
nothing. -/
def dumpPiece (c : Acc) (t : Task) (g : GEntry) (s : State) : State :=
  let lo := dDword t 4
  let hi := dDword t 6
  if lo + t.pos ≥ hi then
    if t.desc.length > 16 then trapTask s c.p c.tid (graphTrap c 0 8 (dWord t 16))
    else if lo = hi then
      if dDword t 2 % 8 ≠ 0 then bulkStop s c (.fail (memTrap c 0 true 2 3 (dDword t 2) 0))
      else
        let r := rangeWrite s c 3 (dDword t 2) (leBytes 8 0) 4
        match r.1 with
        | .ok _ => bulkDone r.2 c.p c.tid
        | .error f => bulkStop r.2 c f
    else bulkDone s c.p c.tid
  else
    let v := lo + t.pos
    let n := listNo v (bitOf (dWord t 0) 16)
    let a := poolAccess s c g false 0 [n]
    let l := readList a.2 c.p g n
    match a.1, l.1 with
    | some f, _ => bulkStop a.2 c f
    | none, none => trapTask l.2 c.p c.tid (graphTrap c 0 5 v)
    | none, some x =>
      match dumpList c t g x l.2 with
      | .error f => bulkStop l.2 c f
      | .ok s1 =>
        let sum := t.total + x.ents.length
        modTask s1 c.p c.tid fun t =>
          { t with pos := t.pos + 1, total := sum
                   desc := if sum > dDword t 10 ∧ t.desc.length = 16 then t.desc ++ [BitVec.ofNat 32 v] else t.desc }

/-- GDUMP (R100). -/
def execGdump (part tid : Nat) (s : State) : Res := graphBulkStep 5 part tid s dumpPiece

end Sys2Proof.Machine
end

