-- ==== Sys2Proof/Machine/Coop.lean ====
section
/-!
DEFINITION. Group cooperation (R208 to R213) and the generator instructions (R214, R215).
-/

namespace Sys2Proof.Machine

/-- What a cooperative instruction gives one lane: the destination, the predicate, the generator. -/
structure CoopOut where
  lane : Nat
  d    : Nat
  p    : Option Bool
  lg   : Option Dword

/-- The effect of a group-cooperative instruction (R208): one function of the participants and their sources. -/
def coopEffect (fn : State → Iss → List Nat → (Nat → LaneIn) → List CoopOut) (i : Iss) (s : State) : State :=
  let outs := fn s i (participants s i.a i.e) (laneIn s i)
  let ws := outs.flatMap fun o =>
    (destWrites i o.lane o.d).1 ++ (match o.p with | some b => [pWrite o.lane i.e.m.c.toNat b] | none => [])
  let s1 := outs.foldl (fun acc o => match o.lg with | some g => setLg acc i.a.gid o.lane g | none => acc) s
  retireV s1 i ws

/-- The lane that XLANE reads (R209): MODE, segment width, lane, k; none where it is not valid. -/
def xlaneFrom (mode w i k : Nat) : Option Nat :=
  let b := i / w * w
  match mode with
  | 0 => some (b + k % w)
  | 1 => if k < w ∧ b + k ≤ i then some (i - k) else none
  | 2 => if k < w ∧ i + k < b + w then some (i + k) else none
  | _ => some (i ^^^ (k % w))

/-- XLANE: MODE M[9:8], SEG M[12:10]. -/
def coopXlane (_ : State) (i : Iss) (ls : List Nat) (x : Nat → LaneIn) : List CoopOut :=
  let w := 32 / 2 ^ i.e.M 12 10
  ls.map fun l =>
    match (xlaneFrom (i.e.M 9 8) w l (x l).b).filter ls.contains with
    | some j => ⟨l, (x j).a, some true, none⟩
    | none => ⟨l, (x l).a, some false, none⟩

/-- POLL: MODE M[9:8], NEG M[10]. -/
def coopPoll (_ : State) (i : Iss) (ls : List Nat) (x : Nat → LaneIn) : List CoopOut :=
  let word := (maskOf (ls.filter fun l => (x l).pa != (i.e.M 10 10 == 1))).toNat
  let all := (maskOf ls).toNat
  let r := match i.e.M 9 8 with
    | 0 => word != 0
    | 1 => word == all
    | _ => word == 0 || word == all
  ls.map fun l => ⟨l, word, some r, none⟩

/-- The FP32 minimum or maximum of flushed patterns (R211): NaN only if every term is NaN. -/
def fminList (max : Bool) (ps : List Nat) : Nat :=
  match ps.filter fun p => fval 0 p != .nan with
  | [] => canonNan 0
  | p :: r => r.foldl (fminmax 0 max false) p

/-- An integer reduction (R211), OP 0 to 5; the identity for no term. -/
def intReduce (op : Nat) (sg : Bool) (ps : List Nat) : Nat :=
  match op with
  | 0 => ps.foldl (· + ·) 0 % 2 ^ 32
  | 1 => wrapTo 32 (ps.foldl (fun acc p => min acc (asInt 32 sg p)) (intHi 32 sg))
  | 2 => wrapTo 32 (ps.foldl (fun acc p => max acc (asInt 32 sg p)) (intLo 32 sg))
  | 3 => ps.foldl (· &&& ·) 0xFFFFFFFF
  | 4 => ps.foldl (· ||| ·) 0
  | _ => ps.foldl (· ^^^ ·) 0

/-- A reduction of one or more terms with its generator step (R211). -/
def reduceTerms (rc : RCtx) (op : Nat) (sg : Bool) (ps : List Nat) (lg : Dword) : Nat × Option Dword :=
  let fl := ps.map (flushIn rc.ftz 0)
  match op with
  | 6 =>
    let r := roundTo rc 0 (exactSum rc.mode (fl.map (fval 0))) lg
    (r.1, some r.2)
  | 7 => (fminList false fl, none)
  | 8 => (fminList true fl, none)
  | k => (intReduce k sg ps, none)

/-- The identity of a reduction (R211). -/
def reduceIdentity (rc : RCtx) (op : Nat) (sg : Bool) : Nat :=
  match op with
  | 6 => if rc.mode = 3 then 0x80000000 else 0
  | 7 => 0x7F800000
  | 8 => 0xFF800000
  | k => intReduce k sg []

/-- REDUX: OP M[11:8], SGN M[12]; the generator of the lowest-numbered participant. -/
def coopRedux (s : State) (i : Iss) (ls : List Nat) (x : Nat → LaneIn) : List CoopOut :=
  let low := ls.headD 0
  let r := reduceTerms (rctx s i.a 0) (i.e.M 11 8) (i.e.M 12 12 == 1) (ls.map fun l => (x l).a) (x low).lg
  ls.map fun l => ⟨l, r.1, none, if l = low then r.2 else none⟩

/-- SCAN: OP M[11:8], SGN M[12], EXCL M[13]. -/
def coopScan (s : State) (i : Iss) (ls : List Nat) (x : Nat → LaneIn) : List CoopOut :=
  let rc := rctx s i.a 0
  let op := i.e.M 11 8
  let sg := i.e.M 12 12 == 1
  ls.map fun l =>
    let ts := ls.filter fun j => if i.e.M 13 13 = 1 then decide (j < l) else decide (j ≤ l)
    if ts.isEmpty then ⟨l, reduceIdentity rc op sg, none, none⟩
    else
      let r := reduceTerms rc op sg (ts.map fun j => (x j).a) (x l).lg
      ⟨l, r.1, none, r.2⟩

/-- MATCH. -/
def coopMatch (_ : State) (_ : Iss) (ls : List Nat) (x : Nat → LaneIn) : List CoopOut :=
  ls.map fun l =>
    let m := maskOf (ls.filter fun j => (x j).a == (x l).a)
    ⟨l, m.toNat, some (m == maskOf ls), none⟩

/-- Whether key `a` is strictly better than key `b` (R213). -/
def topkBetter (rc : RCtx) (kt : Nat) (small : Bool) (a b : Nat) : Bool :=
  if kt = 0 then
    let va := fval 0 (flushIn rc.ftz 0 a)
    let vb := fval 0 (flushIn rc.ftz 0 b)
    if va == .nan then false
    else if vb == .nan then true
    else if small then xlt va vb else xlt vb va
  else
    let ia := asInt 32 (kt == 1) a
    let ib := asInt 32 (kt == 1) b
    if small then decide (ia < ib) else decide (ib < ia)

/-- TOPK: KT M[9:8], MIN M[10]. -/
def coopTopk (s : State) (i : Iss) (ls : List Nat) (x : Nat → LaneIn) : List CoopOut :=
  let rc := rctx s i.a 0
  let better := topkBetter rc (i.e.M 9 8) (i.e.M 10 10 == 1)
  let pos (l : Nat) : Nat := (ls.filter fun j =>
    better (x j).a (x l).a || (decide (j < l) && !better (x l).a (x j).a)).length
  let m := min (min (x (ls.headD 0)).b 32) ls.length
  ls.map fun l =>
    let d := if l < m then (ls.find? fun j => pos j == l).getD 0xFFFFFFFF else 0xFFFFFFFF
    ⟨l, d, some (decide (pos l < m)), none⟩

/-- RAND: UNIT M[8] (R214). -/
def opRand (_ : State) (i : Iss) (x : LaneIn) : LaneOut :=
  let g := genStep x.lg
  if i.e.M 8 8 = 1 then ⟨roundPattern RCtx.atomic 0 0 (.fin false (g.2 / 256) (-24) false), g.1⟩
  else ⟨g.2, g.1⟩

/-- PRUNE's elements, ascending (R215): width, count, threshold. -/
def pruneGo (w n th a : Nat) (lg : Dword) : Nat × Dword :=
  match n with
  | 0 => (0, lg)
  | k + 1 =>
    let g := genStep lg
    let r := pruneGo w k th (a / 2 ^ w) g.1
    ((if g.2 < th then 0 else a % 2 ^ w) + 2 ^ w * r.1, r.2)

/-- PRUNE: ES M[9:8]. -/
def opPrune (_ : State) (i : Iss) (x : LaneIn) : LaneOut :=
  let w := 32 / 2 ^ i.e.M 9 8
  let r := pruneGo w (32 / w) x.b x.a x.lg
  ⟨r.1, r.2⟩

/-- XLANE (R209). -/
def execXlane (e : Enc) (s : State) : Res := issue formXlane e s (coopEffect coopXlane)
/-- POLL (R210). -/
def execPoll (e : Enc) (s : State) : Res := issue formPoll e s (coopEffect coopPoll)
/-- REDUX (R211). -/
def execRedux (e : Enc) (s : State) : Res := issue formRedux e s (coopEffect coopRedux)
/-- SCAN (R211). -/
def execScan (e : Enc) (s : State) : Res := issue formScan e s (coopEffect coopScan)
/-- MATCH (R212). -/
def execMatchB (e : Enc) (s : State) : Res := issue formMatchB e s (coopEffect coopMatch)
/-- TOPK (R213). -/
def execTopk (e : Enc) (s : State) : Res := issue formTopk e s (coopEffect coopTopk)
/-- RAND (R214). -/
def execRand (e : Enc) (s : State) : Res := execLane formRand opRand e s
/-- PRUNE (R215). -/
def execPrune (e : Enc) (s : State) : Res := execLane formPrune opPrune e s

end Sys2Proof.Machine
end

