-- ==== Sys2Proof/Machine/Debug.lean ====
section
/-!
DEFINITION. Debugger halts (R373), soft errors and their strikes (R374, R375), and the task that finds no frame (R360).
-/

namespace Sys2Proof.Machine

/-- Firmware runs on the management processor, unless boot has failed (R392). -/
def fwRuns (s : State) : Bool := s.mgmt.boot != .failed

/-- Notices of a halt ring (R373). -/
def dbgSlots (q : Partition) : Nat := 2 ^ (if 4 ≤ q.dbgrlen ∧ q.dbgrlen ≤ 12 then q.dbgrlen else 4)

/-- The halt ring has room. -/
def dbgRoom (q : Partition) : Bool := (q.dbgput + 2 ^ 32 - q.dbgget) % 2 ^ 32 != dbgSlots q

/-- A halt notice: 64 bytes. -/
def haltNotice (t : Team) (g : Group) (gid cause : Nat) (pc : Word) : List Byte :=
  padTo 64 (wordsBytes [t.tid] ++ leBytes 8 t.linear
    ++ wordsBytes [g.w1, gid, dieOf t.core + t.core % 64 * 2 ^ 2 + quadrantOf t g.w1 * 2 ^ 9, pc.toNat, cause])

/-- Step 4 of a halt: the notice is written and PUT advances, when the ring has room. A ring in a granule that the partition does not
hold takes none: firmware learns of it (R387). -/
def writeNotice (s : State) (gid cause : Nat) (pc : Word) : State :=
  let t := getTeam s (teamKey gid)
  let q := getPart s t.part
  if dbgRoom q then
    let a := q.dbgring + 64 * (q.dbgput % dbgSlots q)
    let s2 := if holdsPhys s t.part a then
        modPart (homeWrite s ((rangeFrom a 64).zip (haltNotice t (getGroup s gid) gid cause pc)) 0) t.part fun q =>
          { q with dbgput := (q.dbgput + 1) % 2 ^ 32 }
      else reportFault s t.part ⟨13, 1, BitVec.ofNat 32 (a / 64), BitVec.ofNat 32 (a / 2 ^ 33), 0xFFFFFFFF#32⟩
    modGroup s2 gid fun g => { g with halt := .halted gid }
  else s

/-- DEBUG_HALT (R373): a drained group's state goes to its record, and its notice to the ring once there is room. -/
def execDebugHalt (gid : Nat) (s : State) : Res :=
  match mfind s.groups gid with
  | none => .next s
  | some g =>
    if g.res ≠ .resident then .next s
    else
      match g.halt with
      | .stopping cause pc =>
        if drained g then
          (match saveCtx s gid gid with
           | some s1 => .next (writeNotice (modGroup s1 gid fun g => { g with halt := .waiting cause pc }) gid cause pc)
           | none => .next s)
        else .next s
      | .waiting cause pc => .next (writeNotice s gid cause pc)
      | _ => .next s

/-- The groups of a partition, by key. -/
def groupsIn (s : State) (p : Nat) : List Nat :=
  (mkeys s.groups).filter fun g => (getTeam s (teamKey g)).part == p && mhas s.teams (teamKey g)

/-- Every group of a partition is asked to halt. -/
def haltAll (s : State) (p : Nat) : State := (groupsIn s p).foldl (fun acc g => haltGroup acc g 2 0xFFFFFFFF#32) s

/-- DBGCTL_HALT (R373). -/
def execDbgctlHalt (part : Nat) (s : State) : Res := .next (if fwRuns s then haltAll s part else s)

/-- The record slot of a halted group. -/
def haltSlot (g : Group) : Option Nat := match g.halt with | .halted k => some k | _ => none

/-- A halted group resumes from its record; an evicted one goes on after its return. A team that stops stays stopped. -/
def resumeHalted (s : State) (gid : Nat) : State :=
  let g := getGroup s gid
  let tm := getTeam s (teamKey gid)
  let stopping := (getTask s tm.part tm.tid).st != .released
  match haltSlot g with
  | none => s
  | some slot =>
    if g.res = .resident then
      match restoreCtx s gid slot with
      | none => s
      | some s1 => modGroup s1 gid fun g =>
          let g1 := { g with halt := .running }
          if stopping then g1 else resumeSplits g1
    else modGroup s gid fun g => { g with halt := .running }

/-- A write of DBGRES: the slot of a record (R347, R385), or all ones for every halted group. -/
def resumeSlot (s : State) (p : Nat) (v : Word) : State :=
  ((groupsIn s p).filter fun g => v == 0xFFFFFFFF#32 || haltSlot (getGroup s g) == some v.toNat).foldl resumeHalted s

/-- DBGRES_WRITE (R373). -/
def execDbgresWrite (part : Nat) (v : Word) (s : State) : Res := .next (if fwRuns s then resumeSlot s part v else s)

/-- CORRECTABLE_ERROR (R374, R406). -/
def execCorrectableError (s : State) : Res :=
  .next { s with mgmt := { s.mgmt with cec := min 0x7FFF (s.mgmt.cec + 1) } }

/-- A unit of a core, in the layout of HW details (R365). -/
def hwUnit (core : Nat) : Word := BitVec.ofNat 32 (dieOf core + core % 64 * 2 ^ 2)

/-- The tasks with a team on a core. -/
def tasksOn (s : State) (core : Nat) : List (Nat × Nat) := ((teamsOn s core).map fun t => (t.2.part, t.2.tid)).eraseDups

/-- A block is marked poisoned (R374). -/
def poisonBlock (s : State) (dram : Bool) (pa : Nat) : State :=
  if pa < 2 ^ 38 then { s with poison := mset s.poison (canonA s pa / 512) ⟨dram, []⟩ } else s

/-- UNCORRECTABLE_ERROR (R374, R375). The unit and location that ENGINE names are not stated: free values. -/
def execUncorrectableError (site : ErrSite) (s : State) : Res :=
  match site with
  | .cleanCopy => .next s
  | .icache => .next s
  | .dirtyL2 pa => .next (poisonBlock s false pa)
  | .dram pa => .next (poisonBlock s true pa)
  | .reg gid reg lane =>
    let t := getTeam s (teamKey gid)
    .next (if mhas s.groups gid then
      strikeTask s t.part t.tid ⟨9, 4, hwUnit t.core, BitVec.ofNat 32 (32 * reg + lane), 0⟩ else s)
  | .scratch tm off =>
    let core := (getTeam s tm).core
    .next (if mhas s.teams tm then
      (tasksOn s core).foldl (fun acc k => strikeTask acc k.1 k.2 ⟨9, 1, hwUnit core, BitVec.ofNat 32 off, 0⟩) s else s)
  | .engine part tid =>
    let k := s.fresh
    .next (strikeTask { s with fresh := k + 2 } part tid
      ⟨9, 6, BitVec.ofNat 32 (Config.freeChoice k % 512), BitVec.ofNat 32 (Config.freeChoice (k + 1)), 0⟩)

/-- A task's held operation ends without its access: it may drain (R163). -/
def dropOps (s : State) (p tid : Nat) (t : TrapRec) : State :=
  let mine (h : HeldAcc) : Bool := h.tid == tid
  let ops := ((getPart s p).held.filter mine).filterMap fun h => match h.who with
    | .op g o => some (g, o)
    | .resq g o => some (g, o)
    | _ => none
  let fault (g : Group) (o : Nat) : Group :=
    { g with ops := g.ops.map fun x => if x.id = o then { x with stage := .faulted t } else x }
  let s1 := ops.foldl (fun acc x => modGroup acc x.1 fun g => fault g x.2) s
  let umber := ((getPart s p).held.filter mine).filterMap fun h => match h.who with
    | .umber tk slot seq => some (tk, slot, seq)
    | _ => none
  let s2 := umber.foldl (fun acc x => modTeam acc x.1 fun tm =>
    { tm with chains := mmod tm.chains x.2.1 fun c => { c with running := c.running.filter fun r => r.seq != x.2.2 } }) s1
  modPart s2 p fun q => { q with held := q.held.filter fun h => !mine h }

/-- What an operation that is not performed yet would touch: lane and address. -/
def heldTouches (s : State) (c : Acc) (o : Op) : List (Nat × Nat) :=
  let of (i : Instr) (cap : Capture) : List (Nat × Nat) := (touches s c i cap).map fun x => (x.1, x.2.1)
  match o.stage with
  | .held i cap => of i cap
  | .pieces ps _ _ => ps.flatMap fun p => of p.1 p.2
  | .resq cap => cap.addr
  | _ => []

/-- The lowest lane of a held operation whose address lies in the page of an address (R366). -/
def heldLane (s : State) (c : Acc) (o : Op) (va : Nat) : Nat :=
  ((heldTouches s c o).filter fun x => heldBase s c.p x.2 == heldBase s c.p va).foldl
    (fun m x => min m x.1) 32 % 32

/-- Word 2 of a command slot and sequence (R366). -/
def slotWord (slot seq : Nat) : Word := BitVec.ofNat 32 (slot + 2 * (seq % 2 ^ 31))

/-- The command of a slot that a CQADV reads at an address (R366): the first of those after TAIL whose CTL lies in its page. -/
def advanceSeq (s : State) (gid slot va : Nat) : Nat :=
  let ch := chainOf s (teamKey gid) slot
  match ch.bound with
  | none => 0
  | some b =>
    ((rangeFrom (ch.tail + 1) (2 ^ b.2.1)).find? fun q => slotVa b.1 b.2.1 q / 2 ^ 16 == va / 2 ^ 16).getD (ch.tail + 1)

/-- L of a held code fetch (R364): of an instruction whose control word can be read, the set is that word's. -/
def fetchLoc (s : State) (gid age : Nat) : Word :=
  match (getGroup s gid).splits.findIdx? (·.age == age) with
  | none => 0
  | some k =>
    match atOf s gid k with
    | none => 0
    | some a => locWord a.sp.pc (fetchSet s a)

/-- The trap MEM, NOFRAME of a held access (R366). -/
def noframeTrap (s : State) (p : Nat) (h : HeldAcc) : TrapRec :=
  let op : Option Op := match h.who with
    | .op g o => (getGroup s g).ops.find? (·.id == o)
    | .resq g o => (getGroup s g).ops.find? (·.id == o)
    | _ => none
  let w2 : Word := match h.who, op.map (·.stage) with
    | .op _ _, some (Stage.cqinit slot _) => if h.source = 1 then slotWord slot 0 else (op.map (·.loc)).getD 0
    | .op g _, some (Stage.cqadv slot _) => if h.source = 1 then slotWord slot (advanceSeq s g slot h.va) else (op.map (·.loc)).getD 0
    | .op _ _, _ => (op.map (·.loc)).getD 0
    | .resq _ _, _ => (op.map (·.loc)).getD 0
    | .fetch g k, _ => fetchLoc s g k
    | .umber _ slot seq, _ => slotWord slot seq
    | _, _ => 0xFFFFFFFF#32
  let src : Nat := match h.source with | 0 => 0 | 1 => 1 | 4 => 2 | _ => 3
  let c : Acc := ⟨p, h.tid, h.core, 0, none, src, if src < 2 then w2 else 0xFFFFFFFF#32⟩
  memTrap c ((op.map fun o => heldLane s c o h.va).getD 0) h.write 2 9 (heldBase s p h.va) 0

/-- NOFRAME_STOP (R360): the task of a held access that no frame can be found for is KILLED with MEM, NOFRAME. -/
def execNoframeStop (part tid va : Nat) (s : State) : Res :=
  match (getPart s part).held.find? fun h => h.tid == tid && heldBase s part h.va == heldBase s part va with
  | some h =>
    if fwRuns s && (findTask s part tid).isSome then
      let t := noframeTrap s part h
      .next (dropOps (trapTask s part tid t) part tid t)
    else .next s
  | none => .next s

end Sys2Proof.Machine
end

