-- ==== Sys2Proof/Machine/Firmware.lean ====
section
/-!
DEFINITION. What firmware and the host do to the device through memory and the ports that act on translations: shoot-downs
(R363, R403), migrations (R361, R362), memory writes (R114, R401), memory keys (R395).
-/

namespace Sys2Proof.Machine

/-- The management space changed. -/
def modMgmt (s : State) (f : Mgmt → Mgmt) : State := { s with mgmt := f s.mgmt }

/-- The cores that a partition holds, ascending (R376). -/
def heldCores (s : State) (p : Nat) : List Nat := (List.range 256).filter fun n => bitOf (getPart s p).cg (n / 4)

/-- The TLBs of a partition's cores, and of the dies where it holds a core, a slice or a channel, its lead die among them, which
Carmine uses for it (R363). -/
def partTlbs (s : State) (p : Nat) : List TlbId :=
  let q := getPart s p
  (heldCores s p).map TlbId.core ++ ((List.range 4).filter fun d => onDie q d || d == q.lead).map TlbId.die

/-- A shoot-down whose every TLB has acknowledged is over; one of the whole partition puts the table roots in force that were
written when it began (R349). -/
def downDone (s : State) (d : Shootdown) : State :=
  if d.all then modPart s d.part fun q => { q with troot := d.troot, s2base := d.s2base } else s

/-- A shoot-down is submitted, unless one is in progress (R403). -/
def submitDown (s : State) (addr : Nat) (ctl : Word) : State :=
  if !s.mgmt.down.isEmpty then s
  else
    let p := ctl.toNat % 8
    let q := getPart s p
    let d : Shootdown := ⟨p, ctl.getLsbD 3, ctl.getLsbD 4, addr, partTlbs s p, true, q.trootReg, q.s2Reg⟩
    if d.pending.isEmpty then downDone s d else modMgmt s fun m => { m with down := [d] }

/-- SHOOTDOWN_SUBMIT (R403). -/
def execShootdownSubmit (addr : Dword) (ctl : Word) (s : State) : Res :=
  .next (if fwRuns s then submitDown s addr.toNat ctl else s)

/-- A TLB that a core's accesses translate through. -/
def usesTlb (core : Nat) (t : TlbId) : Bool := match t with | .core n => n == core | .die d => d == dieOf core

/-- A piece of an access that has translated through an entry that a shoot-down names, and is not performed yet (R363). What a
graph operation has translated is its pool. -/
def pieceUses (s : State) (d : Shootdown) (gid : Nat) (p : Instr × Capture) : Bool :=
  let tm := getTeam s (teamKey gid)
  tm.part == d.part && (isGraph p.1 || p.2.checked.any fun x =>
    x.leaf.any fun l => downCovers d ⟨.core tm.core, 0, teamKey gid, tm.part, pageBase l x.va, l⟩)

/-- Accesses that have translated through what a shoot-down names have not reached their homes (R363). -/
def inFlight (s : State) (d : Shootdown) (tlb : TlbId) : Bool :=
  s.groups.any fun g => usesTlb (getTeam s (teamKey g.1)).core tlb && g.2.ops.any fun o =>
    match o.stage with
    | .pieces ps _ _ => ps.any (pieceUses s d g.1)
    | _ => false

/-- TLB_ACK (R363): a TLB drops what the shoot-down names and acknowledges, once every access translated through it has reached
its home. -/
def execTlbAck (tlb : TlbId) (s : State) : Res :=
  match s.mgmt.down with
  | [] => .next s
  | d :: rest =>
    if !d.pending.contains tlb || inFlight s d tlb then .next s
    else
      let s1 := { s with tlb := s.tlb.filter fun t => !(t.at_ == tlb && downCovers d t) }
      let left := d.pending.filter (· != tlb)
      if left.isEmpty then .next (downDone (modMgmt s1 fun m => { m with down := rest }) d)
      else .next (modMgmt s1 fun m => { m with down := { d with pending := left } :: rest })

/-- A dword of a descriptor, at a word offset. -/
def wDword (d : List Word) (i : Nat) : Nat := (d.getD i 0).toNat + 2 ^ 32 * (d.getD (i + 1) 0).toNat

/-- The TAG of the second-stage entry that names the region of a host physical address (R353). -/
def tagOf (s : State) (pa : Nat) : Option Nat :=
  ((mkeys s.parts).flatMap fun p => (List.range (2 ^ 17)).filterMap fun k =>
    let e := s2Entry s p (k * 2 ^ 21)
    if s2Ok e && bitsOf e 37 21 == pa / 2 ^ 21 then some (bitsOf e 55 53) else none).head?

/-- A migration descriptor is refused (R361, R403). -/
def migBad (s : State) (d : List Word) : Bool :=
  let len := (d.getD 4 0).toNat
  s.mgmt.mig.isSome || len == 0 || len % 64 != 0 || wDword d 0 % 64 != 0 || wDword d 2 % 64 != 0
  || (d.getD 5 0).toNat / 2 ^ 16 != 0 || (d.getD 6 0) != 0 || (d.getD 7 0) != 0
  || (match tagOf s (wDword d 0), tagOf s (wDword d 2) with | some a, some b => a != b | _, _ => false)

/-- A migration is submitted: COPY begins, or ERR is set. -/
def submitMig (s : State) (d : List Word) : State :=
  if migBad s d then modMgmt s fun m => { m with migerr := true }
  else
    let k := (d.getD 5 0).toNat
    modMgmt s fun m => { m with mig := some ⟨wDword d 0, wDword d 2, (d.getD 4 0).toNat, k % 256, k / 256 % 256, 1, 0⟩ }

/-- MIGRATION_SUBMIT (R361). -/
def execMigrationSubmit (desc : List Word) (s : State) : Res := .next (if fwRuns s then submitMig s desc else s)

/-- Keys in a range move to another. -/
def moveKeys {α : Type} (m : SMap α) (lo n dst : Nat) (f : α → α) : SMap α :=
  m.foldl (fun acc e => if lo ≤ e.1 ∧ e.1 < lo + n then mset (mdel acc e.1) (dst + (e.1 - lo)) (f e.2) else acc) m

/-- Line numbers that a group keeps, or that a task's version holds, after a move. -/
def moveLines (f : Nat → Nat) (s : State) : State :=
  { s with
    groups := s.groups.map fun g => (g.1, { g.2 with dirty := g.2.dirty.map f, reads := g.2.reads.map fun x => (x.1, x.2.1, f x.2.2) })
    parts := s.parts.map fun q => (q.1, { q.2 with window := q.2.window.map fun t => { t with lines := t.lines.map f } }) }

/-- What the old home keeps for a block besides its bytes goes with it (R361): version tags, scope records, poison, and
the directory's SI copies; a copy of a converted page is dropped (log 49). What groups note about its lines follows (R118). -/
def moveTags (s0 : State) (lo n dst knew : Nat) : State :=
  let s := moveLines (fun x => if lo / 64 ≤ x ∧ x < (lo + n) / 64 then dst / 64 + (x - lo / 64) else x) s0
  let ver (t : Task) : Task := { t with ver := moveKeys t.ver lo n dst fun b => (b.1, knew) }
  let si (m : SMap Byte) : SMap Byte := (List.range 256).foldl (fun acc c => moveKeys acc (siCore c + lo) n (siCore c + dst) id) m
  let s := dropSectors s fun k => siView k != 0 && (siPhys s k).any fun a => decide (lo ≤ a) && decide (a < lo + n)
  { s with
    parts := s.parts.map fun q => (q.1, { q.2 with window := q.2.window.map ver })
    scopes := moveKeys s.scopes (lo / 64) (n / 64) (dst / 64) id
    poison := moveKeys s.poison (lo / 512) 1 (dst / 512) id
    si := si s.si }

/-- BLOCK_HANDOVER (R361): the next 512-byte block goes to the new home; with the last one the migration is in FORWARD. -/
def execBlockHandover (s : State) : Res :=
  match s.mgmt.mig with
  | none => .next s
  | some m =>
    if m.state ≠ 1 then .next s
    else
      let lo := m.old + m.pos
      let n := min (m.len - m.pos) (512 - lo % 512)
      let dst := m.new + m.pos
      let grains := (s.own.filter fun g => decide (g.1 < lo + n) && decide (lo < g.1 + g.2.size)).map Prod.fst
      let s1 := grains.foldl recallGrain s
      let bytes := (rangeFrom lo n).map fun a => physByte s1 a m.kold
      let s2 := (rangeFrom dst n).zip bytes |>.foldl (fun acc x => physWriteByte acc x.1 m.knew x.2) s1
      let s3 := moveTags s2 lo n dst m.knew
      .next (modMgmt s3 fun g =>
        { g with mig := some { m with pos := m.pos + n, state := if m.pos + n = m.len then 2 else 1 } })

/-- REQUEST_FORWARD (R362): a forwarded request is performed at the new home, behind earlier ones for its block. -/
def execRequestForward (idx : Nat) (s : State) : Res :=
  match s.mgmt.reqs[idx]? with
  | none => .next s
  | some r =>
    if (s.mgmt.reqs.take idx).any fun x => x.pa / 512 == r.pa / 512 then .next s
    else .next (performReq (modMgmt s fun m => { m with reqs := m.reqs.eraseIdx idx }) r)

/-- Graph pools lie where their pages have moved (R81). -/
def movePools (s : State) (m : Migration) : State :=
  let to_ (a : Nat) : Nat := if m.old ≤ a ∧ a < m.old + m.len then m.new + (a - m.old) else a
  { s with pools := s.pools.map fun q =>
      { q with frames := q.frames.map fun f => (f.1, to_ f.2), edited := q.edited.map to_ } }

/-- The key of a converted page's line after its frame has moved (R118). -/
def movedLine (m : Migration) (x : Nat) : Nat :=
  let f := x % 2 ^ 80 / 2 ^ 15
  if 2 ^ 80 ≤ x ∧ m.old ≤ f ∧ f < m.old + m.len then x / 2 ^ 80 * 2 ^ 80 + (m.new + (f - m.old)) * 2 ^ 15 + x % 2 ^ 15 else x

/-- Lines of converted pages are known by the new frame from now on. -/
def moveViews (s : State) (m : Migration) : State :=
  moveLines (movedLine m) { s with scopes := s.scopes.foldl (fun acc x => mset acc (movedLine m x.1) x.2) [] }

/-- MAPPED written: in FORWARD the migration retires (R403). -/
def retireMig (s : State) : State :=
  match s.mgmt.mig with
  | some m => if m.state = 2 then modMgmt (moveViews (movePools (forwardAll s) m) m) fun g => { g with mig := none } else s
  | none => s

/-- MIGSTAT_MAPPED (R403). -/
def execMigstatMapped (s : State) : Res := .next (if fwRuns s then retireMig s else s)

/-- Lines written by a host or by another device record .sys, as lines filled from memory do (R68). -/
def sysLines (s : State) (lines : List Nat) : State := { s with scopes := lines.foldl mdel s.scopes }

/-- Bytes written by host physical address and key id, past every first-stage translation (R68, R76, R169). -/
def physWrite (s : State) (pa key : Nat) (data : List Byte) : State :=
  let at_ := (rangeFrom pa data.length).map (canonA s)
  let s1 := (mkeys s.parts).foldl (fun acc p => noteCode acc p at_) s
  let s2 := dropViews (homeWrite s1 ((rangeFrom pa data.length).zip data) key) (viewLeaf pa 0) at_
  sysLines s2 ((at_.map (· / 64)).eraseDups)

/-- FIRMWARE_MEMORY_WRITE (R401, R398): device memory by host physical address, with key id 0, or a domain-table entry. -/
def execFirmwareMemoryWrite (what : FwTarget) (data : List Byte) (s : State) : Res :=
  if !fwRuns s then .next s
  else
    match what with
    | .phys pa =>
      .next (if pa + data.length ≤ 2 ^ 38 then physWrite s pa 0 data else s)
    | .domain d p target =>
      .next (if d < 64 ∧ p < 8 then modMgmt s fun m =>
        { m with domains := match target with | some t => mset m.domains (8 * d + p) t | none => mdel m.domains (8 * d + p) }
        else s)

/-- HOST_MEMORY_WRITE (R114): the host writes device memory through one of its two links. A write that the tables do not
take is not performed. -/
def execHostMemoryWrite (link part va : Nat) (data : List Byte) (s : State) : Res :=
  if 2 ≤ link ∨ 8 ≤ part ∨ !(getPart s part).en then .next s
  else
    let w := rangeWrite s (carmineAcc s part) 4 va data 4
    match w.1 with
    | .ok lines => .next (sysLines w.2 lines)
    | .error _ => .next s

/-- The channel granules that a partition holds. -/
def heldChans (s : State) (p : Nat) : List Nat := (List.range 32).filter fun g => bitOf (getPart s p).hg g

/-- The 64-byte key pair of a job whose secret came encrypted to the key of a report (R395): PART and the key id are one byte
each. -/
def jobKey (report part key : Nat) (peer secret : List Byte) : List Byte :=
  shake256 (Config.x448Shared report peer ++ secret ++ [BitVec.ofNat 8 part, BitVec.ofNat 8 key])

/-- KEY_LOAD (R395): after a report that firmware has made, the pair goes to the slot of every channel granule that the
partition holds. -/
def execKeyLoad (part key : Nat) (peer : List Byte) (secret : Secret) (s : State) : Res :=
  if fwRuns s && decide (1 ≤ key) && decide (key < 256) && decide (part < 8)
      && decide (1 ≤ secret.report) && decide (secret.report ≤ s.mgmt.reports) then
    let pair := jobKey secret.report part key peer secret.data
    .next (modMgmt s fun m =>
      { m with keys := (heldChans s part).foldl (fun k g => mset k (256 * g + key) pair) m.keys })
  else .next s

/-- KEY_SLOT_ERASE (R395). -/
def execKeySlotErase (part key : Nat) (s : State) : Res :=
  if fwRuns s then
    .next (modMgmt s fun m => { m with keys := (heldChans s part).foldl (fun k g => mdel k (256 * g + key)) m.keys })
  else .next s

end Sys2Proof.Machine
end

