-- ==== Sys2Proof/Machine/Resize.lean ====
section
/-!
DEFINITION. Resizes: the port (R382, R403), the protocol (R383, R384), homes inside a partition (R381, R386), moves of teams
(R385) and the scrub (R388).
-/

namespace Sys2Proof.Machine

/-- The masks of a party of a resize: a partition's granules, the pool (8) or quarantine (9). -/
def masksOf (s : State) (x : Nat) : Nat × Nat × Nat :=
  if x = 8 then s.mgmt.pool
  else if x = 9 then s.mgmt.quar
  else let q := getPart s x; (q.cg, q.sg, q.hg)

/-- The masks of a party set. -/
def setMasks (s : State) (x : Nat) (m : Nat × Nat × Nat) : State :=
  if x = 8 then modMgmt s fun g => { g with pool := m }
  else if x = 9 then modMgmt s fun g => { g with quar := m }
  else modPart s x fun q => { q with cg := m.1, sg := m.2.1, hg := m.2.2 }

/-- A mask without some of its bits. -/
def maskOff (a b : Nat) : Nat := a &&& (2 ^ 64 - 1 - b % 2 ^ 64)

/-- Masks taken out of masks. -/
def masksOff (a b : Nat × Nat × Nat) : Nat × Nat × Nat := (maskOff a.1 b.1, maskOff a.2.1 b.2.1, maskOff a.2.2 b.2.2)

/-- Masks added to masks. -/
def masksOn (a b : Nat × Nat × Nat) : Nat × Nat × Nat := (a.1 ||| b.1, a.2.1 ||| b.2.1, a.2.2 ||| b.2.2)

/-- Masks that lie inside masks. -/
def masksIn (a b : Nat × Nat × Nat) : Bool := a.1 &&& b.1 == a.1 && a.2.1 &&& b.2.1 == a.2.1 && a.2.2 &&& b.2.2 == a.2.2

/-- At least one granule of each kind (R377). -/
def allKinds (m : Nat × Nat × Nat) : Bool := m.1 != 0 && m.2.1 != 0 && m.2.2 != 0

/-- A resize descriptor (R382): the giver and the receiver are bytes 0 and 1. -/
def resizeOf (d : List Word) : Resize where
  src := (d.getD 0 0).toNat % 256
  dst := (d.getD 0 0).toNat / 256 % 256
  cores := wDword d 2
  slices := wDword d 4
  chans := (d.getD 6 0).toNat
  state := 1
  planS := []
  planC := []

/-- The masks that move. -/
def Resize.masks (r : Resize) : Nat × Nat × Nat := (r.cores, r.slices, r.chans)

/-- A party is in a resize. -/
def inResize (s : State) (p : Nat) : Bool := s.mgmt.resizes.any fun r => r.src == p || r.dst == p

/-- FORM of R382. -/
def resizeForm (d : List Word) (r : Resize) : Bool :=
  r.src == r.dst || decide (8 < r.src) || decide (9 < r.dst) || (d.getD 0 0).toNat / 2 ^ 16 != 0 || d.getD 1 0 != 0
  || decide (2 ^ 48 ≤ r.slices) || d.getD 7 0 != 0

/-- The refusal code of a resize, 0 for none (R382): FORM, BUSY, HELD, MINIMUM, in this order. -/
def resizeErr (s : State) (d : List Word) : Nat :=
  let r := resizeOf d
  if resizeForm d r then 4
  else if inResize s r.src || inResize s r.dst then 3
  else if !masksIn r.masks (masksOf s r.src) then 1
  else if r.src < 8 && (getPart s r.src).en && !allKinds (masksOff (masksOf s r.src) r.masks) then 2
  else 0

/-- A resize is submitted (R382, R403): accepted, or refused with ERR in the RSZSTAT of SRC, or of DST where SRC is the
pool. -/
def submitResize (s : State) (d : List Word) : State :=
  let r := resizeOf d
  let e := resizeErr s d
  if e ≠ 0 then
    let at_ := if r.src = 8 then r.dst else r.src
    if at_ < 8 then modPart s at_ fun q => { q with rerr := e } else s
  else
    let s1 := if r.src < 8 then modPart s r.src fun q => { q with rrole := false, rstate := 1 } else s
    modMgmt s1 fun m => { m with resizes := m.resizes ++ [r] }

/-- RESIZE_SUBMIT (R382). -/
def execResizeSubmit (desc : List Word) (s : State) : Res := .next (if fwRuns s then submitResize s desc else s)

/-- The units of a kind that a mask of granules names, `n` units each. -/
def unitsOf (n mask : Nat) : List Nat := ((List.range 64).filter (bitOf mask)).flatMap fun g => rangeFrom (n * g) n

/-- The bucket's home; one that no member is home of is at the lowest member. -/
def bucketHome (map : SMap Nat) (members : List Nat) (b : Nat) : Nat :=
  match mfind map b with
  | some h => if members.contains h then h else members.headD 0
  | none => members.headD 0

/-- How many buckets each member has. -/
def bucketCounts (n : Nat) (map : SMap Nat) (members : List Nat) : SMap Nat :=
  (List.range n).foldl (fun m b => let h := bucketHome map members b; mset m h (mget m h 0 + 1)) []

/-- The member with the fewest buckets, the lowest on a tie. -/
def fewest (counts : SMap Nat) (members : List Nat) : Nat :=
  members.foldl (fun b x => if mget counts x 0 < mget counts b 0 then x else b) (members.headD 0)

/-- The member with the most buckets, the lowest on a tie. -/
def most (counts : SMap Nat) (members : List Nat) : Nat :=
  members.foldl (fun b x => if mget counts b 0 < mget counts x 0 then x else b) (members.headD 0)

/-- Where the buckets of leaving members go (R381), in ascending bucket order. -/
def leavePlan (n : Nat) (map : SMap Nat) (members leaving : List Nat) : SMap Nat :=
  let stay := members.filter fun x => !leaving.contains x
  if leaving.isEmpty ∨ stay.isEmpty then []
  else
    ((List.range n).foldl (fun (acc : SMap Nat × SMap Nat) b =>
      let h := bucketHome map members b
      if leaving.contains h then
        let t := fewest acc.1 stay
        (mset acc.1 t (mget acc.1 t 0 + 1), mset acc.2 b t)
      else acc) (bucketCounts n map members, [])).2

/-- The buckets that joining members take (R381): one at a time, the joiner with the fewest from the member with the most,
its highest-numbered first, until the counts differ by at most one. -/
def joinGo (fuel n : Nat) (map : SMap Nat) (members joining : List Nat) (plan counts : SMap Nat) : SMap Nat :=
  match fuel with
  | 0 => plan
  | k + 1 =>
    let hi := most counts members
    let lo := fewest counts joining
    if mget counts hi 0 ≤ mget counts lo 0 + 1 then plan
    else
      match ((List.range n).reverse).find? fun b => (mfind plan b).getD (bucketHome map members b) == hi with
      | none => plan
      | some b =>
        joinGo k n map members joining (mset plan b lo)
          (mset (mset counts hi (mget counts hi 0 - 1)) lo (mget counts lo 0 + 1))

/-- The plan of a join. -/
def joinPlan (n : Nat) (map : SMap Nat) (members joining : List Nat) : SMap Nat :=
  if joining.isEmpty then [] else joinGo n n map members joining [] (bucketCounts n map members)

/-- Slices of a partition. -/
def sliceUnits (q : Partition) : List Nat := unitsOf 4 q.sg

/-- Celadon controllers of a partition (R376). -/
def ctrlUnits (q : Partition) : List Nat := unitsOf 2 q.hg

/-- The maps of a partition with every home written out; without members a map names nothing. -/
def fixMaps (q : Partition) : Partition :=
  let full (n : Nat) (map : SMap Nat) (ms : List Nat) : SMap Nat :=
    if ms.isEmpty then [] else (List.range n).map fun b => (b, bucketHome map ms b)
  { q with slices := full 4096 q.slices (sliceUnits q), ctrls := full 256 q.ctrls (ctrlUnits q) }

/-- Teams on the leaving cores of a giver. -/
def leavingTeams (s : State) (r : Resize) : List (Nat × Team) :=
  s.teams.filter fun t => t.2.part == r.src && bitOf r.cores (t.2.core / 4)

/-- A channel granule holds a host physical address. -/
def inChans (chans pa : Nat) : Bool := bitOf chans (pa / 2 ^ 33)

/-- The leaving channel granules whose pages can be moved (R384); of those that go to quarantine with a dropped die, what cannot be
moved stays named (R391). -/
def movable (s : State) (r : Resize) : Nat :=
  if r.dst = 9 then (List.range 32).foldl (fun m g => if stranded s r.src g then maskOff m (2 ^ g) else m) r.chans else r.chans

/-- A second-stage entry or a register of a partition names a leaving channel granule (R384). A register that is zero names
nothing. -/
def namesChans (s : State) (p chans : Nat) : Bool :=
  let q := getPart s p
  ([q.s2base, q.s2Reg, q.fbbase, q.otbase, q.dbgring].any fun a => a != 0 && inChans chans a)
  || (List.range (2 ^ 17)).any fun k =>
    let e := s2Entry s p (k * 2 ^ 21)
    bitOf e 0 && inChans chans (bitsOf e 37 21 * 2 ^ 21)

/-- The exit condition of a state (R384, R391). -/
def resizeExit (s : State) (r : Resize) : Bool :=
  match r.state with
  | 1 => true
  | 2 => decide (8 ≤ r.src) || (leavingTeams s r).isEmpty
  | 3 => r.planS.isEmpty && r.planC.isEmpty
  | 4 => decide (8 ≤ r.src) || movable s r == 0 || !namesChans s r.src (movable s r)
  | 5 => true
  | _ => r.planS.isEmpty && r.planC.isEmpty

/-- The leaving cores are scrubbed (R388). -/
def scrubCores (s : State) (cores : Nat) : State :=
  let hit (n : Nat) : Bool := bitOf cores (n / 4)
  let grains := (s.own.filter fun g => hit g.2.core).map Prod.fst
  let s1 := grains.foldl recallGrain s
  { s1 with
    cores := s1.cores.map fun c => if hit c.1 then (c.1, { Core.reset with base := c.2.base, gated := c.2.gated }) else c
    si := s1.si.filter fun e => !hit (e.1 / 2 ^ 100)
    tlb := s1.tlb.filter fun t => match t.at_ with | .core n => !hit n | .die _ => true }

/-- The leaving channel granules are zeroed with what lay in them, their key slots erased, the forwarding entries retired, and
no translation, copy or version line names them (R388). -/
def scrubChans (s : State) (p chans : Nat) : State :=
  if chans = 0 then s
  else
    let out (a : Nat) : Bool := !inChans chans a
    let line (k : Nat) : Bool := if k < 2 ^ 80 then out (64 * k) else (linePhys s k).all out
    let clean (t : Task) : Task := { t with ver := t.ver.filter fun e => out e.1, lines := t.lines.filter line }
    let s0 := modPart (forwardAll s) p fun q => { q with window := q.window.map clean }
    let s1 := dropSectors s0 fun k => (siPhys s0 k).any fun a => !out a
    let kept (m : Migration) : Bool := [m.old, m.old + m.len - 1, m.new, m.new + m.len - 1].all out
    { s1 with
      pools := s1.pools.filter fun q => q.frames.all fun f => out f.2
      mem := s1.mem.filter fun c => out c.1
      own := s1.own.filter fun g => out g.1
      poison := s1.poison.filter fun b => out (512 * b.1)
      scopes := s1.scopes.filter fun l => line l.1
      tlb := s1.tlb.filter fun t => !(t.part == p && !t.leaf.domain && inChans chans t.leaf.frame)
      mgmt := { s1.mgmt with mig := s1.mgmt.mig.filter kept, keys := s1.mgmt.keys.filter fun k => !bitOf chans (k.1 / 256) } }

/-- The granules of a mask, ascending. -/
def granulesOf (mask : Nat) : List Nat := (List.range 64).filter (bitOf mask)

/-- The die of a granule (R376). -/
def granDie (kind g : Nat) : Nat := if kind = 0 then g / 16 else if kind = 1 then g / 12 else g / 8

/-- Events for granules that enter quarantine (R402, TYPE 5). -/
def quarEvents (s : State) (m : Nat × Nat × Nat) : State :=
  let one (kind : Nat) (s : State) (g : Nat) : State := reportEvent s 5 (granDie kind g) 0xFF (kind + 2 ^ 8 * g)
  let s1 := (granulesOf m.1).foldl (one 0) s
  let s2 := (granulesOf m.2.1).foldl (one 1) s1
  (granulesOf m.2.2).foldl (one 2) s2

/-- The granule of a unit of a kind on a die (R376). -/
def unitGranule (kind die unit : Nat) : Nat := dieGranules kind * die + unit / 4

/-- A granule of a kind in masks. -/
def granIn (kind g : Nat) (m : Nat × Nat × Nat) : Bool := bitOf (if kind = 0 then m.1 else if kind = 1 then m.2.1 else m.2.2) g

/-- A unit's granule is in the pool or in quarantine. -/
def unitFree (s : State) (x : Nat × Nat × Nat) : Bool :=
  let g := unitGranule x.1 x.2.1 x.2.2
  granIn x.1 g s.mgmt.pool || granIn x.1 g s.mgmt.quar

/-- A spare takes a failing unit's place (R404): a core's number is the spare's from now on. -/
def swapIn (s : State) (x : Nat × Nat × Nat) : State :=
  modMgmt s fun m =>
    let at_ := 4 * x.1 + x.2.1
    let used := mget m.spares at_ 0
    { m with
      spares := mset m.spares at_ (used + 1)
      coreNums := if x.1 = 0 then mset m.coreNums (64 * x.2.1 + x.2.2) (64 + used) else m.coreNums }

/-- Failing units whose granules have come free get their spares (R404). -/
def swapDue (s : State) : State :=
  let due := s.mgmt.swaps.filter (unitFree s)
  due.foldl swapIn (modMgmt s fun m => { m with swaps := m.swaps.filter fun x => !due.contains x })

/-- A die's TLB keeps nothing of a partition that holds nothing there. -/
def trimDies (s : State) (p : Nat) : State :=
  let q := getPart s p
  { s with tlb := s.tlb.filter fun t => match t.at_ with
    | .core _ => true
    | .die d => t.part != p || onDie q d || d == q.lead }

/-- The granules pass from the giver to the receiver (R384, ATTACH): the receiver's rehash begins. -/
def attach (s : State) (r : Resize) : Resize × State :=
  let s1 := setMasks s r.src (masksOff (masksOf s r.src) r.masks)
  let s2 := if r.src < 8 then trimDies (modPart s1 r.src fun q => { q with rstate := 0 }) r.src else s1
  let s3 := setMasks s2 r.dst (masksOn (masksOf s2 r.dst) r.masks)
  if r.dst < 8 then
    let s4 := modPart s3 r.dst fun q => { fixMaps q with rrole := true, rstate := 6 }
    let q := getPart s4 r.dst
    ({ r with state := 6, planS := joinPlan 4096 q.slices (sliceUnits q) (unitsOf 4 r.slices)
              planC := joinPlan 256 q.ctrls (ctrlUnits q) (unitsOf 2 r.chans) }, s4)
  else ({ r with state := 6 }, swapDue (if r.dst = 9 then quarEvents s3 r.masks else s3))

/-- The rehash of a giver begins (R384, R386). -/
def startRehash (s : State) (r : Resize) : Resize × State :=
  if r.src < 8 then
    let s1 := modPart s r.src fixMaps
    let q := getPart s1 r.src
    ({ r with state := 3, planS := leavePlan 4096 q.slices (sliceUnits q) (unitsOf 4 r.slices)
              planC := leavePlan 256 q.ctrls (ctrlUnits q) (unitsOf 2 r.chans) }, s1)
  else ({ r with state := 3 }, s)

/-- A resize leaves a state: the next one, or none when it is over. -/
def resizeNext (s : State) (r : Resize) : Option Resize × State :=
  match r.state with
  | 2 => let x := startRehash s r; (some x.1, x.2)
  | 5 =>
    let s1 := if r.src < 8 then scrubChans (scrubCores s r.cores) r.src r.chans else s
    let x := attach s1 r
    (some x.1, x.2)
  | 6 => (none, if r.dst < 8 then modPart s r.dst fun q => { q with rstate := 0 } else s)
  | k => (some { r with state := k + 1 }, s)

/-- RESIZE_STATE_ADVANCE (R384). -/
def execResizeStateAdvance (idx : Nat) (s : State) : Res :=
  match s.mgmt.resizes[idx]? with
  | none => .next s
  | some r =>
    if !resizeExit s r then .next s
    else
      let x := resizeNext s r
      match x.1 with
      | none => .next (modMgmt x.2 fun m => { m with resizes := m.resizes.eraseIdx idx })
      | some r1 =>
        let s1 := modMgmt x.2 fun m => { m with resizes := m.resizes.set idx r1 }
        .next (if r.src < 8 ∧ r1.state ≤ 5 then modPart s1 r.src fun q => { q with rstate := r1.state } else s1)

/-- BUCKET_HANDOVER (R386): a bucket of slices or of controllers goes to its new home. -/
def execBucketHandover (idx : Nat) (ctrl : Bool) (bucket : Nat) (s : State) : Res :=
  match s.mgmt.resizes[idx]? with
  | none => .next s
  | some r =>
    let p := if r.state = 6 then r.dst else r.src
    match mfind (if ctrl then r.planC else r.planS) bucket with
    | none => .next s
    | some home =>
      let r1 := if ctrl then { r with planC := mdel r.planC bucket } else { r with planS := mdel r.planS bucket }
      let s1 := modPart s p fun q =>
        if ctrl then { q with ctrls := mset q.ctrls bucket home } else { q with slices := mset q.slices bucket home }
      .next (modMgmt s1 fun m => { m with resizes := m.resizes.set idx r1 })

/-- Two cores have equal compand tables (R385). -/
def sameTables (s : State) (a b : Nat) : Bool :=
  (rangeFrom 1 3).all fun t =>
    mget (getCore s a).tables t Compand.identity == mget (getCore s b).tables t Compand.identity

/-- A core may take a team that moves (R385): its base. -/
def moveTarget (s : State) (t : Team) (core : Nat) : Option Nat :=
  let h := (getTask s t.part t.tid).header
  let r := roomOf s core
  let total := carveScr h.carve
  let free := decide (t.scrbase + t.scrsize ≤ total)
    && r.used.all fun u => decide (t.scrbase + t.scrsize ≤ u.1) || decide (u.1 + u.2 ≤ t.scrbase)
  if core ≠ t.core && free && (h.gang == 0 || dieOf core == dieOf t.core)
      && ((teamsOn s core).isEmpty || sameTables s t.core core) then
    (fitTeam r h).map fun f => f.2.1
  else none

/-- The lowest core that may take a team that moves, with its base. -/
def moveTo (s : State) (t : Team) : Option (Nat × Nat) :=
  (coresOf s t.part).findSome? fun c => (moveTarget s t c).map fun qb => (c, qb)

/-- A team is on a core that leaves its partition (R384, MIGRATE). -/
def mustMove (s : State) (t : Team) : Bool :=
  s.mgmt.resizes.any fun r => r.src == t.part && r.state == 2 && bitOf r.cores (t.core / 4)

/-- Teams on leaving cores with no target core (R383, WAITT). -/
def waitingTeams (s : State) (p : Nat) : Nat :=
  min 255 (s.teams.filter fun t => t.2.part == p && mustMove s t.2 && (moveTo s t.2).isNone).length

/-- A group under its new key (R385): a halted one's record stays in the slot where it was saved; one that waits for room in the halt
ring is saved once more. -/
def movedGroup (g : Group) : Group :=
  match g.halt with
  | .waiting cause pc => { g with halt := .stopping cause pc }
  | _ => g

/-- A team's new place (R385): team and groups under their new keys; the groups' records stay where they were saved. What it
has released counts as from its new place, and no copy at the new core is older than what the team has read (R109). -/
def relocate (s : State) (tk core slot qb : Nat) : State :=
  let t := getTeam s tk
  let k := 8 * core + slot
  let move (m : SMap Group) : SMap Group :=
    m.foldl (fun acc g => if teamKey g.1 = tk then mset (mdel acc g.1) (32 * k + g.1 % 32) (movedGroup g.2) else acc) m
  let tables := (getCore s t.core).tables
  let s0 := dropSi (if (teamsOn s core).isEmpty then recarve s core (getCore s t.core).carve else s) core
  let s1 := if (teamsOn s core).isEmpty then
      modCore s0 core fun c => { c with carve := (getCore s t.core).carve, tables := tables }
    else s0
  let mine (x : ScopeRec) : Bool :=
    x.part == t.part && x.tid == t.tid && x.linear == t.linear && x.core == t.core && x.slot == tk % 8
  let s2 :=
    { s1 with
      scopes := s1.scopes.map fun x => (x.1, if mine x.2 then { x.2 with die := dieOf core, core, slot } else x.2)
      teams := mset (mdel s1.teams tk) k { t with core, slot, qb, moving := false }
      groups := move s1.groups }
  assignUnits (assignUnits s2 t.core) core

/-- TEAM_MOVE (R385): the team's groups are evicted; when they are and no command of it runs, it is copied to the target. A
team that has lost its target runs on. -/
def execTeamMove (tm : Nat) (s : State) : Res :=
  match mfind s.teams tm with
  | none => .next s
  | some t =>
    if !mustMove s t then .next s
    else
      match moveTo s t with
      | none => .next (if t.moving then modTeam s tm fun t => { t with moving := false } else s)
      | some (core, qb) =>
        if !t.moving then
          .next ((teamGroups s tm).foldl evictGroup (modTeam s tm fun t => { t with moving := true }))
        else if (teamGroups s tm).all (fun g => isEvicted (getGroup s g)) && umberIdle t then
          (match freeTeamSlot s core with
           | some k => .next (relocate s tm core k qb)
           | none => .next s)
        else .next s

end Sys2Proof.Machine
end

