-- ==== Sys2Proof/Machine/Regs.lean ====
section
/-!
DEFINITION. The registers of the management space and of the host functions (R335, R358, R373, R378 to R380, R383, R400 to
R406): what a word reads as, and what a write does.
-/

namespace Sys2Proof.Machine

/-- Half of an 8-byte register. -/
def halfOf (x : Nat) (high : Bool) : Nat := if high then x / 2 ^ 32 % 2 ^ 32 else x % 2 ^ 32

/-- DBGCTL as it reads (R373). -/
def dbgctlWord (s : State) (p : Nat) : Nat :=
  (getPart s p).arm.toNat + (if (groupsIn s p).any fun g => (haltSlot (getGroup s g)).isSome then 4 else 0)

/-- RSZSTAT as it reads (R383). -/
def rszWord (s : State) (p : Nat) : Nat :=
  let q := getPart s p
  q.rstate + q.rerr * 2 ^ 4 + waitingTeams s p * 2 ^ 8 + q.rrole.toNat * 2 ^ 16

/-- A word of a partition's register block (R378, R379). -/
def partWord (s : State) (p off : Nat) : Nat :=
  let q := getPart s p
  match off with
  | 0x000 => q.en.toNat + q.lead * 2 ^ 4
  | 0x008 => halfOf q.cg false
  | 0x00C => halfOf q.cg true
  | 0x010 => halfOf q.sg false
  | 0x014 => halfOf q.sg true
  | 0x018 => q.hg
  | 0x020 => halfOf q.trootReg false
  | 0x024 => halfOf q.trootReg true
  | 0x028 => halfOf q.s2Reg false
  | 0x02C => halfOf q.s2Reg true
  | 0x030 => halfOf q.fbbase false
  | 0x034 => halfOf q.fbbase true
  | 0x038 => q.fbsize
  | 0x03C => q.fbput
  | 0x040 => q.fbget
  | 0x044 => q.fbgen
  | 0x048 => (fbFull q).toNat
  | 0x050 => halfOf q.ctxbase false
  | 0x054 => halfOf q.ctxbase true
  | 0x058 => q.vquota
  | 0x060 => halfOf q.vlogbase false
  | 0x064 => halfOf q.vlogbase true
  | 0x068 => q.vloglen
  | 0x06C => q.cvsticky.toNat
  | 0x070 => q.cvcount
  | 0x078 => rszWord s p
  | 0x080 => halfOf q.otbase false
  | 0x084 => halfOf q.otbase true
  | 0x088 => if q.otinv.isSome then 2 ^ 31 else 0
  | 0x090 => dbgctlWord s p
  | 0x098 => halfOf q.dbgring false
  | 0x09C => halfOf q.dbgring true
  | 0x0A0 => q.dbgrlen
  | 0x0A4 => q.dbgput
  | 0x0A8 => q.dbgget
  | _ => 0

/-- The health register (R406). -/
def healthWord (m : Mgmt) : Nat :=
  m.cec + m.refx2.toNat * 2 ^ 15 + m.throttle * 2 ^ 16 + m.temp * 2 ^ 20 + m.fatal.toNat * 2 ^ 30 + m.replreq.toNat * 2 ^ 31

/-- MIGSTAT (R403). -/
def migWord (m : Mgmt) : Nat := ((m.mig.map (·.state)).getD 0) + m.migerr.toNat * 2 ^ 5

/-- A word of the management space as firmware reads it (R401), but for the dump window. What the ports read as is not
stated: the words last written. -/
def mgmtWord (s : State) (off : Nat) : Nat :=
  let m := s.mgmt
  if 0x80000 ≤ off ∧ off < 0x88000 then partWord s ((off - 0x80000) / 0x1000) (off % 0x1000)
  else if 0x1000 ≤ off ∧ off < 0x1020 then (mget m.rport ((off - 0x1000) / 4) 0).toNat
  else if 0x1100 ≤ off ∧ off < 0x1120 then (mget m.mport ((off - 0x1100) / 4) 0).toNat
  else if 0x1200 ≤ off ∧ off < 0x1210 then (mget m.sport ((off - 0x1200) / 4) 0).toNat
  else
    match off with
    | 0x100 => healthWord m
    | 0x110 => m.dumpsel
    | 0x200 => halfOf m.evbase false
    | 0x204 => halfOf m.evbase true
    | 0x208 => m.evlog2
    | 0x20C => m.evput
    | 0x210 => m.evget
    | 0x214 => m.evovf.toNat
    | 0x1120 => migWord m
    | 0x1210 => (!m.down.isEmpty).toNat
    | _ => 0

/-- Where a byte of the dump region lies in device memory (R407). -/
def dumpAt (i : Nat) : Nat := Config.dumpBase % 2 ^ 36 + i

/-- A word of the host window (R401): the dump window reads only while FATAL is 1. -/
def hostWord (s : State) (off : Nat) : Nat :=
  if off = 0x100 ∨ off = 0x110 ∨ (0x200 ≤ off ∧ off < 0x218) then mgmtWord s off
  else if 0x100000 ≤ off ∧ off < 0x200000 ∧ s.mgmt.fatal then
    leNat ((rangeFrom (2 ^ 20 * s.mgmt.dumpsel + (off - 0x100000)) 4).map fun i => physByte s (dumpAt i) 0)
  else 0

/-- A chain's STAT (R335). -/
def chainStat (q : Partition) (h : Nat) : Nat :=
  let c := getHc q h
  (hcIdle c).toNat + c.err.toNat * 2 + (c.upto.isSome && decide (4096 ≤ q.window.length)).toNat * 4
  + (if c.err then c.ecode else 0) * 2 ^ 4

/-- A word of a virtual function (R335, R400). -/
def vfWord (s : State) (p off : Nat) : Nat :=
  let q := getPart s p
  if off = 0 then p + q.en.toNat * 2 ^ 8
  else if !q.en ∨ off < 0x1000 ∨ 0x1400 ≤ off then 0
  else
    let h := (off - 0x1000) / 32
    let c := getHc q h
    match off % 32 with
    | 0x00 => halfOf c.head false
    | 0x04 => halfOf c.head true
    | 0x08 => halfOf c.tail false
    | 0x0C => halfOf c.tail true
    | 0x10 => halfOf c.cur false
    | 0x14 => halfOf c.cur true
    | 0x18 => chainStat q h
    | _ => 0

/-- What a partition holds, less what is leaving it (R377). -/
def stayingMasks (s : State) (p : Nat) : Nat × Nat × Nat :=
  (s.mgmt.resizes.filter fun r => r.src == p).foldl (fun m r => masksOff m r.masks) (masksOf s p)

/-- PCTL written (R379): EN takes a 1 only where R377 holds, and goes on to hold. -/
def setPctl (s : State) (p v : Nat) : State :=
  modPart s p fun q =>
    { q with lead := bitsOf v 5 4, en := if bitOf v 0 then q.en || allKinds (stayingMasks s p) else false }

/-- PCTL_WRITE (R379). -/
def execPctlWrite (part : Nat) (v : Word) (s : State) : Res :=
  .next (if fwRuns s && decide (part < 8) then setPctl s part v.toNat else s)

/-- Version lines spill until the log holds what the quota does not (R153): a task whose oldest lines find the log full
ends with TASK, VLOG. Which task that is, the device chooses. -/
def spillAll (fuel : Nat) (s : State) (p : Nat) : State :=
  let q := getPart s p
  let spill := versionLines s p - q.vquota
  let s1 := modPart s p fun q => { q with spilled := max q.spilled spill }
  match fuel with
  | 0 => s1
  | n + 1 =>
    if spill ≤ q.vloglen then s1
    else
      let ts := (q.window.filter fun t => !t.ver.isEmpty).map (·.tid)
      let c := choose s1 ts.length
      spillAll n (trapTask c.2 p (ts.getD c.1 0) (taskTrap 5 0)) p

/-- VQUOTA written (R379, R153). -/
def setVquota (s : State) (p v : Nat) : State :=
  let s1 := modPart s p fun q => { q with vquota := v }
  spillAll (getPart s p).window.length s1 p

/-- VQUOTA_WRITE (R379). -/
def execVquotaWrite (part : Nat) (v : Word) (s : State) : Res :=
  .next (if fwRuns s && decide (part < 8) then setVquota s part v.toNat else s)

/-- OTINV written (R380): ignored while BUSY. -/
def setOtinv (s : State) (p v : Nat) : State :=
  modPart s p fun q => if q.otinv.isSome then q else { q with otinv := some (v % 2 ^ 16) }

/-- OTINV_WRITE (R380). -/
def execOtinvWrite (part : Nat) (v : Word) (s : State) : Res :=
  .next (if fwRuns s && decide (part < 8) then setOtinv s part v.toNat else s)

/-- OTINV_COMPLETE (R380): the last cached copy is dropped. -/
def execOtinvComplete (part : Nat) (s : State) : Res :=
  match (getPart s part).otinv with
  | some h => .next (modPart s part fun q => { q with otinv := none, otcache := mdel q.otcache h })
  | none => .next s

/-- DBGCTL written (R373). -/
def setDbgctl (s : State) (p v : Nat) : State :=
  let s1 := modPart s p fun q => { q with arm := bitOf v 0 }
  if bitOf v 1 then haltAll s1 p else s1

/-- FBGEN written (R359). -/
def setFbgen (s : State) (p v : Nat) : State :=
  match execFbgenWrite p (BitVec.ofNat 32 v) s with
  | .next t => t
  | _ => s

/-- A half of an 8-byte register is written (R401): the low word is held, the high word gives the new value. -/
def write8 (s : State) (off v : Nat) (high : Bool) (set : Nat → State → State) : State :=
  if high then set (v * 2 ^ 32 + (mget s.mgmt.lows (off - 4) 0).toNat) s
  else modMgmt s fun m => { m with lows := mset m.lows off (BitVec.ofNat 32 v) }

/-- Some bits of a number in place. -/
def keepBits (hi lo v : Nat) : Nat := bitsOf v hi lo * 2 ^ lo

/-- A word of a partition's register block written (R378, R379). -/
def partWrite (s : State) (p off v : Nat) : State :=
  let at_ := 0x80000 + 0x1000 * p + off
  let set8 (high : Bool) (f : Nat → Partition → Partition) : State :=
    write8 s at_ v high fun x s => modPart s p (f x)
  let set4 (f : Partition → Partition) : State := modPart s p f
  match off with
  | 0x000 => setPctl s p v
  | 0x020 => set8 false fun x q => { q with trootReg := keepBits 51 13 x }
  | 0x024 => set8 true fun x q => { q with trootReg := keepBits 51 13 x }
  | 0x028 => set8 false fun x q => { q with s2Reg := keepBits 37 20 x }
  | 0x02C => set8 true fun x q => { q with s2Reg := keepBits 37 20 x }
  | 0x030 => set8 false fun x q => { q with fbbase := keepBits 51 12 x }
  | 0x034 => set8 true fun x q => { q with fbbase := keepBits 51 12 x }
  | 0x038 => set4 fun q => { q with fbsize := v % 2 ^ 5 }
  | 0x040 => set4 fun q => { q with fbget := v }
  | 0x044 => setFbgen s p v
  | 0x050 => set8 false fun x q => { q with ctxbase := keepBits 51 16 x }
  | 0x054 => set8 true fun x q => { q with ctxbase := keepBits 51 16 x }
  | 0x058 => setVquota s p v
  | 0x060 => set8 false fun x q => { q with vlogbase := keepBits 51 6 x }
  | 0x064 => set8 true fun x q => { q with vlogbase := keepBits 51 6 x }
  | 0x068 => set4 fun q => { q with vloglen := v }
  | 0x06C => set4 fun q => { q with cvsticky := q.cvsticky && !bitOf v 0 }
  | 0x070 => set4 fun q => { q with cvcount := v }
  | 0x078 => set4 fun q => { q with rerr := if bitsOf v 7 4 = 0 then q.rerr else 0 }
  | 0x080 => set8 false fun x q => { q with otbase := keepBits 37 21 x }
  | 0x084 => set8 true fun x q => { q with otbase := keepBits 37 21 x }
  | 0x088 => setOtinv s p v
  | 0x090 => setDbgctl s p v
  | 0x094 => resumeSlot s p (BitVec.ofNat 32 v)
  | 0x098 => set8 false fun x q => { q with dbgring := keepBits 37 6 x }
  | 0x09C => set8 true fun x q => { q with dbgring := keepBits 37 6 x }
  | 0x0A0 => set4 fun q => { q with dbgrlen := v % 2 ^ 4 }
  | 0x0A8 => set4 fun q => { q with dbgget := v }
  | _ => s

/-- TEMP and STEP of an event (R402, TYPE 1). -/
def tempInfo (m : Mgmt) : Nat := m.throttle + m.temp * 2 ^ 4

/-- Firmware writes the health register (R406): REPLREQ and FATAL are only set here, and each change of R402 is an
event. -/
def setHealth (s : State) (v : Nat) : State :=
  let m := s.mgmt
  let s1 := modMgmt s fun m =>
    { m with replreq := m.replreq || bitOf v 31, fatal := m.fatal || bitOf v 30, temp := bitsOf v 27 20
             throttle := min 8 (bitsOf v 19 16), refx2 := bitOf v 15, cec := bitsOf v 14 0 }
  let s2 := if s1.mgmt.throttle ≠ m.throttle then reportEvent s1 1 0xFF 0xFF (tempInfo s1.mgmt) else s1
  let s3 := if s1.mgmt.replreq ≠ m.replreq then reportEvent s2 2 0xFF 0xFF 0 else s2
  if s1.mgmt.fatal ≠ m.fatal then reportEvent s3 3 0xFF 0xFF 0 else s3

/-- A word of the event ring's registers and of DUMPSEL (R401, R402): the host driver may write these. -/
def hostWrite (s : State) (off v : Nat) : State :=
  match off with
  | 0x110 => modMgmt s fun m => { m with dumpsel := v % 2 ^ 16 }
  | 0x200 => write8 s off v false fun _ s => s
  | 0x204 => write8 s off v true fun x s => modMgmt s fun m => { m with evbase := x / 2 ^ 12 * 2 ^ 12 }
  | 0x208 => modMgmt s fun m => { m with evlog2 := v % 2 ^ 4 }
  | 0x210 => modMgmt s fun m => { m with evget := v }
  | 0x214 => modMgmt s fun m => { m with evovf := m.evovf && !bitOf v 0 }
  | _ => s

/-- The words of a port. -/
def portWords (m : SMap Word) (n : Nat) : List Word := (List.range n).map fun i => mget m i 0

/-- MIGSTAT written (R403). -/
def setMigstat (s : State) (v : Nat) : State :=
  let s1 := if bitOf v 5 then modMgmt s fun m => { m with migerr := false } else s
  if bitOf v 4 then retireMig s1 else s1

/-- A word of the management space written by firmware (R401, R403). -/
def mgmtWrite (s : State) (off v : Nat) : State :=
  let w := BitVec.ofNat 32 v
  if 0x80000 ≤ off ∧ off < 0x88000 then partWrite s ((off - 0x80000) / 0x1000) (off % 0x1000) v
  else if 0x1000 ≤ off ∧ off < 0x1020 then
    let s1 := modMgmt s fun m => { m with rport := mset m.rport ((off - 0x1000) / 4) w }
    if off = 0x101C then submitResize s1 (portWords s1.mgmt.rport 8) else s1
  else if 0x1100 ≤ off ∧ off < 0x1120 then
    let s1 := modMgmt s fun m => { m with mport := mset m.mport ((off - 0x1100) / 4) w }
    if off = 0x111C then submitMig s1 (portWords s1.mgmt.mport 8) else s1
  else if 0x1200 ≤ off ∧ off < 0x1210 then
    let s1 := modMgmt s fun m => { m with sport := mset m.sport ((off - 0x1200) / 4) w }
    let d := portWords s1.mgmt.sport 4
    if off = 0x120C then submitDown s1 (wDword d 0) (d.getD 2 0) else s1
  else if off = 0x100 then setHealth s v
  else if off = 0x1120 then setMigstat s v
  else hostWrite s off v

/-- A word of a virtual function written (R335 to R337, R400): HEAD and TAIL take a new value with their high word. -/
def vfWrite (s : State) (p off v : Nat) : State :=
  let h := (off - 0x1000) / 32
  if off < 0x1000 ∨ 0x1400 ≤ off ∨ !chainOpen s p h then s
  else
    match off % 32 with
    | 0x00 => modHc s p h fun c => { c with hlow := v }
    | 0x04 => modHc s p h fun c => headSet (v * 2 ^ 32 + c.hlow) c
    | 0x08 => modHc s p h fun c => { c with low := v }
    | 0x0C => modHc s p h fun c => tailSet (v * 2 ^ 32 + c.low) c
    | 0x18 => if bitOf v 1 && (getHc (getPart s p) h).err then
        modHc s p h fun c => { c with err := false, ecode := 0, run := false, upto := none }
      else s
    | _ => s

/-- One word of a register space written. -/
def spaceWrite (sp : RegSpace) (s : State) (off v : Nat) : State :=
  match sp with
  | .mgmt => if fwRuns s then mgmtWrite s off v else s
  | .physical => hostWrite s off v
  | .virtual p => vfWrite s p off v

/-- REGISTER_WRITE (R400 to R402): 4 or 8 bytes, naturally aligned; an 8-byte write is that of its low and then its high
word. -/
def execRegisterWrite (space : RegSpace) (off : Nat) (v : Dword) (wide : Bool) (s : State) : Res :=
  let x := v.toNat
  if wide then
    .next (if off % 8 = 0 then spaceWrite space (spaceWrite space s off (x % 2 ^ 32)) (off + 4) (x / 2 ^ 32) else s)
  else .next (if off % 4 = 0 then spaceWrite space s off (x % 2 ^ 32) else s)

end Sys2Proof.Machine
end

