-- ==== Sys2Proof/Machine/Health.lean ====
section
/-!
DEFINITION. Reset and boot (R392, R393), attestation (R394), links (R389, R390, R397 to R399), failing units (R404, R405),
fatal errors (R407), power and temperature (R6, R363, R408).
-/

namespace Sys2Proof.Machine

/-- A die has lost every granule of some kind (R405). -/
def dieGone (out : List Nat) (d : Nat) : Bool :=
  (List.range 3).any fun k => (List.range (dieGranules k)).all fun i => out.contains (64 * k + dieGranules k * d + i)

/-- caps as firmware fills it (R2): the fused word, less the cores and dies that are out of service. -/
def capsOf (fused : Word) (out : List Nat) : Word :=
  let made := (List.range 4).filter fun d => fused.getLsbD (12 + d)
  let cores := 64 * made.length - 4 * (out.filter (· < 64)).length
  let dies := made.foldl (fun m d => if dieGone out d then m else m + 2 ^ d) 0
  (fused &&& 0xFE000FFF#32) ||| BitVec.ofNat 32 (cores * 2 ^ 16 + dies * 2 ^ 12)

/-- Boot runs the images in turn while each verifies under a key: the measurement, and whether all did (R392, R393). -/
def bootGo (key : List Byte) (images : List (List Byte × List Byte)) (m : List Byte) : List Byte × Bool :=
  match images with
  | [] => (m, true)
  | i :: rest =>
    if Config.ed448Verify key i.1 i.2 then bootGo key rest (shake256 (m ++ shake256 i.1)) else (m, false)

/-- Granules out of service, as masks. -/
def outMasks (out : List Nat) : Nat × Nat × Nat :=
  let m (k : Nat) : Nat := out.foldl (fun acc x => if x / 64 = k then acc ||| 2 ^ (x % 64) else acc) 0
  (m 0, m 1, m 2)

/-- The offsets of the registers of the management space (R401). -/
def regOffsets : List Nat :=
  [0x100, 0x110, 0x200, 0x204, 0x208, 0x20C, 0x210, 0x214]
  ++ (List.range 8).map (0x1000 + 4 * ·) ++ (List.range 8).map (0x1100 + 4 * ·) ++ [0x1120]
  ++ (List.range 4).map (0x1200 + 4 * ·) ++ [0x1210]
  ++ (List.range 8).flatMap fun p => (List.range 43).map fun k => 0x80000 + 0x1000 * p + 4 * k

/-- The dump of a fatal error (R407). -/
def dumpOf (s : State) : Dump where
  regs := regOffsets.map fun o => (o, mgmtWord s o)
  splits := s.groups.flatMap fun g => g.2.splits.map splitBytes
  window := s.parts.map fun q => (q.1, q.2.window)
  health := healthWord s.mgmt

/-- A task of Carmine's window as the dump shows it. -/
def taskBytes (p : Nat) (t : Task) : List Byte :=
  leBytes 4 p ++ leBytes 4 t.tid ++ leBytes 8 (statWord t) ++ leBytes 8 t.card.crec ++ leBytes 8 t.card.desc ++ leBytes 8 t.order
  ++ leBytes 4 t.retired ++ leBytes 8 t.cseq ++ leBytes 4 t.opnd.toNat

/-- The dump's bytes (log 27). -/
def dumpBytes (d : Dump) : List Byte :=
  let all := (d.regs.flatMap fun r => leBytes 4 r.2) ++ d.splits.flatten
    ++ (d.window.flatMap fun w => w.2.flatMap (taskBytes w.1)) ++ leBytes 4 d.health
  (List.range all.length).map fun i => all.getD (Config.dumpPlace i) 0

/-- The dump is written into its region of die 0's memory, with encryption bypassed (R407). -/
def writeDump (s : State) (d : Dump) : State :=
  ((dumpBytes d).zipIdx).foldl (fun acc b => physWriteByte acc (dumpAt b.2) 0 b.1) (modMgmt s fun m => { m with dump := some d })

/-- Device memory once the dump of a fatal error is erased (R407). -/
def eraseDump (s : State) : Memory :=
  match s.mgmt.dump with
  | none => s.mem
  | some d => s.mem.filter fun c => !(decide (dumpAt 0 ≤ c.1) && decide (c.1 < dumpAt (dumpBytes d).length))

/-- The device before boot (R392): device memory but for the dump, other machines, the units in service and the count of reports,
whose keys are fresh (R394), are as they were; failing units whose granules are in the pool now get their spares (R404). -/
def afterReset (s : State) : State :=
  let m := s.mgmt
  swapDue { State.resetOf s.fused with
    agenda := s.agenda, fresh := s.fresh, mem := eraseDump s, host := s.host, remote := s.remote
    mgmt := { Mgmt.reset with
      boots := (m.boots + 1) % 2 ^ 32, spares := m.spares, outUnits := m.outUnits, coreNums := m.coreNums
      reports := m.reports, swaps := m.swaps
      pool := masksOff (fusedMasks s.fused) (outMasks m.outUnits), quar := outMasks m.outUnits } }

/-- RESET (R392, R393): boot of the images in the package flash, under the vendor key that lies there with them and has the
fused digest. An image or a key that does not verify, or no image at all, halts boot: FATAL, and no caps. -/
def execReset (images : Flash) (s : State) : Res :=
  let s1 := afterReset s
  let b := if shake256 images.key = Config.fusedDigest then bootGo images.key images.images s1.mgmt.measure
    else (s1.mgmt.measure, false)
  if b.2 && !images.images.isEmpty then
    .next { s1 with caps := capsOf s.fused s1.mgmt.outUnits, mgmt := { s1.mgmt with boot := .running, measure := b.1 } }
  else
    .next (reportEvent { s1 with caps := 0, mgmt := { s1.mgmt with boot := .failed, fatal := true, measure := b.1 } } 3 0xFF 0xFF 0)

/-- A field of `n` bytes. -/
def fixedField (n : Nat) (bs : List Byte) : List Byte := (padTo n bs).take n

/-- The report without its signature (R394): bytes 0x000 to 0x0DF. -/
def reportBody (s : State) (part : Nat) (nonce : List Byte) : List Byte :=
  let q := getPart s part
  leBytes 4 1 ++ leBytes 4 s.caps.toNat ++ nonce ++ s.mgmt.measure ++ leBytes 4 part ++ leBytes 4 s.mgmt.boots
  ++ leBytes 8 q.cg ++ leBytes 8 q.sg ++ leBytes 4 q.hg ++ leBytes 4 0 ++ fixedField 56 (Config.x448Public s.mgmt.reports)

/-- ATTESTATION_REQUEST (R394). -/
def execAttestationRequest (part : Nat) (nonce : List Byte) (s : State) : Res :=
  if fwRuns s && decide (part < 8) && nonce.length == 64 then
    let s1 := modMgmt s fun m => { m with reports := m.reports + 1 }
    let body := reportBody s1 part nonce
    .next (modMgmt s1 fun m => { m with lastRep := padTo 352 (body ++ fixedField 114 (Config.ed448Sign body)) })
  else .next s

/-- A request of a core for another die goes through the link between two dies. -/
def viaLink (c : Acc) (a b d : Nat) : Bool := (dieOf c.core, d) == (a, b) || (dieOf c.core, d) == (b, a)

/-- Bytes at an address have a home across a link: the slice of a block (R381). -/
def farBytes (s : State) (c : Acc) (a b va n : Nat) : Bool :=
  match walk s c.p va with
  | .ok l => !l.domain && (keptAddrs s l (pageOff l va) n).any fun x => viaLink c a b (sliceOf s c.p x / 48)
  | _ => false

/-- The lists that a graph instruction touches, by handle, vertex and direction, as far as they are known. -/
def homedLists (s : State) (c : Acc) (gid : Nat) (p : Instr × Capture) : List (Nat × Nat × Nat) :=
  p.2.lanes.flatMap fun l =>
    let hs := (cursorsOf p.1).map fun k => (getCur (getGroup s gid) l k).handle
    ((graphLists s c gid (p.1, capLane p.2 l)).zipIdx).map fun x => (hs.getD x.2 (mget p.2.addr l 0), x.1.2 / 2, x.1.2 % 2)

/-- A team's spill region has a block across a link (R140). -/
def farSpill (s : State) (c : Acc) (a b : Nat) : Bool :=
  (getTeam s c.team).slate.any fun t => (List.range (t.ns / 32 + 2)).any fun k => farBytes s c a b (t.base + 512 * k) 1

/-- A part of an operation goes through the link between two dies (R390): from the core's die to that of a home slice, of the
controller of a list (R381), or of a block of the spill region. -/
def crosses (s : State) (c : Acc) (gid a b : Nat) (p : Instr × Capture) : Bool :=
  ((touches s c p.1 p.2).any fun t => !t.2.2.2 && farBytes s c a b t.2.1 t.2.2.1)
  || (isGraph p.1 && (homedLists s c gid p).any fun x => viaLink c a b (ctrlOf s c.p x.1 x.2.1 x.2.2 / 16))
  || (isSlate p.1 && farSpill s c a b)

/-- Each request of an operation that is in flight on the lost link is performed or not, as the device chooses (R390). -/
def loseParts (s : State) (c : Acc) (gid a b : Nat) (ps : List (Instr × Capture)) : List (Instr × Capture) × State :=
  ps.foldl (fun acc p =>
    if crosses acc.2 c gid a b p then
      let r := choose acc.2 2
      (if r.1 = 0 then acc.1 ++ [p] else acc.1, r.2)
    else (acc.1 ++ [p], acc.2)) ([], s)

/-- What an operation has still to perform, in pieces, once its checks are done; one that they stop or hold has nothing in
flight. -/
def inPieces (s : State) (c : Acc) (gid : Nat) (o : Op) : List (Instr × Capture) × State :=
  match o.stage with
  | .pieces ps _ _ => (ps, s)
  | .held i cap =>
    if isSlate i then (slatePieces i cap cap.lanes, s)
    else if isGraph i then
      let r := graphGate s c gid i cap
      match r.1 with
      | .error _ => ([], r.2)
      | .ok xs => let k := graphFound cap xs; (k.lanes.map fun l => (i, capLane k l), r.2)
    else
      let r := checkMem s c i cap
      match r.1 with
      | .error _ => ([], r.2)
      | .ok k => (piecesOfInstr i (match i with | .mdrn _ => keepTable r.2 c.core k | _ => k), r.2)
  | _ => ([], s)

/-- The graph halves that an operation has performed its first part of, and the trap of a piece performed. -/
def owed (o : Op) : List Half × Option TrapRec := match o.stage with | .pieces _ todo t => (todo, t) | _ => ([], none)

/-- What an operation of a group has in flight on the lost link may be lost. -/
def loseOp (a b gid : Nat) (s : State) (o : Op) : State :=
  let c := accOfOp s gid o.loc
  let ps := inPieces s c gid o
  let r := loseParts ps.2 c gid a b ps.1
  let left : Stage :=
    if !r.1.isEmpty then .pieces r.1 (owed o).1 (owed o).2 else if (owed o).1.isEmpty then .done else .half (owed o).1
  if r.1.length = ps.1.length then r.2 else setStage r.2 gid o.id left

/-- The requests in flight of a group that go through the lost link are performed or not, as the device chooses (R390). -/
def loseInFlight (a b : Nat) (s : State) (gid : Nat) : State := (getGroup s gid).ops.foldl (loseOp a b gid) s

/-- A task fails with a die-to-die link (R390). -/
def failTask (s : State) (p a b : Nat) (t : Task) : State :=
  let s1 := (groupsOf s p t.tid).foldl (loseInFlight a b) s
  stopTask s1 p t.tid ⟨if t.card.kind = 1 then 5 else 2, ⟨10, 1, BitVec.ofNat 32 (a + 4 * b), BitVec.ofNat 32 t.retired, 0⟩⟩

/-- A team has a request that the lost link may carry: an operation of it that is not performed yet goes through the link, or Umber
runs a command of it on one of the link's dies. -/
def teamRequests (s : State) (a b tk : Nat) : Bool :=
  let t := getTeam s tk
  ((teamGroups s tk).any fun g => (getGroup s g).ops.any fun o =>
    (opParts o).any (crosses s (accOfOp s g o.loc) g a b) || (match o.stage with | .half todo => !todo.isEmpty | _ => false))
  || ((dieOf t.core == a || dieOf t.core == b) && !umberIdle t)

/-- Whether a task is affected by a lost link (R390): a team on the dropped die, or a request in flight on the link. Of a request
that is not performed yet, and of a bulk task at work, the device decides whether the link carries one now. -/
def linkHits (s : State) (p a b drop : Nat) (t : Task) : Bool × State :=
  let ts := teamsOf s p t.tid
  if ts.any fun x => dieOf x.2.core == drop then (true, s)
  else if t.card.kind ≠ 1 || ts.any fun x => teamRequests s a b x.1 then
    let c := choose s 2
    (c.1 == 1, c.2)
  else (false, s)

/-- A partition loses the link between two of its dies. -/
def linkLossAt (a b : Nat) (s : State) (p : Nat) : State :=
  match dropDie (getPart s p) a b with
  | none => s
  | some d =>
    let s0 := modPart s p fun q => { q with dropped := q.dropped ++ [(d, if d = a then b else a)] }
    let s1 := modMgmt s0 fun m => { m with badDies := if m.badDies.contains d then m.badDies else m.badDies ++ [d] }
    ((getPart s p).window.filter fun t => t.st == .released).foldl (fun acc t =>
      let r := linkHits acc p a b d t
      if r.1 then failTask r.2 p a b t else r.2) s1

/-- DIE_LINK_LOSS (R389, R390). -/
def execDieLinkLoss (a b : Nat) (s : State) : Res :=
  let x := (min a b, max a b)
  if a = b ∨ 4 ≤ x.2 ∨ s.mgmt.deadDies.contains x then .next s
  else .next (modMgmt ((mkeys s.parts).foldl (linkLossAt a b) s) fun m => { m with deadDies := m.deadDies ++ [x] })

/-- DIE_LINK_RETRAIN (R405). -/
def execDieLinkRetrain (a b : Nat) (s : State) : Res :=
  let again (q : Partition) : Partition := { q with dropped := q.dropped.filter fun d => d != (a, b) && d != (b, a) }
  .next (if fwRuns s then modMgmt { s with parts := s.parts.map fun q => (q.1, again q.2) } fun m =>
    let left := m.deadDies.filter (· != (min a b, max a b))
    { m with deadDies := left, badDies := m.badDies.filter fun d => left.any fun x => x.1 == d || x.2 == d }
    else s)

/-- A flit of a lost port is resent as it was over a port that remains to the same device, of the device's choice; with none left
it is not carried any more (R399). -/
def resend (s : State) (f : Flit) : State :=
  let ok := portsTo s f.dev
  let c := choose s ok.length
  match ok[c.1]? with
  | none => c.2
  | some port => modMgmt c.2 fun m => { m with flits := mset m.flits port (mget m.flits port [] ++ [f]) }

/-- LINK_PORT_LOSS (R399): firmware receives LINK, PORT; what the port has in flight is resent over the others to its device. -/
def execLinkPortLoss (port : Nat) (s : State) : Res :=
  if 12 ≤ port ∨ s.mgmt.badPorts.contains port then .next s
  else
    let kept := mget s.mgmt.flits port []
    .next (kept.foldl resend (modMgmt (reportFault s 0xFF ⟨10, 2, BitVec.ofNat 32 port, 0, 0⟩) fun m =>
      { m with badPorts := m.badPorts ++ [port], flits := mdel m.flits port }))

/-- FLIT_ACK (R397): acknowledged flits are dropped, and the tables advance with them. -/
def execFlitAck (port n : Nat) (s : State) : Res :=
  let kept := mget s.mgmt.flits port []
  let k := min n kept.length
  .next (if k = 0 then s else modMgmt s fun m =>
    { m with flits := mset m.flits port (kept.drop k), compress := mset m.compress port (mget m.compress port 0 + k) })

/-- FLIT_RETRY (R397): the retained flits go out again as they were; the target discards duplicates (R399). -/
def execFlitRetry (_ : Nat) (s : State) : Res := .next s

/-- Bytes that a domain access takes. -/
def domLen (o : DomOp) : Nat := match o with | .read n => n | .write bs => bs.length | .rmw _ at_ _ _ _ => atBytes at_

/-- The second stage lets a domain access read, write, or both. -/
def domMay (o : DomOp) (e : Nat) : Bool :=
  match o with | .read _ => bitOf e 1 | .write _ => bitOf e 2 | .rmw _ _ _ _ _ => bitOf e 1 && bitOf e 2

/-- The second stage of a target partition for a domain access (R398): the host physical address and the key id. -/
def domainPlace (s : State) (p : Nat) (r : DomReq) : Option (Nat × Nat) :=
  if r.addr ≥ 2 ^ 38 ∨ r.addr % 2 ^ 21 + domLen r.what > 2 ^ 21 ∨ !holdsPhys s p (s2At s p r.addr) then none
  else
    let e := s2Entry s p r.addr
    let pa := bitsOf e 37 21 * 2 ^ 21 + r.addr % 2 ^ 21
    if !s2Ok e || !domMay r.what e || !holdsPhys s p pa || (bitsOf e 63 56 != 0 && !capENCR s.caps) then none
    else some (pa, bitsOf e 63 56)

/-- A domain access performed at its home (R398): the bytes that it returns. An atomic is one read-modify-write (R103). -/
def domainPerform (s : State) (pa key : Nat) (o : DomOp) : List Byte × State :=
  let got (n : Nat) : List Byte := (rangeFrom pa n).map fun a => cohByte s a key
  match o with
  | .read n => (got n, s)
  | .write bs => ([], physWrite s pa key bs)
  | .rmw op at_ b c ret =>
    let old := got (atBytes at_)
    let s1 := match atomNew op at_ (leNat old) b c with
      | some y => physWrite s pa key (leBytes (atBytes at_) y)
      | none => s
    (if ret then old else [], s1)

/-- DOMAIN_REQUEST (R398, R399): an access of another device, performed once, or refused; either is answered, through a port to that
device. -/
def execDomainRequest (r : DomReq) (s : State) : Res :=
  let id := (r.srcDev, r.seq)
  if s.mgmt.seen.contains id then .next s
  else
    let s1 := modMgmt s fun m => { m with seen := m.seen ++ [id] }
    match (mfind s.mgmt.domains (8 * r.srcDev + r.srcPart)).bind fun p => domainPlace s p r with
    | none => .next (sendTo s1 r.srcDev r.addr .refused [])
    | some x =>
      let q := domainPerform s1 x.1 x.2 r.what
      .next (sendTo q.2 r.srcDev r.addr .taken q.1)

/-- One granule of a kind as masks. -/
def granMask (kind g : Nat) : Nat × Nat × Nat :=
  (if kind = 0 then 2 ^ g else 0, if kind = 1 then 2 ^ g else 0, if kind = 2 then 2 ^ g else 0)

/-- Spares of a kind on a die (R404). -/
def spareCount (kind : Nat) : Nat := match kind with | 0 => 4 | 1 => 2 | _ => 1

/-- Replacement is requested (R405, R406). -/
def requestRepl (s : State) (die : Nat) : State :=
  if s.mgmt.replreq then s else reportEvent (modMgmt s fun m => { m with replreq := true }) 2 die 0xFF 0

/-- A granule goes out of service (R405): caps shows fewer cores, or fewer dies. -/
def takeOut (s : State) (kind die g : Nat) : State :=
  let out := s.mgmt.outUnits ++ [64 * kind + g]
  let cores := if kind = 0 then s.caps - 0x40000#32 else s.caps
  let caps := if dieGone out die then cores &&& ~~~(1#32 <<< (12 + die)) else cores
  requestRepl { modMgmt s (fun m => { m with outUnits := out }) with caps := caps } die

/-- RETIRE_FAILING_UNIT (R404, R405): a spare is swapped in once the unit's granule is in the pool or in quarantine, at once or when it
comes there; without one, the granule goes out of service once it is in quarantine. -/
def execRetireFailingUnit (kind die unit : Nat) (s : State) : Res :=
  let g := unitGranule kind die unit
  let due := s.mgmt.swaps.filter fun x => x.1 == kind && x.2.1 == die
  if !fwRuns s || decide (3 ≤ kind) || decide (4 ≤ die) || decide (4 * dieGranules kind ≤ unit) then .next s
  else if due.contains (kind, die, unit) then .next s
  else if mget s.mgmt.spares (4 * kind + die) 0 + due.length < spareCount kind then
    .next (swapDue (modMgmt s fun m => { m with swaps := m.swaps ++ [(kind, die, unit)] }))
  else .next (if granIn kind g s.mgmt.quar && !s.mgmt.outUnits.contains (64 * kind + g) then takeOut s kind die g else s)

/-- GRANULE_REPAIR (R405): a quarantined granule goes back to the pool after the failing unit's self-test, and one of a
dropped die only after the link has been retrained. -/
def execGranuleRepair (kind g : Nat) (s : State) : Res :=
  let failing := s.mgmt.outUnits.contains (64 * kind + g)
  let pass := !failing || Config.selfTest s.fresh
  if !fwRuns s || decide (3 ≤ kind) || !granIn kind g s.mgmt.quar || s.mgmt.badDies.contains (granDie kind g) then .next s
  else
    let s1 := { s with fresh := s.fresh + 1 }
    .next (if pass then modMgmt s1 fun m =>
      { m with quar := masksOff m.quar (granMask kind g), pool := masksOn m.pool (granMask kind g), replreq := false
               outUnits := m.outUnits.filter (· != 64 * kind + g) }
      else s1)

/-- A fatal error (R407): every core stops, the dump is written, then FATAL is set. -/
def fatal (s : State) : State :=
  if s.mgmt.fatal then s
  else reportEvent (modMgmt (writeDump s (dumpOf s)) fun m => { m with fatal := true }) 3 0xFF 0xFF 0

/-- FATAL_ERROR (R407). A failed boot stage is one that RESET finds, and a temperature one that a die has. -/
def execFatalError (why : FatalCause) (s : State) : Res :=
  match why with
  | .carmine => .next (if fwRuns s then fatal s else s)
  | .firmware => .next (if fwRuns s then fatal s else s)
  | .hot => .next (if fwRuns s && decide (105 ≤ s.mgmt.temp) then fatal s else s)
  | .boot => .next (if s.mgmt.boot = .failed then modMgmt s fun m => { m with fatal := true } else s)

/-- The hottest of the dies. -/
def hottest (temps : List Nat) : Nat := temps.foldl max 0

/-- The next throttle step (R408). -/
def nextThrottle (k temp watts : Nat) : Nat :=
  if 85 < temp ∨ 2400 < watts then min 8 (k + 1) else if temp < 80 then k - 1 else k

/-- THROTTLE_STEP (R408, R407): one step for temperatures in °C and a power in W. -/
def execThrottleStep (temps : List Nat) (watts : Nat) (s : State) : Res :=
  let t := hottest temps
  let k := nextThrottle s.mgmt.throttle t watts
  let s1 := modMgmt s fun m => { m with temp := min 255 t, refx2 := decide (85 < t), throttle := k }
  let s2 := if k = s.mgmt.throttle then s1
    else reportEvent s1 1 ((temps.findIdx? (· == t)).getD 0xFF) 0xFF (tempInfo s1.mgmt)
  .next (if 105 ≤ t then fatal s2 else s2)

/-- CORE_POWER_UP (R6): the cycle counter counts from zero. -/
def execCorePowerUp (core : Nat) (s : State) : Res :=
  .next (if core < 256 ∧ (getCore s core).gated then
    modCore s core fun c => { c with gated := false, base := s.cycle } else s)

/-- CORE_POWER_GATE (R363): a core that holds no team is gated; what it owns goes home, and its TLBs are emptied. -/
def execCorePowerGate (core : Nat) (s : State) : Res :=
  if 256 ≤ core ∨ !(teamsOn s core).isEmpty then .next s
  else
    let grains := (s.own.filter fun g => g.2.core == core).map Prod.fst
    let s1 := dropSi (grains.foldl recallGrain s) core
    .next (modCore { s1 with tlb := s1.tlb.filter fun t => t.at_ != .core core } core fun c => { c with gated := true })

end Sys2Proof.Machine
end

