-- ==== Sys2Proof/Machine/Int.lean ====
section
/-!
DEFINITION. Integer arithmetic, shifts and bit operations, predicates, selection and moves of the lane set (R196 to
R199) and their uniform counterparts (R275). Each function gives one lane's result from its sources.
-/

namespace Sys2Proof.Machine

/-- A result of integer type (R196): clamped under SAT, else wrapped. -/
def satOr (sat : Bool) (bits : Nat) (sg : Bool) (x : Int) : Nat := if sat then clampTo bits sg x else wrapTo bits x

/-- SGN at M[8]. -/
def sgn (i : Iss) : Bool := i.e.M 8 8 == 1
/-- SAT at M[9]. -/
def satBit (i : Iss) : Bool := i.e.M 9 9 == 1

/-- A result that leaves the generator alone. -/
def plain (fn : Iss → LaneIn → Nat) : State → Iss → LaneIn → LaneOut := fun _ i x => ⟨fn i x, x.lg⟩

/-- IADD. -/
def opIadd (i : Iss) (x : LaneIn) : Nat := satOr (satBit i) 32 (sgn i) (asInt 32 (sgn i) x.a + asInt 32 (sgn i) x.b)
/-- ISUB. -/
def opIsub (i : Iss) (x : LaneIn) : Nat := satOr (satBit i) 32 (sgn i) (asInt 32 (sgn i) x.a - asInt 32 (sgn i) x.b)
/-- IMUL. -/
def opImul (_ : Iss) (x : LaneIn) : Nat := (x.a * x.b) % 2 ^ 32
/-- IMULH. -/
def opImulh (i : Iss) (x : LaneIn) : Nat := wrapTo 32 ((asInt 32 (sgn i) x.a * asInt 32 (sgn i) x.b) / (2 ^ 32 : Nat))
/-- IMAD. -/
def opImad (i : Iss) (x : LaneIn) : Nat :=
  satOr (satBit i) 32 (sgn i) (asInt 32 (sgn i) x.a * asInt 32 (sgn i) x.b + asInt 32 (sgn i) x.c)
/-- IMIN. -/
def opImin (i : Iss) (x : LaneIn) : Nat := wrapTo 32 (min (asInt 32 (sgn i) x.a) (asInt 32 (sgn i) x.b))
/-- IMAX. -/
def opImax (i : Iss) (x : LaneIn) : Nat := wrapTo 32 (max (asInt 32 (sgn i) x.a) (asInt 32 (sgn i) x.b))
/-- IABS. -/
def opIabs (i : Iss) (x : LaneIn) : Nat :=
  let r : Int := (asInt 32 true x.a).natAbs
  if satBit i then clampTo 32 true r else wrapTo 32 r
/-- IADD64. -/
def opIadd64 (i : Iss) (x : LaneIn) : Nat := satOr (satBit i) 64 (sgn i) (asInt 64 (sgn i) x.a + asInt 64 (sgn i) x.b)
/-- IMADW. -/
def opImadw (i : Iss) (x : LaneIn) : Nat :=
  wrapTo 64 (asInt 32 (sgn i) x.a * asInt 32 (sgn i) x.b + asInt 64 (sgn i) x.c)
/-- LEA: SH at M[10:8], SGN at M[11]. -/
def opLea (i : Iss) (x : LaneIn) : Nat :=
  wrapTo 64 ((x.a : Int) + asInt 32 (i.e.M 11 11 == 1) x.b * (2 ^ i.e.M 10 8 : Nat))
/-- IDP4: AS at M[8], BS at M[9], SAT at M[10]. -/
def opIdp4 (i : Iss) (x : LaneIn) : Nat :=
  let as_ := i.e.M 8 8 == 1
  let bs := i.e.M 9 9 == 1
  let u := as_ || bs
  let dot : Int := (List.range 4).foldl (fun acc k =>
    acc + asInt 8 as_ (x.a / 256 ^ k) * asInt 8 bs (x.b / 256 ^ k)) 0
  satOr (i.e.M 10 10 == 1) 32 u (asInt 32 u x.c + dot)

/-- The shift amount (R197): WRAP at M[8]. -/
def shiftAmt (i : Iss) (x : LaneIn) : Nat := if i.e.M 8 8 = 1 then x.b % 32 else x.b
/-- SHL. -/
def opShl (i : Iss) (x : LaneIn) : Nat :=
  let n := shiftAmt i x
  if n ≥ 32 then 0 else (x.a * 2 ^ n) % 2 ^ 32
/-- SHR. -/
def opShr (i : Iss) (x : LaneIn) : Nat :=
  let n := shiftAmt i x
  if n ≥ 32 then 0 else x.a / 2 ^ n
/-- SAR. -/
def opSar (i : Iss) (x : LaneIn) : Nat := wrapTo 32 (asInt 32 true x.a / (2 ^ min (shiftAmt i x) 31 : Nat))
/-- FSHF: LEFT at M[8]. -/
def opFshf (i : Iss) (x : LaneIn) : Nat :=
  let w := x.c * 2 ^ 32 + x.a
  let n := x.b % 64
  if i.e.M 8 8 = 0 then (w / 2 ^ n) % 2 ^ 32 else (w * 2 ^ n) % 2 ^ 64 / 2 ^ 32
/-- LTAB: TAB at M[15:8]. -/
def opLtab (i : Iss) (x : LaneIn) : Nat :=
  packBits 1 ((List.range 32).map fun k => (tabBit (i.e.M 15 8) (x.a.testBit k) (x.b.testBit k) (x.c.testBit k)).toNat)
/-- POPC. -/
def opPopc (_ : Iss) (x : LaneIn) : Nat := ((List.range 32).filter fun k => x.a.testBit k).length
/-- CLZ. -/
def opClz (_ : Iss) (x : LaneIn) : Nat := 32 - bitLen x.a
/-- BREV. -/
def opBrev (_ : Iss) (x : LaneIn) : Nat := packBits 1 ((List.range 32).map fun k => (x.a.testBit (31 - k)).toNat)
/-- Position and width of a bit field; width 0 where the field is empty (R197). -/
def bitField (b : Nat) : Nat × Nat :=
  let pos := b % 256
  let len := b / 256 % 256
  if len = 0 ∨ pos ≥ 32 then (0, 0) else (pos, min len (32 - pos))
/-- BFE. -/
def opBfe (i : Iss) (x : LaneIn) : Nat :=
  let p := bitField x.b
  if p.2 = 0 then 0
  else
    let v := (x.a / 2 ^ p.1) % 2 ^ p.2
    if sgn i then wrapTo 32 (asInt p.2 true v) else v
/-- BFI. -/
def opBfi (_ : Iss) (x : LaneIn) : Nat :=
  let p := bitField x.b
  if p.2 = 0 then x.c
  else
    let low := x.c % 2 ^ p.1
    let high := x.c / 2 ^ (p.1 + p.2)
    low + (x.a % 2 ^ p.2) * 2 ^ p.1 + high * 2 ^ (p.1 + p.2)
/-- BPICK. -/
def opBpick (_ : Iss) (x : LaneIn) : Nat :=
  let w := x.b * 2 ^ 32 + x.a
  packBits 8 ((List.range 4).map fun k =>
    let sel := x.c / 16 ^ k % 16
    let y := w / 256 ^ (sel % 8) % 256
    if sel ≥ 8 then (if y ≥ 128 then 255 else 0) else y)

/-- ICMP: CMP M[11:8], TY M[14:12], PJ M[16:15], NCP M[17]. -/
def opIcmp (i : Iss) (x : LaneIn) : Nat :=
  let ty := i.e.M 14 12
  let r := icompare (i.e.M 11 8) (asInt (tyBits ty) (tySigned ty) x.a) (asInt (tyBits ty) (tySigned ty) x.b)
  (joinPred (i.e.M 16 15) r (x.pc != (i.e.M 17 17 == 1))).toNat
/-- PTAB: TAB at M[15:8]. -/
def opPtab (i : Iss) (x : LaneIn) : Nat := (tabBit (i.e.M 15 8) x.pa x.pb x.pc).toNat
/-- SEL: NCP at M[9]. -/
def opSel (i : Iss) (x : LaneIn) : Nat := if x.pc != (i.e.M 9 9 == 1) then x.a else x.b
/-- MOV. -/
def opMov (_ : Iss) (x : LaneIn) : Nat := x.b

/-- IADD (R196). -/
def execIadd (e : Enc) (s : State) : Res := execLane formIadd (plain opIadd) e s
/-- ISUB (R196). -/
def execIsub (e : Enc) (s : State) : Res := execLane formIsub (plain opIsub) e s
/-- IMUL (R196). -/
def execImul (e : Enc) (s : State) : Res := execLane formImul (plain opImul) e s
/-- IMULH (R196). -/
def execImulh (e : Enc) (s : State) : Res := execLane formImulh (plain opImulh) e s
/-- IMAD (R196). -/
def execImad (e : Enc) (s : State) : Res := execLane formImad (plain opImad) e s
/-- IMIN (R196). -/
def execImin (e : Enc) (s : State) : Res := execLane formImin (plain opImin) e s
/-- IMAX (R196). -/
def execImax (e : Enc) (s : State) : Res := execLane formImax (plain opImax) e s
/-- IABS (R196). -/
def execIabs (e : Enc) (s : State) : Res := execLane formIabs (plain opIabs) e s
/-- IADD64 (R196). -/
def execIadd64 (e : Enc) (s : State) : Res := execLane formIadd64 (plain opIadd64) e s
/-- IMADW (R196). -/
def execImadw (e : Enc) (s : State) : Res := execLane formImadw (plain opImadw) e s
/-- SHL (R197). -/
def execShl (e : Enc) (s : State) : Res := execLane formShl (plain opShl) e s
/-- SHR (R197). -/
def execShr (e : Enc) (s : State) : Res := execLane formShr (plain opShr) e s
/-- SAR (R197). -/
def execSar (e : Enc) (s : State) : Res := execLane formSar (plain opSar) e s
/-- FSHF (R197). -/
def execFshf (e : Enc) (s : State) : Res := execLane formFshf (plain opFshf) e s
/-- LTAB (R197). -/
def execLtab (e : Enc) (s : State) : Res := execLane formLtab (plain opLtab) e s
/-- POPC (R197). -/
def execPopc (e : Enc) (s : State) : Res := execLane formPopc (plain opPopc) e s
/-- CLZ (R197). -/
def execClz (e : Enc) (s : State) : Res := execLane formClz (plain opClz) e s
/-- BREV (R197). -/
def execBrev (e : Enc) (s : State) : Res := execLane formBrev (plain opBrev) e s
/-- BFE (R197). -/
def execBfe (e : Enc) (s : State) : Res := execLane formBfe (plain opBfe) e s
/-- BFI (R197). -/
def execBfi (e : Enc) (s : State) : Res := execLane formBfi (plain opBfi) e s
/-- BPICK (R197). -/
def execBpick (e : Enc) (s : State) : Res := execLane formBpick (plain opBpick) e s
/-- ICMP (R198). -/
def execIcmp (e : Enc) (s : State) : Res := execLane formIcmp (plain opIcmp) e s
/-- PTAB (R198). -/
def execPtab (e : Enc) (s : State) : Res := execLane formPtab (plain opPtab) e s
/-- SEL (R198). -/
def execSel (e : Enc) (s : State) : Res := execLane formSel (plain opSel) e s
/-- MOV (R198). -/
def execMov (e : Enc) (s : State) : Res := execLane formMov (plain opMov) e s

/-- A lane special (R175). -/
def laneSpecial (i : Iss) (lane n : Nat) : Nat :=
  let lg := (readLg i.a.g lane).toNat
  match n with
  | 0 => lane
  | 1 => workId i.a lane % 2 ^ 32
  | 2 => workId i.a lane / 2 ^ 32 % 2 ^ 32
  | 9 => lg % 2 ^ 32
  | 10 => lg / 2 ^ 32
  | k => workField i.a lane (k - 3) % 2 ^ 32

/-- The effect of RDSP. -/
def rdspEffect (i : Iss) (s : State) : State :=
  let outs := (participants s i.a i.e).map fun l => (l, laneSpecial i l i.e.a.toNat)
  retire s i (outs.flatMap fun o => vWrites o.1 i.e.d.toNat 1 o.2) [] (outs.map fun o => (o.1, BitVec.ofNat 32 o.2))

/-- RDSP (R199): the generator's state is that of the latest-issued drawing instruction. -/
def execRdsp (e : Enc) (s : State) : Res := issue formRdsp e s rdspEffect

/-- The generator with one half replaced (R175, R199). -/
def opWrsp (_ : State) (i : Iss) (x : LaneIn) : LaneOut :=
  let lo := x.lg.toNat % 2 ^ 32
  let hi := x.lg.toNat / 2 ^ 32
  ⟨0, BitVec.ofNat 64 (if i.e.a = 9 then x.b + hi * 2 ^ 32 else lo + x.b * 2 ^ 32)⟩

/-- WRSP (R199). -/
def execWrsp (e : Enc) (s : State) : Res := execLane formWrsp opWrsp e s
/-- LEA (R196). -/
def execLea (e : Enc) (s : State) : Res := execLane formLea (plain opLea) e s
/-- IDP4 (R196). -/
def execIdp4 (e : Enc) (s : State) : Res := execLane formIdp4 (plain opIdp4) e s

/-- SADD (R275). -/
def execSadd (e : Enc) (s : State) : Res := execUni formSadd (plain opIadd) e s
/-- SSUB (R275). -/
def execSsub (e : Enc) (s : State) : Res := execUni formSsub (plain opIsub) e s
/-- SMUL (R275). -/
def execSmul (e : Enc) (s : State) : Res := execUni formSmul (plain opImul) e s
/-- SMAD (R275). -/
def execSmad (e : Enc) (s : State) : Res := execUni formSmad (plain opImad) e s
/-- SMIN (R275). -/
def execSmin (e : Enc) (s : State) : Res := execUni formSmin (plain opImin) e s
/-- SMAX (R275). -/
def execSmax (e : Enc) (s : State) : Res := execUni formSmax (plain opImax) e s
/-- SSHL (R275). -/
def execSshl (e : Enc) (s : State) : Res := execUni formSshl (plain opShl) e s
/-- SSHR (R275). -/
def execSshr (e : Enc) (s : State) : Res := execUni formSshr (plain opShr) e s
/-- SSAR (R275). -/
def execSsar (e : Enc) (s : State) : Res := execUni formSsar (plain opSar) e s
/-- SLTAB (R275). -/
def execSltab (e : Enc) (s : State) : Res := execUni formSltab (plain opLtab) e s
/-- SMOV (R275). -/
def execSmov (e : Enc) (s : State) : Res := execUni formSmov (plain opMov) e s
/-- SCMP (R275). -/
def execScmp (e : Enc) (s : State) : Res := execUni formScmp (plain opIcmp) e s
/-- SSEL (R275). -/
def execSsel (e : Enc) (s : State) : Res := execUni formSsel (plain opSel) e s
/-- SADD64 (R275). -/
def execSadd64 (e : Enc) (s : State) : Res := execUni formSadd64 (plain opIadd64) e s
/-- SMADW (R275). -/
def execSmadw (e : Enc) (s : State) : Res := execUni formSmadw (plain opImadw) e s
/-- SBFE (R275). -/
def execSbfe (e : Enc) (s : State) : Res := execUni formSbfe (plain opBfe) e s
/-- SPOPC (R275). -/
def execSpopc (e : Enc) (s : State) : Res := execUni formSpopc (plain opPopc) e s
/-- SCLZ (R275). -/
def execSclz (e : Enc) (s : State) : Res := execUni formSclz (plain opClz) e s
/-- QTAB (R275). -/
def execQtab (e : Enc) (s : State) : Res := execUni formQtab (plain opPtab) e s

end Sys2Proof.Machine
end

