-- ==== Sys2Proof/Machine/Stream.lean ====
section
/-!
DEFINITION. Ochre's XF, DCD and ENC (R232 to R239).
-/

namespace Sys2Proof.Machine

/-- A v register of a lane as a source. -/
def vReg (s : State) (i : Iss) (lane r : Nat) : Nat := readV s i.a lane r 1

/-- XF.tr and XF.tr64 (R233): `w` registers for each element. -/
def xfTranspose (s : State) (i : Iss) (w : Nat) (cj : Bool) (ls : List Nat) : List (Nat × Word) :=
  ls.flatMap fun l => (List.range 32).flatMap fun j =>
    let x := if ls.contains j then readV s i.a j (i.e.a.toNat + w * l) w else 0
    let y := if cj then (if x.testBit 63 then x - 2 ^ 63 else x + 2 ^ 63) else x
    vWrites l (i.e.d.toNat + w * j) w y

/-- XF.conj (R234): `w` registers for each component, `n` values; the one CF32 value may come from a latch (R180). -/
def xfConj (s : State) (i : Iss) (w n : Nat) (ls : List Nat) : List (Nat × Word) :=
  ls.flatMap fun l => (List.range n).flatMap fun k =>
    let x := if i.e.ctl.la ≠ 0 then srcA s i.a i.f i.e l else readV s i.a l (i.e.a.toNat + 2 * w * k) (2 * w)
    let top := 2 ^ (64 * w - 1)
    vWrites l (i.e.d.toNat + 2 * w * k) (2 * w) (if x.testBit (64 * w - 1) then x - top else x + top)

/-- The groups of a lane's 32 values under XF.q: elements, scales, generator (R235). -/
def xfGroups (rc : RCtx) (scf q g n : Nat) (ps : List Nat) (lg : Dword) : List Int × List Nat × Dword :=
  match n with
  | 0 => ([], [], lg)
  | k + 1 =>
    let r := quantGroup rc scf q false ((ps.take g).map fun p => fval 0 (flushIn rc.ftz 0 p)) lg
    let t := xfGroups rc scf q g k (ps.drop g) r.2.2
    (r.2.1 ++ t.1, r.1 :: t.2.1, t.2.2)

/-- XF.q of one lane. -/
def xfQuant (s : State) (i : Iss) (l : Nat) : List (Nat × Word) × Dword :=
  let fmt := i.a.sp.fmt
  let g := if fmtGSZ fmt = 3 then 16 else 32
  let r := xfGroups (rctx s i.a 0) (fmtSCF fmt) (if i.e.M 10 10 = 1 then 3 else 7) g (32 / g)
    ((List.range 32).map fun k => vReg s i l (i.e.a.toNat + k)) (readLg i.a.g l)
  let words := r.1.map (wrapTo 32) ++ r.2.1
  ((rangeFrom (vKey l i.e.d.toNat) words.length).zip (words.map (BitVec.ofNat 32)), r.2.2)

/-- The effect of XF: MODE M[9:8], X M[10], CNT M[13:11]. -/
def xfEffect (i : Iss) (s : State) : State :=
  let ls := participants s i.a i.e
  match i.e.M 9 8 with
  | 0 => retireV s i (xfTranspose s i 1 false ls)
  | 1 => retireV s i (xfTranspose s i 2 (i.e.M 10 10 == 1) ls)
  | 2 => retireV s i (xfConj s i (if i.e.M 10 10 = 1 then 2 else 1) (i.e.M 13 11 + 1) ls)
  | _ =>
    let outs := ls.map fun l => (l, xfQuant s i l)
    retireV (outs.foldl (fun acc o => setLg acc i.a.gid o.1 o.2.2) s) i (outs.flatMap fun o => o.2.1)

/-- XF (R232). -/
def execXf (e : Enc) (s : State) : Res := issue formXf e s xfEffect

/-- The trap of a stopped read of records (R238). -/
def dcdTrap (c : Acc) (d : DcdStop) : TrapRec :=
  match d with
  | .bad a r => ⟨6, 3, BitVec.ofNat 32 a, BitVec.ofNat 32 r, c.w2⟩
  | .bound a => scrTrap c 0 false 4 a
  | .need g => scrTrap c 0 false 4 (16 * g)

/-- The effect of DCD: ST M[9:8], EF M[13:10], CNT M[16:14], Q M[18:17]. -/
def dcdEffect (got : SMap Byte) (i : Iss) (s : State) : State :=
  let ls := participants s i.a i.e
  let l0 := lowLane i.a.sp.active
  let c := accOf i
  let n := i.e.M 16 14 + 1
  let rd (a : Nat) : Option Byte := some ((mfind got a).getD (scrByte i.a.tm a))
  if ls.isEmpty then retireV s i []
  else
    match dcdRecords i.a.tm rd (i.e.M 9 8) (i.e.M 13 10) (fmtSCF i.a.sp.fmt) 0 n
        (srcA s i.a i.f i.e l0) (srcB s i.a i.f i.e l0) with
    | .error d => faultV s i (dcdTrap c d)
    | .ok v =>
      let ws := ls.flatMap fun l =>
        ((List.range n).flatMap fun r => vWrites l (i.e.d.toNat + r) 1 ((v.1.getD r []).getD l 0))
          ++ vWrites l (i.e.d.toNat + n) 1 v.2
      let s1 := retireV s i ws
      if i.e.M 18 17 = 0 then s1 else acquireAround s1 i.a.gid c.core 1

/-- DCD (R237, R238). -/
def execDcd (e : Enc) (s : State) : Res := issueWait formDcd e (.dcd e) s dcdEffect

/-- The records of ENC from record `r` on (R239): bytes, and the generators by lane. -/
def encRecords (rc : RCtx) (st ef scf : Nat) (xs : List (List (Option Nat))) (base : Nat) (lgs : SMap Dword) :
    List Byte × SMap Dword :=
  match xs with
  | [] => ([], lgs)
  | x :: rest =>
    let zero (v : Option Nat) : XVal := fval 0 (v.getD 0)
    let one : List Byte × Nat × SMap Dword :=
      match st with
      | 0 => (bmapBytes (if ef = 0 then 4 else 2) x, 0, lgs)
      | 1 => let r := dvarBytes base x; (r.1, r.2, lgs)
      | 2 =>
        let r := mxEncode rc.comp ef (x.map zero)
        (leBytes (4 * (ffOf ef).bits) (packBits (ffOf ef).bits r.2) ++ leBytes 1 r.1, 0, lgs)
      | _ =>
        let r := encI4g rc scf x lgs
        (leBytes 16 (packBits 4 (r.2.1.map (wrapTo 4))) ++ leBytes (scaleBytes scf) r.1, 0, r.2.2)
    let q := encRecords rc st ef scf rest one.2.1 one.2.2
    (one.1 ++ q.1, q.2)
where
  /-- Quantises a record over its 32 lanes; each participant's element rounds with its own generator. -/
  encI4g (rc : RCtx) (scf : Nat) (x : List (Option Nat)) (lgs : SMap Dword) : Nat × List Int × SMap Dword :=
    let vals := x.map fun v => fval 0 (v.getD 0)
    let base := quantGroup { rc with mode := if rc.mode = 5 then 0 else rc.mode } scf 7 false vals 1
    if rc.mode ≠ 5 then (base.1, base.2.1, lgs)
    else
      let lanes := (List.range 32).filter fun l => (x.getD l none).isSome
      let drawn := lanes.map fun l => (l, genStep (mget lgs l 0))
      let lgs' := drawn.foldl (fun m d => mput 0 m d.1 d.2.1) lgs
      let zeros := base.2.1.all (· == 0) && (vals.any (· == .nan) || (amaxOf vals).m == 0 || (scaleX scf base.1).isZero)
      if zeros then (base.1, base.2.1, lgs')
      else
        (base.1, (List.range 32).map (fun l =>
          match mfind drawn l with
          | some d =>
            let v := vals.getD l (.fin false 0 0 false)
            toIntSat 5 d.2 (if v == .inf true then -7 else -8) 7 (xquot v (scaleX scf base.1))
          | none => 0), lgs')

/-- The effect of ENC, performed whole as it issues, with its full bits (log 12): ST M[9:8], EF M[13:10], CNT M[16:14]. -/
def encEffect (i : Iss) (s : State) : State :=
  let ls := participants s i.a i.e
  let l0 := lowLane i.a.sp.active
  let c := accOf i
  let tk := teamKey i.a.gid
  let base := srcA s i.a i.f i.e l0
  let xs : List (List (Option Nat)) := (List.range (i.e.M 16 14 + 1)).map fun r =>
    (List.range 32).map fun l => if ls.contains l then some (srcB s i.a i.f i.e l / 2 ^ (32 * r) % 2 ^ 32) else none
  if ls.isEmpty then retireV s i []
  else
    let r := encRecords (rctx s i.a 0) (i.e.M 9 8) (i.e.M 13 10) (fmtSCF i.a.sp.fmt) xs (srcC s i.a i.f i.e l0) i.a.g.lg
    let n := r.1.length
    if base + n > i.a.tm.scrsize then faultV s i (scrTrap c 0 true 4 base)
    else
      let s1 := scrWrite (modGroup s i.a.gid fun g => { g with lg := r.2 }) tk base r.1
      let s2 := retireV s1 i (ls.flatMap fun l => vWrites l i.e.d.toNat 1 n)
      fill (noteRelease s2 c 1 []) tk (granules base n)

/-- ENC (R239). -/
def execEnc (e : Enc) (s : State) : Res := issue formEnc e s encEffect

end Sys2Proof.Machine
end

