-- ==== Sys2Proof/Machine/Sys.lean ====
section
/-!
DEFINITION. Tasks as a program sees them (R296 to R298, R306): TASK TJOIN TSETTLE TKILL; format, compand and quota state
(R300 to R303): SETFMT SETCMP RQUOTA WRSR; and the system instructions (R304 to R308): TRAP BKPT TRET OTSET PINV.
-/

namespace Sys2Proof.Machine

/-- A uniform source A. -/
def uniA (s : State) (i : Iss) : Nat := srcA s i.a i.f i.e (lowLane i.a.sp.active)
/-- A uniform source B. -/
def uniB (s : State) (i : Iss) : Nat := srcB s i.a i.f i.e (lowLane i.a.sp.active)

/-- The effect of TASK (R165, R296): a release at .dev; the card is Carmine's to accept. -/
def taskEffect (i : Iss) (s : State) : State :=
  if !uniGuard s i.a i.e then retireV s i []
  else
    let va := uniA s i
    if va % 128 ≠ 0 then faultV s i (memTrap (accOf i) 0 false 2 3 va 0)
    else outstanding (noteRelease s (accOf i) 3 []) i [] (.task i.e.d.toNat va) false false

/-- TASK (R296). -/
def execTask (e : Enc) (s : State) : Res := issue formTask e s taskEffect

/-- The effect of TJOIN (R166, R297), once no record is awaited. -/
def tjoinEffect (_ : SMap Byte) (i : Iss) (s : State) : State :=
  if !uniGuard s i.a i.e then retireV s i []
  else
    let x := uniA s i
    let p := i.a.tm.part
    let hit (c : Child) : Bool := c.parent == i.a.tm.tid && c.child == x && !c.joined
    match (getPart s p).children.find? hit with
    | some c =>
      let s1 := modPart s p fun q => { q with children := q.children.map fun c => if hit c then { c with joined := true } else c }
      acquire (hearWhere (retireV s1 i (sWrites i.e.d.toNat 1 (c.stat.getD 6).toNat)) i.a.gid fun r => r.part == p && r.tid == x)
        i.a.gid i.a.tm.core 3
    | none => retireV s i (sWrites i.e.d.toNat 1 6)

/-- TJOIN (R297). -/
def execTjoin (e : Enc) (s : State) : Res := issueWait formTjoin e (.tjoin e) s tjoinEffect

/-- The effect of TSETTLE (R158, R298): a release at .dev, then the test in one event. -/
def tsettleEffect (i : Iss) (s : State) : State :=
  if !uniGuard s i.a i.e then retireV s i []
  else
    let s1 := noteRelease s (accOf i) 3 []
    let p := i.a.tm.part
    let t := getTask s1 p i.a.tm.tid
    let j := uniB s i
    if t.st == .released && decide (j < 8) && maySettle s1 p t j then
      retireV (settleRegion s1 p t.tid j) i [qWrite i.e.d.toNat true]
    else retireV s1 i [qWrite i.e.d.toNat false]

/-- TSETTLE (R298). -/
def execTsettle (e : Enc) (s : State) : Res := issue formTsettle e s tsettleEffect

/-- The effect of TKILL (R306): the executing task, or a descendant, is killed. -/
def tkillEffect (i : Iss) (s : State) : State :=
  let s1 := retireN s i
  let p := i.a.tm.part
  let me := i.a.tm.tid
  let x := if uniA s i = 0 then me else uniA s i
  let q := getPart s p
  if uniGuard s i.a i.e && (x == me || (ancestors (q.children.length + 1) q x).contains me) then
    stopTask s1 p x ⟨3, ⟨0, 0, BitVec.ofNat 32 me, 0, 0⟩⟩
  else s1

/-- TKILL (R306). -/
def execTkill (e : Enc) (s : State) : Res := issue formTkill e s tkillEffect

/-- ENC, FMT at an instruction (R54). -/
def fmtTrap (i : Iss) (x : Word) : Option TrapRec :=
  if fmtLegal x then none else some ⟨1, 18, ctlWord i.f.uni i.e.ctl, opWord i.f.op i.e, i.loc⟩

/-- SETFMT's trap: a check of R183, made whatever its guard says (R54, R191). -/
def setfmtCheck (s : State) (i : Iss) : Option TrapRec := fmtTrap i (BitVec.ofNat 32 (uniB s i))

/-- The effect of SETFMT (R300). -/
def setfmtEffect (i : Iss) (s : State) : State :=
  retireN (if uniGuard s i.a i.e then
    modSplit s i.a.gid i.a.k fun x => { x with fmt := BitVec.ofNat 32 (uniB s i) } else s) i

/-- SETFMT (R300). -/
def execSetfmt (e : Enc) (s : State) : Res := issueChecked formSetfmt e s setfmtCheck setfmtEffect

/-- A slope exponent byte. -/
def slopeOf (b : Byte) : Int := b.toInt

/-- The offset of the first faulty byte of a compand image (R49, R301). -/
def imageFault (bs : List Byte) : Option Nat :=
  let bp (i : Nat) : XVal := fval 0 (recNat bs (4 * i) 4)
  let low (i : Nat) : Bool := i != 0 && !fcompare 2 (bp (i - 1)) (bp i)
  match (List.range 15).find? fun i => (match bp i with | .fin _ _ _ _ => low i | _ => true) with
  | some i => some (4 * i)
  | none =>
    (rangeFrom 60 20).find? fun k =>
      if k < 64 then bs.getD k 0 != 0 else decide (8 < (slopeOf (bs.getD k 0)).natAbs)

/-- The table of a compand image (R49). -/
def imageTable (bs : List Byte) : Compand where
  bps := (List.range 15).map fun i => BitVec.ofNat 32 (recNat bs (4 * i) 4)
  slopes := (List.range 16).map fun i => slopeOf (bs.getD (64 + i) 0)

/-- The effect of SETCMP (R301): TABLE M[9:8]. -/
def setcmpEffect (i : Iss) (s : State) : State :=
  if !uniGuard s i.a i.e then retireV s i []
  else
    let a := uniA s i % 2 ^ 32
    let tm := i.a.tm
    if a % 4 ≠ 0 then faultV s i (scrTrap (accOf i) 0 false 3 a)
    else if a + 80 > tm.scrsize then faultV s i (scrTrap (accOf i) 0 false 4 a)
    else
      let bs := scrRead tm a 80
      let t := i.e.M 9 8
      match imageFault bs with
      | some k => faultV s i ⟨4, 1, BitVec.ofNat 32 a, BitVec.ofNat 32 (k + 2 ^ 8 * t), i.loc⟩
      | none => retireV (modCore s tm.core fun c => { c with tables := mset c.tables t (imageTable bs) }) i []

/-- SETCMP (R301). -/
def execSetcmp (e : Enc) (s : State) : Res := issue formSetcmp e s setcmpEffect

/-- The receiver of an RQUOTA cannot be given granules at issue (R302). -/
def rquotaRefused (s : State) (i : Iss) (r : Nat) : Bool :=
  let gid := 32 * teamKey i.a.gid + r
  decide (i.a.tm.ngrp ≤ r) || r == i.a.g.w1 || quadrantOf i.a.tm r != quadrantOf i.a.tm i.a.g.w1
  || (match mfind s.groups gid with | none => true | some g => isEvicted g)

/-- The effect of RQUOTA (R28, R302): the granules are withheld until the move is performed. -/
def rquotaEffect (i : Iss) (s : State) : State :=
  let q (v : Bool) : List (Nat × Word) := [qWrite i.e.d.toNat v]
  if !uniGuard s i.a i.e then retireV s i []
  else
    let n := uniB s i % 2 ^ 32
    let r := uniA s i % 2 ^ 32
    if n = 0 then retireV s i (q true)
    else if n > quotaNow i.a.g ∨ rquotaRefused s i r then retireV s i (q false)
    else outstanding s i [] (.rquota r n i.e.d.toNat) false false

/-- RQUOTA (R302). -/
def execRquota (e : Enc) (s : State) : Res := issue formRquota e s rquotaEffect

/-- The effect of WRSR (R303). -/
def wrsrEffect (i : Iss) (s : State) : State :=
  retireN (if uniGuard s i.a i.e then
    modGroup s i.a.gid fun g => { g with hc := mput 0 g.hc (i.e.d.toNat - 160) (BitVec.ofNat 32 (uniB s i)) } else s) i

/-- WRSR (R303). -/
def execWrsr (e : Enc) (s : State) : Res := issue formWrsr e s wrsrEffect

/-- A trap after issue, with the next instruction as the resume offset (R304); in a hold chain that goes on, after its end
(R182). -/
def softTrap (group code : Nat) (i : Iss) (s : State) : State :=
  let s1 := retireN s i
  let t : TrapRec := ⟨group, code, 0, 0, i.loc⟩
  if !uniGuard s i.a i.e then s1
  else if i.e.ctl.hold then raiseInChain s1 i t
  else takeTrap s1 i.a.gid i.a.k t i.a.sp.pc

/-- TRAP (R304): code M[12:8]. -/
def execTrap (e : Enc) (s : State) : Res := issue formTrap e s (softTrap 11 (e.M 12 8))

/-- BKPT (R304). -/
def execBkpt (e : Enc) (s : State) : Res := issue formBkpt e s (softTrap 12 1)

/-- TRET's trap: hc2 is no legal fmt (R305). -/
def tretCheck (s : State) (i : Iss) : Option TrapRec :=
  if uniGuard s i.a i.e then fmtTrap i (mget i.a.g.hc 2 0) else none

/-- The handler's splits become the trapped split again, with every lane of it that has not ended (R305). -/
def joinHandler (h : Handler) (g : Group) : Group :=
  let own := (g.splits.find? (·.handler)).getD Split.empty
  let x : Split :=
    { own with
      active := h.mask &&& ~~~g.exited, pc := mget g.hc 0 0, fmt := mget g.hc 2 0, pend := h.pend, park := .none
      age := h.split, now := (g.splits.filter (·.handler)).foldl (fun m y => max m y.now) 0
      traps := (g.splits.filter (·.handler)).flatMap (·.traps) }
  { g with splits := (g.splits.filter fun y => !y.handler) ++ [x]
           entries := g.entries.filter fun e => h.slots.contains e.1 }

/-- The effect of TRET (R305, R368, R372): the lanes whose hc1 bit is clear end, and handler mode ends. -/
def tretEffect (i : Iss) (s : State) : State :=
  let s1 := retireN s i
  let gid := i.a.gid
  match i.a.g.handler with
  | none => s1
  | some h =>
    if !uniGuard s i.a i.e then s1
    else
      let s2 := modGroup s1 gid (joinHandler h)
      let g := getGroup s2 gid
      let k := g.splits.length - 1
      let gone := (g.splits.getD k Split.empty).active &&& ~~~(mget g.hc 1 0)
      let s3 := if gone = 0 then s2 else exitLanes s2 gid k gone
      if (getGroup s3 gid).handler.isSome then leaveHandler s3 gid else s3

/-- TRET (R305). -/
def execTret (e : Enc) (s : State) : Res := issueChecked formTret e s tretCheck tretEffect

/-- OTSET's traps (R307). -/
def otsetCheck (s : State) (i : Iss) : Option TrapRec :=
  let a := uniB s i % 2 ^ 32
  if !uniGuard s i.a i.e then none
  else if a % 16 ≠ 0 then some (scrTrap (accOf i) 0 false 3 a)
  else if a + 32 > i.a.tm.scrsize then some (scrTrap (accOf i) 0 false 4 a)
  else
    let p := i.a.tm.part
    let at_ := (getPart s p).otbase + 32 * (uniA s i % 2 ^ 16)
    if holdsPhys s p at_ then none else some (memTrap (accOf i) 0 true 13 1 0 at_)

/-- A cached copy of an object-table entry is dropped (R307, R380). -/
def dropOt (s : State) (p h : Nat) : State := modPart s p fun q => { q with otcache := mdel q.otcache h }

/-- The effect of OTSET (R307): the entry is written as one unit, and every cached copy dropped. -/
def otsetEffect (i : Iss) (s : State) : State :=
  let s1 := retireN s i
  if !uniGuard s i.a i.e then s1
  else
    let h := uniA s i % 2 ^ 16
    let p := i.a.tm.part
    let at_ := (getPart s p).otbase + 32 * h
    dropOt (homeWrite s1 ((rangeFrom at_ 32).zip (scrRead i.a.tm (uniB s i % 2 ^ 32) 32)) 0) p h

/-- OTSET (R307). -/
def execOtset (e : Enc) (s : State) : Res := issueChecked formOtset e s otsetCheck otsetEffect

/-- PINV's trap (R308). -/
def pinvCheck (s : State) (i : Iss) : Option TrapRec :=
  if uniGuard s i.a i.e && decide (2 ^ 52 ≤ uniA s i) then some (memTrap (accOf i) 0 false 2 1 (uniA s i) 0) else none

/-- A TLB entry translates an address. -/
def tlbCovers (p va : Nat) (t : TlbEnt) : Bool := t.part == p && t.page == pageBase t.leaf va

/-- The effect of PINV (R308, R363): no TLB holds the page any more. -/
def pinvEffect (i : Iss) (s : State) : State :=
  let s1 := retireN s i
  if uniGuard s i.a i.e then { s1 with tlb := s1.tlb.filter fun t => !tlbCovers i.a.tm.part (uniA s i) t } else s1

/-- PINV (R308). -/
def execPinv (e : Enc) (s : State) : Res := issueChecked formPinv e s pinvCheck pinvEffect

end Sys2Proof.Machine
end

