-- ==== Sys2Proof/Machine/Dispatch.lean ====
section
/-!
DEFINITION. One arm for each constructor of `Instr`.
-/

namespace Sys2Proof.Machine

def exec (i : Instr) (s : State) : Host.Outcome State Fault Refusal :=
  match i with
  | .iadd e => Sys2Proof.Machine.execIadd e s
  | .isub e => Sys2Proof.Machine.execIsub e s
  | .imul e => Sys2Proof.Machine.execImul e s
  | .imulh e => Sys2Proof.Machine.execImulh e s
  | .imad e => Sys2Proof.Machine.execImad e s
  | .imin e => Sys2Proof.Machine.execImin e s
  | .imax e => Sys2Proof.Machine.execImax e s
  | .iabs e => Sys2Proof.Machine.execIabs e s
  | .iadd64 e => Sys2Proof.Machine.execIadd64 e s
  | .imadw e => Sys2Proof.Machine.execImadw e s
  | .shl e => Sys2Proof.Machine.execShl e s
  | .shr e => Sys2Proof.Machine.execShr e s
  | .sar e => Sys2Proof.Machine.execSar e s
  | .fshf e => Sys2Proof.Machine.execFshf e s
  | .ltab e => Sys2Proof.Machine.execLtab e s
  | .popc e => Sys2Proof.Machine.execPopc e s
  | .clz e => Sys2Proof.Machine.execClz e s
  | .brev e => Sys2Proof.Machine.execBrev e s
  | .bfe e => Sys2Proof.Machine.execBfe e s
  | .bfi e => Sys2Proof.Machine.execBfi e s
  | .bpick e => Sys2Proof.Machine.execBpick e s
  | .icmp e => Sys2Proof.Machine.execIcmp e s
  | .ptab e => Sys2Proof.Machine.execPtab e s
  | .sel e => Sys2Proof.Machine.execSel e s
  | .mov e => Sys2Proof.Machine.execMov e s
  | .rdsp e => Sys2Proof.Machine.execRdsp e s
  | .wrsp e => Sys2Proof.Machine.execWrsp e s
  | .lea e => Sys2Proof.Machine.execLea e s
  | .idp4 e => Sys2Proof.Machine.execIdp4 e s
  | .fadd e => Sys2Proof.Machine.execFadd e s
  | .fmul e => Sys2Proof.Machine.execFmul e s
  | .ffma e => Sys2Proof.Machine.execFfma e s
  | .fmin e => Sys2Proof.Machine.execFmin e s
  | .fmax e => Sys2Proof.Machine.execFmax e s
  | .fcmp e => Sys2Proof.Machine.execFcmp e s
  | .fclass e => Sys2Proof.Machine.execFclass e s
  | .fscale e => Sys2Proof.Machine.execFscale e s
  | .frnd e => Sys2Proof.Machine.execFrnd e s
  | .cvt e => Sys2Proof.Machine.execCvt e s
  | .pkn e => Sys2Proof.Machine.execPkn e s
  | .upkn e => Sys2Proof.Machine.execUpkn e s
  | .cfma e => Sys2Proof.Machine.execCfma e s
  | .cmul e => Sys2Proof.Machine.execCmul e s
  | .fdp2 e => Sys2Proof.Machine.execFdp2 e s
  | .frcp e => Sys2Proof.Machine.execFrcp e s
  | .frsq e => Sys2Proof.Machine.execFrsq e s
  | .fsqrt e => Sys2Proof.Machine.execFsqrt e s
  | .fdiv e => Sys2Proof.Machine.execFdiv e s
  | .fexp2 e => Sys2Proof.Machine.execFexp2 e s
  | .flog2 e => Sys2Proof.Machine.execFlog2 e s
  | .xf e => Sys2Proof.Machine.execXf e s
  | .dcd e => Sys2Proof.Machine.execDcd e s
  | .enc e => Sys2Proof.Machine.execEnc e s
  | .xlane e => Sys2Proof.Machine.execXlane e s
  | .poll e => Sys2Proof.Machine.execPoll e s
  | .redux e => Sys2Proof.Machine.execRedux e s
  | .scan e => Sys2Proof.Machine.execScan e s
  | .matchB e => Sys2Proof.Machine.execMatchB e s
  | .topk e => Sys2Proof.Machine.execTopk e s
  | .rand e => Sys2Proof.Machine.execRand e s
  | .prune e => Sys2Proof.Machine.execPrune e s
  | .mma e => Sys2Proof.Machine.execMma e s
  | .mmac e => Sys2Proof.Machine.execMmac e s
  | .plnst e => Sys2Proof.Machine.execPlnst e s
  | .mdrn e => Sys2Proof.Machine.execMdrn e s
  | .ld e => Sys2Proof.Machine.execLd e s
  | .st e => Sys2Proof.Machine.execSt e s
  | .lds e => Sys2Proof.Machine.execLds e s
  | .sts e => Sys2Proof.Machine.execSts e s
  | .atom e => Sys2Proof.Machine.execAtom e s
  | .atoms e => Sys2Proof.Machine.execAtoms e s
  | .red e => Sys2Proof.Machine.execRed e s
  | .tld e => Sys2Proof.Machine.execTld e s
  | .tstr e => Sys2Proof.Machine.execTstr e s
  | .pref e => Sys2Proof.Machine.execPref e s
  | .resq e => Sys2Proof.Machine.execResq e s
  | .hins e => Sys2Proof.Machine.execHins e s
  | .hprobe e => Sys2Proof.Machine.execHprobe e s
  | .hacc e => Sys2Proof.Machine.execHacc e s
  | .hdel e => Sys2Proof.Machine.execHdel e s
  | .gld e => Sys2Proof.Machine.execGld e s
  | .gdeg e => Sys2Proof.Machine.execGdeg e s
  | .gadd e => Sys2Proof.Machine.execGadd e s
  | .gdel e => Sys2Proof.Machine.execGdel e s
  | .gfind e => Sys2Proof.Machine.execGfind e s
  | .gpay e => Sys2Proof.Machine.execGpay e s
  | .copen e => Sys2Proof.Machine.execCopen e s
  | .cnext e => Sys2Proof.Machine.execCnext e s
  | .cseek e => Sys2Proof.Machine.execCseek e s
  | .cinfo e => Sys2Proof.Machine.execCinfo e s
  | .cclose e => Sys2Proof.Machine.execCclose e s
  | .gisect e => Sys2Proof.Machine.execGisect e s
  | .sadd e => Sys2Proof.Machine.execSadd e s
  | .ssub e => Sys2Proof.Machine.execSsub e s
  | .smul e => Sys2Proof.Machine.execSmul e s
  | .smad e => Sys2Proof.Machine.execSmad e s
  | .smin e => Sys2Proof.Machine.execSmin e s
  | .smax e => Sys2Proof.Machine.execSmax e s
  | .sshl e => Sys2Proof.Machine.execSshl e s
  | .sshr e => Sys2Proof.Machine.execSshr e s
  | .ssar e => Sys2Proof.Machine.execSsar e s
  | .sltab e => Sys2Proof.Machine.execSltab e s
  | .smov e => Sys2Proof.Machine.execSmov e s
  | .scmp e => Sys2Proof.Machine.execScmp e s
  | .ssel e => Sys2Proof.Machine.execSsel e s
  | .sadd64 e => Sys2Proof.Machine.execSadd64 e s
  | .smadw e => Sys2Proof.Machine.execSmadw e s
  | .sbfe e => Sys2Proof.Machine.execSbfe e s
  | .spopc e => Sys2Proof.Machine.execSpopc e s
  | .sclz e => Sys2Proof.Machine.execSclz e s
  | .qtab e => Sys2Proof.Machine.execQtab e s
  | .sffma e => Sys2Proof.Machine.execSffma e s
  | .scvt e => Sys2Proof.Machine.execScvt e s
  | .sld e => Sys2Proof.Machine.execSld e s
  | .sst e => Sys2Proof.Machine.execSst e s
  | .slds e => Sys2Proof.Machine.execSlds e s
  | .ssts e => Sys2Proof.Machine.execSsts e s
  | .satom e => Sys2Proof.Machine.execSatom e s
  | .oinfo e => Sys2Proof.Machine.execOinfo e s
  | .bra e => Sys2Proof.Machine.execBra e s
  | .brl e => Sys2Proof.Machine.execBrl e s
  | .brx e => Sys2Proof.Machine.execBrx e s
  | .rjn e => Sys2Proof.Machine.execRjn e s
  | .call e => Sys2Proof.Machine.execCall e s
  | .ret e => Sys2Proof.Machine.execRet e s
  | .exit e => Sys2Proof.Machine.execExit e s
  | .loopn e => Sys2Proof.Machine.execLoopn e s
  | .nop e => Sys2Proof.Machine.execNop e s
  | .bar e => Sys2Proof.Machine.execBar e s
  | .bara e => Sys2Proof.Machine.execBara e s
  | .barw e => Sys2Proof.Machine.execBarw e s
  | .rcw e => Sys2Proof.Machine.execRcw e s
  | .gbar e => Sys2Proof.Machine.execGbar e s
  | .fence e => Sys2Proof.Machine.execFence e s
  | .cqinit e => Sys2Proof.Machine.execCqinit e s
  | .cqadv e => Sys2Proof.Machine.execCqadv e s
  | .cqwait e => Sys2Proof.Machine.execCqwait e s
  | .cqseq e => Sys2Proof.Machine.execCqseq e s
  | .task e => Sys2Proof.Machine.execTask e s
  | .tjoin e => Sys2Proof.Machine.execTjoin e s
  | .tsettle e => Sys2Proof.Machine.execTsettle e s
  | .hinit e => Sys2Proof.Machine.execHinit e s
  | .setfmt e => Sys2Proof.Machine.execSetfmt e s
  | .setcmp e => Sys2Proof.Machine.execSetcmp e s
  | .rquota e => Sys2Proof.Machine.execRquota e s
  | .wrsr e => Sys2Proof.Machine.execWrsr e s
  | .trap e => Sys2Proof.Machine.execTrap e s
  | .bkpt e => Sys2Proof.Machine.execBkpt e s
  | .tret e => Sys2Proof.Machine.execTret e s
  | .tkill e => Sys2Proof.Machine.execTkill e s
  | .otset e => Sys2Proof.Machine.execOtset e s
  | .pinv e => Sys2Proof.Machine.execPinv e s
  | .resultReadable gid op => Sys2Proof.Machine.execResultReadable gid op s
  | .operationComplete gid op => Sys2Proof.Machine.execOperationComplete gid op s
  | .readyAgePromote gid k => Sys2Proof.Machine.execReadyAgePromote gid k s
  | .stopBound gid k => Sys2Proof.Machine.execStopBound gid k s
  | .groupEnd gid => Sys2Proof.Machine.execGroupEnd gid s
  | .teamEnd tm => Sys2Proof.Machine.execTeamEnd tm s
  | .homeRecall grain => Sys2Proof.Machine.execHomeRecall grain s
  | .convertedWrite part va data => Sys2Proof.Machine.execConvertedWrite part va data s
  | .cursorBufferDiscard gid lane cur => Sys2Proof.Machine.execCursorBufferDiscard gid lane cur s
  | .faultRecord part idx => Sys2Proof.Machine.execFaultRecord part idx s
  | .heldAccessReplay part idx => Sys2Proof.Machine.execHeldAccessReplay part idx s
  | .fbgenWrite part v => Sys2Proof.Machine.execFbgenWrite part v s
  | .umberCommandStart tm slot => Sys2Proof.Machine.execUmberCommandStart tm slot s
  | .umberCopy tm slot seq row => Sys2Proof.Machine.execUmberCopy tm slot seq row s
  | .umberGather tm slot seq row => Sys2Proof.Machine.execUmberGather tm slot seq row s
  | .umberScatter tm slot seq row => Sys2Proof.Machine.execUmberScatter tm slot seq row s
  | .umberMerge tm slot seq row => Sys2Proof.Machine.execUmberMerge tm slot seq row s
  | .umberBin tm slot seq => Sys2Proof.Machine.execUmberBin tm slot seq s
  | .umberFence tm slot seq => Sys2Proof.Machine.execUmberFence tm slot seq s
  | .rowLanding tm slot seq row => Sys2Proof.Machine.execRowLanding tm slot seq row s
  | .completionWordWrite tm slot => Sys2Proof.Machine.execCompletionWordWrite tm slot s
  | .chainAdvance gid op => Sys2Proof.Machine.execChainAdvance gid op s
  | .headWrite part chain v => Sys2Proof.Machine.execHeadWrite part chain v s
  | .tailWrite part chain v => Sys2Proof.Machine.execTailWrite part chain v s
  | .chainErrClear part chain => Sys2Proof.Machine.execChainErrClear part chain s
  | .cardAccept part src => Sys2Proof.Machine.execCardAccept part src s
  | .taskRelease part tid => Sys2Proof.Machine.execTaskRelease part tid s
  | .fire part tid => Sys2Proof.Machine.execFire part tid s
  | .recordWrite part tid => Sys2Proof.Machine.execRecordWrite part tid s
  | .bulkCopy part tid => Sys2Proof.Machine.execBulkCopy part tid s
  | .bulkConvert part tid => Sys2Proof.Machine.execBulkConvert part tid s
  | .gbuild part tid => Sys2Proof.Machine.execGbuild part tid s
  | .gdump part tid => Sys2Proof.Machine.execGdump part tid s
  | .dispatchBatch part => Sys2Proof.Machine.execDispatchBatch part s
  | .teamAdmit part => Sys2Proof.Machine.execTeamAdmit part s
  | .partialEviction part => Sys2Proof.Machine.execPartialEviction part s
  | .evictionSave gid => Sys2Proof.Machine.execEvictionSave gid s
  | .groupReturn gid => Sys2Proof.Machine.execGroupReturn gid s
  | .gbarArrival part idx => Sys2Proof.Machine.execGbarArrival part idx s
  | .handlerEntry gid k => Sys2Proof.Machine.execHandlerEntry gid k s
  | .taskLevelStop part tid => Sys2Proof.Machine.execTaskLevelStop part tid s
  | .debugHalt gid => Sys2Proof.Machine.execDebugHalt gid s
  | .dbgctlHalt part => Sys2Proof.Machine.execDbgctlHalt part s
  | .dbgresWrite part v => Sys2Proof.Machine.execDbgresWrite part v s
  | .correctableError => Sys2Proof.Machine.execCorrectableError s
  | .uncorrectableError site => Sys2Proof.Machine.execUncorrectableError site s
  | .shootdownSubmit addr ctl => Sys2Proof.Machine.execShootdownSubmit addr ctl s
  | .tlbAck tlb => Sys2Proof.Machine.execTlbAck tlb s
  | .migrationSubmit desc => Sys2Proof.Machine.execMigrationSubmit desc s
  | .blockHandover => Sys2Proof.Machine.execBlockHandover s
  | .requestForward idx => Sys2Proof.Machine.execRequestForward idx s
  | .migstatMapped => Sys2Proof.Machine.execMigstatMapped s
  | .resizeSubmit desc => Sys2Proof.Machine.execResizeSubmit desc s
  | .resizeStateAdvance idx => Sys2Proof.Machine.execResizeStateAdvance idx s
  | .teamMove tm => Sys2Proof.Machine.execTeamMove tm s
  | .bucketHandover idx ctrl bucket => Sys2Proof.Machine.execBucketHandover idx ctrl bucket s
  | .pctlWrite part v => Sys2Proof.Machine.execPctlWrite part v s
  | .vquotaWrite part v => Sys2Proof.Machine.execVquotaWrite part v s
  | .otinvWrite part v => Sys2Proof.Machine.execOtinvWrite part v s
  | .otinvComplete part => Sys2Proof.Machine.execOtinvComplete part s
  | .registerWrite space off v wide => Sys2Proof.Machine.execRegisterWrite space off v wide s
  | .dieLinkLoss a b => Sys2Proof.Machine.execDieLinkLoss a b s
  | .linkPortLoss port => Sys2Proof.Machine.execLinkPortLoss port s
  | .flitAck port n => Sys2Proof.Machine.execFlitAck port n s
  | .flitRetry port => Sys2Proof.Machine.execFlitRetry port s
  | .domainRequest r => Sys2Proof.Machine.execDomainRequest r s
  | .reset images => Sys2Proof.Machine.execReset images s
  | .attestationRequest part nonce => Sys2Proof.Machine.execAttestationRequest part nonce s
  | .keyLoad part key peer secret => Sys2Proof.Machine.execKeyLoad part key peer secret s
  | .throttleStep temps watts => Sys2Proof.Machine.execThrottleStep temps watts s
  | .fatalError why => Sys2Proof.Machine.execFatalError why s
  | .corePowerUp core => Sys2Proof.Machine.execCorePowerUp core s
  | .corePowerGate core => Sys2Proof.Machine.execCorePowerGate core s
  | .hostMemoryWrite link part va data => Sys2Proof.Machine.execHostMemoryWrite link part va data s
  | .firmwareMemoryWrite what data => Sys2Proof.Machine.execFirmwareMemoryWrite what data s
  | .noframeStop part tid va => Sys2Proof.Machine.execNoframeStop part tid va s
  | .keySlotErase part key => Sys2Proof.Machine.execKeySlotErase part key s
  | .retireFailingUnit kind die unit => Sys2Proof.Machine.execRetireFailingUnit kind die unit s
  | .granuleRepair kind g => Sys2Proof.Machine.execGranuleRepair kind g s
  | .dieLinkRetrain a b => Sys2Proof.Machine.execDieLinkRetrain a b s

end Sys2Proof.Machine
end

