-- ==== Sys2Proof/Machine/Events.lean ====
section
/-!
DEFINITION. The steps of the device that can happen now of their own accord (R26, R30): each is a constructor of `Instr`
whose condition holds. The scheduler chooses among them. What firmware, the host, the links and the environment do comes
from the agenda.
-/

namespace Sys2Proof.Machine

/-- The event in a list when its condition holds. -/
def when (b : Bool) (i : Instr) : List Instr := if b then [i] else []

/-- The step that an outstanding operation can take. -/
def opEvents (s : State) (p gid : Nat) (g : Group) (o : Op) : List Instr :=
  let held := isHeld (getPart s p) (.op gid o.id)
  match o.stage with
  | .fixed due => when (decide (due ≤ s.cycle)) (.resultReadable gid o.id)
  | .cqinit _ _ => when (!held) (.chainAdvance gid o.id)
  | .cqadv _ _ => when (!held) (.chainAdvance gid o.id)
  | .task _ _ => when (!held && windowOpen (getPart s p)) (.cardAccept p (.task gid o.id))
  | .resq _ =>
    when (!(getPart s p).held.any fun h => h.who == .resq gid o.id && !h.recorded) (.operationComplete gid o.id)
  | _ => when (!held && !indigoBehind g o) (.operationComplete gid o.id)

/-- The steps that a split can take besides issue. -/
def splitEvents (s : State) (gid k : Nat) (g : Group) (x : Split) : List Instr :=
  when (!x.promoted && x.readyAt.any fun t => decide (t + 64 ≤ s.cycle)) (.readyAgePromote gid k)
  ++ when ((x.stop.any fun n => decide (64 ≤ n)) && x.chain == 0 && !x.stopped) (.stopBound gid k)
  ++ when (g.handler.isNone && g.held.any (·.1 == x.age) && g.res == .resident && g.halt == .running) (.handlerEntry gid k)

/-- The steps of a group. -/
def groupEvents (s : State) (gid : Nat) (g : Group) : List Instr :=
  let t := getTeam s (teamKey gid)
  g.ops.flatMap (opEvents s t.part gid g)
  ++ g.splits.zipIdx.flatMap (fun x => splitEvents s gid x.2 g x.1)
  ++ when (g.splits.isEmpty && g.ops.isEmpty && !isEvicted g) (.groupEnd gid)
  ++ (g.cursors.filter fun c => !c.2.buf.isEmpty).map (fun c => .cursorBufferDiscard gid (c.1 / 8) (c.1 % 8))
  ++ when (g.res == .stopping && drained g) (.evictionSave gid)
  ++ when (isEvicted g && mayReturn s gid) (.groupReturn gid)
  ++ (match g.halt with
      | .stopping _ _ => when (g.res == .resident && drained g) (.debugHalt gid)
      | .waiting _ _ => when (g.res == .resident && dbgRoom (getPart s t.part)) (.debugHalt gid)
      | _ => [])

/-- The row step of a command. -/
def rowStep (tm slot seq op row : Nat) : List Instr :=
  match op with
  | 1 => [.umberCopy tm slot seq row]
  | 2 => [.umberGather tm slot seq row]
  | 3 => [.umberScatter tm slot seq row]
  | 4 => [.umberMerge tm slot seq row]
  | _ => []

/-- The steps of a running command. -/
def cmdEvents (s : State) (tm slot : Nat) (r : RunCmd) : List Instr :=
  let c := ucmd r.words
  if isHeld (getPart s (getTeam s tm).part) (.umber tm slot r.seq) then []
  else
    match c.op with
    | 5 => [.umberBin tm slot r.seq]
    | 6 => [.umberFence tm slot r.seq]
    | op => (List.range c.total).flatMap fun row =>
      if r.landed.contains row then []
      else if mhas r.written row then [.rowLanding tm slot r.seq row]
      else rowStep tm slot r.seq op row

/-- The steps of a team. -/
def teamEvents (s : State) (tm : Nat) (t : Team) : List Instr :=
  t.chains.flatMap (fun c =>
    when (canStart s tm c.1 && !isHeld (getPart s t.part) (.umber tm c.1 (c.2.started + 1))) (.umberCommandStart tm c.1)
    ++ c.2.running.flatMap (cmdEvents s tm c.1)
    ++ when (c.2.finished.contains (c.2.done + 1) && !isHeld (getPart s t.part) (.umber tm c.1 (doneTo c.2.finished.length c.2.finished c.2.done)))
        (.completionWordWrite tm c.1))
  ++ when ((teamGroups s tm).isEmpty && chainsDone t && (getTask s t.part t.tid).st == .released) (.teamEnd tm)
  ++ when (mustMove s t) (.teamMove tm)

/-- The step of a bulk task. -/
def bulkEvent (p : Nat) (t : Task) : List Instr :=
  match t.card.kind with
  | 2 => [.bulkCopy p t.tid]
  | 3 => [.bulkConvert p t.tid]
  | 4 => [.gbuild p t.tid]
  | 5 => [.gdump p t.tid]
  | _ => []

/-- A task's bulk step can happen. -/
def bulkCan (q : Partition) (t : Task) : Bool :=
  bulkTurn q (if t.card.kind ≤ 3 then [2, 3] else [4, 5]) t || (t.card.kind == 4 && decide (18 < t.desc.length))

/-- The steps of a task. -/
def taskEvents (s : State) (p : Nat) (q : Partition) (t : Task) : List Instr :=
  when (isReady q t && firstReady q t) (.taskRelease p t.tid)
  ++ when (mayFire q t && firstReady q t) (.fire p t.tid)
  ++ when (t.st == .decided && t.fate.isSome && !isHeld q (.record t.tid)) (.recordWrite p t.tid)
  ++ (if bulkCan q t then bulkEvent p t else [])
  ++ when (t.st == .stopping && taskAtRest s p t.tid) (.taskLevelStop p t.tid)

/-- The steps of a held access. -/
def heldEvents (p : Nat) (q : Partition) (h : HeldAcc) (idx : Nat) : List Instr :=
  when (!h.recorded && (h.gen != q.fbgen || !fbFull q)) (.faultRecord p idx)
  ++ (match h.who with | .resq _ _ => [] | _ => [.heldAccessReplay p idx])

/-- The steps of a partition. -/
def partEvents (s : State) (p : Nat) (q : Partition) : List Instr :=
  q.held.zipIdx.flatMap (fun h => heldEvents p q h.1 h.2)
  ++ (q.chains.filter fun c => c.2.upto.isSome && windowOpen q && !isHeld q (.card c.1)).map (fun c => .cardAccept p (.chain c.1))
  ++ q.window.flatMap (taskEvents s p q)
  ++ when ((headGrid q).isSome && (liveBatches q).isEmpty) (.dispatchBatch p)
  ++ when (!(liveBatches q).isEmpty) (.teamAdmit p)
  ++ when (needsEviction s p).isSome (.partialEviction p)
  ++ (List.range q.msgs.length).map (fun i => .gbarArrival p i)
  ++ when q.otinv.isSome (.otinvComplete p)

/-- The steps of a resize. -/
def resizeEvents (s : State) (r : Resize) (idx : Nat) : List Instr :=
  when (resizeExit s r) (.resizeStateAdvance idx)
  ++ r.planS.map (fun b => .bucketHandover idx false b.1)
  ++ r.planC.map (fun b => .bucketHandover idx true b.1)

/-- The steps of what firmware has set going. -/
def mgmtEvents (s : State) : List Instr :=
  ((s.mgmt.down.head?.map (·.pending)).getD []).map Instr.tlbAck
  ++ when (s.mgmt.mig.any fun m => m.state == 1) .blockHandover
  ++ (List.range s.mgmt.reqs.length).map Instr.requestForward
  ++ s.mgmt.resizes.zipIdx.flatMap (fun r => resizeEvents s r.1 r.2)

/-- The internal steps whose conditions hold; none after a fatal error (R407). -/
def internalEvents (s : State) : List Instr :=
  if s.mgmt.fatal then []
  else
    s.groups.flatMap (fun g => groupEvents s g.1 g.2)
    ++ s.teams.flatMap (fun t => teamEvents s t.1 t.2)
    ++ s.parts.flatMap (fun q => partEvents s q.1 q.2)
    ++ s.own.map (fun g => .homeRecall g.1)
    ++ mgmtEvents s

end Sys2Proof.Machine
end

