-- ==== Sys2Proof/Machine/Sched.lean ====
section
/-!
DEFINITION. The group scheduler (R25, R26), and what one step chooses. `Step.lean` only calls it.
-/

namespace Sys2Proof.Machine

/-- No fixed-latency result of the split is inside its window at its next instruction (R22). -/
def windowFree (x : Split) (space : Nat) : Bool := (pruneStale (x.now + space) x.stale).isEmpty

/-- Whether a pending stop can be taken at this boundary (R22): outside a hold chain, with no open window. -/
def stopsHere (x : Split) (space : Nat) : Bool := x.stop.isSome && x.chain == 0 && windowFree x space

/-- The wait of a parked split has been satisfied (R61): it issues before it stops. -/
def granted (x : Split) : Bool := match x.park with | .before _ true => true | _ => false

/-- A fetch of `n` bytes of code strikes the task where it reads a poisoned block (R374), of the code or of the tables that it
walks; an address that a TLB holds is not walked. -/
def strikeFetch (s : State) (a : At) (n : Nat) : State :=
  if s.poison.isEmpty then s
  else
    let h := a.task.header
    let c := fetchAcc a false
    let addrs := (((rangeFrom a.sp.pc.toNat n).filter (· < h.clen)).map (h.code + ·)).flatMap fun va =>
      (if (tlbHits s c.p c.core c.team va).isEmpty then (walkAddrs s c.p va).map (canonA s) else [])
      ++ (match walk s a.tm.part va with
          | .ok l => if l.domain then [] else keptAddrs s l (pageOff l va) 1
          | _ => [])
    strikePoison s c addrs

/-- Bytes that a fetch has read of an instruction. -/
def fetchedBytes (f : Fetched) : Nat :=
  match f with
  | .instr i => (encOfInstr i).elim 8 Enc.length
  | .enc _ cw _ => 8 + 4 * (cw.extractLsb' 7 2).toNat
  | _ => 8

/-- Runs the fetched instruction of a split. -/
def runFetched (s0 : State) (a : At) (f : Fetched) : Res :=
  let s := strikeFetch s0 a (fetchedBytes f)
  match f with
  | .instr i => exec i { s with cur := some (a.gid, a.k) }
  | .enc code cw ow => .next (trapEnc s a cw ow (cw.getLsbD 31) code)
  | .trap t => .next (trapHere s a t)
  | .nonres va => .next (addHeld s (fetchAcc a false) (.fetch a.gid a.sp.age) false 0 [va])

/-- Whether a held code fetch keeps the split from issuing (R169). -/
def fetchHeld (s : State) (a : At) : Bool :=
  (getPart s a.tm.part).held.any fun h => h.who == .fetch a.gid a.sp.age

/-- The trap of a hold chain's member is taken at the boundary after the chain (R182). -/
def takeChainTrap (s : State) (a : At) : State :=
  match chainTrap a.sp with
  | some t => takeTrap (claimTrap s a t) a.gid a.k t.cause a.sp.pc
  | none => s

/-- The handler split waits for the other splits of its group to stop: those at an instruction have, or have a boundary to come
(R22, R368). -/
def handlerWaits (a : At) : Bool := a.sp.handler && a.g.splits.any fun x => !x.handler && !x.stopped && x.park == .none

/-- Windows of the group's parked splits that have to close before the handler goes on (R22). -/
def handlerSettles (a : At) : Bool := a.sp.handler && a.g.splits.any fun x => settleParked x != x

/-- One turn of a split: a chain's trap, a stop, a rejoin point, or its next instruction. In handler mode the windows of splits
that have parked since are closed first. -/
def turn (s : State) (gid k : Nat) : Res :=
  match atOf s gid k with
  | none => .next s
  | some a =>
    if mayWake s gid k then .next (wakeParked s gid k)
    else if handlerSettles a then
      .next (modGroup s gid fun g => { g with splits := g.splits.map settleParked })
    else if a.sp.park == .none && (chainTrap a.sp).isSome then .next (takeChainTrap s a)
    else if a.sp.park == .none && atRejoinPoint a.g a.sp then .next (reachRejoin s gid k)
    else
      let f := fetch s a
      let space := match f with | .instr i => (encOfInstr i).elim 1 Enc.effSpace | _ => 1
      if stopsHere a.sp space && !granted a.sp then .next (takeStop s gid k) else runFetched s a f

/-- The split at (gid, k) is still parked before its instruction. -/
def stillParked (r : Res) (gid k : Nat) : Bool :=
  match r with
  | .next s =>
    match atOf s gid k with
    | some a => (match a.sp.park with | .before _ false => true | _ => false)
    | none => false
  | _ => false

/-- A group whose splits may take turns: resident or about to stop, not halted (R26, R345, R373), and no fatal error has
stopped every core (R407). -/
def mayRun (s : State) (g : Group) : Bool :=
  !s.mgmt.fatal && !isEvicted g && (match g.halt with | .running => true | .stopping _ _ => true | _ => false)

/-- A split that may take a turn: not parked, or parked before an instruction that can now issue (R25, R26). -/
def ready (s : State) (gid k : Nat) : Bool :=
  match atOf s gid k with
  | none => false
  | some a =>
    let x := a.sp
    if x.stopped || !mayRun s a.g || handlerWaits a then false
    else
      match x.park with
      | .none =>
        if (chainTrap x).isSome || atRejoinPoint a.g x then true
        else if fetchHeld s a then stopsHere x 1
        else
          match fetch s a with
          | .instr i =>
            match formOf i with
            | some (f, e) => stopsHere x (Enc.effSpace e) || (dueTrap a f e).isSome || (overdueFault a f e).isSome
                || (eligible s a f e && !(x.stop.any (· ≥ 64) && x.chain == 0))
            | none => true
          | _ => true
      | .before _ g =>
        if g then (match fetch s a with
          | .instr i => (formOf i).elim true fun x => eligible s a x.1 x.2
          | _ => true)
        else (x.stop.isNone || x.chain > 0) && !stillParked (turn s gid k) gid k
      | _ => mayWake s gid k

/-- Every split of the device. -/
def allSplits (s : State) : List (Nat × Nat) :=
  s.groups.flatMap fun g => (List.range g.2.splits.length).map fun k => (g.1, k)

/-- Ready for 64 cycles or more (R25). -/
def longReady (s : State) (x : Split) : Bool := x.promoted || x.readyAt.any fun t => decide (t + 64 ≤ s.cycle)

/-- The rank of a ready split in its quadrant, least first (R25): the owner of an open chain, then splits ready for 64
cycles, then age; a split that ceded the cycle before comes last. -/
def rankOf (s : State) (c : Nat × Nat) : List Nat :=
  match atOf s c.1 c.2 with
  | none => [9]
  | some a =>
    let ceded := a.sp.ceded && (match a.sp.lastIssue with | some t => decide (s.cycle ≤ t + 1) | none => false)
    [if decide (a.sp.chain > 0) then 0 else if ceded then 3 else if longReady s a.sp then 1 else 2, a.g.age, a.sp.age]

/-- Lexicographic order of ranks. -/
def rankLt (x y : List Nat) : Bool :=
  match x, y with
  | a :: r, b :: t => decide (a < b) || (a == b && rankLt r t)
  | _, _ => false

/-- The quadrant of a split: core and quadrant number. -/
def quadKey (s : State) (c : Nat × Nat) : Nat :=
  4 * (c.1 / 256) + quadrantOf (getTeam s (teamKey c.1)) (c.1 % 32)

/-- The splits with an open hold chain: each has its quadrant's issue slot (R23, log 53). -/
def chainOwners (s : State) : List (Nat × Nat) :=
  s.groups.flatMap fun g => (List.range g.2.splits.length).filterMap fun k =>
    if (g.2.splits.getD k Split.empty).chain > 0 then some (g.1, k) else none

/-- The split that each quadrant picks among the ready ones (R23, R25). -/
def quadPicks (s : State) (rs : List (Nat × Nat)) : List (Nat × Nat) :=
  let own := chainOwners s
  rs.filter fun c =>
    own.all (fun d => c == d || quadKey s d != quadKey s c)
    && rs.all fun d => quadKey s d != quadKey s c || c == d || !rankLt (rankOf s d) (rankOf s c)

/-- The unit of a core that its quadrants share (R26): 1 Ochre, 2 Umber's intake, 3 Slate. -/
def sharedUnit (i : Instr) : Nat :=
  match formOf i with
  | none => 0
  | some (f, _) =>
    if isOchre f then 1
    else
      match i with
      | .cqinit _ => 2
      | .cqadv _ => 2
      | .hinit _ => 3
      | i => if isSlate i then 3 else 0

/-- The shared unit that a split's next instruction needs. -/
def unitOf (s : State) (c : Nat × Nat) : Nat :=
  match atOf s c.1 c.2 with
  | none => 0
  | some a => (match fetch s a with | .instr i => sharedUnit i | _ => 0)

/-- The picks of the quadrants, where a shared unit takes the request that comes first in the order of R25 (R26). -/
def picks (s : State) (rs : List (Nat × Nat)) : List (Nat × Nat) :=
  let ps := quadPicks s rs
  if ps.length ≤ 1 then ps
  else ps.filter fun c => ps.all fun d =>
    c == d || c.1 / 256 != d.1 / 256 || unitOf s c == 0 || unitOf s d != unitOf s c
    || !rankLt (rankOf s d) (rankOf s c)

/-- Marks since when a split has been ready without a break (R25). -/
def markSplit (cycle : Nat) (isReady : Bool) (x : Split) : Split :=
  if isReady then { x with readyAt := some (x.readyAt.getD cycle) } else { x with readyAt := none, promoted := false }

/-- Marks every split. -/
def markReady (s : State) (rs : List (Nat × Nat)) : State :=
  { s with groups := s.groups.map fun g => (g.1, markGroup g.1 g.2) }
where
  /-- Marks the splits of a group. -/
  markGroup (gid : Nat) (g : Group) : Group :=
    { g with splits := g.splits.mapIdx fun k x => markSplit s.cycle (rs.contains (gid, k)) x }

/-- The model's clock, a new moment for the free values, and no issuer between steps. -/
def tick (r : Res) : Res :=
  match r with
  | .next s => .next { s with cycle := s.cycle + 1, fresh := s.fresh + 1, cur := none }
  | y => y

/-- The completion of an operation whose accesses have waited as long as they may (R110, log 57) and can be performed now. -/
def overdueEvent (s : State) (i : Instr) : Bool :=
  match i with
  | .operationComplete gid op =>
    (match findOp (getGroup s gid) op with
     | some o => unperformed o && decide (o.since + Config.performWithin ≤ s.cycle)
        && (match execOperationComplete gid op s with
            | .next t => (findOp (getGroup t gid) op).map (·.stage) != some o.stage
            | _ => false)
     | none => false)
  | _ => false

/-- A step of the device's own: one of the turns and internal steps that are possible; what has waited as long as it may goes
first. -/
def deviceStep (s : State) : Res :=
  let rs := (allSplits s).filter fun c => ready s c.1 c.2
  let s1 := markReady s rs
  let all := internalEvents s1
  let due := all.filter (overdueEvent s1)
  let ps := if due.isEmpty then picks s1 rs else []
  let evs := if due.isEmpty then all else due
  let c := choose s1 (ps.length + evs.length)
  match ps[c.1]? with
  | some p => tick (turn c.2 p.1 p.2)
  | none =>
    match evs[c.1 - ps.length]? with
    | some i => tick (exec i { c.2 with cur := none })
    | none => tick (.next c.2)

/-- The link that a write of the host comes through (R114). -/
def hostLink (i : Instr) : Option Nat :=
  match i with
  | .hostMemoryWrite link _ _ _ => some link
  | .tailWrite _ _ v => some v.link
  | _ => none

/-- A write of the host may be performed before an earlier one through the other link (R114). An empty write stands for a read
that the host completes on its link: nothing overtakes it. -/
def overtakes (late early : Instr) : Bool :=
  match hostLink late, early with
  | some a, .hostMemoryWrite b _ _ data => a != b && !data.isEmpty
  | _, _ => false

/-- The inputs that can happen next: the first, or one that overtakes all before it. -/
def agendaPicks (xs : List Instr) : List Nat :=
  (List.range xs.length).filter fun k => (xs.take k).all fun early => (xs[k]?).any fun late => overtakes late early

/-- How many inputs at the head of the agenda have been overtaken, once input `k` has happened (R114). -/
def lateAfter (late k : Nat) : Nat := if k < late then late - 1 else k

/-- One step: an input of the agenda, or where there is none a step of the device's own. Inputs that a later one has overtaken may
wait while the device goes on (R114). -/
def stepOnce (s : State) : Res :=
  match s.agenda with
  | i :: rest =>
    let ks := agendaPicks (i :: rest)
    let c := choose s (ks.length + if s.late = 0 then 0 else 1)
    if c.1 ≥ ks.length then deviceStep c.2
    else
      let k := ks.getD c.1 0
      tick (exec ((i :: rest).getD k i)
        { c.2 with agenda := (i :: rest).eraseIdx k, late := lateAfter s.late k, cur := none })
  | [] => deviceStep s

end Sys2Proof.Machine
end

