-- ==== Sys2Proof/Machine/Step.lean ====
section
/-!
DEFINITION. One step of the device, and the placing of an instruction where the next step fetches.
-/

namespace Sys2Proof.Machine

/-- One step (R25, R26): an outside input, a turn of a split, or a step of the device. -/
def step (s : State) : Host.Outcome State Fault Refusal := stepOnce s

/-- The state in which the next step fetches and runs the instruction that the table word gives (log 4). -/
def State.withFetchWord (s : State) (nbits w : Nat) : State := placeCode s (tableBytes nbits w)

end Sys2Proof.Machine
end

