-- ==== Sys2Proof/Safety.lean ====
section
/-!
DEFINITION. What counts as a safe run, and the terms in which claims speak of one instruction: when nothing keeps it
from issuing, where it stands once it has issued, and what it leaves as it was.
-/

namespace Sys2Proof

open Machine

/-- The next `n` steps all answer a next state. -/
def Safe (n : Nat) (s : State) : Prop := ∃ t, core.run n s = .next t

namespace Machine

/-- What the checks of R183 read at a split. -/
def encCtxOf (s : State) (a : At) : EncCtx := ⟨a.sp.handler, a.sp.chain, quotaNow a.g, a.sp.fmt, s.caps⟩

/-- Nothing keeps an instruction from issuing: a split issues, no held trap is due (R369), no check of R183 fails, and
the waits of R17 and R20 are over. -/
structure Clear (f : Form) (e : Enc) (s : State) (a : At) : Prop where
  issuer : curAt s = some a
  calm   : dueTrap a f e = none
  prompt : overdueFault a f e = none
  legal  : encCheck f e (encCtxOf s a) = none
  free   : eligible s a f e = true

/-- Where the issuing split stands once its instruction has issued. -/
def issuedAt (s : State) (a : At) (e : Enc) : At := (atOf (book s a e) a.gid a.k).getD a

/-- The instruction as it issues. -/
def issOf (f : Form) (e : Enc) (s : State) (a : At) : Iss :=
  ⟨issuedAt s a e, a.sp.pc, locWord a.sp.pc f.uni, e.ctl.hold || decide (a.sp.chain > 0), f, e⟩

/-- A register of a group, by key. -/
def regOf (s : State) (gid key : Nat) : Word := mget (getGroup s gid).regs key 0

/-- A block of `n` registers of a group, lowest first, as a number. -/
def blockOf (s : State) (gid key n : Nat) : Nat := wordsNat ((rangeFrom key n).map (regOf s gid))

/-- The split that issued. -/
def splitOf (s : State) (gid k : Nat) : Split := (getGroup s gid).splits.getD k Split.empty

/-- The instruction touched nothing but its group (registers, generators, completion flags, splits, operations) and the
latches of its core; its flag, if it sets one, counts one more. -/
structure Frame (s t : State) (a : At) (e : Enc) : Prop where
  rest   : { t with groups := s.groups, cores := s.cores } = s
  memory : ∀ x, readByte t.mem x = readByte s.mem x
  others : ∀ g, g ≠ a.gid → mfind t.groups g = mfind s.groups g
  group  : ∃ regs lg flags splits ops nextOp,
    getGroup t a.gid = { getGroup s a.gid with regs, lg, flags, splits, ops, nextOp }
  flags  : ∀ k, getFlag (getGroup t a.gid) k = getFlag (getGroup s a.gid) k + if flagOf e = some k then 1 else 0
  cores  : ∀ n, ∃ latches, getCore t n = { getCore s n with latches }

/-- The registers that an instruction wrote: of each of `slots` (lanes, or one for a uniform instruction) the block of `n`
registers at `key` holds `val`, modulo its width; every other register of the group holds what it held. -/
structure Written (s t : State) (gid : Nat) (slots : List Nat) (key : Nat → Nat) (n : Nat) (val : Nat → Nat) : Prop where
  dest  : ∀ l ∈ slots, blockOf t gid (key l) n = val l % 2 ^ (32 * n)
  other : ∀ k, (∀ l ∈ slots, k < key l ∨ key l + n ≤ k) → regOf t gid k = regOf s gid k

/-- The split goes on with the next instruction. -/
def WentOn (t : State) (a : At) (e : Enc) : Prop :=
  (getGroup t a.gid).splits[a.k]?.map (·.pc) = some (a.sp.pc + BitVec.ofNat 32 e.length)

/-- Each generator of `ls` is what `lg` says; the others are left alone (R214). -/
def Drew (s t : State) (gid : Nat) (ls : List Nat) (lg : Nat → Dword) : Prop :=
  ∀ l, readLg (getGroup t gid) l = if l ∈ ls then lg l else readLg (getGroup s gid) l

/-- The integer that `n` bits hold, signed or not. -/
def intOf (n : Nat) (sg : Bool) (x : Nat) : Int := if sg then (BitVec.ofNat n x).toInt else (BitVec.ofNat n x).toNat

/-- An integer kept in `n` bits: clamped to the range of its type under SAT (R192), else its low bits. -/
def keepIn (n : Nat) (sg sat : Bool) (x : Int) : Nat :=
  if sat then
    (BitVec.ofInt n (if sg then max (-(2 ^ (n - 1) : Int)) (min (2 ^ (n - 1) - 1 : Int) x) else max 0 (min (2 ^ n - 1 : Int) x))).toNat
  else (BitVec.ofInt n x).toNat

/-- The number whose field `i` of `w` bits is `x i`, for `n` fields. -/
def fieldsOf (w n : Nat) (x : Nat → Nat) : Nat := ((List.range n).map fun i => x i % 2 ^ w * 2 ^ (w * i)).sum

/-- The word whose bit `i` is `x i`. -/
def bitsWord (x : Nat → Bool) : Nat := fieldsOf 1 32 fun i => (x i).toNat

/-- A modifier bit of an instruction. -/
def Iss.bit (i : Iss) (k : Nat) : Bool := i.e.M k k == 1

/-- A result that draws nothing from the generator. -/
def keeps (v : Iss → LaneIn → Nat) : State → Iss → LaneIn → LaneOut := fun _ i x => ⟨v i x, x.lg⟩

/-- A lane instruction of class A, F or D with a v destination of `n` registers completes, and gives each participant
`out` of its sources; with NWB (R181) no register is written. -/
def LaneResult (mk : Enc → Instr) (f : Form) (n : Enc → Nat) (out : State → Iss → LaneIn → LaneOut) : Prop :=
  ∀ e s a, Clear f e s a →
    let s1 := book s a e
    let i := issOf f e s a
    let ls := participants s1 i.a e
    let r := fun l => out s1 i (laneIn s1 i l)
    ∃ t, exec (mk e) s = .next t ∧ Frame s t a e ∧ WentOn t a e ∧ Drew s t a.gid ls (fun l => (r l).lg)
      ∧ Written s t a.gid (if e.ctl.nwb then [] else ls) (fun l => vKey l e.d.toNat) (n e) (fun l => (r l).d)

/-- A lane instruction with a predicate destination: p0 keeps reading true (R173). -/
def PredResult (mk : Enc → Instr) (f : Form) (out : State → Iss → LaneIn → Bool) : Prop :=
  ∀ e s a, Clear f e s a →
    let s1 := book s a e
    let i := issOf f e s a
    let ls := participants s1 i.a e
    ∃ t, exec (mk e) s = .next t ∧ Frame s t a e ∧ WentOn t a e ∧ Drew s t a.gid [] (fun _ => 0)
      ∧ Written s t a.gid (if e.d = 0 then [] else ls) (fun l => pKey l e.d.toNat) 1
          (fun l => (out s1 i (laneIn s1 i l)).toNat)

/-- A uniform instruction of class A, F or D with an s destination completes: one result for the split, and nothing where
its guard is false. A rounding draws from the generator of the lowest-numbered active lane (R274). -/
def UniResult (mk : Enc → Instr) (f : Form) (n : Enc → Nat) (out : State → Iss → LaneIn → LaneOut) : Prop :=
  ∀ e s a, Clear f e s a →
    let s1 := book s a e
    let i := issOf f e s a
    let low := lowLane a.sp.active
    let ls := if uniGuard s1 i.a e then [low] else []
    let r := out s1 i (laneIn s1 i low)
    ∃ t, exec (mk e) s = .next t ∧ Frame s t a e ∧ WentOn t a e ∧ Drew s t a.gid ls (fun _ => r.lg)
      ∧ Written s t a.gid (if e.ctl.nwb then [] else ls) (fun _ => sKey e.d.toNat) (n e) (fun _ => r.d)

/-- A uniform instruction with a q destination: q0 keeps reading true (R174). -/
def UniPredResult (mk : Enc → Instr) (f : Form) (out : State → Iss → LaneIn → Bool) : Prop :=
  ∀ e s a, Clear f e s a →
    let s1 := book s a e
    let i := issOf f e s a
    let ls := if uniGuard s1 i.a e then [lowLane a.sp.active] else []
    ∃ t, exec (mk e) s = .next t ∧ Frame s t a e ∧ WentOn t a e ∧ Drew s t a.gid [] (fun _ => 0)
      ∧ Written s t a.gid (if e.d = 0 then [] else ls) (fun _ => qKey e.d.toNat) 1
          (fun l => (out s1 i (laneIn s1 i l)).toNat)

/-- A class V operation went outstanding (R19, R20): it counts under the instruction's flag, and no register changed. -/
structure Sent (s t : State) (a : At) (e : Enc) (o : Op) : Prop where
  ops   : (getGroup t a.gid).ops = (getGroup s a.gid).ops ++ [o]
  flag  : o.flag = flagOf e
  split : o.split = a.sp.age
  regs  : ∀ k, regOf t a.gid k = regOf s a.gid k

/-- What an operation writes when it completes: of each of `slots` the block of `n` registers at `key` holds `val`. -/
def Delivers (w : SMap Word) (slots : List Nat) (key : Nat → Nat) (n : Nat) (val : Nat → Nat) : Prop :=
  ∀ l ∈ slots, ∀ j, j < n → mfind w (key l + j) = some (BitVec.ofNat 32 (val l / 2 ^ (32 * j)))

/-- It writes nothing but these blocks. -/
def Only (w : SMap Word) (blocks : List (Nat × Nat)) : Prop :=
  ∀ k, (mfind w k).isSome → ∃ b ∈ blocks, b.1 ≤ k ∧ k < b.1 + b.2

/-- A class V instruction that computes registers goes on, with an operation that delivers `out` of each participant's
sources, and draws from the generators at issue (R194). -/
def LaneSent (mk : Enc → Instr) (f : Form) (n : Enc → Nat) (out : State → Iss → LaneIn → LaneOut) : Prop :=
  ∀ e s a, Clear f e s a →
    let s1 := book s a e
    let i := issOf f e s a
    let ls := participants s1 i.a e
    let r := fun l => out s1 i (laneIn s1 i l)
    ∃ t o, exec (mk e) s = .next t ∧ Frame s t a e ∧ WentOn t a e ∧ Sent s t a e o
      ∧ Drew s t a.gid ls (fun l => (r l).lg) ∧ o.stage = .done
      ∧ Delivers o.writes ls (fun l => vKey l e.d.toNat) (n e) (fun l => (r l).d)
      ∧ Only o.writes (ls.map fun l => (vKey l e.d.toNat, n e))

/-- A group-cooperative instruction (R208): each participant's result, predicate and drawn generator depend on every
participant's sources; lanes outside take no part. -/
def GroupSent (mk : Enc → Instr) (f : Form) (n : Enc → Nat) (pred : Bool)
    (out : State → Iss → List Nat → (Nat → LaneIn) → Nat → Nat × Bool × Dword) : Prop :=
  ∀ e s a, Clear f e s a →
    let s1 := book s a e
    let i := issOf f e s a
    let ls := participants s1 i.a e
    let r := out s1 i ls (laneIn s1 i)
    ∃ t o, exec (mk e) s = .next t ∧ Frame s t a e ∧ WentOn t a e ∧ Sent s t a e o
      ∧ Drew s t a.gid ls (fun l => (r l).2.2) ∧ o.stage = .done
      ∧ Delivers o.writes ls (fun l => vKey l e.d.toNat) (n e) (fun l => (r l).1)
      ∧ Delivers o.writes (if pred && e.m.c != 0 then ls else []) (fun l => pKey l e.m.c.toNat) 1
          (fun l => (r l).2.1.toNat)
      ∧ Only o.writes (ls.map (fun l => (vKey l e.d.toNat, n e)) ++ if pred then ls.map fun l => (pKey l e.m.c.toNat, 1) else [])

end Machine

end Sys2Proof
end

