-- ==== Sys2Proof/Certificates/Slice0/Obligations.lean ====
section
/-!
DEFINITION. The statements about the D7, for the provers. Each docstring says which rules of the spec it formalises.
-/

section

open Sys2Proof Sys2Proof.Machine

/-- R196: the integer results, of every operand form, with SAT and SGN where the instruction has them. A, B and C are the
sources of R190 as the split reads them at issue. -/
def Sys2Proof.IntegerArithmeticClaim : Prop :=
  LaneResult .iadd formIadd (fun _ => 1) (keeps fun i x =>
    keepIn 32 (i.bit 8) (i.bit 9) (intOf 32 (i.bit 8) x.a + intOf 32 (i.bit 8) x.b))
  ∧ LaneResult .isub formIsub (fun _ => 1) (keeps fun i x =>
    keepIn 32 (i.bit 8) (i.bit 9) (intOf 32 (i.bit 8) x.a - intOf 32 (i.bit 8) x.b))
  ∧ LaneResult .imul formImul (fun _ => 1) (keeps fun _ x => (BitVec.ofNat 32 x.a * BitVec.ofNat 32 x.b).toNat)
  ∧ LaneResult .imulh formImulh (fun _ => 1) (keeps fun i x =>
    (BitVec.ofInt 32 (Int.fdiv (intOf 32 (i.bit 8) x.a * intOf 32 (i.bit 8) x.b) (2 ^ 32))).toNat)
  ∧ LaneResult .imad formImad (fun _ => 1) (keeps fun i x =>
    keepIn 32 (i.bit 8) (i.bit 9) (intOf 32 (i.bit 8) x.a * intOf 32 (i.bit 8) x.b + intOf 32 (i.bit 8) x.c))
  ∧ LaneResult .imin formImin (fun _ => 1) (keeps fun i x =>
    if intOf 32 (i.bit 8) x.a ≤ intOf 32 (i.bit 8) x.b then x.a else x.b)
  ∧ LaneResult .imax formImax (fun _ => 1) (keeps fun i x =>
    if intOf 32 (i.bit 8) x.a ≤ intOf 32 (i.bit 8) x.b then x.b else x.a)
  ∧ LaneResult .iabs formIabs (fun _ => 1) (keeps fun i x =>
    if x.a < 2 ^ 31 then x.a else if x.a = 2 ^ 31 ∧ i.bit 9 then 2 ^ 31 - 1 else 2 ^ 32 - x.a)
  ∧ LaneResult .iadd64 formIadd64 (fun _ => 2) (keeps fun i x =>
    keepIn 64 (i.bit 8) (i.bit 9) (intOf 64 (i.bit 8) x.a + intOf 64 (i.bit 8) x.b))
  ∧ LaneResult .imadw formImadw (fun _ => 2) (keeps fun i x =>
    (BitVec.ofInt 64 (intOf 32 (i.bit 8) x.a * intOf 32 (i.bit 8) x.b + intOf 64 (i.bit 8) x.c)).toNat)
  ∧ LaneResult .lea formLea (fun _ => 2) (keeps fun i x =>
    (BitVec.ofInt 64 (x.a + intOf 32 (i.bit 11) x.b * 2 ^ i.e.M 10 8)).toNat)
  ∧ LaneResult .idp4 formIdp4 (fun _ => 1) (keeps fun i x =>
    let u := i.bit 8 || i.bit 9
    let p := fun k => intOf 8 (i.bit 8) (x.a / 2 ^ (8 * k)) * intOf 8 (i.bit 9) (x.b / 2 ^ (8 * k))
    keepIn 32 u (i.bit 10) (intOf 32 u x.c + (p 0 + p 1 + p 2 + p 3)))

/-- The shift amount of R197: B, modulo 32 with WRAP. -/
def Sys2Proof.shiftOf (i : Iss) (x : LaneIn) : Nat := if i.bit 8 then x.b % 32 else x.b

/-- The field that BFE and BFI name (R197): position and width, none where LEN is 0 or POS is 32 or more. -/
def Sys2Proof.fieldOf (b : Nat) : Option (Nat × Nat) :=
  let pos := b % 2 ^ 8
  let len := b / 2 ^ 8 % 2 ^ 8
  if len = 0 ∨ 32 ≤ pos then none else some (pos, min len (32 - pos))

/-- R197: shifts and bit operations, bit by bit. -/
def Sys2Proof.ShiftsAndBitsClaim : Prop :=
  LaneResult .shl formShl (fun _ => 1) (keeps fun i x => bitsWord fun k =>
    decide (shiftOf i x ≤ k) && x.a.testBit (k - shiftOf i x))
  ∧ LaneResult .shr formShr (fun _ => 1) (keeps fun i x => bitsWord fun k => x.a.testBit (k + shiftOf i x))
  ∧ LaneResult .sar formSar (fun _ => 1) (keeps fun i x => bitsWord fun k => x.a.testBit (min 31 (k + shiftOf i x)))
  ∧ LaneResult .fshf formFshf (fun _ => 1) (keeps fun i x => bitsWord fun k =>
    let n := x.b % 64
    let w := fun j => if j < 32 then x.a.testBit j else x.c.testBit (j - 32)
    if i.bit 8 then decide (n ≤ k + 32) && w (k + 32 - n) else decide (k + n < 64) && w (k + n))
  ∧ LaneResult .ltab formLtab (fun _ => 1) (keeps fun i x => bitsWord fun k =>
    (i.e.M 15 8).testBit (4 * (x.a.testBit k).toNat + 2 * (x.b.testBit k).toNat + (x.c.testBit k).toNat))
  ∧ LaneResult .popc formPopc (fun _ => 1) (keeps fun _ x =>
    ((List.range 32).map fun k => (x.a.testBit k).toNat).sum)
  ∧ LaneResult .clz formClz (fun _ => 1) (keeps fun _ x => if x.a = 0 then 32 else 31 - Nat.log2 x.a)
  ∧ LaneResult .brev formBrev (fun _ => 1) (keeps fun _ x => bitsWord fun k => x.a.testBit (31 - k))
  ∧ LaneResult .bfe formBfe (fun _ => 1) (keeps fun i x => match fieldOf x.b with
    | none => 0
    | some (pos, w) => bitsWord fun k =>
      if k < w then x.a.testBit (pos + k) else i.bit 8 && x.a.testBit (pos + w - 1))
  ∧ LaneResult .bfi formBfi (fun _ => 1) (keeps fun _ x => match fieldOf x.b with
    | none => x.c
    | some (pos, w) => bitsWord fun k => if pos ≤ k ∧ k < pos + w then x.a.testBit (k - pos) else x.c.testBit k)
  ∧ LaneResult .bpick formBpick (fun _ => 1) (keeps fun _ x => fieldsOf 8 4 fun k =>
    let sel := x.c / 2 ^ (4 * k) % 16
    let y := (if sel % 8 < 4 then x.a / 2 ^ (8 * (sel % 8)) else x.b / 2 ^ (8 * (sel % 8 - 4))) % 2 ^ 8
    if sel < 8 then y else if y < 128 then 0 else 255)

/-- The integer arithmetic, shifts and bit operations of a lane. -/
def Obligations.IntegersAndBits : Prop := IntegerArithmeticClaim ∧ ShiftsAndBitsClaim

/-- A comparison code of R179 on integers: 0 eq, 1 ne, 2 lt, 3 le, 4 gt, 5 ge. -/
def Sys2Proof.cmpInt (c : Nat) (x y : Int) : Bool :=
  [decide (x = y), decide (x ≠ y), decide (x < y), decide (x ≤ y), decide (x > y), decide (x ≥ y)].getD c false

/-- A result joined with the combining predicate by PJ (R192): none, and, or, xor. -/
def Sys2Proof.joined (pj : Nat) (r q : Bool) : Bool := [r, r && q, r || q, xor r q].getD pj false

/-- R198: comparison into a predicate, tables of predicates, selection and moves. -/
def Sys2Proof.PredicatesAndMovesClaim : Prop :=
  PredResult .icmp formIcmp (fun _ i x =>
    let n := if i.bit 12 then 64 else 32
    joined (i.e.M 16 15) (cmpInt (i.e.M 11 8) (intOf n (i.bit 14) x.a) (intOf n (i.bit 14) x.b)) (xor x.pc (i.bit 17)))
  ∧ PredResult .ptab formPtab (fun _ i x => (i.e.M 15 8).testBit (4 * x.pa.toNat + 2 * x.pb.toNat + x.pc.toNat))
  ∧ LaneResult .sel formSel (fun e => if e.M 8 8 = 1 then 2 else 1) (keeps fun i x =>
    if xor x.pc (i.bit 9) then x.a else x.b)
  ∧ LaneResult .mov formMov (fun e => if e.M 8 8 = 1 then 2 else 1) (keeps fun _ x => x.b)

/-- R199: RDSP delivers lane, work identifier, its fields and the generator's halves; WRSP replaces one half of the
generator and leaves the other. -/
def Sys2Proof.LaneSpecialsClaim : Prop :=
  (∀ e s a, Clear formRdsp e s a →
    let s1 := book s a e
    let i := issOf formRdsp e s a
    let wid := fun l => l + 2 ^ 5 * a.g.w1 + 2 ^ (5 + a.task.header.widths.getD 1 0) * a.tm.linear
    let v := fun l => [l, wid l, wid l / 2 ^ 32, workField i.a l 0, workField i.a l 1, workField i.a l 2, workField i.a l 3,
      workField i.a l 4, workField i.a l 5, (readLg a.g l).toNat, (readLg a.g l).toNat / 2 ^ 32].getD e.a.toNat 0
    ∃ t, exec (.rdsp e) s = .next t ∧ Frame s t a e ∧ WentOn t a e ∧ Drew s t a.gid [] (fun _ => 0)
      ∧ Written s t a.gid (if e.ctl.nwb then [] else participants s1 i.a e) (fun l => vKey l e.d.toNat) 1 v)
  ∧ (∀ e s a, Clear formWrsp e s a →
    let s1 := book s a e
    let i := issOf formWrsp e s a
    let half := fun l => BitVec.ofNat 32 (laneIn s1 i l).b
    let lg := fun l => if e.a = 9 then (readLg a.g l).extractLsb' 32 32 ++ half l
      else half l ++ (readLg a.g l).extractLsb' 0 32
    ∃ t, exec (.wrsp e) s = .next t ∧ Frame s t a e ∧ WentOn t a e ∧ Drew s t a.gid (participants s1 i.a e) lg
      ∧ Written s t a.gid [] (fun _ => 0) 0 (fun _ => 0))

/-- Predicates, selections and moves, and the lane specials. -/
def Obligations.PredicatesMovesAndSpecials : Prop := PredicatesAndMovesClaim ∧ LaneSpecialsClaim

/-- One rounding for each element of FT, element 0 first (R193): the pattern, and the generator after its steps. -/
def Sys2Proof.roundEach (rc : RCtx) (ft : Nat) (v : Nat → XVal) (lg : Dword) : LaneOut :=
  if ft < 2 then ⟨(roundTo rc ft (v 0) lg).1, (roundTo rc ft (v 0) lg).2⟩
  else
    let r0 := roundTo rc ft (v 0) lg
    let r1 := roundTo rc ft (v 1) r0.2
    ⟨r0.1 + 2 ^ 16 * r1.1, r1.2⟩

/-- One pattern for each element of FT. -/
def Sys2Proof.packEach (ft : Nat) (v : Nat → Nat) : Nat := if ft < 2 then v 0 else v 0 + 2 ^ 16 * v 1

/-- Registers of a value of FT. -/
def Sys2Proof.ftRegs (e : Enc) : Nat := if e.M 9 8 = 1 then 2 else 1

/-- R200: sum, product, fused product and sum, scaling and rounding to an integral value, each rounded once by the mode
that RMO or fmt names. -/
def Obligations.FloatArithmetic : Prop :=
  let v := fun (s : State) (i : Iss) (k : Nat) (neg : Bool) (p : Nat) => fpVal (rctx s i.a (i.e.M 15 13)) (i.e.M 9 8) k neg p
  let r := fun (s : State) (i : Iss) (x : LaneIn) (w : Nat → XVal) => roundEach (rctx s i.a (i.e.M 15 13)) (i.e.M 9 8) w x.lg
  let m := fun (s : State) (i : Iss) => (rctx s i.a (i.e.M 15 13)).mode
  LaneResult .fadd formFadd ftRegs (fun s i x => r s i x fun k =>
    exactSum (m s i) [v s i k (i.bit 10) x.a, v s i k (i.bit 11) x.b])
  ∧ LaneResult .fmul formFmul ftRegs (fun s i x => r s i x fun k =>
    xprod (m s i) (v s i k (i.bit 10) x.a) (v s i k (i.bit 11) x.b))
  ∧ LaneResult .ffma formFfma ftRegs (fun s i x => r s i x fun k =>
    exactSum (m s i) [xmul (v s i k (i.bit 10) x.a) (v s i k (i.bit 11) x.b), v s i k (i.bit 12) x.c])
  ∧ LaneResult .fscale formFscale ftRegs (fun s i x => r s i x fun k =>
    let n : Int := if i.e.M 9 8 < 2 then intOf 32 true x.b else intOf 16 true (x.b / 2 ^ (16 * k))
    match v s i k false x.a with
    | .fin sg mg ex _ => .fin (sg || (mg == 0 && m s i == 3)) mg (ex + max (-5000) (min 5000 n)) false
    | y => y)
  ∧ LaneResult .frnd formFrnd ftRegs (fun s i x =>
    let ft := i.e.M 9 8
    let st := fun (lg : Dword) => if m s i = 5 then genStep lg else (lg, 0)
    let o0 := st x.lg
    let o1 := st o0.1
    if ft < 2 then ⟨frndPattern (m s i) ft o0.2 (v s i 0 false x.a), o0.1⟩
    else ⟨frndPattern (m s i) ft o0.2 (v s i 0 false x.a) + 2 ^ 16 * frndPattern (m s i) ft o1.2 (v s i 1 false x.a), o1.1⟩)

/-- The smaller (or larger) of two flushed patterns (R201): −0 below +0; a NaN gives way to a number unless NANP. -/
def Sys2Proof.pickMin (ft : Nat) (larger nanp : Bool) (p q : Nat) : Nat :=
  if fval ft p = .nan then (if fval ft q = .nan ∨ nanp then canonNan ft else q)
  else if fval ft q = .nan then (if nanp then canonNan ft else p)
  else if (xltTotal (fval ft q) (fval ft p) && !larger) || (xltTotal (fval ft p) (fval ft q) && larger) then q else p

/-- R201, R202, R203: minimum, maximum, comparison and class of floating values. -/
def Obligations.FloatCompare : Prop :=
  let p := fun (s : State) (i : Iss) (k : Nat) (neg : Bool) (w : Nat) =>
    fpPat (rctx s i.a 0) (i.e.M 9 8) neg (elemOf (i.e.M 9 8) k w)
  LaneResult .fmin formFmin ftRegs (fun s i x => ⟨packEach (i.e.M 9 8) fun k =>
    pickMin (i.e.M 9 8) false (i.bit 16) (p s i k (i.bit 10) x.a) (p s i k (i.bit 11) x.b), x.lg⟩)
  ∧ LaneResult .fmax formFmax ftRegs (fun s i x => ⟨packEach (i.e.M 9 8) fun k =>
    pickMin (i.e.M 9 8) true (i.bit 16) (p s i k (i.bit 10) x.a) (p s i k (i.bit 11) x.b), x.lg⟩)
  ∧ PredResult .fcmp formFcmp (fun s i x => joined (i.e.M 21 20)
    (fcompare (i.e.M 19 16) (fval (i.e.M 9 8) (p s i 0 (i.bit 10) x.a)) (fval (i.e.M 9 8) (p s i 0 (i.bit 11) x.b)))
    (xor x.pc (i.bit 22)))
  ∧ LaneResult .fclass formFclass (fun _ => 1) (keeps fun i x => packEach (i.e.M 9 8) fun k =>
    let q := elemOf (i.e.M 9 8) k x.a
    match fval (i.e.M 9 8) q with
    | .nan => 2 ^ 8
    | .inf s => if s then 2 ^ 0 else 2 ^ 7
    | .fin s mg _ _ =>
      if mg = 0 then (if s then 2 ^ 3 else 2 ^ 4)
      else if isSubnormal (i.e.M 9 8) q then (if s then 2 ^ 2 else 2 ^ 5)
      else (if s then 2 ^ 1 else 2 ^ 6))

/-- R204, R205, R206: conversion of a value (complex pairs part by part, real part first), packing and unpacking,
complex products and the two-term dot product. -/
def Obligations.Conversions : Prop :=
  let cv := fun (s : State) (i : Iss) (x : LaneIn) =>
    let rc := rctx s i.a (i.e.M 20 18)
    if i.e.M 12 8 = 12 ∨ i.e.M 12 8 = 13 then
      let w := fun ty => if ty = 12 then 32 else 64
      let re := cvtReal rc (cmpaTab s i.a) (i.e.M 12 8 - 12) (i.e.M 17 13 - 12) (x.a % 2 ^ w (i.e.M 12 8)) x.lg
      let im := cvtReal rc (cmpaTab s i.a) (i.e.M 12 8 - 12) (i.e.M 17 13 - 12) (x.a / 2 ^ w (i.e.M 12 8)) re.2
      LaneOut.mk (re.1 + 2 ^ w (i.e.M 17 13) * im.1) im.2
    else
      let r := cvtReal rc (cmpaTab s i.a) (i.e.M 12 8) (i.e.M 17 13) x.a x.lg
      LaneOut.mk (if i.e.M 17 13 = 9 ∨ i.e.M 17 13 = 20 then (BitVec.ofInt 32 (intOf 8 true r.1)).toNat
        else if i.e.M 17 13 = 21 then (BitVec.ofInt 32 (intOf 16 true r.1)).toNat else r.1) r.2
  let fma := fun (rc : RCtx) (ft : Nat) (p : XVal) (c : Nat) (lg : Dword) =>
    roundTo rc ft (exactSum rc.mode [p, fval ft (flushIn rc.ftz ft c)]) lg
  let part := fun (s : State) (i : Iss) (k : Nat) (cj : Bool) (p : Nat) => cPart (rctx s i.a (i.e.M 15 13)) (i.e.M 8 8) k cj p
  LaneResult .cvt formCvt (fun e => cvtW (e.M 17 13)) cv
  ∧ UniResult .scvt formScvt (fun e => cvtW (e.M 17 13)) cv
  ∧ LaneResult .pkn formPkn (fun _ => 1) (fun s i x =>
    let df := i.e.M 11 8
    let r := (List.range (pkN df)).foldl (fun (acc : List Nat × Dword) k =>
      let y := cvtReal (rctx s i.a (i.e.M 15 13)) none 0 df (x.a / 2 ^ (32 * k) % 2 ^ 32) acc.2
      (acc.1 ++ [y.1], y.2)) ([], x.lg)
    ⟨fieldsOf (pkBits df) (pkN df) fun k => r.1.getD k 0, r.2⟩)
  ∧ LaneResult .upkn formUpkn (fun e => pkN (e.M 11 8)) (fun s i x =>
    let df := i.e.M 11 8
    let map := isNarrow df && fmtCMPA i.a.sp.fmt
    let r := (List.range (pkN df)).foldl (fun (acc : List Nat × Dword) k =>
      let y := cvtReal (if map then rctx s i.a 0 else { rctx s i.a 0 with mode := 0 }) (if map then cmpaTab s i.a else none) df 0
        (x.a / 2 ^ (pkBits df * k) % 2 ^ pkBits df) acc.2
      (acc.1 ++ [y.1], y.2)) ([], x.lg)
    ⟨fieldsOf 32 (pkN df) fun k => r.1.getD k 0, r.2⟩)
  ∧ LaneResult .cfma formCfma (fun e => if e.M 8 8 = 1 then 4 else 2) (fun s i x =>
    let rc := rctx s i.a (i.e.M 15 13)
    let ft := i.e.M 8 8
    let w := 32 * (ft + 1)
    let a := fun k => part s i k (i.bit 9) x.a
    let b := fun k => part s i k (i.bit 10) x.b
    let r1 := fma rc ft (xmul (a 0) (b 0)) (x.c % 2 ^ w) x.lg
    let r2 := fma rc ft (xneg (xmul (a 1) (b 1))) r1.1 r1.2
    let m1 := fma rc ft (xmul (a 0) (b 1)) (x.c / 2 ^ w) r2.2
    let m2 := fma rc ft (xmul (a 1) (b 0)) m1.1 m1.2
    ⟨r2.1 + 2 ^ w * m2.1, m2.2⟩)
  ∧ LaneResult .cmul formCmul (fun e => if e.M 8 8 = 1 then 4 else 2) (fun s i x =>
    let rc := rctx s i.a (i.e.M 15 13)
    let ft := i.e.M 8 8
    let a := fun k => part s i k (i.bit 9) x.a
    let b := fun k => part s i k (i.bit 10) x.b
    let re := roundTo rc ft (exactSum rc.mode [xmul (a 0) (b 0), xneg (xmul (a 1) (b 1))]) x.lg
    let im := roundTo rc ft (exactSum rc.mode [xmul (a 0) (b 1), xmul (a 1) (b 0)]) re.2
    ⟨re.1 + 2 ^ (32 * (ft + 1)) * im.1, im.2⟩)
  ∧ LaneResult .fdp2 formFdp2 (fun _ => 1) (fun s i x =>
    let rc := rctx s i.a (i.e.M 15 13)
    let v := fun (k p : Nat) => fval (2 + i.e.M 8 8) (flushIn rc.ftz (2 + i.e.M 8 8) (p / 2 ^ (16 * k) % 2 ^ 16))
    let r := roundTo rc 0 (exactSum rc.mode
      [xmul (v 0 x.a) (v 0 x.b), xmul (v 1 x.a) (v 1 x.b), fval 0 (flushIn rc.ftz 0 x.c)]) x.lg
    ⟨r.1, r.2⟩)

/-- R214, R215: RAND and PRUNE draw from each participant's own generator. -/
def Obligations.Generators : Prop :=
  LaneResult .rand formRand (fun _ => 1) (fun _ i x =>
    let g := genStep x.lg
    ⟨if i.bit 8 then roundPattern RCtx.atomic 0 0 (.fin false (g.2 / 2 ^ 8) (-24) false) else g.2, g.1⟩)
  ∧ LaneResult .prune formPrune (fun _ => 1) (fun _ i x =>
    let n := 2 ^ i.e.M 9 8
    let w := 32 / n
    let r := (List.range n).foldl (fun (acc : Nat × Dword) k =>
      let g := genStep acc.2
      ((if g.2 < x.b then acc.1 else acc.1 + x.a / 2 ^ (w * k) % 2 ^ w * 2 ^ (w * k)), g.1)) (0, x.lg)
    ⟨r.1, r.2⟩)

/-- R275, R274: the uniform set computes once for the split what its lane counterparts compute for a lane. -/
def Sys2Proof.UniformArithmeticClaim : Prop :=
  let one := fun (_ : Enc) => 1
  let two := fun (_ : Enc) => 2
  let pair := fun (e : Enc) => if e.M 8 8 = 1 then 2 else 1
  UniResult .sadd formSadd one (keeps fun i x =>
    keepIn 32 (i.bit 8) (i.bit 9) (intOf 32 (i.bit 8) x.a + intOf 32 (i.bit 8) x.b))
  ∧ UniResult .ssub formSsub one (keeps fun i x =>
    keepIn 32 (i.bit 8) (i.bit 9) (intOf 32 (i.bit 8) x.a - intOf 32 (i.bit 8) x.b))
  ∧ UniResult .smul formSmul one (keeps fun _ x => (BitVec.ofNat 32 x.a * BitVec.ofNat 32 x.b).toNat)
  ∧ UniResult .smad formSmad one (keeps fun i x =>
    keepIn 32 (i.bit 8) (i.bit 9) (intOf 32 (i.bit 8) x.a * intOf 32 (i.bit 8) x.b + intOf 32 (i.bit 8) x.c))
  ∧ UniResult .smin formSmin one (keeps fun i x => if intOf 32 (i.bit 8) x.a ≤ intOf 32 (i.bit 8) x.b then x.a else x.b)
  ∧ UniResult .smax formSmax one (keeps fun i x => if intOf 32 (i.bit 8) x.a ≤ intOf 32 (i.bit 8) x.b then x.b else x.a)
  ∧ UniResult .sshl formSshl one (keeps fun i x => bitsWord fun k =>
    decide (shiftOf i x ≤ k) && x.a.testBit (k - shiftOf i x))
  ∧ UniResult .sshr formSshr one (keeps fun i x => bitsWord fun k => x.a.testBit (k + shiftOf i x))
  ∧ UniResult .ssar formSsar one (keeps fun i x => bitsWord fun k => x.a.testBit (min 31 (k + shiftOf i x)))
  ∧ UniResult .sltab formSltab one (keeps fun i x => bitsWord fun k =>
    (i.e.M 15 8).testBit (4 * (x.a.testBit k).toNat + 2 * (x.b.testBit k).toNat + (x.c.testBit k).toNat))
  ∧ UniResult .smov formSmov pair (keeps fun _ x => x.b)
  ∧ UniPredResult .scmp formScmp (fun _ i x =>
    let n := if i.bit 12 then 64 else 32
    joined (i.e.M 16 15) (cmpInt (i.e.M 11 8) (intOf n (i.bit 14) x.a) (intOf n (i.bit 14) x.b)) (xor x.pc (i.bit 17)))
  ∧ UniResult .ssel formSsel pair (keeps fun i x => if xor x.pc (i.bit 9) then x.a else x.b)
  ∧ UniResult .sadd64 formSadd64 two (keeps fun i x =>
    keepIn 64 (i.bit 8) (i.bit 9) (intOf 64 (i.bit 8) x.a + intOf 64 (i.bit 8) x.b))
  ∧ UniResult .smadw formSmadw two (keeps fun i x =>
    (BitVec.ofInt 64 (intOf 32 (i.bit 8) x.a * intOf 32 (i.bit 8) x.b + intOf 64 (i.bit 8) x.c)).toNat)
  ∧ UniResult .sbfe formSbfe one (keeps fun i x => match fieldOf x.b with
    | none => 0
    | some (pos, w) => bitsWord fun k =>
      if k < w then x.a.testBit (pos + k) else i.bit 8 && x.a.testBit (pos + w - 1))
  ∧ UniResult .spopc formSpopc one (keeps fun _ x => ((List.range 32).map fun k => (x.a.testBit k).toNat).sum)
  ∧ UniResult .sclz formSclz one (keeps fun _ x => if x.a = 0 then 32 else 31 - Nat.log2 x.a)
  ∧ UniPredResult .qtab formQtab (fun _ i x => (i.e.M 15 8).testBit (4 * x.pa.toNat + 2 * x.pb.toNat + x.pc.toNat))
  ∧ UniResult .sffma formSffma ftRegs (fun s i x =>
    let rc := rctx s i.a (i.e.M 15 13)
    let v := fun (k : Nat) (neg : Bool) (p : Nat) => fpVal rc (i.e.M 9 8) k neg p
    roundEach rc (i.e.M 9 8) (fun k =>
      exactSum rc.mode [xmul (v k (i.bit 10) x.a) (v k (i.bit 11) x.b), v k (i.bit 12) x.c]) x.lg)

/-- R207: the Ochre operations, one rounding each, with the generator drawn at issue; the destination follows at
completion. Special operands as the table of R207 has them. -/
def Sys2Proof.OchreArithmeticClaim : Prop :=
  let rc := fun (s : State) (i : Iss) => rctx s i.a (i.e.M 15 13)
  let op := fun (s : State) (i : Iss) (p : Nat) => fval (i.e.M 9 8) (flushIn (rc s i).ftz (i.e.M 9 8) p)
  let r := fun (s : State) (i : Iss) (x : LaneIn) (v : XVal) =>
    LaneOut.mk (roundTo (rc s i) (i.e.M 9 8) v x.lg).1 (roundTo (rc s i) (i.e.M 9 8) v x.lg).2
  LaneSent .frcp formFrcp ftRegs (fun s i x => r s i x (match op s i x.a with
    | .nan => .nan
    | .inf n => .fin n 0 0 false
    | .fin n m e st => if m = 0 then .inf n else xrcp (.fin n m e st)))
  ∧ LaneSent .frsq formFrsq ftRegs (fun s i x => r s i x (match op s i x.a with
    | .nan => .nan
    | .inf n => if n then .nan else .fin false 0 0 false
    | .fin n m e st => if m = 0 then .inf n else if n then .nan else xrsq (.fin n m e st)))
  ∧ LaneSent .fsqrt formFsqrt ftRegs (fun s i x => r s i x (match op s i x.a with
    | .nan => .nan
    | .inf n => if n then .nan else .inf false
    | .fin n m e st => if m = 0 then .fin n 0 0 false else if n then .nan else xsqrt (.fin n m e st)))
  ∧ LaneSent .fdiv formFdiv ftRegs (fun s i x => r s i x (match op s i x.a, op s i x.b with
    | .nan, _ => .nan
    | _, .nan => .nan
    | .inf _, .inf _ => .nan
    | .inf n, .fin q _ _ _ => .inf (xor n q)
    | .fin n m e st, y => xdiv (rc s i).mode (.fin n m e st) y))
  ∧ LaneSent .fexp2 formFexp2 ftRegs (fun s i x => r s i x (match op s i x.a with
    | .nan => .nan
    | .inf n => if n then .fin false 0 0 false else .inf false
    | .fin n m e st => if m = 0 then .fin false 1 0 false else xexp2 (.fin n m e st)))
  ∧ LaneSent .flog2 formFlog2 ftRegs (fun s i x => r s i x (match op s i x.a with
    | .nan => .nan
    | .inf n => if n then .nan else .inf false
    | .fin n m e st => if m = 0 then .inf true else if n then .nan else zeroSign (rc s i).mode (xlog2 (.fin n m e st))))

/-- The uniform set, and its Ochre operations. -/
def Obligations.UniformArithmetic : Prop := UniformArithmeticClaim ∧ OchreArithmeticClaim

/-- Lane `j` may be read by XLANE: MODE, segment width, reader, k (R209). -/
def Sys2Proof.xlaneSource (mode w i k : Nat) : Option Nat :=
  let b := i - i % w
  if mode = 0 then some (b + k % w)
  else if mode = 1 then (if k < w ∧ b + k ≤ i then some (i - k) else none)
  else if mode = 2 then (if k < w ∧ i + k < b + w then some (i + k) else none)
  else some (i ^^^ (k % w))

/-- The mask of the lanes of a list for which `p` holds. -/
def Sys2Proof.maskWhere (ls : List Nat) (p : Nat → Bool) : Nat := bitsWord fun l => ls.contains l && p l

/-- The place of lane `l` in the participants sorted best first, ties by lane number (R213). -/
def Sys2Proof.rankIn (ls : List Nat) (better : Nat → Nat → Bool) (l : Nat) : Nat :=
  (ls.filter fun j => better j l || (decide (j < l) && !better l j)).length

/-- R208 to R213: the group-cooperative instructions over the participants of the executing split. -/
def Obligations.GroupCooperation : Prop :=
  let one := fun (_ : Enc) => 1
  GroupSent .xlane formXlane (fun e => if e.M 13 13 = 1 then 2 else 1) true (fun _ i ls x l =>
    match xlaneSource (i.e.M 9 8) (2 ^ (5 - i.e.M 12 10)) l (x l).b with
    | some j => if ls.contains j then ((x j).a, true, (x l).lg) else ((x l).a, false, (x l).lg)
    | none => ((x l).a, false, (x l).lg))
  ∧ GroupSent .poll formPoll one true (fun _ i ls x l =>
    let w := maskWhere ls fun j => xor (x j).pa (i.bit 10)
    let all := maskWhere ls fun _ => true
    (w, [w != 0, w == all, w == 0 || w == all].getD (i.e.M 9 8) false, (x l).lg))
  ∧ GroupSent .redux formRedux one false (fun s i ls x l =>
    let low := ls.headD 0
    let r := reduceTerms (rctx s i.a 0) (i.e.M 11 8) (i.bit 12) (ls.map fun j => (x j).a) (x low).lg
    (r.1, false, if l = low then r.2.getD (x l).lg else (x l).lg))
  ∧ GroupSent .scan formScan one false (fun s i ls x l =>
    let ts := ls.filter fun j => if i.bit 13 then decide (j < l) else decide (j ≤ l)
    let rc := rctx s i.a 0
    if ts = [] then (reduceIdentity rc (i.e.M 11 8) (i.bit 12), false, (x l).lg)
    else
      let r := reduceTerms rc (i.e.M 11 8) (i.bit 12) (ts.map fun j => (x j).a) (x l).lg
      (r.1, false, r.2.getD (x l).lg))
  ∧ GroupSent .matchB formMatchB one true (fun _ _ ls x l =>
    (maskWhere ls fun j => (x j).a == (x l).a, ls.all fun j => (x j).a == (x l).a, (x l).lg))
  ∧ GroupSent .topk formTopk one true (fun s i ls x l =>
    let better := fun j k => topkBetter (rctx s i.a 0) (i.e.M 9 8) (i.bit 10) (x j).a (x k).a
    let m := min (min (x (ls.headD 0)).b 32) ls.length
    (if l < m then (ls.find? fun j => rankIn ls better j == l).getD 0xFFFFFFFF else 0xFFFFFFFF,
      decide (rankIn ls better l < m), (x l).lg))

/-- An operation that was performed at issue, or captured to be performed later (R104). -/
def Sys2Proof.NowOrLater (o : Op) (i : Instr) (k : Capture) (now : Prop) : Prop :=
  (o.stage = .held i k ∧ o.writes = []) ∨ (o.stage = .done ∧ now)

/-- A load leaves memory, scratchpad and registers alone: it changes its group's flag, splits and operations, what its lanes
have read since their last acquire fence and which releases it has heard (R68, R108), the latches at the start of a hold chain, and what TLBs, SI copies and cursor
buffers hold. -/
structure Sys2Proof.LoadFrame (s t : State) (a : At) (e : Enc) : Prop where
  rest   : { t with groups := s.groups, cores := s.cores, fresh := s.fresh, tlb := s.tlb, si := s.si } = s
  others : ∀ g, g ≠ a.gid → mfind t.groups g = mfind s.groups g
  group  : ∃ flags splits ops nextOp cursors reads heard,
    getGroup t a.gid = { getGroup s a.gid with flags, splits, ops, nextOp, cursors, reads, heard }
  flags  : ∀ k, getFlag (getGroup t a.gid) k = getFlag (getGroup s a.gid) k + if flagOf e = some k then 1 else 0
  cores  : ∀ n, ∃ latches, getCore t n = { getCore s n with latches }

/-- The value that a load of size code SZ returns (R241). -/
def Sys2Proof.loaded (sz : Nat) (bs : List Byte) : Nat :=
  if sz = 1 then (BitVec.ofInt 32 (intOf 8 true (leNat bs))).toNat
  else if sz = 3 then (BitVec.ofInt 32 (intOf 16 true (leNat bs))).toNat
  else leNat bs

/-- The destination block of a party of a memory instruction. -/
def Sys2Proof.destKey (uni : Bool) (e : Enc) (l : Nat) : Nat := if uni then sKey e.d.toNat else vKey l e.d.toNat

/-- Every party's `n` bytes lie aligned in the team's scratchpad (R59). -/
abbrev Sys2Proof.InScratch (a : At) (k : Capture) (n : Nat) : Prop := ∀ x ∈ k.addr, x.2 % n = 0 ∧ x.2 + n ≤ a.tm.scrsize

/-- R247, R277: a load of scratchpad without a wait delivers each party's bytes, at issue or when it is performed. -/
def Sys2Proof.ScratchLoadsClaim : Prop :=
  let go := fun (mk : Enc → Instr) (f : Form) (uni : Bool) => ∀ e s a, Clear f e s a → (uni = false → e.M 12 11 = 0) →
    let s1 := book s a e
    let k := memCapture s1 (issOf f e s a) false 0 0
    let n := szBytes (e.M 10 8)
    InScratch a k n →
    ∃ t o, exec (mk e) s = .next t ∧ LoadFrame s t a e ∧ WentOn t a e ∧ Sent s t a e o ∧ NowOrLater o (mk e) k
      (Delivers o.writes k.lanes (destKey uni e) (szN (e.M 10 8))
          (fun l => loaded (e.M 10 8) (scrRead a.tm (mget k.addr l 0) n))
        ∧ Only o.writes (k.lanes.map fun l => (destKey uni e l, szN (e.M 10 8))))
  go .lds formLds false ∧ go .slds formSlds true

/-- A store to scratchpad changes no register, no memory and no other team; its own team's bytes as `byte` says. -/
structure Sys2Proof.ScrStored (s t : State) (a : At) (e : Enc) (byte : Nat → Byte → Prop) : Prop where
  regs   : ∀ g k, regOf t g k = regOf s g k
  memory : t.mem = s.mem
  parts  : t.parts = s.parts
  others : ∀ k, k ≠ teamKey a.gid → mfind t.teams k = mfind s.teams k
  team   : ∃ scr full, getTeam t (teamKey a.gid) = { a.tm with scr, full }
  bytes  : ∀ x, byte x (scrByte (getTeam t (teamKey a.gid)) x)

/-- Byte `x` as a store of scratchpad leaves it: of a party that stores there, one's data (R5); else as it was. -/
def Sys2Proof.storedScr (tm : Team) (k : Capture) (n x : Nat) (b : Byte) : Prop :=
  let at_ := fun l => mget k.addr l 0
  (∃ l ∈ k.lanes, at_ l ≤ x ∧ x < at_ l + n ∧ b = (leBytes n (wordsNat (mget k.data l []))).getD (x - at_ l) 0)
  ∨ ((∀ l ∈ k.lanes, ¬ (at_ l ≤ x ∧ x < at_ l + n)) ∧ b = scrByte tm x)

/-- R248, R277, R60, R61: a store to scratchpad writes its bytes and nothing else. STS without KEEP fills the granules it
touches, and where splits are parked they are served as `fill` says once the bytes stand; with KEEP, and in the uniform set,
full bits stay. -/
def Sys2Proof.ScratchStoresClaim : Prop :=
  let go := fun (mk : Enc → Instr) (f : Form) (uni : Bool) => ∀ e s a, Clear f e s a →
    let s1 := book s a e
    let k := memCapture s1 (issOf f e s a) false (szN (e.M 10 8)) 0
    let n := szBytes (e.M 10 8)
    InScratch a k n →
    ∃ t o, exec (mk e) s = .next t ∧ WentOn t a e ∧ Sent s t a e o ∧ o.writes = [] ∧
      ((o.stage = .held (mk e) k ∧ ScrStored s t a e (fun x b => b = scrByte a.tm x)
          ∧ (getTeam t (teamKey a.gid)).full = a.tm.full)
        ∨ (o.stage = .done ∧ ScrStored s t a e (storedScr a.tm k n)
          ∧ ((uni = true ∨ e.M 11 11 = 1) → (getTeam t (teamKey a.gid)).full = a.tm.full)
          ∧ (uni = false → e.M 11 11 = 0 → parkedOf s1 (teamKey a.gid) = [] → ∀ g,
              isFull (getTeam t (teamKey a.gid)) g
                = (isFull a.tm g || decide (∃ l ∈ k.lanes, g ∈ granules (mget k.addr l 0) n)))
          ∧ (uni = false → e.M 11 11 = 0 →
              let gs := (k.addr.flatMap fun x => granules x.2 n).eraseDups
              ∃ m, (∀ g j, splitOf m g j = splitOf s1 g j) ∧ (getTeam m (teamKey a.gid)).full = a.tm.full
                ∧ (∀ x, scrByte (getTeam m (teamKey a.gid)) x = scrByte (getTeam t (teamKey a.gid)) x)
                ∧ (∀ g j, (splitOf t g j).park = (splitOf (fill m (teamKey a.gid) gs) g j).park)
                ∧ (getTeam t (teamKey a.gid)).full = (getTeam (fill m (teamKey a.gid) gs) (teamKey a.gid)).full)))
  go .sts formSts false ∧ go .ssts formSsts true

/-- R61: granules become full. One split parked without a take, and satisfied, is granted, and the bits stay; beside a parked
take both are granted, and the take clears its granules; of two takes of one granule the device grants one, which clears it, and
the other stays parked. -/
def Sys2Proof.FillsClaim : Prop :=
  ∀ (s : State) (tk : Nat) (gs : List Nat), gs ≠ [] → mhas s.teams tk = true →
    let m := markFull s tk gs
    let given := fun (s : State) (x : Nat × Nat × SMap Byte) got => setPark s x.1 x.2.1 got true
    (∀ g, isFull (getTeam m tk) g = (isFull (getTeam s tk) g || decide (g ∈ gs)))
    ∧ (parkedOf m tk = [] → fill s tk gs = m)
    ∧ (∀ x got, parkedOf m tk = [x] → parkedWait m x = .ready got [] → parkedOf (given m x got) tk = [] →
        fill s tk gs = given m x got)
    ∧ (∀ x got g r, parkedOf m tk = [x] → parkedWait m x = .ready got (g :: r) →
        parkedOf (markEmpty (given m x got) tk (g :: r)) tk = [] → fill s tk gs = markEmpty (given m x got) tk (g :: r))
    ∧ (∀ x y gx gy g r, parkedOf m tk = [x, y] → parkedWait m x = .ready gx [] →
        parkedWait (given m x gx) y = .ready gy (g :: r) → parkedOf (given m x gx) tk = [y] →
        let t := markEmpty (given (given m x gx) y gy) tk (g :: r)
        parkedOf t tk = [] → fill s tk gs = t)
    ∧ ∀ x y gx gy g, parkedOf m tk = [x, y] → parkedWait m x = .ready gx [g] → parkedWait m y = .ready gy [g] →
        let m1 := { m with fresh := m.fresh + 1 }
        let tx := markEmpty (given m1 x gx) tk [g]
        let ty := markEmpty (given m1 y gy) tk [g]
        parkedOf tx tk = [y] → parkedOf ty tk = [x] → (∀ got r, parkedWait tx y ≠ .ready got r) →
        (∀ got r, parkedWait ty x ≠ .ready got r) →
        (fill s tk gs = tx ∨ fill s tk gs = ty)
        ∧ isFull (getTeam (fill s tk gs) tk) g = false

/-- Scratchpad after the atomics of some lanes, in order: a byte for each address (R251). -/
def Sys2Proof.atomsAfter (e : Enc) (k : Capture) (ls : List Nat) (m : Nat → Byte) : Nat → Byte :=
  let n := atBytes (e.M 14 12)
  match ls with
  | [] => m
  | l :: r =>
    let ad := mget k.addr l 0
    let new := atomNew (e.M 11 8) (e.M 14 12) (leNat ((rangeFrom ad n).map m)) (wordsNat (mget k.data l []))
      (wordsNat (mget k.third l []))
    atomsAfter e k r fun x => match new with
      | some y => if ad ≤ x ∧ x < ad + n then (leBytes n y).getD (x - ad) 0 else m x
      | none => m x

/-- R251, R105: ATOMS updates scratchpad for its participants one after another, ascending, and returns to each the value
it found. Full bits stay. -/
def Sys2Proof.ScratchAtomicsClaim : Prop :=
  ∀ e s a, Clear formAtoms e s a →
    let s1 := book s a e
    let k := memCapture s1 (issOf formAtoms e s a) false (atN (e.M 14 12)) (atN (e.M 14 12))
    let n := atBytes (e.M 14 12)
    InScratch a k n →
    ∃ t o, exec (.atoms e) s = .next t ∧ WentOn t a e ∧ Sent s t a e o
      ∧ (getTeam t (teamKey a.gid)).full = a.tm.full
      ∧ ((o.stage = .held (.atoms e) k ∧ o.writes = [] ∧ ScrStored s t a e (fun x b => b = scrByte a.tm x))
        ∨ (o.stage = .done ∧ ScrStored s t a e (fun x b => b = atomsAfter e k k.lanes (scrByte a.tm) x)
          ∧ Delivers o.writes k.lanes (fun l => vKey l e.d.toNat) (atN (e.M 14 12)) (fun l =>
              leNat ((rangeFrom (mget k.addr l 0) n).map
                (atomsAfter e k (k.lanes.takeWhile (· != l)) (scrByte a.tm))))))

/-- R250: what each atomic makes of the old value O and the operand B; the comparand is C. FP16 and BF16 halves count
alone. -/
def Sys2Proof.AtomicFunctionsClaim : Prop :=
  ∀ t o b c : Nat,
    let w := if t = 2 ∨ t = 3 ∨ t = 5 then 64 else 32
    let i := intOf w (decide (t = 1 ∨ t = 3))
    let fl := fun (op code x y : Nat) =>
      if op = 10 then roundPattern RCtx.atomic code 0 (exactSum 0 [fval code x, fval code y])
      else if fval code x = .nan ∨ fval code y = .nan then canonNan code
      else if op = 11 then (if xltTotal (fval code y) (fval code x) then y else x)
      else (if xltTotal (fval code x) (fval code y) then y else x)
    t < 8 → o < 2 ^ w → b < 2 ^ w → c < 2 ^ w →
    (t ≤ 3 →
      atomNew 0 t o b c = some ((BitVec.ofNat w o + BitVec.ofNat w b).toNat)
      ∧ atomNew 1 t o b c = some (if i b < i o then b else o)
      ∧ atomNew 2 t o b c = some (if i o < i b then b else o)
      ∧ atomNew 3 t o b c = some (o &&& b) ∧ atomNew 4 t o b c = some (o ||| b) ∧ atomNew 5 t o b c = some (o ^^^ b))
    ∧ atomNew 6 t o b c = some b
    ∧ atomNew 7 t o b c = (if o = c then some b else none)
    ∧ (t = 0 ∨ t = 2 → atomNew 8 t o b c = some (if o ≥ b then 0 else o + 1)
      ∧ atomNew 9 t o b c = some (if o = 0 ∨ o > b then b else o - 1))
    ∧ ∀ op, 10 ≤ op → op ≤ 12 →
      (t = 4 → atomNew op t o b c = some (fl op 0 o b))
      ∧ (t = 5 → atomNew op t o b c = some (fl op 1 o b))
      ∧ (t = 6 ∨ t = 7 →
        let h := if t = 6 then 2 else 3
        atomNew op t o b c = some (fl op h (o % 2 ^ 16) (b % 2 ^ 16) + 2 ^ 16 * fl op h (o / 2 ^ 16) (b / 2 ^ 16)))

/-- Scratchpad atomics, and what each atomic function computes. -/
def Obligations.ScratchAtomics : Prop := ScratchAtomicsClaim ∧ AtomicFunctionsClaim

/-- LDS under a wait (R247, R61): with every granule full at issue it delivers what it sees, and `.take` empties them; with
one empty it parks before issue, and nothing else changes. -/
def Sys2Proof.ScratchWaitsClaim : Prop :=
  ∀ e s a, Clear formLds e s a → e.M 12 11 ≠ 0 → a.sp.park = .none →
    let s1 := book s a e
    let k := memCapture s1 (issOf formLds e s a) false 0 0
    let n := szBytes (e.M 10 8)
    let gs := k.lanes.flatMap fun l => granules (mget k.addr l 0) n
    InScratch a k n → k.lanes ≠ [] →
    ((∀ g ∈ gs, isFull a.tm g = true) → ∃ t o, exec (.lds e) s = .next t ∧ WentOn t a e ∧ Sent s t a e o ∧ o.stage = .done
        ∧ Delivers o.writes k.lanes (fun l => vKey l e.d.toNat) (szN (e.M 10 8))
            (fun l => loaded (e.M 10 8) (scrRead a.tm (mget k.addr l 0) n))
        ∧ (∀ x, scrByte (getTeam t (teamKey a.gid)) x = scrByte a.tm x)
        ∧ ∀ g, isFull (getTeam t (teamKey a.gid)) g = (isFull a.tm g && !(e.M 12 11 == 2 && decide (g ∈ gs))))
    ∧ ((∃ g ∈ gs, isFull a.tm g = false) →
        exec (.lds e) s = .next (modSplit s a.gid a.k fun x => { x with park := .before [] false }))

/-- Scratchpad loads and stores, what they wait for, and what a fill gives. -/
def Obligations.ScratchLoadsAndStores : Prop := ScratchLoadsClaim ∧ ScratchStoresClaim ∧ FillsClaim ∧ ScratchWaitsClaim

/-- Each party's access of `n` bytes is aligned, its address maps to a resident page that permits it and belongs to this
device, and no TLB holds another translation (R244, R350 to R357). -/
abbrev Sys2Proof.Reaches (s : State) (c : Acc) (kind : AccKind) (ok : Leaf → Bool) (k : Capture) (n : Nat) (leaf : Nat → Leaf) : Prop :=
  ∀ x ∈ k.addr, x.2 < 2 ^ 52 ∧ x.2 % n = 0 ∧ walk s c.p x.2 = .ok (leaf x.1)
    ∧ (∀ h ∈ tlbHits s c.p c.core c.team x.2, h = leaf x.1) ∧ leafGate s c.p kind (leaf x.1) ok = none ∧ (leaf x.1).domain = false

/-- No poisoned block, no formatted graph pool, no block on its way to a new home, nothing owned by a core. -/
abbrev Sys2Proof.Calm (s : State) : Prop :=
  s.poison = [] ∧ s.pools = [] ∧ s.mgmt.mig = none ∧ s.mgmt.reqs = [] ∧ s.own = []

/-- The party of the issuing instruction. -/
def Sys2Proof.partyOf (f : Form) (e : Enc) (s : State) (a : At) : Acc := accOf (issOf f e s a)

/-- A residency predicate of a memory instruction. -/
def Sys2Proof.resKey (uni : Bool) (l res : Nat) : Nat := if uni then qKey res else pKey l res

/-- What a load of the byte space changes besides what a scratchpad load does: under OWN its core takes grains (R64), and
no coherent reader sees a change. -/
structure Sys2Proof.MemLoadFrame (s t : State) (a : At) (e : Enc) : Prop where
  load : LoadFrame s { t with own := s.own } a e
  seen : ∀ x key, cohByte t x key = cohByte s x key

/-- R245, R276, R241, R64, R152: LD and SLD deliver the coherent bytes of each party's address, whatever the page's format,
and clear its residency predicate (R243). A request that resolves to SI may be served from an older copy; it is left to
`CachedReadsClaim`. -/
def Obligations.Loads : Prop :=
  let go := fun (mk : Enc → Instr) (f : Form) (uni : Bool) => ∀ e s a leaf, Clear f e s a →
    let s1 := book s a e
    let k := memCapture s1 (issOf f e s a) true 0 0
    let c := partyOf f e s a
    let n := szBytes (e.M 10 8)
    let res := e.M 21 19
    Calm s → Reaches s c .read anyPage k n leaf → (∀ l ∈ k.lanes, reqOf (e.M 13 11) (leaf l) ≠ 3) →
    (e.M 15 14 = 1 → a.task.header.schk = false) →
    ∃ t o, exec (mk e) s = .next t ∧ MemLoadFrame s t a e ∧ WentOn t a e ∧ Sent s t a e o ∧ NowOrLater o (mk e) k
      (Delivers o.writes k.lanes (destKey uni e) (szN (e.M 10 8)) (fun l => loaded (e.M 10 8)
          (freshBytes s (versionOf s c) (leaf l) (pageOff (leaf l) (mget k.addr l 0)) n))
        ∧ Delivers o.writes (if res = 0 then [] else k.lanes) (fun l => resKey uni l res) 1 (fun _ => 0))
  go .ld formLd false ∧ go .sld formSld true

/-- What a store to the byte space leaves as it was: registers, scratchpad, tables, everything but memory, the caches' and
the scope checker's records, the group's flag, splits and operations, the latches at the start of a hold chain, and what
running tasks keep of their code as it stood at their start (R169). -/
structure Sys2Proof.StoreFrame (s t : State) (a : At) (e : Enc) : Prop where
  rest   : { t with groups := s.groups, cores := s.cores, fresh := s.fresh, tlb := s.tlb, si := s.si, mem := s.mem,
                    scopes := s.scopes, parts := s.parts } = s
  others : ∀ g, g ≠ a.gid → mfind t.groups g = mfind s.groups g
  group  : ∃ flags splits ops nextOp cursors dirty reads heard,
    getGroup t a.gid = { getGroup s a.gid with flags, splits, ops, nextOp, cursors, dirty, reads, heard }
  parts  : ∀ p, ∃ code : Task → SMap Byte,
    getPart t p = { getPart s p with window := (getPart s p).window.map fun k => { k with code := code k } }
  flags  : ∀ k, getFlag (getGroup t a.gid) k = getFlag (getGroup s a.gid) k + if flagOf e = some k then 1 else 0
  cores  : ∀ n, ∃ latches, getCore t n = { getCore s n with latches }

/-- Where a party's access lies in device memory, on a RAW page. -/
def Sys2Proof.homeAddr (k : Capture) (leaf : Nat → Leaf) (l : Nat) : Nat :=
  (leaf l).frame + pageOff (leaf l) (mget k.addr l 0)

/-- Device memory byte `x` as a store leaves it: of a party that stores there, one's data (R5, R245); else as it was. -/
def Sys2Proof.storedMem (s : State) (k : Capture) (leaf : Nat → Leaf) (n x : Nat) (b : Byte) : Prop :=
  (∃ l ∈ k.lanes, homeAddr k leaf l ≤ x ∧ x < homeAddr k leaf l + n
    ∧ b = (leBytes n (wordsNat (mget k.data l []))).getD (x - homeAddr k leaf l) 0)
  ∨ ((∀ l ∈ k.lanes, ¬ (homeAddr k leaf l ≤ x ∧ x < homeAddr k leaf l + n)) ∧ b = readByte s.mem x)

/-- R245, R276: on RAW pages without a key, ST and SST of a task without a version write each party's bytes at its address
and nothing else; the residency predicate is cleared (R243). Under OWN the bytes stay with the core: `OwnedWritesClaim`. -/
def Obligations.Stores : Prop :=
  let go := fun (mk : Enc → Instr) (f : Form) (uni : Bool) => ∀ e s a leaf, Clear f e s a →
    let s1 := book s a e
    let k := memCapture s1 (issOf f e s a) true (szN (e.M 10 8)) 0
    let n := szBytes (e.M 10 8)
    let res := e.M 21 19
    Calm s → a.task.card.ver = false → Reaches s (partyOf f e s a) .write anyPage k n leaf →
    (∀ l ∈ k.lanes, (leaf l).sf = 0 ∧ (leaf l).key = 0 ∧ reqOf (e.M 13 11) (leaf l) ≠ 1) →
    ∃ t o, exec (mk e) s = .next t ∧ StoreFrame s t a e ∧ WentOn t a e ∧ Sent s t a e o ∧
      ((o.stage = .held (mk e) k ∧ o.writes = [] ∧ t.mem = s.mem)
        ∨ (o.stage = .done ∧ (∀ x, storedMem s k leaf n x (readByte t.mem x))
          ∧ Delivers o.writes (if res = 0 then [] else k.lanes) (fun l => resKey uni l res) 1 (fun _ => 0)
          ∧ (res = 0 → o.writes = [])))
  go .st formSt false ∧ go .sst formSst true

/-- Memory after the atomics of some parties, in order, at the places `ad` (R251). -/
def Sys2Proof.atomicsAfter (e : Enc) (k : Capture) (ad : Nat → Nat) (ls : List Nat) (m : Nat → Byte) : Nat → Byte :=
  let n := atBytes (e.M 14 12)
  match ls with
  | [] => m
  | l :: r =>
    let new := atomNew (e.M 11 8) (e.M 14 12) (leNat ((rangeFrom (ad l) n).map m)) (wordsNat (mget k.data l []))
      (wordsNat (mget k.third l []))
    atomicsAfter e k ad r fun x => match new with
      | some y => if ad l ≤ x ∧ x < ad l + n then (leBytes n y).getD (x - ad l) 0 else m x
      | none => m x

/-- R251, R252, R276: on RAW pages without a key, the atomics of the parties of ATOM, SATOM and RED are performed at the
home one after another, ascending, whatever the request type; ATOM and SATOM return what each found. -/
def Obligations.Atomics : Prop :=
  let go := fun (mk : Enc → Instr) (f : Form) (uni ret : Bool) (nc : Nat → Nat) => ∀ e s a leaf, Clear f e s a →
    let s1 := book s a e
    let k := memCapture s1 (issOf f e s a) true (atN (e.M 14 12)) (nc (e.M 14 12))
    let n := atBytes (e.M 14 12)
    let res := e.M 22 20
    let ad := homeAddr k leaf
    Calm s → a.task.card.ver = false →
    Reaches s (partyOf f e s a) .atomic (atomPage (e.M 11 8) (e.M 14 12)) k n leaf →
    (∀ l ∈ k.lanes, (leaf l).sf = 0 ∧ (leaf l).key = 0) → (e.M 15 15 = 1 → a.task.header.schk = false) →
    ∃ t o, exec (mk e) s = .next t ∧ StoreFrame s t a e ∧ WentOn t a e ∧ Sent s t a e o ∧
      ((o.stage = .held (mk e) k ∧ o.writes = [] ∧ t.mem = s.mem)
        ∨ (o.stage = .done ∧ (∀ x, readByte t.mem x = atomicsAfter e k ad k.lanes (readByte s.mem) x)
          ∧ Delivers o.writes (if ret then k.lanes else []) (destKey uni e) (atN (e.M 14 12)) (fun l =>
              leNat ((rangeFrom (ad l) n).map (atomicsAfter e k ad (k.lanes.takeWhile (· != l)) (readByte s.mem))))
          ∧ Delivers o.writes (if res = 0 then [] else k.lanes) (fun l => resKey uni l res) 1 (fun _ => 0)))
  go .atom formAtom false true atN ∧ go .satom formSatom true true atN ∧ go .red formRed false false (fun _ => 0)

/-- R77, R243: a load one of whose pages is not resident, the others as `Reaches` says. Without a residency predicate the
instruction is held, and each page that is missing is reported once; with one, the lanes of those pages get 0 and true. -/
def Sys2Proof.ResidencyClaim : Prop :=
  ∀ e s a (leaf : Nat → Leaf) (out : Nat → Bool), Clear formLd e s a →
    let s1 := book s a e
    let k := memCapture s1 (issOf formLd e s a) true 0 0
    let c := partyOf formLd e s a
    let n := szBytes (e.M 10 8)
    let res := e.M 21 19
    let missing := (k.addr.filter fun x => out x.1).map fun x => pageBase (leaf x.1) x.2
    Calm s → e.M 15 14 = 0 → (∀ l ∈ k.lanes, reqOf (e.M 13 11) (leaf l) ≠ 3) →
    (∀ x ∈ k.addr, x.2 < 2 ^ 52 ∧ x.2 % n = 0 ∧ tlbHits s c.p c.core c.team x.2 = [] ∧ leafGate s c.p .read (leaf x.1) anyPage = none
      ∧ (leaf x.1).domain = false ∧ walk s c.p x.2 = if out x.1 then .nonres (leaf x.1) else .ok (leaf x.1)) →
    missing ≠ [] →
    ∃ t o, exec (.ld e) s = .next t ∧ WentOn t a e ∧ Sent s t a e o ∧
      (if res = 0 then o.stage = .held (.ld e) k ∧ o.writes = [] ∧
          (t.parts = s.parts ∨
            (∃ hs, (getPart t c.p).held = (getPart s c.p).held ++ hs ∧ hs.map (fun h => heldBase s c.p h.va) = missing.eraseDups
              ∧ ∀ h ∈ hs, h.who = .op a.gid o.id ∧ h.write = false ∧ h.recorded = false))
        else NowOrLater o (.ld e) k
          (Delivers o.writes (k.lanes.filter out) (fun l => vKey l e.d.toNat) (szN (e.M 10 8)) (fun _ => 0)
            ∧ Delivers o.writes (k.lanes.filter fun l => !out l) (fun l => vKey l e.d.toNat) (szN (e.M 10 8)) (fun l =>
                loaded (e.M 10 8) (freshBytes s (versionOf s c) (leaf l) (pageOff (leaf l) (mget k.addr l 0)) n))
            ∧ Delivers o.writes k.lanes (fun l => pKey l res) 1 (fun l => (out l).toNat)))

/-- R244, R354, R365: the checks of one access, in order, where the TLBs hold nothing else for its address: the traps MEM
UNMAPPED, ALIGN, PERM, PAGEFMT, ALIAS, ABSENT, PART GRANULE and LINK REMOTE, each with its detail; a page that is not
resident; or its leaf. -/
def Sys2Proof.AccessChecksClaim : Prop :=
  ∀ (s : State) (c : Acc) (kind : AccKind) (lane va n : Nat) (ok : Leaf → Bool),
    tlbHits s c.p c.core c.team va = [] → s.poison = [] →
    let bad := fun g code pa => Chk.bad (memTrap c lane (kind != .read) g code va pa)
    let r := (checkAcc s c kind lane va n ok).1
    (2 ^ 52 ≤ va → r = bad 2 1 0)
    ∧ (va < 2 ^ 52 → va % n ≠ 0 → r = bad 2 3 0)
    ∧ (va < 2 ^ 52 → va % n = 0 →
      (∀ g code pa, walk s c.p va = .fault g code pa → r = bad g code pa)
      ∧ (∀ l, walk s c.p va = .nonres l ∨ walk s c.p va = .ok l →
        let pa := if l.res then l.frame + (va - pageBase l va) else 0
        (kind ≠ .write → (l.r && l.r1) = false → r = bad 2 2 pa)
        ∧ (kind ≠ .read → (l.w && l.w1) = false → r = bad 2 2 pa)
        ∧ ((kind = .write ∨ (l.r && l.r1) = true) → (kind = .read ∨ (l.w && l.w1) = true) →
          (l.gr = 3 ∨ pairOk l.sf l.df = false ∨ ok l = false → r = bad 2 5 pa)
          ∧ (l.gr ≠ 3 → pairOk l.sf l.df = true → ok l = true →
            (l.res = false → walk s c.p va = .nonres l → r = .nonres)
            ∧ (walk s c.p va = .ok l → l.domain = true → r = if domainTakes s (l.frame + (va - pageBase l va)) then .ok l
              else bad 10 3 (l.frame + (va - pageBase l va)))
            ∧ (l.res = true → walk s c.p va = .ok l → l.domain = false →
              (l.sf ≠ l.tag → r = bad 2 6 pa)
              ∧ (l.sf = l.tag →
                (l.key ≠ 0 → capENCR s.caps = false → r = bad 2 8 pa)
                ∧ (l.key = 0 ∨ capENCR s.caps = true →
                  (holdsPhys s c.p l.frame = false → r = bad 13 1 pa)
                  ∧ (holdsPhys s c.p l.frame = true → r = .ok l))))))))

/-- Pages that are not resident, and the checks of an access, in their order. -/
def Obligations.AccessChecks : Prop := ResidencyClaim ∧ AccessChecksClaim

/-- R64: a read that resolves to SI returns the coherent bytes, or those that the core holds as a copy. -/
def Sys2Proof.CachedReadsClaim : Prop :=
  ∀ (s : State) (c : Acc) (l : Leaf) (va n req : Nat), s.poison = [] → l.domain = false → reqOf req l = 3 →
    let off := pageOff l va
    let r := (readAt s c l va n req).1
    r = freshBytes s (versionOf s c) l off n
      ∨ ((∀ o ∈ rangeFrom off n, mhas s.si (siKey s c.core l o) = true)
          ∧ r = (rangeFrom off n).map fun o => mget s.si (siKey s c.core l o) 0)

/-- R64, R65: bytes that a core writes under OWN on a RAW page are what every coherent reader sees from then on; every
other byte reads as before, and a recall changes none. -/
def Sys2Proof.OwnedWritesClaim : Prop :=
  ∀ (s : State) (c : Acc) (l : Leaf) (va : Nat) (bs : List Byte) (req : Nat),
    Calm s → (getTask s c.p c.tid).card.ver = false → l.sf = 0 → l.key = 0 → l.domain = false → l.gr < 3 → reqOf req l = 1 →
    let pa := l.frame + pageOff l va
    let t := writeAt s c l va bs req
    (∀ x, cohByte t x 0 = if pa ≤ x ∧ x < pa + bs.length then bs.getD (x - pa) 0 else readByte s.mem x)
    ∧ (∀ x, readByte t.mem x = readByte s.mem x)
    ∧ ∀ g x, cohByte (recallGrain t g) x 0 = cohByte t x 0

/-- R69 to R71: a converted page delivers, of every element, the stored element times its block's scale, rounded to the
delivered format; an FP16 page the stored value so rounded. A block is 32 elements, a chunk 32 blocks, its scales after
its elements. -/
def Sys2Proof.ConvertedReadsClaim : Prop :=
  ∀ (rd : Nat → Byte) (l : Leaf) (off n k : Nat), k < n →
    let d := if l.df = 3 then 4 else 2
    let i := (off + k) / d
    let byte := fun p : Nat => BitVec.ofNat 8 (p / 256 ^ ((off + k) % d))
    let code := if l.df = 1 then 3 else if l.df = 2 then 2 else 0
    (l.sf = 0 → (deliver rd l off n).getD k 0 = rd (l.frame + off + k))
    ∧ (l.sf = 4 → (deliver rd l off n).getD k 0
        = byte (pageRound code (fval 3 (leNat [rd (l.frame + 2 * i), rd (l.frame + 2 * i + 1)]))))
    ∧ (l.sf ∈ [1, 2, 3, 5] →
      let w := if l.sf = 2 then 6 else if l.sf = 3 then 4 else 8
      let chunk := l.frame + i / 1024 * (128 * w + 32)
      let bit := w * (i % 1024)
      let raw := (leNat [rd (chunk + bit / 8), rd (chunk + bit / 8 + 1)] / 2 ^ (bit % 8)) % 2 ^ w
      (deliver rd l off n).getD k 0
        = byte (pageRound code (mxValue (sfCode l.sf) (rd (chunk + 128 * w + i % 1024 / 32)).toNat raw)))

/-- R72, R71, R116: what a page delivers after a write that lies in one block of it. Of a BF16-of-FP32 page each written element is
rounded, and no other changes. An MX block written whole, or whose merged elements do not all fit its scale, is encoded afresh by
R37, so that elements nobody wrote may change too; a NaN block written in part stays NaN; else each written element is rounded by
the block's scale, and the others stay. Other blocks stay. -/
def Sys2Proof.ConvertedWritesClaim : Prop :=
  ∀ (rd : Nat → Byte) (l : Leaf) (off : Nat) (bs : List Byte) (b : Nat), l.df ∈ [1, 2, 3] → bs ≠ [] →
    let d := if l.df = 3 then 4 else 2
    let code := if l.df = 1 then 3 else if l.df = 2 then 2 else 0
    let after := (encodeWrite rd l off bs).1.foldl (fun (m : Nat → Byte) x a => if a = x.1 then x.2 else m a) rd
    let old := elemPattern rd l
    let new := elemPattern after l
    let touched := fun i => ∃ k < d, off ≤ i * d + k ∧ i * d + k < off + bs.length
    let pat := fun i => leNat ((List.range d).map fun k =>
      if off ≤ i * d + k ∧ i * d + k < off + bs.length then bs.getD (i * d + k - off) 0 else BitVec.ofNat 8 (old i / 256 ^ k))
    off / d / 32 = b → (off + bs.length - 1) / d / 32 = b →
    (l.sf = 4 → ∀ i, (touched i → new i = pageRound code (fval 3 (pageRound 3 (fval code (pat i))))) ∧ (¬ touched i → new i = old i))
    ∧ (l.sf ∈ [1, 2, 3, 5] →
      let ef := sfCode l.sf
      let w := if l.sf = 2 then 6 else if l.sf = 3 then 4 else 8
      let chunk := l.frame + b / 32 * (128 * w + 32)
      let scale := (rd (chunk + 128 * w + b % 32)).toNat
      let raw := fun j => elemBits rd w (chunk + b % 32 * w * 4) j
      let value := fun (j : Nat) (v : XVal) =>
        (touched (32 * b + j) → v = fval code (pat (32 * b + j))) ∧ (¬ touched (32 * b + j) → v = mxValue ef scale (raw j))
      let whole := ∀ j < 32, touched (32 * b + j)
      ∀ val : Nat → XVal, (∀ j < 32, value j (val j)) →
        let fits := ∀ j < 32, mxFits ef ((scale : Int) - 127) (val j) = true
        let q := mxEncode none ef ((List.range 32).map val)
        (whole ∨ (scale ≠ 255 ∧ ¬ fits) →
          ∀ j < 32, new (32 * b + j) = pageRound code (mxValue ef (q.1 % 256) (q.2.getD j 0 % 2 ^ w)))
        ∧ (¬ whole → scale = 255 → ∀ j < 32, new (32 * b + j) = canonNan code)
        ∧ (¬ whole → scale ≠ 255 → fits → ∀ j < 32,
          (touched (32 * b + j) →
            new (32 * b + j) = pageRound code (mxValue ef scale (mxElem none ef ((scale : Int) - 127) (val j) % 2 ^ w)))
          ∧ (¬ touched (32 * b + j) → new (32 * b + j) = old (32 * b + j)))
        ∧ ∀ i, i / 32 ≠ b → new i = old i)

/-- Reads that a copy may serve, writes that a core owns, and reads and writes of converted pages. -/
def Obligations.PageViews : Prop := CachedReadsClaim ∧ OwnedWritesClaim ∧ ConvertedReadsClaim ∧ ConvertedWritesClaim

/-- What a tensor access or OINFO changes besides a load: the object-table entry is kept as a cached copy (R380). Under OWN
the core takes grains (R64), and no coherent reader sees a change. -/
structure Sys2Proof.ObjFrame (s t : State) (a : At) (e : Enc) : Prop where
  rest   : { t with groups := s.groups, cores := s.cores, fresh := s.fresh, tlb := s.tlb, si := s.si, own := s.own,
                    parts := s.parts } = s
  seen   : ∀ x key, cohByte t x key = cohByte s x key
  parts  : ∀ p, ∃ otcache, getPart t p = { getPart s p with otcache }
  others : ∀ g, g ≠ a.gid → mfind t.groups g = mfind s.groups g
  group  : ∃ flags splits ops nextOp reads, getGroup t a.gid = { getGroup s a.gid with flags, splits, ops, nextOp, reads }

/-- Where the object-table entry of a handle lies (R380). -/
def Sys2Proof.objPlace (s : State) (p h : Nat) : Nat := (getPart s p).otbase + 32 * (h % 2 ^ 16)

/-- The object-table entry of a handle (R380). -/
def Sys2Proof.objEntry (s : State) (p h : Nat) : Nat :=
  leNat ((rangeFrom (objPlace s p h) 32).map fun x => cohByte s x 0)

/-- Elements of a lane's access that lie in bounds, and the address of the first (R255, R256). -/
def Sys2Proof.tensorAt (x n : Nat) (co : Nat → Nat) : Nat × Nat :=
  let nd := bitsOf x 15 14
  let ext := fun k => if k ≤ nd then bitsOf x (87 + 24 * k) (64 + 24 * k) else 1
  let str := fun k => if k = 0 then 1 else bitsOf x (159 + 32 * k) (128 + 32 * k)
  let es := efBits (bitsOf x 13 10) / 8
  ((if co 1 < ext 1 ∧ co 2 < ext 2 ∧ co 3 < ext 3 then min n (ext 0 - co 0) else 0),
    16 * bitsOf x 63 16 + es * (co 0 + co 1 * str 1 + co 2 * str 2 + co 3 * str 3))

/-- R254 to R256: TLD of a legal readable shape record delivers the elements that lie in bounds, zero for the others, and
says in its predicate whether all did. -/
def Sys2Proof.TensorLoadsClaim : Prop :=
  ∀ e s a leaf, Clear formTld e s a →
    let s1 := book s a e
    let i := issOf formTld e s a
    let k := tensorCapture false s1 i
    let c := partyOf formTld e s a
    let n := 2 ^ e.M 9 8
    let x := fun l => objEntry s c.p (mget k.addr l 0)
    let es := fun l => efBits (bitsOf (x l) 13 10) / 8
    let at_ := fun l => tensorAt (x l) n fun j => ((mget k.data l []).getD j 0).toNat
    Calm s → (getPart s c.p).otcache = [] → tensorForm false formTld e s = formTld →
    (∀ l ∈ k.lanes, holdsPhys s c.p (objPlace s c.p (mget k.addr l 0)) = true ∧ shapeLegal (x l) = true ∧ bitOf (x l) 8 = true ∧ n * es l ≤ 16
      ∧ ((at_ l).1 ≠ 0 → Reaches s c .read anyPage { k with addr := [(l, (at_ l).2)] } (n * es l) leaf
        ∧ reqOf (e.M 15 13) (leaf l) ≠ 3)) →
    ∃ t o, exec (.tld e) s = .next t ∧ ObjFrame s t a e ∧ WentOn t a e ∧ Sent s t a e o ∧ NowOrLater o (.tld e) k
      (∀ l ∈ k.lanes, Delivers o.writes [l] (fun l => vKey l e.d.toNat) ((n * es l + 3) / 4) (fun l =>
          if (at_ l).1 = 0 then 0 else
            leNat (freshBytes s (versionOf s c) (leaf l) (pageOff (leaf l) (at_ l).2) ((at_ l).1 * es l)))
        ∧ (e.M 12 10 ≠ 0 → Delivers o.writes [l] (fun l => pKey l (e.M 12 10)) 1 (fun l => (decide ((at_ l).1 = n)).toNat))
        ∧ (e.M 18 16 ≠ 0 → e.M 18 16 ≠ e.M 12 10 → Delivers o.writes [l] (fun l => pKey l (e.M 18 16)) 1 (fun _ => 0)))

/-- R278, R387: OINFO delivers a word of the object-table entry, which is then cached; a table in a granule that the partition
does not hold traps PART GRANULE. -/
def Sys2Proof.ObjectInfoClaim : Prop :=
  ∀ e s a, Clear formOinfo e s a → (getPart s a.tm.part).otcache = [] → s.poison = [] →
    let s1 := book s a e
    let i := issOf formOinfo e s a
    let x := laneIn s1 i (lowLane a.sp.active)
    let h := objPlace s a.tm.part x.a
    ∃ t o, exec (.oinfo e) s = .next t ∧ ObjFrame s t a e ∧ WentOn t a e ∧ Sent s t a e o
      ∧ (if uniGuard s1 i.a e = true then
          if holdsPhys s a.tm.part h = true then o.stage = .done
            ∧ Delivers o.writes [0] (fun _ => sKey e.d.toNat) 1 (fun _ => objEntry s a.tm.part x.a / 2 ^ (32 * (x.b % 8)) % 2 ^ 32)
          else o.stage = .faulted ⟨13, 1, BitVec.ofNat 32 (h / 64), BitVec.ofNat 32 (h / 2 ^ 33), locWord a.sp.pc true⟩
        else o.stage = .done ∧ o.writes = [])

/-- R258, R259, R78: PREF changes no value. RESQ of resident pages completes with nothing; else it stays outstanding until
its pages are reported, one record for each page. -/
def Sys2Proof.HintsClaim : Prop :=
  (∀ e s a, Clear formPref e s a →
    ∃ t o, exec (.pref e) s = .next t ∧ Frame s t a e ∧ WentOn t a e ∧ Sent s t a e o ∧ o.stage = .done ∧ o.writes = [])
  ∧ (∀ e s a (leaf : Nat → Leaf) (out : Nat → Bool), Clear formResq e s a →
    let k := memCapture (book s a e) (issOf formResq e s a) true 0 0
    let c := partyOf formResq e s a
    let kind := if e.M 8 8 = 1 then AccKind.write else .read
    let missing := (k.addr.filter fun x => out x.1).map fun x => pageBase (leaf x.1) x.2
    s.poison = [] →
    (∀ x ∈ k.addr, x.2 < 2 ^ 52 ∧ tlbHits s c.p c.core c.team x.2 = [] ∧ leafGate s c.p kind (leaf x.1) anyPage = none
      ∧ (leaf x.1).domain = false ∧ walk s c.p x.2 = if out x.1 then .nonres (leaf x.1) else .ok (leaf x.1)) →
    ∃ t o, exec (.resq e) s = .next t ∧ WentOn t a e ∧ Sent s t a e o ∧ o.writes = [] ∧ t.mem = s.mem
      ∧ (if missing = [] then o.stage = .done ∧ t.parts = s.parts
        else o.stage = .resq k ∧ ∃ hs, (getPart t c.p).held = (getPart s c.p).held ++ hs
          ∧ hs.map (fun h => heldBase s c.p h.va) = missing.eraseDups
          ∧ ∀ h ∈ hs, h.who = .resq a.gid o.id ∧ h.write = (e.M 8 8 == 1) ∧ h.recorded = false))

/-- One column of an accumulator row (R55, R223): AF and BF elements `a`, `b` by k, group scales `sc`, the old column `c`. -/
def Sys2Proof.columnOf (rc : RCtx) (fmt : Word) (inv : Option CTab) (cja cjb : Bool) (a b sc : Nat → Nat) (c : Nat) (lg : Dword) :
    Nat × Dword :=
  let af := fmtAF fmt
  let bf := fmtBF fmt
  let ks := List.range (mmaK af)
  let fma := fun (ft : Nat) (p : XVal) (c : Nat) (lg : Dword) =>
    roundTo rc ft (exactSum rc.mode [p, fval ft (flushIn rc.ftz ft c)]) lg
  let plain := fun k => fval af (flushIn rc.ftz af (a k))
  let x := fun k => if af = 4 ∨ af = 5 then (match inv with | some t => t.inv (plain k) | none => plain k) else plain k
  let y := fun k => if bf = 10 ∨ bf = 11 then scaledX (intOf (if bf = 10 then 4 else 3) true (b k))
      (scaleX (fmtSCF fmt) (if fmtSCF fmt = 3 then flushIn rc.ftz 3 (sc k) else sc k))
    else fval bf (flushIn rc.ftz bf (b k))
  if af = 12 ∨ af = 13 then
    let ft := af - 12
    let w := 32 * (ft + 1)
    let r := ks.foldl (fun (acc : Nat × Nat × Dword) k =>
      let p := fun n => compVal rc ft n (n == 1 && cja) (a k)
      let q := fun n => compVal rc ft n (n == 1 && cjb) (b k)
      let r1 := fma ft (xmul (p 0) (q 0)) acc.1 acc.2.2
      let r2 := fma ft (xneg (xmul (p 1) (q 1))) r1.1 r1.2
      let m1 := fma ft (xmul (p 0) (q 1)) acc.2.1 r2.2
      let m2 := fma ft (xmul (p 1) (q 0)) m1.1 m1.2
      (r2.1, m2.1, m2.2)) (c % 2 ^ w, c / 2 ^ w, lg)
    (r.1 + 2 ^ w * r.2.1, r.2.2)
  else if af ≤ 1 then ks.foldl (fun (acc : Nat × Dword) k => fma af (xmul (x k) (y k)) acc.1 acc.2) (c, lg)
  else roundTo rc 0 (exactSum rc.mode (fval 0 (flushIn rc.ftz 0 c) :: ks.map fun k => xmul (x k) (y k))) lg

/-- Columns in ascending order, each with the generator that the one before left (R223). -/
def Sys2Proof.columnsOf (n : Nat) (col : Nat → Dword → Nat × Dword) (lg : Dword) : List Nat × Dword :=
  (List.range n).foldl (fun (acc : List Nat × Dword) j => let r := col j acc.2; (acc.1 ++ [r.1], r.2)) ([], lg)

/-- R220 to R224, R55: MMA and MMAC give each participant its row from the scratchpad's A row and B image. With QA or QB
the operand's granules must be full, or the split parks; .take empties them. Where an operand is plain the device may read it
later, before the completion: the operation then stands with what it has captured. The generators step at issue. -/
def Obligations.MatrixMultiply : Prop :=
  let go := fun (mk : Enc → Instr) (f : Form) (mmac : Bool) => ∀ e s a, Clear f e s a → a.sp.park = .none →
    let s1 := book s a e
    let i := issOf f e s a
    let ls := participants s1 i.a e
    let src := laneIn s1 i (lowLane a.sp.active)
    let fmt := a.sp.fmt
    let kk := mmaK (fmtAF fmt)
    let nn := 32 / 2 ^ e.M 9 8
    let es := efBits (fmtAF fmt) / 8
    let nr := fmtRc fmt
    let row := fun l => src.a + l * src.c
    let rd := scrByte a.tm
    let ga := ls.flatMap fun l => granules (row l) 96
    let gb := granules src.b (mmaImage e fmt)
    let old := fun l n => if mmac then 0 else readVIndigo s1 i.a l (e.d.toNat + n * nr) nr
    let r := fun l => columnsOf nn (fun n lg => columnOf (rctx s1 i.a 0) fmt (cmpaTab s1 i.a) (e.M 14 14 == 1) (e.M 15 15 == 1)
      (fun k => leNat ((rangeFrom (row l + k * es) es).map rd)) (fun k => imageElem rd (fmtBF fmt) kk nn src.b k n)
      (fun k => imageScale rd (fmtBF fmt) kk nn (fmtGSZ fmt) (fmtSCF fmt) src.b k n) (old l n) lg) (readLg a.g l)
    src.a % 16 = 0 → src.b % 16 = 0 → src.c % 16 = 0 → (∀ l ∈ ls, row l + 96 ≤ a.tm.scrsize) →
    src.b + mmaImage e fmt ≤ a.tm.scrsize → ls ≠ [] →
    let waits := (if e.M 11 10 = 0 then [] else ga) ++ (if e.M 13 12 = 0 then [] else gb)
    let takes := (if e.M 11 10 = 2 then ga else []) ++ (if e.M 13 12 = 2 then gb else [])
    ((∀ g ∈ waits, isFull a.tm g = true) → ∃ t o, exec (mk e) s = .next t ∧ WentOn t a e ∧ Sent s t a e o
      ∧ o.indigo = true ∧ Drew s t a.gid ls (fun l => (r l).2)
      ∧ ((o.stage = .done
          ∧ Delivers o.writes ls (fun l => vKey l e.d.toNat) (nn * nr)
              (fun l => fieldsOf (32 * nr) nn fun n => (r l).1.getD n 0)
          ∧ Only o.writes (ls.map fun l => (vKey l e.d.toNat, nn * nr)))
        ∨ (o.stage = .held (mk e) (mmaCapture mmac (snapshot a.tm [] waits) s1 i) ∧ o.writes = []
          ∧ (e.M 11 10 = 0 ∨ e.M 13 12 = 0)))
      ∧ ScrStored s t a e (fun x b => b = rd x)
      ∧ ∀ g, isFull (getTeam t (teamKey a.gid)) g = (isFull a.tm g && !decide (g ∈ takes)))
    ∧ ((∃ g ∈ waits, isFull a.tm g = false) →
        exec (mk e) s = .next (modSplit s a.gid a.k fun x => { x with park := .before [] false }))
  go .mma formMma false ∧ go .mmac formMmac true

/-- R227, R130, R221: PLNST puts element k0 + j of column n where an MMA of the same K and N reads it, for every
participant n below N and every row below K; no other element of the image and no byte outside its planes changes. -/
def Sys2Proof.PlaneStoreClaim : Prop :=
  ∀ e s a, Clear formPlnst e s a →
    let s1 := book s a e
    let i := issOf formPlnst e s a
    let ls := participants s1 i.a e
    let src := laneIn s1 i (lowLane a.sp.active)
    let ef := e.M 11 8
    let nn := 32 / 2 ^ e.M 13 12
    let kk := e.M 21 15 + 1
    let nr := efRc ef
    let size := planeCount ef * planeStride kk nn
    src.a % 16 = 0 → src.a + size ≤ a.tm.scrsize →
    ∃ t o, exec (.plnst e) s = .next t ∧ WentOn t a e ∧ Sent s t a e o ∧ o.stage = .done ∧ o.writes = []
      ∧ ScrStored s t a e (fun x b => x < src.a ∨ src.a + size ≤ x → b = scrByte a.tm x)
      ∧ ∀ k n, k < kk → n < nn →
        imageElem (scrByte (getTeam t (teamKey a.gid))) ef kk nn src.a k n =
          if n ∈ ls ∧ src.c ≤ k ∧ k < src.c + 2 ^ e.M 24 22
          then (if e.ctl.lb = 0 then readVIndigo s1 i.a n (e.b.toNat + (k - src.c) * nr) nr
            else (laneIn s1 i n).b / 2 ^ (32 * nr * (k - src.c))) % 2 ^ efBits ef
          else imageElem (scrByte a.tm) ef kk nn src.a k n

/-- An element that MDRN forms (R230): column, old element, generator outputs of its roundings. -/
def Sys2Proof.tileElem (rc : RCtx) (cf df red col old : Nat) (outs : Nat → Nat) : Nat :=
  let part := fun (w db cb k : Nat) =>
    let x := compVal rc cb k false col
    let o := fval db (flushIn rc.ftz db (old / 2 ^ (w * k) % 2 ^ w))
    let nan := o == .nan || x == .nan
    roundPattern rc db (outs k) (zeroSign rc.mode (if red = 0 then x else if red = 1 then exactSum rc.mode [o, x]
      else if nan then .nan else if red = 2 then (if xltTotal x o then x else o) else (if xltTotal o x then x else o)))
  if df = 12 ∨ df = 13 then
    let w := 32 * (df - 11)
    part w (df - 12) (cf - 2) 0 + 2 ^ w * part w (df - 12) (cf - 2) 1
  else part (efBits df) df cf 0

/-- Memory after the elements of some sites, in order: each formed of what the place holds. -/
def Sys2Proof.tilesAfter (es : Nat) (elem : Nat × Nat → Nat → Nat) (ad : Nat × Nat → Nat) (xs : List (Nat × Nat)) (m : Nat → Byte) :
    Nat → Byte :=
  match xs with
  | [] => m
  | x :: r =>
    let v := elem x (leNat ((rangeFrom (ad x) es).map m))
    tilesAfter es elem ad r fun y => if ad x ≤ y ∧ y < ad x + es then (leBytes es v).getD (y - ad x) 0 else m y

/-- R228 to R231: MDRN stores each participant's row, or combines it with what is there, row by row in some order; where the rows of a
plain store meet, one of them stays. In scratchpad, and on RAW pages of memory without a key. -/
def Sys2Proof.MatrixDrainClaim : Prop :=
  ∀ e s a (leaf : Nat → Nat → Leaf), Clear formMdrn e s a →
    let s1 := book s a e
    let i := issOf formMdrn e s a
    let k := (mdrnCapture s1 i).1
    let nn := 32 / 2 ^ e.M 9 8
    let df := e.M 13 10
    let es := efBits df / 8
    let nr := fmtRc a.sp.fmt
    let rc := rctx s1 i.a 0
    let parts := if df = 12 ∨ df = 13 then 2 else 1
    let col := fun (l n : Nat) => readVIndigo s1 i.a l (e.b.toNat + n * nr) nr
    let elem := fun (x : Nat × Nat) (old : Nat) => tileElem rc (fmtCF a.sp.fmt) df (e.M 15 14) (col x.1 x.2) old
      fun j => ((mget k.third x.1 []).getD (x.2 * parts + j) 0).toNat
    let row := fun l : Nat => (List.range nn).map fun n => (l, n)
    let sites := k.lanes.flatMap row
    let after := fun (ad : Nat × Nat → Nat) (m m' : Nat → Byte) =>
      if e.M 15 14 = 0 then
        ∀ y, (∃ x ∈ sites, ad x ≤ y ∧ y < ad x + es ∧ m' y = (leBytes es (elem x 0)).getD (y - ad x) 0)
          ∨ ((∀ x ∈ sites, ¬ (ad x ≤ y ∧ y < ad x + es)) ∧ m' y = m y)
      else ∃ order : List Nat, order.Perm k.lanes ∧ m' = tilesAfter es elem ad (order.flatMap row) m
    (e.M 16 16 = 1 → (∀ l ∈ k.lanes, mget k.addr l 0 % es = 0 ∧ mget k.addr l 0 + nn * es ≤ a.tm.scrsize) →
      ∃ t o, exec (.mdrn e) s = .next t ∧ WentOn t a e ∧ Sent s t a e o ∧ o.writes = [] ∧
        ((o.stage = .held (.mdrn e) k ∧ ScrStored s t a e (fun x b => b = scrByte a.tm x))
          ∨ (o.stage = .done ∧ ScrStored s t a e (fun _ _ => True)
            ∧ after (fun x => mget k.addr x.1 0 + x.2 * es) (scrByte a.tm) (scrByte (getTeam t (teamKey a.gid))))))
    ∧ (e.M 16 16 = 0 → Calm s → a.task.card.ver = false →
      (∀ n < nn, Reaches s (partyOf formMdrn e s a) (if e.M 15 14 = 0 then .write else .atomic) anyPage
        { k with addr := k.addr.map fun x => (x.1, x.2 + n * es) } es fun l => leaf l n) →
      (∀ l ∈ k.lanes, ∀ n < nn, (leaf l n).sf = 0 ∧ (leaf l n).key = 0
        ∧ (e.M 15 14 = 0 → reqOf (e.M 20 18) (leaf l n) ≠ 1)) →
      ∃ t o, exec (.mdrn e) s = .next t ∧ WentOn t a e ∧ Sent s t a e o ∧ o.writes = [] ∧ t.teams = s.teams ∧
        ((o.stage = .held (.mdrn e) k ∧ t.mem = s.mem)
          ∨ (o.stage = .done ∧ after (fun x => (leaf x.1 x.2).frame
                + pageOff (leaf x.1 x.2) (mget k.addr x.1 0 + x.2 * es)) (readByte s.mem) (readByte t.mem))))

/-- PLNST and MDRN. -/
def Obligations.PlanesAndDrains : Prop := PlaneStoreClaim ∧ MatrixDrainClaim

/-- R232 to R235: XF transposes over the participants, conjugates, or quantises groups of 16 or 32 values. -/
def Obligations.RegisterTransforms : Prop :=
  ∀ e s a, Clear formXf e s a →
    let s1 := book s a e
    let i := issOf formXf e s a
    let ls := participants s1 i.a e
    let v := fun l r n => readV s1 i.a l (e.a.toNat + r) n
    let flip := fun (b x : Nat) => if x.testBit b then x - 2 ^ b else x + 2 ^ b
    let g := if fmtGSZ a.sp.fmt = 3 then 16 else 32
    let quant := fun l => (List.range (32 / g)).foldl (fun (acc : List Int × List Nat × Dword) j =>
      let q := quantGroup (rctx s1 i.a 0) (fmtSCF a.sp.fmt) (if e.M 10 10 = 1 then 3 else 7) false
        ((List.range g).map fun k => fval 0 (flushIn (rctx s1 i.a 0).ftz 0 (v l (j * g + k) 1))) acc.2.2
      (acc.1 ++ q.2.1, acc.2.1 ++ [q.1], q.2.2)) ([], [], readLg a.g l)
    ∃ t o, exec (.xf e) s = .next t ∧ Frame s t a e ∧ WentOn t a e ∧ Sent s t a e o ∧ o.stage = .done
      ∧ Drew s t a.gid (if e.M 9 8 = 3 then ls else []) (fun l => (quant l).2.2)
      ∧ (e.M 9 8 = 0 → ∀ j < 32, Delivers o.writes ls (fun l => vKey l (e.d.toNat + j)) 1
          (fun l => if j ∈ ls then v j l 1 else 0))
      ∧ (e.M 9 8 = 1 → ∀ j < 32, Delivers o.writes ls (fun l => vKey l (e.d.toNat + 2 * j)) 2
          (fun l => let x := if j ∈ ls then v j (2 * l) 2 else 0; if e.M 10 10 = 1 then flip 63 x else x))
      ∧ (e.M 9 8 = 2 → let w := 2 * (e.M 10 10 + 1); ∀ j ≤ e.M 13 11,
          Delivers o.writes ls (fun l => vKey l (e.d.toNat + w * j)) w (fun l => flip (32 * w - 1) (if e.ctl.la = 0 then v l (w * j) w else (laneIn s1 i l).a)))
      ∧ (e.M 9 8 = 3 →
          (∀ j < 32, Delivers o.writes ls (fun l => vKey l (e.d.toNat + j)) 1
            (fun l => (BitVec.ofInt 32 ((quant l).1.getD j 0)).toNat))
          ∧ ∀ j < 32 / g, Delivers o.writes ls (fun l => vKey l (e.d.toNat + 32 + j)) 1 (fun l => (quant l).2.1.getD j 0))

/-- R237, R238: DCD delivers record r's values to the participants and how many bytes the records occupy; under a wait once
their granules are full, which `.take` empties. -/
def Sys2Proof.StreamDecodeClaim : Prop :=
  ∀ e s a v, Clear formDcd e s a → a.sp.park = .none →
    let s1 := book s a e
    let i := issOf formDcd e s a
    let ls := participants s1 i.a e
    let src := laneIn s1 i (lowLane a.sp.active)
    let n := e.M 16 14 + 1
    let gs := granules src.a v.2
    dcdRecords a.tm (fun x => some (scrByte a.tm x)) (e.M 9 8) (e.M 13 10) (fmtSCF a.sp.fmt) 0 n src.a src.b = .ok v →
    (e.M 18 17 ≠ 0 → ∀ g ∈ gs, isFull a.tm g = true) →
    ∃ t o, exec (.dcd e) s = .next t ∧ WentOn t a e ∧ Sent s t a e o ∧ o.stage = .done
      ∧ ScrStored s t a e (fun x b => b = scrByte a.tm x)
      ∧ (∀ r < n, Delivers o.writes ls (fun l => vKey l (e.d.toNat + r)) 1 (fun l => (v.1.getD r []).getD l 0))
      ∧ Delivers o.writes ls (fun l => vKey l (e.d.toNat + n)) 1 (fun _ => v.2)
      ∧ (ls ≠ [] → ∀ g, isFull (getTeam t (teamKey a.gid)) g = (isFull a.tm g && !(e.M 18 17 == 2 && decide (g ∈ gs))))

/-- R239: ENC writes the records of the participants' values back to back, gives every participant their length, and fills
the granules it touches. -/
def Sys2Proof.StreamEncodeClaim : Prop :=
  ∀ e s a, Clear formEnc e s a →
    let s1 := book s a e
    let i := issOf formEnc e s a
    let ls := participants s1 i.a e
    let src := laneIn s1 i (lowLane a.sp.active)
    let xs := (List.range (e.M 16 14 + 1)).map fun r =>
      (List.range 32).map fun l => if ls.contains l then some ((laneIn s1 i l).b / 2 ^ (32 * r) % 2 ^ 32) else none
    let r := encRecords (rctx s1 i.a 0) (e.M 9 8) (e.M 13 10) (fmtSCF a.sp.fmt) xs src.c a.g.lg
    let n := r.1.length
    ls ≠ [] → src.a + n ≤ a.tm.scrsize →
    ∃ t o, exec (.enc e) s = .next t ∧ WentOn t a e ∧ Sent s t a e o ∧ o.stage = .done
      ∧ ScrStored s t a e (fun x b => b = if src.a ≤ x ∧ x < src.a + n then r.1.getD (x - src.a) 0 else scrByte a.tm x)
      ∧ Delivers o.writes ls (fun l => vKey l e.d.toNat) 1 (fun _ => n)
      ∧ (∀ l, readLg (getGroup t a.gid) l = mget r.2 l 0)
      ∧ (parkedOf s1 (teamKey a.gid) = [] → ∀ g,
          isFull (getTeam t (teamKey a.gid)) g = (isFull a.tm g || decide (g ∈ granules src.a n)))

/-- R136, R237, R239: the four record formats. A record that ENC writes for 32 values is read back by DCD as those values, wherever
it lies: BMAP (4- or 2-byte elements, absent ones zero) and DVAR (from its base); of MXB and I4G the scaled elements of R37 and R36
come back, under any rounding but SR. A BMAP record is read as its bitmap says, and a varint that runs past 5 bytes or sets bits
7 to 4 of its fifth is malformed. Records lie back to back, and the next one's base is the value of lane 31. -/
def Sys2Proof.RecordFormatsClaim : Prop :=
  ∀ (tm : Team) (xs : List (Option Nat)) (rc : RCtx) (lgs : SMap Dword) (ef scf r ad base : Nat), xs.length = 32 →
    let rd := fun x => some (scrByte tm x)
    let reads := fun bs : List Byte => ad + bs.length ≤ tm.scrsize ∧ ∀ k < bs.length, scrByte tm (ad + k) = bs.getD k 0
    (let es := if ef = 0 then 4 else 2
     let bs := bmapBytes es xs
     reads bs → dcdRecord tm rd 0 ef scf r ad base = .ok (xs.map fun x => x.getD 0 % 256 ^ es, bs.length))
    ∧ (base < 2 ^ 32 → (∀ x ∈ xs, ∀ v, x = some v → v < 2 ^ 32) →
      let bs := (dvarBytes base xs).1
      reads bs → ∃ ys, dcdRecord tm rd 1 ef scf r ad base = .ok (ys, bs.length) ∧ ys.length = 32
        ∧ ∀ l < 32, ys.getD l 0 = ((xs.take (l + 1)).reverse.findSome? id).getD base)
    ∧ (4 ≤ ef → ef ≤ 8 →
      let w := efBits ef
      let q := mxEncode rc.comp ef (xs.map fun x => fval 0 (x.getD 0))
      let bs := (encRecords rc 2 ef scf [xs] base lgs).1
      bs.length = 4 * w + 1
      ∧ (reads bs → dcdRecord tm rd 2 ef scf r ad base
        = .ok (q.2.map fun p => pageRound 0 (mxValue ef (q.1 % 256) (p % 2 ^ w)), bs.length)))
    ∧ (rc.mode ≠ 5 → 1 ≤ scf → scf ≤ 3 →
      let n := if scf = 3 then 2 else 1
      let q := quantGroup rc scf 7 false (xs.map fun x => fval 0 (x.getD 0)) 1
      let bs := (encRecords rc 3 ef scf [xs] base lgs).1
      bs.length = 16 + n
      ∧ (reads bs → dcdRecord tm rd 3 ef scf r ad base
        = .ok (q.2.1.map fun p => pageRound 0 (scaledX (BitVec.ofInt 4 p).toInt (scaleX scf (q.1 % 256 ^ n))), bs.length)))
    ∧ (let byte := fun k => (scrByte tm (ad + k)).toNat
      let m := leNat ((List.range 4).map fun k => scrByte tm (ad + k))
      let es := if ef = 0 then 4 else 2
      let before := fun l => ((List.range l).filter fun j => m.testBit j).length
      let size := 4 + 4 * ((before 32 * es + 3) / 4)
      (ad + size ≤ tm.scrsize → dcdRecord tm rd 0 ef scf r ad base = .ok ((List.range 32).map fun l =>
          if m.testBit l then leNat ((List.range es).map fun j => scrByte tm (ad + 4 + es * before l + j)) else 0, size))
      ∧ (ad + 5 ≤ tm.scrsize → (∀ k < 4, 128 ≤ byte k) → 16 ≤ byte 4 →
          dcdRecord tm rd 1 ef scf r ad base = .error (.bad ad r)))
    ∧ ∀ n v w, dcdRecord tm rd 1 ef scf r ad base = .ok v →
        dcdRecords tm rd 1 ef scf (r + 1) n (ad + v.2) (v.1.getD 31 0) = .ok w →
        dcdRecords tm rd 1 ef scf r (n + 1) ad base = .ok (v.1 :: w.1, v.2 + w.2)

/-- DCD and ENC, and the records that they move. -/
def Obligations.Streams : Prop := StreamDecodeClaim ∧ StreamEncodeClaim ∧ RecordFormatsClaim

/-- The value that a Slate table holds for a key in its bucket (R137, R139). -/
def Sys2Proof.tableValue (t : Slate) (k : Nat) : Option Nat :=
  let j := k * 0x9E3779B97F4A7C15 % 2 ^ 64 / 2 ^ (64 - Nat.log2 t.nb)
  ((List.range 8).findSome? fun i => (mfind t.entries (8 * j + i)).bind fun e => if e.1.toNat = k then some e.2.toNat else none)

/-- A table without spilled buckets whose keys lie once, in their buckets, and have room for `n` more (R137). -/
def Sys2Proof.TableRoom (t : Slate) (n : Nat) : Prop :=
  t.spilled = [] ∧ t.nb ∈ [512, 1024, 2048, 4096, 8192]
  ∧ (∀ x k v, mfind t.entries x = some (k, v) → x / 8 = slateBucket t.nb k.toNat ∧ k.toNat < 2 ^ 64 - 1)
  ∧ (∀ x y k v w, mfind t.entries x = some (k, v) → mfind t.entries y = some (k, w) → x = y)
  ∧ ∀ j, ((List.range 8).filter fun i => mhas t.entries (8 * j + i)).length + n ≤ 8

/-- A Slate operation on the value of its key (R261): the new value, the word for vd, the predicate. -/
abbrev Sys2Proof.TableOp := Nat → Nat → Option Nat → Option Nat × Nat × Bool

/-- The table after the operations of some lanes, in order. -/
def Sys2Proof.tableAfter (op : TableOp) (k : Capture) (ls : List Nat) (m : Nat → Option Nat) : Nat → Option Nat :=
  match ls with
  | [] => m
  | l :: r =>
    let key := mget k.addr l 0
    tableAfter op k r fun x => if x = key then (op key (wordsNat (mget k.data l [])) (m key)).1 else m x

/-- The sources of a Slate instruction, as it captures them. -/
def Sys2Proof.tableCapture (s : State) (i : Iss) (wide : Nat) : Capture :=
  let ls := participants s i.a i.e
  ⟨ls, ls.map fun l => (l, srcA s i.a i.f i.e l), ls.map fun l => (l, natWords wide (srcB s i.a i.f i.e l)), [],
    i.a.sp.fmt, i.a.sp.active, [], [], none⟩

/-- R137, R139, R140, R260, R261: HINS, HPROBE, HACC and HDEL act on the team's table for their participants one after
another, where no bucket overflows. The key of all ones is never stored. -/
def Sys2Proof.SlateOperationsClaim : Prop :=
  let go := fun (mk : Enc → Instr) (f : Form) (wide nd : Nat) (op : Enc → TableOp) => ∀ e s a tbl, Clear f e s a →
    let k := tableCapture (book s a e) (issOf f e s a) wide
    let before := tableValue tbl
    let out := fun l =>
      let key := mget k.addr l 0
      op e key (wordsNat (mget k.data l [])) (tableAfter (op e) k (k.lanes.takeWhile (· != l)) before key)
    a.tm.slate = some tbl → TableRoom tbl k.lanes.length →
    ∃ t o, exec (mk e) s = .next t ∧ WentOn t a e ∧ Sent s t a e o ∧ t.mem = s.mem ∧ t.parts = s.parts
      ∧ (∀ j, j ≠ teamKey a.gid → mfind t.teams j = mfind s.teams j)
      ∧ ((o.stage = .held (mk e) k ∧ o.writes = [] ∧ t.teams = s.teams)
        ∨ (o.stage = .done
          ∧ (∃ tbl', getTeam t (teamKey a.gid) = { a.tm with slate := some tbl' } ∧ TableRoom tbl' 0
            ∧ ∀ x, x < 2 ^ 64 - 1 → tableValue tbl' x = tableAfter (op e) k k.lanes before x)
          ∧ Delivers o.writes k.lanes (fun l => vKey l e.d.toNat) nd (fun l => (out l).2.1)
          ∧ (e.M 10 8 ≠ 0 → Delivers o.writes k.lanes (fun l => pKey l (e.M 10 8)) 1 (fun l => (out l).2.2.toNat))))
  let bad := 2 ^ 64 - 1
  go .hins formHins 2 1 (fun _ k b old => if k = bad then (old, 3, false) else
    match old with | some v => (some v, 1, false) | none => (some b, 0, true))
  ∧ go .hacc formHacc 2 1 (fun e k b old => if k = bad then (old, 3, false) else
    let op := e.M 13 11
    match old with
    | none => (some (if op = 2 then b % 2 ^ 32 else b), 0, true)
    | some v =>
      let fadd := fun code x y => roundPattern RCtx.atomic code 0 (exactSum 0 [fval code x, fval code y])
      (some (if op = 0 then (v + b) % 2 ^ 64
        else if op = 1 then fadd 1 v b
        else if op = 2 then fadd 0 (v % 2 ^ 32) (b % 2 ^ 32) + v / 2 ^ 32 * 2 ^ 32
        else if op = 3 then (if intOf 64 true b < intOf 64 true v then b else v)
        else if op = 4 then (if intOf 64 true v < intOf 64 true b then b else v)
        else v ||| b), 1, true))
  ∧ go .hprobe formHprobe 0 2 (fun _ k _ old => if k = bad then (old, 0, false) else (old, old.getD 0, old.isSome))
  ∧ go .hdel formHdel 0 0 (fun _ k _ old => if k = bad then (old, 0, false) else (none, 0, old.isSome))

/-- R137, R138, R299: HINIT of a legal spill region claims its 64 KiB units of the hash area if they are free: the table is
empty, and the region's bytes read zero in the header and empty in every entry. Without the units its predicate is false
and nothing else changes. -/
def Sys2Proof.SlateClaimClaim : Prop :=
  ∀ e s a (leaf : Nat → Leaf), Clear formHinit e s a →
    let s1 := book s a e
    let i := issOf formHinit e s a
    let c := partyOf formHinit e s a
    let x := objEntry s c.p (laneIn s1 i (lowLane a.sp.active)).a
    let base := bitsOf x 127 64
    let ns := bitsOf x 191 128
    let home := fun va => (leaf va).frame + pageOff (leaf va) va
    Calm s → mhas s.teams (teamKey a.gid) = true → a.task.card.ver = false → uniGuard s1 i.a e = true →
    (getPart s c.p).otcache = [] → holdsPhys s c.p (objPlace s c.p (laneIn s1 i (lowLane a.sp.active)).a) = true → spillLegal x = true →
    (∀ y ∈ s.groups, ∀ o ∈ y.2.ops, unperformed o = false) →
    ∃ t o, exec (.hinit e) s = .next t ∧ WentOn t a e ∧ Sent s t a e o ∧
      (freeUnits s a.tm.core (teamKey a.gid) < 2 ^ e.M 10 8 →
        o.stage = .done ∧ t.mem = s.mem ∧ t.teams = s.teams ∧ (e.d ≠ 0 → Delivers o.writes [0] (fun _ => qKey e.d.toNat) 1 (fun _ => 0)))
      ∧ (2 ^ e.M 10 8 ≤ freeUnits s a.tm.core (teamKey a.gid) →
        (∀ va, base ≤ va → va < base + 64 + 16 * ns → va < 2 ^ 52 ∧ walk s c.p va = .ok (leaf va)
          ∧ tlbHits s c.p c.core c.team va = [] ∧ leafGate s c.p .write (leaf va) anyPage = none ∧ (leaf va).domain = false
          ∧ (leaf va).sf = 0 ∧ (leaf va).key = 0) →
        (∀ va wa, base ≤ va → va < wa → wa < base + 64 + 16 * ns → home va ≠ home wa) →
        o.stage = .done ∧ (e.d ≠ 0 → Delivers o.writes [0] (fun _ => qKey e.d.toNat) 1 (fun _ => 1))
        ∧ getTeam t (teamKey a.gid) = { a.tm with slate := some ⟨512 * 2 ^ e.M 10 8, [], [], base, ns⟩ }
        ∧ (∀ va, base ≤ va → va < base + 64 + 16 * ns →
            readByte t.mem (home va) = if va < base + 64 then 0 else if (va - base) % 16 < 8 then 0xFF else 0)
        ∧ ∀ y, (∀ va, base ≤ va → va < base + 64 + 16 * ns → home va ≠ y) → readByte t.mem y = readByte s.mem y)

/-- The Slate operations, and the claim of a table by HINIT. -/
def Obligations.SlateOperations : Prop := SlateOperationsClaim ∧ SlateClaimClaim

/-- The sources of a graph instruction, as it captures them. -/
def Sys2Proof.graphCapture (s : State) (i : Iss) (nb nc : Nat) : Capture :=
  let ls := participants s i.a i.e
  ⟨ls, ls.map fun l => (l, srcA s i.a i.f i.e l % 2 ^ 16), ls.map fun l => (l, natWords nb (srcB s i.a i.f i.e l)),
    ls.map fun l => (l, natWords nc (srcC s i.a i.f i.e l)), i.a.sp.fmt, i.a.sp.active, [], [], none⟩

/-- A handle names a legal graph entry `g` that may be read (or changed), in a table that the partition may read (R79, R80,
R387). -/
structure Sys2Proof.EntryAt (s : State) (c : Acc) (kind : AccKind) (h : Nat) (g : GEntry) : Prop where
  entry : gEntry (objEntry s c.p h) = g ∧ graphLegal (objEntry s c.p h) = true
  cache : (getPart s c.p).otcache = []
  place : holdsPhys s c.p (objPlace s c.p h) = true
  clean : s.poison = []
  may   : if kind = .read then g.rd = true else g.mutOk = true

/-- A handle names a legal graph entry `g` whose formatted pool is `q`, unharmed where it was formatted, on pages that may be
read (or changed) (R79 to R81). -/
structure Sys2Proof.GraphAt (s : State) (c : Acc) (kind : AccKind) (h : Nat) (g : GEntry) (q : Pool) : Prop where
  entry : EntryAt s c kind h g
  pool  : s.pools.find? (fun x => x.part == c.p && x.pbase == g.pbase) = some q ∧ poolIs c.p g q = true
  whole : q.edited = [] ∧ q.torn = false ∧ poolHere s c.p q = true
  pages : ∀ j, j < g.plen / 2 ^ 16 → ∃ leaf, g.pbase + j * 2 ^ 16 < 2 ^ 52 ∧ walk s c.p (g.pbase + j * 2 ^ 16) = .ok leaf
    ∧ tlbHits s c.p c.core c.team (g.pbase + j * 2 ^ 16) = [] ∧ leafGate s c.p kind leaf anyPage = none ∧ leaf.domain = false

/-- A cursor that is open names a graph entry `g` that may be read, and a list that it keeps (R263). -/
def Sys2Proof.CursorAt (s : State) (c : Acc) (x : Cursor) (g : GEntry) : Prop :=
  x.isOpen = true → EntryAt s c .read x.handle g ∧ x.vertex < g.vlim ∧ (x.dirIn = true → g.dirs = true)

/-- A graph operation is the youngest of its group: still captured, or with its checks behind it and its lanes to be performed one
by one (R264), or performed. -/
def Sys2Proof.GraphSent (t : State) (a : At) (e : Enc) (i : Instr) (k : Capture) (done : Op → Prop) : Prop :=
  ∃ o, (getGroup t a.gid).ops.getLast? = some o ∧ o.flag = flagOf e ∧ o.split = a.sp.age
    ∧ ((o.stage = .held i k ∧ o.writes = []) ∨ done o
      ∨ (1 < k.lanes.length ∧ o.writes = []
        ∧ ∃ xs, o.stage = .pieces (k.lanes.map fun l => (i, capLane (graphFound k xs) l)) [] none))

/-- No list changed; the pools know where pages lie that have become resident since they were formatted (R81). -/
def Sys2Proof.SamePools (s t : State) (p : Nat) : Prop := t.pools = s.pools ∨ t.pools = (adoptPages s p).pools

/-- R91, R265: GLD, GDEG, GFIND and GPAY read one list of an unharmed pool at one point; they change none. -/
def Obligations.GraphReads : Prop :=
  let go := fun (mk : Enc → Instr) (f : Form) (nc nd : Nat) (pr : Bool)
      (out : GList → (Nat → Nat) → Nat × Bool) => ∀ e s a (g : Nat → GEntry) (q : Nat → Pool), Clear f e s a →
    let k := graphCapture (book s a e) (issOf f e s a) 1 nc
    let c := partyOf f e s a
    let dirIn := e.M 8 8 == 1
    let u := fun l => capWord k.data l 0
    let r := fun l => out (mget (q l).lists (listNo (u l) dirIn) GList.empty) (capWord k.third l)
    (∀ l ∈ k.lanes, GraphAt s c .read (mget k.addr l 0) (g l) (q l) ∧ u l < (g l).vlim ∧ (dirIn = true → (g l).dirs = true)) →
    ∃ t, exec (mk e) s = .next t ∧ WentOn t a e ∧ SamePools s t c.p ∧ t.mem = s.mem ∧ (∀ x y, regOf t x y = regOf s x y)
      ∧ GraphSent t a e (mk e) k fun o => o.stage = .done
        ∧ Delivers o.writes k.lanes (fun l => vKey l e.d.toNat) nd (fun l => (r l).1)
        ∧ (pr = true → e.M 11 9 ≠ 0 → Delivers o.writes k.lanes (fun l => pKey l (e.M 11 9)) 1 (fun l => (r l).2.toNat))
  go .gld formGld 1 1 true (fun x w => match x.ents[w 0]? with | some y => (y.1, true) | none => (0xFFFFFFFF, false))
  ∧ go .gdeg formGdeg 0 1 false (fun x _ => (x.ents.length, false))
  ∧ go .gfind formGfind 2 2 true (fun x w =>
    let key := w 0 * 2 ^ 32 + w 1
    match x.ents.zipIdx.find? fun y => decide (key ≤ y.1.1 * 2 ^ 32 + y.1.2.1) with
    | some y => (y.2 + 2 ^ 32 * y.1.2.1, decide (y.1.1 = w 0))
    | none => (x.ents.length + 2 ^ 32 * 0xFFFFFFFF, false))
  ∧ go .gpay formGpay 1 2 true (fun x w => match x.ents[w 0]? with | some y => (y.2.2, true) | none => (0, false))

/-- No mutation awaits its second list (R87). -/
def Sys2Proof.NoHalves (s : State) : Prop :=
  (∀ x ∈ s.groups, ∀ o ∈ x.2.ops, halvesOf o = []) ∧ ∀ p, ∀ t ∈ (getPart s p).window, halfBuilt t = false

/-- The two lists of an edge after a mutation that did `out` to the one and `inn` to the other: both, or one of them first
and the other when the operation completes (R87). A pool that keeps OUT lists only has the one. -/
def Sys2Proof.EdgeDone (s t : State) (p : Nat) (g : GEntry) (o : Op) (u v : Nat) (out inn : List (Nat × Nat × Nat) → List (Nat × Nat × Nat)) :
    Prop :=
  let old := fun n => (getList s p g n).ents
  let new := fun n => (getList t p g n).ents
  let a := listNo u false
  let b := listNo v true
  (∀ n, n ≠ a → n ≠ b → new n = old n)
  ∧ (if g.dirs then
      (o.stage = .done ∧ new a = out (old a) ∧ new b = inn (old b))
      ∨ (∃ h, o.stage = .half [h] ∧ ((h.list = b ∧ new a = out (old a) ∧ new b = old b)
          ∨ (h.list = a ∧ new a = old a ∧ new b = inn (old b))))
    else o.stage = .done ∧ new a = out (old a) ∧ new b = old b)

/-- R82 to R85, R89, R266: a GADD of one participant adds its edge to both lists under the next serial number, or says
that the pool is full or a list has 2^28 entries. -/
def Sys2Proof.GraphAddsClaim : Prop :=
  ∀ e s a g q l, Clear formGadd e s a →
    let k := graphCapture (book s a e) (issOf formGadd e s a) 1 4
    let c := partyOf formGadd e s a
    let u := capWord k.data l 0
    let v := capWord k.third l 0
    let pay := capWord k.third l 2 + 2 ^ 32 * capWord k.third l 3
    let kept := if g.psz = 0 then 0 else if g.psz = 1 then pay % 2 ^ 32 else pay
    let ser := (getList s c.p g (listNo u false)).ctr
    let full := 2 ^ 28 ≤ (getList s c.p g (listNo u false)).ents.length
      ∨ (g.dirs = true ∧ 2 ^ 28 ≤ (getList s c.p g (listNo v true)).ents.length)
    let poor := freeBlocks s c.p g < (if g.dirs then 2 else 1)
    let gives := fun (o : Op) (d : Nat) (b : Bool) => Delivers o.writes [l] (fun l => vKey l e.d.toNat) 2 (fun _ => d)
      ∧ (e.M 11 9 ≠ 0 → Delivers o.writes [l] (fun l => pKey l (e.M 11 9)) 1 (fun _ => b.toNat))
    k.lanes = [l] → GraphAt s c .atomic (mget k.addr l 0) g q → u < g.vlim → v < g.vlim → NoHalves s → ser ≠ 0xFFFFFFFF →
    ∃ t, exec (.gadd e) s = .next t ∧ WentOn t a e ∧ t.mem = s.mem ∧ (∀ x y, regOf t x y = regOf s x y)
      ∧ GraphSent t a e (.gadd e) k fun o =>
        (full → o.stage = .done ∧ gives o (0xFFFFFFFF + 2 ^ 32 * 2) false ∧ SamePools s t c.p)
        ∧ (¬ full → poor → o.stage = .done ∧ gives o (0xFFFFFFFF + 2 ^ 32 * 1) false ∧ SamePools s t c.p)
        ∧ (¬ full → ¬ poor → gives o ser true ∧ (getList t c.p g (listNo u false)).ctr = ser + 1
          ∧ EdgeDone s t c.p g o u v (fun x => entInsert x (v, ser, kept)) (fun x => entInsert x (u, ser, kept)))

/-- R86, R89, R267: a GDEL of one participant removes the edge that it names by rank or by key from both lists, and
returns its neighbour and serial; without such an edge it returns all ones. -/
def Sys2Proof.GraphRemovesClaim : Prop :=
  ∀ e s a g q l, Clear formGdel e s a →
    let k := graphCapture (book s a e) (issOf formGdel e s a) 1 2
    let c := partyOf formGdel e s a
    let u := capWord k.data l 0
    let w := capWord k.third l
    let es := (getList s c.p g (listNo u false)).ents
    let hit := if e.M 12 12 = 0 then es[w 0]? else es.find? fun y => y.1 * 2 ^ 32 + y.2.1 == w 0 * 2 ^ 32 + w 1
    let gives := fun (o : Op) (d : Nat) (b : Bool) => Delivers o.writes [l] (fun l => vKey l e.d.toNat) 2 (fun _ => d)
      ∧ (e.M 11 9 ≠ 0 → Delivers o.writes [l] (fun l => pKey l (e.M 11 9)) 1 (fun _ => b.toNat))
    k.lanes = [l] → GraphAt s c .atomic (mget k.addr l 0) g q → u < g.vlim → (∀ y, hit = some y → y.1 < g.vlim) → NoHalves s →
    ∃ t, exec (.gdel e) s = .next t ∧ WentOn t a e ∧ t.mem = s.mem ∧ (∀ x y, regOf t x y = regOf s x y)
      ∧ GraphSent t a e (.gdel e) k fun o =>
        (hit = none → o.stage = .done ∧ gives o (2 ^ 64 - 1) false ∧ SamePools s t c.p)
        ∧ ∀ y, hit = some y → gives o (y.1 + 2 ^ 32 * y.2.1) true
          ∧ EdgeDone s t c.p g o u y.1 (fun x => x.filter fun z => gKey z.1 z.2.1 != gKey y.1 y.2.1)
              (fun x => x.filter fun z => gKey z.1 z.2.1 != gKey u y.2.1)

/-- GADD and GDEL. -/
def Obligations.GraphUpdates : Prop := GraphAddsClaim ∧ GraphRemovesClaim

/-- The cursors of a group after an instruction that set those of `ls` named `n` to `val`: the buffer apart. -/
def Sys2Proof.CursorsSet (s t : State) (gid : Nat) (ls : List Nat) (n : Nat) (val : Nat → Cursor) : Prop :=
  ∀ l m, m < 8 → { getCur (getGroup t gid) l m with buf := [] }
    = if l ∈ ls ∧ m = n then { val l with buf := [] } else { getCur (getGroup s gid) l m with buf := [] }

/-- R92, R263, R269, R272: COPEN opens, CCLOSE closes, and CINFO reads the image of, each participant's cursor, with the checks
of its handle where it is open. -/
def Sys2Proof.CursorImagesClaim : Prop :=
  (∀ e s a (g : Nat → GEntry), Clear formCopen e s a → e.d.toNat < 8 →
    let k := graphCapture (book s a e) (issOf formCopen e s a) 1 0
    let u := fun l => capWord k.data l 0
    let dirIn := e.M 8 8 == 1
    (∀ l ∈ k.lanes, EntryAt s (partyOf formCopen e s a) .read (mget k.addr l 0) (g l) ∧ u l < (g l).vlim
      ∧ (dirIn = true → (g l).dirs = true)) →
    ∃ t, exec (.copen e) s = .next t ∧ WentOn t a e ∧ t.mem = s.mem ∧ t.pools = s.pools
      ∧ GraphSent t a e (.copen e) k fun o => o.stage = .done ∧ o.writes = []
        ∧ CursorsSet s t a.gid k.lanes e.d.toNat fun l =>
          ⟨true, false, false, false, false, dirIn, mget k.addr l 0, u l, 0, 0, 0, []⟩)
  ∧ (∀ e s a (g : Nat → GEntry), Clear formCclose e s a → e.d.toNat < 8 →
    let k := graphCapture (book s a e) (issOf formCclose e s a) 0 0
    (∀ l ∈ k.lanes, CursorAt s (partyOf formCclose e s a) (getCur a.g l e.d.toNat) (g l)) →
    ∃ t, exec (.cclose e) s = .next t ∧ WentOn t a e ∧ t.mem = s.mem ∧ t.pools = s.pools
      ∧ GraphSent t a e (.cclose e) k fun o => o.stage = .done ∧ o.writes = []
        ∧ CursorsSet s t a.gid k.lanes e.d.toNat fun _ => ⟨false, false, false, false, false, false, 0, 0, 0, 0, 0, []⟩)
  ∧ (∀ e s a (g : Nat → GEntry), Clear formCinfo e s a →
    let k := graphCapture (book s a e) (issOf formCinfo e s a) 0 0
    let x := fun l => getCur a.g l e.a.toNat
    (∀ l ∈ k.lanes, CursorAt s (partyOf formCinfo e s a) (x l) (g l)) →
    ∃ t, exec (.cinfo e) s = .next t ∧ WentOn t a e ∧ t.mem = s.mem ∧ t.pools = s.pools
      ∧ GraphSent t a e (.cinfo e) k fun o => o.stage = .done
        ∧ (∀ l m, getCur (getGroup t a.gid) l m = getCur a.g l m)
        ∧ Delivers o.writes k.lanes (fun l => vKey l e.d.toNat) 5 (fun l =>
            fieldsOf 1 7 (fun b => [(x l).isOpen, (x l).atEnd, (x l).shf, false, (x l).kv, (x l).rv, (x l).dirIn].getD b false |>.toNat)
            + (x l).handle % 2 ^ 16 * 2 ^ 16 + (x l).vertex % 2 ^ 32 * 2 ^ 32 + (x l).keyn % 2 ^ 32 * 2 ^ 64
            + (x l).keys % 2 ^ 32 * 2 ^ 96 + (x l).rank % 2 ^ 28 * 2 ^ 128))

/-- R93 to R95, R270, R271: with an empty buffer CNEXT delivers the first entry above the cursor's key, with its rank and
whether the rank is other than expected, and moves there; past the last entry the cursor is at its end. CSEEK moves to just
below a key, or to just below the entry of a rank. -/
def Sys2Proof.CursorMovesClaim : Prop :=
  (∀ e s a (g : Nat → GEntry) (q : Nat → Pool), Clear formCnext e s a → e.a.toNat < 8 →
    let k := graphCapture (book s a e) (issOf formCnext e s a) 0 0
    let x := fun l => getCur a.g l e.a.toNat
    let es := fun l => (mget (q l).lists (listNo (x l).vertex (x l).dirIn) GList.empty).ents
    let next := fun l => (es l).zipIdx.find? fun y => !(x l).kv || decide (gKey (x l).keyn (x l).keys < entKey y.1)
    let moved := fun l => match next l with
      | some y => { x l with atEnd := false, kv := true, rv := true, keyn := y.1.1, keys := y.1.2.1, rank := y.2
                             shf := y.2 != if (x l).rv then ((x l).rank + 1) % 2 ^ 28 else 0 }
      | none => { x l with atEnd := true }
    (∀ l ∈ k.lanes, (x l).isOpen = true ∧ (x l).buf = []
      ∧ GraphAt s (partyOf formCnext e s a) .read (x l).handle (g l) (q l) ∧ (x l).vertex < (g l).vlim
      ∧ ((x l).dirIn = true → (g l).dirs = true)) →
    ∃ t, exec (.cnext e) s = .next t ∧ WentOn t a e ∧ t.mem = s.mem ∧ SamePools s t a.tm.part
      ∧ GraphSent t a e (.cnext e) k fun o => o.stage = .done ∧ CursorsSet s t a.gid k.lanes e.a.toNat moved
        ∧ Delivers o.writes k.lanes (fun l => vKey l e.d.toNat) 2 (fun l => match next l with
            | some y => y.1.1 + 2 ^ 32 * y.2 | none => 2 ^ 64 - 1)
        ∧ (e.b ≠ 0 → e.b.toNat ≠ e.M 11 9 →
            Delivers o.writes k.lanes (fun l => pKey l e.b.toNat) 1 (fun l => (next l).isSome.toNat))
        ∧ (e.M 11 9 ≠ 0 → Delivers o.writes k.lanes (fun l => pKey l (e.M 11 9)) 1
            (fun l => ((next l).isSome && (moved l).shf).toNat)))
  ∧ (∀ e s a (g : Nat → GEntry) (q : Nat → Pool), Clear formCseek e s a → e.d.toNat < 8 →
    let k := graphCapture (book s a e) (issOf formCseek e s a) 2 0
    let x := fun l => getCur a.g l e.d.toNat
    let es := fun l => (mget (q l).lists (listNo (x l).vertex (x l).dirIn) GList.empty).ents
    let w := fun l => capWord k.data l
    let key := fun l =>
      if e.M 8 8 = 1 then (let j := w l 0 * 2 ^ 32 + w l 1; if j = 0 then none else some (j - 1))
      else match (es l)[w l 0]? with
        | some y => if entKey y = 0 then none else some (entKey y - 1)
        | none => (es l).getLast?.map entKey
    let n := fun l => match key l with | some j => ((es l).filter fun y => decide (entKey y ≤ j)).length | none => 0
    (∀ l ∈ k.lanes, (x l).isOpen = true ∧ GraphAt s (partyOf formCseek e s a) .read (x l).handle (g l) (q l)
      ∧ (x l).vertex < (g l).vlim ∧ ((x l).dirIn = true → (g l).dirs = true)) →
    ∃ t, exec (.cseek e) s = .next t ∧ WentOn t a e ∧ t.mem = s.mem ∧ SamePools s t a.tm.part
      ∧ GraphSent t a e (.cseek e) k fun o => o.stage = .done ∧ o.writes = []
        ∧ CursorsSet s t a.gid k.lanes e.d.toNat fun l =>
          { x l with kv := (key l).isSome, keyn := (key l).getD 0 / 2 ^ 32, keys := (key l).getD 0 % 2 ^ 32
                     rank := if n l = 0 then (x l).rank else n l - 1, rv := decide (n l ≠ 0), atEnd := false, shf := false })

/-- R97, R273: GISECT advances two cursors to their next common neighbour: its result is the least neighbour that both
lists hold above the cursors' keys, within 256 steps, or none. -/
def Sys2Proof.CursorMergeClaim : Prop :=
  ∀ e s a (g : Nat → GEntry) (q : Nat → Pool) (h : Nat → GEntry) (r : Nat → Pool), Clear formGisect e s a → e.a.toNat < 8 → e.b.toNat < 8 →
    let k := graphCapture (book s a e) (issOf formGisect e s a) 0 0
    let side := fun (n : Nat) (q : Nat → Pool) (l : Nat) =>
      let x := getCur a.g l n
      let es := (mget (q l).lists (listNo x.vertex x.dirIn) GList.empty).ents
      es.filter fun y => !x.kv || decide (gKey x.keyn x.keys < entKey y)
    let xs := fun l => side e.a.toNat q l
    let ys := fun l => side e.b.toNat r l
    let ready := fun (n : Nat) (g : Nat → GEntry) (q : Nat → Pool) (l : Nat) =>
      let x := getCur a.g l n
      x.isOpen = true ∧ x.buf = [] ∧ GraphAt s (partyOf formGisect e s a) .read x.handle (g l) (q l) ∧ x.vertex < (g l).vlim
      ∧ (x.dirIn = true → (g l).dirs = true)
    let sorted := fun es : List (Nat × Nat × Nat) => (es.map entKey).Pairwise (· < ·) ∧ ∀ y ∈ es, y.2.1 < 2 ^ 32
    (∀ l ∈ k.lanes, ready e.a.toNat g q l ∧ ready e.b.toNat h r l ∧ sorted (xs l) ∧ sorted (ys l)
      ∧ (xs l).length + (ys l).length ≤ 256) →
    ∃ t, exec (.gisect e) s = .next t ∧ WentOn t a e ∧ t.mem = s.mem ∧ SamePools s t a.tm.part
      ∧ GraphSent t a e (.gisect e) k fun o => o.stage = .done ∧ ∃ m : Nat → Option Nat,
        Delivers o.writes k.lanes (fun l => vKey l e.d.toNat) 1 (fun l => (m l).getD 0xFFFFFFFF)
        ∧ (e.M 11 9 ≠ 0 → Delivers o.writes k.lanes (fun l => pKey l (e.M 11 9)) 1 (fun l => (m l).isSome.toNat))
        ∧ ∀ l ∈ k.lanes, match m l with
          | none => ∀ n, ¬ (n ∈ (xs l).map (·.1) ∧ n ∈ (ys l).map (·.1))
          | some n => n ∈ (xs l).map (·.1) ∧ n ∈ (ys l).map (·.1)
              ∧ ∀ n' < n, ¬ (n' ∈ (xs l).map (·.1) ∧ n' ∈ (ys l).map (·.1))

/-- Cursors: what they hold, how they move, and their common neighbours. -/
def Obligations.Cursors : Prop := CursorImagesClaim ∧ CursorMovesClaim ∧ CursorMergeClaim

/-- Where the issuing split goes on. -/
def Sys2Proof.GoesOn (t : State) (a : At) (pc : Word) : Prop := (getGroup t a.gid).splits[a.k]?.map (·.pc) = some pc

/-- The offset after an instruction. -/
def Sys2Proof.nextPc (a : At) (e : Enc) : Word := a.sp.pc + BitVec.ofNat 32 e.length

/-- The target of form G-J (R172): the instruction's own offset plus four times its signed word count. -/
def Sys2Proof.goesTo (a : At) (e : Enc) : Word := a.sp.pc + BitVec.ofInt 32 (4 * e.offset)

/-- No register, generator or memory byte changed, and the split goes on at `pc`. -/
def Sys2Proof.Jumped (s t : State) (a : At) (e : Enc) (pc : Word) : Prop :=
  Frame s t a e ∧ GoesOn t a pc ∧ Drew s t a.gid [] (fun _ => 0) ∧ ∀ k, regOf t a.gid k = regOf s a.gid k

/-- The active lanes for which a lane guard holds, as a mask. -/
def Sys2Proof.lanesWhere (a : At) (p : Nat → Bool) : Word := BitVec.ofNat 32 (bitsWord fun l => a.sp.active.getLsbD l && p l)

/-- R279 to R284, R172, R285: where each branch goes, whole; what a call and a loop write; and NOP. An instruction whose
uniform guard is false goes on behind itself. -/
def Obligations.Branches : Prop :=
  let low := fun (f : Form) (e : Enc) (s : State) (a : At) => laneIn (book s a e) (issOf f e s a) (lowLane a.sp.active)
  let go := fun (f : Form) (e : Enc) (s : State) (a : At) => uniGuard (book s a e) (issOf f e s a).a e
  let jg := fun (f : Form) (e : Enc) (s : State) (a : At) =>
    lanesWhere a fun l => guardHolds e.jg (readP (book s a e) (issOf f e s a).a l)
  (∀ e s a, Clear formBra e s a → (e.jg = 0 ∨ jg formBra e s a = 0 ∨ jg formBra e s a = a.sp.active) →
    ∃ t, exec (.bra e) s = .next t
      ∧ Jumped s t a e (if go formBra e s a ∧ (e.jg = 0 ∨ jg formBra e s a ≠ 0) then goesTo a e else nextPc a e))
  ∧ (∀ e s a, Clear formBrl e s a → ∃ t, exec (.brl e) s = .next t
      ∧ Jumped s t a e (if go formBrl e s a ∧ (if e.M 8 8 = 1 then jg formBrl e s a = a.sp.active else jg formBrl e s a ≠ 0)
        then goesTo a e else nextPc a e))
  ∧ (∀ e s a, Clear formBrx e s a → e.M 8 8 = 0 → (low formBrx e s a).a % 4 = 0 → ∃ t, exec (.brx e) s = .next t
      ∧ Jumped s t a e (if go formBrx e s a then BitVec.ofNat 32 (low formBrx e s a).a else nextPc a e))
  ∧ (∀ e s a, Clear formRjn e s a → ∃ t, exec (.rjn e) s = .next t ∧ Jumped s t a e (nextPc a e)
      ∧ (getGroup t a.gid).splits[a.k]?.map (·.pend) = some (if go formRjn e s a then some (goesTo a e) else a.sp.pend))
  ∧ (∀ e s a, Clear formCall e s a → ∃ t, exec (.call e) s = .next t ∧ Frame s t a e
      ∧ GoesOn t a (if go formCall e s a then goesTo a e else nextPc a e)
      ∧ Written s t a.gid (if go formCall e s a ∧ e.ctl.nwb = false then [0] else []) (fun _ => sKey 127) 1
          (fun _ => (nextPc a e).toNat))
  ∧ (∀ e s a, Clear formRet e s a → (low formRet e s a).a % 4 = 0 → ∃ t, exec (.ret e) s = .next t
      ∧ Jumped s t a e (if go formRet e s a then BitVec.ofNat 32 (low formRet e s a).a else nextPc a e))
  ∧ (∀ e s a, Clear formLoopn e s a →
    let n := uniWord (book s a e) (issOf formLoopn e s a).a e.m.c.toNat - 1
    ∃ t, exec (.loopn e) s = .next t ∧ Frame s t a e
      ∧ GoesOn t a (if go formLoopn e s a ∧ n ≠ 0 then goesTo a e else nextPc a e)
      ∧ Written s t a.gid (if go formLoopn e s a ∧ e.ctl.nwb = false then [0] else []) (fun _ => sKey e.m.c.toNat) 1
          (fun _ => n.toNat))
  ∧ (∀ e s a, Clear formNop e s a → ∃ t, exec (.nop e) s = .next t ∧ Jumped s t a e (nextPc a e))

/-- The split as it was but for its windows (R18, R21). -/
def Sys2Proof.butWindows (x : Split) : Split := { x with stale := [] }

/-- A branch stops with a trap, without any effect; inside a hold chain that goes on, the trap waits for its end (R182). -/
def Sys2Proof.Stops (i : Instr) (s : State) (a : At) (e : Enc) (tr : TrapRec) : Prop :=
  if e.ctl.hold = false then exec i s = .next (takeTrap s a.gid a.k tr a.sp.pc)
  else ∃ t, exec i s = .next t ∧ Frame s t a e ∧ GoesOn t a (nextPc a e) ∧ (∀ k, regOf t a.gid k = regOf s a.gid k)
    ∧ (getGroup t a.gid).splits[a.k]?.map (·.traps) = some (a.sp.traps ++ [⟨none, tr, a.sp.issued + 1, true⟩])

/-- R279, R282, R14, R182, R365: a branch to an offset that is no multiple of 4 traps with MEM, FETCH; one that would need more
stack entries than are free with SYNC, STACK; neither has any effect. -/
def Sys2Proof.BranchTrapsClaim : Prop :=
  let low := fun (f : Form) (e : Enc) (s : State) (a : At) => laneIn (book s a e) (issOf f e s a) (lowLane a.sp.active)
  let fetch := fun (a : At) (lane : Nat) (x : Word) (uni : Bool) =>
    (⟨2, 7, x, BitVec.ofNat 32 (lane * 2 ^ 20), locWord a.sp.pc uni⟩ : TrapRec)
  (∀ e s a, Clear formRet e s a → uniGuard (book s a e) (issOf formRet e s a).a e = true → (low formRet e s a).a % 4 ≠ 0 →
    Stops (.ret e) s a e (fetch a 0 (BitVec.ofNat 32 (low formRet e s a).a) true))
  ∧ (∀ e s a, Clear formBrx e s a → uniGuard (book s a e) (issOf formBrx e s a).a e = true → e.M 8 8 = 0 →
    (low formBrx e s a).a % 4 ≠ 0 →
    Stops (.brx e) s a e (fetch a 0 (BitVec.ofNat 32 (low formBrx e s a).a) true))
  ∧ (∀ e s a l, Clear formBrx e s a → uniGuard (book s a e) (issOf formBrx e s a).a e = true → e.M 8 8 = 1 →
    let x := fun l => BitVec.ofNat 32 (laneIn (book s a e) (issOf formBrx e s a) l).a
    l < 32 → a.sp.active.getLsbD l = true → (x l).toNat % 4 ≠ 0 →
    (∀ j < l, a.sp.active.getLsbD j = true → (x j).toNat % 4 = 0) →
    Stops (.brx e) s a e (fetch a l (x l) true))
  ∧ (∀ e s a, Clear formBra e s a → uniGuard (book s a e) (issOf formBra e s a).a e = true → e.jg ≠ 0 →
    let m := lanesWhere a fun l => guardHolds e.jg (readP (book s a e) (issOf formBra e s a).a l)
    m ≠ 0 → m ≠ a.sp.active → (∀ n < 32, (mfind a.g.entries n).isSome) →
    Stops (.bra e) s a e ⟨5, 1, a.sp.active, BitVec.ofNat 32 a.g.entries.length, locWord a.sp.pc true⟩)

/-- R14, R280: a BRA whose active lanes disagree opens a stack entry and divides the split: the lanes that branch become a
split of their own, or, with four splits there, wait in the entry. -/
def Sys2Proof.DivergenceClaim : Prop :=
  ∀ e s a, Clear formBra e s a → uniGuard (book s a e) (issOf formBra e s a).a e = true → e.jg ≠ 0 →
    let m := lanesWhere a fun l => guardHolds e.jg (readP (book s a e) (issOf formBra e s a).a l)
    let spare := a.g.splits.length < 4
    m ≠ 0 → m ≠ a.sp.active → (∃ n < 32, mfind a.g.entries n = none) →
    ∃ t slot, exec (.bra e) s = .next t ∧ t.mem = s.mem ∧ (∀ x k, regOf t x k = regOf s x k)
      ∧ mfind a.g.entries slot = none ∧ slot < 32
      ∧ (∀ n, n ≠ slot → mfind (getGroup t a.gid).entries n = mfind a.g.entries n)
      ∧ mfind (getGroup t a.gid).entries slot = some ⟨a.sp.active,
          (match a.sp.pend with | some r => some r | none => (innermost a.g a.sp.active).bind fun x => x.2.rejoin),
          a.sp.fmt, goesTo a e, if spare then 0 else m, none⟩
      ∧ (∃ x, (getGroup t a.gid).splits[a.k]? = some x ∧ x.active = a.sp.active &&& ~~~m ∧ x.pc = nextPc a e
          ∧ x.pend = none ∧ x.fmt = a.sp.fmt)
      ∧ (∀ j, j ≠ a.k → j < a.g.splits.length → (getGroup t a.gid).splits[j]?.map butWindows = a.g.splits[j]?.map butWindows)
      ∧ (getGroup t a.gid).splits.length = a.g.splits.length + (if spare then 1 else 0)
      ∧ (spare → ∃ y, (getGroup t a.gid).splits[a.g.splits.length]? = some y ∧ y.active = m ∧ y.pc = goesTo a e
          ∧ y.pend = none ∧ y.fmt = a.sp.fmt)

/-- R282: BRX.lane sends every active lane to its own target: in a split there, or waiting in a stack entry to resume
there; each target after the first takes one entry. -/
def Sys2Proof.LaneBranchesClaim : Prop :=
  ∀ e s a, Clear formBrx e s a → uniGuard (book s a e) (issOf formBrx e s a).a e = true → e.M 8 8 = 1 →
    let x := fun l => BitVec.ofNat 32 (laneIn (book s a e) (issOf formBrx e s a) l).a
    let ls := (List.range 32).filter fun l => a.sp.active.getLsbD l
    let n := ((ls.map fun l => (x l).toNat).eraseDups).length
    ls ≠ [] → (∀ l ∈ ls, (x l).toNat % 4 = 0) → n - 1 + a.g.entries.length ≤ 32 →
    ∃ t, exec (.brx e) s = .next t ∧ t.mem = s.mem ∧ (∀ y k, regOf t y k = regOf s y k)
      ∧ (getGroup t a.gid).entries.length = a.g.entries.length + (n - 1)
      ∧ ∀ l ∈ ls, (∃ y ∈ (getGroup t a.gid).splits, y.active.getLsbD l = true ∧ y.pc = x l)
          ∨ (∃ y ∈ (getGroup t a.gid).entries, y.2.deferred.getLsbD l = true ∧ y.2.resume = x l)

/-- Branches that trap, diverge, or depend on lanes. -/
def Obligations.Divergence : Prop := BranchTrapsClaim ∧ DivergenceClaim ∧ LaneBranchesClaim

/-- R285, R29: EXIT ends the lanes that its lane predicate names, where nothing is diverged: the split goes on with the
others, or is gone. -/
def Sys2Proof.ExitsClaim : Prop :=
  ∀ e s a, Clear formExit e s a →
    let go := uniGuard (book s a e) (issOf formExit e s a).a e
    let m := if go then lanesWhere a fun l => guardHolds (e.M 11 8) (readP (book s a e) (issOf formExit e s a).a l) else 0
    let left := a.sp.active &&& ~~~m
    a.g.entries = [] → a.g.handler = none → (∀ x ∈ a.g.splits, x.traps = []) →
    ∃ t, exec (.exit e) s = .next t ∧ t.mem = s.mem ∧ (∀ y k, regOf t y k = regOf s y k)
      ∧ (m ≠ 0 → (getGroup t a.gid).exited = a.g.exited ||| m)
      ∧ (m = 0 → Jumped s t a e (nextPc a e))
      ∧ (left ≠ 0 → GoesOn t a (nextPc a e) ∧ (getGroup t a.gid).splits[a.k]?.map (·.active) = some left
          ∧ (getGroup t a.gid).splits.length = a.g.splits.length)
      ∧ (m ≠ 0 → left = 0 → (getGroup t a.gid).splits.map butWindows = (a.g.splits.eraseIdx a.k).map butWindows)

/-- R15, R16, R25: at the rejoin point of its innermost entry a split takes the lanes that wait there; without such it parks,
and when the other split of the entry is parked there too, both are one split again, at the rejoin point, with every
lane that has not ended and the fmt of the divergence. -/
def Sys2Proof.ReconvergenceClaim : Prop :=
  ∀ s gid g x y (en : Entry) slot,
    mfind s.groups gid = some g → g.splits = [y, x] → innermost g x.active = some (slot, en) →
    en.rejoin = some x.pc → mfind g.entries slot = some en → x.active &&& ~~~en.mask = 0 →
    (en.deferred ≠ 0 → ∃ t, reachRejoin s gid 1 = t ∧ t.mem = s.mem
      ∧ (getGroup t gid).splits = [y, { x with active := en.deferred, pc := en.resume, chain := 0 }]
      ∧ mfind (getGroup t gid).entries slot = some { en with deferred := 0, age := some x.age })
    ∧ (en.deferred = 0 → g.entries = [(slot, en)] → y.active &&& ~~~en.mask = 0 → y.active ≠ 0 → x.active ≠ 0 →
      let t := reachRejoin s gid 1
      (y.park ≠ .rejoin → (getGroup t gid).splits = [y, { x with park := .rejoin, chain := 0 }]
        ∧ (getGroup t gid).entries = g.entries)
      ∧ (y.park = .rejoin → en.mask &&& ~~~g.exited ≠ 0 → (getGroup t gid).entries = [] ∧ ∃ z,
          (getGroup t gid).splits = [z] ∧ z.active = en.mask &&& ~~~g.exited ∧ z.pc = x.pc ∧ z.fmt = en.fmt
          ∧ z.park = .none ∧ z.age = min (en.age.getD y.age) (min y.age x.age)))

/-- EXIT and EXITP, rejoin points and stack entries. -/
def Obligations.ExitsAndReconvergence : Prop := ExitsClaim ∧ ReconvergenceClaim

/-- The uniform sources of an instruction as it issues. -/
def Sys2Proof.uniSrc (f : Form) (e : Enc) (s : State) (a : At) : LaneIn := laneIn (book s a e) (issOf f e s a) (lowLane a.sp.active)

/-- The uniform guard of an instruction holds. -/
abbrev Sys2Proof.goes (f : Form) (e : Enc) (s : State) (a : At) : Prop := uniGuard (book s a e) (issOf f e s a).a e = true

/-- A barrier word after `n` lanes have arrived (R62): the tally counts up to EXP, which ends the phase. -/
def Sys2Proof.arrived (w n : Nat) : Nat :=
  let exp := w % 2 ^ 15
  let tally := w / 2 ^ 15 % 2 ^ 16 + n
  if tally < exp then w / 2 ^ 31 % 2 * 2 ^ 31 + tally * 2 ^ 15 + exp else (1 - w / 2 ^ 31 % 2) * 2 ^ 31 + exp

/-- One word of scratchpad as an arrival leaves it. -/
def Sys2Proof.wordSet (tm : Team) (ad v x : Nat) (b : Byte) : Prop :=
  b = if ad ≤ x ∧ x < ad + 4 then (leBytes 4 v).getD (x - ad) 0 else scrByte tm x

/-- R62, R286: BAR and BARA add the split's active lanes to the tally of their word; the last one ends the phase, and every
split that waits there and may go on does (R287, R368, R373). BAR then waits for the end of its phase; BARA returns the phase it arrived in. -/
def Sys2Proof.BarriersClaim : Prop :=
  let wakes := fun (s t : State) (a : At) (ad : Nat) (ph : Bool) => ∀ gid g k x, teamKey gid = teamKey a.gid →
    mfind s.groups gid = some g → wakesNow s gid x = true → g.splits[k]? = some x → x.park = .bar ad ph →
    (gid ≠ a.gid ∨ k ≠ a.k) → (getGroup t gid).splits[k]?.map (·.park) = some .none
  let ready := fun (f : Form) (e : Enc) (s : State) (a : At) => goes f e s a ∧ a.sp.park = .none
    ∧ (uniSrc f e s a).a % 4 = 0 ∧ (uniSrc f e s a).a + 4 ≤ a.tm.scrsize ∧ scrWord a.tm (uniSrc f e s a).a % 2 ^ 15 ≠ 0
  (∀ e s a, Clear formBar e s a → ready formBar e s a →
    let ad := (uniSrc formBar e s a).a
    let w := scrWord a.tm ad
    let y := arrived w (laneCount a.sp.active)
    let ends := y.testBit 31 ≠ w.testBit 31
    ∃ t o, exec (.bar e) s = .next t ∧ WentOn t a e ∧ Sent s t a e o ∧ o.stage = .done ∧ o.writes = []
      ∧ ScrStored s t a e (wordSet a.tm ad y)
      ∧ (getGroup t a.gid).splits[a.k]?.map (·.park) = some (if ends then .none else .bar ad (w.testBit 31))
      ∧ (ends → wakes s t a ad (w.testBit 31)))
  ∧ (∀ e s a, Clear formBara e s a → ready formBara e s a →
    let ad := (uniSrc formBara e s a).a
    let w := scrWord a.tm ad
    let y := arrived w (laneCount a.sp.active)
    ∃ t o, exec (.bara e) s = .next t ∧ WentOn t a e ∧ Sent s t a e o ∧ o.stage = .done
      ∧ ScrStored s t a e (wordSet a.tm ad y)
      ∧ Delivers o.writes [0] (fun _ => sKey e.d.toNat) 1 (fun _ => (w.testBit 31).toNat)
      ∧ (y.testBit 31 ≠ w.testBit 31 → wakes s t a ad (w.testBit 31)))

/-- R286, R288: BARW goes on once its word's phase differs from B, and RCW once its word has reached B; else the split
parks before the instruction, and nothing else changes. A word outside scratchpad or misaligned faults (R57, R59). -/
def Sys2Proof.WordWaitsClaim : Prop :=
  let go := fun (mk : Enc → Instr) (f : Form) (ok : Nat → Nat → Bool) => ∀ e s a, Clear f e s a → goes f e s a →
    a.sp.park = .none →
    let ad := (uniSrc f e s a).a
    let fits := ad % 4 = 0 ∧ ad + 4 ≤ a.tm.scrsize
    (fits → ok (scrWord a.tm ad) (uniSrc f e s a).b = true → ∃ t o, exec (mk e) s = .next t ∧ LoadFrame s t a e
        ∧ WentOn t a e ∧ Sent s t a e o ∧ o.stage = .done ∧ o.writes = [])
    ∧ (fits → ok (scrWord a.tm ad) (uniSrc f e s a).b = false →
        exec (mk e) s = .next (modSplit s a.gid a.k fun x => { x with park := .before [] false }))
    ∧ (¬ fits → ∃ t o c, exec (mk e) s = .next t ∧ LoadFrame s t a e ∧ WentOn t a e ∧ Sent s t a e o ∧ o.stage = .faulted c
        ∧ c.group = 2 ∧ c.code = if ad % 4 = 0 then 4 else 3)
  go .barw formBarw (fun w b => w.testBit 31 != b.testBit 0) ∧ go .rcw formRcw (fun w b => decide (b ≤ w))

/-- R289, R10: GBAR sends its lanes to the grid barrier of its team's set, as a release, and the split waits for the end of
the phase it saw; a level above the grid's faults with SYNC, GLEVEL. -/
def Sys2Proof.GridBarriersClaim : Prop :=
  ∀ e s a, Clear formGbar e s a → goes formGbar e s a →
    let k := e.M 10 8
    let p := a.tm.part
    let set := setOf a.task.header a.tm.linear k
    let ph := ((getPart s p).gbars.find? fun r => r.tid == a.tm.tid && r.level == k && r.set == set).any (·.phase)
    ∃ t o, exec (.gbar e) s = .next t ∧ WentOn t a e ∧ Sent s t a e o ∧ o.writes = [] ∧ t.mem = s.mem ∧ t.teams = s.teams
      ∧ (a.task.header.col < k → o.stage = .faulted ⟨5, 4, BitVec.ofNat 32 k, BitVec.ofNat 32 a.task.header.col, locWord a.sp.pc true⟩
          ∧ t.parts = s.parts)
      ∧ (k ≤ a.task.header.col → o.stage = .done
          ∧ getPart t p = { getPart s p with
              msgs := (getPart s p).msgs ++ [⟨a.tm.tid, a.tm.linear, k, laneCount a.sp.active⟩] }
          ∧ (getGroup t a.gid).splits[a.k]?.map (·.park) = some (.gbar k ph)
          ∧ (getGroup t a.gid).dirty = [])

/-- R64, R95, R105, R106, R291: FENCE. An acquire drops the group's cursor buffers, and from .die up its core's SI copies; a
release makes the group's earlier writes visible, and later plain writes of the split's lanes carry the widest scope fenced.
Where the grid checks scopes, an acquire may raise SYNC, SCOPE for a line that one of those lanes has read (R68). -/
def Sys2Proof.FencesClaim : Prop :=
  ∀ e s a, Clear formFence e s a →
    let ord := e.M 9 8
    let scope := e.M 12 10
    ∃ t o, exec (.fence e) s = .next t ∧ WentOn t a e ∧ Sent s t a e o ∧ o.writes = []
      ∧ t.mem = s.mem ∧ t.teams = s.teams ∧ t.parts = s.parts ∧ (∀ x k, regOf t x k = regOf s x k)
      ∧ (o.stage = .done ∨ (goes formFence e s a ∧ ord % 2 = 1 ∧ a.task.header.schk = true ∧ ∃ c, o.stage = .faulted c
          ∧ c.group = 5 ∧ c.code = 2 ∧ ∃ x ∈ a.g.reads, a.sp.active.getLsbD x.1 = true ∧ c.d0 = BitVec.ofNat 32 x.2.1))
      ∧ (goes formFence e s a → ord % 2 = 1 → (∀ x ∈ (getGroup t a.gid).reads, a.sp.active.getLsbD x.1 = false))
      ∧ (goes formFence e s a → ord % 2 = 1 → (∀ l m, (getCur (getGroup t a.gid) l m).buf = [])
          ∧ (2 ≤ scope → ∀ key, key / 2 ^ 100 = a.tm.core → mfind t.si key = none))
      ∧ (goes formFence e s a → 2 ≤ ord → (∀ l, mfind (getGroup t a.gid).fence l =
            if a.sp.active.getLsbD l = true then some (max scope (mget a.g.fence l 0)) else mfind a.g.fence l)
          ∧ (getGroup t a.gid).dirty = [] ∧ ∀ x ∈ a.g.dirty, (mfind t.scopes x).map (·.scope) = some scope)
      ∧ (¬ goes formFence e s a → o.stage = .done ∧ Frame s t a e)

/-- Barrier words, waits on scratchpad words, GBAR and FENCE. -/
def Obligations.BarriersAndFences : Prop := BarriersClaim ∧ WordWaitsClaim ∧ GridBarriersClaim ∧ FencesClaim

/-- R120, R121, R295: a bound chain's counters. CQSEQ reads TAIL or DONE; CQWAIT goes on once DONE has reached B; CQADV
advances TAIL where there is room, no BIN is pending and the commands' slots can be read; each faults with ENG, NOCHAIN on a slot
that is not bound. That a CQADV whose commands lie on a page that is not resident stays held is the model's reading (log 20). -/
def Sys2Proof.ChainCountersClaim : Prop :=
  let slot := fun e : Enc => e.M 8 8
  let chain := fun (s : State) (a : At) => (getTeam s (teamKey a.gid)).chains
  let bound := fun (a : At) (e : Enc) (c : Chain) => mfind a.tm.chains (slot e) = some c ∧ c.bound.isSome
  let free := fun (a : At) (e : Enc) => ∀ c, mfind a.tm.chains (slot e) = some c → c.bound = none
  let noChain := fun (e : Enc) (a : At) => (⟨6, 5, BitVec.ofNat 32 (slot e), 0, locWord a.sp.pc true⟩ : TrapRec)
  (∀ e s a, Clear formCqseq e s a → goes formCqseq e s a →
    ∃ t o, exec (.cqseq e) s = .next t ∧ Frame s t a e ∧ WentOn t a e ∧ Sent s t a e o
      ∧ (∀ c, bound a e c → o.stage = .done
          ∧ Delivers o.writes [0] (fun _ => sKey e.d.toNat) 2 (fun _ => if e.M 9 9 = 1 then c.done else c.tail))
      ∧ (free a e → o.stage = .faulted (noChain e a)))
  ∧ (∀ e s a, Clear formCqwait e s a → goes formCqwait e s a → a.sp.park = .none →
    (∀ c, bound a e c → (uniSrc formCqwait e s a).b ≤ c.done → ∃ t o, exec (.cqwait e) s = .next t ∧ LoadFrame s t a e
        ∧ WentOn t a e ∧ Sent s t a e o ∧ o.stage = .done ∧ o.writes = [])
    ∧ (∀ c, bound a e c → c.done < (uniSrc formCqwait e s a).b →
        exec (.cqwait e) s = .next (modSplit s a.gid a.k fun x => { x with park := .before [] false }))
    ∧ (free a e → ∃ t o, exec (.cqwait e) s = .next t ∧ LoadFrame s t a e ∧ WentOn t a e ∧ Sent s t a e o
        ∧ o.stage = .faulted (noChain e a)))
  ∧ (∀ e s a c b, Clear formCqadv e s a → goes formCqadv e s a → bound a e c → c.bound = some b →
    (a.g.ops.any fun o => match o.stage with | .cqinit _ _ => true | .cqadv _ _ => true | _ => false) = false →
    let n := (uniSrc formCqadv e s a).b
    let u := umberAcc s (teamKey a.gid) (slot e) 0
    ∃ t o, exec (.cqadv e) s = .next t ∧ WentOn t a e ∧ t.mem = s.mem ∧ (∀ x k, regOf t x k = regOf s x k)
      ∧ (getGroup t a.gid).ops.getLast? = some o ∧ o.flag = flagOf e ∧ o.writes = []
      ∧ (2 ^ b.2.1 < n → o.stage = .faulted ⟨6, 6, BitVec.ofNat 32 (slot e), BitVec.ofNat 32 n, locWord a.sp.pc true⟩
          ∧ chain t a = chain s a)
      ∧ (n ≤ 2 ^ b.2.1 → (binPending s u c = true ∨ 2 ^ b.2.1 < c.tail + n - c.done
            ∨ ∃ q, c.tail < q ∧ q ≤ c.tail + n ∧ slotCtl s u b q = none) →
          o.stage = .cqadv (slot e) n ∧ chain t a = chain s a)
      ∧ (n ≤ 2 ^ b.2.1 → binPending s u c = false → c.tail + n - c.done ≤ 2 ^ b.2.1 →
          (∀ q, c.tail < q → q ≤ c.tail + n → (slotCtl s u b q).isSome = true) →
          o.stage = .done ∧ ∃ d, mfind (chain t a) (slot e) = some d
            ∧ d.tail = c.tail + n ∧ d.done = c.done ∧ d.started = c.started ∧ d.bound = c.bound))
  ∧ (∀ e s a, Clear formCqadv e s a → goes formCqadv e s a → free a e →
    (a.g.ops.any fun o => match o.stage with | .cqinit _ _ => true | .cqadv _ _ => true | _ => false) = false →
    ∃ t o, exec (.cqadv e) s = .next t ∧ WentOn t a e ∧ t.mem = s.mem ∧ (∀ x k, regOf t x k = regOf s x k)
      ∧ (getGroup t a.gid).ops.getLast? = some o ∧ o.flag = flagOf e ∧ o.writes = [] ∧ o.stage = .faulted (noChain e a)
      ∧ chain t a = chain s a)

/-- R119, R120, R292: CQINIT of a legal chain entry binds its slot, with its counters and its completion word 0, where the
slot's earlier commands have completed and the word's page may be written. -/
def Sys2Proof.ChainBindingClaim : Prop :=
  ∀ e s a leaf, Clear formCqinit e s a → goes formCqinit e s a →
    let p := a.tm.part
    let x := objEntry s p (uniSrc formCqinit e s a).a
    let cwa := bitsOf x 191 128
    let c := chainOf s (teamKey a.gid) (e.M 8 8)
    Calm s → mhas s.teams (teamKey a.gid) = true → a.task.card.ver = false → (getPart s p).otcache = [] →
    holdsPhys s p (objPlace s p (uniSrc formCqinit e s a).a) = true → chainLegal x = true → c.done = c.tail →
    (a.g.ops.any fun o => match o.stage with | .cqinit _ _ => true | .cqadv _ _ => true | _ => false) = false →
    cwa + 8 ≤ 2 ^ 52 → walk s p cwa = .ok leaf → tlbHits s p a.tm.core (teamKey a.gid) cwa = [] →
    leafGate s p .write leaf anyPage = none → leaf.domain = false → leaf.sf = 0 → leaf.key = 0 →
    let home := leaf.frame + pageOff leaf cwa
    ∃ t o, exec (.cqinit e) s = .next t ∧ WentOn t a e ∧ (∀ y k, regOf t y k = regOf s y k)
      ∧ (getGroup t a.gid).ops.getLast? = some o ∧ o.flag = flagOf e ∧ o.stage = .done ∧ o.writes = []
      ∧ mfind (getTeam t (teamKey a.gid)).chains (e.M 8 8)
        = some ⟨some (bitsOf x 127 64, bitsOf x 15 12, cwa), 0, 0, 0, 0, [], [], [], []⟩
      ∧ ∀ y, readByte t.mem y = if home ≤ y ∧ y < home + 8 then 0 else readByte s.mem y

/-- The counters of a chain, and its binding. -/
def Obligations.Chains : Prop := ChainCountersClaim ∧ ChainBindingClaim

/-- R165, R166, R296, R297: TASK goes outstanding with the address of its card, as a release; a misaligned address faults.
TJOIN of a child whose record has been written delivers its status and joins it; of a number that is no unjoined child of
the task, UNKNOWN (6); of a child whose record is awaited, the split parks. -/
def Sys2Proof.TasksAndChildrenClaim : Prop :=
  (∀ e s a, Clear formTask e s a →
    ∃ t o, exec (.task e) s = .next t ∧ WentOn t a e ∧ Sent s t a e o ∧ o.writes = [] ∧ t.mem = s.mem ∧ t.parts = s.parts
      ∧ (¬ goes formTask e s a → o.stage = .done)
      ∧ (goes formTask e s a → (uniSrc formTask e s a).a % 128 = 0 →
          o.stage = .task e.d.toNat (uniSrc formTask e s a).a ∧ (getGroup t a.gid).dirty = [])
      ∧ (goes formTask e s a → (uniSrc formTask e s a).a % 128 ≠ 0 →
          ∃ c, o.stage = .faulted c ∧ c.group = 2 ∧ c.code = 3))
  ∧ (∀ e s a, Clear formTjoin e s a → goes formTjoin e s a → a.sp.park = .none →
    let p := a.tm.part
    let hit := fun c : Child => c.parent == a.tm.tid && c.child == (uniSrc formTjoin e s a).a && !c.joined
    let kids := (getPart s p).children
    (∀ c w, kids.find? hit = some c → c.stat = some w → (kids.all fun c => !hit c || c.stat.isSome) = true →
      ∃ t o, exec (.tjoin e) s = .next t ∧ WentOn t a e ∧ Sent s t a e o ∧ o.stage = .done ∧ t.mem = s.mem
        ∧ Delivers o.writes [0] (fun _ => sKey e.d.toNat) 1 (fun _ => w.toNat)
        ∧ getPart t p = { getPart s p with children := kids.map fun c => if hit c then { c with joined := true } else c })
    ∧ (kids.find? hit = none → ∃ t o, exec (.tjoin e) s = .next t ∧ Frame s t a e ∧ WentOn t a e ∧ Sent s t a e o
        ∧ o.stage = .done ∧ Delivers o.writes [0] (fun _ => sKey e.d.toNat) 1 (fun _ => 6))
    ∧ (kids.any (fun c => hit c && c.stat.isNone) = true →
        exec (.tjoin e) s = .next (modSplit s a.gid a.k fun x => { x with park := .before [] false })))

/-- R157, R158, R298: TSETTLE says whether its region may settle, and settles it; nothing else about the task changes. -/
def Sys2Proof.SettlingClaim : Prop :=
  ∀ e s a, Clear formTsettle e s a → goes formTsettle e s a → findTask s a.tm.part a.tm.tid = some a.task →
    let p := a.tm.part
    let j := (uniSrc formTsettle e s a).b
    let ok := a.task.st = .released ∧ j < 8 ∧ maySettle s p a.task j = true
    ∃ t o, exec (.tsettle e) s = .next t ∧ WentOn t a e ∧ Sent s t a e o ∧ o.stage = .done ∧ t.mem = s.mem
      ∧ (e.d ≠ 0 → Delivers o.writes [0] (fun _ => qKey e.d.toNat) 1 (fun _ => if ok then 1 else 0))
      ∧ (¬ ok → t.parts = s.parts)
      ∧ (ok → (getTask t p a.tm.tid) = { a.task with settled := a.task.settled ++ [j] })

/-- R53, R54, R191, R300, R303: SETFMT sets the split's fmt, or traps with ENC, FMT on one that is not legal, whatever its guard
says; WRSR sets a handler register. -/
def Sys2Proof.FormatStateClaim : Prop :=
  (∀ e s a, Clear formSetfmt e s a →
    let x := BitVec.ofNat 32 (uniSrc formSetfmt e s a).b
    let legal := x.toNat / 2 ^ 22 = 0 ∧ x.toNat / 2 ^ 14 % 8 ≤ 5 ∧ (x.toNat.testBit 21 = true → x.toNat / 2 ^ 19 % 4 ≠ 0)
    (goes formSetfmt e s a → legal → ∃ t, exec (.setfmt e) s = .next t ∧ Jumped s t a e (nextPc a e)
        ∧ (getGroup t a.gid).splits[a.k]?.map (·.fmt) = some x)
    ∧ (¬ legal → exec (.setfmt e) s = .next (takeTrap s a.gid a.k
        ⟨1, 18, ctlWord true e.ctl, opWord 0x40 e, locWord a.sp.pc true⟩ a.sp.pc))
    ∧ (¬ goes formSetfmt e s a → legal → ∃ t, exec (.setfmt e) s = .next t ∧ Jumped s t a e (nextPc a e)
        ∧ (getGroup t a.gid).splits[a.k]?.map (·.fmt) = some a.sp.fmt))
  ∧ (∀ e s a, Clear formWrsr e s a →
    ∃ t, exec (.wrsr e) s = .next t ∧ WentOn t a e ∧ t.mem = s.mem ∧ (∀ x k, regOf t x k = regOf s x k)
      ∧ ∀ n, mget (getGroup t a.gid).hc n 0 = if goes formWrsr e s a ∧ n = e.d.toNat - 160
          then BitVec.ofNat 32 (uniSrc formWrsr e s a).b else mget a.g.hc n 0)

/-- R49, R301: SETCMP loads a compand table of its core from 80 bytes of scratchpad: 15 breakpoints that rise strictly,
all finite, then 4 zero bytes, then 16 slope exponents from −8 to 8; an image that breaks this faults with CMPIMG, whose detail
gives the image's offset, then that of the first bad byte, or of the first bad breakpoint, and the table's number (R365); the
table stays. -/
def Sys2Proof.CompandTablesClaim : Prop :=
  ∀ e s a, Clear formSetcmp e s a → goes formSetcmp e s a →
    let ad := (uniSrc formSetcmp e s a).a
    let byte := fun k => scrByte a.tm (ad + k)
    let bp := fun k => leNat ((List.range 4).map fun j => byte (4 * k + j))
    let finite := fun k => match fval 0 (bp k) with | .fin _ _ _ _ => true | _ => false
    let fine := fun k =>
      (k < 60 → k % 4 = 0 → finite (k / 4) = true ∧ (k ≠ 0 → fcompare 2 (fval 0 (bp (k / 4 - 1))) (fval 0 (bp (k / 4))) = true))
      ∧ (60 ≤ k → k < 64 → byte k = 0) ∧ (64 ≤ k → k < 80 → -8 ≤ (byte k).toInt ∧ (byte k).toInt ≤ 8)
    ad % 4 = 0 → ad + 80 ≤ a.tm.scrsize →
    ∃ t o, exec (.setcmp e) s = .next t ∧ WentOn t a e ∧ Sent s t a e o ∧ o.writes = [] ∧ t.mem = s.mem ∧ t.teams = s.teams
      ∧ ((∀ k < 80, fine k) → o.stage = .done ∧ ∀ n, mfind (getCore t a.tm.core).tables n =
          if n = e.M 9 8 then some ⟨(List.range 15).map fun k => BitVec.ofNat 32 (bp k),
            (List.range 16).map fun k => (byte (64 + k)).toInt⟩ else mfind (getCore s a.tm.core).tables n)
      ∧ ∀ k < 80, ¬ fine k → (∀ j < k, fine j) → (getCore t a.tm.core).tables = (getCore s a.tm.core).tables
          ∧ o.stage = .faulted ⟨4, 1, BitVec.ofNat 32 ad, BitVec.ofNat 32 (k + 2 ^ 8 * e.M 9 8), locWord a.sp.pc true⟩

/-- R28, R302: RQUOTA of no granule is true at once; of more than the group has to give, or to a group that cannot take it,
false; else the move stays outstanding. -/
def Sys2Proof.QuotaMovesClaim : Prop :=
  ∀ e s a, Clear formRquota e s a → goes formRquota e s a →
    let n := (uniSrc formRquota e s a).b
    let r := (uniSrc formRquota e s a).a
    let gid := 32 * teamKey a.gid + r
    let no := quotaNow a.g < n ∨ a.tm.ngrp ≤ r ∨ r = a.g.w1 ∨ quadrantOf a.tm r ≠ quadrantOf a.tm a.g.w1
      ∨ mfind s.groups gid = none ∨ ∃ g, mfind s.groups gid = some g ∧ isEvicted g = true
    ∃ t o, exec (.rquota e) s = .next t ∧ Frame s t a e ∧ WentOn t a e ∧ Sent s t a e o
      ∧ (n = 0 → o.stage = .done ∧ (e.d ≠ 0 → Delivers o.writes [0] (fun _ => qKey e.d.toNat) 1 (fun _ => 1)))
      ∧ (n ≠ 0 → no → o.stage = .done ∧ (e.d ≠ 0 → Delivers o.writes [0] (fun _ => qKey e.d.toNat) 1 (fun _ => 0)))
      ∧ (n ≠ 0 → ¬ no → o.stage = .rquota r n e.d.toNat ∧ o.writes = [])

/-- fmt, compand tables and the quota. -/
def Obligations.GroupState : Prop := FormatStateClaim ∧ CompandTablesClaim ∧ QuotaMovesClaim

/-- R304, R368: TRAP and BKPT take their trap with the offset behind them; one of a grid with a handler, in a task that is
not versioned and outside handler mode, enters the handler: hc0 holds that offset, hc1 the active lanes, hc2 fmt, hc3 cause
group and code, hc4 to hc6 the detail; the split runs at the handler's offset with fmt 0, and the others are asked to
stop. Under a false guard nothing happens; inside a hold chain that goes on the trap waits for its end (R182). -/
def Sys2Proof.SoftTrapsClaim : Prop :=
  let go := fun (mk : Enc → Instr) (f : Form) (group : Nat) (code : Enc → Nat) => ∀ e s a, Clear f e s a →
    (¬ goes f e s a → ∃ t, exec (mk e) s = .next t ∧ Jumped s t a e (nextPc a e))
    ∧ (goes f e s a → e.ctl.hold = true → ∃ t, exec (mk e) s = .next t ∧ Frame s t a e ∧ WentOn t a e
      ∧ (getGroup t a.gid).splits[a.k]?.map (·.traps)
        = some (a.sp.traps ++ [⟨none, ⟨group, code e, 0, 0, locWord a.sp.pc true⟩, a.sp.issued + 1, true⟩]))
    ∧ (goes f e s a → e.ctl.hold = false → (group = 12 → (getPart s a.tm.part).arm = false) → a.task.card.ver = false →
      a.task.header.hnd = true → a.sp.handler = false → a.g.handler = none →
      ∃ t, exec (mk e) s = .next t ∧ t.mem = s.mem ∧ t.parts = s.parts ∧ (∀ x k, regOf t x k = regOf s x k)
        ∧ (∀ n, mget (getGroup t a.gid).hc n 0 = ([nextPc a e, a.sp.active, a.sp.fmt, BitVec.ofNat 32 (code e + 32 * group), 0, 0,
            locWord a.sp.pc true][n]?).getD (mget a.g.hc n 0))
        ∧ (∃ x, (getGroup t a.gid).splits[a.k]? = some x ∧ x.pc = BitVec.ofNat 32 a.task.header.hoff ∧ x.fmt = 0
            ∧ x.active = a.sp.active ∧ x.handler = true ∧ x.pend = none)
        ∧ (∀ j, j ≠ a.k → j < a.g.splits.length → ∃ x y, a.g.splits[j]? = some x ∧ (getGroup t a.gid).splits[j]? = some y
            ∧ (x.stopped = true ∨ y.stop.isSome) ∧ y.pc = x.pc))
  go .trap formTrap 11 (fun e => e.M 12 8) ∧ go .bkpt formBkpt 12 (fun _ => 1)

/-- R305, R368: TRET, of a handler split that is its group's only split, goes on where hc0 says with the fmt of hc2 and
every lane of the trapped split, where hc1 ends none of them, with its rejoin address again; handler mode ends. With hc2 no
legal fmt it traps with ENC, FMT. -/
def Sys2Proof.HandlerReturnClaim : Prop :=
  ∀ e s a h, Clear formTret e s a → goes formTret e s a → a.g.handler = some h → a.g.splits = [a.sp] → a.sp.handler = true →
    a.sp.traps = [] → a.g.held = [] → a.g.res = .resident → a.g.halt = .running → a.task.st = .released →
    let hc := fun n => mget a.g.hc n 0
    (fmtLegal (hc 2) = false → exec (.tret e) s = .next (takeTrap s a.gid a.k
      ⟨1, 18, ctlWord true e.ctl, opWord 0x4A e, locWord a.sp.pc true⟩ a.sp.pc))
    ∧ (fmtLegal (hc 2) = true → h.mask &&& ~~~a.g.exited &&& ~~~(hc 1) = 0 → ∃ t x, exec (.tret e) s = .next t
      ∧ t.mem = s.mem ∧ t.parts = s.parts ∧ (∀ y k, regOf t y k = regOf s y k) ∧ (getGroup t a.gid).handler = none
      ∧ (getGroup t a.gid).splits = [x] ∧ x.pc = hc 0 ∧ x.fmt = hc 2 ∧ x.active = h.mask &&& ~~~a.g.exited
      ∧ x.pend = h.pend ∧ x.handler = false ∧ x.stop = none ∧ x.stopped = false ∧ x.age = h.split)

/-- TRAP and BKPT, and the return from a handler. -/
def Obligations.TrapsAndHandlers : Prop := SoftTrapsClaim ∧ HandlerReturnClaim

/-- R163, R306: TKILL of the executing task (0 names it) or of a descendant stops that task with KILLED, and its groups are
asked to stop; of any other number it does nothing. -/
def Sys2Proof.TaskKillClaim : Prop :=
  ∀ e s a, Clear formTkill e s a → goes formTkill e s a →
    let p := a.tm.part
    let me := a.tm.tid
    let x := if (uniSrc formTkill e s a).a = 0 then me else (uniSrc formTkill e s a).a
    let may := x = me ∨ (ancestors ((getPart s p).children.length + 1) (getPart s p) x).contains me = true
    ∃ t, exec (.tkill e) s = .next t ∧ t.mem = s.mem ∧ (∀ y k, regOf t y k = regOf s y k)
      ∧ (¬ may → Jumped s t a e (nextPc a e))
      ∧ (may → ∀ k, findTask s p x = some k → k.st = .released → k.fate = none →
          ∃ k', findTask t p x = some k' ∧ k'.st = .stopping ∧ k'.fate.map (·.status) = some 3 ∧ k'.ver = []
          ∧ ∀ g ∈ groupsOf s p x, ∀ y ∈ (getGroup t g).splits, y.stop.isSome = true ∨ y.stopped = true)

/-- Children, joins, settled regions, and kills. -/
def Obligations.Tasks : Prop := TasksAndChildrenClaim ∧ SettlingClaim ∧ TaskKillClaim

/-- R307, R380, R387, R308, R363: OTSET writes the 32 bytes of an object-table entry from scratchpad and drops cached copies of
it; in a granule that the partition does not hold it traps PART, GRANULE. PINV drops every TLB entry of its page. -/
def Obligations.TableUpkeep : Prop :=
  (∀ e s a, Clear formOtset e s a → goes formOtset e s a → Calm s →
    let p := a.tm.part
    let h := (uniSrc formOtset e s a).a % 2 ^ 16
    let ad := (uniSrc formOtset e s a).b
    let at_ := (getPart s p).otbase + 32 * h
    (ad % 16 = 0 → ad + 32 ≤ a.tm.scrsize → holdsPhys s p at_ = true → ∃ t, exec (.otset e) s = .next t ∧ WentOn t a e ∧ t.teams = s.teams
      ∧ (∀ y k, regOf t y k = regOf s y k)
      ∧ (∀ y, readByte t.mem y = if at_ ≤ y ∧ y < at_ + 32 then scrByte a.tm (ad + (y - at_)) else readByte s.mem y)
      ∧ getPart t p = { getPart s p with otcache := mdel (getPart s p).otcache h })
    ∧ (¬ (ad % 16 = 0 ∧ ad + 32 ≤ a.tm.scrsize) → ∃ c : TrapRec, c.group = 2 ∧ c.code = (if ad % 16 = 0 then 4 else 3)
        ∧ Stops (.otset e) s a e c)
    ∧ (ad % 16 = 0 → ad + 32 ≤ a.tm.scrsize → holdsPhys s p at_ = false → Stops (.otset e) s a e
        ⟨13, 1, BitVec.ofNat 32 (at_ / 64), BitVec.ofNat 32 (at_ / 2 ^ 33), locWord a.sp.pc true⟩))
  ∧ (∀ e s a, Clear formPinv e s a → goes formPinv e s a →
    let va := (uniSrc formPinv e s a).a
    (va < 2 ^ 52 → ∃ t, exec (.pinv e) s = .next t ∧ WentOn t a e ∧ t.mem = s.mem ∧ (∀ y k, regOf t y k = regOf s y k)
      ∧ ∀ x, x ∈ t.tlb ↔ x ∈ s.tlb ∧ ¬ (x.part = a.tm.part ∧ x.page = pageBase x.leaf va))
    ∧ (2 ^ 52 ≤ va → ∃ c : TrapRec, c.group = 2 ∧ c.code = 1 ∧ Stops (.pinv e) s a e c))

/-- R254 to R256: TSTR to a legal writable shape record stores the elements that lie in bounds, here on RAW pages without a
key by a task without a version, and nothing else, and says in its predicate whether all did. -/
def Sys2Proof.TensorStoresClaim : Prop :=
  ∀ e s a leaf, Clear formTstr e s a →
    let s1 := book s a e
    let i := issOf formTstr e s a
    let k := tensorCapture true s1 i
    let c := partyOf formTstr e s a
    let n := 2 ^ e.M 9 8
    let x := fun l => objEntry s c.p (mget k.addr l 0)
    let es := fun l => efBits (bitsOf (x l) 13 10) / 8
    let at_ := fun l => tensorAt (x l) n fun j => ((mget k.data l []).getD j 0).toNat
    let home := fun l : Nat => (leaf l : Leaf).frame + pageOff (leaf l) (at_ l).2
    let inside := fun l y => (at_ l).1 ≠ 0 ∧ home l ≤ y ∧ y < home l + (at_ l).1 * es l
    Calm s → (getPart s c.p).otcache = [] → tensorForm true formTstr e s = formTstr → a.task.card.ver = false →
    (∀ l ∈ k.lanes, holdsPhys s c.p (objPlace s c.p (mget k.addr l 0)) = true ∧ shapeLegal (x l) = true ∧ bitOf (x l) 9 = true ∧ n * es l ≤ 16
      ∧ ((at_ l).1 ≠ 0 → Reaches s c .write anyPage { k with addr := [(l, (at_ l).2)] } (n * es l) leaf
        ∧ (leaf l).sf = 0 ∧ (leaf l).key = 0 ∧ reqOf (e.M 15 13) (leaf l) ≠ 1)) →
    ∃ t o, exec (.tstr e) s = .next t ∧ WentOn t a e ∧ Sent s t a e o ∧ t.teams = s.teams
      ∧ (∀ p, ∃ otcache, ∃ code : Task → SMap Byte,
          getPart t p = { getPart s p with otcache, window := (getPart s p).window.map fun k => { k with code := code k } })
      ∧ ((o.stage = .held (.tstr e) k ∧ o.writes = [] ∧ t.mem = s.mem)
        ∨ (o.stage = .done
          ∧ (∀ y, (∃ l ∈ k.lanes, inside l y
                ∧ readByte t.mem y = (leBytes 16 (wordsNat (mget k.third l []))).getD (y - home l) 0)
              ∨ ((∀ l ∈ k.lanes, ¬ inside l y) ∧ readByte t.mem y = readByte s.mem y))
          ∧ ∀ l ∈ k.lanes, (e.M 12 10 ≠ 0 →
              Delivers o.writes [l] (fun l => pKey l (e.M 12 10)) 1 (fun l => (decide ((at_ l).1 = n)).toNat))
            ∧ (e.M 18 16 ≠ 0 → e.M 18 16 ≠ e.M 12 10 → Delivers o.writes [l] (fun l => pKey l (e.M 18 16)) 1 (fun _ => 0))))

/-- TLD and TSTR, OINFO, and the hints PREF and RESQ. -/
def Obligations.TensorsObjectsAndHints : Prop := TensorLoadsClaim ∧ TensorStoresClaim ∧ ObjectInfoClaim ∧ HintsClaim

/-- An operation has ended (R19, R20): its destinations hold what it writes, its flag counts one less, and it is
outstanding no longer. -/
structure Sys2Proof.Ended (s t : State) (gid : Nat) (o : Op) : Prop where
  regs   : ∀ k, regOf t gid k = mget o.writes k (regOf s gid k)
  flags  : ∀ k, getFlag (getGroup t gid) k = getFlag (getGroup s gid) k - if o.flag = some k then 1 else 0
  ops    : (getGroup t gid).ops = (getGroup s gid).ops.filter fun x => x.id != o.id
  others : ∀ g, g ≠ gid → mfind t.groups g = mfind s.groups g
  rest   : { t with groups := s.groups } = s

/-- R18 to R20, R135, R217, R369: RESULT_READABLE ends a fixed-latency operation once its latency is over. OPERATION_COMPLETE ends
one that has been performed, but one of Indigo or of Ochre not before an earlier one of the same unit; one whose access faulted also leaves
its trap with its split. A window that an earlier result has open on a register that the operation writes is over (R19). -/
def Sys2Proof.OperationEndsClaim : Prop :=
  ∀ s gid op o, findOp (getGroup s gid) op = some o → (mkeys o.writes).Nodup →
    let held := isHeld (getPart s (getTeam s (teamKey gid)).part) (.op gid op)
    let earlier := (getGroup s gid).ops.takeWhile fun x => x.id != op
    let close := fun x : Split => { x with stale := x.stale.filter fun w => !mhas o.writes w.loc }
    let first := (o.indigo = true → ∀ x ∈ earlier, x.indigo = false) ∧ (o.ochre = true → ∀ x ∈ earlier, x.ochre = false)
    (∀ due, o.stage = .fixed due → due ≤ s.cycle → ∃ t, exec (.resultReadable gid op) s = .next t ∧ Ended s t gid o)
    ∧ (∀ due, o.stage = .fixed due → s.cycle < due → exec (.resultReadable gid op) s = .next s)
    ∧ (o.stage = .done → held = false → first → ∃ t, exec (.operationComplete gid op) s = .next t ∧ Ended s t gid o
        ∧ (getGroup t gid).splits = (getGroup s gid).splits.map close)
    ∧ (∀ c, o.stage = .faulted c → held = false → first → (∃ x ∈ (getGroup s gid).splits, x.age = o.split) →
        ∃ t, exec (.operationComplete gid op) s = .next t ∧ Ended s t gid o
          ∧ (getGroup t gid).splits = ((getGroup s gid).splits.map close).map fun x =>
              if x.age = o.split then { x with traps := x.traps ++ [⟨o.flag, c, o.at_, false⟩] } else x)
    ∧ (¬ first → exec (.operationComplete gid op) s = .next s)

/-- R28, R302: the move of an RQUOTA: the receiver gains the granules, which read zero in every lane, the giver has them no
longer, and the predicate is true; a receiver that has no room by then, or is gone, makes it false and the granules stay. -/
def Sys2Proof.QuotaArrivesClaim : Prop :=
  ∀ s gid op o recv n dest, findOp (getGroup s gid) op = some o → o.stage = .rquota recv n dest → o.indigo = false → o.ochre = false → o.writes = [] →
    o.lost = [] →
    let g := getGroup s gid
    let dst := 32 * teamKey gid + recv
    let r := getGroup s dst
    dst ≠ gid → 1 ≤ dest → dest < 8 → g.res = .resident →
    (∀ x ∈ g.ops, opReaches x (8 * (g.quota - n)) = false) → ((rquotas g).head?.map (·.id)) = some op →
    let fits := mhas s.groups dst = true ∧ r.res = .resident ∧ r.quota + n ≤ 32
    ∃ t, exec (.operationComplete gid op) s = .next t ∧ t.mem = s.mem
      ∧ (getGroup t gid).ops = g.ops.filter (fun x => x.id != op)
      ∧ (fits → regOf t gid (qKey dest) = 1
          ∧ (getGroup t gid).quota = g.quota - n ∧ (getGroup t dst).quota = r.quota + n
          ∧ (∀ l k, l < 32 → k < 256 →
              regOf t dst (vKey l k) = if 8 * r.quota ≤ k then 0 else regOf s dst (vKey l k)))
      ∧ (¬ fits → regOf t gid (qKey dest) = 0 ∧ (getGroup t gid).quota = g.quota ∧ ∀ x, x ≠ gid → mfind t.groups x = mfind s.groups x)

/-- The completion of an operation, its result or its trap; the quota among them. -/
def Obligations.OperationEnds : Prop := OperationEndsClaim ∧ QuotaArrivesClaim

/-- R25, R22, R368: a split ready for 64 cycles is promoted, and one not ready so long is not; a stop that 64 boundaries
have passed is taken, with every window closed; and a trap held during handler mode enters the handler when the mode has
ended, the oldest split's first. -/
def Obligations.SplitEvents : Prop :=
  (∀ s gid k g x, mfind s.groups gid = some g → g.splits[k]? = some x →
    (∀ n, x.readyAt = some n → n + 64 ≤ s.cycle → ∃ t, exec (.readyAgePromote gid k) s = .next t
        ∧ (getGroup t gid) = { g with splits := g.splits.set k { x with promoted := true } } ∧ { t with groups := s.groups } = s)
    ∧ ((∀ n, x.readyAt = some n → s.cycle < n + 64) → ∃ t, exec (.readyAgePromote gid k) s = .next t
        ∧ (∀ j, mfind t.groups j = mfind s.groups j) ∧ { t with groups := s.groups } = s)
    ∧ (∀ n, x.stop = some n → x.chain = 0 → x.stopped = false →
        (64 ≤ n → ∃ t, exec (.stopBound gid k) s = .next t ∧ { t with groups := s.groups } = s
          ∧ (getGroup t gid) = { g with splits := g.splits.set k { x with stopped := true, stale := [] } })
        ∧ (n < 64 → exec (.stopBound gid k) s = .next s)))
  ∧ (∀ s gid k a c resume, atOf s gid k = some a → a.g.held.find? (fun h => h.1 == a.sp.age) = some (a.sp.age, c, resume) →
    a.g.handler = none → a.g.res = .resident → a.g.halt = .running → a.task.st = .released →
    (∀ h ∈ a.g.held, a.sp.age ≤ h.1) →
    ∃ t, exec (.handlerEntry gid k) s = .next t ∧ { t with groups := s.groups } = s
      ∧ (∀ y k, regOf t y k = regOf s y k)
      ∧ (getGroup t gid).held = a.g.held.filter (fun h => h.1 != a.sp.age)
      ∧ (∀ n, mget (getGroup t gid).hc n 0 = ([resume, a.sp.active, a.sp.fmt,
          BitVec.ofNat 32 (c.code + 32 * c.group + if c.group = 5 ∧ c.code = 1 then 1024 else 0), c.d0, c.d1, c.d2][n]?).getD
            (mget a.g.hc n 0))
      ∧ ∃ x, (getGroup t gid).splits[k]? = some x ∧ x.pc = BitVec.ofNat 32 a.task.header.hoff ∧ x.fmt = 0
          ∧ x.active = a.sp.active ∧ x.handler = true ∧ x.stopped = false)

/-- R65, R72, R95: HOME_RECALL brings an owned grain's bytes home: every coherent reader sees what it saw, and no core owns
the grain. CONVERTED_WRITE stores what R72 makes of the delivered bytes, here on a page without a key. A cursor buffer that
is discarded leaves the cursor's register as it was. -/
def Sys2Proof.HomeEventsClaim : Prop :=
  (∀ s g (o : OwnGrain), s.own = [(g, o)] → s.pools = [] → s.mgmt.mig = none → s.mgmt.reqs = [] → o.size ∈ [32, 128, 512] → g % o.size = 0 →
    (mkeys o.dirty).Nodup → (∀ x ∈ o.dirty, g ≤ x.1 ∧ x.1 < g + o.size ∧ x.2.2 = 0) →
    ∃ t, exec (.homeRecall g) s = .next t ∧ { t with mem := s.mem, own := s.own } = s ∧ t.own = []
      ∧ ∀ x, cohByte t x 0 = cohByte s x 0 ∧ readByte t.mem x = cohByte s x 0)
  ∧ (∀ s part va data l, Calm s → (getTask s part 0).card.ver = false →
    (checkAcc s (carmineAcc s part) .write 0 va 1 anyPage).1 = .ok l → l.sf ≠ 0 → l.domain = false → l.key = 0 → data ≠ [] →
    pageOff l va + data.length ≤ (if l.big then 2 ^ 21 else 2 ^ 16) →
    ∃ t, exec (.convertedWrite part va data) s = .next t ∧ t.groups = s.groups ∧ t.teams = s.teams
      ∧ t.mem = (encodeWrite (readByte s.mem) l (pageOff l va) data).1.foldl (fun m x => writeByte m x.1 x.2) s.mem)
  ∧ (∀ s gid lane cur, lane < 32 → cur < 8 →
    ∃ t, exec (.cursorBufferDiscard gid lane cur) s = .next t ∧ { t with groups := s.groups } = s
      ∧ (∀ y k, regOf t y k = regOf s y k)
      ∧ ∀ l m, l < 32 → m < 8 → getCur (getGroup t gid) l m
          = if l = lane ∧ m = cur then { getCur (getGroup s gid) l m with buf := [] } else getCur (getGroup s gid) l m)

/-- R358, R359: FAULT_RECORD writes the 32-byte record of a held access at PUT and advances PUT; with the ring full it
waits, a record of an older generation is discarded, and a buffer in a granule that the partition does not hold is reported to
firmware (R387). FBGEN_WRITE of a new generation, and HELD_ACCESS_REPLAY, try a
held access again: a load whose page is there now is
performed, whole or from now on piece by piece; the wait of a fetch, card, completion record or command
ends. A record that is not written yet stays to be written while FBGEN has not changed. -/
def Sys2Proof.FaultBufferClaim : Prop :=
  (∀ s p idx h, (getPart s p).held[idx]? = some h → h.recorded = false → Calm s →
    let q := getPart s p
    let slots := 2 ^ (if 6 ≤ q.fbsize ∧ q.fbsize ≤ 16 then q.fbsize else 6)
    let at_ := q.fbbase + 32 * (q.fbput % slots)
    let full := (q.fbput + 2 ^ 32 - q.fbget) % 2 ^ 32 = slots
    let marked := if h.who = .served then q.held.eraseIdx idx else q.held.set idx { h with recorded := true }
    (h.gen ≠ q.fbgen → ∃ t, exec (.faultRecord p idx) s = .next t ∧ t.mem = s.mem ∧ getPart t p = { q with held := marked })
    ∧ (h.gen = q.fbgen → full → exec (.faultRecord p idx) s = .next s)
    ∧ (h.gen = q.fbgen → ¬ full → holdsPhys s p at_ = false → ∃ t, exec (.faultRecord p idx) s = .next t ∧ t.mem = s.mem
      ∧ getPart t p = { q with held := marked }
      ∧ t.mgmt.faults = s.mgmt.faults ++ [(p, ⟨13, 1, BitVec.ofNat 32 (at_ / 64), BitVec.ofNat 32 (at_ / 2 ^ 33), 0xFFFFFFFF#32⟩)])
    ∧ (h.gen = q.fbgen → ¬ full → holdsPhys s p at_ = true → ∃ t, exec (.faultRecord p idx) s = .next t
      ∧ getPart t p = { q with held := marked, fbput := (q.fbput + 1) % 2 ^ 32 }
      ∧ leNat (readBytes t.mem at_ 8) = h.va % 2 ^ 64 ∧ leNat (readBytes t.mem (at_ + 8) 4) = h.gen % 2 ^ 32
      ∧ leNat (readBytes t.mem (at_ + 12) 4) = h.tid % 2 ^ 32
      ∧ (h.source ≤ 4 → (leNat (readBytes t.mem (at_ + 16) 4)).testBit 2 = h.write)
      ∧ ∀ x, (x < at_ ∨ at_ + 32 ≤ x) → readByte t.mem x = readByte s.mem x))
  ∧ (∀ s p idx h, (getPart s p).held[idx]? = some h → (∀ g o, h.who ≠ .op g o ∧ h.who ≠ .resq g o) → h.who ≠ .served →
    ∃ t, exec (.heldAccessReplay p idx) s = .next t ∧ { t with parts := s.parts } = s
      ∧ let keep := fun x : HeldAcc => if x.who ≠ h.who then some x
          else if x.recorded = true ∨ x.gen ≠ (getPart s p).fbgen then none else some { x with who := HeldBy.served }
        getPart t p = { getPart s p with held := (getPart s p).held.filterMap keep })
  ∧ (∀ s p idx h gid op o e (k : Capture) leaf, (getPart s p).held[idx]? = some h → h.who = .op gid op →
    findOp (getGroup s gid) op = some o → o.stage = .held (.ld e) k → o.lost = [] → Calm s →
    let c := accOfOp s gid o.loc
    let n := szBytes (e.M 10 8)
    c.p = p → mustWait s c ((getGroup s gid).ops.takeWhile fun x => x.id != op) (.ld e) k = false →
    e.M 15 14 ≠ 1 → Reaches s c .read anyPage k n leaf → (∀ l ∈ k.lanes, reqOf (e.M 13 11) (leaf l) ≠ 3) →
    k.lanes = mkeys k.addr → (mkeys k.addr).Nodup → (∀ l ∈ k.lanes, l < 32) → e.d.toNat + szN (e.M 10 8) ≤ 256 →
    ∃ t o', exec (.heldAccessReplay p idx) s = .next t ∧ t.mem = s.mem ∧ findOp (getGroup t gid) op = some o'
      ∧ ((o'.writes = o.writes ∧ ∃ found, o'.stage = .pieces (piecesOfInstr (.ld e) { k with checked := found }) [] none)
        ∨ (o'.stage = .done
          ∧ Delivers o'.writes k.lanes (fun l => vKey l e.d.toNat) (szN (e.M 10 8)) (fun l => loaded (e.M 10 8)
              (freshBytes s (versionOf s c) (leaf l) (pageOff (leaf l) (mget k.addr l 0)) n))))
      ∧ isHeld (getPart t p) (.op gid op) = false)
  ∧ (∀ s p v, (v.toNat = (getPart s p).fbgen → exec (.fbgenWrite p v) s = .next s)
    ∧ (v.toNat ≠ (getPart s p).fbgen → (∀ h ∈ (getPart s p).held, h.gen ≠ v.toNat ∧ ∀ g o, h.who ≠ .op g o ∧ h.who ≠ .resq g o) →
      ∃ t, exec (.fbgenWrite p v) s = .next t ∧ { t with parts := s.parts } = s
        ∧ getPart t p = { getPart s p with fbgen := v.toNat, held := [] }))

/-- What a home does on its own, and held accesses and their records. -/
def Obligations.HomesAndFaults : Prop := HomeEventsClaim ∧ FaultBufferClaim

/-- A value is a reduction of some values: two of them combined, whichever they are, until one is left (R5, R131). -/
inductive Sys2Proof.Reduction (red ef : Nat) : List Nat → Nat → Prop where
  | one (x : Nat) : Reduction red ef [x] x
  | join (xs rest : List Nat) (x y v : Nat) : xs.Perm (x :: y :: rest) → Reduction red ef (redElem red ef x y :: rest) v →
      Reduction red ef xs v

/-- R122, R129, R131: Umber moves a row of a command by one of the acts that the row allows at a time: it reads an index that
the row needs, then a unit of the row's source, and writes a piece whose source it has read; or it does at once what it can: all
indices, then every run of the source, then the row as one write. A row of which nothing is left to do is counted as written. An index all ones is null, else it is kept. A unit's bytes are kept by their place in the row. A piece
is written to the row's place in the destination: as it is; under RED of a SCATTER reduced into what is there; of a MERGE the
reduction of every copy's rows into the row of their index, in a grouping of the device's choice (R5). That a row moves act by act
or at once is the model's choice (log 19), and so is that an entry of the index vector which is not aligned is read where it lies
(log 51). -/
def Sys2Proof.UmberRowsClaim : Prop :=
  (∀ s tm slot seq row r op i, (op, i) ∈ [((1 : Nat), Instr.umberCopy tm slot seq row), (2, .umberGather tm slot seq row),
      (3, .umberScatter tm slot seq row), (4, .umberMerge tm slot seq row)] →
    runningCmd s tm slot seq = some r →
    let c := ucmd r.words
    let u := umberAcc s tm slot seq
    let acts := r.acts c row
    let s0 := (choose s 2).2
    let s1 := (choose s0 acts.length).2
    (c.op ≠ op ∨ c.total ≤ row ∨ mhas r.written row = true → exec i s = .next s)
    ∧ (c.op = op → row < c.total → mhas r.written row = false → acts = [] →
      ∃ t, exec i s = .next t ∧ t.mem = s.mem ∧ (∀ x, scrByte (getTeam t tm) x = scrByte (getTeam s tm) x)
        ∧ runningCmd t tm slot seq = some (rowDone c row r))
    ∧ (c.op = op → row < c.total → mhas r.written row = false → acts ≠ [] →
      (∀ act ∈ acts, ∃ x, rowActs s1 u c r row [act] = .ok x) → (∃ x, rowActs s0 u c r row (r.bulk c row) = .ok x) →
      ∃ t x, (rowActs s0 u c r row (r.bulk c row) = .ok x ∨ ∃ act ∈ acts, rowActs s1 u c r row [act] = .ok x)
        ∧ exec i s = .next t ∧ t.mem = x.2.mem
        ∧ (∀ y, scrByte (getTeam t tm) y = scrByte (getTeam x.2 tm) y)
        ∧ runningCmd t tm slot seq = (runningCmd x.2 tm slot seq).map fun _ => rowDone c row x.1))
  ∧ (∀ (r : RunCmd) (c : UCmd) row act, act ∈ r.acts c row ↔
    (∃ k, act = .index k ∧ k ∈ r.unread c row)
    ∨ (r.unread c row = [] ∧ ∃ x ∈ cutRuns 0 (r.source c row), act = .read x.1 x.2.1 x.2.2 ∧ mhas (r.buf row).got x.1 = false)
    ∨ (r.unread c row = [] ∧ ∃ x ∈ r.left c row, act = .write x.1 x.2 ∧ r.mayPut c row x = true))
  ∧ (∀ (r : RunCmd) (c : UCmd) row,
    let src := r.source c row
    let b := r.buf row
    (r.unread c row ≠ [] → r.bulk c row = (r.unread c row).map .index)
    ∧ (r.unread c row = [] → b.got = [] → (∃ x ∈ src, x.2 ≠ 0) → ∀ act, act ∈ r.bulk c row ↔
      ∃ k x, src[k]? = some x ∧ x.2 ≠ 0 ∧ act = .read (((src.take k).map Prod.snd).foldl (· + ·) 0) (umAddr x.1) x.2)
    ∧ (r.unread c row = [] → (b.got ≠ [] ∨ ∀ x ∈ src, x.2 = 0) →
      (b.put = [] → r.left c row ≠ [] → (∀ x ∈ r.left c row, r.mayPut c row x = true) → r.bulk c row = [.write 0 c.rowBytes])
      ∧ (b.put ≠ [] ∨ r.left c row = [] ∨ (∃ x ∈ r.left c row, r.mayPut c row x = false) → r.bulk c row = r.acts c row)))
  ∧ (∀ s (u : Acc) (c : UCmd) (r : RunCmd) row, rowActs s u c r row [] = .ok (r, s)
    ∧ ∀ act rest x, rowAct s u c r row act = .ok x → rowActs s u c r row (act :: rest) = rowActs x.2 u c x.1 row rest)
  ∧ (∀ s (u : Acc) (c : UCmd) (r : RunCmd) row k i s1, umIndex s u c k = .ok (i, s1) →
    ∃ r', rowAct s u c r row (.index k) = .ok (r', s1) ∧ r' = { r with index := r'.index }
      ∧ (c.op ≠ 1 → c.idn = false → r'.entry c k = i) ∧ ∀ j, mhas r'.index j = (decide (j = k) || mhas r.index j))
  ∧ (∀ s (u : Acc) (c : UCmd) (r : RunCmd) row (pos a n : Nat) bs s1, umRead s u c.ssp a n = .ok (bs, s1) → bs.length = n →
    ∃ r', rowAct s u c r row (.read pos a n) = .ok (r', s1) ∧ (r'.buf row).put = (r.buf row).put
      ∧ (∀ k, mfind (r'.buf row).got k = if pos ≤ k ∧ k < pos + n then bs[k - pos]? else mfind (r.buf row).got k)
      ∧ ∀ w, w ≠ row → r'.buf w = r.buf w)
  ∧ (∀ s (u : Acc) (c : UCmd) (r : RunCmd) row (pos n : Nat),
    let at_ : Int := umAddr (r.dest c row) + pos
    let new := r.out c row pos n
    let es := umEs c.ef
    let kept := fun s' => ∃ r', rowAct s u c r row (.write pos n) = .ok (r', s') ∧ (r'.buf row).got = (r.buf row).got
      ∧ (∀ k, k ∈ (r'.buf row).put ↔ k ∈ (r.buf row).put ∨ (∃ x ∈ r.pieces c row, x.1 = k ∧ pos ≤ k ∧ k < pos + n))
      ∧ ∀ w, w ≠ row → r'.buf w = r.buf w
    (∀ s1, c.op < 3 ∨ (c.op = 3 ∧ c.red = 0) → umWrite s u c.dsp c.rel at_ new = .ok s1 → kept s1)
    ∧ (∀ old s1 s2, c.op = 3 → c.red ≠ 0 → umRead s u c.dsp at_ n = .ok (old, s1) →
      umWrite s1 u c.dsp c.rel at_ (elemBytes es (List.zipWith (redElem c.red c.ef) (rowElems es old) (rowElems es new))) = .ok s2 →
      kept s2)
    ∧ (∀ old s1 s2, c.op = 4 → c.pln = false → c.w38 = 1 → r.alike c row = [row] → umRead s u c.dsp at_ n = .ok (old, s1) →
      old.length = n → pos = 0 →
      umWrite s1 u c.dsp c.rel at_ (elemBytes es (List.zipWith (redElem c.red c.ef) (rowElems es old) (rowElems es new))) = .ok s2 →
      kept s2)
    ∧ (∀ old s1 (next : List Nat → Nat → State), c.op = 4 → c.pln = false → umRead s u c.dsp at_ n = .ok (old, s1) →
      (∀ ys f, umWrite { s1 with fresh := f } u c.dsp c.rel at_ (elemBytes es ys) = .ok (next ys f)) →
      ∃ ys f, ys.length = (rowElems es old).length ∧ kept (next ys f)
        ∧ ∀ j, j < ys.length → Reduction c.red c.ef ((rowElems es old).getD j 0 ::
            (List.range (c.w38 * (r.alike c row).length)).map fun k => (rowElems es (r.out c row (k * n) n)).getD j 0) (ys.getD j 0)))
  ∧ (∀ (c : UCmd) row (r : RunCmd), r.unread c row = [] → r.left c row = [] →
    let v := (r.entry c row).elim 0 (· + 1)
    ∀ k, mfind (rowDone c row r).written k =
      if (c.op = 4 ∧ v ≠ 0 ∧ k ∈ r.alike c row) ∨ (¬ (c.op = 4 ∧ v ≠ 0) ∧ k = row) then some v else mfind r.written k)

/-- R128 to R131: where Umber reads and writes: scratchpad by byte, within the team's; an address outside the byte space names
no page, whatever it wraps to. A COPY's row comes from its source row, or under TRN from its source column; a GATHER's from the
row that the index names, a SCATTER's from its own. The index of a row is the row itself under IDN, else 4 or 8 bytes of the
index vector, all ones null. CONJ inverts the sign of each element's last byte; a row without a source is zeros. -/
def Sys2Proof.UmberPlacesClaim : Prop :=
  (∀ s (u : Acc) (x n : Nat), x < 2 ^ 52 → x + n ≤ (getTeam s u.team).scrsize →
    umRead s u true x n = .ok (scrRead (getTeam s u.team) x n, s))
  ∧ (∀ s (u : Acc) scope (x : Nat) bs, x < 2 ^ 52 → x + bs.length ≤ (getTeam s u.team).scrsize → mhas s.teams u.team = true →
    ∃ t, umWrite s u true scope x bs = .ok t ∧ { t with teams := s.teams } = s
      ∧ ∀ y, scrByte (getTeam t u.team) y = if x ≤ y ∧ y < x + bs.length then bs.getD (y - x) 0 else scrByte (getTeam s u.team) y)
  ∧ (∀ a : Int, (0 ≤ a → a < 2 ^ 52 → (umAddr a : Int) = a) ∧ ((a < 0 ∨ 2 ^ 52 ≤ a) → 2 ^ 52 ≤ umAddr a))
  ∧ (∀ (c : UCmd) (r : RunCmd) row,
    (c.op = 1 → c.pln = false → c.trn = false → r.source c row = [(c.src + row * c.sstr, c.rowBytes)])
    ∧ (c.op = 1 → c.pln = false → c.trn = true →
      r.source c row = (List.range c.rows).map fun (i : Nat) => (c.src + i * c.sstr + row * umEs c.ef, umEs c.ef))
    ∧ (∀ k, c.op = 2 → r.entry c row = some k → r.source c row = [(c.src + k * c.sstr, c.rowBytes)])
    ∧ (∀ k, c.op = 3 → r.entry c row = some k → r.source c row = [(c.src + row * c.sstr, c.rowBytes)]
        ∧ r.dest c row = c.dst + k * c.dstr)
    ∧ (1 < c.op → r.entry c row = none → r.source c row = [] ∧ (3 ≤ c.op → r.pieces c row = []))
    ∧ (c.op < 3 → r.dest c row = c.dst + row * c.dstr))
  ∧ (∀ (pos x n : Nat), x < 2 ^ 52 → ∀ p ∈ cutRun pos x n,
    p.1 - pos = p.2.1 - x ∧ pos ≤ p.1 ∧ x ≤ p.2.1 ∧ p.2.1 + p.2.2 ≤ x + n ∧ 0 < p.2.2 ∧ p.2.1 / 8 = (p.2.1 + p.2.2 - 1) / 8)
  ∧ (∀ (pos x n k : Nat), x < 2 ^ 52 → x ≤ k → k < x + n → ∃ p ∈ cutRun pos x n, p.2.1 ≤ k ∧ k < p.2.1 + p.2.2)
  ∧ (∀ s (u : Acc) (c : UCmd) i, (c.idn = true → umIndex s u c i = .ok (some i, s))
    ∧ (c.idn = false → c.isp = true →
      let n := if c.i64 then 8 else 4
      let at_ := c.idx % 2 ^ 32 + i * n
      at_ < 2 ^ 52 → at_ + n ≤ (getTeam s u.team).scrsize →
      let v := leNat (scrRead (getTeam s u.team) at_ n)
      umIndex s u c i = .ok (if v = 2 ^ (8 * n) - 1 then none else some v, s)))
  ∧ (∀ (c : UCmd) (r : RunCmd) row pos n j b, c.pln = false → j < n → mfind (r.buf row).got (pos + j) = some b →
    (r.out c row pos n)[j]? =
      some (if c.conj = true ∧ (pos + j) % umEs c.ef = umEs c.ef - 1 then b ^^^ 0x80 else b))
  ∧ (∀ (c : UCmd) (r : RunCmd) row pos n, c.pln = false → (∀ j < n, mhas (r.buf row).got (pos + j) = false) →
    r.out c row pos n = List.replicate n 0)

/-- The rows of a copy command, and where they lie. -/
def Obligations.UmberRows : Prop := UmberRowsClaim ∧ UmberPlacesClaim

/-- R119 to R125, R132 to R134: the life of a chain's commands. A released command whose fields are legal starts; one that
is not stops its team. BIN counts its items, patches the counts into the commands behind it and releases them. FENCE
completes behind every earlier command and the other chain's OSEQ. A row that has landed fills its granules and counts in
its row-count word; the last completes the command. DONE rises over completed commands and is written to the completion
word. A held CQADV is performed when there is room, and one whose slots lie on a page that is away stays held (read from R77 and R293 by
inference, log 20). -/
def Obligations.UmberChains : Prop :=
  (∀ s tm slot b, (chainOf s tm slot).bound = some b → canStart s tm slot = true → mhas s.teams tm = true →
    let c := chainOf s tm slot
    let seq := c.started + 1
    let at_ := fun k => b.1 + (seq - 1) % 2 ^ b.2.1 * 64 + 8 * k
    let s0 := (choose s (slotUnits c).length).2
    1 < (slotUnits c).length →
    (∀ k ∈ slotUnits c, ∃ bs s1, rangeRead s0 (umberAcc s tm slot seq) 1 (at_ k) 8 4 = (.ok bs, s1) ∧ s1.teams = s.teams) →
    (∀ k ∈ slotUnits c, (mset c.got k 0).length < 8) →
    ∃ t k bs s1, k ∈ slotUnits c ∧ rangeRead s0 (umberAcc s tm slot seq) 1 (at_ k) 8 4 = (.ok bs, s1)
      ∧ exec (.umberCommandStart tm slot) s = .next t ∧ t.mem = s1.mem
      ∧ chainOf t tm slot = { c with got := mset c.got k (leNat bs) })
  ∧ (∀ s tm slot b bs s1 k, canStart s tm slot = true → (chainOf s tm slot).bound = some b →
    let c := chainOf s tm slot
    let seq := c.started + 1
    let ws := (List.range 8).flatMap fun j => natWords 2 (mget (mset c.got k (leNat bs)) j 0)
    slotUnits c = [k] →
    rangeRead s (umberAcc s tm slot seq) 1 (b.1 + (seq - 1) % 2 ^ b.2.1 * 64 + 8 * k) 8 4 = (.ok bs, s1) → s1.teams = s.teams →
    mhas s.teams tm = true →
    let scopes := mset c.scopes seq (ctlScope (cmdWord ws 0))
    (cmdCheck ws = none → ¬ ((ucmd ws).op ≤ 5 ∧ (ucmd ws).rows = 0) →
      ∃ t, exec (.umberCommandStart tm slot) s = .next t ∧ t.mem = s1.mem
        ∧ chainOf t tm slot = { c with started := seq, running := c.running ++ [⟨seq, ws, [], [], [], []⟩], got := [], scopes })
    ∧ (cmdCheck ws = none → (ucmd ws).op ≤ 5 → (ucmd ws).rows = 0 → (∀ r ∈ c.running, r.seq ≠ seq) →
      ∃ t, exec (.umberCommandStart tm slot) s = .next t ∧ t.mem = s1.mem
        ∧ chainOf t tm slot = { c with started := seq, finished := seq :: c.finished, got := [], scopes })
    ∧ (∀ off, cmdCheck ws = some off → ∃ t, exec (.umberCommandStart tm slot) s = .next t ∧ (getTeam t tm).failed = true
        ∧ t.mem = s1.mem))
  ∧ (∀ s tm slot seq r b cs bs s1 ts s2 s3 s4, runningCmd s tm slot seq = some r → (chainOf s tm slot).bound = some b →
    let c := ucmd r.words
    let ch := chainOf s tm slot
    let u := umberAcc s tm slot seq
    c.op = 5 → ch.tail = seq → c.cols + 1 ≤ 2 ^ b.2.1 → ch.tail + c.cols - ch.done ≤ 2 ^ b.2.1 →
    umRead s u c.isp (if c.isp then c.idx % 2 ^ 32 else c.idx) (4 * c.rows) = .ok (bs, s1) → chainOf s1 tm slot = ch →
    (∀ x ∈ rowElems 4 bs, x < c.cols ∨ x = 0xFFFFFFFF) →
    cs = (List.range c.cols).map (fun j => (rowElems 4 bs).count j) →
    binTargets s1 u b (seq + 1) c.cols = .ok (ts, s2) →
    (∀ w ∈ ts, 1 ≤ bitsOf w 31 28 ∧ bitsOf w 31 28 ≤ 4 ∧ bitOf w 20 = false) →
    binPatch s2 u b c.rel (seq + 1) cs = .ok s3 →
    (if c.dst = 0 then .ok s3 else umWrite s3 u c.dsp c.rel c.dst (elemBytes 4 cs)) = Except.ok s4 → chainOf s4 tm slot = ch →
    ∃ t, exec (.umberBin tm slot seq) s = .next t ∧ t.mem = s4.mem
      ∧ (∀ x, scrByte (getTeam t tm) x = scrByte (getTeam s4 tm) x) ∧ (chainOf t tm slot).tail = ch.tail + c.cols
      ∧ (chainOf t tm slot).finished = seq :: ch.finished
      ∧ (chainOf t tm slot).running = ch.running.filter fun x => x.seq != seq)
  ∧ (∀ s tm slot seq r, runningCmd s tm slot seq = some r →
    let c := ucmd r.words
    let ch := chainOf s tm slot
    let other := chainOf s tm (1 - slot)
    c.op = 6 →
    let may := (∀ q, ch.done < q → q < seq → q ∈ ch.finished) ∧ (c.idx = 0 ∨ (other.bound.isSome ∧ c.idx ≤ other.done))
    (¬ may → exec (.umberFence tm slot seq) s = .next s)
    ∧ (may → ∃ t, exec (.umberFence tm slot seq) s = .next t ∧ t.mem = s.mem
        ∧ chainOf t tm slot = { ch with running := ch.running.filter fun x => x.seq != seq, finished := seq :: ch.finished }))
  ∧ (∀ s tm slot seq row r ix base, runningCmd s tm slot seq = some r → mfind r.written row = some ix → row ∉ r.landed →
    let c := ucmd r.words
    c.op < 3 → c.dsp = true → parkedOf s tm = [] → (c.dst + row * c.dstr : Int) = (base : Nat) → base < 2 ^ 52 →
    (c.rcw = 0xFFFFFFFF ∨ c.rcw + 4 ≤ (getTeam s tm).scrsize) →
    ∃ t, exec (.rowLanding tm slot seq row) s = .next t ∧ t.mem = s.mem
      ∧ (∀ g, isFull (getTeam t tm) g = (isFull (getTeam s tm) g || decide (g ∈ granules base c.rowBytes)))
      ∧ (c.rcw ≠ 0xFFFFFFFF → scrWord (getTeam t tm) c.rcw = (scrWord (getTeam s tm) c.rcw + 1) % 2 ^ 32)
      ∧ (∀ x, (c.rcw = 0xFFFFFFFF ∨ x < c.rcw ∨ c.rcw + 4 ≤ x) → scrByte (getTeam t tm) x = scrByte (getTeam s tm) x)
      ∧ (r.landed.length + 1 < c.total → runningCmd t tm slot seq = some { r with landed := row :: r.landed })
      ∧ (r.landed.length + 1 = c.total → (chainOf t tm slot).finished = seq :: (chainOf s tm slot).finished))
  ∧ (∀ s tm slot b d lines s1, (chainOf s tm slot).bound = some b → mhas s.teams tm = true →
    let c := chainOf s tm slot
    d = doneTo c.finished.length c.finished c.done → d ≠ c.done →
    rangeWrite s (umberAcc s tm slot d) 1 b.2.2 (leBytes 8 d) 4 = (.ok lines, s1) → s1.teams = s.teams →
    ∃ t, exec (.completionWordWrite tm slot) s = .next t ∧ t.mem = s1.mem
      ∧ chainOf t tm slot = { c with done := d, finished := c.finished.filter fun x => decide (d < x) }
      ∧ (∀ q, c.done < q → q ≤ d → q ∈ c.finished))
  ∧ (∀ s gid op o slot n b, (getGroup s gid).ops.find? (fun x => x.id == op) = some o → o.stage = .cqadv slot n →
    let c := chainOf s (teamKey gid) slot
    cqBehind (getGroup s gid) op slot = false → c.bound = some b → n ≤ 2 ^ b.2.1 → mhas s.teams (teamKey gid) = true →
    let u := umberAcc s (teamKey gid) slot 0
    let may := binPending s u c = false ∧ c.tail + n - c.done ≤ 2 ^ b.2.1
    let away := ∃ q, c.tail < q ∧ q ≤ c.tail + n ∧ slotCtl s u b q = none
    (¬ may → exec (.chainAdvance gid op) s = .next s)
    ∧ (may → away → ∃ t, exec (.chainAdvance gid op) s = .next t ∧ t.mem = s.mem ∧ t.groups = s.groups ∧ t.teams = s.teams)
    ∧ (may → ¬ away → ∃ t, exec (.chainAdvance gid op) s = .next t ∧ t.mem = s.mem ∧ (∀ y k, regOf t y k = regOf s y k)
        ∧ (chainOf t (teamKey gid) slot).tail = c.tail + n ∧ (chainOf t (teamKey gid) slot).done = c.done
        ∧ ((getGroup t gid).ops.find? fun x => x.id == op) = some { o with stage := .done }))

/-- R335 to R337: HEAD begins a new run on an idle chain without an error; TAIL releases the cards up to it, unless it names
one accepted in this run; clearing an error makes the chain idle. A function that is not enabled takes no write. -/
def Obligations.HostChains : Prop :=
  ∀ s p h, let c := getHc (getPart s p) h
    let ends := fun (r : Res) (d : HostChain) => ∃ t, r = .next t ∧ { t with parts := s.parts } = s
      ∧ (∀ n, n ≠ p → mfind t.parts n = mfind s.parts n)
      ∧ getHc (getPart t p) h = d ∧ (∀ n, n ≠ h → getHc (getPart t p) n = getHc (getPart s p) n)
      ∧ { getPart t p with chains := (getPart s p).chains } = getPart s p
    let open_ := p < 8 ∧ h < 32 ∧ (getPart s p).en = true
    let idle := c.run = false ∨ c.cur = c.tail
    (open_ → ∀ (v : Dword) l, l < 2 →
      ends (exec (.headWrite p h v) s)
        (if idle ∧ c.err = false then { c with head := v.toNat, cur := 0, past := [], upto := none, run := true } else c)
      ∧ ends (exec (.tailWrite p h ⟨l, v⟩) s)
        { c with tail := v.toNat, upto := if c.run = true ∧ c.err = false ∧ v.toNat ∉ c.past then some v.toNat else c.upto })
    ∧ (open_ → c.err = true → ends (exec (.chainErrClear p h) s) { c with err := false, ecode := 0, run := false, upto := none })
    ∧ (open_ → c.err = false → exec (.chainErrClear p h) s = .next s)
    ∧ (¬ open_ → ∀ (v : Dword) (l : Nat), exec (.headWrite p h v) s = .next s ∧ exec (.tailWrite p h ⟨l, v⟩) s = .next s
        ∧ exec (.chainErrClear p h) s = .next s)
    ∧ (∀ (v : Dword) (l : Nat), 2 ≤ l → exec (.tailWrite p h ⟨l, v⟩) s = .next s)

/-- A card that Carmine reads at `va`, legal (R143), with the launch header of a grid: the state after. -/
structure Sys2Proof.CardAt (s : State) (p va : Nat) (bs : List Byte) (hdr : Option Header) (s2 : State) : Prop where
  read  : ∃ s1, rangeRead s (carmineAcc s p) 4 va 128 4 = (.ok bs, s1) ∧
    if (cardOf bs).kind = 1 then ∃ h, hdr = some h ∧ readHeader s1 p (cardOf bs).desc = (.ok h, s2) else hdr = none ∧ s2 = s1
  legal : cardBad bs = none
  same  : s2.parts = s.parts ∧ s2.groups = s.groups

/-- The task that an accepted card is (R144, R147). -/
def Sys2Proof.newTask (q : Partition) (parent : Option Nat) (bs : List Byte) (hdr : Option Header) : Task :=
  { Task.empty with tid := q.nextTid, parent, card := cardOf bs, hdr, st := .waiting, order := q.accepted }

/-- R143, R147, R148, R165, R336, R337: a legal card is accepted: its task enters the window under the next identifier,
with a read-after-write edge from every task of the window that writes a byte it reads, and other edges where one of two
regions that share a byte is written. A card with a faulty field enters as FAULTED. A misaligned card stops its chain. The
TASK that named the card completes with the identifier. -/
def Obligations.CardAcceptance : Prop :=
  let edges := fun (q t : Partition) (k : Task) => ∀ e ∈ q.window, ∀ (i j : Nat) (a b : Region),
    e.card.regions[i]? = some a → k.card.regions[j]? = some b → a.mode ≠ 0 → b.mode ≠ 0 →
    (∃ x, a.base ≤ x ∧ x < a.base + a.len ∧ b.base ≤ x ∧ x < b.base + b.len) →
    (2 ≤ a.mode → b.mode % 2 = 1 → ∃ x ∈ t.edges, x.src = e.tid ∧ x.dst = k.tid ∧ x.raw = true ∧ x.counts = true ∧ x.region = j)
    ∧ ((a.mode % 2 = 1 ∨ 2 ≤ a.mode) → 2 ≤ b.mode → ∃ x ∈ t.edges, x.src = e.tid ∧ x.dst = k.tid ∧ x.raw = false)
  (∀ s p h va last s0, windowOpen (getPart s p) = true →
    let q := getPart s p
    let c := getHc q h
    c.upto = some last → nextCard s p c = (.ok va, s0) → s0.parts = s.parts → s0.groups = s.groups →
    (c.past = [] ∨ va ≠ 0) →
    (va % 128 ≠ 0 → ∃ t, exec (.cardAccept p (.chain h)) s = .next t ∧ getHc (getPart t p) h = { c with err := true, ecode := 1, upto := none }
        ∧ (getPart t p).window = q.window)
    ∧ (va % 128 = 0 → ∀ bs hdr s2, CardAt s0 p va bs hdr s2 →
        let k := newTask q none bs hdr
        ∃ t, exec (.cardAccept p (.chain h)) s = .next t ∧ t.mem = s2.mem ∧ (getPart t p).window = q.window ++ [k]
          ∧ (getPart t p).nextTid = (if k.tid = 2 ^ 32 - 1 then 1 else k.tid + 1)
          ∧ getHc (getPart t p) h = { c with cur := va, past := va :: c.past, upto := if va = last then none else some last }
          ∧ edges q (getPart t p) k)
    ∧ (va % 128 = 0 → ∀ bs s1 off, rangeRead s0 (carmineAcc s0 p) 4 va 128 4 = (.ok bs, s1) → s1.parts = s.parts →
        cardBad bs = some off → (∀ k ∈ q.window, k.tid ≠ q.nextTid) → (∀ e ∈ q.edges, e.dst ≠ q.nextTid) →
        ∃ t k, exec (.cardAccept p (.chain h)) s = .next t ∧ findTask t p q.nextTid = some k ∧ k.st = .decided
          ∧ k.fate = some ⟨2, ⟨8, 3, BitVec.ofNat 32 off, 0, 0xFFFFFFFF#32⟩⟩))
  ∧ (∀ s p gid op o dest card bs hdr s2, windowOpen (getPart s p) = true →
    (getGroup s gid).ops.find? (fun x => x.id == op) = some o → o.stage = .task dest card → dest < 128 → o.writes = [] → o.lost = [] →
    (getTeam s (teamKey gid)).part = p → (s2.teams = s.teams) → CardAt s p card bs hdr s2 →
    let q := getPart s p
    let me := (getTeam s (teamKey gid)).tid
    let k := newTask q (some me) bs hdr
    ∃ t, exec (.cardAccept p (.task gid op)) s = .next t ∧ t.mem = s2.mem ∧ (getPart t p).window = q.window ++ [k]
      ∧ (getPart t p).children = q.children ++ [⟨me, q.nextTid, none, false⟩]
      ∧ ((getGroup t gid).ops.find? fun x => x.id == op)
          = some { o with stage := .done, writes := [(sKey dest, BitVec.ofNat 32 q.nextTid)] })

/-- R144, R147, R149, R154, R156, R160, R163: a task's steps. The first ready task in order is released, or, a non-strict one,
fires, with its operands' presence and settling in opnd; no other goes before it (R340). A group whose lanes have ended and whose operations have
completed ends, and a team with all groups and commands; the last team finishes the task, which takes the next commit number.
A stopping task at rest loses its teams and is decided, or, without a fate, starts again; one
that may not start again has its fate first. A decided task's record is
written, and the task leaves the window with its edges met; a record that cannot be written is given up, and firmware learns of
the fault. -/
def Obligations.TaskSteps : Prop :=
  (∀ s p tid k, findTask s p tid = some k →
    let q := getPart s p
    let first := ∀ u ∈ q.window, isReady q u = true ∨ mayFire q u = true → readyBefore u k = false
    (isReady q k = true → first →
      ∃ t, exec (.taskRelease p tid) s = .next t ∧ { t with parts := s.parts } = s
        ∧ findTask t p tid = some { k with st := .released, code := codeAt s p k })
    ∧ ((isReady q k = false ∨ ¬ first) → exec (.taskRelease p tid) s = .next s)
    ∧ (mayFire q k = true → first → (∀ u ∈ q.window, u.card.wdr = false) → ∃ t k', exec (.fire p tid) s = .next t
        ∧ findTask t p tid = some k' ∧ k'.st = .released ∧ { k' with st := k.st, opnd := k.opnd, code := k.code } = k
        ∧ k'.code = codeAt s p k
        ∧ ∀ i, i < 8 → k'.opnd.getLsbD (8 + i) = (bitOf k.card.opmask i && operandPresent q k i)
          ∧ k'.opnd.getLsbD i = (bitOf k.card.opmask i && operandSettled q k i))
    ∧ ((mayFire q k = false ∨ ¬ first) → exec (.fire p tid) s = .next s)
    ∧ (∀ f l1 s1 l2 s2, k.st = .decided → k.fate = some f → k.card.crec % 32 = 0 → (f.status = 1 ∨ f.status = 4) →
      let c := carmineAcc s p
      rangeWrite s c 4 (k.card.crec + 4) (recordBody k f) 4 = (.ok l1, s1) →
      rangeWrite s1 c 4 k.card.crec (leBytes 4 (f.status + (if k.taint then 8 else 0) + 16 * k.restarts
        + f.cause.group * 2 ^ 8 + f.cause.code * 2 ^ 13)) 4 = (.ok l2, s2) → s2.parts = s.parts →
      ∃ t, exec (.recordWrite p tid) s = .next t ∧ t.mem = s2.mem
        ∧ (getPart t p).window = q.window.filter (fun x => x.tid != tid)
        ∧ (tid ≠ 0 → ∀ e ∈ (getPart t p).edges, e.src ≠ tid ∧ e.dst ≠ tid)
        ∧ (∀ e ∈ q.edges, e.src = tid → e.dst ≠ tid → ∃ e' ∈ (getPart t p).edges, e'.dst = e.dst ∧ e'.met = true ∧ e'.raw = e.raw)
        ∧ (∀ x ∈ (getPart t p).children, x.child = tid → x.stat.isSome = true))
    ∧ (∀ f, k.st = .decided → k.fate = some f → k.card.crec % 32 ≠ 0 →
      ∃ t w, exec (.recordWrite p tid) s = .next t ∧ t.mem = s.mem
        ∧ (getPart t p).window.map (·.tid) = (q.window.map (·.tid)).filter (fun x => x != tid)
        ∧ (p, (⟨2, 3, BitVec.ofNat 32 k.card.crec, w, 0xFFFFFFFF#32⟩ : TrapRec)) ∈ t.mgmt.faults)
    ∧ (k.st = .stopping → taskAtRest s p tid = true → (k.fate = none → mayRestart k = true) → ∃ t, exec (.taskLevelStop p tid) s = .next t
        ∧ (∀ x tm, (x, tm) ∈ t.teams → ¬ (tm.part = p ∧ tm.tid = tid)) ∧ t.mem = s.mem
        ∧ (k.fate.isSome = true → findTask t p tid = some { k with st := .decided, ver := [], lines := [] })
        ∧ (k.fate = none → findTask t p tid = some
          { k with st := .released, ver := [], lines := [], code := codeAt s p k, restarts := k.restarts + 1, admitted := 0,
                   retired := 0, desc := [], pos := 0, total := 0, strike := none }))
    ∧ (k.st = .stopping → taskAtRest s p tid = true → k.fate = none → mayRestart k = false →
      ∃ t k', exec (.taskLevelStop p tid) s = .next t ∧ t.mem = s.mem ∧ findTask t p tid = some k' ∧ k'.st = .stopping
        ∧ k'.fate = some (strikeFate k (k.strike.getD ⟨9, 6, 0, 0, 0⟩)))
    ∧ ((k.st ≠ .stopping ∨ taskAtRest s p tid = false) → exec (.taskLevelStop p tid) s = .next s)
    ∧ (∀ tk tm, mfind s.teams tk = some tm → tm.part = p → tm.tid = tid → teamGroups s tk = [] → chainsDone tm = true →
      k.st = .released → ∃ t k', exec (.teamEnd tk) s = .next t ∧ mfind t.teams tk = none ∧ findTask t p tid = some k'
        ∧ k'.retired = k.retired + 1
        ∧ (k.retired + 1 = gridTeams k.header → k'.st = .decided ∧ k'.fate.map (·.status) = some 1 ∧ k'.cseq = q.nextCseq
            ∧ k'.ver = [])
        ∧ (k.retired + 1 ≠ gridTeams k.header → k'.st = .released ∧ t.mem = s.mem)))
  ∧ (∀ s gid g, mfind s.groups gid = some g → mhas s.teams (teamKey gid) = true →
    (g.splits = [] → g.ops = [] → isEvicted g = false → ∃ t, exec (.groupEnd gid) s = .next t ∧ mfind t.groups gid = none
      ∧ (∀ x, x ≠ gid → mfind t.groups x = mfind s.groups x) ∧ t.mem = s.mem
      ∧ (getTeam t (teamKey gid)).ended = (getTeam s (teamKey gid)).ended + 1)
    ∧ ((g.splits ≠ [] ∨ g.ops ≠ []) → exec (.groupEnd gid) s = .next s))

/-- R9, R11, R12, R340, R342, R343, R289, R348: the head grid's next batch goes to the die with the most free slots, at most
64 teams. The batch's first team starts on its core in the entry state: its scratchpad and place, and every group with
pc 0, all lanes active, fmt 0, parameters in s0 and s1, its index in s2 and the team's in s3, every other register zero,
generators seeded. A co-resident set is admitted whole, with its barrier records, or not at all. A grid barrier arrival
counts at its set's record, whose last flips the phase and wakes the set's parked splits, but for those whose group is evicted,
halting or, outside its handler split, in handler mode (R368, R372, R373), and those of a stopping task. -/
def Obligations.TeamDispatch : Prop :=
  (∀ s p k, headGrid (getPart s p) = some k → liveBatches (getPart s p) = [] → k.header.col = 0 → k.header.gang = 0 →
    let q := getPart s p
    let fs := freeSlots s p k
    ((∀ d n, mfind fs d = some n → n = 0) → exec (.dispatchBatch p) s = .next s)
    ∧ (∀ d n, mfind fs d = some n → 0 < n → (∀ e m, mfind fs e = some m → m < n ∨ (m = n ∧ d ≤ e)) →
      ∃ t, exec (.dispatchBatch p) s = .next t ∧ { t with parts := s.parts } = s
        ∧ getPart t p = { q with batch := [⟨k.tid, d,
            (rangeFrom k.admitted (min 64 (min (gridTeams k.header - k.admitted) n))).map (teamIndex k.header)⟩] }))
  ∧ (∀ s p b rest c slot o qb room, liveBatches (getPart s p) = b :: rest →
    let k := getTask s p b.tid
    let h := k.header
    coreFor s p k b.die = some c → freeTeamSlot s c = some slot → fitTeam (roomOf s c) h = some (o, qb, room) →
    h.exts.getD 1 1 ≤ 32 → (∃ u, findTask s p b.tid = some u) →
    let tk := 8 * c + slot
    let idx := b.teams.headD 0
    ∃ t, exec (.teamAdmit p) s = .next t ∧ ((getCore s c).carve = h.carve ∨ (∀ g ∈ s.own, g.2.core ≠ c) → t.mem = s.mem)
      ∧ findTask t p b.tid = some { k with admitted := k.admitted + 1 }
      ∧ (getPart t p).batch = { b with teams := b.teams.drop 1 } :: rest
      ∧ (∃ tm, mfind t.teams tk = some tm ∧ tm.part = p ∧ tm.tid = b.tid ∧ tm.linear = idx ∧ tm.core = c ∧ tm.slot = slot
          ∧ tm.ngrp = h.exts.getD 1 1 ∧ tm.prio = k.card.prio ∧ tm.scrbase = o ∧ tm.scrsize = h.scr ∧ tm.scr = [] ∧ tm.full = []
          ∧ tm.chains = [] ∧ tm.slate = none)
      ∧ (∀ x, x ≠ tk → mfind t.teams x = mfind s.teams x)
      ∧ ∀ w, w < h.exts.getD 1 1 → ∃ g x, mfind t.groups (32 * tk + w) = some g ∧ g.w1 = w ∧ g.quota = h.quota
          ∧ g.splits = [x] ∧ x.pc = 0 ∧ x.active = 0xFFFFFFFF ∧ x.fmt = 0 ∧ x.pend = none ∧ x.park = .none
          ∧ g.entries = [] ∧ g.ops = [] ∧ g.flags = [] ∧ g.cursors = [] ∧ g.exited = 0 ∧ g.handler = none
          ∧ (∀ r, mget g.regs r 0 = if r = sKey 0 then BitVec.ofNat 32 h.param else if r = sKey 1 then BitVec.ofNat 32 (h.param / 2 ^ 32)
              else if r = sKey 2 then BitVec.ofNat 32 w else if r = sKey 3 then BitVec.ofNat 32 idx else 0)
          ∧ ∀ l, l < 32 → mget g.lg l 0
              = seedLane (BitVec.ofNat 64 h.seed) (BitVec.ofNat 64 (l + w * 2 ^ 5 + idx * 2 ^ (5 + h.widths.getD 1 0))))
  ∧ (∀ s p k, headGrid (getPart s p) = some k → findTask s p k.tid = some k → k.header.col ≠ 0 → cannotFit s p k.header = false →
    liveBatches (getPart s p) = [] →
    let set := setTeams k.header k.header.col
    k.admitted % set = 0 →
    ∃ t, exec (.dispatchBatch p) s = .next t ∧ (t = s ∨
      ((∃ k', findTask t p k.tid = some k' ∧ k'.admitted = k.admitted + set)
        ∧ ∀ b ∈ gbarsFor k.header k.tid k.admitted, b ∈ (getPart t p).gbars)))
  ∧ (∀ s p idx m, (getPart s p).msgs[idx]? = some m →
    let q := getPart s p
    let set := setOf (getTask s p m.tid).header m.linear m.level
    let hit := fun r : GbarRec => r.tid == m.tid && r.level == m.level && r.set == set
    let after := fun r : GbarRec => if r.arr + m.lanes < r.exp then { r with arr := r.arr + m.lanes }
      else { r with arr := 0, phase := !r.phase }
    ∃ t, exec (.gbarArrival p idx) s = .next t ∧ t.mem = s.mem ∧ (∀ y k, regOf t y k = regOf s y k)
      ∧ getPart t p = { q with msgs := q.msgs.eraseIdx idx, gbars := q.gbars.map fun r => if hit r then after r else r }
      ∧ ∀ gid g (j : Nat) (x : Split) ph, gid ∈ groupsOf s p m.tid → mfind s.groups gid = some g → wakesNow s gid x = true → g.splits[j]? = some x →
          x.park = .gbar m.level ph →
          setOf (getTask s p m.tid).header (getTeam s (teamKey gid)).linear m.level = set →
          (∃ r, q.gbars.find? hit = some r ∧ (after r).phase ≠ ph) →
          (getGroup t gid).splits[j]?.map (·.park) = some .none)

/-- R302, R344 to R347, R385: an eviction asks groups of lower priority on one core to stop. A group that has drained goes
to its record, which holds its s and v registers and its splits, and leaves, and an RQUOTA towards it ends with no effect;
it returns from its record with those registers; a halted group's record stays as its debugger left it. A team on a leaving core is asked to stop; once its groups have left and no
command of it runs it stands on its new core. -/
def Obligations.GroupMoves : Prop :=
  (∀ s p k c need, needsEviction s p = some k → evictCore s p k = some (c, need) →
    ∃ t, exec (.partialEviction p) s = .next t ∧ t.mem = s.mem ∧ t.teams = s.teams
      ∧ (getPart t p).evictor = some (c, k.tid)
      ∧ ∀ gid g, mfind s.groups gid = some g → mfind t.groups gid = some g
          ∨ (gid / 256 = c ∧ g.res = .resident ∧ (getTeam s (teamKey gid)).prio < k.card.prio
            ∧ mfind t.groups gid = some { g with res := .stopping, splits := g.splits.map askStop }))
  ∧ (∀ s gid g lines s1, mfind s.groups gid = some g → g.res = .stopping → drained g = true → (∀ n, g.halt ≠ .halted n) →
    let tm := getTeam s (teamKey gid)
    let slot := (getPart s tm.part).ctxbase + 40960 * gid
    rangeWrite s (carmineAcc s tm.part) 4 slot (ctxRecord tm g) 4 = (.ok lines, s1) → s1.groups = s.groups → s1.order = s.order →
    ∃ t, exec (.evictionSave gid) s = .next t ∧ t.mem = s1.mem
      ∧ mfind t.groups gid = some { g with res := .evicted s.order gid, flags := [] }
      ∧ ∀ x h o recv n dest, x ≠ gid → mfind s.groups x = some h → o ∈ h.ops → o.stage = .rquota recv n dest →
          32 * teamKey x + recv = gid →
          ∃ h', mfind t.groups x = some h' ∧ h'.quota = h.quota
            ∧ { o with stage := .done, writes := lateWrites o (qKey dest) 0 } ∈ h'.ops)
  ∧ (∀ s gid g slot, mfind s.groups gid = some g → g.res = .stopping → drained g = true → g.halt = .halted slot →
    ∃ t, exec (.evictionSave gid) s = .next t ∧ t.mem = s.mem
      ∧ mfind t.groups gid = some { g with res := .evicted s.order slot, flags := [] })
  ∧ (∀ (tm : Team) (g : Group), g.splits.length ≤ 4 → g.entries.length ≤ 32 →
    let word := fun at_ => leNat (((ctxRecord tm g).drop at_).take 4)
    (∀ i, i < 128 → word (0x40 + 4 * i) = (mget g.regs (sKey i) 0).toNat)
    ∧ (∀ r l, r < 8 * g.quota → l < 32 → word (0x2000 + 128 * r + 4 * l) = (mget g.regs (vKey l r) 0).toNat)
    ∧ (∀ k x, g.splits[k]? = some x → word (0x240 + 32 * k) = x.pc.toNat ∧ word (0x244 + 32 * k) = x.active.toNat
        ∧ word (0x248 + 32 * k) = x.fmt.toNat))
  ∧ (∀ s gid g o slot bs s1, mfind s.groups gid = some g → g.res = .evicted o slot → mayReturn s gid = true →
    let tm := getTeam s (teamKey gid)
    rangeRead s (carmineAcc s tm.part) 4 ((getPart s tm.part).ctxbase + 40960 * slot) (0x2000 + 1024 * g.quota) 4 = (.ok bs, s1) →
    s1.groups = s.groups → g.quota ≤ 32 →
    let word := fun at_ => BitVec.ofNat 32 (leNat ((bs.drop at_).take 4))
    ∃ t, exec (.groupReturn gid) s = .next t ∧ t.mem = s1.mem ∧ (getGroup t gid).res = .resident
      ∧ (∀ i, i < 128 → regOf t gid (sKey i) = word (0x40 + 4 * i))
      ∧ (∀ r l, r < 8 * g.quota → l < 32 → regOf t gid (vKey l r) = word (0x2000 + 128 * r + 4 * l)))
  ∧ (∀ s tk tm, mfind s.teams tk = some tm → mustMove s tm = true →
    (moveTo s tm = none → tm.moving = true → ∃ t, exec (.teamMove tk) s = .next t
        ∧ mfind t.teams tk = some { tm with moving := false } ∧ t.groups = s.groups)
    ∧ (∀ core qb, moveTo s tm = some (core, qb) → tm.moving = false → ∃ t, exec (.teamMove tk) s = .next t
        ∧ mfind t.teams tk = some { tm with moving := true }
        ∧ ∀ gid g, mfind s.groups gid = some g → teamKey gid = tk → g.res = .resident →
            mfind t.groups gid = some { g with res := .stopping, splits := g.splits.map askStop })
    ∧ (∀ core qb slot, moveTo s tm = some (core, qb) → tm.moving = true → freeTeamSlot s core = some slot →
      (∀ gid g, mfind s.groups gid = some g → teamKey gid = tk → isEvicted g = true) → umberIdle tm = true →
      mwf s.groups = true →
      ∃ t, exec (.teamMove tk) s = .next t ∧ ((∀ g ∈ s.own, g.2.core ≠ core) → t.mem = s.mem)
        ∧ mfind t.teams (8 * core + slot) = some { tm with core, slot, qb, moving := false }
        ∧ (tk ≠ 8 * core + slot → mfind t.teams tk = none)
        ∧ ∀ w g, w < 32 → mfind s.groups (32 * tk + w) = some g → mfind t.groups (32 * (8 * core + slot) + w) = some (movedGroup g)))

/-- R146, R98 to R100, R340: a bulk task's steps. With a legal descriptor BULK-COPY and BULK-CONVERT move a piece at a time
from SRC to DST, the same bytes or the converted elements (a generator under SR, and the spare bits of the last byte, free);
GBUILD adds the next record's edge to both lists, now or after; GDUMP writes the next vertex's list. Behind the last piece
the task is done. A copy's faulty descriptor is TASK, BULK. -/
def Obligations.BulkTasks : Prop :=
  (∀ s p tid k, findTask s p tid = some k →
    let q := getPart s p
    let n := dDword k 6
    let kept := fun t : State => (getPart t p).window = q.window
    let moves := fun (mk : Nat → Nat → Instr) (kind : Nat) => k.card.kind = kind → bulkTurn q [2, 3] k = true →
      (k.desc = [] → ∀ bs s1, k.card.desc % 64 = 0 →
        rangeRead s { carmineAcc s p with tid } 4 k.card.desc 64 4 = (.ok bs, s1) → s1.parts = s.parts →
        let d := { k with desc := (List.range 16).map fun i => BitVec.ofNat 32 (leNat ((bs.drop (4 * i)).take 4)) }
        (bulkBad d = [] → ∃ t, exec (mk p tid) s = .next t ∧ findTask t p tid = some d ∧ t.mem = s1.mem)
        ∧ (∀ off, bulkBad d = [off] → k.fate = none → ∃ t k', exec (mk p tid) s = .next t ∧ findTask t p tid = some k'
            ∧ k'.fate.map (·.cause) = some ⟨8, 7, BitVec.ofNat 32 off, 0, 0xFFFFFFFF#32⟩ ∧ k'.fate.map (·.status) = some 2))
      ∧ (k.desc ≠ [] → n ≤ k.pos → ∃ t k', exec (mk p tid) s = .next t ∧ findTask t p tid = some k' ∧ k'.st = .decided
          ∧ k'.fate.map (·.status) = some 1)
    moves .bulkCopy 2 ∧ moves .bulkConvert 3
    ∧ (k.card.kind = 2 → bulkTurn q [2, 3] k = true → k.desc ≠ [] → k.pos < n →
      let a := dDword k 2 + k.pos
      let b := dDword k 4 + k.pos
      let m := min (n - k.pos) (min (2 ^ 16 - a % 2 ^ 16) (2 ^ 16 - b % 2 ^ 16))
      ∀ c s1 bs s2 ls s3, bulkAcc s p tid 1 = (c, s1) → rangeRead s1 c 1 a m 4 = (.ok bs, s2) →
      rangeWrite s2 c 1 b bs 4 = (.ok ls, s3) →
      ∃ t, exec (.bulkCopy p tid) s = .next t ∧ t.mem = s3.mem
        ∧ findTask t p tid = (findTask s3 p tid).map fun x => { x with pos := k.pos + m })
    ∧ (k.card.kind = 3 → bulkTurn q [2, 3] k = true → k.desc ≠ [] → k.pos < n →
      let ctl := dWord k 0
      let sf := ctl % 16
      let df := ctl / 16 % 16
      let m := min 32 (n - k.pos)
      let a := dDword k 2 + k.pos * bulkBits sf / 8
      let b := dDword k 4 + k.pos * bulkBits df / 8
      let rc : RCtx := ⟨ctl / 2 ^ 8 % 8, bitOf ctl 11, false, none⟩
      elemMisaligned (bulkBits sf) a = false → elemMisaligned (bulkBits df) b = false →
      ∀ c s1 bs s2, bulkAcc s p tid 1 = (c, s1) → rangeRead s1 c 1 a ((m * bulkBits sf + 7) / 8) 4 = (.ok bs, s2) →
      ∃ (lg : Nat → Dword) (spare fresh : Nat), (m * bulkBits df % 8 = 0 → spare = 0) ∧
        let out := packBits (bulkBits df) ((unpackBits (bulkBits sf) m (leNat bs)).mapIdx fun j x => bulkElem rc sf df x (lg j))
        ∀ ls s3, rangeWrite { s2 with fresh } c 1 b (leBytes ((m * bulkBits df + 7) / 8) (out + spare * 2 ^ (m * bulkBits df))) 4
            = (.ok ls, s3) →
          ∃ t, exec (.bulkConvert p tid) s = .next t ∧ t.mem = s3.mem
            ∧ findTask t p tid = (findTask s3 p tid).map fun x => { x with pos := k.pos + m })
    ∧ (halfBuilt k = true → ∃ t, exec (.gbuild p tid) s = .next t ∧ findTask t p tid = some { k with desc := k.desc.take 18 }
        ∧ t.pools = (graphFinish s p [wordsHalf k]).pools ∧ t.mem = s.mem)
    ∧ (∀ c s1 g s2 s3, k.desc ≠ [] → bulkTurn q [4, 5] k = true → bulkAcc s p tid 3 = (c, s1) → c.p = p → c.tid = tid →
      bulkGraph s1 c k = (.ok g, s2) → poolAccess s2 c g (k.card.kind == 4) 0 [] = (none, s3) → kept s3 →
      (k.card.kind = 4 → halfBuilt k = false → 16 ≤ k.desc.length →
        (dDword k 4 ≤ k.pos → ∃ t k', exec (.gbuild p tid) s = .next t ∧ findTask t p tid = some k' ∧ k'.st = .decided
          ∧ k'.fate.map (·.status) = some 1)
        ∧ (k.pos < dDword k 4 →
          let pb := if g.psz = 0 then 0 else if g.psz = 1 then 4 else 8
          let a := dDword k 2 + k.pos * (8 + pb)
          ∀ bs s4 s6 s5, a % 4 = 0 → rangeRead s3 c 3 a (8 + pb) 4 = (.ok bs, s4) → kept s4 →
          let u := leNat (bs.take 4)
          let v := leNat ((bs.drop 4).take 4)
          let pay := leNat (bs.drop 8)
          let ser := (getList s5 p g (listNo u false)).ctr
          bs.length = 8 + pb → u < g.vlim → v < g.vlim →
          (0 < k.pos → dWord k 16 < u ∨ (dWord k 16 = u ∧ dWord k 17 ≤ v)) →
          poolAccess s4 c g true 0 (listNo u false :: (if g.dirs then [listNo v true] else [])) = (none, s6) → kept s6 →
          openPool (settleHalves s6 p fun _ h => awaits g (listNo u false) h) p g = (true, s5) → kept s5 →
          (∃ x, s5.pools.find? (poolIs p g) = some x ∧ s5.pools.find? (fun x => x.part == p && x.pbase == g.pbase) = some x) →
          ser ≠ 0xFFFFFFFF → degreeDue s5 p g (listNo u false) < 2 ^ 28 →
          (g.dirs = true → degreeDue s5 p g (listNo v true) < 2 ^ 28) → g.kept ≤ freeBlocks s5 p g →
          ∃ t k' o, exec (.gbuild p tid) s = .next t ∧ findTask t p tid = some k' ∧ k'.pos = k.pos + 1
            ∧ dWord k' 16 = u ∧ dWord k' 17 = v ∧ (getList t p g (listNo u false)).ctr = ser + 1
            ∧ EdgeDone s5 t p g o u v (fun x => entInsert x (v, ser, pay)) (fun x => entInsert x (u, ser, pay))
            ∧ (o.stage = .done ↔ halfBuilt k' = false)))
      ∧ (k.card.kind = 5 →
        let lo := dDword k 4
        let hi := dDword k 6
        (hi ≤ lo + k.pos → lo ≠ hi → k.desc.length = 16 → ∃ t k', exec (.gdump p tid) s = .next t
          ∧ findTask t p tid = some k' ∧ k'.st = .decided ∧ k'.fate.map (·.status) = some 1)
        ∧ (lo + k.pos < hi → ∀ x s6 s4 s5, let n := listNo (lo + k.pos) (bitOf (dWord k 0) 16)
          poolAccess s3 c g false 0 [n] = (none, s6) → kept s6 → readList s6 p g n = (some x, s4) →
          dumpList c k g x s4 = .ok s5 → kept s5 → k.total + x.ents.length ≤ dDword k 10 →
          ∃ t, exec (.gdump p tid) s = .next t ∧ t.mem = s5.mem
            ∧ findTask t p tid = some { k with pos := k.pos + 1, total := k.total + x.ents.length }))))

/-- R360, R373 to R375: DBGCTL.HALT asks every running group of a partition to halt; a drained group goes to its record and
its notice to the ring once there is room, unless the partition does not hold the ring's granule, which firmware learns (R387);
DBGRES, naming the record's slot, lets it go on. Correctable errors count up to 0x7FFF; an uncorrectable one
in a clean copy or a code cache changes nothing, in device memory poisons its block, elsewhere kills the task, or
restarts one that may be. A task for whose page no frame is found is KILLED with MEM, NOFRAME. -/
def Obligations.DebugAndErrors : Prop :=
  let runs := fun s : State => s.mgmt.boot ≠ .failed
  let struck := fun (s t : State) (p tid : Nat) (c : TrapRec) => ∀ k, findTask s p tid = some k → k.st = .released → k.fate = none →
    let again := k.card.ver = true ∧ k.card.idem = true ∧ k.taint = false ∧ k.settled = [] ∧ k.restarts < 3
    ∃ k', findTask t p tid = some k' ∧ k'.st = .stopping
      ∧ (again → k'.fate = none)
      ∧ (¬ again → k'.fate = some ⟨3, { c with d2 := BitVec.ofNat 32 k.restarts }⟩)
  (∀ s p, (runs s → ∃ t, exec (.dbgctlHalt p) s = .next t ∧ { t with groups := s.groups } = s
        ∧ ∀ gid g, mfind s.groups gid = some g → mfind t.groups gid = some
          (if gid ∈ groupsIn s p ∧ g.halt = .running
            then { g with halt := .stopping 2 0xFFFFFFFF, splits := g.splits.map askStop } else g))
    ∧ (¬ runs s → exec (.dbgctlHalt p) s = .next s))
  ∧ (∀ s gid g cause pc lines s1, mfind s.groups gid = some g → g.res = .resident → g.halt = .stopping cause pc → drained g = true →
    let tm := getTeam s (teamKey gid)
    let q := getPart s tm.part
    let slots := 2 ^ (if 4 ≤ q.dbgrlen ∧ q.dbgrlen ≤ 12 then q.dbgrlen else 4)
    let room := (q.dbgput + 2 ^ 32 - q.dbgget) % 2 ^ 32 ≠ slots
    let at_ := q.dbgring + 64 * (q.dbgput % slots)
    rangeWrite s (carmineAcc s tm.part) 4 (q.ctxbase + 40960 * gid) (ctxRecord tm g) 4 = (.ok lines, s1) →
    s1.groups = s.groups → s1.parts = s.parts → s1.teams = s.teams → Calm s1 →
    ∃ t, exec (.debugHalt gid) s = .next t
      ∧ (¬ room → t.mem = s1.mem ∧ mfind t.groups gid = some { g with halt := .waiting cause pc } ∧ t.parts = s.parts)
      ∧ (room → holdsPhys s1 tm.part at_ = false → t.mem = s1.mem ∧ mfind t.groups gid = some { g with halt := .halted gid }
          ∧ getPart t tm.part = q
          ∧ (tm.part, (⟨13, 1, BitVec.ofNat 32 (at_ / 64), BitVec.ofNat 32 (at_ / 2 ^ 33), 0xFFFFFFFF#32⟩ : TrapRec)) ∈ t.mgmt.faults)
      ∧ (room → holdsPhys s1 tm.part at_ = true → mfind t.groups gid = some { g with halt := .halted gid }
          ∧ getPart t tm.part = { q with dbgput := (q.dbgput + 1) % 2 ^ 32 }
          ∧ leNat (readBytes t.mem at_ 4) = tm.tid % 2 ^ 32 ∧ leNat (readBytes t.mem (at_ + 16) 4) = gid % 2 ^ 32
          ∧ leNat (readBytes t.mem (at_ + 24) 4) = pc.toNat ∧ leNat (readBytes t.mem (at_ + 28) 4) = cause % 2 ^ 32
          ∧ ∀ y, (y < at_ ∨ at_ + 64 ≤ y) → readByte t.mem y = readByte s1.mem y))
  ∧ (∀ s p gid g slot bs s1, runs s → mfind s.groups gid = some g → groupsIn s p = [gid] → g.halt = .halted slot → slot < 2 ^ 32 →
    g.quota ≤ 32 →
    let tm := getTeam s (teamKey gid)
    (isEvicted g = true → ∃ t, exec (.dbgresWrite p (BitVec.ofNat 32 slot)) s = .next t
        ∧ mfind t.groups gid = some { g with halt := .running })
    ∧ (g.res = .resident → rangeRead s (carmineAcc s tm.part) 4 ((getPart s tm.part).ctxbase + 40960 * slot)
        (0x2000 + 1024 * g.quota) 4 = (.ok bs, s1) → s1.groups = s.groups → s1.teams = s.teams → s1.parts = s.parts →
      (getTask s tm.part tm.tid).st = .released → g.held = [] →
      ∃ t, exec (.dbgresWrite p (BitVec.ofNat 32 slot)) s = .next t ∧ (getGroup t gid).halt = .running
        ∧ (∀ i, i < 128 → regOf t gid (sKey i) = BitVec.ofNat 32 (leNat ((bs.drop (0x40 + 4 * i)).take 4)))
        ∧ ((getGroup t gid).handler = none → ∀ x ∈ (getGroup t gid).splits, x.stop = none ∧ x.stopped = false)))
  ∧ (∀ s, ∃ t, exec .correctableError s = .next t ∧ t = { s with mgmt := { s.mgmt with cec := min 0x7FFF (s.mgmt.cec + 1) } })
  ∧ (∀ s, exec (.uncorrectableError .cleanCopy) s = .next s ∧ exec (.uncorrectableError .icache) s = .next s)
  ∧ (∀ s pa, pa < 2 ^ 38 → s.mgmt.mig = none →
    (∃ t, exec (.uncorrectableError (.dram pa)) s = .next t ∧ { t with poison := s.poison } = s
      ∧ (mfind t.poison (pa / 512)).isSome = true)
    ∧ (∃ t, exec (.uncorrectableError (.dirtyL2 pa)) s = .next t ∧ { t with poison := s.poison } = s
      ∧ (mfind t.poison (pa / 512)).isSome = true))
  ∧ (∀ s gid reg lane, mhas s.groups gid = true →
    let tm := getTeam s (teamKey gid)
    ∃ t, exec (.uncorrectableError (.reg gid reg lane)) s = .next t ∧ t.mem = s.mem
      ∧ struck s t tm.part tm.tid ⟨9, 4, BitVec.ofNat 32 (tm.core / 64 + tm.core % 64 * 4), BitVec.ofNat 32 (32 * reg + lane), 0⟩)
  ∧ (∀ s p tid va h k, runs s → (getPart s p).held.find? (fun h => h.tid == tid && heldBase s p h.va == heldBase s p va) = some h →
    findTask s p tid = some k → k.st = .released → k.fate = none →
    ∃ t k', exec (.noframeStop p tid va) s = .next t ∧ t.mem = s.mem ∧ findTask t p tid = some k' ∧ k'.st = .stopping
      ∧ k'.fate.map (·.status) = some 3 ∧ k'.fate.map (·.cause.group) = some 2 ∧ k'.fate.map (·.cause.code) = some 9
      ∧ ∀ x ∈ (getPart t p).held, x.tid ≠ tid)

/-- R349, R361 to R363, R395, R401, R403, R114: what firmware and the host do through memory. A shoot-down is over when
every TLB it names has dropped what it covers, each once the accesses that have translated through it are home; one of a whole
partition then puts the table roots in force that stood in the registers when it began. A block of a
migration goes to its new home, whole, and reads as before; a request that reached the old home is performed at the new one;
MAPPED ends the migration.
(The model's choices: log 15, which roots are in force; log 36, firmware writes under key id 0 and the host through the
partition's tables; log 39, PART and the key id hashed as one byte each.) Writes of memory by firmware and the host store their bytes. Keys go to every channel granule
of a partition, and are erased there. -/
def Obligations.FirmwareSteps : Prop :=
  let runs := fun s : State => s.mgmt.boot ≠ .failed
  (∀ s (addr : Dword) (ctl : Word), runs s →
    let p := ctl.toNat % 8
    let d : Shootdown := ⟨p, ctl.getLsbD 3, ctl.getLsbD 4, addr.toNat, partTlbs s p, true,
      (getPart s p).trootReg, (getPart s p).s2Reg⟩
    (s.mgmt.down ≠ [] → exec (.shootdownSubmit addr ctl) s = .next s)
    ∧ (s.mgmt.down = [] → d.pending ≠ [] → exec (.shootdownSubmit addr ctl) s = .next { s with mgmt := { s.mgmt with down := [d] } }))
  ∧ (∀ s d rest x, s.mgmt.down = d :: rest →
    let covers := fun e : TlbEnt => e.part = d.part ∧ (d.all = true ∨
      if d.stage2 then e.leaf.domain = false ∧ e.leaf.guest / 2 ^ 21 = d.addr / 2 ^ 21 else e.page = pageBase e.leaf d.addr)
    ((x ∉ d.pending ∨ inFlight s d x = true) → exec (.tlbAck x) s = .next s)
    ∧ (x ∈ d.pending → inFlight s d x = false → ∃ t, exec (.tlbAck x) s = .next t ∧ t.mem = s.mem
        ∧ (∀ e, e ∈ t.tlb ↔ e ∈ s.tlb ∧ ¬ (e.at_ = x ∧ covers e))
        ∧ ((∃ y ∈ d.pending, y ≠ x) → t.mgmt.down = { d with pending := d.pending.filter (· != x) } :: rest ∧ t.parts = s.parts)
        ∧ ((∀ y ∈ d.pending, y = x) → t.mgmt.down = rest
          ∧ (d.all = true → (getPart t d.part).troot = d.troot ∧ (getPart t d.part).s2base = d.s2base)
          ∧ (d.all = false → t.parts = s.parts))))
  ∧ (∀ s d, runs s →
    (migBad s d = true → exec (.migrationSubmit d) s = .next { s with mgmt := { s.mgmt with migerr := true } })
    ∧ (migBad s d = false → exec (.migrationSubmit d) s = .next { s with mgmt := { s.mgmt with
        mig := some ⟨wDword d 0, wDword d 2, (d.getD 4 0).toNat, (d.getD 5 0).toNat % 256, (d.getD 5 0).toNat / 256 % 256, 1, 0⟩ } }))
  ∧ (∀ s m, s.mgmt.mig = some m → m.state = 1 → s.own = [] → s.mgmt.reqs = [] → m.kold = 0 → m.knew = 0 → m.pos < m.len →
    (m.new + m.len ≤ m.old ∨ m.old + m.len ≤ m.new) →
    let n := min (m.len - m.pos) (512 - (m.old + m.pos) % 512)
    ∃ t, exec .blockHandover s = .next t
      ∧ t.mgmt.mig = some { m with pos := m.pos + n, state := if m.pos + n = m.len then 2 else 1 }
      ∧ (∀ x, readByte t.mem x = if m.new + m.pos ≤ x ∧ x < m.new + m.pos + n then readByte s.mem (m.old + (x - m.new))
          else readByte s.mem x)
      ∧ (∀ x, m.old ≤ x → x < m.old + m.len → cohByte t x 0 = cohByte s x 0))
  ∧ (∀ s idx r, s.mgmt.reqs[idx]? = some r → r.key = 0 → (∀ x ∈ s.mgmt.reqs.take idx, x.pa / 512 ≠ r.pa / 512) →
    ∃ t, exec (.requestForward idx) s = .next t ∧ t.mgmt = { s.mgmt with reqs := s.mgmt.reqs.eraseIdx idx }
      ∧ ∀ x, readByte t.mem x = if r.pa ≤ x ∧ x < r.pa + r.data.length then r.data.getD (x - r.pa) 0 else readByte s.mem x)
  ∧ (∀ s m, runs s → s.mgmt.mig = some m →
    (m.state ≠ 2 → exec .migstatMapped s = .next s)
    ∧ (m.state = 2 → s.mgmt.reqs = [] → ∃ t, exec .migstatMapped s = .next t
        ∧ t.mgmt = { s.mgmt with mig := none } ∧ t.mem = s.mem ∧ t.own = s.own ∧ t.si = s.si ∧ t.teams = s.teams
        ∧ ∀ y k, regOf t y k = regOf s y k))
  ∧ (∀ s pa data, runs s → Calm s → pa + data.length ≤ 2 ^ 38 → ∃ t, exec (.firmwareMemoryWrite (.phys pa) data) s = .next t
      ∧ t.groups = s.groups ∧ (∀ p, ∃ code : Task → SMap Byte,
        getPart t p = { getPart s p with window := (getPart s p).window.map fun k => { k with code := code k } })
      ∧ ∀ x, readByte t.mem x = if pa ≤ x ∧ x < pa + data.length then data.getD (x - pa) 0 else readByte s.mem x)
  ∧ (∀ s link p va data lines s1, link < 2 → p < 8 → (getPart s p).en = true →
    rangeWrite s (carmineAcc s p) 4 va data 4 = (.ok lines, s1) →
    ∃ t, exec (.hostMemoryWrite link p va data) s = .next t ∧ t.mem = s1.mem ∧ t.groups = s1.groups)
  ∧ (∀ s r p key peer (secret : List Byte), runs s → 1 ≤ key → key < 256 → p < 8 →
    (¬ (1 ≤ r ∧ r ≤ s.mgmt.reports) → exec (.keyLoad p key peer ⟨r, secret⟩) s = .next s)
    ∧ (1 ≤ r → r ≤ s.mgmt.reports → ∃ t, exec (.keyLoad p key peer ⟨r, secret⟩) s = .next t ∧ t.mem = s.mem ∧ ∀ g, g < 32 → bitOf (getPart s p).hg g = true →
        mfind t.mgmt.keys (256 * g + key) = some (shake256 (Config.x448Shared r peer ++ secret
          ++ [BitVec.ofNat 8 p, BitVec.ofNat 8 key])))
    ∧ (∃ t, exec (.keySlotErase p key) s = .next t ∧ t.mem = s.mem ∧ (∀ g, g < 32 → bitOf (getPart s p).hg g = true →
        mfind t.mgmt.keys (256 * g + key) = none)
      ∧ ∀ k, (∀ g, g < 32 → bitOf (getPart s p).hg g = true → k ≠ 256 * g + key) → mfind t.mgmt.keys k = mfind s.mgmt.keys k))

/-- R97, R119 to R121, R133, R237, R239, R273, R292, R293, R295: where DCD, ENC, GISECT and the chain instructions complete,
with their own effect. DCD and ENC of records of fixed size that lie in the team's scratchpad, with the byte count they give;
GISECT of two open cursors over unharmed pools, with a result for each participant; CQINIT of a legal entry on an idle slot;
CQADV of a bound, idle chain by no more than the ring holds; CQWAIT of a sequence that DONE has reached; CQSEQ of a bound chain.
A chain instruction under a false guard goes on and leaves the chains as they are. -/
def Obligations.StreamAndChainForms : Prop :=
  let n := fun e : Enc => e.M 16 14 + 1
  let bytes := fun (e : Enc) (a : At) => n e *
    if e.M 9 8 = 2 then 4 * (ffOf (e.M 13 10)).bits + 1 else if fmtSCF a.sp.fmt = 3 then 18 else 17
  let ls := fun (f : Form) (e : Enc) (s : State) (a : At) => participants (book s a e) (issOf f e s a).a e
  let noCq := fun a : At => (a.g.ops.any fun o => match o.stage with | .cqinit _ _ => true | .cqadv _ _ => true | _ => false) = false
  let last := fun (t : State) (a : At) (e : Enc) => ∃ o, (getGroup t a.gid).ops.getLast? = some o ∧ o.flag = flagOf e
    ∧ o.stage = .done ∧ o.writes = []
  (∀ e s a, Clear formDcd e s a → a.sp.park = .none → 2 ≤ e.M 9 8 → e.M 18 17 = 0 →
    (uniSrc formDcd e s a).a + bytes e a ≤ a.tm.scrsize →
    ∃ t o, exec (.dcd e) s = .next t ∧ WentOn t a e ∧ Sent s t a e o ∧ o.stage = .done ∧ t.mem = s.mem
      ∧ Delivers o.writes (ls formDcd e s a) (fun l => vKey l (e.d.toNat + n e)) 1 (fun _ => bytes e a))
  ∧ (∀ e s a, Clear formEnc e s a → 2 ≤ e.M 9 8 → (uniSrc formEnc e s a).a + bytes e a ≤ a.tm.scrsize →
    ∃ t o, exec (.enc e) s = .next t ∧ WentOn t a e ∧ Sent s t a e o ∧ o.stage = .done ∧ t.mem = s.mem
      ∧ Delivers o.writes (ls formEnc e s a) (fun l => vKey l e.d.toNat) 1 (fun _ => bytes e a))
  ∧ (∀ e s a (g h : Nat → GEntry) (q r : Nat → Pool), Clear formGisect e s a → e.a.toNat < 8 → e.b.toNat < 8 →
    let k := graphCapture (book s a e) (issOf formGisect e s a) 0 0
    let ready := fun (m : Nat) (g : Nat → GEntry) (q : Nat → Pool) (l : Nat) => let x := getCur a.g l m
      x.isOpen = true ∧ x.buf = [] ∧ GraphAt s (partyOf formGisect e s a) .read x.handle (g l) (q l) ∧ x.vertex < (g l).vlim
        ∧ (x.dirIn = true → (g l).dirs = true)
    (∀ l ∈ k.lanes, ready e.a.toNat g q l ∧ ready e.b.toNat h r l) →
    ∃ t, exec (.gisect e) s = .next t ∧ WentOn t a e ∧ t.mem = s.mem ∧ SamePools s t a.tm.part
      ∧ GraphSent t a e (.gisect e) k fun o => o.stage = .done
        ∧ ∃ m : Nat → Nat, Delivers o.writes k.lanes (fun l => vKey l e.d.toNat) 1 m)
  ∧ (∀ e s a leaf, Clear formCqinit e s a → goes formCqinit e s a →
    let p := a.tm.part
    let h := (uniSrc formCqinit e s a).a
    let x := objEntry s p h
    let cwa := bitsOf x 191 128
    let c := chainOf s (teamKey a.gid) (e.M 8 8)
    Calm s → mhas s.teams (teamKey a.gid) = true → a.task.card.ver = false → (getPart s p).otcache = [] →
    holdsPhys s p (objPlace s p h) = true → chainLegal x = true → c.done = c.tail → noCq a →
    cwa + 8 ≤ 2 ^ 52 → walk s p cwa = .ok leaf → tlbHits s p a.tm.core (teamKey a.gid) cwa = [] →
    leafGate s p .write leaf anyPage = none → leaf.domain = false → leaf.sf = 0 → leaf.key = 0 →
    ∃ t d, exec (.cqinit e) s = .next t ∧ WentOn t a e ∧ last t a e
      ∧ mfind (getTeam t (teamKey a.gid)).chains (e.M 8 8) = some d ∧ d.bound = some (bitsOf x 127 64, bitsOf x 15 12, cwa)
      ∧ d.tail = 0 ∧ d.done = 0)
  ∧ (∀ e s a c b, Clear formCqadv e s a → goes formCqadv e s a → mfind a.tm.chains (e.M 8 8) = some c → c.bound = some b →
    let m := (uniSrc formCqadv e s a).b
    c.done = c.tail → m ≤ 2 ^ b.2.1 → noCq a →
    (∀ q, c.tail < q → q ≤ c.tail + m → ∀ j < 4, ∃ leaf, walk s a.tm.part (slotVa b.1 b.2.1 q + j) = .ok leaf) →
    ∃ t d, exec (.cqadv e) s = .next t ∧ WentOn t a e ∧ last t a e ∧ t.mem = s.mem
      ∧ mfind (getTeam t (teamKey a.gid)).chains (e.M 8 8) = some d ∧ d.tail = c.tail + m ∧ d.done = c.done ∧ d.bound = c.bound)
  ∧ (∀ e s a c, Clear formCqwait e s a → goes formCqwait e s a → a.sp.park = .none → mfind a.tm.chains (e.M 8 8) = some c →
    c.bound.isSome = true → (uniSrc formCqwait e s a).b ≤ c.done →
    ∃ t, exec (.cqwait e) s = .next t ∧ WentOn t a e ∧ last t a e ∧ t.mem = s.mem ∧ t.teams = s.teams)
  ∧ (∀ e s a c, Clear formCqseq e s a → goes formCqseq e s a → mfind a.tm.chains (e.M 8 8) = some c → c.bound.isSome = true →
    ∃ t o, exec (.cqseq e) s = .next t ∧ WentOn t a e ∧ Sent s t a e o ∧ o.stage = .done ∧ t.mem = s.mem
      ∧ Delivers o.writes [0] (fun _ => sKey e.d.toNat) 2 (fun _ => if e.M 9 9 = 1 then c.done else c.tail))
  ∧ (∀ f i e s a, (f, i) ∈ [(formCqinit, Instr.cqinit e), (formCqadv, .cqadv e), (formCqwait, .cqwait e), (formCqseq, .cqseq e)] →
    Clear f e s a → a.sp.park = .none → ¬ goes f e s a →
    ∃ t, exec i s = .next t ∧ WentOn t a e ∧ t.mem = s.mem ∧ t.teams = s.teams ∧ ∀ x k, regOf t x k = regOf s x k)

/-- R28, R49, R53, R54, R163, R300 to R308, R363, R368, R380: where the system instructions complete, with their own effect.
SETFMT of a legal fmt sets it; WRSR a handler register; SETCMP of a legal image its table; RQUOTA of no granule is true; TRAP and
BKPT of a grid with a handler enter it; TRET with a legal hc2 leaves it; TKILL stops the executing task; OTSET writes an entry;
PINV drops a page's entries. Under a false guard each goes on without effect, but for SETFMT's check of its fmt (R54). -/
def Obligations.SystemForms : Prop :=
  let u := fun (f : Form) (e : Enc) (s : State) (a : At) => uniSrc f e s a
  let mine := fun (t : State) (a : At) => (getGroup t a.gid).splits[a.k]?
  let enters := fun (i : Instr) (f : Form) (s : State) (e : Enc) (a : At) (cause : Nat) =>
    Clear f e s a → goes f e s a → e.ctl.hold = false → a.task.card.ver = false → a.task.header.hnd = true →
    (getPart s a.tm.part).arm = false → a.sp.handler = false → a.g.handler = none →
    ∃ t, exec i s = .next t ∧ t.mem = s.mem ∧ (mine t a).map (·.pc) = some (BitVec.ofNat 32 a.task.header.hoff)
      ∧ (mine t a).map (·.handler) = some true ∧ mget (getGroup t a.gid).hc 0 0 = nextPc a e
      ∧ mget (getGroup t a.gid).hc 1 0 = a.sp.active ∧ mget (getGroup t a.gid).hc 2 0 = a.sp.fmt
      ∧ mget (getGroup t a.gid).hc 3 0 = BitVec.ofNat 32 cause
  (∀ e s a, Clear formSetfmt e s a → goes formSetfmt e s a → fmtLegal (BitVec.ofNat 32 (u formSetfmt e s a).b) = true →
    ∃ t, exec (.setfmt e) s = .next t ∧ WentOn t a e ∧ t.mem = s.mem
      ∧ (mine t a).map (·.fmt) = some (BitVec.ofNat 32 (u formSetfmt e s a).b))
  ∧ (∀ e s a, Clear formWrsr e s a → goes formWrsr e s a → ∃ t, exec (.wrsr e) s = .next t ∧ WentOn t a e ∧ t.mem = s.mem
      ∧ mget (getGroup t a.gid).hc (e.d.toNat - 160) 0 = BitVec.ofNat 32 (u formWrsr e s a).b)
  ∧ (∀ e s a, Clear formSetcmp e s a → goes formSetcmp e s a →
    let ad := (u formSetcmp e s a).a
    let byte := fun k => scrByte a.tm (ad + k)
    let bp := fun k => leNat ((List.range 4).map fun j => byte (4 * k + j))
    let finite := fun k => match fval 0 (bp k) with | .fin _ _ _ _ => true | _ => false
    ad % 4 = 0 → ad + 80 ≤ a.tm.scrsize →
    (∀ k < 15, finite k = true ∧ (k ≠ 0 → fcompare 2 (fval 0 (bp (k - 1))) (fval 0 (bp k)) = true)) →
    (∀ k, 60 ≤ k → k < 64 → byte k = 0) → (∀ k, 64 ≤ k → k < 80 → -8 ≤ (byte k).toInt ∧ (byte k).toInt ≤ 8) →
    ∃ t o, exec (.setcmp e) s = .next t ∧ WentOn t a e ∧ Sent s t a e o ∧ o.stage = .done ∧ o.writes = [] ∧ t.mem = s.mem
      ∧ mfind (getCore t a.tm.core).tables (e.M 9 8) = some ⟨(List.range 15).map fun k => BitVec.ofNat 32 (bp k),
          (List.range 16).map fun k => (byte (64 + k)).toInt⟩)
  ∧ (∀ e s a, Clear formRquota e s a → goes formRquota e s a → (u formRquota e s a).b = 0 →
    ∃ t o, exec (.rquota e) s = .next t ∧ WentOn t a e ∧ Sent s t a e o ∧ o.stage = .done ∧ t.mem = s.mem
      ∧ (e.d ≠ 0 → Delivers o.writes [0] (fun _ => qKey e.d.toNat) 1 (fun _ => 1)))
  ∧ (∀ e s a, enters (.trap e) formTrap s e a (e.M 12 8 + 32 * 11) ∧ enters (.bkpt e) formBkpt s e a (1 + 32 * 12))
  ∧ (∀ e s a h, Clear formTret e s a → goes formTret e s a → a.g.handler = some h → a.g.splits = [a.sp] → a.sp.handler = true →
    a.sp.traps = [] → a.g.held = [] → a.g.res = .resident → a.g.halt = .running → a.task.st = .released →
    let hc := fun n => mget a.g.hc n 0
    fmtLegal (hc 2) = true → h.mask &&& ~~~a.g.exited &&& ~~~(hc 1) = 0 →
    ∃ t, exec (.tret e) s = .next t ∧ t.mem = s.mem ∧ (getGroup t a.gid).handler = none
      ∧ (mine t a).map (·.pc) = some (hc 0) ∧ (mine t a).map (·.fmt) = some (hc 2) ∧ (mine t a).map (·.handler) = some false)
  ∧ (∀ e s a k, Clear formTkill e s a → goes formTkill e s a → (u formTkill e s a).a = 0 →
    findTask s a.tm.part a.tm.tid = some k → k.st = .released → k.fate = none →
    ∃ t k', exec (.tkill e) s = .next t ∧ t.mem = s.mem ∧ findTask t a.tm.part a.tm.tid = some k' ∧ k'.st = .stopping
      ∧ k'.fate.map (·.status) = some 3)
  ∧ (∀ e s a, Clear formOtset e s a → goes formOtset e s a → Calm s →
    let ad := (u formOtset e s a).b
    let at_ := (getPart s a.tm.part).otbase + 32 * ((u formOtset e s a).a % 2 ^ 16)
    ad % 16 = 0 → ad + 32 ≤ a.tm.scrsize → holdsPhys s a.tm.part at_ = true →
    ∃ t, exec (.otset e) s = .next t ∧ WentOn t a e
      ∧ ∀ y, readByte t.mem y = if at_ ≤ y ∧ y < at_ + 32 then scrByte a.tm (ad + (y - at_)) else readByte s.mem y)
  ∧ (∀ e s a, Clear formPinv e s a → goes formPinv e s a → (u formPinv e s a).a < 2 ^ 52 →
    ∃ t, exec (.pinv e) s = .next t ∧ WentOn t a e ∧ t.mem = s.mem
      ∧ ∀ x ∈ t.tlb, ¬ (x.part = a.tm.part ∧ x.page = pageBase x.leaf (u formPinv e s a).a))
  ∧ (∀ f i e s a, (f, i) ∈ [(formSetfmt, Instr.setfmt e), (formWrsr, .wrsr e), (formSetcmp, .setcmp e), (formRquota, .rquota e),
      (formTrap, .trap e), (formBkpt, .bkpt e), (formTret, .tret e), (formTkill, .tkill e), (formOtset, .otset e),
      (formPinv, .pinv e)] →
    Clear f e s a → ¬ goes f e s a → (i = .setfmt e → fmtLegal (BitVec.ofNat 32 (u formSetfmt e s a).b) = true) →
    ∃ t, exec i s = .next t ∧ WentOn t a e ∧ t.mem = s.mem ∧ t.teams = s.teams ∧ t.parts = s.parts
      ∧ ∀ x k, regOf t x k = regOf s x k)

/-- A latch of the issuing group's quadrant in a lane position (R24). -/
def Sys2Proof.latchAt (s : State) (a : At) (k l : Nat) : Word := mget (getCore s a.tm.core).latches (latchKey (quadrantOf a.tm a.g.w1) k l) 0

/-- What an instruction leaves in the latches. Outside a hold chain they stay. In one, which its first member starts with zeros
(R180), a class A or F instruction shifts them, and b1 receives what `res` allows in each lane position; any other instruction
leaves them. Other quadrants and cores keep theirs. -/
def Sys2Proof.LatchesAfter (s t : State) (a : At) (e : Enc) (c : LatClass) (res : Nat → Word → Prop) : Prop :=
  let chain := e.ctl.hold = true ∨ 0 < a.sp.chain
  let old := fun k l => if e.ctl.hold = true ∧ a.sp.chain = 0 then 0 else latchAt s a k l
  (¬ chain → ∀ n, (getCore t n).latches = (getCore s n).latches)
  ∧ (chain → c = .A ∨ c = .F → ∀ l < 32, res l (latchAt t a 1 l) ∧ latchAt t a 2 l = old 1 l ∧ latchAt t a 3 l = old 2 l)
  ∧ (chain → c ≠ .A → c ≠ .F → ∀ k l, 1 ≤ k → k ≤ 3 → l < 32 → latchAt t a k l = old k l)
  ∧ ∀ n key, n ≠ a.tm.core ∨ key / 96 ≠ quadrantOf a.tm a.g.w1 →
      mget (getCore t n).latches key 0 = mget (getCore s n).latches key 0

/-- R24, R180, R181: the latches b1 to b3. A class A or F member of a hold chain shifts its result into b1, b1 into b2 and b2 into
b3: for lane instructions the result's low word in each participant's position and zero elsewhere, for uniform ones in every
position, or zero under a false guard; with NWB the result stands in b1 alone. Members of other classes, and every instruction
outside a chain, leave the latches. What b1 receives of a predicate result is free (log 47). -/
def Obligations.HoldChains : Prop :=
  let lane := fun (mk : Enc → Instr) (f : Form) => ∀ e s a, Clear f e s a → ∃ t, exec (mk e) s = .next t ∧
    LatchesAfter s t a e (f.cls e) fun l v => if l ∈ participants (book s a e) (issOf f e s a).a e
      then e.ctl.nwb = false → v = regOf t a.gid (vKey l e.d.toNat) else v = 0
  let uni := fun (mk : Enc → Instr) (f : Form) => ∀ e s a, Clear f e s a → ∃ t, exec (mk e) s = .next t ∧
    LatchesAfter s t a e (f.cls e) fun _ v => if uniGuard (book s a e) (issOf f e s a).a e = true
      then e.ctl.nwb = false → v = regOf t a.gid (sKey e.d.toNat) else v = 0
  let pred := fun (mk : Enc → Instr) (f : Form) => ∀ e s a, Clear f e s a → ∃ t, exec (mk e) s = .next t ∧
    LatchesAfter s t a e (f.cls e) fun l v => l ∉ participants (book s a e) (issOf f e s a).a e → v = 0
  let other := fun (mk : Enc → Instr) (f : Form) => (∀ e, f.cls e ≠ .A ∧ f.cls e ≠ .F) ∧ ∀ e s a, Clear f e s a →
    ∃ t, exec (mk e) s = .next t ∧ LatchesAfter s t a e (f.cls e) fun _ _ => True
  lane .iadd formIadd ∧ lane .isub formIsub ∧ lane .imin formImin ∧ lane .shl formShl ∧ lane .popc formPopc ∧ lane .sel formSel
  ∧ lane .mov formMov ∧ lane .fadd formFadd ∧ lane .fmul formFmul ∧ lane .ffma formFfma ∧ lane .fmin formFmin
  ∧ uni .sadd formSadd ∧ uni .smin formSmin ∧ uni .smov formSmov ∧ uni .sffma formSffma
  ∧ pred .icmp formIcmp ∧ pred .fcmp formFcmp
  ∧ other .imul formImul ∧ other .iadd64 formIadd64 ∧ other .smul formSmul ∧ other .redux formRedux ∧ other .frcp formFrcp
  ∧ other .nop formNop
  ∧ (∀ e s a, Clear formIadd e s a → e.ctl.nwb = true →
    let i := issOf formIadd e s a
    ∃ t, exec (.iadd e) s = .next t ∧ (∀ k, regOf t a.gid k = regOf s a.gid k)
      ∧ ∀ l ∈ participants (book s a e) i.a e, latchAt t a 1 l = BitVec.ofNat 32 (
          let x := laneIn (book s a e) i l
          keepIn 32 (i.bit 8) (i.bit 9) (intOf 32 (i.bit 8) x.a + intOf 32 (i.bit 8) x.b)))

/-- R72, R116, R152 to R154, R117: versions. A write of a versioned task to a VERR region of its card goes to its version: memory, and what every
other party reads, stay as they are, while the task itself reads what it wrote. Any other write of it is direct, and taints the
task. The commit makes every byte of the version what all read, and changes no other. Here on RAW pages without a key, within
64 bytes, where the version's quota and log have room. -/
def Obligations.Versions : Prop :=
  (∀ (s : State) (c : Acc) (k : Task) (l : Leaf) (va : Nat) (bs : List Byte) (req : Nat),
    Calm s → ((getPart s c.p).window.filter fun x => x.tid == c.tid) = [k] → k.card.ver = true →
    l.sf = 0 → l.domain = false → l.key = 0 → l.gr < 3 → bs ≠ [] → va / 64 = (va + bs.length - 1) / 64 →
    let t := writeAt s c l va bs req
    let pa := l.frame + pageOff l va
    let rs := verRegions k va bs.length
    let q := getPart s c.p
    (rs ≠ [] → (∀ r ∈ rs, r ∉ k.settled) → versionLines s c.p + 2 ≤ q.vquota + q.vloglen →
      t.mem = s.mem ∧ (∀ x key, cohByte t x key = cohByte s x key)
      ∧ (∀ d : Acc, d.p ≠ c.p ∨ d.tid ≠ c.tid → versionOf t d = versionOf s d)
      ∧ freshBytes t (versionOf t c) l (pageOff l va) bs.length = bs
      ∧ (∀ x, x < pa ∨ pa + bs.length ≤ x → mfind (versionOf t c) x = mfind k.ver x)
      ∧ (getTask t c.p c.tid).taint = k.taint)
    ∧ (rs = [] → (getTask t c.p c.tid).taint = true ∧ versionOf t c = k.ver
      ∧ ∀ x, cohByte t x 0 = if pa ≤ x ∧ x < pa + bs.length then bs.getD (x - pa) 0 else readByte s.mem x))
  ∧ (∀ (s : State) p tid (k : Task), Calm s → ((getPart s p).window.filter fun x => x.tid == tid) = [k] →
    (mkeys k.ver).Nodup → (∀ e ∈ k.ver, e.1 < 2 ^ 60 ∧ e.2.2 = 0) →
    let t := commitVersion s p tid
    (∀ x, cohByte t x 0 = ((mfind k.ver x).map Prod.fst).getD (readByte s.mem x))
    ∧ (getTask t p tid).ver = [] ∧ (getTask t p tid).lines = []
    ∧ t.groups = s.groups ∧ t.teams = s.teams)

/-- R377 to R388, R153, R400 to R403: resizes and the registers. A descriptor is refused with FORM, BUSY, HELD, MINIMUM, in
this order, or its resize is accepted; each state is left when its exit condition holds; SCRUB zeroes the leaving channel
granules, and the granules pass from the giver to the receiver. A bucket goes to its planned home. EN takes a 1 only where
the partition holds each kind, less what is leaving it (an inference from R377 and R384). A VQUOTA write that spills leaves memory
as it was (the model's choice, log 52). Failing units whose granules come free get their spares. An 8-byte register takes its value with its high word, and a port's last word submits. -/
def Obligations.ResizesAndRegisters : Prop :=
  let runs := fun s : State => s.mgmt.boot ≠ .failed
  (∀ s d, runs s →
    let r := resizeOf d
    let at_ := if r.src = 8 then r.dst else r.src
    let form := r.src = r.dst ∨ 8 < r.src ∨ 9 < r.dst ∨ 2 ^ 16 ≤ (d.getD 0 0).toNat ∨ d.getD 1 0 ≠ 0 ∨ 2 ^ 48 ≤ r.slices
      ∨ d.getD 7 0 ≠ 0
    let busy := inResize s r.src = true ∨ inResize s r.dst = true
    let held := masksIn r.masks (masksOf s r.src) = true
    let few := r.src < 8 ∧ (getPart s r.src).en = true ∧ allKinds (masksOff (masksOf s r.src) r.masks) = false
    let refused := fun n : Nat => ∃ t, exec (.resizeSubmit d) s = .next t ∧ { t with parts := s.parts } = s
      ∧ (at_ < 8 → getPart t at_ = { getPart s at_ with rerr := n }) ∧ ∀ p, p ≠ at_ → getPart t p = getPart s p
    (form → refused 4) ∧ (¬ form → busy → refused 3) ∧ (¬ form → ¬ busy → ¬ held → refused 1)
    ∧ (¬ form → ¬ busy → held → few → refused 2)
    ∧ (¬ form → ¬ busy → held → ¬ few → ∃ t, exec (.resizeSubmit d) s = .next t
        ∧ t.mgmt = { s.mgmt with resizes := s.mgmt.resizes ++ [r] } ∧ t.mem = s.mem
        ∧ (r.src < 8 → getPart t r.src = { getPart s r.src with rrole := false, rstate := 1 })
        ∧ ∀ p, (p ≠ r.src ∨ 8 ≤ p) → getPart t p = getPart s p))
  ∧ (∀ s idx r, s.mgmt.resizes[idx]? = some r →
    let keep := exec (.resizeStateAdvance idx) s = .next s
    let goes := fun n : Nat => ∃ t r1, exec (.resizeStateAdvance idx) s = .next t ∧ t.mem = s.mem
      ∧ t.mgmt.resizes = s.mgmt.resizes.set idx r1 ∧ r1.state = n ∧ r1.masks = r.masks ∧ r1.src = r.src ∧ r1.dst = r.dst
      ∧ (r.src < 8 → (getPart t r.src).rstate = n)
    (r.state = 1 → goes 2)
    ∧ (r.state = 2 → (r.src < 8 ∧ leavingTeams s r ≠ [] → keep) ∧ (8 ≤ r.src ∨ leavingTeams s r = [] → goes 3))
    ∧ (r.state = 3 → (r.planS ≠ [] ∨ r.planC ≠ [] → keep) ∧ (r.planS = [] ∧ r.planC = [] → goes 4))
    ∧ (r.state = 4 → let named := r.src < 8 ∧ movable s r ≠ 0 ∧ namesChans s r.src (movable s r) = true
        (named → keep) ∧ (¬ named → goes 5))
    ∧ (r.state = 5 → s.own = [] → s.mgmt.reqs = [] → r.src ≠ r.dst → r.src ≤ 8 → r.dst ≤ 9 →
        ∃ t r1, exec (.resizeStateAdvance idx) s = .next t ∧ t.mgmt.resizes = s.mgmt.resizes.set idx r1 ∧ r1.state = 6
          ∧ masksOf t r.src = masksOff (masksOf s r.src) r.masks ∧ masksOf t r.dst = masksOn (masksOf s r.dst) r.masks
          ∧ (∀ x, readByte t.mem x = if r.src < 8 ∧ bitOf r.chans (x / 2 ^ 33) then 0 else readByte s.mem x)
          ∧ (r.src < 8 → (∀ k, bitOf r.chans (k / 256) = true → mfind t.mgmt.keys k = none)
            ∧ (∀ e ∈ t.tlb, ∀ n, e.at_ = .core n → bitOf r.cores (n / 4) = false)
            ∧ ∀ k ∈ (getPart t r.src).window, ∀ e ∈ k.ver, bitOf r.chans (e.1 / 2 ^ 33) = false)
          ∧ (8 ≤ r.dst → ∀ x ∈ t.mgmt.swaps, unitFree t x = false))
    ∧ (r.state = 6 → (r.planS ≠ [] ∨ r.planC ≠ [] → keep)
        ∧ (r.planS = [] ∧ r.planC = [] → ∃ t, exec (.resizeStateAdvance idx) s = .next t ∧ t.mem = s.mem
          ∧ t.mgmt = { s.mgmt with resizes := s.mgmt.resizes.eraseIdx idx } ∧ (r.dst < 8 → (getPart t r.dst).rstate = 0))))
  ∧ (∀ s idx r b, s.mgmt.resizes[idx]? = some r →
    let p := if r.state = 6 then r.dst else r.src
    (∀ home, mfind r.planS b = some home → ∃ t, exec (.bucketHandover idx false b) s = .next t ∧ t.mem = s.mem
      ∧ t.mgmt = { s.mgmt with resizes := s.mgmt.resizes.set idx { r with planS := mdel r.planS b } }
      ∧ getPart t p = { getPart s p with slices := mset (getPart s p).slices b home })
    ∧ (∀ home, mfind r.planC b = some home → ∃ t, exec (.bucketHandover idx true b) s = .next t ∧ t.mem = s.mem
      ∧ t.mgmt = { s.mgmt with resizes := s.mgmt.resizes.set idx { r with planC := mdel r.planC b } }
      ∧ getPart t p = { getPart s p with ctrls := mset (getPart s p).ctrls b home })
    ∧ (mfind r.planS b = none → exec (.bucketHandover idx false b) s = .next s))
  ∧ (∀ s p (v : Word), runs s → p < 8 →
    let q := getPart s p
    let alone := fun t : State => { t with parts := s.parts } = s ∧ ∀ x, x ≠ p → getPart t x = getPart s x
    (∃ t, exec (.pctlWrite p v) s = .next t ∧ alone t ∧ getPart t p = { q with
        lead := v.toNat / 16 % 4, en := v.getLsbD 0 && (q.en || allKinds (stayingMasks s p)) })
    ∧ ((∀ r ∈ s.mgmt.resizes, r.src ≠ p) → stayingMasks s p = (q.cg, q.sg, q.hg))
    ∧ (versionLines s p - v.toNat ≤ q.vloglen → ∃ t, exec (.vquotaWrite p v) s = .next t ∧ alone t
        ∧ getPart t p = { q with vquota := v.toNat, spilled := max q.spilled (versionLines s p - v.toNat) })
    ∧ (∃ t, exec (.otinvWrite p v) s = .next t ∧ alone t ∧ (q.otinv ≠ none → getPart t p = q)
        ∧ (q.otinv = none → getPart t p = { q with otinv := some (v.toNat % 2 ^ 16) })))
  ∧ (∀ s p, ((getPart s p).otinv = none → exec (.otinvComplete p) s = .next s)
    ∧ ∀ h, (getPart s p).otinv = some h → ∃ t, exec (.otinvComplete p) s = .next t ∧ { t with parts := s.parts } = s
      ∧ getPart t p = { getPart s p with otinv := none, otcache := mdel (getPart s p).otcache h })
  ∧ (∀ s sp off v, (off % 8 ≠ 0 → exec (.registerWrite sp off v true) s = .next s)
    ∧ (off % 4 ≠ 0 → exec (.registerWrite sp off v false) s = .next s))
  ∧ (∀ s p (v : Dword), runs s → p < 8 →
    let at_ := fun k : Nat => 0x80000 + 0x1000 * p + k
    let x := v.toNat
    (∃ t, exec (.registerWrite .mgmt (at_ 0x20) v true) s = .next t
      ∧ getPart t p = { getPart s p with trootReg := x / 2 ^ 13 % 2 ^ 39 * 2 ^ 13 })
    ∧ (∃ t, exec (.registerWrite .mgmt (at_ 0x20) v false) s = .next t ∧ t.parts = s.parts)
    ∧ (∃ t, exec (.registerWrite .mgmt (at_ 0x28) v true) s = .next t
      ∧ getPart t p = { getPart s p with s2Reg := x / 2 ^ 20 % 2 ^ 18 * 2 ^ 20 })
    ∧ (∃ t, exec (.registerWrite .mgmt (at_ 0x70) v false) s = .next t
      ∧ getPart t p = { getPart s p with cvcount := x % 2 ^ 32 })
    ∧ (exec (.registerWrite .mgmt (at_ 0x58) v false) s = exec (.vquotaWrite p (BitVec.ofNat 32 x)) s)
    ∧ (exec (.registerWrite .mgmt (at_ 0x94) v false) s = exec (.dbgresWrite p (BitVec.ofNat 32 x)) s)
    ∧ (let s1 := { s with mgmt := { s.mgmt with rport := mset s.mgmt.rport 7 (BitVec.ofNat 32 x) } }
      exec (.registerWrite .mgmt 0x101C v false) s
        = exec (.resizeSubmit ((List.range 8).map fun i => mget s1.mgmt.rport i 0)) s1))
  ∧ (∀ s (v : Dword),
    exec (.registerWrite .physical 0x208 v false) s = .next { s with mgmt := { s.mgmt with evlog2 := v.toNat % 16 } }
    ∧ exec (.registerWrite .physical 0x210 v false) s = .next { s with mgmt := { s.mgmt with evget := v.toNat % 2 ^ 32 } }
    ∧ exec (.registerWrite .physical 0x110 v false) s = .next { s with mgmt := { s.mgmt with dumpsel := v.toNat % 2 ^ 16 } }
    ∧ exec (.registerWrite .physical 0x100 v false) s = .next s
    ∧ (s.mgmt.boot = .failed → exec (.registerWrite .mgmt 0x100 v false) s = .next s))

/-- R389, R390, R397 to R399, R405: links. A lost die-to-die link fails the tasks with a team on the die that a partition drops;
retrained, it is no longer dead. Flits are kept until acknowledged; those of a lost port go out over ports that remain to their
device, and which of them, and which port answers, is the device's choice. Another device's read, write or atomic is performed
once, as the second stage of the target partition allows, and answered; the entry's TAG plays no part in it. (The ports' devices,
the choice among them and the TAG are the model's, log 24.) -/
def Obligations.LinksAndDomains : Prop :=
  let runs := fun s : State => s.mgmt.boot ≠ .failed
  let mgmtOnly := fun s t : State => { t with mgmt := s.mgmt, host := s.host } = s
  (∀ s a b, let x := (min a b, max a b)
    (a = b ∨ 4 ≤ x.2 ∨ x ∈ s.mgmt.deadDies → exec (.dieLinkLoss a b) s = .next s)
    ∧ (a ≠ b → x.2 < 4 → x ∉ s.mgmt.deadDies → s.poison = [] → ∃ t, exec (.dieLinkLoss a b) s = .next t
      ∧ (∀ p d, dropDie (getPart s p) a b = some d → (d, if d = a then b else a) ∈ (getPart t p).dropped)
      ∧ t.mgmt.deadDies = s.mgmt.deadDies ++ [x]
      ∧ ∀ p tid k d tm, dropDie (getPart s p) a b = some d → findTask s p tid = some k → k.st = .released → k.fate = none →
        k.card.wdr = false → tm ∈ teamsOf s p tid → tm.2.core / 64 = d → ∃ k', findTask t p tid = some k' ∧ k'.st = .stopping
          ∧ k'.fate = some ⟨if k.card.kind = 1 then 5 else 2, ⟨10, 1, BitVec.ofNat 32 (a + 4 * b), BitVec.ofNat 32 k.retired, 0⟩⟩))
  ∧ (∀ s a b, runs s → ∃ t, exec (.dieLinkRetrain a b) s = .next t
    ∧ { t with mgmt := s.mgmt, parts := s.parts } = s
    ∧ (∀ p d, d ∈ (getPart t p).dropped ↔ d ∈ (getPart s p).dropped ∧ d ≠ (a, b) ∧ d ≠ (b, a))
    ∧ ∀ x, x ∈ t.mgmt.deadDies ↔ x ∈ s.mgmt.deadDies ∧ x ≠ (min a b, max a b))
  ∧ (∀ s port, let kept := mget s.mgmt.flits port []
    (12 ≤ port ∨ port ∈ s.mgmt.badPorts → exec (.linkPortLoss port) s = .next s)
    ∧ (port < 12 → port ∉ s.mgmt.badPorts → ∃ t, exec (.linkPortLoss port) s = .next t
      ∧ { t with mgmt := s.mgmt, fresh := s.fresh } = s
      ∧ t.mgmt.badPorts = s.mgmt.badPorts ++ [port] ∧ mget t.mgmt.flits port [] = []
      ∧ t.mgmt.faults = s.mgmt.faults ++ [(0xFF, ⟨10, 2, BitVec.ofNat 32 port, 0, 0⟩)]
      ∧ (∀ p, p ≠ port → ∃ more, mget t.mgmt.flits p [] = mget s.mgmt.flits p [] ++ more
          ∧ ∀ f ∈ more, f ∈ kept ∧ p ∈ portsTo t f.dev)
      ∧ ∀ f ∈ kept, portsTo t f.dev ≠ [] → ∃ p, p ≠ port ∧ f ∈ mget t.mgmt.flits p [])
    ∧ (∀ n, ∃ t, exec (.flitAck port n) s = .next t ∧ mgmtOnly s t ∧ mget t.mgmt.flits port [] = kept.drop n
      ∧ mget t.mgmt.compress port 0 = mget s.mgmt.compress port 0 + min n kept.length
      ∧ ∀ p, p ≠ port → mget t.mgmt.flits p [] = mget s.mgmt.flits p [])
    ∧ exec (.flitRetry port) s = .next s)
  ∧ (∀ s (r : DomReq), (s.mgmt.mig = none ∧ s.mgmt.reqs = [] ∧ s.own = [] ∧ s.poison = []) →
    let id := (r.srcDev, r.seq)
    let target := mfind s.mgmt.domains (8 * r.srcDev + r.srcPart)
    let e := fun p => s2Entry s p r.addr
    let pa := fun p => bitsOf (e p) 37 21 * 2 ^ 21 + r.addr % 2 ^ 21
    let key := fun p => bitsOf (e p) 63 56
    let n := match r.what with | .read n => n | .write bs => bs.length | .rmw _ at_ _ _ _ => atBytes at_
    let may := fun p => match r.what with
      | .read _ => bitOf (e p) 1 = true
      | .write _ => bitOf (e p) 2 = true
      | .rmw _ _ _ _ _ => bitOf (e p) 1 = true ∧ bitOf (e p) 2 = true
    let taken := fun p : Nat => r.addr < 2 ^ 38 ∧ r.addr % 2 ^ 21 + n ≤ 2 ^ 21 ∧ holdsPhys s p (s2At s p r.addr) = true
      ∧ s2Ok (e p) = true ∧ may p ∧ holdsPhys s p (pa p) = true ∧ (key p = 0 ∨ capENCR s.caps = true)
    let stores := fun (t : State) (p : Nat) (bs : List Byte) => key p = 0 → ∀ x,
      readByte t.mem x = if pa p ≤ x ∧ x < pa p + bs.length then bs.getD (x - pa p) 0 else readByte s.mem x
    (id ∈ s.mgmt.seen → exec (.domainRequest r) s = .next s)
    ∧ (id ∉ s.mgmt.seen → ∃ t kind data, exec (.domainRequest r) s = .next t ∧ t.mgmt.seen = s.mgmt.seen ++ [id]
      ∧ (portsTo s r.srcDev ≠ [] → ∃ port ∈ portsTo s r.srcDev, mget t.mgmt.flits port []
          = mget s.mgmt.flits port [] ++ [⟨r.srcDev, mget s.mgmt.sent r.srcDev 0, r.addr, kind, data⟩])
      ∧ ((∀ p, target = some p → ¬ taken p) → kind = .refused ∧ data = [] ∧ t.mem = s.mem)
      ∧ ∀ p, target = some p → taken p → kind = .taken ∧
        let old := (rangeFrom (pa p) n).map fun a => cohByte s a (key p)
        match r.what with
        | .read _ => data = old ∧ t.mem = s.mem
        | .write bs => data = [] ∧ stores t p bs
        | .rmw op at_ b c ret => data = (if ret then old else [])
          ∧ (∀ y, atomNew op at_ (leNat old) b c = some y → stores t p (leBytes n y))
          ∧ (atomNew op at_ (leNat old) b c = none → t.mem = s.mem)))

/-- R392 to R394, R404 to R408, R6, R363: boot runs images in turn while each verifies; a report is signed; the throttle steps
with temperature and power; a fatal error writes the dump and sets FATAL; gating a core empties it, and its cycle counter starts
again from zero; a failing unit is replaced by a spare, at once or when its granule comes free, or its granule goes out of service
until repaired. (The model's choices: log 16, a spare's number 64 + n; log 26, the count of reports outlives RESET; log 27, the
dump's place and layout; log 39, what RESET keeps, and that boot without an image fails; log 40, REFX2 is cleared at 85 or
below, and a repair leaves caps as it is.) -/
def Obligations.HealthAndPower : Prop :=
  let runs := fun s : State => s.mgmt.boot ≠ .failed
  let mgmtOnly := fun s t : State => { t with mgmt := s.mgmt, host := s.host } = s
  (∀ s key (images : List (List Byte × List Byte)),
    let ok := shake256 key = Config.fusedDigest ∧ images ≠ [] ∧ ∀ i ∈ images, Config.ed448Verify key i.1 i.2 = true
    ∃ t, exec (.reset ⟨key, images⟩) s = .next t ∧ (s.mgmt.dump = none → t.mem = s.mem)
      ∧ (∀ d, s.mgmt.dump = some d → ∀ x, readByte t.mem x
          = if dumpAt 0 ≤ x ∧ x < dumpAt (dumpBytes d).length then 0 else readByte s.mem x) ∧ t.groups = [] ∧ t.teams = [] ∧ t.parts = State.reset.parts
      ∧ t.mgmt.boots = (s.mgmt.boots + 1) % 2 ^ 32 ∧ (s.mgmt.swaps = [] → t.mgmt.spares = s.mgmt.spares) ∧ t.mgmt.outUnits = s.mgmt.outUnits ∧ t.fused = s.fused ∧ t.mgmt.reports = s.mgmt.reports
      ∧ (ok → t.mgmt.boot = .running ∧ t.mgmt.fatal = false ∧ t.caps = capsOf s.fused s.mgmt.outUnits
        ∧ t.mgmt.measure = images.foldl (fun m i => shake256 (m ++ shake256 i.1)) (List.replicate 64 0))
      ∧ (¬ ok → t.mgmt.boot = .failed ∧ t.mgmt.fatal = true ∧ t.caps = 0))
  ∧ (∀ s p nonce, runs s → p < 8 → nonce.length = 64 →
    let q := getPart s p
    let n := s.mgmt.reports + 1
    let field := fun (k : Nat) (bs : List Byte) => (bs ++ List.replicate (k - bs.length) 0).take k
    let body : List Byte := leBytes 4 1 ++ leBytes 4 s.caps.toNat ++ nonce ++ s.mgmt.measure ++ leBytes 4 p
      ++ leBytes 4 s.mgmt.boots ++ leBytes 8 q.cg ++ leBytes 8 q.sg ++ leBytes 4 q.hg ++ leBytes 4 0 ++ field 56 (Config.x448Public n)
    let signed := body ++ field 114 (Config.ed448Sign body)
    exec (.attestationRequest p nonce) s = .next { s with mgmt := { s.mgmt with
      reports := n, lastRep := signed ++ List.replicate (352 - signed.length) 0 } })
  ∧ (∀ s (temps : List Nat) watts, let hot := temps.foldl max 0
    let k := s.mgmt.throttle
    ∃ t, exec (.throttleStep temps watts) s = .next t ∧ mgmtOnly s { t with mem := s.mem } ∧ (hot < 105 → t.mem = s.mem)
      ∧ t.mgmt.temp = min 255 hot
      ∧ t.mgmt.refx2 = decide (85 < hot) ∧ t.mgmt.cec = s.mgmt.cec
      ∧ t.mgmt.throttle = (if 85 < hot ∨ 2400 < watts then min 8 (k + 1) else if hot < 80 then k - 1 else k)
      ∧ t.mgmt.fatal = (s.mgmt.fatal || decide (105 ≤ hot)))
  ∧ (∀ s, runs s →
    let dumps := fun t : State => mgmtOnly s { t with mem := s.mem } ∧ t.mgmt.fatal = true
      ∧ (s.mgmt.fatal = false → ∃ d, t.mgmt.dump = some d ∧ d.health = healthWord s.mgmt
        ∧ (∀ gid g x, (gid, g) ∈ s.groups → x ∈ g.splits → splitBytes x ∈ d.splits)
        ∧ ∀ x, readByte t.mem x = if dumpAt 0 ≤ x ∧ x < dumpAt (dumpBytes d).length then (dumpBytes d).getD (x - dumpAt 0) 0
            else readByte s.mem x)
    (∃ t, exec (.fatalError .carmine) s = .next t ∧ dumps t)
    ∧ (∃ t, exec (.fatalError .firmware) s = .next t ∧ dumps t)
    ∧ (s.mgmt.temp < 105 → exec (.fatalError .hot) s = .next s) ∧ exec (.fatalError .boot) s = .next s)
  ∧ (∀ s c, c < 256 →
    ((getCore s c).gated = false → exec (.corePowerUp c) s = .next s)
    ∧ ((getCore s c).gated = true → ∃ t, exec (.corePowerUp c) s = .next t ∧ { t with cores := s.cores } = s
      ∧ getCore t c = { getCore s c with gated := false, base := s.cycle })
    ∧ (teamsOn s c ≠ [] → exec (.corePowerGate c) s = .next s)
    ∧ (teamsOn s c = [] → s.own = [] → ∃ t, exec (.corePowerGate c) s = .next t ∧ t.mem = s.mem
      ∧ getCore t c = { getCore s c with gated := true } ∧ t.si = s.si.filter (fun x => x.1 / 2 ^ 100 != c)
      ∧ t.tlb = s.tlb.filter fun x => x.at_ != .core c))
  ∧ (∀ s kind die unit, runs s → kind < 3 → die < 4 →
    let per := match kind with | 0 => 16 | 1 => 12 | _ => 8
    let spares := match kind with | 0 => 4 | 1 => 2 | _ => 1
    let g := per * die + unit / 4
    let used := mget s.mgmt.spares (4 * kind + die) 0
    let at_ := fun m : Nat × Nat × Nat => bitOf (match kind with | 0 => m.1 | 1 => m.2.1 | _ => m.2.2) g = true
    let idle := at_ s.mgmt.pool ∨ at_ s.mgmt.quar
    unit < 4 * per →
    ((kind, die, unit) ∈ s.mgmt.swaps → exec (.retireFailingUnit kind die unit) s = .next s)
    ∧ (s.mgmt.swaps = [] → used < spares → (idle → exec (.retireFailingUnit kind die unit) s =
          .next { s with mgmt := { s.mgmt with
            spares := mset s.mgmt.spares (4 * kind + die) (used + 1)
            coreNums := if kind = 0 then mset s.mgmt.coreNums (64 * die + unit) (64 + used) else s.mgmt.coreNums } })
        ∧ (¬ idle → exec (.retireFailingUnit kind die unit) s =
          .next { s with mgmt := { s.mgmt with swaps := [(kind, die, unit)] } }))
    ∧ (s.mgmt.swaps = [] → spares ≤ used → (¬ at_ s.mgmt.quar → exec (.retireFailingUnit kind die unit) s = .next s)
        ∧ (at_ s.mgmt.quar → 64 * kind + g ∉ s.mgmt.outUnits → ∃ t, exec (.retireFailingUnit kind die unit) s = .next t
          ∧ t.mem = s.mem ∧ t.mgmt.outUnits = s.mgmt.outUnits ++ [64 * kind + g] ∧ t.mgmt.replreq = true
          ∧ bitsOf t.caps.toNat 24 16 = bitsOf (if kind = 0 then s.caps - 0x40000 else s.caps).toNat 24 16))
    ∧ (at_ s.mgmt.quar → g / per ∉ s.mgmt.badDies →
      let bit := fun j : Nat => if kind = j then 2 ^ g else 0
      let failing := 64 * kind + g ∈ s.mgmt.outUnits
      let pass := ¬ failing ∨ Config.selfTest s.fresh = true
      ∃ t, exec (.granuleRepair kind g) s = .next t ∧ t.mem = s.mem ∧ t.caps = s.caps
        ∧ (¬ pass → t.mgmt = s.mgmt)
        ∧ (pass → t.mgmt.pool = (s.mgmt.pool.1 ||| bit 0, s.mgmt.pool.2.1 ||| bit 1, s.mgmt.pool.2.2 ||| bit 2)
          ∧ t.mgmt.quar = masksOff s.mgmt.quar (bit 0, bit 1, bit 2) ∧ t.mgmt.replreq = false
          ∧ ∀ x, x ∈ t.mgmt.outUnits ↔ x ∈ s.mgmt.outUnits ∧ x ≠ 64 * kind + g)))

/-- The words of an instruction as the spec's entries write them out decode to that instruction, with every field
(R168 to R176; the worked encodings of FFMA, ICMP, ATOM, SADD, LOOPN, MMA and CNEXT). -/
def Obligations.DecodedWords : Prop :=
  let bytes := fun ws : List Word => ws.flatMap bytesOfWord
  let ctl := fun space lit : Nat => (⟨BitVec.ofNat 4 space, 0, 15, false, false, BitVec.ofNat 2 lit, 0, 0, 0, false⟩ : Ctl)
  let m0 : LitM := ⟨0, false, false, false, 0, 0⟩
  decode (bytes [0x10010100, 0x22081400, 0xBA000005, 0x40000000])
      = .ok (.ffma ⟨⟨2, 0x002, 0, false, false, 2, 0, 0, 0, false⟩, 8, 20, 0, ⟨11, true, false, true, 0, 5⟩, 0x40000000⟩, [])
  ∧ decode (bytes [0x00007880, 0x16010014, 0x00006200]) = .ok (.icmp ⟨ctl 0 1, 1, 0, 20, ⟨0, false, false, false, 0x62, 0⟩, 0⟩, [])
  ∧ decode (bytes [0x80007900, 0x01048400, 0x02000000, 1])
      = .ok (.sadd ⟨ctl 0 2, 4, 0x84, 0, ⟨0, false, false, true, 0, 0⟩, 1⟩, [])
  ∧ decode (bytes [0x80007880, 0x270FFFFE, 8]) = .ok (.loopn ⟨ctl 0 1, 0x0F, 0xFF, 0xFE, ⟨0, false, false, false, 0, 8⟩, 0⟩, [])
  ∧ decode (bytes [0x00007880, 0x51000A06, 0x00038400]) = .ok (.st ⟨ctl 0 1, 0, 10, 6, ⟨0, false, false, false, 0x384, 0⟩, 0⟩, [])
  ∧ decode (bytes [0x80007800, 0x2300000C]) = .ok (.rjn ⟨ctl 0 0, 0, 0, 12, m0, 0⟩, [])
  ∧ decode (bytes [0x00407800, 0x6A000000]) = .ok (.cclose ⟨⟨0, 0x080, 15, false, false, 0, 0, 0, 0, false⟩, 0, 0, 0, m0, 0⟩, [])
  ∧ decode (bytes [0x80007880, 0x20100006]) = .error .truncated
  ∧ decode (bytes [0x00007980, 0x01000000]) = .error .lit
  ∧ decode (bytes [0x00007800, 0x00000000]) = .error .zero
  ∧ decode (bytes [0x00007800, 0x1E000000]) = .error .opcode

/-- R168, R170, R171, R176, R183, R186, R187: decoding what the encoder writes for a well-formed instruction gives back that
instruction, with every field at every value, and leaves the bytes that follow; each byte string has one meaning: what
decodes is what its instruction encodes to; LIT 3, a zero opcode and an opcode that no row has are refused, in this order. -/
def Obligations.EncodingRoundTrip : Prop :=
  (∀ i bs, formOf i ≠ none → WellFormed i → decode (encodeBytes i ++ bs) = .ok (i, bs))
  ∧ (∀ i bs rest, decode bs = .ok (i, rest) → encodeBytes i ++ rest = bs
      ∧ ∃ f e, formOf i = some (f, e) ∧ e.canonical = true ∧ (encode i).length = 2 + e.ctl.lit.toNat)
  ∧ (∀ (cw ow : Word) bs,
    let head := bytesOfWord cw ++ bytesOfWord ow
    let lit := cw.toNat / 2 ^ 7 % 4
    let op := ow.toNat / 2 ^ 24
    let row := ∃ i f e, formOf i = some (f, e) ∧ f.uni = cw.getLsbD 31 ∧ f.op = op
    (lit = 3 → decode (head ++ bs) = .error .lit)
    ∧ (lit ≠ 3 → op = 0 → decode (head ++ bs) = .error .zero)
    ∧ (lit ≠ 3 → op ≠ 0 → ¬ row → decode (head ++ bs) = .error .opcode)
    ∧ (lit ≠ 3 → op ≠ 0 → row → (bs.length < 4 * lit → decode (head ++ bs) = .error .truncated)
      ∧ (4 * lit ≤ bs.length → ∃ i, decode (head ++ bs) = .ok (i, bs.drop (4 * lit)))))

/-- A step runs the decoded instruction (R25, R26, R168, R169): an input of the agenda first, where the host's writes
through one link may overtake those through the other (R114); else one of the turns and
internal steps that are possible, and a split's turn is `exec` of the instruction that the bytes of its code object at
its pc decode to; a word of code that was written since the task's start may be the old one. An input that a later one has
overtaken may wait while the device goes on; an access that has waited as long as it may goes first (R110, log 57). Around it a step counts one
cycle, and no split issues between steps (the model's own clock and issuer, log 1). -/
def Obligations.StepRuns : Prop :=
  let ticked := fun r : Res => match r with | .next s => (.next { s with cycle := s.cycle + 1, fresh := s.fresh + 1, cur := none } : Res) | y => y
  (∀ s i rest, s.agenda = i :: rest →
    0 ∈ agendaPicks s.agenda ∧ ((∃ k fresh x, k ∈ agendaPicks s.agenda ∧ s.agenda[k]? = some x
      ∧ step s = ticked (exec x { s with agenda := s.agenda.eraseIdx k, late := if k < s.late then s.late - 1 else k,
                                         fresh, cur := none }))
      ∨ (s.late ≠ 0 ∧ ∃ fresh, step s = deviceStep { s with fresh })))
  ∧ (∀ s, s.agenda = [] → step s = deviceStep s)
  ∧ (∀ xs k, k ∈ agendaPicks xs → ∀ j < k, ∃ a b p va data x, xs[j]? = some (.hostMemoryWrite a p va data) ∧ data ≠ []
    ∧ xs[k]? = some x ∧ hostLink x = some b ∧ a ≠ b)
  ∧ (∀ s,
    let ready := (allSplits s).filter fun c => ready s c.1 c.2
    let s1 := markReady s ready
    let due := (internalEvents s1).filter (overdueEvent s1)
    let turns := if due = [] then picks s1 ready else []
    let steps := if due = [] then internalEvents s1 else due
    ∃ (c fresh : Nat), (c < turns.length + steps.length ∨ turns.length + steps.length = 0) ∧
      let s2 := { s1 with fresh }
      (∀ p, turns[c]? = some p → deviceStep s = ticked (turn s2 p.1 p.2))
      ∧ (turns.length ≤ c → ∀ i, steps[c - turns.length]? = some i → deviceStep s = ticked (exec i { s2 with cur := none }))
      ∧ (turns.length + steps.length = 0 → deviceStep s = ticked (.next s2)))
  ∧ (∀ s gid k a uni n bs i, atOf s gid k = some a → mayWake s gid k = false → handlerSettles a = false →
    (a.sp.park = .none → chainTrap a.sp = none ∧ atRejoinPoint a.g a.sp = false) → a.sp.stop = none →
    fetchWords s a uni n a.sp.pc.toNat = .ok bs → decode bs = .ok (i, []) →
    turn s gid k = exec i { strikeFetch s a bs.length with cur := some (gid, k) }
    ∧ (s.poison = [] → turn s gid k = exec i { s with cur := some (gid, k) }))
  ∧ (∀ s a uni off l, off < a.task.header.clen → off % 4 = 0 → a.task.header.code + off < 2 ^ 52 →
    let va := a.task.header.code + off
    walk s a.tm.part va = .ok l → leafCheck s a.tm.part .read l = none → l.domain = false → l.sf = 0 →
    let now := (rangeFrom (l.frame + (va - pageBase l va)) 4).map fun x => cohByte s x l.key
    ∃ w, fetchWord s a uni off = .ok w ∧ (w = now ∨ w = freshBytes s (versionOf s (fetchAcc a uni)) l (va - pageBase l va) 4
        ∨ codeWord a.task off = some w))

/-- R183, R185, R17, R20, R369, R174: before an instruction of the table has its effect, a trap held on a flag that it
waits for is taken; the first check of R183 that fails is an ENC trap with both words (of TLD and
TSTR with the data blocks that the records give), a handler-only instruction
outside handler mode among them (PRIV); and while its waits are not over nothing changes. No split issues outside a
turn (the model's one fault, log 1). -/
def Obligations.IssueChecks : Prop :=
  ∀ i f0 e s, formOf i = some (f0, e) →
    let f := match i with | .tld _ => tensorForm false f0 e s | .tstr _ => tensorForm true f0 e s | _ => f0
    (curAt s = none → exec i s = .fault .noIssuer)
    ∧ ∀ a, curAt s = some a →
      let trap := fun code : Nat =>
        (.next (takeTrap s a.gid a.k ⟨1, code, ctlWord f.uni e.ctl, opWord f.op e, locWord a.sp.pc f.uni⟩ a.sp.pc) : Res)
      (∀ t, a.sp.chain = 0 →
        a.sp.traps.find? (fun t => t.now || (match t.flag with | some k => (waitFlags e).contains k | none => false)) = some t →
        exec i s = .next (takeTrap (modSplit s a.gid a.k fun x => { x with traps := x.traps.erase t }) a.gid a.k t.cause a.sp.pc))
      ∧ (∀ o t, dueTrap a f e = none → overdueFault a f e = some o → o.stage = .faulted t →
        ∃ s1, exec i s = .next (takeTrap s1 a.gid a.k t a.sp.pc) ∧ { s1 with groups := s.groups } = s)
      ∧ (dueTrap a f e = none → overdueFault a f e = none →
        (∀ code, encCheck f e (encCtxOf s a) = some code → exec i s = trap code)
        ∧ (f.handlerOnly = true → a.sp.handler = false → exec i s = trap 15)
        ∧ (encCheck f e (encCtxOf s a) = none → eligible s a f e = false → exec i s = .next s))

/-- The canonical form of memory (addresses strictly rise, no byte is 0) is an invariant of every step, for device memory
and for the host's. -/
def Obligations.MemoryStaysCanonical : Prop :=
  ∀ s t, Memory.wf s.mem = true → Memory.wf s.host = true → step s = .next t →
    Memory.wf t.mem = true ∧ Memory.wf t.host = true

/-- R406, R408: every step keeps the fields of the health register in their width: CEC at most 0x7FFF, the throttle step at
most 8, the temperature at most 255. -/
def Obligations.HealthStaysInRange : Prop :=
  ∀ s t, (s.mgmt.cec ≤ 0x7FFF ∧ s.mgmt.throttle ≤ 8 ∧ s.mgmt.temp ≤ 255) → step s = .next t →
    t.mgmt.cec ≤ 0x7FFF ∧ t.mgmt.throttle ≤ 8 ∧ t.mgmt.temp ≤ 255

/-- R392, R376, R383, R401, R402: what reset leaves. Nothing is resident and no partition is enabled; every granule is in the
pool; no register is set; memory lists nothing, so it has its canonical form. That unlisted memory reads as 0, and that
registers without a stated value are 0, is the model's (logs 2, 3). -/
def Obligations.ResetState : Prop :=
  let s := State.reset
  Memory.wf s.mem = true ∧ Memory.wf s.host = true ∧ (∀ a, readByte s.mem a = 0) ∧ s.groups = [] ∧ s.teams = []
  ∧ (∀ p, (getPart s p).en = false ∧ (getPart s p).cg = 0 ∧ (getPart s p).sg = 0 ∧ (getPart s p).hg = 0
      ∧ (getPart s p).window = [])
  ∧ s.mgmt.pool = (2 ^ 64 - 1, 2 ^ 48 - 1, 2 ^ 32 - 1) ∧ s.mgmt.quar = (0, 0, 0) ∧ s.mgmt.fatal = false
  ∧ s.mgmt.cec = 0 ∧ s.mgmt.throttle = 0 ∧ s.mgmt.temp = 0 ∧ s.mgmt.evput = 0 ∧ s.mgmt.evovf = false
  ∧ s.mgmt.mig = none ∧ s.mgmt.resizes = [] ∧ s.mgmt.down = [] ∧ s.caps = 0x0100F41F

end
end

