-- ==== Sys2Proof/Laws/Maps.lean ====
section
/-!
SUPPORT. Laws of sparse data by key and of memory: a read after a write, other keys left alone, the canonical form kept.
-/

namespace Sys2Proof.Machine

@[simp] theorem mfind_nil {α : Type} (k : Nat) : mfind ([] : SMap α) k = none := rfl

/-- A set key reads the value set. -/
@[simp] theorem mfind_mset_self {α : Type} (m : SMap α) (k : Nat) (v : α) : mfind (mset m k v) k = some v := by
  induction m with
  | nil => simp [mset, mfind]
  | cons x r ih =>
    simp only [mset]
    split
    · simp [mfind]
    · split
      · simp [mfind]
      · next h _ => simp [mfind, h, ih]

/-- Other keys are left alone by a set. -/
theorem mfind_mset_other {α : Type} (m : SMap α) (k j : Nat) (v : α) (h : j ≠ k) : mfind (mset m k v) j = mfind m j := by
  induction m with
  | nil => simp [mset, mfind, Ne.symm h]
  | cons x r ih =>
    simp only [mset]
    split
    · next e => simp [mfind, e, Ne.symm h]
    · split
      · simp [mfind, Ne.symm h]
      · simp [mfind, ih]

/-- A removed key is gone. -/
@[simp] theorem mfind_mdel_self {α : Type} (m : SMap α) (k : Nat) : mfind (mdel m k) k = none := by
  induction m with
  | nil => rfl
  | cons x r ih =>
    simp only [mdel]
    split
    · exact ih
    · next h => simp [mfind, h, ih]

/-- Other keys are left alone by a removal. -/
theorem mfind_mdel_other {α : Type} (m : SMap α) (k j : Nat) (h : j ≠ k) : mfind (mdel m k) j = mfind m j := by
  induction m with
  | nil => rfl
  | cons x r ih =>
    simp only [mdel]
    split
    · next e => simp [mfind, e, Ne.symm h, ih]
    · simp [mfind, ih]

/-- A put key reads the value put. -/
@[simp] theorem mget_mput_self {α : Type} [DecidableEq α] (d : α) (m : SMap α) (k : Nat) (v : α) :
    mget (mput d m k v) k d = v := by
  unfold mget mput
  split
  · next h => simp [h]
  · simp

/-- Other keys are left alone by a put. -/
theorem mget_mput_other {α : Type} [DecidableEq α] (d : α) (m : SMap α) (k j : Nat) (v : α) (h : j ≠ k) :
    mget (mput d m k v) j d = mget m j d := by
  unfold mget mput
  split
  · rw [mfind_mdel_other m k j h]
  · rw [mfind_mset_other m k j v h]

/-- What a put map reads at any key. -/
theorem mget_mput {α : Type} [DecidableEq α] (d : α) (m : SMap α) (k j : Nat) (v : α) :
    mget (mput d m k v) j d = if j = k then v else mget m j d := by
  split
  · next h => subst h; simp
  · next h => exact mget_mput_other d m k j v h

@[simp] theorem mget_mset_self {α : Type} (m : SMap α) (k : Nat) (v d : α) : mget (mset m k v) k d = v := by
  simp [mget]

theorem mget_mset_other {α : Type} (m : SMap α) (k j : Nat) (v d : α) (h : j ≠ k) :
    mget (mset m k v) j d = mget m j d := by
  simp [mget, mfind_mset_other m k j v h]

/-- A memory's or map's keys strictly rise, said of the head. -/
theorem mwf_cons {α : Type} (x : Nat × α) (r : SMap α) :
    mwf (x :: r) = true ↔ (∀ y ∈ r, x.1 < y.1) ∧ mwf r = true := by
  induction r generalizing x with
  | nil => simp [mwf]
  | cons y r ih =>
    obtain ⟨j, v⟩ := x
    obtain ⟨k, w⟩ := y
    simp only [mwf, Bool.and_eq_true, decide_eq_true_eq, List.mem_cons, forall_eq_or_imp]
    constructor
    · rintro ⟨h, hw⟩
      have := (ih (k, w)).1 hw
      exact ⟨⟨h, fun z hz => Nat.lt_trans h (this.1 z hz)⟩, hw⟩
    · rintro ⟨⟨h, _⟩, hw⟩
      exact ⟨h, hw⟩

/-- The keys of a set map are the set key and the old ones. -/
theorem mem_mset {α : Type} (m : SMap α) (k : Nat) (v : α) (y : Nat × α) (h : y ∈ mset m k v) : y = (k, v) ∨ y ∈ m := by
  induction m with
  | nil => simpa [mset] using h
  | cons x r ih =>
    simp only [mset] at h
    split at h
    · rcases List.mem_cons.1 h with h | h
      · exact .inl h
      · exact .inr (List.mem_cons_of_mem _ h)
    · split at h
      · rcases List.mem_cons.1 h with h | h
        · exact .inl h
        · exact .inr h
      · rcases List.mem_cons.1 h with h | h
        · exact .inr (h ▸ List.mem_cons_self)
        · rcases ih h with h | h
          · exact .inl h
          · exact .inr (List.mem_cons_of_mem _ h)

/-- Entries of a map after a removal were there before. -/
theorem mem_mdel {α : Type} (m : SMap α) (k : Nat) (y : Nat × α) (h : y ∈ mdel m k) : y ∈ m := by
  induction m with
  | nil => exact h
  | cons x r ih =>
    simp only [mdel] at h
    split at h
    · exact List.mem_cons_of_mem _ (ih h)
    · rcases List.mem_cons.1 h with h | h
      · exact h ▸ List.mem_cons_self
      · exact List.mem_cons_of_mem _ (ih h)

/-- Setting a key keeps the keys rising. -/
theorem mwf_mset {α : Type} (m : SMap α) (k : Nat) (v : α) (h : mwf m = true) : mwf (mset m k v) = true := by
  induction m with
  | nil => rfl
  | cons x r ih =>
    obtain ⟨h1, h2⟩ := (mwf_cons x r).1 h
    simp only [mset]
    split
    · next e => exact (mwf_cons _ _).2 ⟨fun y hy => e ▸ h1 y hy, h2⟩
    · split
      · next lt =>
        refine (mwf_cons _ _).2 ⟨fun y hy => ?_, h⟩
        rcases List.mem_cons.1 hy with hy | hy
        · exact hy ▸ lt
        · exact Nat.lt_trans lt (h1 y hy)
      · next ne nlt =>
        refine (mwf_cons _ _).2 ⟨fun y hy => ?_, ih h2⟩
        rcases mem_mset r k v y hy with hy | hy
        · have h3 : x.1 ≠ k := ne
          have h4 : ¬ k < x.1 := nlt
          subst hy
          show x.1 < k
          omega
        · exact h1 y hy

/-- Removing a key keeps the keys rising. -/
theorem mwf_mdel {α : Type} (m : SMap α) (k : Nat) (h : mwf m = true) : mwf (mdel m k) = true := by
  induction m with
  | nil => rfl
  | cons x r ih =>
    obtain ⟨h1, h2⟩ := (mwf_cons x r).1 h
    simp only [mdel]
    split
    · exact ih h2
    · exact (mwf_cons _ _).2 ⟨fun y hy => h1 y (mem_mdel r k y hy), ih h2⟩

/-- Writing a byte keeps memory canonical. -/
theorem writeByte_wf (m : Memory) (a : Nat) (b : Byte) (h : Memory.wf m = true) : Memory.wf (writeByte m a b) = true := by
  simp only [Memory.wf, Bool.and_eq_true, List.all_eq_true] at h ⊢
  unfold writeByte mput
  split
  · exact ⟨mwf_mdel m a h.1, fun x hx => h.2 x (mem_mdel m a x hx)⟩
  · next hb =>
    refine ⟨mwf_mset m a b h.1, fun x hx => ?_⟩
    rcases mem_mset m a b x hx with hx | hx
    · subst hx; simpa [emptyByte] using hb
    · exact h.2 x hx

/-- Writing bytes keeps memory canonical. -/
theorem writeBytes_wf (m : Memory) (a : Nat) (bs : List Byte) (h : Memory.wf m = true) :
    Memory.wf (writeBytes m a bs) = true := by
  induction bs generalizing m a with
  | nil => exact h
  | cons b r ih => exact ih _ _ (writeByte_wf m a b h)

/-- A byte written reads back. -/
@[simp] theorem readByte_writeByte_self (m : Memory) (a : Nat) (b : Byte) : readByte (writeByte m a b) a = b :=
  mget_mput_self _ _ _ _

/-- A write leaves every other byte alone. -/
theorem readByte_writeByte_other (m : Memory) (a c : Nat) (b : Byte) (h : c ≠ a) :
    readByte (writeByte m a b) c = readByte m c := mget_mput_other _ _ _ _ _ h

/-- A run of bytes written leaves every byte outside it alone. -/
theorem readByte_writeBytes_other (m : Memory) (a c : Nat) (bs : List Byte) (h : c < a ∨ a + bs.length ≤ c) :
    readByte (writeBytes m a bs) c = readByte m c := by
  induction bs generalizing m a with
  | nil => rfl
  | cons b r ih =>
    simp only [List.length_cons] at h
    rw [writeBytes, ih _ _ (by omega), readByte_writeByte_other _ _ _ _ (by omega)]

/-- A run of bytes written reads back. -/
theorem readBytes_writeBytes (m : Memory) (a : Nat) (bs : List Byte) : readBytes (writeBytes m a bs) a bs.length = bs := by
  induction bs generalizing m a with
  | nil => rfl
  | cons b r ih =>
    simp only [List.length_cons, readBytes, writeBytes]
    rw [ih, readByte_writeBytes_other _ _ _ _ (.inl (Nat.lt_succ_self a)), readByte_writeByte_self]

end Sys2Proof.Machine
end

