-- ==== Sys2Proof/Laws/State.lean ====
section
/-!
SUPPORT. One law for each field of the state and each update of one component: the fields an update leaves alone, and
what the component reads afterwards.
-/

namespace Sys2Proof.Machine

variable (s : State)

@[simp] theorem modGroup_fused (gid : Nat) (f : Group → Group) : (modGroup s gid f).fused = s.fused := rfl
@[simp] theorem modGroup_caps (gid : Nat) (f : Group → Group) : (modGroup s gid f).caps = s.caps := rfl
@[simp] theorem modGroup_cycle (gid : Nat) (f : Group → Group) : (modGroup s gid f).cycle = s.cycle := rfl
@[simp] theorem modGroup_fresh (gid : Nat) (f : Group → Group) : (modGroup s gid f).fresh = s.fresh := rfl
@[simp] theorem modGroup_cur (gid : Nat) (f : Group → Group) : (modGroup s gid f).cur = s.cur := rfl
@[simp] theorem modGroup_agenda (gid : Nat) (f : Group → Group) : (modGroup s gid f).agenda = s.agenda := rfl
@[simp] theorem modGroup_late (gid : Nat) (f : Group → Group) : (modGroup s gid f).late = s.late := rfl
@[simp] theorem modGroup_mem (gid : Nat) (f : Group → Group) : (modGroup s gid f).mem = s.mem := rfl
@[simp] theorem modGroup_host (gid : Nat) (f : Group → Group) : (modGroup s gid f).host = s.host := rfl
@[simp] theorem modGroup_remote (gid : Nat) (f : Group → Group) : (modGroup s gid f).remote = s.remote := rfl
@[simp] theorem modGroup_poison (gid : Nat) (f : Group → Group) : (modGroup s gid f).poison = s.poison := rfl
@[simp] theorem modGroup_own (gid : Nat) (f : Group → Group) : (modGroup s gid f).own = s.own := rfl
@[simp] theorem modGroup_si (gid : Nat) (f : Group → Group) : (modGroup s gid f).si = s.si := rfl
@[simp] theorem modGroup_scopes (gid : Nat) (f : Group → Group) : (modGroup s gid f).scopes = s.scopes := rfl
@[simp] theorem modGroup_tlb (gid : Nat) (f : Group → Group) : (modGroup s gid f).tlb = s.tlb := rfl
@[simp] theorem modGroup_cores (gid : Nat) (f : Group → Group) : (modGroup s gid f).cores = s.cores := rfl
@[simp] theorem modGroup_teams (gid : Nat) (f : Group → Group) : (modGroup s gid f).teams = s.teams := rfl
@[simp] theorem modGroup_parts (gid : Nat) (f : Group → Group) : (modGroup s gid f).parts = s.parts := rfl
@[simp] theorem modGroup_pools (gid : Nat) (f : Group → Group) : (modGroup s gid f).pools = s.pools := rfl
@[simp] theorem modGroup_mgmt (gid : Nat) (f : Group → Group) : (modGroup s gid f).mgmt = s.mgmt := rfl
@[simp] theorem modGroup_order (gid : Nat) (f : Group → Group) : (modGroup s gid f).order = s.order := rfl

@[simp] theorem modSplit_fused (gid k : Nat) (f : Split → Split) : (modSplit s gid k f).fused = s.fused := rfl
@[simp] theorem modSplit_caps (gid k : Nat) (f : Split → Split) : (modSplit s gid k f).caps = s.caps := rfl
@[simp] theorem modSplit_cycle (gid k : Nat) (f : Split → Split) : (modSplit s gid k f).cycle = s.cycle := rfl
@[simp] theorem modSplit_fresh (gid k : Nat) (f : Split → Split) : (modSplit s gid k f).fresh = s.fresh := rfl
@[simp] theorem modSplit_cur (gid k : Nat) (f : Split → Split) : (modSplit s gid k f).cur = s.cur := rfl
@[simp] theorem modSplit_agenda (gid k : Nat) (f : Split → Split) : (modSplit s gid k f).agenda = s.agenda := rfl
@[simp] theorem modSplit_late (gid k : Nat) (f : Split → Split) : (modSplit s gid k f).late = s.late := rfl
@[simp] theorem modSplit_mem (gid k : Nat) (f : Split → Split) : (modSplit s gid k f).mem = s.mem := rfl
@[simp] theorem modSplit_host (gid k : Nat) (f : Split → Split) : (modSplit s gid k f).host = s.host := rfl
@[simp] theorem modSplit_remote (gid k : Nat) (f : Split → Split) : (modSplit s gid k f).remote = s.remote := rfl
@[simp] theorem modSplit_poison (gid k : Nat) (f : Split → Split) : (modSplit s gid k f).poison = s.poison := rfl
@[simp] theorem modSplit_own (gid k : Nat) (f : Split → Split) : (modSplit s gid k f).own = s.own := rfl
@[simp] theorem modSplit_si (gid k : Nat) (f : Split → Split) : (modSplit s gid k f).si = s.si := rfl
@[simp] theorem modSplit_scopes (gid k : Nat) (f : Split → Split) : (modSplit s gid k f).scopes = s.scopes := rfl
@[simp] theorem modSplit_tlb (gid k : Nat) (f : Split → Split) : (modSplit s gid k f).tlb = s.tlb := rfl
@[simp] theorem modSplit_cores (gid k : Nat) (f : Split → Split) : (modSplit s gid k f).cores = s.cores := rfl
@[simp] theorem modSplit_teams (gid k : Nat) (f : Split → Split) : (modSplit s gid k f).teams = s.teams := rfl
@[simp] theorem modSplit_parts (gid k : Nat) (f : Split → Split) : (modSplit s gid k f).parts = s.parts := rfl
@[simp] theorem modSplit_pools (gid k : Nat) (f : Split → Split) : (modSplit s gid k f).pools = s.pools := rfl
@[simp] theorem modSplit_mgmt (gid k : Nat) (f : Split → Split) : (modSplit s gid k f).mgmt = s.mgmt := rfl
@[simp] theorem modSplit_order (gid k : Nat) (f : Split → Split) : (modSplit s gid k f).order = s.order := rfl

@[simp] theorem modTeam_fused (tm : Nat) (f : Team → Team) : (modTeam s tm f).fused = s.fused := rfl
@[simp] theorem modTeam_caps (tm : Nat) (f : Team → Team) : (modTeam s tm f).caps = s.caps := rfl
@[simp] theorem modTeam_cycle (tm : Nat) (f : Team → Team) : (modTeam s tm f).cycle = s.cycle := rfl
@[simp] theorem modTeam_fresh (tm : Nat) (f : Team → Team) : (modTeam s tm f).fresh = s.fresh := rfl
@[simp] theorem modTeam_cur (tm : Nat) (f : Team → Team) : (modTeam s tm f).cur = s.cur := rfl
@[simp] theorem modTeam_agenda (tm : Nat) (f : Team → Team) : (modTeam s tm f).agenda = s.agenda := rfl
@[simp] theorem modTeam_late (tm : Nat) (f : Team → Team) : (modTeam s tm f).late = s.late := rfl
@[simp] theorem modTeam_mem (tm : Nat) (f : Team → Team) : (modTeam s tm f).mem = s.mem := rfl
@[simp] theorem modTeam_host (tm : Nat) (f : Team → Team) : (modTeam s tm f).host = s.host := rfl
@[simp] theorem modTeam_remote (tm : Nat) (f : Team → Team) : (modTeam s tm f).remote = s.remote := rfl
@[simp] theorem modTeam_poison (tm : Nat) (f : Team → Team) : (modTeam s tm f).poison = s.poison := rfl
@[simp] theorem modTeam_own (tm : Nat) (f : Team → Team) : (modTeam s tm f).own = s.own := rfl
@[simp] theorem modTeam_si (tm : Nat) (f : Team → Team) : (modTeam s tm f).si = s.si := rfl
@[simp] theorem modTeam_scopes (tm : Nat) (f : Team → Team) : (modTeam s tm f).scopes = s.scopes := rfl
@[simp] theorem modTeam_tlb (tm : Nat) (f : Team → Team) : (modTeam s tm f).tlb = s.tlb := rfl
@[simp] theorem modTeam_cores (tm : Nat) (f : Team → Team) : (modTeam s tm f).cores = s.cores := rfl
@[simp] theorem modTeam_groups (tm : Nat) (f : Team → Team) : (modTeam s tm f).groups = s.groups := rfl
@[simp] theorem modTeam_parts (tm : Nat) (f : Team → Team) : (modTeam s tm f).parts = s.parts := rfl
@[simp] theorem modTeam_pools (tm : Nat) (f : Team → Team) : (modTeam s tm f).pools = s.pools := rfl
@[simp] theorem modTeam_mgmt (tm : Nat) (f : Team → Team) : (modTeam s tm f).mgmt = s.mgmt := rfl
@[simp] theorem modTeam_order (tm : Nat) (f : Team → Team) : (modTeam s tm f).order = s.order := rfl

@[simp] theorem modPart_fused (p : Nat) (f : Partition → Partition) : (modPart s p f).fused = s.fused := rfl
@[simp] theorem modPart_caps (p : Nat) (f : Partition → Partition) : (modPart s p f).caps = s.caps := rfl
@[simp] theorem modPart_cycle (p : Nat) (f : Partition → Partition) : (modPart s p f).cycle = s.cycle := rfl
@[simp] theorem modPart_fresh (p : Nat) (f : Partition → Partition) : (modPart s p f).fresh = s.fresh := rfl
@[simp] theorem modPart_cur (p : Nat) (f : Partition → Partition) : (modPart s p f).cur = s.cur := rfl
@[simp] theorem modPart_agenda (p : Nat) (f : Partition → Partition) : (modPart s p f).agenda = s.agenda := rfl
@[simp] theorem modPart_late (p : Nat) (f : Partition → Partition) : (modPart s p f).late = s.late := rfl
@[simp] theorem modPart_mem (p : Nat) (f : Partition → Partition) : (modPart s p f).mem = s.mem := rfl
@[simp] theorem modPart_host (p : Nat) (f : Partition → Partition) : (modPart s p f).host = s.host := rfl
@[simp] theorem modPart_remote (p : Nat) (f : Partition → Partition) : (modPart s p f).remote = s.remote := rfl
@[simp] theorem modPart_poison (p : Nat) (f : Partition → Partition) : (modPart s p f).poison = s.poison := rfl
@[simp] theorem modPart_own (p : Nat) (f : Partition → Partition) : (modPart s p f).own = s.own := rfl
@[simp] theorem modPart_si (p : Nat) (f : Partition → Partition) : (modPart s p f).si = s.si := rfl
@[simp] theorem modPart_scopes (p : Nat) (f : Partition → Partition) : (modPart s p f).scopes = s.scopes := rfl
@[simp] theorem modPart_tlb (p : Nat) (f : Partition → Partition) : (modPart s p f).tlb = s.tlb := rfl
@[simp] theorem modPart_cores (p : Nat) (f : Partition → Partition) : (modPart s p f).cores = s.cores := rfl
@[simp] theorem modPart_teams (p : Nat) (f : Partition → Partition) : (modPart s p f).teams = s.teams := rfl
@[simp] theorem modPart_groups (p : Nat) (f : Partition → Partition) : (modPart s p f).groups = s.groups := rfl
@[simp] theorem modPart_pools (p : Nat) (f : Partition → Partition) : (modPart s p f).pools = s.pools := rfl
@[simp] theorem modPart_mgmt (p : Nat) (f : Partition → Partition) : (modPart s p f).mgmt = s.mgmt := rfl
@[simp] theorem modPart_order (p : Nat) (f : Partition → Partition) : (modPart s p f).order = s.order := rfl

@[simp] theorem modTask_fused (p tid : Nat) (f : Task → Task) : (modTask s p tid f).fused = s.fused := rfl
@[simp] theorem modTask_caps (p tid : Nat) (f : Task → Task) : (modTask s p tid f).caps = s.caps := rfl
@[simp] theorem modTask_cycle (p tid : Nat) (f : Task → Task) : (modTask s p tid f).cycle = s.cycle := rfl
@[simp] theorem modTask_fresh (p tid : Nat) (f : Task → Task) : (modTask s p tid f).fresh = s.fresh := rfl
@[simp] theorem modTask_cur (p tid : Nat) (f : Task → Task) : (modTask s p tid f).cur = s.cur := rfl
@[simp] theorem modTask_agenda (p tid : Nat) (f : Task → Task) : (modTask s p tid f).agenda = s.agenda := rfl
@[simp] theorem modTask_late (p tid : Nat) (f : Task → Task) : (modTask s p tid f).late = s.late := rfl
@[simp] theorem modTask_mem (p tid : Nat) (f : Task → Task) : (modTask s p tid f).mem = s.mem := rfl
@[simp] theorem modTask_host (p tid : Nat) (f : Task → Task) : (modTask s p tid f).host = s.host := rfl
@[simp] theorem modTask_remote (p tid : Nat) (f : Task → Task) : (modTask s p tid f).remote = s.remote := rfl
@[simp] theorem modTask_poison (p tid : Nat) (f : Task → Task) : (modTask s p tid f).poison = s.poison := rfl
@[simp] theorem modTask_own (p tid : Nat) (f : Task → Task) : (modTask s p tid f).own = s.own := rfl
@[simp] theorem modTask_si (p tid : Nat) (f : Task → Task) : (modTask s p tid f).si = s.si := rfl
@[simp] theorem modTask_scopes (p tid : Nat) (f : Task → Task) : (modTask s p tid f).scopes = s.scopes := rfl
@[simp] theorem modTask_tlb (p tid : Nat) (f : Task → Task) : (modTask s p tid f).tlb = s.tlb := rfl
@[simp] theorem modTask_cores (p tid : Nat) (f : Task → Task) : (modTask s p tid f).cores = s.cores := rfl
@[simp] theorem modTask_teams (p tid : Nat) (f : Task → Task) : (modTask s p tid f).teams = s.teams := rfl
@[simp] theorem modTask_groups (p tid : Nat) (f : Task → Task) : (modTask s p tid f).groups = s.groups := rfl
@[simp] theorem modTask_pools (p tid : Nat) (f : Task → Task) : (modTask s p tid f).pools = s.pools := rfl
@[simp] theorem modTask_mgmt (p tid : Nat) (f : Task → Task) : (modTask s p tid f).mgmt = s.mgmt := rfl
@[simp] theorem modTask_order (p tid : Nat) (f : Task → Task) : (modTask s p tid f).order = s.order := rfl

@[simp] theorem modCore_fused (n : Nat) (f : Core → Core) : (modCore s n f).fused = s.fused := rfl
@[simp] theorem modCore_caps (n : Nat) (f : Core → Core) : (modCore s n f).caps = s.caps := rfl
@[simp] theorem modCore_cycle (n : Nat) (f : Core → Core) : (modCore s n f).cycle = s.cycle := rfl
@[simp] theorem modCore_fresh (n : Nat) (f : Core → Core) : (modCore s n f).fresh = s.fresh := rfl
@[simp] theorem modCore_cur (n : Nat) (f : Core → Core) : (modCore s n f).cur = s.cur := rfl
@[simp] theorem modCore_agenda (n : Nat) (f : Core → Core) : (modCore s n f).agenda = s.agenda := rfl
@[simp] theorem modCore_late (n : Nat) (f : Core → Core) : (modCore s n f).late = s.late := rfl
@[simp] theorem modCore_mem (n : Nat) (f : Core → Core) : (modCore s n f).mem = s.mem := rfl
@[simp] theorem modCore_host (n : Nat) (f : Core → Core) : (modCore s n f).host = s.host := rfl
@[simp] theorem modCore_remote (n : Nat) (f : Core → Core) : (modCore s n f).remote = s.remote := rfl
@[simp] theorem modCore_poison (n : Nat) (f : Core → Core) : (modCore s n f).poison = s.poison := rfl
@[simp] theorem modCore_own (n : Nat) (f : Core → Core) : (modCore s n f).own = s.own := rfl
@[simp] theorem modCore_si (n : Nat) (f : Core → Core) : (modCore s n f).si = s.si := rfl
@[simp] theorem modCore_scopes (n : Nat) (f : Core → Core) : (modCore s n f).scopes = s.scopes := rfl
@[simp] theorem modCore_tlb (n : Nat) (f : Core → Core) : (modCore s n f).tlb = s.tlb := rfl
@[simp] theorem modCore_teams (n : Nat) (f : Core → Core) : (modCore s n f).teams = s.teams := rfl
@[simp] theorem modCore_groups (n : Nat) (f : Core → Core) : (modCore s n f).groups = s.groups := rfl
@[simp] theorem modCore_parts (n : Nat) (f : Core → Core) : (modCore s n f).parts = s.parts := rfl
@[simp] theorem modCore_pools (n : Nat) (f : Core → Core) : (modCore s n f).pools = s.pools := rfl
@[simp] theorem modCore_mgmt (n : Nat) (f : Core → Core) : (modCore s n f).mgmt = s.mgmt := rfl
@[simp] theorem modCore_order (n : Nat) (f : Core → Core) : (modCore s n f).order = s.order := rfl

@[simp] theorem setLg_fused (gid lane : Nat) (x : Dword) : (setLg s gid lane x).fused = s.fused := rfl
@[simp] theorem setLg_caps (gid lane : Nat) (x : Dword) : (setLg s gid lane x).caps = s.caps := rfl
@[simp] theorem setLg_cycle (gid lane : Nat) (x : Dword) : (setLg s gid lane x).cycle = s.cycle := rfl
@[simp] theorem setLg_fresh (gid lane : Nat) (x : Dword) : (setLg s gid lane x).fresh = s.fresh := rfl
@[simp] theorem setLg_cur (gid lane : Nat) (x : Dword) : (setLg s gid lane x).cur = s.cur := rfl
@[simp] theorem setLg_agenda (gid lane : Nat) (x : Dword) : (setLg s gid lane x).agenda = s.agenda := rfl
@[simp] theorem setLg_late (gid lane : Nat) (x : Dword) : (setLg s gid lane x).late = s.late := rfl
@[simp] theorem setLg_mem (gid lane : Nat) (x : Dword) : (setLg s gid lane x).mem = s.mem := rfl
@[simp] theorem setLg_host (gid lane : Nat) (x : Dword) : (setLg s gid lane x).host = s.host := rfl
@[simp] theorem setLg_remote (gid lane : Nat) (x : Dword) : (setLg s gid lane x).remote = s.remote := rfl
@[simp] theorem setLg_poison (gid lane : Nat) (x : Dword) : (setLg s gid lane x).poison = s.poison := rfl
@[simp] theorem setLg_own (gid lane : Nat) (x : Dword) : (setLg s gid lane x).own = s.own := rfl
@[simp] theorem setLg_si (gid lane : Nat) (x : Dword) : (setLg s gid lane x).si = s.si := rfl
@[simp] theorem setLg_scopes (gid lane : Nat) (x : Dword) : (setLg s gid lane x).scopes = s.scopes := rfl
@[simp] theorem setLg_tlb (gid lane : Nat) (x : Dword) : (setLg s gid lane x).tlb = s.tlb := rfl
@[simp] theorem setLg_cores (gid lane : Nat) (x : Dword) : (setLg s gid lane x).cores = s.cores := rfl
@[simp] theorem setLg_teams (gid lane : Nat) (x : Dword) : (setLg s gid lane x).teams = s.teams := rfl
@[simp] theorem setLg_parts (gid lane : Nat) (x : Dword) : (setLg s gid lane x).parts = s.parts := rfl
@[simp] theorem setLg_pools (gid lane : Nat) (x : Dword) : (setLg s gid lane x).pools = s.pools := rfl
@[simp] theorem setLg_mgmt (gid lane : Nat) (x : Dword) : (setLg s gid lane x).mgmt = s.mgmt := rfl
@[simp] theorem setLg_order (gid lane : Nat) (x : Dword) : (setLg s gid lane x).order = s.order := rfl

/-- What a changed map holds at any key. -/
theorem mfind_mmod {α : Type} (m : SMap α) (k j : Nat) (f : α → α) :
    mfind (mmod m k f) j = if j = k then (mfind m k).map f else mfind m j := by
  induction m with
  | nil => simp [mmod, mfind]
  | cons x r ih =>
    obtain ⟨i, v⟩ := x
    by_cases hi : i = k
    · subst hi
      by_cases hj : i = j
      · subst hj; simp [mmod, mfind]
      · have hj' : ¬ j = i := fun h => hj h.symm
        simp [mmod, mfind, hj, hj']
    · by_cases hj : i = j
      · subst hj; simp [mmod, mfind, hi]
      · simp [mmod, mfind, hi, hj, ih]

/-- A changed group. -/
theorem mfind_modGroup (gid j : Nat) (f : Group → Group) :
    mfind (modGroup s gid f).groups j = if j = gid then (mfind s.groups gid).map f else mfind s.groups j :=
  mfind_mmod _ _ _ _

/-- Other groups are left alone. -/
theorem getGroup_modGroup_other (gid j : Nat) (f : Group → Group) (h : j ≠ gid) :
    getGroup (modGroup s gid f) j = getGroup s j := by
  simp [getGroup, mget, mfind_modGroup, h]

/-- The changed group, where it exists. -/
theorem getGroup_modGroup_self (gid : Nat) (f : Group → Group) (g : Group) (h : mfind s.groups gid = some g) :
    getGroup (modGroup s gid f) gid = f (getGroup s gid) := by
  simp [getGroup, mget, mfind_modGroup, h]

/-- The changed partition. -/
@[simp] theorem getPart_modPart_self (p : Nat) (f : Partition → Partition) :
    getPart (modPart s p f) p = f (getPart s p) := by simp [getPart, modPart]

/-- Other partitions are left alone. -/
theorem getPart_modPart_other (p q : Nat) (f : Partition → Partition) (h : q ≠ p) :
    getPart (modPart s p f) q = getPart s q := mget_mset_other _ _ _ _ _ h

/-- The changed core. -/
@[simp] theorem getCore_modCore_self (n : Nat) (f : Core → Core) : getCore (modCore s n f) n = f (getCore s n) := by
  simp [getCore, modCore]

/-- Other cores are left alone. -/
theorem getCore_modCore_other (n m : Nat) (f : Core → Core) (h : m ≠ n) : getCore (modCore s n f) m = getCore s m :=
  mget_mset_other _ _ _ _ _ h

/-- The changed team, where it exists. -/
theorem getTeam_modTeam_self (tm : Nat) (f : Team → Team) (t : Team) (h : mfind s.teams tm = some t) :
    getTeam (modTeam s tm f) tm = f (getTeam s tm) := by
  simp [getTeam, mget, modTeam, mfind_mmod, h]

/-- Other teams are left alone. -/
theorem getTeam_modTeam_other (tm j : Nat) (f : Team → Team) (h : j ≠ tm) : getTeam (modTeam s tm f) j = getTeam s j := by
  simp [getTeam, mget, modTeam, mfind_mmod, h]

@[simp] theorem getPart_modGroup (gid p : Nat) (f : Group → Group) : getPart (modGroup s gid f) p = getPart s p := rfl
@[simp] theorem getTeam_modGroup (gid t : Nat) (f : Group → Group) : getTeam (modGroup s gid f) t = getTeam s t := rfl
@[simp] theorem getCore_modGroup (gid n : Nat) (f : Group → Group) : getCore (modGroup s gid f) n = getCore s n := rfl
@[simp] theorem getTask_modGroup (gid p t : Nat) (f : Group → Group) : getTask (modGroup s gid f) p t = getTask s p t := rfl
@[simp] theorem getPart_modCore (n p : Nat) (f : Core → Core) : getPart (modCore s n f) p = getPart s p := rfl
@[simp] theorem getTeam_modCore (n t : Nat) (f : Core → Core) : getTeam (modCore s n f) t = getTeam s t := rfl
@[simp] theorem getGroup_modCore (n g : Nat) (f : Core → Core) : getGroup (modCore s n f) g = getGroup s g := rfl
@[simp] theorem getTask_modCore (n p t : Nat) (f : Core → Core) : getTask (modCore s n f) p t = getTask s p t := rfl
@[simp] theorem getGroup_modPart (p g : Nat) (f : Partition → Partition) : getGroup (modPart s p f) g = getGroup s g := rfl
@[simp] theorem getTeam_modPart (p t : Nat) (f : Partition → Partition) : getTeam (modPart s p f) t = getTeam s t := rfl
@[simp] theorem getCore_modPart (p n : Nat) (f : Partition → Partition) : getCore (modPart s p f) n = getCore s n := rfl
@[simp] theorem getGroup_modTeam (t g : Nat) (f : Team → Team) : getGroup (modTeam s t f) g = getGroup s g := rfl
@[simp] theorem getPart_modTeam (t p : Nat) (f : Team → Team) : getPart (modTeam s t f) p = getPart s p := rfl

end Sys2Proof.Machine
end

