-- ==== Sys2Proof/Laws/Access.lean ====
section
/-!
SUPPORT. What accesses to the byte space leave alone where no block is poisoned: groups, teams, the order of admissions and the
cards of tasks, for a party whose task keeps no version.
-/

namespace Sys2Proof.Machine

/-- The parts of the state that no access changes. -/
structure SameRun (s t : State) : Prop where
  groups : t.groups = s.groups
  teams  : t.teams = s.teams
  order  : t.order = s.order
  poison : s.poison = [] → t.poison = []
  cards  : ∀ p tid, (getTask t p tid).card = (getTask s p tid).card

theorem SameRun.refl (s : State) : SameRun s s := ⟨rfl, rfl, rfl, id, fun _ _ => rfl⟩

theorem SameRun.trans {s t u : State} (h : SameRun s t) (k : SameRun t u) : SameRun s u :=
  ⟨k.groups.trans h.groups, k.teams.trans h.teams, k.order.trans h.order, fun e => k.poison (h.poison e),
   fun p tid => (k.cards p tid).trans (h.cards p tid)⟩

/-- A state that differs in none of the components. -/
theorem SameRun.of {s t : State} (hg : t.groups = s.groups) (ht : t.teams = s.teams) (ho : t.order = s.order)
    (hq : t.poison = s.poison) (hp : t.parts = s.parts) : SameRun s t :=
  ⟨hg, ht, ho, fun e => hq.trans e, fun p tid => by simp [getTask, findTask, getPart, hp]⟩

/-- A fold of steps that each leave the components alone. -/
theorem SameRun.foldl {α : Type} (f : State → α → State) (h : ∀ s x, SameRun s (f s x)) (xs : List α) (s : State) :
    SameRun s (xs.foldl f s) := by
  induction xs generalizing s with
  | nil => exact .refl s
  | cons x r ih => exact (h s x).trans (ih (f s x))

theorem choose_same (s : State) (n : Nat) : SameRun s (choose s n).2 := by
  unfold choose
  split
  · exact .refl s
  · exact .of rfl rfl rfl rfl rfl

theorem notePool_same (s : State) (a : Nat) : SameRun s (notePool s a) := by
  unfold notePool
  split
  · exact .refl s
  · exact .of rfl rfl rfl rfl rfl

theorem physWriteByte_same (s : State) (a k : Nat) (b : Byte) : SameRun s (physWriteByte s a k b) := by
  unfold physWriteByte
  refine (notePool_same s a).trans ?_
  dsimp only
  split <;> exact .of rfl rfl rfl rfl rfl

theorem settleByte_same (s : State) (a k : Nat) (b : Byte) : SameRun s (settleByte s a k b) := by
  unfold settleByte
  split
  · exact .of rfl rfl rfl rfl rfl
  · exact physWriteByte_same s a k b

theorem recallGrain_same (s : State) (base : Nat) : SameRun s (recallGrain s base) := by
  unfold recallGrain
  split
  · exact .refl s
  · refine SameRun.trans ?_ (.foldl _ (fun s (e : Nat × Byte × Nat) => settleByte_same s e.1 e.2.2 e.2.1) _ _)
    exact .of rfl rfl rfl rfl rfl

theorem recallFrom_same (s : State) (a : Nat) (c : Option Nat) : SameRun s (recallFrom s a c) := by
  unfold recallFrom
  split
  · split
    · exact .refl s
    · exact recallGrain_same s _
  · exact .refl s

theorem homeWriteByte_same (s : State) (a k : Nat) (b : Byte) : SameRun s (homeWriteByte s a k b) := by
  have h : ∀ o : Option (Nat × OwnGrain), ∀ x : Nat, SameRun s (match o with
      | some (g, o) => if (rangeFrom (x / 4 * 4) 4).any fun x => mhas o.dirty x then recallGrain s g else s
      | none => s) := by
    intro o x
    split
    · split
      · exact recallGrain_same s _
      · exact .refl s
    · exact .refl s
  unfold homeWriteByte
  dsimp only
  split
  · exact (h _ _).trans (settleByte_same _ _ _ _)
  · exact (h _ _).trans (.of rfl rfl rfl rfl rfl)

theorem homeWrite_same (s : State) (ws : List (Nat × Byte)) (k : Nat) : SameRun s (homeWrite s ws k) :=
  .foldl _ (fun s _ => homeWriteByte_same s _ _ _) ws s

theorem ownWrite_same (s : State) (core g : Nat) (ws : List (Nat × Byte)) (k : Nat) : SameRun s (ownWrite s core g ws k) := by
  refine .foldl _ (fun s w => ?_) ws s
  dsimp only
  refine (notePool_same s (homeOf s w.1 k).1).trans ?_
  split
  · exact (recallFrom_same _ _ _).trans (.of rfl rfl rfl rfl rfl)
  · exact ((recallFrom_same _ _ _).trans (.foldl _ (fun s _ => recallGrain_same s _) _ _)).trans (.of rfl rfl rfl rfl rfl)

theorem clearPoison_same (s : State) (as : List Nat) : SameRun s (clearPoison s as) := by
  unfold clearPoison
  split
  · exact .refl s
  · next h => exact ⟨rfl, rfl, rfl, fun e => absurd (by simp [e]) h, fun _ _ => rfl⟩

theorem dropSectors_same (s : State) (hit : Nat → Bool) : SameRun s (dropSectors s hit) := by
  unfold dropSectors
  split
  · exact .refl s
  · exact .of rfl rfl rfl rfl rfl

theorem dropViews_same (s : State) (l : Leaf) (ph : List Nat) : SameRun s (dropViews s l ph) := by
  unfold dropViews
  dsimp only
  split
  · exact dropSectors_same s _
  · exact (dropSectors_same s _).trans (.of rfl rfl rfl rfl rfl)

theorem siWrite_same (s : State) (core : Nat) (l : Leaf) (off : Nat) (bs : List Byte) (ph : List Nat) :
    SameRun s (siWrite s core l off bs ph) := by
  unfold siWrite
  dsimp only
  refine (dropViews_same s l ph).trans ?_
  split
  · exact .refl _
  · split
    · exact (dropSectors_same _ _).trans (.of rfl rfl rfl rfl rfl)
    · exact dropSectors_same _ _

/-- A partition whose window changes task by task, the identifiers and cards staying. -/
theorem modWindow_same (s : State) (p : Nat) (f : Task → Task) (h : ∀ t, (f t).tid = t.tid ∧ (f t).card = t.card) :
    SameRun s (modPart s p fun q => { q with window := q.window.map f }) := by
  refine ⟨rfl, rfl, rfl, id, fun q tid => ?_⟩
  by_cases hq : q = p
  · subst hq
    simp only [getTask, findTask, getPart_modPart_self]
    induction (getPart s q).window with
    | nil => rfl
    | cons t r ih =>
      simp only [List.map_cons, List.find?_cons, (h t).1]
      split
      · exact (h t).2
      · exact ih
  · simp only [getTask, findTask, getPart_modPart_other _ _ _ _ hq]

theorem noteCode_same (s : State) (p : Nat) (ph : List Nat) : SameRun s (noteCode s p ph) := by
  unfold noteCode
  split
  · exact .refl s
  · refine modWindow_same s p _ fun t => ?_
    unfold keepCode
    split <;> exact ⟨rfl, rfl⟩

theorem adoptPages_same (s : State) (p : Nat) : SameRun s (adoptPages s p) := by
  unfold adoptPages
  split
  · exact .refl s
  · exact .of rfl rfl rfl rfl rfl

theorem countSat_same (s : State) (p n : Nat) : SameRun s (countSat s p n) := by
  unfold countSat
  split
  · exact .refl s
  · refine ⟨rfl, rfl, rfl, id, fun q tid => ?_⟩
    by_cases h : q = p
    · subst h; simp [getTask, findTask]
    · simp only [getTask, findTask, getPart_modPart_other _ _ _ _ h]

theorem sendFlit_same (s : State) (a : Nat) (k : FlitKind) (bs : List Byte) : SameRun s (sendFlit s a k bs) := by
  unfold sendFlit sendTo
  dsimp only
  split
  · exact choose_same s _
  · exact (choose_same s _).trans (.of rfl rfl rfl rfl rfl)

theorem writeAt_same (s : State) (c : Acc) (l : Leaf) (va : Nat) (bs : List Byte) (req : Nat)
    (h : (getTask s c.p c.tid).card.ver = false) : SameRun s (writeAt s c l va bs req) := by
  unfold writeAt
  simp only [h, Bool.false_eq_true, if_false]
  unfold writeUnit
  simp only [h, Bool.false_eq_true, if_false, List.isEmpty_nil, Bool.not_true]
  split
  · refine (sendFlit_same _ (l.frame + pageOff l va) (if req = 5 then .rmw else .write) bs).trans ?_
    refine SameRun.trans ?_ (siWrite_same _ _ _ _ _ _)
    exact .of rfl rfl rfl rfl rfl
  · refine SameRun.trans ?_ (siWrite_same _ _ _ _ _ _)
    have hw (ph as : List Nat) (n : Nat) : SameRun s (adoptPages (clearPoison (countSat (noteCode s c.p ph) c.p n) as) c.p) :=
      (((noteCode_same s c.p ph).trans (countSat_same _ _ _)).trans (clearPoison_same _ _)).trans (adoptPages_same _ _)
    split
    · exact (hw _ _ _).trans (ownWrite_same _ _ _ _ _)
    · exact (hw _ _ _).trans (homeWrite_same _ _ _)

theorem tlbFill_same (s : State) (fresh : Bool) (e : TlbEnt) : SameRun s (tlbFill s fresh e) := by
  unfold tlbFill
  split
  · exact .refl s
  · split
    · next n _ =>
      have hc (ws : List Nat) (f : Option Nat) : SameRun s (match f with
          | some w => (some w, s)
          | none => let c := choose s ws.length; (ws[c.1]?, c.2) : Option Nat × State).2 := by
        cases f with
        | some w => exact .refl s
        | none => exact choose_same s _
      dsimp only
      split
      · exact (hc _ _).trans (.of rfl rfl rfl rfl rfl)
      · exact hc _ _
    · dsimp only
      split
      · exact .of rfl rfl rfl rfl rfl
      · split
        · exact (choose_same s _).trans (.of rfl rfl rfl rfl rfl)
        · exact choose_same s _

theorem translate_same (s : State) (p core team va : Nat) : SameRun s (translate s p core team va).2 := by
  unfold translate
  dsimp only
  split
  · refine SameRun.trans ?_ (tlbFill_same _ _ _)
    split
    · exact (choose_same s _).trans (tlbFill_same _ _ _)
    · exact choose_same s _
  · exact choose_same s _

theorem strikeWalk_clean {s : State} (h : s.poison = []) (c : Acc) (va : Nat) : strikeWalk s c va = s := by
  unfold strikeWalk
  simp [h]

theorem checkAcc_same (s : State) (c : Acc) (k : AccKind) (lane va n : Nat) (f : Leaf → Bool) (h : s.poison = []) :
    SameRun s (checkAcc s c k lane va n f).2 := by
  unfold checkAcc
  dsimp only
  rw [strikeWalk_clean h]
  split
  · exact .refl s
  · split
    · exact .refl s
    · split
      · exact translate_same s _ _ _ _
      · split <;> exact translate_same s _ _ _ _
      · split
        · exact translate_same s _ _ _ _
        · split <;> exact translate_same s _ _ _ _

theorem rangeCheck_same (s : State) (c : Acc) (k : AccKind) (source : Nat) (f : Leaf → Bool) (ps : List (Nat × Nat))
    (h : s.poison = []) : SameRun s (rangeCheck s c k source f ps).2 := by
  induction ps generalizing s with
  | nil => exact .refl s
  | cons p r ih =>
    have hc := checkAcc_same s c k 0 p.1 1 f h
    unfold rangeCheck
    dsimp only
    split
    · exact hc
    · exact hc
    · split <;> exact hc.trans (ih _ (hc.poison h))

/-- The pieces of a range written, one after another. -/
theorem writePieces_same (c : Acc) (req : Nat) (bs : Nat × Nat × Leaf → List Byte) (ls : List (Nat × Nat × Leaf)) (s : State)
    (h : (getTask s c.p c.tid).card.ver = false) :
    SameRun s (ls.foldl (fun acc x => writeAt acc c x.2.2 x.1 (bs x) req) s) := by
  induction ls generalizing s with
  | nil => exact .refl s
  | cons x r ih =>
    have hw := writeAt_same s c x.2.2 x.1 (bs x) req h
    exact hw.trans (ih _ (by rw [hw.cards]; exact h))

/-- A range written by a party without a version leaves groups, teams, order and cards alone. -/
theorem rangeWrite_same (s : State) (c : Acc) (source va : Nat) (bs : List Byte) (req : Nat)
    (h : (getTask s c.p c.tid).card.ver = false) (hp : s.poison = []) : SameRun s (rangeWrite s c source va bs req).2 := by
  unfold rangeWrite
  dsimp only
  have hc := rangeCheck_same s c .write source anyPage (piecesOf va bs.length) hp
  split
  · exact hc
  · refine hc.trans ?_
    exact writePieces_same c req (fun x => (bs.drop (x.1 - va)).take x.2.1) _ _ (by rw [hc.cards]; exact h)

end Sys2Proof.Machine
end

