-- ==== Sys2Proof/Laws/Issue.lean ====
section
/-!
SUPPORT. What the frame of issue and the retirement of an instruction can do, said once.
-/

namespace Sys2Proof.Machine

/-- Where a split is, when it is anywhere. -/
theorem atOf_some {s : State} {gid k : Nat} {a : At} (h : atOf s gid k = some a) :
    mfind s.groups gid = some a.g ∧ a.g.splits[k]? = some a.sp ∧ a.gid = gid ∧ a.k = k
      ∧ a.tm = getTeam s (teamKey gid) ∧ a.task = getTask s a.tm.part a.tm.tid := by
  unfold atOf at h
  split at h
  · exact absurd h (by simp)
  · next g hg =>
    split at h
    · exact absurd h (by simp)
    · next sp hsp =>
      simp only [Option.some.injEq] at h
      subst h
      exact ⟨hg, hsp, rfl, rfl, rfl, rfl⟩

/-- The issuer's place. -/
theorem curAt_some {s : State} {a : At} (h : curAt s = some a) :
    atOf s a.gid a.k = some a ∧ mfind s.groups a.gid = some a.g := by
  unfold curAt at h
  cases hc : s.cur with
  | none => simp [hc] at h
  | some c =>
    simp only [hc, Option.bind_some] at h
    have := atOf_some h
    obtain ⟨h1, -, h3, h4, -⟩ := this
    rw [h3, h4]
    exact ⟨h, h1⟩

/-- The groups after the bookkeeping of issue. -/
theorem book_groups (s : State) (a : At) (e : Enc) : (book s a e).groups = mmod s.groups a.gid (bookGroup s a e) := by
  unfold book
  simp only
  split <;> rfl

/-- The bookkeeping of issue changes groups, and latches at the start of a hold chain. -/
theorem book_rest (s : State) (a : At) (e : Enc) : { book s a e with groups := s.groups, cores := s.cores } = s := by
  unfold book
  simp only
  split <;> rfl

/-- A core whose latches alone have changed. -/
theorem getCore_latches (s : State) (n m : Nat) (f : SMap Word → SMap Word) :
    ∃ latches, getCore (modCore s n fun c => { c with latches := f c.latches }) m = { getCore s m with latches } := by
  by_cases h : m = n
  · subst h; exact ⟨f (getCore s m).latches, by simp⟩
  · exact ⟨(getCore s m).latches, by rw [getCore_modCore_other _ _ _ _ h]⟩

/-- The bookkeeping of issue changes latches alone of a core. -/
theorem book_cores (s : State) (a : At) (e : Enc) (n : Nat) :
    ∃ latches, getCore (book s a e) n = { getCore s n with latches } := by
  unfold book
  simp only
  split
  · exact getCore_latches _ _ _ _
  · exact ⟨(getCore s n).latches, rfl⟩

/-- The group after the bookkeeping. -/
theorem book_group {s : State} {a : At} (e : Enc) (h : mfind s.groups a.gid = some a.g) :
    mfind (book s a e).groups a.gid = some (bookGroup s a e a.g) := by
  rw [book_groups, mfind_mmod]; simp [h]

/-- Other groups are left alone by the bookkeeping. -/
theorem book_others (s : State) (a : At) (e : Enc) (g : Nat) (h : g ≠ a.gid) :
    mfind (book s a e).groups g = mfind s.groups g := by
  rw [book_groups, mfind_mmod]; simp [h]

/-- A field that the bookkeeping leaves alone. -/
theorem book_field {α : Type} (s : State) (a : At) (e : Enc) (f : State → α)
    (hf : ∀ (x : State) g c, f { x with groups := g, cores := c } = f x) : f (book s a e) = f s := by
  have h := congrArg f (book_rest s a e)
  rw [hf] at h
  exact h

/-- Where the split stands once its instruction has issued. -/
theorem issuedAt_eq {s : State} {a : At} (e : Enc) (h : curAt s = some a) :
    atOf (book s a e) a.gid a.k = some (issuedAt s a e)
    ∧ issuedAt s a e = { a with g := bookGroup s a e a.g, sp := bookSplit s a e a.sp } := by
  obtain ⟨h1, hg⟩ := curAt_some h
  obtain ⟨-, hsp, -, -, htm, htask⟩ := atOf_some h1
  have hb := book_group e hg
  have hsp' : (bookGroup s a e a.g).splits[a.k]? = some (bookSplit s a e a.sp) := by
    simp [bookGroup, List.getElem?_mapIdx, hsp]
  have hteam : ∀ tm, getTeam (book s a e) tm = getTeam s tm := fun tm =>
    book_field s a e (fun x => getTeam x tm) (fun _ _ _ => rfl)
  have htk : ∀ p t, getTask (book s a e) p t = getTask s p t := fun p t =>
    book_field s a e (fun x => getTask x p t) (fun _ _ _ => rfl)
  have h2 : atOf (book s a e) a.gid a.k
      = some { a with g := bookGroup s a e a.g, sp := bookSplit s a e a.sp } := by
    unfold atOf
    rw [hb]
    simp only [hsp', hteam, htk, ← htm, ← htask]
  refine ⟨?_, ?_⟩
  · unfold issuedAt; rw [h2]; rfl
  · unfold issuedAt; rw [h2]; rfl

/-- An instruction that nothing keeps from issuing has its effect. -/
theorem gate_clear {f : Form} {e : Enc} {s : State} {a : At} (h : Clear f e s a) :
    gate f e s = .go (book s a e) (issOf f e s a) := by
  unfold gate
  rw [h.issuer]
  simp only [h.calm, h.prompt]
  have hl : encCheck f e ⟨a.sp.handler, a.sp.chain, quotaNow a.g, a.sp.fmt, s.caps⟩ = none := h.legal
  simp only [hl, h.free, (issuedAt_eq e h.issuer).1, Bool.not_true]
  rfl

/-- What a clear instruction does. -/
theorem issue_clear {f : Form} {e : Enc} {s : State} {a : At} (h : Clear f e s a) (eff : Iss → State → State) :
    issue f e s eff = .next (eff (issOf f e s a) (book s a e)) := by
  unfold issue; rw [gate_clear h]

/-- The flags after the bookkeeping (R20). -/
theorem bookGroup_flags (s : State) (a : At) (e : Enc) (g : Group) (k : Nat) :
    getFlag (bookGroup s a e g) k = getFlag g k + if flagOf e = some k then 1 else 0 := by
  unfold getFlag bookGroup
  cases hf : flagOf e with
  | none => simp
  | some j =>
    simp only [Option.some.injEq]
    rw [mget_mput]
    by_cases h : k = j
    · subst h; simp [getFlag]
    · simp [h, Ne.symm h]

/-- What the bookkeeping leaves as it was. -/
theorem book_frame {s : State} {a : At} (e : Enc) (h : curAt s = some a) : Frame s (book s a e) a e := by
  have hg := (curAt_some h).2
  have hb := book_group e hg
  have e1 : getGroup (book s a e) a.gid = bookGroup s a e a.g := by simp [getGroup, mget, hb]
  have e2 : getGroup s a.gid = a.g := by simp [getGroup, mget, hg]
  refine ⟨book_rest s a e, fun x => ?_, fun g => book_others s a e g, ?_, fun k => ?_, book_cores s a e⟩
  · exact congrArg (fun m => readByte m x) (book_field s a e State.mem (fun _ _ _ => rfl))
  · rw [e1, e2]; exact ⟨_, _, _, _, _, _, rfl⟩
  · rw [e1, e2]; exact bookGroup_flags s a e a.g k

end Sys2Proof.Machine
end

