-- ==== Sys2Proof/Laws/Retire.lean ====
section
/-!
SUPPORT. What fixed-latency writes and the retirement of an instruction do to registers, generators and flags.
-/

namespace Sys2Proof.Machine

/-- Keys of a range. -/
theorem mem_rangeFrom (a n x : Nat) : x ∈ rangeFrom a n ↔ a ≤ x ∧ x < a + n := by
  induction n generalizing a with
  | zero => simp [rangeFrom]
  | succ n ih => simp only [rangeFrom, List.mem_cons, ih]; omega

@[simp] theorem rangeFrom_length (a n : Nat) : (rangeFrom a n).length = n := by
  induction n generalizing a with
  | zero => rfl
  | succ n ih => simp [rangeFrom, ih]

@[simp] theorem natWords_length (n x : Nat) : (natWords n x).length = n := by
  induction n generalizing x with
  | zero => rfl
  | succ n ih => simp [natWords, ih]

/-- The words of a number hold it. -/
theorem wordsNat_natWords (n x : Nat) : wordsNat (natWords n x) = x % 2 ^ (32 * n) := by
  induction n generalizing x with
  | zero => simp [natWords, wordsNat, Nat.mod_one]
  | succ n ih =>
    simp only [natWords, wordsNat, ih, BitVec.toNat_ofNat]
    rw [show 32 * (n + 1) = 32 + 32 * n by omega, Nat.pow_add, Nat.mod_mul]

/-- A block whose registers hold the words of a number holds the number. -/
theorem blockOf_eq (t : State) (gid key n x : Nat)
    (h : ∀ j, j < n → regOf t gid (key + j) = (natWords n x).getD j 0) : blockOf t gid key n = x % 2 ^ (32 * n) := by
  rw [← wordsNat_natWords]
  unfold blockOf
  congr 1
  induction n generalizing key x with
  | zero => rfl
  | succ n ih =>
    simp only [rangeFrom, List.map_cons, natWords]
    congr 1
    · exact h 0 (Nat.succ_pos n)
    · refine ih (key + 1) (x / 2 ^ 32) fun j hj => ?_
      have := h (j + 1) (Nat.succ_lt_succ hj)
      rw [show key + 1 + j = key + (j + 1) by omega, this]
      simp [natWords]

/-- The register that a fixed-latency write leaves. -/
theorem writeFixed1_reg (fresh cov k due : Nat) (g : Group) (w : Nat × Word) (key : Nat) :
    mget (writeFixed1 fresh cov k due g w).regs key 0
      = if key = w.1 ∧ fixedTrue w.1 = false then w.2 else mget g.regs key 0 := by
  unfold writeFixed1
  split
  · next h => simp [h]
  · next h =>
    simp only
    rw [mget_mput]
    by_cases hk : key = w.1
    · simp [hk, h]
    · simp [hk]

/-- A register that no write of a list names keeps its value. -/
theorem writeFixed_reg_other (fresh cov k due : Nat) (g : Group) (ws : List (Nat × Word)) (key : Nat)
    (h : ∀ w ∈ ws, w.1 ≠ key) :
    mget (ws.foldl (writeFixed1 fresh cov k due) g).regs key 0 = mget g.regs key 0 := by
  induction ws generalizing g with
  | nil => rfl
  | cons w r ih =>
    rw [List.foldl_cons, ih _ fun x hx => h x (List.mem_cons_of_mem _ hx), writeFixed1_reg]
    have := h w List.mem_cons_self
    simp [Ne.symm this]

/-- The register that the one write to it leaves. -/
theorem writeFixed_reg (fresh cov k due : Nat) (g : Group) (ws : List (Nat × Word)) (key : Nat) (v : Word)
    (hw : (key, v) ∈ ws) (hd : (ws.map Prod.fst).Nodup) (hf : fixedTrue key = false) :
    mget (ws.foldl (writeFixed1 fresh cov k due) g).regs key 0 = v := by
  induction ws generalizing g with
  | nil => simp at hw
  | cons w r ih =>
    rw [List.foldl_cons]
    simp only [List.map_cons, List.nodup_cons] at hd
    rcases List.mem_cons.1 hw with hw | hw
    · subst hw
      rw [writeFixed_reg_other, writeFixed1_reg]
      · simp [hf]
      · intro x hx hk
        exact hd.1 (List.mem_map.2 ⟨x, hx, hk⟩)
    · exact ih _ hw hd.2

/-- Writes change registers, windows and operations only. -/
theorem writeFixed_group (fresh cov k due : Nat) (g : Group) (ws : List (Nat × Word)) :
    ∃ regs splits ops, ws.foldl (writeFixed1 fresh cov k due) g = { g with regs, splits, ops }
      ∧ splits.map (·.pc) = g.splits.map (·.pc) := by
  induction ws generalizing g with
  | nil => exact ⟨g.regs, g.splits, g.ops, rfl, rfl⟩
  | cons w r ih =>
    obtain ⟨regs, splits, ops, h1, h2⟩ := ih (writeFixed1 fresh cov k due g w)
    refine ⟨regs, splits, ops, ?_, ?_⟩
    · rw [List.foldl_cons, h1]
      unfold writeFixed1
      split <;> rfl
    · rw [h2]
      unfold writeFixed1
      split
      · rfl
      · apply List.ext_getElem?
        intro j
        simp only [List.getElem?_map, List.getElem?_modify]
        cases g.splits[j]? <;> simp
        split <;> rfl

/-- What the retirement of an instruction can do to its group: registers as the writes say; windows, operations. -/
theorem retire_group (s : State) (i : Iss) (regs preds : List (Nat × Word)) (res : SMap Word) (g : Group)
    (hg : mfind s.groups i.a.gid = some g) :
    ∃ splits ops nextOp,
      mfind (retire s i regs preds res).groups i.a.gid
        = some { g with
            regs := (((if i.e.ctl.nwb then [] else regs) ++ preds).foldl
              (writeFixed1 s.fresh (flagCov i.e) i.a.k (i.a.sp.now + latency (i.f.cls i.e))) g).regs, splits, ops, nextOp }
      ∧ splits.map (·.pc) = g.splits.map (·.pc) := by
  have key : ∀ s1 : State, s1.groups = s.groups → s1.fresh = s.fresh →
      ∃ splits ops nextOp,
      mfind (flagFixed (writeFixed s1 i ((if i.e.ctl.nwb then [] else regs) ++ preds)) i).groups i.a.gid
        = some { g with
            regs := (((if i.e.ctl.nwb then [] else regs) ++ preds).foldl
              (writeFixed1 s.fresh (flagCov i.e) i.a.k (i.a.sp.now + latency (i.f.cls i.e))) g).regs, splits, ops, nextOp }
      ∧ splits.map (·.pc) = g.splits.map (·.pc) := by
    intro s1 h1 h2
    obtain ⟨r, sp, ops, he, hp⟩ := writeFixed_group s.fresh (flagCov i.e) i.a.k (i.a.sp.now + latency (i.f.cls i.e)) g
      ((if i.e.ctl.nwb then [] else regs) ++ preds)
    have hw : mfind (writeFixed s1 i ((if i.e.ctl.nwb then [] else regs) ++ preds)).groups i.a.gid
        = some { g with regs := r, splits := sp, ops } := by
      unfold writeFixed
      simp only [mfind_modGroup, if_true, h1, h2, hg, Option.map_some, he]
    unfold flagFixed
    cases flagOf i.e with
    | none => exact ⟨sp, ops, g.nextOp, by simp only [hw, he], hp⟩
    | some k => exact ⟨sp, _, _, by simp only [mfind_modGroup, if_true, hw, Option.map_some, he]; rfl, hp⟩
  unfold retire
  simp only
  split
  · exact key _ (by unfold shiftLatches; simp) (by unfold shiftLatches; simp)
  · exact key _ rfl rfl

/-- What the retirement leaves alone besides its group. -/
theorem retire_rest (s : State) (i : Iss) (regs preds : List (Nat × Word)) (res : SMap Word) :
    { retire s i regs preds res with groups := s.groups, cores := s.cores } = s
    ∧ (∀ g, g ≠ i.a.gid → mfind (retire s i regs preds res).groups g = mfind s.groups g)
    ∧ ∀ n, ∃ latches, getCore (retire s i regs preds res) n = { getCore s n with latches } := by
  have key : ∀ s1 : State, { s1 with groups := s.groups, cores := s.cores } = s → s1.groups = s.groups →
      { flagFixed (writeFixed s1 i ((if i.e.ctl.nwb then [] else regs) ++ preds)) i with
          groups := s.groups, cores := s.cores } = s
      ∧ (∀ g, g ≠ i.a.gid → mfind (flagFixed (writeFixed s1 i ((if i.e.ctl.nwb then [] else regs) ++ preds)) i).groups g
          = mfind s.groups g)
      ∧ ∀ n, getCore (flagFixed (writeFixed s1 i ((if i.e.ctl.nwb then [] else regs) ++ preds)) i) n = getCore s1 n := by
    intro s1 h1 h2
    refine ⟨?_, fun g hg => ?_, fun n => ?_⟩
    · unfold flagFixed writeFixed; split <;> exact h1
    · unfold flagFixed writeFixed; split <;> simp [mfind_modGroup, hg, h2]
    · unfold flagFixed writeFixed; split <;> rfl
  unfold retire
  simp only
  split
  · obtain ⟨h1, h2, h3⟩ := key (shiftLatches s i res) (by unfold shiftLatches; rfl) (by unfold shiftLatches; rfl)
    refine ⟨h1, h2, fun n => ?_⟩
    rw [h3]; exact getCore_latches _ _ _ (shiftRow _ _)
  · obtain ⟨h1, h2, h3⟩ := key s rfl rfl
    exact ⟨h1, h2, fun n => ⟨(getCore s n).latches, by rw [h3]⟩⟩

/-- Generators set one after another. -/
theorem setLgs (s : State) (gid : Nat) (outs : List (Nat × LaneOut)) (g : Group) (hg : mfind s.groups gid = some g) :
    ∃ lg, mfind (outs.foldl (fun acc o => setLg acc gid o.1 o.2.lg) s).groups gid = some { g with lg }
      ∧ (∀ l, (∀ o ∈ outs, o.1 ≠ l) → mget lg l 0 = mget g.lg l 0)
      ∧ ((outs.map Prod.fst).Nodup → ∀ o ∈ outs, mget lg o.1 0 = o.2.lg) := by
  induction outs generalizing s g with
  | nil => exact ⟨g.lg, hg, fun _ _ => rfl, fun _ _ h => by simp at h⟩
  | cons o r ih =>
    have h1 : mfind (setLg s gid o.1 o.2.lg).groups gid = some { g with lg := mput 0 g.lg o.1 o.2.lg } := by
      unfold setLg; simp only [mfind_modGroup, if_true, hg, Option.map_some]
    obtain ⟨lg, h2, h3, h4⟩ := ih _ _ h1
    refine ⟨lg, h2, fun l hl => ?_, fun hd x hx => ?_⟩
    · rw [h3 l fun y hy => hl y (List.mem_cons_of_mem _ hy), mget_mput_other]
      exact Ne.symm (hl o List.mem_cons_self)
    · simp only [List.map_cons, List.nodup_cons] at hd
      rcases List.mem_cons.1 hx with hx | hx
      · subst hx
        rw [h3, mget_mput_self]
        intro y hy he
        exact hd.1 (he ▸ List.mem_map_of_mem hy)
      · exact h4 hd.2 x hx

/-- Setting generators leaves the rest of the state alone. -/
theorem setLgs_rest (s : State) (gid : Nat) (outs : List (Nat × LaneOut)) :
    { outs.foldl (fun acc o => setLg acc gid o.1 o.2.lg) s with groups := s.groups } = s
    ∧ ∀ g, g ≠ gid → mfind (outs.foldl (fun acc o => setLg acc gid o.1 o.2.lg) s).groups g = mfind s.groups g := by
  induction outs generalizing s with
  | nil => exact ⟨rfl, fun _ _ => rfl⟩
  | cons o r ih =>
    obtain ⟨h1, h2⟩ := ih (setLg s gid o.1 o.2.lg)
    refine ⟨?_, fun g hg => ?_⟩
    · have := congrArg (fun x : State => { x with groups := s.groups }) h1
      exact this
    · rw [List.foldl_cons, h2 g hg]; unfold setLg; simp [mfind_modGroup, hg]

end Sys2Proof.Machine
end

