-- ==== Sys2Proof/Laws/Lane.lean ====
section
/-!
SUPPORT. What the lane and uniform arithmetic instructions do, said once for all of them.
-/

namespace Sys2Proof.Machine

/-- Frames are kept by a retirement that follows. -/
theorem frame_of {s s1 t : State} {a : At} {e : Enc} (h : Frame s s1 a e)
    (hrest : { t with groups := s1.groups, cores := s1.cores } = s1)
    (hoth : ∀ g, g ≠ a.gid → mfind t.groups g = mfind s1.groups g)
    (hgrp : ∃ regs lg splits ops nextOp,
      getGroup t a.gid = { getGroup s1 a.gid with regs, lg, splits, ops, nextOp })
    (hcores : ∀ n, ∃ latches, getCore t n = { getCore s1 n with latches }) : Frame s t a e := by
  have hr : { t with groups := s.groups, cores := s.cores } = s := by
    have := congrArg (fun x : State => { x with groups := s.groups, cores := s.cores }) hrest
    exact this.trans h.rest
  obtain ⟨regs, lg, splits, ops, nextOp, hg⟩ := hgrp
  refine ⟨hr, fun x => ?_, fun g hg => ?_, ?_, fun k => ?_, fun n => ?_⟩
  · have := congrArg (fun y : State => readByte y.mem x) hr; exact this
  · rw [hoth g hg, h.others g hg]
  · obtain ⟨r1, l1, f1, s1', o1, n1, h1⟩ := h.group
    exact ⟨regs, lg, f1, splits, ops, nextOp, by rw [hg, h1]⟩
  · rw [← h.flags k, hg]; rfl
  · obtain ⟨l1, h1⟩ := hcores n
    obtain ⟨l2, h2⟩ := h.cores n
    exact ⟨l1, by rw [h1, h2]⟩

/-- The lanes of a mask are listed once each. -/
theorem lanesOf_nodup (w : Word) : (lanesOf w).Nodup := List.Pairwise.filter _ List.nodup_range

/-- Participants are listed once each. -/
theorem participants_nodup (s : State) (a : At) (e : Enc) : (participants s a e).Nodup :=
  List.Pairwise.filter _ (lanesOf_nodup _)

/-- A v block lies below the uniform registers, and blocks of different lanes do not meet. -/
theorem vKey_inj {l m d n j k : Nat} (h : d + n ≤ 256) (hj : j < n) (hk : k < n) (e : vKey l d + j = vKey m d + k) :
    l = m ∧ j = k := by
  unfold vKey at e; omega

/-- Writes of a block of `n` words from a key. -/
def blockW (key n x : Nat) : List (Nat × Word) := (rangeFrom key n).zip (natWords n x)

theorem mem_blockW (key n x : Nat) (w : Nat × Word) (h : w ∈ blockW key n x) :
    ∃ j, j < n ∧ w = (key + j, (natWords n x).getD j 0) := by
  unfold blockW at h
  induction n generalizing key x with
  | zero => simp [rangeFrom] at h
  | succ n ih =>
    simp only [rangeFrom, natWords, List.zip_cons_cons, List.mem_cons] at h
    rcases h with h | h
    · exact ⟨0, Nat.succ_pos n, by simp [h, natWords]⟩
    · obtain ⟨j, hj, hw⟩ := ih (key + 1) (x / 2 ^ 32) h
      exact ⟨j + 1, Nat.succ_lt_succ hj, by rw [hw]; simp [natWords]; omega⟩

theorem blockW_mem (key n x j : Nat) (h : j < n) : (key + j, (natWords n x).getD j 0) ∈ blockW key n x := by
  unfold blockW
  induction n generalizing key x j with
  | zero => omega
  | succ n ih =>
    simp only [rangeFrom, natWords, List.zip_cons_cons, List.mem_cons]
    cases j with
    | zero => left; simp
    | succ j =>
      right
      have := ih (key + 1) (x / 2 ^ 32) j (by omega)
      rw [show key + (j + 1) = key + 1 + j by omega]
      simpa using this

theorem blockW_keys (key n x : Nat) : (blockW key n x).map Prod.fst = rangeFrom key n := by
  unfold blockW
  rw [List.map_fst_zip]
  simp

theorem rangeFrom_nodup (a n : Nat) : (rangeFrom a n).Nodup := by
  induction n generalizing a with
  | zero => exact List.nodup_nil
  | succ n ih =>
    simp only [rangeFrom, List.nodup_cons]
    exact ⟨fun h => by have := (mem_rangeFrom _ _ _).1 h; omega, ih _⟩

/-- The registers after the writes of one block for each slot, in any group. -/
theorem written_of {s t : State} {gid n fresh cov k due : Nat} {g g1 : Group} {slots : List Nat} {key : Nat → Nat}
    {val : Nat → Nat} (hs : getGroup s gid = g1) (hr : g.regs = g1.regs)
    (ht : (getGroup t gid).regs = ((slots.flatMap fun l => blockW (key l) n (val l)).foldl (writeFixed1 fresh cov k due) g).regs)
    (hd : slots.Nodup) (hf : ∀ l ∈ slots, ∀ j < n, fixedTrue (key l + j) = false)
    (hinj : ∀ l ∈ slots, ∀ m ∈ slots, ∀ j < n, ∀ i < n, key l + j = key m + i → l = m) :
    Written s t gid slots key n val := by
  have hnd : ((slots.flatMap fun l => blockW (key l) n (val l)).map Prod.fst).Nodup := by
    rw [List.map_flatMap]
    simp only [blockW_keys]
    rw [List.Nodup, List.pairwise_flatMap]
    refine ⟨fun l _ => rangeFrom_nodup _ _, ?_⟩
    refine List.Pairwise.imp_of_mem ?_ hd
    intro l m hl hm hne x hx y hy hxy
    subst hxy
    obtain ⟨h1, h2⟩ := (mem_rangeFrom _ _ _).1 hx
    obtain ⟨h3, h4⟩ := (mem_rangeFrom _ _ _).1 hy
    exact hne (hinj l hl m hm (x - key l) (by omega) (x - key m) (by omega) (by omega))
  constructor
  · intro l hl
    refine blockOf_eq _ _ _ _ _ fun j hj => ?_
    unfold regOf
    rw [ht]
    exact writeFixed_reg _ _ _ _ _ _ _ _ (List.mem_flatMap.2 ⟨l, hl, blockW_mem _ _ _ _ hj⟩) hnd (hf l hl j hj)
  · intro x hx
    unfold regOf
    rw [ht, writeFixed_reg_other, hs, hr]
    intro w hw
    obtain ⟨l, hl, hw⟩ := List.mem_flatMap.1 hw
    obtain ⟨j, hj, rfl⟩ := mem_blockW _ _ _ _ hw
    have := hx l hl
    simp only
    omega

end Sys2Proof.Machine
end

