-- ==== Sys2Proof/Laws/Results.lean ====
section
/-!
SUPPORT. The four shapes of class A, F and D instructions, each proved once: a result statement of one instruction
follows from the agreement of its function with the one stated.
-/

namespace Sys2Proof.Machine

theorem ite_some_none {c : Prop} [Decidable c] {n : Nat} {x : Option Nat} :
    (if c then some n else x) = none ↔ ¬ c ∧ x = none := by
  split <;> simp_all

/-- What passing the checks of R183 says. -/
theorem encCheck_none {f : Form} {e : Enc} {x : EncCtx} (h : encCheck f e x = none) :
    operandBad f e x.fmt = false ∧ specialBad f e x.fmt = false ∧ nwbBad f e = false ∧ chainBad f e x.members = false
      ∧ latchBad f e x.fmt x.members = false ∧ biBad f e = false ∧ rsvdBad f e x.fmt = false ∧ f.modOk e = true
      ∧ f.formatBad e x.fmt = false ∧ guardBad f e = false := by
  unfold encCheck at h
  simp only [ite_some_none, Bool.not_eq_true, Bool.or_eq_false_iff, Bool.not_eq_false', and_true] at h
  obtain ⟨-, -, -, h6, h7, h8, h9, h10, h11, h12, h13, h14, -, -, -, h19, -⟩ := h
  exact ⟨h13, h14, h10, h11, h9, h7, h8, h12.1, h19, h6⟩

/-- A register field that is checked. -/
theorem field_legal {f : Form} {e : Enc} {x : EncCtx} (h : encCheck f e x = none) {r : Role} {n : Nat}
    (hm : (r, n) ∈ namedFields f e x.fmt) : roleOperandBad r n = false ∧ roleSpecialBad r n = false := by
  obtain ⟨h1, h2, -⟩ := encCheck_none h
  unfold operandBad at h1
  unfold specialBad at h2
  simp only [Bool.or_eq_false_iff, List.any_eq_false] at h1 h2
  exact ⟨by simpa using h1.2 _ hm, by simpa using h2 _ hm⟩

/-- D is checked in every form but G-J. -/
theorem dest_named {f : Form} (e : Enc) (fmt : Word) (h : f.gj = false) :
    (f.d e fmt, e.d.toNat) ∈ namedFields f e fmt := by
  unfold namedFields; simp [h]

/-- Where a clear instruction stands. -/
theorem iss_facts {f : Form} {e : Enc} {s : State} {a : At} (h : Clear f e s a) :
    (issOf f e s a).a.gid = a.gid ∧ (issOf f e s a).a.k = a.k ∧ (issOf f e s a).a.sp.fmt = a.sp.fmt
      ∧ (issOf f e s a).a.sp.active = a.sp.active ∧ (issOf f e s a).a.tm = a.tm
      ∧ mfind (book s a e).groups a.gid = some (bookGroup s a e a.g)
      ∧ (bookGroup s a e a.g).splits[a.k]? = some (bookSplit s a e a.sp)
      ∧ (issOf f e s a).a.g = bookGroup s a e a.g := by
  have h1 := (issuedAt_eq e h.issuer).2
  have hg := (curAt_some h.issuer).2
  have hsp := (atOf_some (curAt_some h.issuer).1).2.1
  unfold issOf
  rw [h1]
  exact ⟨rfl, rfl, rfl, rfl, rfl, book_group e hg, by simp [bookGroup, hsp], rfl⟩

/-- A retirement after generators were set: frame, program counter and generators. -/
theorem retire_all {f : Form} {e : Enc} {s : State} {a : At} (h : Clear f e s a) (outs : List (Nat × LaneOut))
    (regs preds : List (Nat × Word)) (res : SMap Word) (hd : (outs.map Prod.fst).Nodup) :
    let s2 := outs.foldl (fun acc o => setLg acc a.gid o.1 o.2.lg) (book s a e)
    let i := issOf f e s a
    let t := retire s2 i regs preds res
    Frame s t a e ∧ WentOn t a e
      ∧ (∀ l, (∀ o ∈ outs, o.1 ≠ l) → readLg (getGroup t a.gid) l = readLg (getGroup s a.gid) l)
      ∧ (∀ o ∈ outs, readLg (getGroup t a.gid) o.1 = o.2.lg)
      ∧ ∃ g, (getGroup t a.gid).regs = (((if e.ctl.nwb then [] else regs) ++ preds).foldl
          (writeFixed1 s2.fresh (flagCov i.e) i.a.k (i.a.sp.now + latency (f.cls e))) g).regs
          ∧ g.regs = (getGroup s a.gid).regs := by
  intro s2 i t
  obtain ⟨hi1, hi2, -, -, -, hb, hbs, -⟩ := iss_facts h
  obtain ⟨lg, hl1, hl2, hl3⟩ := setLgs (book s a e) a.gid outs _ hb
  obtain ⟨hr1, hr2⟩ := setLgs_rest (book s a e) a.gid outs
  have hg2 : mfind s2.groups i.a.gid = some { bookGroup s a e a.g with lg } := by rw [hi1]; exact hl1
  obtain ⟨sp, ops, nx, hrg, hpc⟩ := retire_group s2 i regs preds res _ hg2
  obtain ⟨ht1, ht2, ht3⟩ := retire_rest s2 i regs preds res
  rw [hi1] at hrg ht2
  have hgs : getGroup s a.gid = a.g := by simp [getGroup, mget, (curAt_some h.issuer).2]
  have hgb : getGroup (book s a e) a.gid = bookGroup s a e a.g := by simp [getGroup, mget, hb]
  have hgt := congrArg (fun o : Option Group => o.getD Group.empty) hrg
  simp only [Option.getD_some] at hgt
  change getGroup t a.gid = _ at hgt
  have hc2 : ∀ n, getCore s2 n = getCore (book s a e) n := fun n => by
    have := congrArg (fun x : State => getCore x n) hr1
    exact this
  refine ⟨?_, ?_, ?_, ?_, ?_⟩
  · refine frame_of (book_frame e h.issuer) ?_ ?_ ?_ ?_
    · have := congrArg (fun x : State => { x with groups := (book s a e).groups, cores := (book s a e).cores }) ht1
      refine this.trans ?_
      have h3 := congrArg (fun x : State => { x with cores := (book s a e).cores }) hr1
      exact h3
    · intro g hne; rw [ht2 g hne]; exact hr2 g hne
    · exact ⟨_, _, _, _, _, by rw [hgt, hgb]⟩
    · intro n
      obtain ⟨x, hx⟩ := ht3 n
      exact ⟨x, by rw [hx, hc2]⟩
  · unfold WentOn
    rw [hgt]
    have := congrArg (fun x : List Word => x[a.k]?) hpc
    simp only [List.getElem?_map] at this
    rw [this, hbs]
    simp only [Option.map_some]
    rfl
  · intro l hl
    rw [hgt, hgs]
    exact hl2 l hl
  · intro o ho
    rw [hgt]
    exact hl3 hd o ho
  · refine ⟨{ bookGroup s a e a.g with lg }, ?_, ?_⟩
    · rw [hgt]; rfl
    · rw [hgs]; rfl

/-- A lane of a mask is below 32. -/
theorem lt_of_mem_lanesOf {w : Word} {l : Nat} (h : l ∈ lanesOf w) : l < 32 := by
  unfold lanesOf at h
  simpa using (List.mem_filter.1 h).1

theorem lt_of_participant {s : State} {a : At} {e : Enc} {l : Nat} (h : l ∈ participants s a e) : l < 32 :=
  lt_of_mem_lanesOf (List.mem_filter.1 h).1

/-- No v register reads as a constant. -/
theorem fixedTrue_v {l d j : Nat} (h : vKey l d + j < 8320) : fixedTrue (vKey l d + j) = false := by
  unfold fixedTrue
  simp only [Bool.or_eq_false_iff, Bool.and_eq_false_iff, beq_eq_false_iff_ne, decide_eq_false_iff_not]
  omega

theorem written_congr {s t : State} {gid n : Nat} {slots : List Nat} {key val val' : Nat → Nat}
    (h : Written s t gid slots key n val) (hv : ∀ l ∈ slots, val l % 2 ^ (32 * n) = val' l % 2 ^ (32 * n)) :
    Written s t gid slots key n val' := ⟨fun l hl => by rw [h.dest l hl, hv l hl], h.other⟩

/-- No register is written by no write. -/
theorem written_nil {s t : State} {gid n fresh cov k due : Nat} {g : Group} {key val : Nat → Nat}
    (ht : (getGroup t gid).regs = (([] : List (Nat × Word)).foldl (writeFixed1 fresh cov k due) g).regs)
    (hr : g.regs = (getGroup s gid).regs) : Written s t gid [] key n val :=
  ⟨fun l hl => by simp at hl, fun x _ => by unfold regOf; rw [ht]; simp [hr]⟩

/-- Every lane instruction of class A, F or D with a v destination: its function gives the registers and generators. -/
theorem laneResult_of {mk : Enc → Instr} {f : Form} {n : Enc → Nat} {fn out : State → Iss → LaneIn → LaneOut}
    (hx : ∀ e s, exec (mk e) s = execLane f fn e s) (hj : f.gj = false) (hd : ∀ e w, f.d e w = .vd (n e))
    (ho : ∀ (s : State) (i : Iss) (l : Nat) (x : EncCtx), i.f = f → l < 32 → encCheck f i.e x = none → x.fmt = i.a.sp.fmt →
      (fn s i (laneIn s i l)).lg = (out s i (laneIn s i l)).lg
      ∧ (fn s i (laneIn s i l)).d % 2 ^ (32 * n i.e) = (out s i (laneIn s i l)).d % 2 ^ (32 * n i.e)) :
    LaneResult mk f n out := by
  intro e s a h s1 i ls r
  refine ⟨_, by rw [hx]; unfold execLane; rw [issue_clear h], ?_⟩
  have hbound : e.d.toNat + n e ≤ 256 := by
    have := (field_legal h.legal (dest_named e _ hj)).1
    rw [hd] at this
    simp only [roleOperandBad, Bool.or_eq_false_iff, decide_eq_false_iff_not] at this
    omega
  have hnd : ((ls.map fun l => (l, fn s1 i (laneIn s1 i l))).map Prod.fst).Nodup := by
    rw [List.map_map]
    have : (Prod.fst ∘ fun l => (l, fn s1 i (laneIn s1 i l))) = id := rfl
    rw [this, List.map_id]
    exact participants_nodup _ _ _
  have hw : ∀ l, destWrites i l (fn s1 i (laneIn s1 i l)).d
      = (blockW (vKey l e.d.toNat) (n e) (fn s1 i (laneIn s1 i l)).d, []) := by
    intro l
    unfold destWrites
    rw [show i.f = f from rfl, show i.e = e from rfl, hd]
    rfl
  obtain ⟨h1, h2, h3, h4, g, h5, h6⟩ := retire_all h (ls.map fun l => (l, fn s1 i (laneIn s1 i l)))
    (ls.flatMap fun l => blockW (vKey l e.d.toNat) (n e) (fn s1 i (laneIn s1 i l)).d) []
    ((ls.map fun l => (l, fn s1 i (laneIn s1 i l))).map fun o => (o.1, BitVec.ofNat 32 o.2.d)) hnd
  have heff : laneEffect fn (issOf f e s a) (book s a e)
      = retire ((ls.map fun l => (l, fn s1 i (laneIn s1 i l))).foldl (fun acc o => setLg acc a.gid o.1 o.2.lg) (book s a e))
        (issOf f e s a) (ls.flatMap fun l => blockW (vKey l e.d.toNat) (n e) (fn s1 i (laneIn s1 i l)).d) []
        ((ls.map fun l => (l, fn s1 i (laneIn s1 i l))).map fun o => (o.1, BitVec.ofNat 32 o.2.d)) := by
    unfold laneEffect
    simp only [show (issOf f e s a).a.gid = a.gid from (iss_facts h).1, show (issOf f e s a).f = f from rfl, hd,
      List.flatMap_map, List.map_map]
    have e1 : (ls.flatMap fun l => (destWrites i l (fn s1 i (laneIn s1 i l)).d).1)
        = ls.flatMap fun l => blockW (vKey l e.d.toNat) (n e) (fn s1 i (laneIn s1 i l)).d := by
      congr 1; funext l; rw [hw]
    have e2 : (ls.flatMap fun l => (destWrites i l (fn s1 i (laneIn s1 i l)).d).2) = [] := by
      rw [List.flatMap_eq_nil_iff]; intro l _; rw [hw]
    show retire _ _ (ls.flatMap fun l => (destWrites i l (fn s1 i (laneIn s1 i l)).d).1)
      (ls.flatMap fun l => (destWrites i l (fn s1 i (laneIn s1 i l)).d).2) _ = _
    rw [e1, e2]
    rfl
  rw [heff]
  refine ⟨h1, h2, ?_, ?_⟩
  · intro l
    split
    · next hl =>
      have := h4 (l, fn s1 i (laneIn s1 i l)) (List.mem_map.2 ⟨l, hl, rfl⟩)
      rw [this]
      exact (ho s1 i l (encCtxOf s a) rfl (lt_of_participant hl) h.legal (iss_facts h).2.2.1.symm).1
    · next hl =>
      refine h3 l fun o hm => ?_
      obtain ⟨m, hm', rfl⟩ := List.mem_map.1 hm
      exact fun he => hl (he ▸ hm')
  · by_cases hb : e.ctl.nwb = true
    · simp only [hb, if_true, List.nil_append] at h5 ⊢
      exact written_nil h5 h6
    · simp only [hb, if_false, Bool.false_eq_true, List.append_nil] at h5 ⊢
      refine written_congr (written_of rfl h6 h5 (participants_nodup _ _ _) ?_ ?_) ?_
      · intro l hl j hj
        refine fixedTrue_v ?_
        have := lt_of_participant hl
        unfold vKey; omega
      · intro l _ m _ j hj k hk he
        exact (vKey_inj hbound hj hk he).1
      · intro l hl
        exact (ho s1 i l (encCtxOf s a) rfl (lt_of_participant hl) h.legal (iss_facts h).2.2.1.symm).2

/-- One register written is a block of one. -/
theorem blockW_one (key : Nat) (b : Bool) : blockW key 1 b.toNat = [(key, boolWord b)] := by
  cases b <;> rfl

/-- Every lane instruction of class A, F or D with a predicate destination. -/
theorem predResult_of {mk : Enc → Instr} {f : Form} {fn : State → Iss → LaneIn → LaneOut} {out : State → Iss → LaneIn → Bool}
    (hx : ∀ e s, exec (mk e) s = execLane f fn e s) (hj : f.gj = false) (hu : f.uni = false) (hd : ∀ e w, f.d e w = .pd)
    (ho : ∀ (s : State) (i : Iss) (l : Nat) (x : EncCtx), i.f = f → l < 32 → encCheck f i.e x = none → x.fmt = i.a.sp.fmt →
      (fn s i (laneIn s i l)).lg = readLg i.a.g l ∧ ((fn s i (laneIn s i l)).d != 0) = out s i (laneIn s i l)) :
    PredResult mk f out := by
  intro e s a h s1 i ls
  refine ⟨_, by rw [hx]; unfold execLane; rw [issue_clear h], ?_⟩
  have hbound : e.d.toNat < 8 := by
    have := (field_legal h.legal (dest_named e _ hj)).1
    rw [hd] at this
    simp only [roleOperandBad, decide_eq_false_iff_not] at this
    omega
  let outs := ls.map fun l => (l, fn s1 i (laneIn s1 i l))
  have hnd : (outs.map Prod.fst).Nodup := by
    rw [List.map_map]
    have : (Prod.fst ∘ fun l => (l, fn s1 i (laneIn s1 i l))) = id := rfl
    rw [this, List.map_id]
    exact participants_nodup _ _ _
  have hw : ∀ l ∈ ls, destWrites i l (fn s1 i (laneIn s1 i l)).d
      = ([], blockW (pKey l e.d.toNat) 1 (out s1 i (laneIn s1 i l)).toNat) := by
    intro l hl
    unfold destWrites
    rw [show i.f = f from rfl, show i.e = e from rfl, hd, blockW_one]
    simp only [hu, (ho s1 i l (encCtxOf s a) rfl (lt_of_participant hl) h.legal (iss_facts h).2.2.1.symm).2]
    rfl
  obtain ⟨h1, h2, h3, h4, g, h5, h6⟩ := retire_all h outs []
    (ls.flatMap fun l => blockW (pKey l e.d.toNat) 1 (out s1 i (laneIn s1 i l)).toNat) (freeLatch (book s a e) ls) hnd
  have heff : laneEffect fn (issOf f e s a) (book s a e)
      = retire (outs.foldl (fun acc o => setLg acc a.gid o.1 o.2.lg) (book s a e))
        (issOf f e s a) [] (ls.flatMap fun l => blockW (pKey l e.d.toNat) 1 (out s1 i (laneIn s1 i l)).toNat)
        (freeLatch (book s a e) ls) := by
    unfold laneEffect
    simp only [show (issOf f e s a).a.gid = a.gid from (iss_facts h).1, show (issOf f e s a).f = f from rfl, hd,
      List.flatMap_map, List.map_map]
    have e1 : (ls.flatMap fun l => (destWrites i l (fn s1 i (laneIn s1 i l)).d).2)
        = ls.flatMap fun l => blockW (pKey l e.d.toNat) 1 (out s1 i (laneIn s1 i l)).toNat := by
      rw [List.flatMap_def, List.flatMap_def]
      congr 1
      exact List.map_congr_left fun l hl => by rw [hw l hl]
    have e2 : (ls.flatMap fun l => (destWrites i l (fn s1 i (laneIn s1 i l)).d).1) = [] := by
      rw [List.flatMap_eq_nil_iff]; intro l hl; rw [hw l hl]
    show retire _ _ (ls.flatMap fun l => (destWrites i l (fn s1 i (laneIn s1 i l)).d).1)
      (ls.flatMap fun l => (destWrites i l (fn s1 i (laneIn s1 i l)).d).2) _ = _
    rw [e1, e2]
    rfl
  rw [heff]
  have hg0 : ∀ l, readLg (bookGroup s a e a.g) l = readLg (getGroup s a.gid) l := by
    intro l
    simp [getGroup, mget, (curAt_some h.issuer).2, bookGroup, readLg]
  refine ⟨h1, h2, ?_, ?_⟩
  · intro l
    simp only [List.not_mem_nil, if_false]
    by_cases hl : l ∈ ls
    · have := h4 (l, fn s1 i (laneIn s1 i l)) (List.mem_map.2 ⟨l, hl, rfl⟩)
      rw [this, (ho s1 i l (encCtxOf s a) rfl (lt_of_participant hl) h.legal (iss_facts h).2.2.1.symm).1, (iss_facts h).2.2.2.2.2.2.2, hg0]
    · refine h3 l fun o hm => ?_
      obtain ⟨m, hm', rfl⟩ := List.mem_map.1 hm
      exact fun he => hl (he ▸ hm')
  · have h5' : (getGroup (retire (outs.foldl (fun acc o => setLg acc a.gid o.1 o.2.lg) (book s a e))
        (issOf f e s a) [] (ls.flatMap fun l => blockW (pKey l e.d.toNat) 1 (out s1 i (laneIn s1 i l)).toNat)
        (freeLatch (book s a e) ls)) a.gid).regs
        = ((ls.flatMap fun l => blockW (pKey l e.d.toNat) 1 (out s1 i (laneIn s1 i l)).toNat).foldl
          (writeFixed1 (outs.foldl (fun acc o => setLg acc a.gid o.1 o.2.lg) (book s a e)).fresh (flagCov (issOf f e s a).e) (issOf f e s a).a.k
            ((issOf f e s a).a.sp.now + latency (f.cls e))) g).regs := by
      rw [h5]; split <;> rfl
    by_cases h0 : e.d = 0
    · rw [if_pos h0]
      refine ⟨fun l hl => by simp at hl, fun x _ => ?_⟩
      unfold regOf
      have hfix : ∀ (ws : List (Nat × Word)) (g : Group) (fr cv k du : Nat), (∀ w ∈ ws, fixedTrue w.1 = true) →
          ws.foldl (writeFixed1 fr cv k du) g = g := by
        intro ws
        induction ws with
        | nil => intros; rfl
        | cons w r ih =>
          intro g fr cv k du hall
          rw [List.foldl_cons]
          have : writeFixed1 fr cv k du g w = g := by
            unfold writeFixed1; simp [hall w List.mem_cons_self]
          rw [this]
          exact ih g fr cv k du fun y hy => hall y (List.mem_cons_of_mem _ hy)
      rw [h5', hfix, h6]
      intro w hw
      obtain ⟨l, hl, hw⟩ := List.mem_flatMap.1 hw
      rw [blockW_one, List.mem_singleton] at hw
      subst hw
      have := lt_of_participant hl
      have hz : e.d.toNat = 0 := by rw [h0]; rfl
      simp only [hz, pKey, fixedTrue, Bool.or_eq_true, beq_iff_eq, Bool.and_eq_true, decide_eq_true_eq]
      omega
    · rw [if_neg h0]
      have hd0 : e.d.toNat ≠ 0 := fun hz => h0 (BitVec.eq_of_toNat_eq (by simpa using hz))
      refine written_of rfl h6 h5' (participants_nodup _ _ _) ?_ ?_
      · intro l hl j hj
        have := lt_of_participant hl
        unfold fixedTrue pKey
        simp only [Bool.or_eq_false_iff, Bool.and_eq_false_iff, beq_eq_false_iff_ne, decide_eq_false_iff_not]
        omega
      · intro l hl m hm j hj k hk he
        unfold pKey at he
        omega

/-- A uniform instruction whose guard is true, with an s destination. -/
theorem uniEffect_reg (fn : State → Iss → LaneIn → LaneOut) (i : Iss) (s : State) (n : Nat) (l : Nat) (o : LaneOut)
    (hl : lowLane i.a.sp.active = l) (ho : fn s i (laneIn s i l) = o)
    (hg : uniGuard s i.a i.e = true) (hd : i.f.d i.e i.a.sp.fmt = .ud n) :
    uniEffect fn i s = retire ([(l, o)].foldl (fun acc o => setLg acc i.a.gid o.1 o.2.lg) s) i
      (blockW (sKey i.e.d.toNat) n o.d) [] ((List.range 32).map fun x => (x, BitVec.ofNat 32 o.d)) := by
  unfold uniEffect
  rw [if_pos hg]
  simp only [destWrites, hd, hl, ho, if_true]
  rfl

/-- A uniform instruction whose guard is true, with a q destination. -/
theorem uniEffect_pred (fn : State → Iss → LaneIn → LaneOut) (i : Iss) (s : State) (l : Nat) (o : LaneOut) (b : Bool)
    (hl : lowLane i.a.sp.active = l) (ho : fn s i (laneIn s i l) = o) (hb : (o.d != 0) = b)
    (hg : uniGuard s i.a i.e = true) (hu : i.f.uni = true) (hd : i.f.d i.e i.a.sp.fmt = .pd) :
    uniEffect fn i s = retire ([(l, o)].foldl (fun acc o => setLg acc i.a.gid o.1 o.2.lg) s) i
      [] (blockW (qKey i.e.d.toNat) 1 b.toNat) (freeLatch s (List.range 32)) := by
  unfold uniEffect
  rw [if_pos hg]
  simp only [destWrites, hd, hl, ho, hb, hu, if_true, Bool.false_eq_true, if_false, blockW_one]
  rfl

/-- A uniform instruction whose guard is false. -/
theorem uniEffect_off (fn : State → Iss → LaneIn → LaneOut) (i : Iss) (s : State) (hg : ¬ uniGuard s i.a i.e = true) :
    uniEffect fn i s = retire s i [] [] [] := by
  unfold uniEffect
  rw [if_neg hg]

/-- Every uniform instruction of class A, F or D with an s destination. -/
theorem uniResult_of {mk : Enc → Instr} {f : Form} {n : Enc → Nat} {fn out : State → Iss → LaneIn → LaneOut}
    (hx : ∀ e s, exec (mk e) s = execUni f fn e s) (hj : f.gj = false) (hd : ∀ e w, f.d e w = .ud (n e))
    (hn : ∀ e, n e = 1 ∨ n e = 2 ∨ n e = 4)
    (ho : ∀ (s : State) (i : Iss) (l : Nat) (x : EncCtx), i.f = f → encCheck f i.e x = none → x.fmt = i.a.sp.fmt →
      (fn s i (laneIn s i l)).lg = (out s i (laneIn s i l)).lg
      ∧ (fn s i (laneIn s i l)).d % 2 ^ (32 * n i.e) = (out s i (laneIn s i l)).d % 2 ^ (32 * n i.e)) :
    UniResult mk f n out := by
  intro e s a h s1 i low ls r
  have hbound : e.d.toNat + n e ≤ 128 := by
    have := field_legal h.legal (dest_named e _ hj)
    rw [hd] at this
    simp only [roleOperandBad, roleSpecialBad, decide_eq_false_iff_not] at this
    rcases hn e with h1 | h1 | h1
    · rw [h1]; omega
    · rw [h1] at this ⊢
      simp only [show ¬ (2 ≤ 1) by omega, if_false, if_true, Bool.not_eq_false', Bool.or_eq_true, Bool.and_eq_true,
        decide_eq_true_eq, beq_iff_eq] at this
      omega
    · rw [h1] at this ⊢
      simp only [show ¬ (4 ≤ 1) by omega, show ¬ (4 = 2) by omega, if_false, Bool.not_eq_false', Bool.and_eq_true,
        decide_eq_true_eq, beq_iff_eq] at this
      omega
  have hact : i.a.sp.active = a.sp.active := (iss_facts h).2.2.2.1
  by_cases hgd : uniGuard s1 i.a e = true
  · let o := fn s1 i (laneIn s1 i low)
    obtain ⟨h1, h2, h3, h4, g, h5, h6⟩ := retire_all h [(low, o)] (blockW (sKey e.d.toNat) (n e) o.d) []
      ((List.range 32).map fun x => (x, BitVec.ofNat 32 o.d)) (by simp)
    have heff := uniEffect_reg fn i s1 (n e) low o (by rw [hact]) rfl hgd (hd _ _)
    rw [show i.a.gid = a.gid from (iss_facts h).1] at heff
    refine ⟨_, by rw [hx]; unfold execUni; rw [issue_clear h], ?_⟩
    rw [heff]
    have hls : ls = [low] := if_pos hgd
    refine ⟨h1, h2, ?_, ?_⟩
    · intro l
      rw [hls]
      simp only [List.mem_singleton]
      split
      · next he =>
        subst he
        exact (h4 (low, o) (List.mem_singleton.2 rfl)).trans (ho s1 i low (encCtxOf s a) rfl h.legal (iss_facts h).2.2.1.symm).1
      · next he =>
        refine h3 l fun o ho => ?_
        rw [List.mem_singleton] at ho
        subst ho
        exact Ne.symm he
    · by_cases hb : e.ctl.nwb = true
      · simp only [hb, if_true, List.nil_append] at h5 ⊢
        exact written_nil h5 h6
      · simp only [hb, if_false, Bool.false_eq_true, List.append_nil] at h5 ⊢
        rw [hls]
        have h5' : ([low].flatMap fun _ => blockW (sKey e.d.toNat) (n e) o.d) = blockW (sKey e.d.toNat) (n e) o.d := by simp
        refine written_congr (written_of (key := fun _ => sKey e.d.toNat) (val := fun _ => o.d) rfl h6
          (by rw [h5']; exact h5) (by simp) ?_ ?_) ?_
        · intro l _ j hj'
          unfold fixedTrue sKey
          simp only [Bool.or_eq_false_iff, Bool.and_eq_false_iff, beq_eq_false_iff_ne, decide_eq_false_iff_not]
          omega
        · intro l hl m hm _ _ _ _ _
          simp only [List.mem_singleton] at hl hm
          rw [hl, hm]
        · intro l _
          exact (ho s1 i low (encCtxOf s a) rfl h.legal (iss_facts h).2.2.1.symm).2
  · obtain ⟨h1, h2, h3, -, g, h5, h6⟩ := retire_all h [] [] [] [] (by simp)
    have heff := uniEffect_off fn i s1 hgd
    refine ⟨_, by rw [hx]; unfold execUni; rw [issue_clear h], ?_⟩
    rw [heff]
    have hls : ls = [] := if_neg hgd
    rw [hls]
    have h5' : (getGroup (retire (book s a e) (issOf f e s a) [] [] []) a.gid).regs
      = (([] : List (Nat × Word)).foldl (writeFixed1 (book s a e).fresh (flagCov (issOf f e s a).e) (issOf f e s a).a.k
          ((issOf f e s a).a.sp.now + latency (f.cls e))) g).regs := by
      refine h5.trans ?_; split <;> rfl
    refine ⟨h1, h2, ?_, ?_⟩
    · intro l
      simpa using h3 l (by simp)
    · simp only [ite_self]
      exact written_nil h5' h6

/-- Every uniform instruction with a q destination. -/
theorem uniPredResult_of {mk : Enc → Instr} {f : Form} {fn : State → Iss → LaneIn → LaneOut}
    {out : State → Iss → LaneIn → Bool}
    (hx : ∀ e s, exec (mk e) s = execUni f fn e s) (hu : f.uni = true) (hd : ∀ e w, f.d e w = .pd)
    (ho : ∀ (s : State) (i : Iss) (l : Nat) (x : EncCtx), i.f = f → encCheck f i.e x = none → x.fmt = i.a.sp.fmt →
      (fn s i (laneIn s i l)).lg = readLg i.a.g l ∧ ((fn s i (laneIn s i l)).d != 0) = out s i (laneIn s i l)) :
    UniPredResult mk f out := by
  intro e s a h s1 i ls
  have hact : i.a.sp.active = a.sp.active := (iss_facts h).2.2.2.1
  by_cases hgd : uniGuard s1 i.a e = true
  · let low := lowLane a.sp.active
    let o := fn s1 i (laneIn s1 i low)
    let b := out s1 i (laneIn s1 i low)
    obtain ⟨h1, h2, h3, h4, g, h5, h6⟩ := retire_all h [(low, o)] [] (blockW (qKey e.d.toNat) 1 b.toNat)
      (freeLatch s1 (List.range 32)) (by simp)
    have heff := uniEffect_pred fn i s1 low o b (by rw [hact]) rfl (ho s1 i low (encCtxOf s a) rfl h.legal (iss_facts h).2.2.1.symm).2 hgd hu (hd _ _)
    rw [show i.a.gid = a.gid from (iss_facts h).1] at heff
    refine ⟨_, by rw [hx]; unfold execUni; rw [issue_clear h], ?_⟩
    rw [heff]
    have hls : ls = [low] := if_pos hgd
    have h5' : (getGroup (retire ([(low, o)].foldl (fun acc o => setLg acc a.gid o.1 o.2.lg) (book s a e))
          (issOf f e s a) [] (blockW (qKey e.d.toNat) 1 b.toNat) (freeLatch s1 (List.range 32))) a.gid).regs
        = ((blockW (qKey e.d.toNat) 1 b.toNat).foldl (writeFixed1
            ([(low, o)].foldl (fun acc o => setLg acc a.gid o.1 o.2.lg) (book s a e)).fresh (flagCov (issOf f e s a).e) (issOf f e s a).a.k
            ((issOf f e s a).a.sp.now + latency (f.cls e))) g).regs := by
      rw [h5]; split <;> rfl
    refine ⟨h1, h2, ?_, ?_⟩
    · intro l
      simp only [List.not_mem_nil, if_false]
      by_cases he : l = low
      · subst he
        refine (h4 (low, o) (List.mem_singleton.2 rfl)).trans ((ho s1 i low (encCtxOf s a) rfl h.legal (iss_facts h).2.2.1.symm).1.trans ?_)
        rw [(iss_facts h).2.2.2.2.2.2.2]
        simp [getGroup, mget, (curAt_some h.issuer).2, bookGroup, readLg]
      · refine h3 l fun o ho => ?_
        rw [List.mem_singleton] at ho
        subst ho
        exact Ne.symm he
    · rw [hls]
      by_cases h0 : e.d = 0
      · rw [if_pos h0]
        refine ⟨fun l hl => by simp at hl, fun x _ => ?_⟩
        unfold regOf
        refine (congrArg (fun m : SMap Word => mget m x 0) h5').trans ?_
        simp only [blockW_one, h0, List.foldl_cons, List.foldl_nil, writeFixed1]
        rw [if_pos (by rfl), h6]
      · rw [if_neg h0]
        have hd0 : e.d.toNat ≠ 0 := fun hz => h0 (BitVec.eq_of_toNat_eq (by simpa using hz))
        have h7 : ([low].flatMap fun _ => blockW (qKey e.d.toNat) 1 b.toNat) = blockW (qKey e.d.toNat) 1 b.toNat := by simp
        refine written_congr (written_of (key := fun _ => qKey e.d.toNat) (val := fun _ => b.toNat) rfl h6
          (by rw [h7]; exact h5') (by simp) ?_ ?_) ?_
        · intro l _ j hj'
          unfold fixedTrue qKey
          simp only [Bool.or_eq_false_iff, Bool.and_eq_false_iff, beq_eq_false_iff_ne, decide_eq_false_iff_not]
          omega
        · intro l hl m hm _ _ _ _ _
          simp only [List.mem_singleton] at hl hm
          rw [hl, hm]
        · intro l hl
          simp only [List.mem_singleton] at hl
          rw [hl]
  · obtain ⟨h1, h2, h3, -, g, h5, h6⟩ := retire_all h [] [] [] [] (by simp)
    have heff := uniEffect_off fn i s1 hgd
    refine ⟨_, by rw [hx]; unfold execUni; rw [issue_clear h], ?_⟩
    rw [heff]
    have hls : ls = [] := if_neg hgd
    rw [hls]
    have h5' : (getGroup (retire (book s a e) (issOf f e s a) [] [] []) a.gid).regs
      = (([] : List (Nat × Word)).foldl (writeFixed1 (book s a e).fresh (flagCov (issOf f e s a).e) (issOf f e s a).a.k
          ((issOf f e s a).a.sp.now + latency (f.cls e))) g).regs := by
      refine h5.trans ?_; split <;> rfl
    refine ⟨h1, h2, ?_, ?_⟩
    · intro l
      simpa using h3 l (by simp)
    · simp only [ite_self]
      exact written_nil h5' h6

end Sys2Proof.Machine
end

