-- ==== Sys2Proof/Laws/ClassV.lean ====
section
/-!
SUPPORT. What a class V instruction does when it goes outstanding, said once.
-/

namespace Sys2Proof.Machine

/-- The words that an operation is to write. -/
def opWrites (ws : List (Nat × Word)) : SMap Word :=
  ws.foldl (fun m w => if fixedTrue w.1 then m else mset m w.1 w.2) []

theorem opWrites_other (ws : List (Nat × Word)) (m : SMap Word) (k : Nat) (h : ∀ w ∈ ws, w.1 ≠ k) :
    mfind (ws.foldl (fun m w => if fixedTrue w.1 then m else mset m w.1 w.2) m) k = mfind m k := by
  induction ws generalizing m with
  | nil => rfl
  | cons w r ih =>
    rw [List.foldl_cons, ih _ fun x hx => h x (List.mem_cons_of_mem _ hx)]
    split
    · rfl
    · exact mfind_mset_other _ _ _ _ (Ne.symm (h w List.mem_cons_self))

/-- The one write to a register is what is delivered there. -/
theorem opWrites_mem (ws : List (Nat × Word)) (m : SMap Word) (k : Nat) (v : Word) (hw : (k, v) ∈ ws)
    (hd : (ws.map Prod.fst).Nodup) (hf : fixedTrue k = false) :
    mfind (ws.foldl (fun m w => if fixedTrue w.1 then m else mset m w.1 w.2) m) k = some v := by
  induction ws generalizing m with
  | nil => simp at hw
  | cons w r ih =>
    rw [List.foldl_cons]
    simp only [List.map_cons, List.nodup_cons] at hd
    rcases List.mem_cons.1 hw with hw | hw
    · subst hw
      rw [opWrites_other]
      · simp [hf]
      · intro x hx hk
        exact hd.1 (List.mem_map.2 ⟨x, hx, hk⟩)
    · exact ih _ hw hd.2

/-- Nothing is delivered but where a write was. -/
theorem opWrites_some (ws : List (Nat × Word)) (m : SMap Word) (k : Nat)
    (h : (mfind (ws.foldl (fun m w => if fixedTrue w.1 then m else mset m w.1 w.2) m) k).isSome)
    (hm : mfind m k = none) : ∃ w ∈ ws, w.1 = k := by
  refine Classical.byContradiction fun hn => ?_
  rw [opWrites_other ws m k fun w hw he => hn ⟨w, hw, he⟩, hm] at h
  simp at h

/-- The group after an operation has gone outstanding: windows of splits that now are ordered after each other may close. -/
theorem outstanding_group (s : State) (i : Iss) (ws : List (Nat × Word)) (st : Stage) (ind gr : Bool) (g : Group)
    (hg : mfind s.groups i.a.gid = some g) :
    ∃ splits : List Split, mfind (outstanding s i ws st ind gr).groups i.a.gid
      = some { g with
          splits
          ops := g.ops ++ [⟨g.nextOp, i.a.sp.age, flagOf i.e, opWrites ws, ind || isIndigo i.f, isOchre i.f, gr, i.loc,
            i.a.sp.issued, s.cycle, [], st⟩]
          nextOp := g.nextOp + 1 }
      ∧ ∀ k : Nat, (splits[k]?.map fun x => x.pc) = g.splits[k]?.map fun x => x.pc := by
  unfold outstanding
  simp only [mfind_modGroup, if_true, hg, Option.map_some]
  split
  · refine ⟨_, rfl, fun k => ?_⟩
    simp only [hearScr, List.getElem?_map]
    cases g.splits[k]? with
    | none => rfl
    | some x => simp only [Option.map_some]; split <;> rfl
  · exact ⟨_, rfl, fun _ => rfl⟩

/-- An operation goes outstanding after generators were set: everything it can do. -/
theorem sent_all {f : Form} {e : Enc} {s : State} {a : At} (h : Clear f e s a) (outs : List (Nat × LaneOut))
    (ws : List (Nat × Word)) (st : Stage) (ind gr : Bool) (hd : (outs.map Prod.fst).Nodup) :
    let s2 := outs.foldl (fun acc o => setLg acc a.gid o.1 o.2.lg) (book s a e)
    let i := issOf f e s a
    let t := outstanding s2 i ws st ind gr
    Frame s t a e ∧ WentOn t a e
      ∧ (∀ l, (∀ o ∈ outs, o.1 ≠ l) → readLg (getGroup t a.gid) l = readLg (getGroup s a.gid) l)
      ∧ (∀ o ∈ outs, readLg (getGroup t a.gid) o.1 = o.2.lg)
      ∧ Sent s t a e ⟨(getGroup s a.gid).nextOp, a.sp.age, flagOf e, opWrites ws, ind || isIndigo f, isOchre f, gr, i.loc,
        i.a.sp.issued, s2.cycle, [], st⟩ := by
  intro s2 i t
  obtain ⟨hi1, hi2, -, -, -, hb, hbs, -⟩ := iss_facts h
  obtain ⟨lg, hl1, hl2, hl3⟩ := setLgs (book s a e) a.gid outs _ hb
  obtain ⟨hr1, hr2⟩ := setLgs_rest (book s a e) a.gid outs
  have hg2 : mfind s2.groups i.a.gid = some { bookGroup s a e a.g with lg } := by rw [hi1]; exact hl1
  obtain ⟨spl, hrg, hpc⟩ := outstanding_group s2 i ws st ind gr _ hg2
  rw [hi1] at hrg
  have hgs : getGroup s a.gid = a.g := by simp [getGroup, mget, (curAt_some h.issuer).2]
  have hgb : getGroup (book s a e) a.gid = bookGroup s a e a.g := by simp [getGroup, mget, hb]
  have hgt := congrArg (fun o : Option Group => o.getD Group.empty) hrg
  simp only [Option.getD_some] at hgt
  change getGroup t a.gid = _ at hgt
  have hage : i.a.sp.age = a.sp.age := by
    have := (issuedAt_eq e h.issuer).2
    show (issuedAt s a e).sp.age = _
    rw [this]; rfl
  refine ⟨?_, ?_, ?_, ?_, ?_⟩
  · refine frame_of (book_frame e h.issuer) ?_ ?_ ?_ ?_
    · have h3 := congrArg (fun x : State => { x with cores := (book s a e).cores }) hr1
      exact h3
    · intro g hne
      have : mfind t.groups g = mfind s2.groups g := by
        show mfind (modGroup s2 (issOf f e s a).a.gid _).groups g = _
        rw [mfind_modGroup, hi1, if_neg hne]
      rw [this]; exact hr2 g hne
    · exact ⟨_, _, _, _, _, by rw [hgt, hgb]⟩
    · intro n
      have h3 : getCore t n = getCore (book s a e) n := by
        have := congrArg (fun x : State => getCore x n) hr1
        exact this
      exact ⟨_, by rw [h3]⟩
  · unfold WentOn
    rw [hgt]
    simp only [hpc, hbs, Option.map_some]
    rfl
  · intro l hl
    rw [hgt, hgs]
    exact hl2 l hl
  · intro o ho
    rw [hgt]
    exact hl3 hd o ho
  · refine ⟨?_, rfl, rfl, ?_⟩
    · rw [hgt, hgs, hage]; rfl
    · intro k
      unfold regOf
      rw [hgt, hgs]; rfl

/-- The words of a block, delivered. -/
theorem natWords_getD (n x j : Nat) (h : j < n) : (natWords n x).getD j 0 = BitVec.ofNat 32 (x / 2 ^ (32 * j)) := by
  induction n generalizing x j with
  | zero => omega
  | succ n ih =>
    cases j with
    | zero => simp [natWords]
    | succ j =>
      have := ih (x / 2 ^ 32) j (by omega)
      simp only [natWords, List.getD_cons_succ, this]
      rw [Nat.div_div_eq_div_mul, ← Nat.pow_add, show 32 + 32 * j = 32 * (j + 1) by omega]

/-- Blocks that do not meet are delivered whole. -/
theorem delivers_of {slots : List Nat} {key : Nat → Nat} {n : Nat} {val : Nat → Nat} {ws : List (Nat × Word)}
    (hsub : ∀ l ∈ slots, ∀ w ∈ blockW (key l) n (val l), w ∈ ws) (hd : (ws.map Prod.fst).Nodup)
    (hf : ∀ l ∈ slots, ∀ j < n, fixedTrue (key l + j) = false) : Delivers (opWrites ws) slots key n val := by
  intro l hl j hj
  rw [← natWords_getD n (val l) j hj]
  exact opWrites_mem ws [] _ _ (hsub l hl _ (blockW_mem _ _ _ _ hj)) hd (hf l hl j hj)

/-- Blocks of different lanes have different keys. -/
theorem blocks_nodup {slots : List Nat} {key : Nat → Nat} {n : Nat} {val : Nat → Nat} (hd : slots.Nodup)
    (hinj : ∀ l ∈ slots, ∀ m ∈ slots, ∀ j < n, ∀ i < n, key l + j = key m + i → l = m) :
    ((slots.flatMap fun l => blockW (key l) n (val l)).map Prod.fst).Nodup := by
  rw [List.map_flatMap]
  simp only [blockW_keys]
  rw [List.Nodup, List.pairwise_flatMap]
  refine ⟨fun l _ => rangeFrom_nodup _ _, ?_⟩
  refine List.Pairwise.imp_of_mem ?_ hd
  intro l m hl hm hne x hx y hy hxy
  subst hxy
  obtain ⟨h1, h2⟩ := (mem_rangeFrom _ _ _).1 hx
  obtain ⟨h3, h4⟩ := (mem_rangeFrom _ _ _).1 hy
  exact hne (hinj l hl m hm (x - key l) (by omega) (x - key m) (by omega) (by omega))

/-- Every class V lane instruction that computes its registers at issue. -/
theorem laneSent_of {mk : Enc → Instr} {f : Form} {n : Enc → Nat} {fn out : State → Iss → LaneIn → LaneOut}
    (hx : ∀ e s, exec (mk e) s = issue f e s (laneEffectV fn)) (hj : f.gj = false) (hd : ∀ e w, f.d e w = .vd (n e))
    (ho : ∀ (s : State) (i : Iss) (l : Nat) (x : EncCtx), i.f = f → l < 32 → encCheck f i.e x = none → x.fmt = i.a.sp.fmt →
      fn s i (laneIn s i l) = out s i (laneIn s i l)) :
    LaneSent mk f n out := by
  intro e s a h s1 i ls r
  have hbound : e.d.toNat + n e ≤ 256 := by
    have := (field_legal h.legal (dest_named e _ hj)).1
    rw [hd] at this
    simp only [roleOperandBad, Bool.or_eq_false_iff, decide_eq_false_iff_not] at this
    omega
  let outs := ls.map fun l => (l, fn s1 i (laneIn s1 i l))
  let ws := ls.flatMap fun l => blockW (vKey l e.d.toNat) (n e) (fn s1 i (laneIn s1 i l)).d
  have hnd : (outs.map Prod.fst).Nodup := by
    rw [List.map_map]
    have : (Prod.fst ∘ fun l => (l, fn s1 i (laneIn s1 i l))) = id := rfl
    rw [this, List.map_id]
    exact participants_nodup _ _ _
  have hval : ∀ l ∈ ls, fn s1 i (laneIn s1 i l) = r l := fun l hl =>
    ho s1 i l (encCtxOf s a) rfl (lt_of_participant hl) h.legal (iss_facts h).2.2.1.symm
  obtain ⟨h1, h2, h3, h4, h5⟩ := sent_all h outs ws .done false false hnd
  have heff : laneEffectV fn i s1
      = outstanding (outs.foldl (fun acc o => setLg acc a.gid o.1 o.2.lg) (book s a e)) (issOf f e s a) ws .done false false := by
    unfold laneEffectV retireV
    simp only [show i.a.gid = a.gid from (iss_facts h).1, List.flatMap_map]
    have e1 : (ls.flatMap fun l => (destWrites i l (fn s1 i (laneIn s1 i l)).d).1) = ws := by
      show _ = ls.flatMap _
      congr 1; funext l
      unfold destWrites
      rw [show i.f = f from rfl, show i.e = e from rfl, hd]
      rfl
    show outstanding _ _ (ls.flatMap fun l => (destWrites i l (fn s1 i (laneIn s1 i l)).d).1) _ _ _ = _
    rw [e1]
    rfl
  have hinj : ∀ l ∈ ls, ∀ m ∈ ls, ∀ j < n e, ∀ k < n e, vKey l e.d.toNat + j = vKey m e.d.toNat + k → l = m :=
    fun l _ m _ j hj' k hk he => (vKey_inj hbound hj' hk he).1
  refine ⟨_, _, by rw [hx, issue_clear h], by rw [heff]; exact h1, by rw [heff]; exact h2, by rw [heff]; exact h5, ?_, rfl, ?_, ?_⟩
  · rw [heff]
    intro l
    split
    · next hl =>
      have := h4 (l, fn s1 i (laneIn s1 i l)) (List.mem_map.2 ⟨l, hl, rfl⟩)
      rw [this, hval l hl]
    · next hl =>
      refine h3 l fun o hm => ?_
      obtain ⟨m, hm', rfl⟩ := List.mem_map.1 hm
      exact fun he => hl (he ▸ hm')
  · intro l hl j hj'
    have hdel : Delivers (opWrites ws) ls (fun l => vKey l e.d.toNat) (n e) (fun l => (fn s1 i (laneIn s1 i l)).d) := by
      refine delivers_of (fun l hl w hw => List.mem_flatMap.2 ⟨l, hl, hw⟩) (blocks_nodup (participants_nodup _ _ _) hinj) ?_
      intro l hl j hj
      refine fixedTrue_v ?_
      have := lt_of_participant hl
      unfold vKey; omega
    exact (hdel l hl j hj').trans (by simp only [hval l hl])
  · intro k hk
    obtain ⟨w, hw, rfl⟩ := opWrites_some ws [] k hk rfl
    obtain ⟨l, hl, hw⟩ := List.mem_flatMap.1 hw
    obtain ⟨j, hj', rfl⟩ := mem_blockW _ _ _ _ hw
    exact ⟨_, List.mem_map.2 ⟨l, hl, rfl⟩, by simp; omega⟩

/-- The generators that a cooperative instruction sets. -/
def drawn (o : CoopOut) : Option (Nat × LaneOut) := o.lg.map fun g => (o.lane, ⟨0, g⟩)

/-- One generator set, if one was drawn. -/
def setDrawn (gid : Nat) (s : State) (o : CoopOut) : State :=
  match o.lg with
  | some g => setLg s gid o.lane g
  | none => s

theorem coop_setLgs (s : State) (gid : Nat) (outs : List CoopOut) :
    outs.foldl (setDrawn gid) s
      = (outs.filterMap drawn).foldl (fun acc o => setLg acc gid o.1 o.2.lg) s := by
  induction outs generalizing s with
  | nil => rfl
  | cons o r ih =>
    rw [List.foldl_cons, ih]
    cases h : o.lg <;> simp [drawn, setDrawn, h]

/-- Every group-cooperative instruction. -/
theorem groupSent_of {mk : Enc → Instr} {f : Form} {n : Enc → Nat} {pred : Bool}
    {fn : State → Iss → List Nat → (Nat → LaneIn) → List CoopOut}
    {out : State → Iss → List Nat → (Nat → LaneIn) → Nat → Nat × Bool × Dword}
    (hx : ∀ e s, exec (mk e) s = issue f e s (coopEffect fn)) (hj : f.gj = false) (hd : ∀ e w, f.d e w = .vd (n e))
    (hc : pred = true → ∀ e w, f.c e w = .pd)
    (ho : ∀ (s : State) (i : Iss) (ls : List Nat) (y : Nat → LaneIn) (x : EncCtx), i.f = f → (∀ l ∈ ls, l < 32) →
      encCheck f i.e x = none → x.fmt = i.a.sp.fmt → (∀ l, (y l).lg = readLg i.a.g l) →
      (∀ l, y l = laneIn s i l) →
      ∃ lg : Nat → Option Dword, (∀ l ∈ ls, (out s i ls y l).2.2 = (lg l).getD (y l).lg)
        ∧ fn s i ls y = ls.map fun l =>
          ⟨l, (out s i ls y l).1, if pred then some (out s i ls y l).2.1 else none, lg l⟩) :
    GroupSent mk f n pred out := by
  intro e s a h s1 i ls r
  have hbound : e.d.toNat + n e ≤ 256 := by
    have := (field_legal h.legal (dest_named e _ hj)).1
    rw [hd] at this
    simp only [roleOperandBad, Bool.or_eq_false_iff, decide_eq_false_iff_not] at this
    omega
  obtain ⟨lg, hlg, hfn⟩ := ho s1 i ls (laneIn s1 i) (encCtxOf s a) rfl (fun l hl => lt_of_participant hl) h.legal
    (iss_facts h).2.2.1.symm (fun l => rfl) (fun l => rfl)
  have hpc : pred = true → e.m.c.toNat < 8 := by
    intro hp
    have hlc : e.ctl.lc = 0 := by
      refine Classical.byContradiction fun hne => ?_
      have h5 := (encCheck_none h.legal).2.2.2.2.1
      have h6 : latchBad f e (encCtxOf s a).fmt (encCtxOf s a).members = true := by
        unfold latchBad
        rw [Bool.or_eq_true]
        right
        simp [hc hp, Role.latchable]
        exact hne
      rw [h5] at h6
      cases h6
    have hm : (Role.pd, e.m.c.toNat) ∈ namedFields f e (encCtxOf s a).fmt := by
      unfold namedFields
      rw [List.mem_append]
      right
      simp [hlc, hc hp]
    have := (field_legal h.legal hm).1
    simpa [roleOperandBad] using this
  let ws := ls.flatMap fun l => blockW (vKey l e.d.toNat) (n e) (r l).1 ++
    (if pred then blockW (pKey l e.m.c.toNat) 1 (r l).2.1.toNat else [])
  let outs : List (Nat × LaneOut) := ls.filterMap fun l => (lg l).map fun g => (l, ⟨0, g⟩)
  have hnd : (outs.map Prod.fst).Nodup := by
    have hsub : (outs.map Prod.fst).Sublist ls := by
      show (List.map Prod.fst (ls.filterMap _)).Sublist ls
      generalize ls = l0
      induction l0 with
      | nil => exact List.Sublist.slnil
      | cons x r ih =>
        rw [List.filterMap_cons]
        cases lg x with
        | none => exact List.Sublist.cons _ ih
        | some g => exact List.Sublist.cons_cons _ ih
    exact hsub.nodup (participants_nodup _ _ _)
  obtain ⟨h1, h2, h3, h4, h5⟩ := sent_all h outs ws .done false false hnd
  have heff : coopEffect fn i s1
      = outstanding (outs.foldl (fun acc o => setLg acc a.gid o.1 o.2.lg) (book s a e)) (issOf f e s a) ws .done false false := by
    have hdef : coopEffect fn i s1 = outstanding ((fn s1 i ls (laneIn s1 i)).foldl (setDrawn i.a.gid) s1) i
        ((fn s1 i ls (laneIn s1 i)).flatMap fun o =>
          (destWrites i o.lane o.d).1 ++ (match o.p with | some b => [pWrite o.lane i.e.m.c.toNat b] | none => []))
        .done false false := rfl
    rw [hdef, hfn, coop_setLgs, show i.a.gid = a.gid from (iss_facts h).1]
    have e1 : (ls.map fun l => (⟨l, (r l).1, if pred then some (r l).2.1 else none, lg l⟩ : CoopOut)).filterMap drawn = outs := by
      rw [List.filterMap_map]; rfl
    have e2 : ((ls.map fun l => (⟨l, (r l).1, if pred then some (r l).2.1 else none, lg l⟩ : CoopOut)).flatMap fun o =>
        (destWrites i o.lane o.d).1 ++ (match o.p with | some b => [pWrite o.lane i.e.m.c.toNat b] | none => [])) = ws := by
      rw [List.flatMap_map]
      show _ = ls.flatMap _
      congr 1; funext l
      unfold destWrites
      rw [show i.f = f from rfl, show i.e = e from rfl, hd]
      cases pred
      · rfl
      · simp only [if_true]
        rw [blockW_one]
        rfl
    exact (congrArg (fun x => outstanding (List.foldl (fun acc (o : Nat × LaneOut) => setLg acc a.gid o.1 o.2.lg) s1 x) i _ .done
      false false) e1).trans (congrArg (fun x => outstanding _ i x .done false false) e2)
  have hinj : ∀ l ∈ ls, ∀ m ∈ ls, ∀ j < n e, ∀ k < n e, vKey l e.d.toNat + j = vKey m e.d.toNat + k → l = m :=
    fun l _ m _ j hj' k hk he => (vKey_inj hbound hj' hk he).1
  have hws : ∀ w ∈ ws, (∃ l ∈ ls, w ∈ blockW (vKey l e.d.toNat) (n e) (r l).1)
      ∨ (pred = true ∧ ∃ l ∈ ls, w ∈ blockW (pKey l e.m.c.toNat) 1 (r l).2.1.toNat) := by
    intro w hw
    obtain ⟨l, hl, hw⟩ := List.mem_flatMap.1 hw
    rcases List.mem_append.1 hw with hw | hw
    · exact .inl ⟨l, hl, hw⟩
    · cases hp : pred
      · simp [hp] at hw
      · simp only [hp, if_true] at hw
        exact .inr ⟨rfl, l, hl, hw⟩
  have hnodup : (ws.map Prod.fst).Nodup := by
    rw [List.map_flatMap, List.Nodup, List.pairwise_flatMap]
    have hk : ∀ l, (blockW (vKey l e.d.toNat) (n e) (r l).1 ++
        (if pred then blockW (pKey l e.m.c.toNat) 1 (r l).2.1.toNat else [])).map Prod.fst
        = rangeFrom (vKey l e.d.toNat) (n e) ++ (if pred then [pKey l e.m.c.toNat] else []) := by
      intro l
      rw [List.map_append, blockW_keys]
      cases pred
      · rfl
      · simp only [if_true, blockW_keys]; rfl
    refine ⟨fun l hl => ?_, List.Pairwise.imp_of_mem ?_ (participants_nodup _ _ _)⟩
    · rw [hk]
      have hl32 := lt_of_participant hl
      cases hp : pred
      · simp only [Bool.false_eq_true, if_false, List.append_nil]; exact rangeFrom_nodup _ _
      · simp only [if_true]
        refine List.nodup_append.2 ⟨rangeFrom_nodup _ _, by simp, ?_⟩
        intro x hx y hy
        simp only [List.mem_singleton] at hy
        have := (mem_rangeFrom _ _ _).1 hx
        unfold vKey at this
        unfold pKey at hy
        omega
    · intro l m hl hm hne x hx y hy hxy
      subst hxy
      rw [hk] at hx hy
      have hl32 := lt_of_participant hl
      have hm32 := lt_of_participant hm
      have hpb := hpc
      cases hp : pred
      · simp only [hp, Bool.false_eq_true, if_false, List.append_nil] at hx hy
        have h1 := (mem_rangeFrom _ _ _).1 hx
        have h2 := (mem_rangeFrom _ _ _).1 hy
        exact hne (hinj l hl m hm (x - vKey l e.d.toNat) (by omega) (x - vKey m e.d.toNat) (by omega) (by omega))
      · simp only [hp, if_true, List.mem_append, List.mem_singleton] at hx hy
        have hb := hpc hp
        unfold pKey at hx hy
        rcases hx with hx | hx <;> rcases hy with hy | hy
        · have h1 := (mem_rangeFrom _ _ _).1 hx
          have h2 := (mem_rangeFrom _ _ _).1 hy
          exact hne (hinj l hl m hm (x - vKey l e.d.toNat) (by omega) (x - vKey m e.d.toNat) (by omega) (by omega))
        · have h1 := (mem_rangeFrom _ _ _).1 hx
          unfold vKey at h1
          omega
        · have h1 := (mem_rangeFrom _ _ _).1 hy
          unfold vKey at h1
          omega
        · omega
  refine ⟨_, _, by rw [hx, issue_clear h], by rw [heff]; exact h1, by rw [heff]; exact h2, by rw [heff]; exact h5, ?_, rfl, ?_, ?_, ?_⟩
  · rw [heff]
    intro l
    split
    · next hl =>
      refine Eq.trans ?_ (hlg l hl).symm
      cases hg : lg l with
      | some g =>
        have := h4 (l, ⟨0, g⟩) (List.mem_filterMap.2 ⟨l, hl, by rw [hg]; rfl⟩)
        exact this
      | none =>
        refine (h3 l fun o hm he => ?_).trans ?_
        · obtain ⟨m, hm', h6⟩ := List.mem_filterMap.1 hm
          cases hgm : lg m with
          | none => rw [hgm] at h6; cases h6
          | some g =>
            rw [hgm] at h6
            simp only [Option.map_some, Option.some.injEq] at h6
            subst h6
            simp only at he
            subst he
            rw [hg] at hgm; cases hgm
        · show _ = readLg i.a.g l
          rw [(iss_facts h).2.2.2.2.2.2.2]
          simp [getGroup, mget, (curAt_some h.issuer).2, bookGroup, readLg]
    · next hl =>
      refine h3 l fun o hm he => ?_
      obtain ⟨m, hm', h6⟩ := List.mem_filterMap.1 hm
      cases hgm : lg m with
      | none => rw [hgm] at h6; cases h6
      | some g =>
        rw [hgm] at h6
        simp only [Option.map_some, Option.some.injEq] at h6
        subst h6
        exact hl (he ▸ hm')
  · refine delivers_of (fun l hl w hw => List.mem_flatMap.2 ⟨l, hl, List.mem_append_left _ hw⟩) hnodup ?_
    intro l hl j hj
    refine fixedTrue_v ?_
    have := lt_of_participant hl
    unfold vKey; omega
  · cases hp : pred
    · intro l hl; simp at hl
    · by_cases h0 : e.m.c = 0
      · intro l hl; simp [h0] at hl
      · have hcz : e.m.c.toNat ≠ 0 := fun hz => h0 (BitVec.eq_of_toNat_eq (by simpa using hz))
        have hb := hpc hp
        simp only [Bool.true_and, bne_iff_ne, ne_eq, h0, not_false_eq_true, if_true]
        refine delivers_of (fun l hl w hw => List.mem_flatMap.2 ⟨l, hl, List.mem_append_right _ ?_⟩) hnodup ?_
        · simp only [hp, if_true]; exact hw
        · intro l hl j hj
          have := lt_of_participant hl
          unfold fixedTrue pKey
          simp only [Bool.or_eq_false_iff, Bool.and_eq_false_iff, beq_eq_false_iff_ne, decide_eq_false_iff_not]
          omega
  · intro k hk
    obtain ⟨w, hw, rfl⟩ := opWrites_some ws [] k hk rfl
    rcases hws w hw with ⟨l, hl, hw⟩ | ⟨hp, l, hl, hw⟩
    · obtain ⟨j, hj', rfl⟩ := mem_blockW _ _ _ _ hw
      exact ⟨_, List.mem_append_left _ (List.mem_map.2 ⟨l, hl, rfl⟩), by simp; omega⟩
    · obtain ⟨j, hj', rfl⟩ := mem_blockW _ _ _ _ hw
      refine ⟨(pKey l e.m.c.toNat, 1), List.mem_append_right _ ?_, by simp; omega⟩
      simp only [hp, if_true]
      exact List.mem_map.2 ⟨l, hl, rfl⟩

end Sys2Proof.Machine
end

