-- ==== Sys2Proof/Laws/PerInstr.lean ====
section
/-!
SUPPORT. For each instruction: its opcode and set (R171, R186, R187) select it in the decoder, with the fields that it
carries, and its opcode is one that the operation word can hold and that is no refusal (R183).
-/

namespace Sys2Proof.Laws.Encoding

open Sys2Proof.Machine

/-- The decoder's row for the instruction's set and opcode is the instruction's own constructor. -/
def Statement (i : Instr) : Prop :=
  ∀ f e, formOf i = some (f, e) →
    ∃ mk, (if f.uni then uniformOp f.op else laneOp f.op) = some mk ∧ mk e = i ∧ 0 < f.op ∧ f.op < 256

/-- An instruction whose form and row are known has the statement. -/
theorem of_row {i : Instr} {g : Form} {d : Enc} {mk : Enc → Instr} (h : formOf i = some (g, d))
    (hr : (if g.uni then uniformOp g.op else laneOp g.op) = some mk) (hi : mk d = i) (h0 : 0 < g.op) (h1 : g.op < 256) :
    Statement i := by
  intro f e hf
  rw [h] at hf
  simp only [Option.some.injEq, Prod.mk.injEq] at hf
  obtain ⟨rfl, rfl⟩ := hf
  exact ⟨mk, hr, hi, h0, h1⟩

/-- A step of the device has no words. -/
theorem of_none {i : Instr} (h : formOf i = none) : Statement i := by
  intro f e hf
  rw [h] at hf
  exact absurd hf (by simp)

theorem iadd (e : Enc) : Statement (.iadd e) := of_row rfl rfl rfl (by decide) (by decide)
theorem isub (e : Enc) : Statement (.isub e) := of_row rfl rfl rfl (by decide) (by decide)
theorem imul (e : Enc) : Statement (.imul e) := of_row rfl rfl rfl (by decide) (by decide)
theorem imulh (e : Enc) : Statement (.imulh e) := of_row rfl rfl rfl (by decide) (by decide)
theorem imad (e : Enc) : Statement (.imad e) := of_row rfl rfl rfl (by decide) (by decide)
theorem imin (e : Enc) : Statement (.imin e) := of_row rfl rfl rfl (by decide) (by decide)
theorem imax (e : Enc) : Statement (.imax e) := of_row rfl rfl rfl (by decide) (by decide)
theorem iabs (e : Enc) : Statement (.iabs e) := of_row rfl rfl rfl (by decide) (by decide)
theorem iadd64 (e : Enc) : Statement (.iadd64 e) := of_row rfl rfl rfl (by decide) (by decide)
theorem imadw (e : Enc) : Statement (.imadw e) := of_row rfl rfl rfl (by decide) (by decide)
theorem shl (e : Enc) : Statement (.shl e) := of_row rfl rfl rfl (by decide) (by decide)
theorem shr (e : Enc) : Statement (.shr e) := of_row rfl rfl rfl (by decide) (by decide)
theorem sar (e : Enc) : Statement (.sar e) := of_row rfl rfl rfl (by decide) (by decide)
theorem fshf (e : Enc) : Statement (.fshf e) := of_row rfl rfl rfl (by decide) (by decide)
theorem ltab (e : Enc) : Statement (.ltab e) := of_row rfl rfl rfl (by decide) (by decide)
theorem popc (e : Enc) : Statement (.popc e) := of_row rfl rfl rfl (by decide) (by decide)
theorem clz (e : Enc) : Statement (.clz e) := of_row rfl rfl rfl (by decide) (by decide)
theorem brev (e : Enc) : Statement (.brev e) := of_row rfl rfl rfl (by decide) (by decide)
theorem bfe (e : Enc) : Statement (.bfe e) := of_row rfl rfl rfl (by decide) (by decide)
theorem bfi (e : Enc) : Statement (.bfi e) := of_row rfl rfl rfl (by decide) (by decide)
theorem bpick (e : Enc) : Statement (.bpick e) := of_row rfl rfl rfl (by decide) (by decide)
theorem icmp (e : Enc) : Statement (.icmp e) := of_row rfl rfl rfl (by decide) (by decide)
theorem ptab (e : Enc) : Statement (.ptab e) := of_row rfl rfl rfl (by decide) (by decide)
theorem sel (e : Enc) : Statement (.sel e) := of_row rfl rfl rfl (by decide) (by decide)
theorem mov (e : Enc) : Statement (.mov e) := of_row rfl rfl rfl (by decide) (by decide)
theorem rdsp (e : Enc) : Statement (.rdsp e) := of_row rfl rfl rfl (by decide) (by decide)
theorem wrsp (e : Enc) : Statement (.wrsp e) := of_row rfl rfl rfl (by decide) (by decide)
theorem lea (e : Enc) : Statement (.lea e) := of_row rfl rfl rfl (by decide) (by decide)
theorem idp4 (e : Enc) : Statement (.idp4 e) := of_row rfl rfl rfl (by decide) (by decide)
theorem fadd (e : Enc) : Statement (.fadd e) := of_row rfl rfl rfl (by decide) (by decide)
theorem fmul (e : Enc) : Statement (.fmul e) := of_row rfl rfl rfl (by decide) (by decide)
theorem ffma (e : Enc) : Statement (.ffma e) := of_row rfl rfl rfl (by decide) (by decide)
theorem fmin (e : Enc) : Statement (.fmin e) := of_row rfl rfl rfl (by decide) (by decide)
theorem fmax (e : Enc) : Statement (.fmax e) := of_row rfl rfl rfl (by decide) (by decide)
theorem fcmp (e : Enc) : Statement (.fcmp e) := of_row rfl rfl rfl (by decide) (by decide)
theorem fclass (e : Enc) : Statement (.fclass e) := of_row rfl rfl rfl (by decide) (by decide)
theorem fscale (e : Enc) : Statement (.fscale e) := of_row rfl rfl rfl (by decide) (by decide)
theorem frnd (e : Enc) : Statement (.frnd e) := of_row rfl rfl rfl (by decide) (by decide)
theorem cvt (e : Enc) : Statement (.cvt e) := of_row rfl rfl rfl (by decide) (by decide)
theorem pkn (e : Enc) : Statement (.pkn e) := of_row rfl rfl rfl (by decide) (by decide)
theorem upkn (e : Enc) : Statement (.upkn e) := of_row rfl rfl rfl (by decide) (by decide)
theorem cfma (e : Enc) : Statement (.cfma e) := of_row rfl rfl rfl (by decide) (by decide)
theorem cmul (e : Enc) : Statement (.cmul e) := of_row rfl rfl rfl (by decide) (by decide)
theorem fdp2 (e : Enc) : Statement (.fdp2 e) := of_row rfl rfl rfl (by decide) (by decide)
theorem frcp (e : Enc) : Statement (.frcp e) := of_row rfl rfl rfl (by decide) (by decide)
theorem frsq (e : Enc) : Statement (.frsq e) := of_row rfl rfl rfl (by decide) (by decide)
theorem fsqrt (e : Enc) : Statement (.fsqrt e) := of_row rfl rfl rfl (by decide) (by decide)
theorem fdiv (e : Enc) : Statement (.fdiv e) := of_row rfl rfl rfl (by decide) (by decide)
theorem fexp2 (e : Enc) : Statement (.fexp2 e) := of_row rfl rfl rfl (by decide) (by decide)
theorem flog2 (e : Enc) : Statement (.flog2 e) := of_row rfl rfl rfl (by decide) (by decide)
theorem xf (e : Enc) : Statement (.xf e) := of_row rfl rfl rfl (by decide) (by decide)
theorem dcd (e : Enc) : Statement (.dcd e) := of_row rfl rfl rfl (by decide) (by decide)
theorem enc (e : Enc) : Statement (.enc e) := of_row rfl rfl rfl (by decide) (by decide)
theorem xlane (e : Enc) : Statement (.xlane e) := of_row rfl rfl rfl (by decide) (by decide)
theorem poll (e : Enc) : Statement (.poll e) := of_row rfl rfl rfl (by decide) (by decide)
theorem redux (e : Enc) : Statement (.redux e) := of_row rfl rfl rfl (by decide) (by decide)
theorem scan (e : Enc) : Statement (.scan e) := of_row rfl rfl rfl (by decide) (by decide)
theorem matchB (e : Enc) : Statement (.matchB e) := of_row rfl rfl rfl (by decide) (by decide)
theorem topk (e : Enc) : Statement (.topk e) := of_row rfl rfl rfl (by decide) (by decide)
theorem rand (e : Enc) : Statement (.rand e) := of_row rfl rfl rfl (by decide) (by decide)
theorem prune (e : Enc) : Statement (.prune e) := of_row rfl rfl rfl (by decide) (by decide)
theorem mma (e : Enc) : Statement (.mma e) := of_row rfl rfl rfl (by decide) (by decide)
theorem mmac (e : Enc) : Statement (.mmac e) := of_row rfl rfl rfl (by decide) (by decide)
theorem plnst (e : Enc) : Statement (.plnst e) := of_row rfl rfl rfl (by decide) (by decide)
theorem mdrn (e : Enc) : Statement (.mdrn e) := of_row rfl rfl rfl (by decide) (by decide)
theorem ld (e : Enc) : Statement (.ld e) := of_row rfl rfl rfl (by decide) (by decide)
theorem st (e : Enc) : Statement (.st e) := of_row rfl rfl rfl (by decide) (by decide)
theorem lds (e : Enc) : Statement (.lds e) := of_row rfl rfl rfl (by decide) (by decide)
theorem sts (e : Enc) : Statement (.sts e) := of_row rfl rfl rfl (by decide) (by decide)
theorem atom (e : Enc) : Statement (.atom e) := of_row rfl rfl rfl (by decide) (by decide)
theorem atoms (e : Enc) : Statement (.atoms e) := of_row rfl rfl rfl (by decide) (by decide)
theorem red (e : Enc) : Statement (.red e) := of_row rfl rfl rfl (by decide) (by decide)
theorem tld (e : Enc) : Statement (.tld e) := of_row rfl rfl rfl (by decide) (by decide)
theorem tstr (e : Enc) : Statement (.tstr e) := of_row rfl rfl rfl (by decide) (by decide)
theorem pref (e : Enc) : Statement (.pref e) := of_row rfl rfl rfl (by decide) (by decide)
theorem resq (e : Enc) : Statement (.resq e) := of_row rfl rfl rfl (by decide) (by decide)
theorem hins (e : Enc) : Statement (.hins e) := of_row rfl rfl rfl (by decide) (by decide)
theorem hprobe (e : Enc) : Statement (.hprobe e) := of_row rfl rfl rfl (by decide) (by decide)
theorem hacc (e : Enc) : Statement (.hacc e) := of_row rfl rfl rfl (by decide) (by decide)
theorem hdel (e : Enc) : Statement (.hdel e) := of_row rfl rfl rfl (by decide) (by decide)
theorem gld (e : Enc) : Statement (.gld e) := of_row rfl rfl rfl (by decide) (by decide)
theorem gdeg (e : Enc) : Statement (.gdeg e) := of_row rfl rfl rfl (by decide) (by decide)
theorem gadd (e : Enc) : Statement (.gadd e) := of_row rfl rfl rfl (by decide) (by decide)
theorem gdel (e : Enc) : Statement (.gdel e) := of_row rfl rfl rfl (by decide) (by decide)
theorem gfind (e : Enc) : Statement (.gfind e) := of_row rfl rfl rfl (by decide) (by decide)
theorem gpay (e : Enc) : Statement (.gpay e) := of_row rfl rfl rfl (by decide) (by decide)
theorem copen (e : Enc) : Statement (.copen e) := of_row rfl rfl rfl (by decide) (by decide)
theorem cnext (e : Enc) : Statement (.cnext e) := of_row rfl rfl rfl (by decide) (by decide)
theorem cseek (e : Enc) : Statement (.cseek e) := of_row rfl rfl rfl (by decide) (by decide)
theorem cinfo (e : Enc) : Statement (.cinfo e) := of_row rfl rfl rfl (by decide) (by decide)
theorem cclose (e : Enc) : Statement (.cclose e) := of_row rfl rfl rfl (by decide) (by decide)
theorem gisect (e : Enc) : Statement (.gisect e) := of_row rfl rfl rfl (by decide) (by decide)
theorem sadd (e : Enc) : Statement (.sadd e) := of_row rfl rfl rfl (by decide) (by decide)
theorem ssub (e : Enc) : Statement (.ssub e) := of_row rfl rfl rfl (by decide) (by decide)
theorem smul (e : Enc) : Statement (.smul e) := of_row rfl rfl rfl (by decide) (by decide)
theorem smad (e : Enc) : Statement (.smad e) := of_row rfl rfl rfl (by decide) (by decide)
theorem smin (e : Enc) : Statement (.smin e) := of_row rfl rfl rfl (by decide) (by decide)
theorem smax (e : Enc) : Statement (.smax e) := of_row rfl rfl rfl (by decide) (by decide)
theorem sshl (e : Enc) : Statement (.sshl e) := of_row rfl rfl rfl (by decide) (by decide)
theorem sshr (e : Enc) : Statement (.sshr e) := of_row rfl rfl rfl (by decide) (by decide)
theorem ssar (e : Enc) : Statement (.ssar e) := of_row rfl rfl rfl (by decide) (by decide)
theorem sltab (e : Enc) : Statement (.sltab e) := of_row rfl rfl rfl (by decide) (by decide)
theorem smov (e : Enc) : Statement (.smov e) := of_row rfl rfl rfl (by decide) (by decide)
theorem scmp (e : Enc) : Statement (.scmp e) := of_row rfl rfl rfl (by decide) (by decide)
theorem ssel (e : Enc) : Statement (.ssel e) := of_row rfl rfl rfl (by decide) (by decide)
theorem sadd64 (e : Enc) : Statement (.sadd64 e) := of_row rfl rfl rfl (by decide) (by decide)
theorem smadw (e : Enc) : Statement (.smadw e) := of_row rfl rfl rfl (by decide) (by decide)
theorem sbfe (e : Enc) : Statement (.sbfe e) := of_row rfl rfl rfl (by decide) (by decide)
theorem spopc (e : Enc) : Statement (.spopc e) := of_row rfl rfl rfl (by decide) (by decide)
theorem sclz (e : Enc) : Statement (.sclz e) := of_row rfl rfl rfl (by decide) (by decide)
theorem qtab (e : Enc) : Statement (.qtab e) := of_row rfl rfl rfl (by decide) (by decide)
theorem sffma (e : Enc) : Statement (.sffma e) := of_row rfl rfl rfl (by decide) (by decide)
theorem scvt (e : Enc) : Statement (.scvt e) := of_row rfl rfl rfl (by decide) (by decide)
theorem sld (e : Enc) : Statement (.sld e) := of_row rfl rfl rfl (by decide) (by decide)
theorem sst (e : Enc) : Statement (.sst e) := of_row rfl rfl rfl (by decide) (by decide)
theorem slds (e : Enc) : Statement (.slds e) := of_row rfl rfl rfl (by decide) (by decide)
theorem ssts (e : Enc) : Statement (.ssts e) := of_row rfl rfl rfl (by decide) (by decide)
theorem satom (e : Enc) : Statement (.satom e) := of_row rfl rfl rfl (by decide) (by decide)
theorem oinfo (e : Enc) : Statement (.oinfo e) := of_row rfl rfl rfl (by decide) (by decide)
theorem bra (e : Enc) : Statement (.bra e) := of_row rfl rfl rfl (by decide) (by decide)
theorem brl (e : Enc) : Statement (.brl e) := of_row rfl rfl rfl (by decide) (by decide)
theorem brx (e : Enc) : Statement (.brx e) := of_row rfl rfl rfl (by decide) (by decide)
theorem rjn (e : Enc) : Statement (.rjn e) := of_row rfl rfl rfl (by decide) (by decide)
theorem call (e : Enc) : Statement (.call e) := of_row rfl rfl rfl (by decide) (by decide)
theorem ret (e : Enc) : Statement (.ret e) := of_row rfl rfl rfl (by decide) (by decide)
theorem exit (e : Enc) : Statement (.exit e) := of_row rfl rfl rfl (by decide) (by decide)
theorem loopn (e : Enc) : Statement (.loopn e) := of_row rfl rfl rfl (by decide) (by decide)
theorem nop (e : Enc) : Statement (.nop e) := of_row rfl rfl rfl (by decide) (by decide)
theorem bar (e : Enc) : Statement (.bar e) := of_row rfl rfl rfl (by decide) (by decide)
theorem bara (e : Enc) : Statement (.bara e) := of_row rfl rfl rfl (by decide) (by decide)
theorem barw (e : Enc) : Statement (.barw e) := of_row rfl rfl rfl (by decide) (by decide)
theorem rcw (e : Enc) : Statement (.rcw e) := of_row rfl rfl rfl (by decide) (by decide)
theorem gbar (e : Enc) : Statement (.gbar e) := of_row rfl rfl rfl (by decide) (by decide)
theorem fence (e : Enc) : Statement (.fence e) := of_row rfl rfl rfl (by decide) (by decide)
theorem cqinit (e : Enc) : Statement (.cqinit e) := of_row rfl rfl rfl (by decide) (by decide)
theorem cqadv (e : Enc) : Statement (.cqadv e) := of_row rfl rfl rfl (by decide) (by decide)
theorem cqwait (e : Enc) : Statement (.cqwait e) := of_row rfl rfl rfl (by decide) (by decide)
theorem cqseq (e : Enc) : Statement (.cqseq e) := of_row rfl rfl rfl (by decide) (by decide)
theorem task (e : Enc) : Statement (.task e) := of_row rfl rfl rfl (by decide) (by decide)
theorem tjoin (e : Enc) : Statement (.tjoin e) := of_row rfl rfl rfl (by decide) (by decide)
theorem tsettle (e : Enc) : Statement (.tsettle e) := of_row rfl rfl rfl (by decide) (by decide)
theorem hinit (e : Enc) : Statement (.hinit e) := of_row rfl rfl rfl (by decide) (by decide)
theorem setfmt (e : Enc) : Statement (.setfmt e) := of_row rfl rfl rfl (by decide) (by decide)
theorem setcmp (e : Enc) : Statement (.setcmp e) := of_row rfl rfl rfl (by decide) (by decide)
theorem rquota (e : Enc) : Statement (.rquota e) := of_row rfl rfl rfl (by decide) (by decide)
theorem wrsr (e : Enc) : Statement (.wrsr e) := of_row rfl rfl rfl (by decide) (by decide)
theorem trap (e : Enc) : Statement (.trap e) := of_row rfl rfl rfl (by decide) (by decide)
theorem bkpt (e : Enc) : Statement (.bkpt e) := of_row rfl rfl rfl (by decide) (by decide)
theorem tret (e : Enc) : Statement (.tret e) := of_row rfl rfl rfl (by decide) (by decide)
theorem tkill (e : Enc) : Statement (.tkill e) := of_row rfl rfl rfl (by decide) (by decide)
theorem otset (e : Enc) : Statement (.otset e) := of_row rfl rfl rfl (by decide) (by decide)
theorem pinv (e : Enc) : Statement (.pinv e) := of_row rfl rfl rfl (by decide) (by decide)
theorem resultReadable (gid op : Nat) : Statement (.resultReadable gid op) := of_none rfl
theorem operationComplete (gid op : Nat) : Statement (.operationComplete gid op) := of_none rfl
theorem readyAgePromote (gid k : Nat) : Statement (.readyAgePromote gid k) := of_none rfl
theorem stopBound (gid k : Nat) : Statement (.stopBound gid k) := of_none rfl
theorem groupEnd (gid : Nat) : Statement (.groupEnd gid) := of_none rfl
theorem teamEnd (tm : Nat) : Statement (.teamEnd tm) := of_none rfl
theorem homeRecall (grain : Nat) : Statement (.homeRecall grain) := of_none rfl
theorem convertedWrite (part va : Nat) (data : List Byte) : Statement (.convertedWrite part va data) := of_none rfl
theorem cursorBufferDiscard (gid lane cur : Nat) : Statement (.cursorBufferDiscard gid lane cur) := of_none rfl
theorem faultRecord (part idx : Nat) : Statement (.faultRecord part idx) := of_none rfl
theorem heldAccessReplay (part idx : Nat) : Statement (.heldAccessReplay part idx) := of_none rfl
theorem fbgenWrite (part : Nat) (v : Word) : Statement (.fbgenWrite part v) := of_none rfl
theorem umberCommandStart (tm slot : Nat) : Statement (.umberCommandStart tm slot) := of_none rfl
theorem umberCopy (tm slot seq row : Nat) : Statement (.umberCopy tm slot seq row) := of_none rfl
theorem umberGather (tm slot seq row : Nat) : Statement (.umberGather tm slot seq row) := of_none rfl
theorem umberScatter (tm slot seq row : Nat) : Statement (.umberScatter tm slot seq row) := of_none rfl
theorem umberMerge (tm slot seq row : Nat) : Statement (.umberMerge tm slot seq row) := of_none rfl
theorem umberBin (tm slot seq : Nat) : Statement (.umberBin tm slot seq) := of_none rfl
theorem umberFence (tm slot seq : Nat) : Statement (.umberFence tm slot seq) := of_none rfl
theorem rowLanding (tm slot seq row : Nat) : Statement (.rowLanding tm slot seq row) := of_none rfl
theorem completionWordWrite (tm slot : Nat) : Statement (.completionWordWrite tm slot) := of_none rfl
theorem chainAdvance (gid op : Nat) : Statement (.chainAdvance gid op) := of_none rfl
theorem headWrite (part chain : Nat) (v : Dword) : Statement (.headWrite part chain v) := of_none rfl
theorem tailWrite (part chain : Nat) (v : LinkWrite) : Statement (.tailWrite part chain v) := of_none rfl
theorem chainErrClear (part chain : Nat) : Statement (.chainErrClear part chain) := of_none rfl
theorem cardAccept (part : Nat) (src : CardSrc) : Statement (.cardAccept part src) := of_none rfl
theorem taskRelease (part tid : Nat) : Statement (.taskRelease part tid) := of_none rfl
theorem fire (part tid : Nat) : Statement (.fire part tid) := of_none rfl
theorem recordWrite (part tid : Nat) : Statement (.recordWrite part tid) := of_none rfl
theorem bulkCopy (part tid : Nat) : Statement (.bulkCopy part tid) := of_none rfl
theorem bulkConvert (part tid : Nat) : Statement (.bulkConvert part tid) := of_none rfl
theorem gbuild (part tid : Nat) : Statement (.gbuild part tid) := of_none rfl
theorem gdump (part tid : Nat) : Statement (.gdump part tid) := of_none rfl
theorem dispatchBatch (part : Nat) : Statement (.dispatchBatch part) := of_none rfl
theorem teamAdmit (part : Nat) : Statement (.teamAdmit part) := of_none rfl
theorem partialEviction (part : Nat) : Statement (.partialEviction part) := of_none rfl
theorem evictionSave (gid : Nat) : Statement (.evictionSave gid) := of_none rfl
theorem groupReturn (gid : Nat) : Statement (.groupReturn gid) := of_none rfl
theorem gbarArrival (part idx : Nat) : Statement (.gbarArrival part idx) := of_none rfl
theorem handlerEntry (gid k : Nat) : Statement (.handlerEntry gid k) := of_none rfl
theorem taskLevelStop (part tid : Nat) : Statement (.taskLevelStop part tid) := of_none rfl
theorem debugHalt (gid : Nat) : Statement (.debugHalt gid) := of_none rfl
theorem dbgctlHalt (part : Nat) : Statement (.dbgctlHalt part) := of_none rfl
theorem dbgresWrite (part : Nat) (v : Word) : Statement (.dbgresWrite part v) := of_none rfl
theorem correctableError : Statement (.correctableError) := of_none rfl
theorem uncorrectableError (site : ErrSite) : Statement (.uncorrectableError site) := of_none rfl
theorem shootdownSubmit (addr : Dword) (ctl : Word) : Statement (.shootdownSubmit addr ctl) := of_none rfl
theorem tlbAck (tlb : TlbId) : Statement (.tlbAck tlb) := of_none rfl
theorem migrationSubmit (desc : List Word) : Statement (.migrationSubmit desc) := of_none rfl
theorem blockHandover : Statement (.blockHandover) := of_none rfl
theorem requestForward (idx : Nat) : Statement (.requestForward idx) := of_none rfl
theorem migstatMapped : Statement (.migstatMapped) := of_none rfl
theorem resizeSubmit (desc : List Word) : Statement (.resizeSubmit desc) := of_none rfl
theorem resizeStateAdvance (idx : Nat) : Statement (.resizeStateAdvance idx) := of_none rfl
theorem teamMove (tm : Nat) : Statement (.teamMove tm) := of_none rfl
theorem bucketHandover (idx : Nat) (ctrl : Bool) (bucket : Nat) : Statement (.bucketHandover idx ctrl bucket) := of_none rfl
theorem pctlWrite (part : Nat) (v : Word) : Statement (.pctlWrite part v) := of_none rfl
theorem vquotaWrite (part : Nat) (v : Word) : Statement (.vquotaWrite part v) := of_none rfl
theorem otinvWrite (part : Nat) (v : Word) : Statement (.otinvWrite part v) := of_none rfl
theorem otinvComplete (part : Nat) : Statement (.otinvComplete part) := of_none rfl
theorem registerWrite (space : RegSpace) (off : Nat) (v : Dword) (wide : Bool) : Statement (.registerWrite space off v wide) := of_none rfl
theorem dieLinkLoss (a b : Nat) : Statement (.dieLinkLoss a b) := of_none rfl
theorem linkPortLoss (port : Nat) : Statement (.linkPortLoss port) := of_none rfl
theorem flitAck (port n : Nat) : Statement (.flitAck port n) := of_none rfl
theorem flitRetry (port : Nat) : Statement (.flitRetry port) := of_none rfl
theorem domainRequest (r : DomReq) : Statement (.domainRequest r) := of_none rfl
theorem reset (images : Flash) : Statement (.reset images) := of_none rfl
theorem attestationRequest (part : Nat) (nonce : List Byte) : Statement (.attestationRequest part nonce) := of_none rfl
theorem keyLoad (part key : Nat) (peer : List Byte) (secret : Secret) : Statement (.keyLoad part key peer secret) := of_none rfl
theorem throttleStep (temps : List Nat) (watts : Nat) : Statement (.throttleStep temps watts) := of_none rfl
theorem fatalError (why : FatalCause) : Statement (.fatalError why) := of_none rfl
theorem corePowerUp (core : Nat) : Statement (.corePowerUp core) := of_none rfl
theorem corePowerGate (core : Nat) : Statement (.corePowerGate core) := of_none rfl
theorem hostMemoryWrite (link part va : Nat) (data : List Byte) : Statement (.hostMemoryWrite link part va data) := of_none rfl
theorem firmwareMemoryWrite (what : FwTarget) (data : List Byte) : Statement (.firmwareMemoryWrite what data) := of_none rfl
theorem noframeStop (part tid va : Nat) : Statement (.noframeStop part tid va) := of_none rfl
theorem keySlotErase (part key : Nat) : Statement (.keySlotErase part key) := of_none rfl
theorem retireFailingUnit (kind die unit : Nat) : Statement (.retireFailingUnit kind die unit) := of_none rfl
theorem granuleRepair (kind g : Nat) : Statement (.granuleRepair kind g) := of_none rfl
theorem dieLinkRetrain (a b : Nat) : Statement (.dieLinkRetrain a b) := of_none rfl

end Sys2Proof.Laws.Encoding
end

