-- ==== Sys2Proof/Tests/Fixture.lean ====
section
/-!
SUPPORT. Small states for the tests and the witnesses: one group of one team of one task on core 0, with one page mapped
at address 0 and the instruction's own words at the start of it (log 4).
-/

namespace Sys2Proof.Tests

open Machine

/-- Fields all zero, no flag set, no literal. -/
def enc0 : Enc := ⟨⟨0, 0, 15, false, false, 0, 0, 0, 0, false⟩, 0, 0, 0, ⟨0, false, false, false, 0, 0⟩, 0⟩

/-- Literal M alone: registers D, A, B, C, MOD, SA and SB. -/
def encM (d a b c md : Nat) (sa : Bool := false) (sb : Bool := false) : Enc :=
  { enc0 with ctl := { enc0.ctl with lit := 1 }, d := BitVec.ofNat 8 d, a := BitVec.ofNat 8 a, b := BitVec.ofNat 8 b,
              m := ⟨0, sa, sb, false, BitVec.ofNat 17 md, BitVec.ofNat 8 c⟩ }

/-- Both literals: an immediate B. -/
def encI (d a md imm : Nat) : Enc :=
  { encM d a 0 0 md with ctl := { enc0.ctl with lit := 2 }, m := ⟨0, false, false, true, BitVec.ofNat 17 md, 0⟩,
                         imm := BitVec.ofNat 32 imm }

/-- The state in which the one split is about to issue an instruction. -/
def atI (i : Instr) : State := { placeCode State.reset (encodeBytes i) with cur := some (0, 0) }

/-- The group changed. -/
def withGroup (s : State) (f : Group → Group) : State := modGroup s 0 f

/-- Registers set. -/
def withRegs (s : State) (rs : SMap Word) : State := withGroup s fun g => { g with regs := rs }

/-- A v register set to one value in every lane. -/
def allLanes (r v : Nat) : SMap Word := (List.range 32).map fun l => (vKey l r, BitVec.ofNat 32 v)

/-- The issuing split, wherever it is. -/
def issuer (s : State) : At :=
  (curAt s).getD ⟨0, 0, Group.empty, Split.empty, Team.empty, Task.empty⟩

/-- Nothing keeps the instruction from issuing. -/
def isClear (f : Form) (e : Enc) (s : State) : Bool :=
  match curAt s with
  | some a => (dueTrap a f e).isNone && (overdueFault a f e).isNone && (encCheck f e (encCtxOf s a)).isNone && eligible s a f e
  | none => false

theorem clear {f : Form} {e : Enc} {s : State} (h : isClear f e s = true) : Clear f e s (issuer s) := by
  unfold isClear at h
  unfold issuer
  cases hc : curAt s with
  | none => rw [hc] at h; exact absurd h (by simp)
  | some a =>
    rw [hc] at h
    simp only [Bool.and_eq_true, Option.isNone_iff_eq_none] at h
    exact ⟨hc, h.1.1.1, h.1.1.2, h.1.2, h.2⟩

/-- Nothing keeps an instruction of the table from issuing in its own test state. -/
def clearHere (i : Instr) : Bool :=
  match formOf i with
  | some (f, e) => isClear f e (atI i)
  | none => false

theorem clear_all {is : List Instr} (h : is.all clearHere = true) :
    ∀ i ∈ is, ∃ f e a, formOf i = some (f, e) ∧ Clear f e (atI i) a := by
  intro i hi
  have h1 := List.all_eq_true.1 h i hi
  unfold clearHere at h1
  split at h1
  · next f e hf => exact ⟨f, e, _, hf, clear h1⟩
  · exact absurd h1 (by simp)

/-- An access that succeeds, with the state after. -/
theorem ok_pair {ε α β : Type} (r : Except ε α × β) (h : r.1.isOk = true) : ∃ x, r = (.ok x, r.2) := by
  obtain ⟨x, y⟩ := r
  cases x with
  | ok x => exact ⟨x, rfl⟩
  | error x => exact absurd h (by simp [Except.isOk, Except.toBool])

end Sys2Proof.Tests
end

