-- ==== Sys2Proof/Tests/Slice0.lean ====
section
/-!
SUPPORT. Tests: ill-formed terms for each check, words written out from the spec's entries, and single steps and operations
against the spec's worked examples. Each names its source.
-/

namespace Sys2Proof.Tests

open Machine

set_option Elab.async false

/-! Well-formedness (R183, R185): the check of each code refuses a term. -/

def withCtl (e : Enc) (f : Ctl → Ctl) : Enc := { e with ctl := f e.ctl }
def withM (e : Enc) (f : LitM → LitM) : Enc := { e with m := f e.m }
/-- The codes of the static checks that fail. -/
def failing (i : Instr) : List Nat :=
  match formOf i with
  | some (f, e) => ((staticChecks f e).filter (·.2)).map (·.1)
  | none => []

def iaddOk : Enc := encM 4 1 2 0 0
theorem test_wellFormed : wellFormed (.iadd iaddOk) = true ∧ failing (.iadd iaddOk) = [] := by decide +kernel
theorem test_wf_setf : failing (.iadd (withCtl iaddOk fun c => { c with setf := 12 })) = [4] := by decide +kernel
theorem test_wf_yield : (failing (.iadd (withCtl iaddOk fun c => { c with hold := true, cede := true }))).contains 5 = true := by
  decide +kernel
theorem test_wf_guard : failing (.iadd (withM iaddOk fun m => { m with guard := 8 })) = [6] := by decide +kernel
theorem test_wf_bi : failing (.iadd (withM (withCtl iaddOk fun c => { c with lit := 2 }) fun m => { m with bi := false })) = [7] := by
  decide +kernel
theorem test_wf_rsvd : failing (.iadd (encM 4 1 2 7 0)) = [8] := by decide +kernel
theorem test_wf_latch : (failing (.iadd (withCtl (encM 4 1 2 0 0 true) fun c => { c with la := 1 }))).contains 9 = true := by decide +kernel
theorem test_wf_nwb : failing (.iadd (withCtl iaddOk fun c => { c with nwb := true })) = [10] := by decide +kernel
theorem test_wf_chain : failing (.bar (withCtl enc0 fun c => { c with hold := true })) = [11] := by decide +kernel
theorem test_wf_modifier : (failing (.ld (encM 4 1 0 0 7))).contains 12 = true := by decide +kernel
theorem test_wf_operand : failing (.iadd64 (encM 5 2 4 0 0)) = [13] := by decide +kernel
theorem test_wf_special : failing (.sadd (encM 4 176 0 0 0)) = [14] := by decide +kernel
theorem test_wf_scope : (failing (.ld (encM 4 1 0 0 0x644))).contains 17 = true := by decide +kernel
theorem test_wf_canonical : (withCtl iaddOk fun c => { c with lit := 3 }).canonical = false
    ∧ (withCtl (encM 4 1 2 7 0) fun c => { c with lit := 0 }).canonical = false ∧ { iaddOk with imm := 1 }.canonical = false := by
  decide +kernel
theorem test_wf_event : wellFormed .correctableError = true := by decide +kernel

/-! Decoding: words that the spec's chapters write out. -/

/-- What the words decode to, when nothing is left over. -/
def decoded (ws : List Word) : Option Instr :=
  match decode (ws.flatMap bytesOfWord) with
  | .ok (i, []) => some i
  | _ => none
def ctlU (lit : Nat) : Ctl := { enc0.ctl with lit := BitVec.ofNat 2 lit }

/-- Chapter 9, "A worked encoding". -/
theorem test_decode_ffma : decoded [0x10010100, 0x22081400, 0xBA000005, 0x40000000]
    = some (.ffma ⟨⟨2, 2, 0, false, false, 2, 0, 0, 0, false⟩, 8, 20, 0, ⟨11, true, false, true, 0, 5⟩, 0x40000000⟩) := by decide +kernel
theorem test_decode_icmp : decoded [0x00007880, 0x16010014, 0x00006200] = some (.icmp (encM 1 0 20 0 0x62)) := by decide +kernel
theorem test_decode_ld : decoded [0x00001100, 0x50080A00, 0x00001400, 0x00000010]
    = some (.ld ⟨⟨0, 0, 2, false, false, 2, 0, 0, 0, false⟩, 8, 10, 0, ⟨0, false, false, false, 0x14, 0⟩, 0x10⟩) := by decide +kernel
theorem test_decode_atom : decoded [0x00000900, 0x54040A00, 0x02068705, 1]
    = some (.atom ⟨⟨0, 0, 1, false, false, 2, 0, 0, 0, false⟩, 4, 10, 0, ⟨0, false, false, true, 0x687, 5⟩, 1⟩) := by decide +kernel
theorem test_decode_st : decoded [0x00007880, 0x51000A06, 0x00038400] = some (.st (encM 0 10 6 0 0x384)) := by decide +kernel
theorem test_decode_mma : decoded [0x00002880, 0x48400A0C, 0x0C00140E]
    = some (.mma ⟨⟨0, 0, 5, false, false, 1, 0, 0, 0, false⟩, 64, 10, 12, ⟨0, true, true, false, 0x14, 14⟩, 0⟩) := by decide +kernel
theorem test_decode_plnst : (decoded [0x00007880, 0x4A001420, 0x09578315]).map encode = some [0x00007880, 0x4A001420, 0x09578315] := by
  decide +kernel
theorem test_decode_mdrn : decoded [0x00103080, 0x4B003240, 0x00000C00]
    = some (.mdrn ⟨⟨0, 0x20, 6, false, false, 1, 0, 0, 0, false⟩, 0, 50, 64, ⟨0, false, false, false, 0xC, 0⟩, 0⟩) := by decide +kernel
theorem test_decode_copen : decoded [0x00003880, 0x66001401, 0x08000000]
    = some (.copen ⟨⟨0, 0, 7, false, false, 1, 0, 0, 0, false⟩, 0, 20, 1, ⟨0, true, false, false, 0, 0⟩, 0⟩) := by decide +kernel
theorem test_decode_cnext : decoded [0x00403800, 0x67020002]
    = some (.cnext ⟨⟨0, 0x80, 7, false, false, 0, 0, 0, 0, false⟩, 2, 0, 2, enc0.m, 0⟩) := by decide +kernel
theorem test_decode_sadd : decoded [0x80007900, 0x01048400, 0x02000000, 1]
    = some (.sadd ⟨ctlU 2, 4, 0x84, 0, ⟨0, false, false, true, 0, 0⟩, 1⟩) := by decide +kernel
theorem test_decode_cqadv : decoded [0x80007900, 0x39000000, 0x02000000, 1]
    = some (.cqadv ⟨ctlU 2, 0, 0, 0, ⟨0, false, false, true, 0, 0⟩, 1⟩) := by decide +kernel
theorem test_decode_setfmt : decoded [0x80007900, 0x40000000, 0x02000000, 0x33]
    = some (.setfmt ⟨ctlU 2, 0, 0, 0, ⟨0, false, false, true, 0, 0⟩, 0x33⟩) := by decide +kernel
theorem test_decode_loopn : decoded [0x80007880, 0x270FFFFE, 8] = some (.loopn ⟨ctlU 1, 0x0F, 0xFF, 0xFE, ⟨0, false, false, false, 0, 8⟩, 0⟩) := by
  decide +kernel
theorem test_decode_bra : decoded [0x80007800, 0x20100006] = some (.bra ⟨ctlU 0, 0x10, 0, 6, enc0.m, 0⟩) := by decide +kernel
/-- Two lane words of one operation word in the two sets: bit 31 of the control word chooses the set (R170). -/
theorem test_decode_sets : decoded [0x00007800, 0x01000000] = some (.iadd enc0) ∧ decoded [0x80007800, 0x01000000] = some (.sadd enc0) := by
  decide +kernel
theorem test_tableWord : decodeTableWord 64 (0x00007800 + 0x01000000 * 2 ^ 32) = some (.iadd enc0)
    ∧ decodeTableWord 64 (0x00007800 + 0x1E000000 * 2 ^ 32) = none := by decide +kernel

/-! One instruction, one lane: registers before, one register after. -/

/-- A register after the instruction. -/
def after (i : Instr) (rs : SMap Word) (k : Nat) : Option Word :=
  match exec i (withRegs (atI i) rs) with
  | .next t => some (regOf t 0 k)
  | _ => none
/-- Lane 31 with sources in v1, v2 and v3. -/
def lane31 (a b c : Nat) : SMap Word := [(vKey 31 1, BitVec.ofNat 32 a), (vKey 31 2, BitVec.ofNat 32 b), (vKey 31 3, BitVec.ofNat 32 c)]
def d31 : Nat := vKey 31 4

theorem test_iadd_wraps : after (.iadd (encM 4 1 2 0 0)) (lane31 0xFFFFFFFF 2 0) d31 = some 1 := by decide +kernel
theorem test_isub_wraps : after (.isub (encM 4 1 2 0 0)) (lane31 1 2 0) d31 = some 0xFFFFFFFF := by decide +kernel
/-- The chapter "Lane Compute": (a and b) or c is tab 0xEA. -/
theorem test_ltab : after (.ltab (encM 4 1 2 3 0xEA)) (lane31 0b1100 0b1010 0b0001) d31 = some 0b1001 := by decide +kernel
/-- The chapter "Lane Compute": CVT.rup.e4m3.f32 of 1.3125. -/
theorem test_decode_cvt : decoded [0x00007880, 0x29020100, 0x000C8000] = some (.cvt (encM 2 1 0 0 0xC80)) := by decide +kernel
theorem test_cvt : after (.cvt (encM 2 1 0 0 0xC80)) (lane31 0x3FA80000 0 0) (vKey 31 2) = some 0x3B := by decide +kernel
theorem test_ffma : after (.ffma (encM 4 1 2 3 0)) (lane31 0x3FC00000 0x40000000 0x3F800000) d31 = some 0x40800000 := by decide +kernel
/-- ICMP.lt.s32 compares as two's complement. -/
theorem test_icmp : after (.icmp (encM 1 1 2 0 0x62)) (lane31 0xFFFFFFFF 1 0) (pKey 31 1) = some 1
    ∧ after (.icmp (encM 1 1 2 0 0x62)) (lane31 1 0xFFFFFFFF 0) (pKey 31 1) = some 0 := by decide +kernel
theorem test_popc : after (.popc (encM 4 1 0 0 0)) (lane31 0xF0000001 0 0) d31 = some 5 := by decide +kernel
theorem test_brev : after (.brev (encM 4 1 0 0 0)) (lane31 1 0 0) d31 = some 0x80000000 := by decide +kernel
theorem test_sadd : after (.sadd (encM 4 1 2 0 0)) [(sKey 1, 7), (sKey 2, 0xFFFFFFFF)] (sKey 4) = some 6 := by decide +kernel
/-- v registers are per lane: lane 30 keeps its own (R12). -/
theorem test_lanes : after (.iadd (encM 4 1 2 0 0)) (mset (lane31 3 4 0) (vKey 30 4) 9) (vKey 30 4) = some 0 := by decide +kernel
/-- The chapter "Uniform Compute and Control": LOOPN counts down and branches back. -/
def pcAfter (i : Instr) (rs : SMap Word) : Option Word :=
  match exec i (withRegs (atI i) rs) with
  | .next t => (getGroup t 0).splits[0]?.map (·.pc)
  | _ => none
theorem test_loopn : pcAfter (.loopn ⟨ctlU 1, 0, 0, 3, ⟨0, false, false, false, 0, 8⟩, 0⟩) [(sKey 8, 2)] = some 12
    ∧ pcAfter (.loopn ⟨ctlU 1, 0, 0, 3, ⟨0, false, false, false, 0, 8⟩, 0⟩) [(sKey 8, 1)] = some 12 := by decide +kernel
theorem test_nop : pcAfter (.nop enc0) [] = some 8 := by decide +kernel

/-! Operations against the spec's examples. -/

/-- R45's example: 1.3125 into E4M3 under RNE, RUP; 500 without and with SAT, and under RZ. -/
theorem test_cvt_e4m3 : (cvtReal ⟨0, false, false, none⟩ none 0 4 0x3FA80000 0).1 = 0x3A
    ∧ (cvtReal ⟨2, false, false, none⟩ none 0 4 0x3FA80000 0).1 = 0x3B ∧ (cvtReal ⟨0, false, false, none⟩ none 0 4 0x43FA0000 0).1 = 0x7F
    ∧ (cvtReal ⟨0, true, false, none⟩ none 0 4 0x43FA0000 0).1 = 0x7E
    ∧ (cvtReal ⟨1, false, false, none⟩ none 0 4 0x43FA0000 0).1 = 0x7E := by decide +kernel
/-- R52's example: table 1 with slope 2^3 on −0.5 ≤ x < 0.5. -/
def table1 : CTab := ⟨[⟨-1, -1⟩, ⟨1, -1⟩], [0, 3, 0]⟩
theorem test_compand : (roundTo ⟨0, false, false, some table1⟩ 4 (fval 0 0x3F400000) 0).1 = 0x48
    ∧ (roundTo ⟨0, false, false, none⟩ 0 (table1.inv (fval 4 0x48)) 0).1 = 0x3F000000 := by
  decide +kernel
/-- R37's example: a block of MXE2M1 written as FP32. -/
def mxPage : Leaf := ⟨0, 0, false, 3, 3, 1, 0, false, true, true, true, true, true, 3, 0, false⟩
def mxWrite : List (Nat × Byte) :=
  (encodeWrite (fun _ => 0) mxPage 0 ([0x41400000, 0xC0400000, 0x3F333333].flatMap (leBytes 4) ++ List.replicate 116 0)).1
theorem test_mx_block : mget mxWrite 512 0 = 0x80 ∧ mget mxWrite 0 0 = 0xB7 ∧ mget mxWrite 1 0 = 0x01 ∧ mget mxWrite 2 0 = 0 := by
  decide +kernel
/-- R70's example: element 5,411 of an MXE2M1 page. -/
theorem test_mx_place : mxLoc mxPage 5411 = (3241, 2864, 3) := by decide +kernel
/-- R55's examples: 2^30, 1, −2^30 as BF16 sums exactly; as an FP32 chain it gives +0, and in another order 1.0. -/
def mmaIn (fmt : Word) (as_ : List Nat) (one : Nat) : MmaIn :=
  ⟨⟨0, false, false, none⟩, fmt, none, false, false, as_, fun _ _ => one, fun _ _ => 0⟩
theorem test_mma_exact : (mmaColumn (mmaIn 0x33 [0x4E80, 0x3F80, 0xCE80] 0x3F80) 0 0 0).1 = 0x3F800000 := by decide +kernel
theorem test_mma_chain : (mmaColumn (mmaIn 0 [0x4E800000, 0x3F800000, 0xCE800000] 0x3F800000) 0 0 0).1 = 0
    ∧ (mmaColumn (mmaIn 0 [0x4E800000, 0xCE800000, 0x3F800000] 0x3F800000) 0 0 0).1 = 0x3F800000 := by decide +kernel
/-- R132's example: the counts of items 2, 0, 2, null, 2 in three bins. -/
theorem test_bin : binCounts 3 [2, 0, 2, 0xFFFFFFFF, 2] = some [1, 0, 3] := by decide +kernel
/-- R82, by hand: list order is by neighbour, then by serial. -/
theorem test_list_order : (entInsert [(1, 4, 0), (3, 0, 0)] (1, 5, 9)).map (·.2.1) = [4, 5, 0] := by decide +kernel

end Sys2Proof.Tests
end

