-- ==== Sys2Proof/Tests/Witness1.lean ====
section
/-!
SUPPORT. For the statements about lane and uniform instructions: states and operands that meet their hypotheses.
-/

namespace Sys2Proof.Tests

open Machine

set_option Elab.async false

theorem witness_IntegersAndBits : ∀ i ∈ ([.iadd enc0, .isub enc0, .imul enc0, .imulh enc0, .imad enc0, .imin enc0, .imax enc0,
      .iabs enc0, .iadd64 enc0, .imadw enc0, .lea enc0, .idp4 enc0, .shl enc0, .shr enc0, .sar enc0, .fshf enc0, .ltab enc0,
      .popc enc0, .clz enc0, .brev enc0, .bfe enc0, .bfi enc0, .bpick enc0] : List Instr),
    ∃ f e a, formOf i = some (f, e) ∧ Clear f e (atI i) a := clear_all (by decide +kernel)

theorem witness_PredicatesMovesAndSpecials : ∀ i ∈ ([.icmp (encM 1 0 20 0 0x62), .ptab enc0, .sel enc0, .mov enc0, .rdsp enc0,
      .wrsp (encM 0 9 0 0 0)] : List Instr),
    ∃ f e a, formOf i = some (f, e) ∧ Clear f e (atI i) a := clear_all (by decide +kernel)

theorem witness_FloatArithmetic : ∀ i ∈ ([.fadd enc0, .fmul enc0, .ffma enc0, .fscale enc0, .frnd enc0] : List Instr),
    ∃ f e a, formOf i = some (f, e) ∧ Clear f e (atI i) a := clear_all (by decide +kernel)

theorem witness_FloatCompare : ∀ i ∈ ([.fmin enc0, .fmax enc0, .fcmp enc0, .fclass enc0] : List Instr),
    ∃ f e a, formOf i = some (f, e) ∧ Clear f e (atI i) a := clear_all (by decide +kernel)

theorem witness_Conversions : ∀ i ∈ ([.cvt enc0, .pkn (encM 0 0 0 0 2), .upkn (encM 0 0 0 0 2), .cfma enc0, .cmul enc0,
      .fdp2 enc0] : List Instr),
    ∃ f e a, formOf i = some (f, e) ∧ Clear f e (atI i) a := clear_all (by decide +kernel)

theorem witness_Generators : ∀ i ∈ ([.rand enc0, .prune enc0] : List Instr),
    ∃ f e a, formOf i = some (f, e) ∧ Clear f e (atI i) a := clear_all (by decide +kernel)

theorem witness_UniformArithmetic : ∀ i ∈ ([.sadd enc0, .ssub enc0, .smul enc0, .smad enc0, .smin enc0, .smax enc0, .sshl enc0,
      .sshr enc0, .ssar enc0, .sltab enc0, .smov enc0, .scmp (encM 0 0 0 0 32), .ssel enc0, .sadd64 enc0, .smadw enc0, .sbfe enc0,
      .spopc enc0, .sclz enc0, .qtab enc0, .sffma enc0, .scvt enc0] : List Instr),
    ∃ f e a, formOf i = some (f, e) ∧ Clear f e (atI i) a := clear_all (by decide +kernel)

theorem witness_OchreArithmetic : ∀ i ∈ ([.frcp enc0, .frsq enc0, .fsqrt enc0, .fdiv enc0, .fexp2 enc0, .flog2 enc0] : List Instr),
    ∃ f e a, formOf i = some (f, e) ∧ Clear f e (atI i) a := clear_all (by decide +kernel)

theorem witness_GroupCooperation : ∀ i ∈ ([.xlane enc0, .poll enc0, .redux enc0, .scan enc0, .matchB enc0, .topk enc0] : List Instr),
    ∃ f e a, formOf i = some (f, e) ∧ Clear f e (atI i) a := clear_all (by decide +kernel)

end Sys2Proof.Tests
end

