-- ==== Sys2Proof/Tests/Witness2.lean ====
section
/-!
SUPPORT. For the statements about memory, tensors, matrices and streams: states and operands that meet their hypotheses.
-/

namespace Sys2Proof.Tests

open Machine

set_option Elab.async false

/-- What a memory instruction captures at issue. -/
def captured (f : Form) (e : Enc) (s : State) (wide : Bool) (nb nc : Nat) : Capture :=
  memCapture (book s (issuer s) e) (issOf f e s (issuer s)) wide nb nc

/-- The party of the issuing instruction. -/
abbrev party (f : Form) (e : Enc) (s : State) : Acc := partyOf f e s (issuer s)

/-- The leaf of the mapped page: RAW, read and written, WT. -/
def leaf0 : Leaf := ⟨0, 0, false, 0, 0, 1, 0, false, true, true, true, true, true, 0, 0, false⟩

/-- Bytes placed in device memory. -/
def withMem (s : State) (a : Nat) (bs : List Byte) : State := { s with mem := writeBytes s.mem a bs }

/-- Full bits set for the whole of scratchpad. -/
def allFull (s : State) : State := modTeam s 0 fun t => { t with full := (rangeFrom 0 256).map fun k => (k, true) }

/-- The next pages, with the entries given. -/
def withPages (s : State) (es : List Nat) : State := withMem s 0x1C008 (es.flatMap (leBytes 8))

/-- A table entry of a page: a frame, with the flags given over V and L. -/
def pageAt (frame flags : Nat) : Nat := frame + flags + 3 + 2 ^ 54

/-! Scratchpad. -/

def eLds : Enc := encM 4 0 0 0 4
def sLds : State := withRegs (atI (.lds eLds)) (allLanes 0 4092)
theorem witness_ScratchLoads_lds : Clear formLds eLds sLds (issuer sLds) ∧ eLds.M 12 11 = 0
    ∧ InScratch (issuer sLds) (captured formLds eLds sLds false 0 0) (szBytes (eLds.M 10 8)) :=
  ⟨clear (by decide +kernel), by decide +kernel⟩

def sSlds : State := withRegs (atI (.slds eLds)) [(sKey 0, 4092)]
theorem witness_ScratchLoads_slds : Clear formSlds eLds sSlds (issuer sSlds)
    ∧ InScratch (issuer sSlds) (captured formSlds eLds sSlds false 0 0) (szBytes (eLds.M 10 8)) :=
  ⟨clear (by decide +kernel), by decide +kernel⟩

def eSts : Enc := encM 0 0 1 0 4
def sSts : State := withRegs (atI (.sts eSts)) (allLanes 0 4092)
theorem witness_ScratchStores_sts : Clear formSts eSts sSts (issuer sSts)
    ∧ InScratch (issuer sSts) (captured formSts eSts sSts false 1 0) (szBytes (eSts.M 10 8))
    ∧ parkedOf (book sSts (issuer sSts) eSts) 0 = [] :=
  ⟨clear (by decide +kernel), by decide +kernel⟩

def sSsts : State := withRegs (atI (.ssts eSts)) [(sKey 0, 4092)]
theorem witness_ScratchStores_ssts : Clear formSsts eSts sSsts (issuer sSsts)
    ∧ InScratch (issuer sSsts) (captured formSsts eSts sSsts false 1 0) (szBytes (eSts.M 10 8)) :=
  ⟨clear (by decide +kernel), by decide +kernel⟩

def eAtoms : Enc := encM 4 0 1 0 0
def sAtoms : State := withRegs (atI (.atoms eAtoms)) (allLanes 0 4092)
theorem witness_ScratchAtomics : Clear formAtoms eAtoms sAtoms (issuer sAtoms)
    ∧ InScratch (issuer sAtoms) (captured formAtoms eAtoms sAtoms false 1 1) (atBytes (eAtoms.M 14 12)) :=
  ⟨clear (by decide +kernel), by decide +kernel⟩

theorem witness_AtomicFunctions : (0 < 8 ∧ 2 ^ 32 - 1 < 2 ^ 32) ∧ (2 < 8 ∧ 2 ^ 64 - 1 < 2 ^ 64) ∧ (4 < 8 ∧ 10 ≤ 12)
    ∧ (5 < 8 ∧ 11 ≤ 12) ∧ (7 < 8 ∧ 12 ≤ 12) := by decide

/-- LDS under the wait `.full` (8) or `.take` (16). -/
def eWait (w : Nat) : Enc := encM 4 0 0 0 (4 + w)
def sFull : State := allFull (withRegs (atI (.lds (eWait 16))) (allLanes 0 4092))
def sEmpty : State := withRegs (atI (.lds (eWait 8))) (allLanes 0 4092)
theorem witness_ScratchWaits_full : Clear formLds (eWait 16) sFull (issuer sFull) ∧ (eWait 16).M 12 11 ≠ 0
    ∧ (issuer sFull).sp.park = .none
    ∧ InScratch (issuer sFull) (captured formLds (eWait 16) sFull false 0 0) 4
    ∧ (captured formLds (eWait 16) sFull false 0 0).lanes ≠ []
    ∧ ∀ g ∈ (captured formLds (eWait 16) sFull false 0 0).lanes.flatMap fun l =>
        granules (mget (captured formLds (eWait 16) sFull false 0 0).addr l 0) 4, isFull (issuer sFull).tm g = true :=
  ⟨clear (by decide +kernel), by decide +kernel⟩
theorem witness_ScratchWaits_empty : Clear formLds (eWait 8) sEmpty (issuer sEmpty) ∧ (eWait 8).M 12 11 ≠ 0
    ∧ InScratch (issuer sEmpty) (captured formLds (eWait 8) sEmpty false 0 0) 4
    ∧ ∃ g ∈ (captured formLds (eWait 8) sEmpty false 0 0).lanes.flatMap fun l =>
        granules (mget (captured formLds (eWait 8) sEmpty false 0 0).addr l 0) 4, isFull (issuer sEmpty).tm g = false :=
  ⟨clear (by decide +kernel), by decide +kernel⟩

/-! Loads, stores and atomics, at the last word of a page. -/

def sLd : State := withRegs (atI (.ld eLds)) (allLanes 0 65532)
theorem witness_Loads_ld : Clear formLd eLds sLd (issuer sLd) ∧ Calm sLd
    ∧ Reaches sLd (party formLd eLds sLd) .read anyPage (captured formLd eLds sLd true 0 0) 4 (fun _ => leaf0)
    ∧ reqOf (eLds.M 13 11) leaf0 ≠ 3 ∧ eLds.M 15 14 ≠ 1 :=
  ⟨clear (by decide +kernel), by decide +kernel⟩

def sSld : State := withRegs (atI (.sld eLds)) [(sKey 0, 65532)]
theorem witness_Loads_sld : Clear formSld eLds sSld (issuer sSld) ∧ Calm sSld
    ∧ Reaches sSld (party formSld eLds sSld) .read anyPage (captured formSld eLds sSld true 0 0) 4 (fun _ => leaf0)
    ∧ reqOf (eLds.M 13 11) leaf0 ≠ 3 ∧ eLds.M 15 14 ≠ 1 :=
  ⟨clear (by decide +kernel), by decide +kernel⟩

def eSt : Enc := encM 0 0 2 0 4
def sSt : State := withRegs (atI (.st eSt)) (allLanes 0 65532)
theorem witness_Stores_st : Clear formSt eSt sSt (issuer sSt) ∧ Calm sSt ∧ (issuer sSt).task.card.ver = false
    ∧ Reaches sSt (party formSt eSt sSt) .write anyPage (captured formSt eSt sSt true 1 0) 4 (fun _ => leaf0)
    ∧ leaf0.sf = 0 ∧ leaf0.key = 0 ∧ reqOf (eSt.M 13 11) leaf0 ≠ 1 :=
  ⟨clear (by decide +kernel), by decide +kernel⟩

def sSst : State := withRegs (atI (.sst eSt)) [(sKey 0, 65532)]
theorem witness_Stores_sst : Clear formSst eSt sSst (issuer sSst) ∧ Calm sSst ∧ (issuer sSst).task.card.ver = false
    ∧ Reaches sSst (party formSst eSt sSst) .write anyPage (captured formSst eSt sSst true 1 0) 4 (fun _ => leaf0)
    ∧ leaf0.sf = 0 ∧ leaf0.key = 0 ∧ reqOf (eSt.M 13 11) leaf0 ≠ 1 :=
  ⟨clear (by decide +kernel), by decide +kernel⟩

def eAtom : Enc := encM 4 0 2 0 0
def sAtom : State := withRegs (atI (.atom eAtom)) (allLanes 0 65532)
theorem witness_Atomics_atom : Clear formAtom eAtom sAtom (issuer sAtom) ∧ Calm sAtom ∧ (issuer sAtom).task.card.ver = false
    ∧ Reaches sAtom (party formAtom eAtom sAtom) .atomic (atomPage (eAtom.M 11 8) (eAtom.M 14 12))
      (captured formAtom eAtom sAtom true 1 1) 4 (fun _ => leaf0)
    ∧ leaf0.sf = 0 ∧ leaf0.key = 0 ∧ eAtom.M 15 15 ≠ 1 :=
  ⟨clear (by decide +kernel), by decide +kernel⟩

def sSatom : State := withRegs (atI (.satom eAtom)) [(sKey 0, 65532)]
theorem witness_Atomics_satom : Clear formSatom eAtom sSatom (issuer sSatom) ∧ Calm sSatom
    ∧ (issuer sSatom).task.card.ver = false
    ∧ Reaches sSatom (party formSatom eAtom sSatom) .atomic (atomPage (eAtom.M 11 8) (eAtom.M 14 12))
      (captured formSatom eAtom sSatom true 1 1) 4 (fun _ => leaf0)
    ∧ leaf0.sf = 0 ∧ leaf0.key = 0 ∧ eAtom.M 15 15 ≠ 1 :=
  ⟨clear (by decide +kernel), by decide +kernel⟩

def eRed : Enc := encM 0 0 2 0 0
def sRed : State := withRegs (atI (.red eRed)) (allLanes 0 65532)
theorem witness_Atomics_red : Clear formRed eRed sRed (issuer sRed) ∧ Calm sRed ∧ (issuer sRed).task.card.ver = false
    ∧ Reaches sRed (party formRed eRed sRed) .atomic (atomPage (eRed.M 11 8) (eRed.M 14 12))
      (captured formRed eRed sRed true 1 0) 4 (fun _ => leaf0)
    ∧ leaf0.sf = 0 ∧ leaf0.key = 0 ∧ eRed.M 15 15 ≠ 1 :=
  ⟨clear (by decide +kernel), by decide +kernel⟩

/-- Some lanes active alone. -/
def withLanes (s : State) (m : Word) : State :=
  withGroup s fun g => { g with splits := g.splits.map fun x => { x with active := m } }

/-! Pages of every kind: not resident; without W; without R; a reserved granularity; a second-stage tag that differs; a
key; a channel granule not held. -/

def pages (i : Instr) : State :=
  withMem (withPages (atI i) [pageAt 0 0x18, pageAt 0 0xC, pageAt 0 0x14, pageAt 0 0x1C + 3 * 2 ^ 52,
    pageAt 0x200000 0x1C, pageAt 0x400000 0x1C, pageAt 0x600000 0x1C])
    0x100008 ([7 + 2 ^ 53 + 0x200000, 7 + 2 ^ 56 + 0x400000, 7 + 2 ^ 33].flatMap (leBytes 8))
def sPages : State := withLanes (withRegs (pages (.ld eLds)) [(vKey 15 0, 65532), (vKey 16 0, 65536)]) 0x18000
def leafAt (s : State) (va : Nat) : Leaf :=
  match walk s 0 va with
  | .ok l => l
  | .nonres l => l
  | _ => leaf0

def outLane (l : Nat) : Bool := decide (16 ≤ l)
def laneLeaf (l : Nat) : Leaf := { leaf0 with res := decide (l < 16) }
theorem witness_Residency : Clear formLd eLds sPages (issuer sPages) ∧ Calm sPages ∧ eLds.M 15 14 = 0
    ∧ (∀ l ∈ (captured formLd eLds sPages true 0 0).lanes, reqOf (eLds.M 13 11) (laneLeaf l) ≠ 3)
    ∧ (∀ x ∈ (captured formLd eLds sPages true 0 0).addr, x.2 < 2 ^ 52 ∧ x.2 % 4 = 0 ∧ tlbHits sPages 0 0 0 x.2 = []
      ∧ leafGate sPages 0 .read (laneLeaf x.1) anyPage = none ∧ (laneLeaf x.1).domain = false
      ∧ walk sPages 0 x.2 = if outLane x.1 then .nonres (laneLeaf x.1) else .ok (laneLeaf x.1))
    ∧ ((captured formLd eLds sPages true 0 0).addr.filter fun x => outLane x.1) ≠ [] :=
  ⟨clear (by decide +kernel), by decide +kernel⟩

theorem witness_AccessChecks_order : (∀ va ∈ [2 ^ 52, 1, 0x80000, 0x10000, 0x20000, 0x30000, 0x40000, 0x50000, 0x60000, 0x70000],
      tlbHits sPages 0 0 0 va = [])
    ∧ (2 ^ 52 ≤ 2 ^ 52) ∧ (1 < 2 ^ 52 ∧ 1 % 4 ≠ 0) ∧ walk sPages 0 0x80000 = .fault 2 1 0
    ∧ (walk sPages 0 0x10000 = .nonres (leafAt sPages 0x10000) ∧ (leafAt sPages 0x10000).res = false
        ∧ pairOk (leafAt sPages 0x10000).sf (leafAt sPages 0x10000).df = true)
    ∧ (walk sPages 0 0x20000 = .ok (leafAt sPages 0x20000) ∧ (leafAt sPages 0x20000).w = false)
    ∧ (walk sPages 0 0x30000 = .ok (leafAt sPages 0x30000) ∧ (leafAt sPages 0x30000).r = false)
    ∧ (walk sPages 0 0x40000 = .ok (leafAt sPages 0x40000) ∧ (leafAt sPages 0x40000).gr = 3)
    ∧ (walk sPages 0 0x50000 = .ok (leafAt sPages 0x50000) ∧ (leafAt sPages 0x50000).sf ≠ (leafAt sPages 0x50000).tag
        ∧ (leafAt sPages 0x50000).domain = false) := by decide +kernel
theorem witness_AccessChecks_last :
    (walk { sPages with caps := 0 } 0 0x60000 = .ok (leafAt sPages 0x60000) ∧ (leafAt sPages 0x60000).key ≠ 0
      ∧ (leafAt sPages 0x60000).sf = (leafAt sPages 0x60000).tag ∧ capENCR (0 : Word) = false)
    ∧ (walk sPages 0 0x70000 = .ok (leafAt sPages 0x70000) ∧ (leafAt sPages 0x70000).key = 0
      ∧ bitOf (getPart sPages 0).hg (bitsOf (leafAt sPages 0x70000).frame 37 33) = false)
    ∧ (walk sPages 0 65532 = .ok leaf0 ∧ bitOf (getPart sPages 0).hg (bitsOf leaf0.frame 37 33) = true) := by decide +kernel

theorem witness_PageViews : (sLd.poison = [] ∧ sLd.pools = [] ∧ leaf0.domain = false ∧ reqOf 3 leaf0 = 3)
    ∧ (Calm sLd ∧ (getTask sLd 0 1).card.ver = false ∧ leaf0.sf = 0 ∧ leaf0.key = 0 ∧ leaf0.gr < 3 ∧ reqOf 1 leaf0 = 1)
    ∧ (0 < 1 ∧ { leaf0 with sf := 4, df := 3 }.sf = 4 ∧ { leaf0 with sf := 2, df := 1 }.sf ∈ [1, 2, 3, 5]) := by decide +kernel

/-! Tensors, object information and hints. The object table lies at 0x8000; handle 0 is a vector of 8 words at 0x1000. -/

def record : Nat := 1 + 2 ^ 8 + 2 ^ 9 + (0x1000 / 16) * 2 ^ 16 + 8 * 2 ^ 64
def withTable (s : State) (x : Nat) : State :=
  withMem (modPart s 0 fun q => { q with otbase := 0x8000 }) 0x8000 (leBytes 32 x)
/-- The last element in bounds in lane 30, the first outside in lane 31. -/
def indexRegs : SMap Word := [(vKey 30 4, 7), (vKey 31 4, 8)]
def eTld : Enc := encM 8 0 4 0 0
def sTld : State := withLanes (withRegs (withTable (atI (.tld eTld)) record) indexRegs) 0xC0000000
def tldCap : Capture := tensorCapture false (book sTld (issuer sTld) eTld) (issOf formTld eTld sTld (issuer sTld))
def elemAt (k : Capture) (l : Nat) : Nat × Nat := tensorAt record 1 fun j => ((mget k.data l []).getD j 0).toNat

/-- No data block that the records of TLD or TSTR give fails a check of its own. -/
def blocksPass (st : Bool) (f : Form) (e : Enc) (s : State) : Bool :=
  match curAt s with
  | none => true
  | some a =>
    match atOf (book s a e) a.gid a.k with
    | none => true
    | some b =>
      (((participants s b e).filterMap fun l => (tensorRecord s b f e l).map (tensorRegs e)).eraseDups.map (blockForm st f)).all
        fun g => (encCheck g e (encCtx s a)).isNone

theorem worse_none {e : Enc} {x : EncCtx} {f : Form} (gs : List Form) (h : gs.all (fun g => (encCheck g e x).isNone) = true) :
    gs.foldl (worseForm e x) f = f := by
  induction gs with
  | nil => rfl
  | cons g r ih =>
    simp only [List.all_cons, Bool.and_eq_true, Option.isNone_iff_eq_none] at h
    have hg : worseForm e x f g = f := by unfold worseForm; rw [h.1]; cases encCheck f e x <;> rfl
    simpa [hg] using ih h.2

theorem form_kept {st : Bool} {f : Form} {e : Enc} {s : State} (h : blocksPass st f e s = true) : tensorForm st f e s = f := by
  unfold blocksPass at h
  unfold tensorForm
  cases hc : curAt s with
  | none => rfl
  | some a =>
    rw [hc] at h
    dsimp only at h ⊢
    split
    · rfl
    · cases hb : atOf (book s a e) a.gid a.k with
      | none => rfl
      | some b => rw [hb] at h; exact worse_none _ h

theorem witness_TensorLoads : Clear formTld eTld sTld (issuer sTld) ∧ tensorForm false formTld eTld sTld = formTld ∧ Calm sTld ∧ (getPart sTld 0).otcache = []
    ∧ (∀ l ∈ tldCap.lanes, objEntry sTld 0 (mget tldCap.addr l 0) = record ∧ holdsPhys sTld 0 (objPlace sTld 0 (mget tldCap.addr l 0)) = true) ∧ shapeLegal record = true ∧ bitOf record 8 = true
    ∧ (∀ l ∈ tldCap.lanes, (elemAt tldCap l).1 ≠ 0 →
        Reaches sTld (party formTld eTld sTld) .read anyPage { tldCap with addr := [(l, (elemAt tldCap l).2)] } 4 (fun _ => leaf0))
    ∧ (elemAt tldCap 31).1 = 0 ∧ (elemAt tldCap 30) = (1, 0x101C) ∧ reqOf (eTld.M 15 13) leaf0 ≠ 3 :=
  ⟨clear (by decide +kernel), form_kept (by decide +kernel), by decide +kernel⟩

def eTstr : Enc := encM 0 0 4 8 0
def sTstr : State := withLanes (withRegs (withTable (atI (.tstr eTstr)) record) indexRegs) 0xC0000000
def tstrCap : Capture := tensorCapture true (book sTstr (issuer sTstr) eTstr) (issOf formTstr eTstr sTstr (issuer sTstr))
theorem witness_TensorStores : Clear formTstr eTstr sTstr (issuer sTstr) ∧ tensorForm true formTstr eTstr sTstr = formTstr ∧ Calm sTstr ∧ (getPart sTstr 0).otcache = []
    ∧ (issuer sTstr).task.card.ver = false
    ∧ (∀ l ∈ tstrCap.lanes, objEntry sTstr 0 (mget tstrCap.addr l 0) = record ∧ holdsPhys sTstr 0 (objPlace sTstr 0 (mget tstrCap.addr l 0)) = true) ∧ bitOf record 9 = true
    ∧ (∀ l ∈ tstrCap.lanes, (elemAt tstrCap l).1 ≠ 0 → Reaches sTstr (party formTstr eTstr sTstr) .write anyPage
        { tstrCap with addr := [(l, (elemAt tstrCap l).2)] } 4 (fun _ => leaf0))
    ∧ reqOf (eTstr.M 15 13) leaf0 ≠ 1 :=
  ⟨clear (by decide +kernel), form_kept (by decide +kernel), by decide +kernel⟩

theorem witness_ObjectInfo : Clear formOinfo enc0 (atI (.oinfo enc0)) (issuer (atI (.oinfo enc0)))
    ∧ (getPart (atI (.oinfo enc0)) (issuer (atI (.oinfo enc0))).tm.part).otcache = [] ∧ (atI (.oinfo enc0)).poison = []
    ∧ holdsPhys (atI (.oinfo enc0)) 0 (objPlace (atI (.oinfo enc0)) 0 0) = true :=
  ⟨clear (by decide +kernel), by decide +kernel⟩

theorem witness_Hints_pref : Clear formPref enc0 (atI (.pref enc0)) (issuer (atI (.pref enc0))) := clear (by decide +kernel)

def sResq : State := withLanes (withRegs (pages (.resq enc0)) [(vKey 15 0, 65532), (vKey 16 0, 65536)]) 0x18000
theorem witness_Hints_resq : Clear formResq enc0 sResq (issuer sResq)
    ∧ (∀ x ∈ (captured formResq enc0 sResq true 0 0).addr, x.2 < 2 ^ 52 ∧ tlbHits sResq 0 0 0 x.2 = []
      ∧ leafGate sResq 0 .read (laneLeaf x.1) anyPage = none ∧ (laneLeaf x.1).domain = false
      ∧ walk sResq 0 x.2 = if outLane x.1 then .nonres (laneLeaf x.1) else .ok (laneLeaf x.1))
    ∧ ((captured formResq enc0 sResq true 0 0).addr.filter fun x => outLane x.1) ≠ [] :=
  ⟨clear (by decide +kernel), by decide +kernel⟩

/-! Matrices, transforms and streams. -/

/-- MMA with A rows under `.full` (4) or without a wait. -/
def eMma (w : Nat) : Enc := encM 0 0 0 0 w true true
def participantsOf (f : Form) (e : Enc) (s : State) : List Nat := participants (book s (issuer s) e) (issOf f e s (issuer s)).a e
def lowSrc (f : Form) (e : Enc) (s : State) : LaneIn := laneIn (book s (issuer s) e) (issOf f e s (issuer s)) 0
def FitsMma (f : Form) (e : Enc) (s : State) : Bool :=
  let src := lowSrc f e s
  let a := issuer s
  a.sp.park == .none && lowLane a.sp.active == 0 && src.a % 16 == 0 && src.b % 16 == 0 && src.c % 16 == 0
  && (participantsOf f e s).all (fun l => decide (src.a + l * src.c + 96 ≤ a.tm.scrsize))
  && decide (src.b + mmaImage e a.sp.fmt ≤ a.tm.scrsize) && !(participantsOf f e s).isEmpty
def sMma : State := allFull (atI (.mma (eMma 4)))
def sMmac : State := atI (.mmac (eMma 0))
theorem witness_MatrixMultiply_mma : Clear formMma (eMma 4) sMma (issuer sMma) ∧ FitsMma formMma (eMma 4) sMma = true
    ∧ ∀ g ∈ (participantsOf formMma (eMma 4) sMma).flatMap fun l =>
        granules ((lowSrc formMma (eMma 4) sMma).a + l * (lowSrc formMma (eMma 4) sMma).c) 96, isFull (issuer sMma).tm g = true :=
  ⟨clear (by decide +kernel), by decide +kernel⟩
theorem witness_MatrixMultiply_waits : Clear formMma (eMma 4) (atI (.mma (eMma 4))) (issuer (atI (.mma (eMma 4))))
    ∧ FitsMma formMma (eMma 4) (atI (.mma (eMma 4))) = true ∧ isFull (issuer (atI (.mma (eMma 4)))).tm 0 = false
    ∧ 0 ∈ granules ((lowSrc formMma (eMma 4) (atI (.mma (eMma 4)))).a) 96 :=
  ⟨clear (by decide +kernel), by decide +kernel⟩
theorem witness_MatrixMultiply_mmac : Clear formMmac (eMma 0) sMmac (issuer sMmac) ∧ FitsMma formMmac (eMma 0) sMmac = true :=
  ⟨clear (by decide +kernel), by decide +kernel⟩

def ePlnst : Enc := encM 0 0 64 1 (95 * 2 ^ 7) true
def sPlnst : State := withRegs (atI (.plnst ePlnst)) [(sKey 1, 95)]
theorem witness_PlaneStore : Clear formPlnst { ePlnst with m := { ePlnst.m with md := 23 * 2 ^ 7 } } sPlnst (issuer sPlnst)
    ∧ (lowSrc formPlnst ePlnst sPlnst).a % 16 = 0
    ∧ (lowSrc formPlnst ePlnst sPlnst).a + planeCount 0 * planeStride 24 32 ≤ (issuer sPlnst).tm.scrsize :=
  ⟨clear (by decide +kernel), by decide +kernel⟩

/-- MDRN of 32 words a row, to scratchpad (2 ^ 8 in MOD) or to memory. -/
def eMdrn (scr : Nat) : Enc := encM 0 0 64 0 (scr * 2 ^ 8)
def rowRegs : SMap Word := (List.range 32).map fun l => (vKey l 0, BitVec.ofNat 32 (128 * l))
def sMdrn (scr : Nat) : State := withLanes (withRegs (atI (.mdrn (eMdrn scr))) rowRegs) 0x80000000
def mdrnCap (scr : Nat) : Capture :=
  (mdrnCapture (book (sMdrn scr) (issuer (sMdrn scr)) (eMdrn scr)) (issOf formMdrn (eMdrn scr) (sMdrn scr) (issuer (sMdrn scr)))).1
theorem witness_MatrixDrain_scratch : Clear formMdrn (eMdrn 1) (sMdrn 1) (issuer (sMdrn 1)) ∧ (eMdrn 1).M 16 16 = 1
    ∧ (∀ l ∈ (mdrnCap 1).lanes, mget (mdrnCap 1).addr l 0 % 4 = 0
      ∧ mget (mdrnCap 1).addr l 0 + 32 * 4 ≤ (issuer (sMdrn 1)).tm.scrsize) ∧ mget (mdrnCap 1).addr 31 0 = 4096 - 128 :=
  ⟨clear (by decide +kernel), by decide +kernel⟩
theorem witness_MatrixDrain_memory : Clear formMdrn (eMdrn 0) (sMdrn 0) (issuer (sMdrn 0)) ∧ (eMdrn 0).M 16 16 = 0
    ∧ Calm (sMdrn 0) ∧ (issuer (sMdrn 0)).task.card.ver = false
    ∧ (∀ n < 32, Reaches (sMdrn 0) (party formMdrn (eMdrn 0) (sMdrn 0)) .write anyPage
        { mdrnCap 0 with addr := (mdrnCap 0).addr.map fun x => (x.1, x.2 + n * 4) } 4 (fun _ => leaf0))
    ∧ reqOf ((eMdrn 0).M 20 18) leaf0 ≠ 1 :=
  ⟨clear (by decide +kernel), by decide +kernel⟩

theorem witness_RegisterTransforms : Clear formXf enc0 (atI (.xf enc0)) (issuer (atI (.xf enc0))) := clear (by decide +kernel)

def eDcd : Enc := encM 0 0 0 0 0 true
def sDcd : State := allFull (atI (.dcd eDcd))
theorem witness_Streams_dcd : Clear formDcd eDcd sDcd (issuer sDcd) ∧ (issuer sDcd).sp.park = .none
    ∧ (dcdRecords (issuer sDcd).tm (fun x => some (scrByte (issuer sDcd).tm x)) 0 0 0 0 1 0 0).isOk = true :=
  ⟨clear (by decide +kernel), by decide +kernel⟩

def sEnc : State := atI (.enc eDcd)
theorem witness_Streams_enc : Clear formEnc eDcd sEnc (issuer sEnc) ∧ participantsOf formEnc eDcd sEnc ≠ []
    ∧ parkedOf (book sEnc (issuer sEnc) eDcd) 0 = [] :=
  ⟨clear (by decide +kernel), by decide +kernel⟩

end Sys2Proof.Tests
end

