-- ==== Sys2Proof/Tests/Witness3.lean ====
section
/-!
SUPPORT. For the statements about tables, graphs, cursors, control flow, barriers, chains, tasks and traps: states and operands
that meet their hypotheses.
-/

namespace Sys2Proof.Tests

open Machine

set_option Elab.async false

/-- The uniform guard of the instruction about to issue is true. -/
abbrev going (f : Form) (e : Enc) (s : State) : Prop := goes f e s (issuer s)

/-- The uniform sources of the instruction about to issue. -/
def uni (f : Form) (e : Enc) (s : State) : LaneIn := uniSrc f e s (issuer s)

/-- The team changed, and the task. -/
def withTeam (s : State) (f : Team → Team) : State := modTeam s 0 f
def withTask (s : State) (f : Task → Task) : State :=
  modPart s 0 fun q => { q with window := q.window.map f }
def withSplit (s : State) (f : Split → Split) : State := withGroup s fun g => { g with splits := g.splits.map f }

/-! Slate: eight lanes on an empty table, whose every bucket has room for eight. -/

def table0 : Slate := ⟨512, [], [], 0x2000, 1⟩
theorem tableRoom0 : TableRoom table0 8 := by
  refine ⟨rfl, by decide, ?_, ?_, ?_⟩
  · intro x k v h; simp [table0] at h
  · intro x y k v w h; simp [table0] at h
  · intro j; simp [table0, mhas]
def sTab (i : Instr) : State := withLanes (withTeam (atI i) fun t => { t with slate := some table0 }) 0xFF
def TabFits (f : Form) (e : Enc) (i : Instr) (wide : Nat) : Bool :=
  isClear f e (sTab i) && (issuer (sTab i)).tm.slate == some table0
  && (tableCapture (book (sTab i) (issuer (sTab i)) e) (issOf f e (sTab i) (issuer (sTab i))) wide).lanes.length == 8
theorem witness_SlateOperations : TabFits formHins (encM 8 0 2 0 0) (.hins (encM 8 0 2 0 0)) 2 = true
    ∧ TabFits formHacc (encM 8 0 2 0 (5 * 8)) (.hacc (encM 8 0 2 0 (5 * 8))) 2 = true
    ∧ TabFits formHprobe (encM 8 0 0 0 7) (.hprobe (encM 8 0 0 0 7)) 0 = true
    ∧ TabFits formHdel (encM 0 0 0 0 7) (.hdel (encM 0 0 0 0 7)) 0 = true ∧ TableRoom table0 8 :=
  ⟨by decide +kernel, by decide +kernel, by decide +kernel, by decide +kernel, tableRoom0⟩

/-- A spill region of one unit at 0x2000. -/
def region : Nat := 3 + 0x2000 * 2 ^ 64 + 1 * 2 ^ 128
def eHinit (n : Nat) : Enc := encM 1 0 0 0 n
def sHinit (carve n : Nat) : State :=
  { withTable (atI (.hinit (eHinit n))) region with cores := [(0, { Core.reset with carve })] }
def HinitFits (carve n : Nat) : Bool :=
  let s := sHinit carve n
  isClear formHinit (eHinit n) s && decide (Calm s) && mhas s.teams 0 && !(issuer s).task.card.ver
  && decide (going formHinit (eHinit n) s) && (getPart s 0).otcache == [] && holdsPhys s 0 (objPlace s 0 0) && objEntry s 0 0 == region && spillLegal region
  && s.groups.all fun g => g.2.ops.isEmpty
theorem witness_SlateClaim : (HinitFits 0 0 = true ∧ freeUnits (sHinit 0 0) 0 0 < 2 ^ 0)
    ∧ (HinitFits 5 3 = true ∧ 2 ^ 3 ≤ freeUnits (sHinit 5 3) 0 0) := by decide +kernel
theorem witness_SlateClaim_pages : ∀ va ∈ [0x2000, 0x2000 + 63, 0x2000 + 64, 0x2000 + 79],
    va < 2 ^ 52 ∧ walk (sHinit 5 3) 0 va = .ok leaf0 ∧ tlbHits (sHinit 5 3) 0 0 0 va = []
    ∧ leafGate (sHinit 5 3) 0 .write leaf0 anyPage = none ∧ leaf0.domain = false ∧ leaf0.sf = 0 ∧ leaf0.key = 0 := by
  decide +kernel

/-! Graphs: a pool of one page at 0x10000 with four vertices, both directions; vertex 3 has the edges to 1 and 2. -/

def gRecord : Nat := 2 + 2 ^ 8 + 2 ^ 11 + 2 ^ 12 + 4 * 2 ^ 32 + 0x10000 * 2 ^ 64 + 0x10000 * 2 ^ 128
def pool0 : Pool := ⟨0, 0x10000, 0x10000, 4, true, 0, [(6, ⟨[(1, 0, 0), (2, 1, 0)], 2, 1⟩)], [], [(0, 0x200000)], false⟩
/-- A pool whose vertex area leaves no block free. -/
def gRecordFull : Nat := 2 + 2 ^ 8 + 2 ^ 11 + 2 ^ 12 + 2046 * 2 ^ 32 + 0x10000 * 2 ^ 64 + 0x10000 * 2 ^ 128
def poolFull : Pool := ⟨0, 0x10000, 0x10000, 2046, true, 0, [], [], [(0, 0x200000)], false⟩
/-- One lane, with the handle in v0, a vertex in v1 and further sources from v2 up. -/
def sGraph (i : Instr) (x : Nat) (q : Pool) (rs : SMap Word) (cs : SMap Cursor) : State :=
  { withGroup (withLanes (withTable (withMem (withPages (atI i) [pageAt 0x200000 0x1C, pageAt 0x210000 0x1C])
      0x100008 (leBytes 8 (7 + 0x200000))) x) 1) (fun g => { g with regs := rs, cursors := cs }) with pools := [q] }
def leafG (j : Nat) : Leaf :=
  { leaf0 with frame := 0x200000 + j * 2 ^ 16, guest := 0x200000 + j * 2 ^ 16 }
def GraphFits (s : State) (kind : AccKind) (x : Nat) (q : Pool) : Bool :=
  objEntry s 0 0 == x && graphLegal x && (getPart s 0).otcache == [] && holdsPhys s 0 (objPlace s 0 0) && s.poison == []
  && s.pools == [q] && poolIs 0 (gEntry x) q && q.edited == [] && q.torn == false && poolHere s 0 q && q.part == 0 && q.pbase == (gEntry x).pbase && (gEntry x).plen == 2 ^ 16
  && (List.range 2).all fun j => walk s 0 ((gEntry x).pbase + j * 2 ^ 16) == .ok (leafG j)
    && decide ((gEntry x).pbase + j * 2 ^ 16 < 2 ^ 52) && tlbHits s 0 0 0 ((gEntry x).pbase + j * 2 ^ 16) == []
    && leafGate s 0 kind (leafG j) anyPage == none
theorem graphAt {s : State} {c : Acc} {kind : AccKind} {x : Nat} {q : Pool} (h : GraphFits s kind x q = true)
    (hc : c.p = 0 ∧ c.core = 0 ∧ c.team = 0) (hm : if kind = .read then (gEntry x).rd = true else (gEntry x).mutOk = true) :
    GraphAt s c kind 0 (gEntry x) q := by
  simp only [GraphFits, Bool.and_eq_true, beq_iff_eq, List.all_eq_true, decide_eq_true_eq, List.mem_range] at h
  obtain ⟨⟨⟨⟨⟨⟨⟨⟨⟨⟨⟨⟨⟨h1, h2⟩, h3⟩, h4⟩, h5⟩, h6⟩, h7⟩, h8⟩, h9⟩, h10⟩, h11⟩, h12⟩, h13⟩, h14⟩ := h
  obtain ⟨hp, hk, ht⟩ := hc
  refine ⟨⟨⟨?_, ?_⟩, ?_, ?_, h5, hm⟩, ⟨?_, ?_⟩, ⟨h8, h9, ?_⟩, ?_⟩
  · rw [hp, h1]
  · rw [hp, h1]; exact h2
  · rw [hp]; exact h3
  · rw [hp]; exact h4
  · rw [hp, h6]; simp [h11, h12]
  · rw [hp]; exact h7
  · rw [hp]; exact h10
  · intro j hj
    rw [h13] at hj
    obtain ⟨⟨⟨p1, p2⟩, p3⟩, p4⟩ := h14 j (by omega)
    exact ⟨leafG j, p2, by rw [hp]; exact p1, by rw [hp, hk, ht]; exact p3, by rw [hp]; exact p4, rfl⟩

def eG : Enc := encM 8 0 1 2 0
def rG : SMap Word := [(vKey 0 1, 3)]
def sG (i : Instr) : State := sGraph i gRecord pool0 rG []
def graphCap (f : Form) (e : Enc) (s : State) (nb nc : Nat) : Capture :=
  graphCapture (book s (issuer s) e) (issOf f e s (issuer s)) nb nc
def GraphReady (f : Form) (e : Enc) (s : State) (kind : AccKind) (nb nc : Nat) : Bool :=
  isClear f e s && GraphFits s kind gRecord pool0 && (graphCap f e s nb nc).lanes == [0]
  && mget (graphCap f e s nb nc).addr 0 0 == 0 && capWord (graphCap f e s nb nc).data 0 0 == 3
  && (partyOf f e s (issuer s)).p == 0 && (partyOf f e s (issuer s)).core == 0 && (partyOf f e s (issuer s)).team == 0
theorem witness_GraphReads : GraphReady formGld eG (sG (.gld eG)) .read 1 1 = true
    ∧ GraphReady formGdeg { eG with m := { eG.m with c := 0 } } (sG (.gdeg { eG with m := { eG.m with c := 0 } })) .read 1 0 = true
    ∧ GraphReady formGfind eG (sG (.gfind eG)) .read 1 2 = true ∧ GraphReady formGpay eG (sG (.gpay eG)) .read 1 1 = true
    ∧ 3 < (gEntry gRecord).vlim ∧ (gEntry gRecord).dirs = true ∧ (gEntry gRecord).rd = true := by decide +kernel

theorem noHalves {s : State} (h : (s.groups.all fun x => x.2.ops.isEmpty) = true)
    (hw : (s.parts.all fun x => x.2.window.all fun t => !halfBuilt t) = true) : NoHalves s := by
  refine ⟨fun x hx o ho => ?_, fun p t ht => ?_⟩
  · have := List.all_eq_true.1 h x hx
    simp only [List.isEmpty_iff] at this
    rw [this] at ho; exact absurd ho (by simp)
  · unfold getPart mget at ht
    cases hm : mfind s.parts p with
    | none => rw [hm] at ht; simp [Partition.reset] at ht
    | some q =>
      rw [hm] at ht
      have hq : (p, q) ∈ s.parts := by
        clear ht h hw
        revert hm
        induction s.parts with
        | nil => simp
        | cons y r ih =>
          intro hm
          unfold mfind at hm
          split at hm
          · next e => simp only [Option.some.injEq] at hm; subst e; subst hm; exact List.mem_cons_self
          · exact List.mem_cons_of_mem _ (ih hm)
      have := List.all_eq_true.1 (List.all_eq_true.1 hw _ hq) t ht
      simpa using this

def eAdd : Enc := encM 8 0 1 4 0
def sAdd : State := sG (.gadd eAdd)
def sAddPoor : State := sGraph (.gadd eAdd) gRecordFull poolFull rG []
theorem witness_GraphAdds : GraphReady formGadd eAdd sAdd .atomic 1 4 = true ∧ (gEntry gRecord).mutOk = true
    ∧ capWord (graphCap formGadd eAdd sAdd 1 4).third 0 0 < (gEntry gRecord).vlim ∧ NoHalves sAdd
    ∧ (getList sAdd 0 (gEntry gRecord) (listNo 3 false)).ctr ≠ 0xFFFFFFFF ∧ 2 ≤ freeBlocks sAdd 0 (gEntry gRecord)
    ∧ (getList sAdd 0 (gEntry gRecord) (listNo 3 false)).ents.length < 2 ^ 28 :=
  ⟨by decide +kernel, by decide, by decide +kernel, noHalves (by decide +kernel) (by decide +kernel), by decide +kernel,
    by decide +kernel, by decide +kernel⟩
theorem witness_GraphAdds_poor : isClear formGadd eAdd sAddPoor = true ∧ GraphFits sAddPoor .atomic gRecordFull poolFull = true
    ∧ (gEntry gRecordFull).mutOk = true ∧ NoHalves sAddPoor ∧ freeBlocks sAddPoor 0 (gEntry gRecordFull) < 2 :=
  ⟨by decide +kernel, by decide +kernel, by decide, noHalves (by decide +kernel) (by decide +kernel), by decide +kernel⟩

def eDel : Enc := encM 8 0 1 2 0
def sDel (rank : Nat) : State := sGraph (.gdel eDel) gRecord pool0 [(vKey 0 1, 3), (vKey 0 2, BitVec.ofNat 32 rank)] []
theorem witness_GraphRemoves : (GraphReady formGdel eDel (sDel 1) .atomic 1 2 = true ∧ NoHalves (sDel 1)
      ∧ (getList (sDel 1) 0 (gEntry gRecord) (listNo 3 false)).ents[capWord (graphCap formGdel eDel (sDel 1) 1 2).third 0 0]?
        = some (2, 1, 0))
    ∧ (GraphReady formGdel eDel (sDel 2) .atomic 1 2 = true ∧ NoHalves (sDel 2)
      ∧ (getList (sDel 2) 0 (gEntry gRecord) (listNo 3 false)).ents[capWord (graphCap formGdel eDel (sDel 2) 1 2).third 0 0]? = none) :=
  ⟨⟨by decide +kernel, noHalves (by decide +kernel) (by decide +kernel), by decide +kernel⟩,
   ⟨by decide +kernel, noHalves (by decide +kernel) (by decide +kernel), by decide +kernel⟩⟩

/-! Cursors 6 and 7, the last ones, on vertex 3. -/

def cur0 : Cursor := ⟨true, false, false, false, false, false, 0, 3, 0, 0, 0, []⟩
def cursors0 : SMap Cursor := [(6, cur0), (7, cur0)]
def sCur (i : Instr) : State := sGraph i gRecord pool0 rG cursors0
def CurReady (f : Form) (e : Enc) (i : Instr) (n : Nat) : Bool :=
  let s := sCur i
  isClear f e s && (issuer s).g.ops == [] && GraphFits s .read gRecord pool0 && (graphCap f e s 0 0).lanes == [0]
  && getCur (issuer s).g 0 n == cur0
theorem witness_Cursors_copen : GraphReady formCopen (encM 7 0 1 0 0) (sG (.copen (encM 7 0 1 0 0))) .read 1 0 = true := by
  decide +kernel
theorem witness_Cursors : CurReady formCclose (encM 7 0 0 0 0) (.cclose (encM 7 0 0 0 0)) 7 = true
    ∧ CurReady formCinfo (encM 8 7 0 0 0) (.cinfo (encM 8 7 0 0 0)) 7 = true
    ∧ CurReady formCnext (encM 8 7 1 0 0) (.cnext (encM 8 7 1 0 0)) 7 = true
    ∧ CurReady formCseek (encM 7 0 1 0 0) (.cseek (encM 7 0 1 0 0)) 7 = true := by decide +kernel
theorem witness_CursorMerge : CurReady formGisect (encM 8 6 7 0 0) (.gisect (encM 8 6 7 0 0)) 6 = true
    ∧ CurReady formGisect (encM 8 6 7 0 0) (.gisect (encM 8 6 7 0 0)) 7 = true
    ∧ (((mget pool0.lists (listNo 3 false) GList.empty).ents).map entKey).Pairwise (· < ·)
    ∧ ∀ y ∈ (mget pool0.lists (listNo 3 false) GList.empty).ents, y.2.1 < 2 ^ 32 := by decide +kernel

/-! Control flow. -/

theorem witness_Branches : ∀ i ∈ ([.bra enc0, .brl enc0, .brx enc0, .rjn enc0, .call enc0, .ret enc0, .loopn (encM 0 0 0 5 0),
      .nop enc0] : List Instr),
    ∃ f e a, formOf i = some (f, e) ∧ Clear f e (atI i) a := clear_all (by decide +kernel)

/-- A branch of the lanes with p1 true: lane 0 of all. -/
def eBra : Enc := { enc0 with d := 0x10, b := 6 }
def sBra (es : SMap Entry) : State :=
  withGroup (atI (.bra eBra)) fun g => { g with regs := [(pKey 0 1, 1)], entries := es }
def fullStack : SMap Entry := (rangeFrom 0 32).map fun k => (k, ⟨1, none, 0, 0, 0, none⟩)
def branching (s : State) : Word :=
  lanesWhere (issuer s) fun l => guardHolds eBra.jg (readP (book s (issuer s) eBra) (issOf formBra eBra s (issuer s)).a l)
theorem witness_Divergence_bra : (Clear formBra eBra (sBra []) (issuer (sBra [])) ∧ going formBra eBra (sBra []) ∧ eBra.jg ≠ 0
      ∧ branching (sBra []) = 1 ∧ (issuer (sBra [])).sp.active ≠ 1 ∧ mfind (issuer (sBra [])).g.entries 31 = none)
    ∧ (Clear formBra eBra (sBra fullStack) (issuer (sBra fullStack)) ∧ going formBra eBra (sBra fullStack)
      ∧ branching (sBra fullStack) = 1 ∧ ∀ n < 32, (mfind (issuer (sBra fullStack)).g.entries n).isSome = true) :=
  ⟨⟨clear (by decide +kernel), by decide +kernel⟩, ⟨clear (by decide +kernel), by decide +kernel⟩⟩

def sOdd (i : Instr) : State := withRegs (atI i) [(sKey 0, 2)]
theorem witness_BranchTraps : (Clear formRet enc0 (sOdd (.ret enc0)) (issuer (sOdd (.ret enc0)))
      ∧ going formRet enc0 (sOdd (.ret enc0)) ∧ (uni formRet enc0 (sOdd (.ret enc0))).a % 4 ≠ 0)
    ∧ (Clear formBrx enc0 (sOdd (.brx enc0)) (issuer (sOdd (.brx enc0))) ∧ enc0.M 8 8 = 0
      ∧ (uni formBrx enc0 (sOdd (.brx enc0))).a % 4 ≠ 0) :=
  ⟨⟨clear (by decide +kernel), by decide +kernel⟩, ⟨clear (by decide +kernel), by decide +kernel⟩⟩

/-- BRX.lane with a target for each lane, 4·lane; and one whose lane 31 is odd. -/
def eBrx : Enc := encM 0 0 0 0 1
def sBrx (last : Nat) : State :=
  withRegs (atI (.brx eBrx)) ((List.range 32).map fun l => (vKey l 0, BitVec.ofNat 32 (if l = 31 then last else 4 * l)))
def targetOf (s : State) (l : Nat) : Word := BitVec.ofNat 32 (laneIn (book s (issuer s) eBrx) (issOf formBrx eBrx s (issuer s)) l).a
theorem witness_LaneBranches : (Clear formBrx eBrx (sBrx 124) (issuer (sBrx 124)) ∧ going formBrx eBrx (sBrx 124)
      ∧ eBrx.M 8 8 = 1 ∧ (∀ l < 32, (targetOf (sBrx 124) l).toNat = 4 * l)
      ∧ (((List.range 32).map fun l => (targetOf (sBrx 124) l).toNat).eraseDups).length - 1 + (issuer (sBrx 124)).g.entries.length ≤ 32)
    ∧ (Clear formBrx eBrx (sBrx 126) (issuer (sBrx 126)) ∧ (targetOf (sBrx 126) 31).toNat % 4 ≠ 0
      ∧ ∀ j < 31, (targetOf (sBrx 126) j).toNat % 4 = 0) :=
  ⟨⟨clear (by decide +kernel), by decide +kernel⟩, ⟨clear (by decide +kernel), by decide +kernel⟩⟩

/-- EXIT of the lanes with p1 true, all or lane 0 alone. -/
def eExit : Enc := encM 0 0 0 0 1
def sExit (rs : SMap Word) : State := withRegs (atI (.exit eExit)) rs
theorem witness_Exits : (Clear formExit eExit (sExit [(pKey 0 1, 1)]) (issuer (sExit [(pKey 0 1, 1)]))
      ∧ (issuer (sExit [(pKey 0 1, 1)])).g.entries = [] ∧ (issuer (sExit [(pKey 0 1, 1)])).g.handler = none
      ∧ ∀ x ∈ (issuer (sExit [(pKey 0 1, 1)])).g.splits, x.traps = [])
    ∧ (Clear formExit enc0 (atI (.exit enc0)) (issuer (atI (.exit enc0))) ∧ (issuer (atI (.exit enc0))).g.entries = []) :=
  ⟨⟨clear (by decide +kernel), by decide +kernel⟩, ⟨clear (by decide +kernel), by decide +kernel⟩⟩

/-- Two splits of one divergence, the second at the rejoin point 24. -/
def pair (waiting : Word) (k : Park) : Group :=
  { placeGroup with
    splits := [{ Split.empty with active := 1, pc := 24, park := k }, { Split.empty with active := 2, pc := 24, age := 1 }]
    entries := [(0, ⟨7, some 24, 0, 8, waiting, none⟩)], exited := 0xFFFFFFF8 }
def sPair (waiting : Word) (k : Park) : State := { atI (.nop enc0) with groups := [(0, pair waiting k)] }
theorem witness_Reconvergence :
    (mfind (sPair 4 .none).groups 0 = some (pair 4 .none)
      ∧ innermost (pair 4 .none) 2 = some (0, ⟨7, some 24, 0, 8, 4, none⟩) ∧ (2 : Word) &&& ~~~7 = 0 ∧ (4 : Word) ≠ 0)
    ∧ (innermost (pair 0 .rejoin) 2 = some (0, ⟨7, some 24, 0, 8, 0, none⟩) ∧ (1 : Word) &&& ~~~7 = 0
      ∧ (7 : Word) &&& ~~~(pair 0 .rejoin).exited ≠ 0)
    ∧ innermost (pair 0 .none) 2 = some (0, ⟨7, some 24, 0, 8, 0, none⟩) := by decide +kernel

/-! Barriers, words, fences. -/

/-- The barrier word at 0 expects `n` lanes. -/
def sBar (i : Instr) (n : Nat) : State := withTeam (atI i) fun t => { t with scr := [(0, BitVec.ofNat 8 n)] }
def BarReady (f : Form) (i : Instr) (n : Nat) : Bool :=
  let s := sBar i n
  isClear f enc0 s && decide (going f enc0 s) && (issuer s).sp.park == .none && (uni f enc0 s).a % 4 == 0
  && decide ((uni f enc0 s).a + 4 ≤ (issuer s).tm.scrsize) && scrWord (issuer s).tm (uni f enc0 s).a == n
theorem witness_Barriers : BarReady formBar (.bar enc0) 32 = true ∧ BarReady formBar (.bar enc0) 33 = true
    ∧ BarReady formBara (.bara enc0) 32 = true ∧ BarReady formBara (.bara enc0) 33 = true
    ∧ (arrived 32 32).testBit 31 = true ∧ (arrived 33 32).testBit 31 = false := by decide +kernel
theorem witness_WordWaits : BarReady formBarw (.barw enc0) 0 = true ∧ BarReady formRcw (.rcw enc0) 0 = true
    ∧ (Clear formRcw (encM 0 0 1 0 0) (withRegs (atI (.rcw (encM 0 0 1 0 0))) [(sKey 0, 4094), (sKey 1, 1)])
        (issuer (withRegs (atI (.rcw (encM 0 0 1 0 0))) [(sKey 0, 4094), (sKey 1, 1)]))) :=
  ⟨by decide +kernel, by decide +kernel, clear (by decide +kernel)⟩

/-- The grid's levels end at `col`. -/
def sGbar (k col : Nat) : State :=
  withTask (atI (.gbar (encM 0 0 0 0 k))) fun t => { t with hdr := t.hdr.map fun h => { h with col } }
theorem witness_GridBarriers : (Clear formGbar (encM 0 0 0 0 3) (sGbar 3 3) (issuer (sGbar 3 3))
      ∧ going formGbar (encM 0 0 0 0 3) (sGbar 3 3) ∧ 3 ≤ (issuer (sGbar 3 3)).task.header.col)
    ∧ (Clear formGbar (encM 0 0 0 0 3) (sGbar 3 2) (issuer (sGbar 3 2)) ∧ (issuer (sGbar 3 2)).task.header.col < 3) :=
  ⟨⟨clear (by decide +kernel), by decide +kernel⟩, ⟨clear (by decide +kernel), by decide +kernel⟩⟩
theorem witness_Fences : ∀ i ∈ ([.fence (encM 0 0 0 0 1), .fence (encM 0 0 0 0 2), .fence (encM 0 0 0 0 (3 + 4 * 5))] : List Instr),
    ∃ f e a, formOf i = some (f, e) ∧ Clear f e (atI i) a := clear_all (by decide +kernel)

/-! Chains: slot 0 is bound to a ring of 16 commands at 0x3000, with its word at 0x2000. -/

def chain0 (tail done : Nat) : Chain := ⟨some (0x3000, 4, 0x2000), 0, tail, done, done, [], [], [], []⟩
def eSeq : Enc := encM 0 0 1 0 0
def sChain (i : Instr) (c : Chain) (n : Nat) : State :=
  withRegs (withTeam (atI i) fun t => { t with chains := [(0, c)] }) [(sKey 0, BitVec.ofNat 32 n)]
theorem witness_ChainCounters_cqseq : Clear formCqseq enc0 (sChain (.cqseq enc0) (chain0 3 2) 0)
      (issuer (sChain (.cqseq enc0) (chain0 3 2) 0)) ∧ going formCqseq enc0 (sChain (.cqseq enc0) (chain0 3 2) 0)
    ∧ mfind (issuer (sChain (.cqseq enc0) (chain0 3 2) 0)).tm.chains 0 = some (chain0 3 2)
    ∧ Clear formCqseq enc0 (atI (.cqseq enc0)) (issuer (atI (.cqseq enc0)))
    ∧ mfind (issuer (atI (.cqseq enc0))).tm.chains 0 = none :=
  ⟨clear (by decide +kernel), by decide +kernel, by decide +kernel, clear (by decide +kernel), by decide +kernel⟩
theorem witness_ChainCounters_cqwait : ∀ n ∈ [2, 3],
    isClear formCqwait enc0 (sChain (.cqwait enc0) (chain0 3 2) n) = true
    ∧ going formCqwait enc0 (sChain (.cqwait enc0) (chain0 3 2) n)
    ∧ (issuer (sChain (.cqwait enc0) (chain0 3 2) n)).sp.park = .none
    ∧ (uni formCqwait enc0 (sChain (.cqwait enc0) (chain0 3 2) n)).b = n := by decide +kernel
theorem witness_ChainCounters_cqadv : ∀ n ∈ [15, 16, 17],
    isClear formCqadv enc0 (sChain (.cqadv enc0) (chain0 3 2) n) = true
    ∧ going formCqadv enc0 (sChain (.cqadv enc0) (chain0 3 2) n)
    ∧ (issuer (sChain (.cqadv enc0) (chain0 3 2) n)).g.ops = []
    ∧ (uni formCqadv enc0 (sChain (.cqadv enc0) (chain0 3 2) n)).b = n
    ∧ binPending (sChain (.cqadv enc0) (chain0 3 2) n) (umberAcc (sChain (.cqadv enc0) (chain0 3 2) n) 0 0 0) (chain0 3 2) = false
    ∧ ∀ j < 15, (slotCtl (sChain (.cqadv enc0) (chain0 3 2) n) (umberAcc (sChain (.cqadv enc0) (chain0 3 2) n) 0 0 0) (0x3000, 4, 0x2000)
        (3 + 1 + j)).isSome = true := by decide +kernel
/-- Bound to a ring whose page is not resident. -/
def sAway : State :=
  withPages (sChain (.cqadv enc0) ⟨some (0x10000, 4, 0x2000), 0, 3, 3, 3, [], [], [], []⟩ 1) [pageAt 0 0x18]
theorem witness_ChainCounters_cqadv_away : isClear formCqadv enc0 sAway = true ∧ going formCqadv enc0 sAway
    ∧ (mfind (issuer sAway).tm.chains 0).bind (·.bound) = some (0x10000, 4, 0x2000)
    ∧ slotCtl sAway (umberAcc sAway 0 0 0) (0x10000, 4, 0x2000) 4 = none := by
  decide +kernel

def chainRecord : Nat := 4 + 4 * 2 ^ 12 + 0x3000 * 2 ^ 64 + 0x2000 * 2 ^ 128
def sCqinit : State := withTable (atI (.cqinit enc0)) chainRecord
theorem witness_ChainBinding : Clear formCqinit enc0 sCqinit (issuer sCqinit) ∧ going formCqinit enc0 sCqinit ∧ Calm sCqinit
    ∧ mhas sCqinit.teams 0 = true ∧ (issuer sCqinit).task.card.ver = false ∧ (getPart sCqinit 0).otcache = []
    ∧ holdsPhys sCqinit 0 (objPlace sCqinit 0 (uni formCqinit enc0 sCqinit).a) = true
    ∧ objEntry sCqinit 0 (uni formCqinit enc0 sCqinit).a = chainRecord ∧ chainLegal chainRecord = true
    ∧ (chainOf sCqinit 0 0).done = (chainOf sCqinit 0 0).tail ∧ (issuer sCqinit).g.ops = []
    ∧ walk sCqinit 0 0x2000 = .ok leaf0 ∧ tlbHits sCqinit 0 0 0 0x2000 = [] ∧ leafGate sCqinit 0 .write leaf0 anyPage = none :=
  ⟨clear (by decide +kernel), by decide +kernel⟩

/-! Tasks. -/

def sTask (card : Nat) : State := withRegs (atI (.task enc0)) [(sKey 0, BitVec.ofNat 32 card)]
theorem witness_TasksAndChildren_task : ∀ n ∈ [0x480, 0x481],
    isClear formTask enc0 (sTask n) = true ∧ going formTask enc0 (sTask n) ∧ (uni formTask enc0 (sTask n)).a = n := by
  decide +kernel
def sJoin (kids : List Child) : State :=
  withRegs (modPart (atI (.tjoin enc0)) 0 fun q => { q with children := kids }) [(sKey 0, 5)]
theorem witness_TasksAndChildren_tjoin : ∀ kids ∈ [[], [(⟨1, 5, some 17, false⟩ : Child)], [⟨1, 5, none, false⟩]],
    isClear formTjoin enc0 (sJoin kids) = true ∧ going formTjoin enc0 (sJoin kids)
    ∧ (issuer (sJoin kids)).sp.park = .none ∧ (issuer (sJoin kids)).tm.tid = 1 ∧ (uni formTjoin enc0 (sJoin kids)).a = 5
    ∧ (getPart (sJoin kids) 0).children = kids := by decide +kernel

/-- A versioned task whose region 0 is the 64 bytes at 0x400, watched for zeros. -/
def sSettle (j : Nat) : State :=
  withRegs (withTask (atI (.tsettle (encM 1 0 0 0 0))) fun t =>
    { t with card := { t.card with ver := true, regions := [⟨0x10, 1, 2, true, 1, 0⟩] } }) [(sKey 0, BitVec.ofNat 32 j)]
theorem witness_Settling : ∀ j ∈ [0, 8], isClear formTsettle (encM 1 0 0 0 0) (sSettle j) = true
    ∧ going formTsettle (encM 1 0 0 0 0) (sSettle j) ∧ findTask (sSettle j) 0 1 = some (issuer (sSettle j)).task
    ∧ (uni formTsettle (encM 1 0 0 0 0) (sSettle j)).b = j := by decide +kernel

def sKill (n : Nat) : State :=
  withRegs (modPart (atI (.tkill enc0)) 0 fun q =>
    { q with window := q.window ++ [{ Task.empty with tid := 5, st := .released, parent := some 1 }]
             children := [⟨1, 5, none, false⟩] }) [(sKey 0, BitVec.ofNat 32 n)]
theorem witness_TaskKill : ∀ n ∈ [0, 5, 6], isClear formTkill enc0 (sKill n) = true ∧ going formTkill enc0 (sKill n)
    ∧ (uni formTkill enc0 (sKill n)).a = n := by decide +kernel
theorem witness_TaskKill_may : (findTask (sKill 0) 0 1).map (·.st) = some .released ∧ (findTask (sKill 5) 0 5).map (·.fate) = some none
    ∧ (ancestors 2 (getPart (sKill 5) 0) 5).contains 1 = true ∧ (ancestors 2 (getPart (sKill 6) 0) 6).contains 1 = false := by
  decide +kernel

/-! The group's and the core's state. -/

def sFmt (x : Nat) : State := withRegs (atI (.setfmt enc0)) [(sKey 0, BitVec.ofNat 32 x)]
theorem witness_FormatState : ∀ x ∈ [0x33, 0x17FFF, 0x18000, 2 ^ 21, 2 ^ 22], isClear formSetfmt enc0 (sFmt x) = true
    ∧ going formSetfmt enc0 (sFmt x) ∧ (uni formSetfmt enc0 (sFmt x)).b = x := by decide +kernel

/-- The split runs in handler mode. -/
def handling (s : State) : State := withSplit s fun x => { x with handler := true }
def eWrsr : Enc := encM 160 0 0 0 0
theorem witness_FormatState_wrsr : Clear formWrsr eWrsr (handling (atI (.wrsr eWrsr))) (issuer (handling (atI (.wrsr eWrsr))))
    ∧ going formWrsr eWrsr (handling (atI (.wrsr eWrsr))) := ⟨clear (by decide +kernel), by decide +kernel⟩

def eCmp : Enc := encM 0 0 0 0 3
def sCmp (m : SMap Byte) : State := withTeam (atI (.setcmp eCmp)) fun t => { t with scr := m }
theorem witness_CompandTables : ∀ m ∈ [([] : SMap Byte), [(64, 8), (79, 0xF8)], [(60, 1)], [(79, 9)]],
    isClear formSetcmp eCmp (sCmp m) = true ∧ going formSetcmp eCmp (sCmp m) ∧ (uni formSetcmp eCmp (sCmp m)).a = 0
    ∧ 80 ≤ (issuer (sCmp m)).tm.scrsize := by decide +kernel

/-- Groups 0 and 4 of one team, in one quadrant. -/
def sQuota (n r : Nat) : State :=
  let s := withTeam (atI (.rquota (encM 1 0 1 0 0))) fun t => { t with ngrp := 8, spread := 4 }
  let s := withRegs s [(sKey 0, BitVec.ofNat 32 r), (sKey 1, BitVec.ofNat 32 n)]
  { s with groups := s.groups ++ [(4, { placeGroup with w1 := 4, quota := 0 })] }
theorem witness_QuotaMoves : ∀ x ∈ [(0, 4), (32, 4), (33, 4), (1, 0), (1, 8)],
    isClear formRquota (encM 1 0 1 0 0) (sQuota x.1 x.2) = true ∧ going formRquota (encM 1 0 1 0 0) (sQuota x.1 x.2)
    ∧ (uni formRquota (encM 1 0 1 0 0) (sQuota x.1 x.2)).b = x.1 ∧ (uni formRquota (encM 1 0 1 0 0) (sQuota x.1 x.2)).a = x.2 := by
  decide +kernel

/-! Traps. -/

def SoftReady (f : Form) (e : Enc) (i : Instr) : Bool :=
  let a := issuer (atI i)
  isClear f e (atI i) && decide (going f e (atI i)) && !(getPart (atI i) 0).arm && !a.task.card.ver && a.task.header.hnd
  && !a.sp.handler && a.g.handler == none
theorem witness_SoftTraps : SoftReady formTrap (encM 0 0 0 0 31) (.trap (encM 0 0 0 0 31)) = true
    ∧ SoftReady formBkpt enc0 (.bkpt enc0) = true := by decide +kernel
/-- The same instruction inside a hold chain that goes on. -/
def held (e : Enc) : Enc := { e with ctl := { e.ctl with hold := true } }
theorem witness_SoftTraps_held : SoftReady formTrap (held (encM 0 0 0 0 31)) (.trap (held (encM 0 0 0 0 31))) = true
    ∧ SoftReady formBkpt (held enc0) (.bkpt (held enc0)) = true ∧ isClear formRet (held enc0) (sOdd (.ret (held enc0))) = true := by
  decide +kernel

/-- One split in handler mode, with hc2 = `x`. -/
def sTret (x : Nat) : State :=
  withGroup (handling (atI (.tret enc0))) fun g =>
    { g with handler := some ⟨0, none, 0xFFFFFFFF, 0, []⟩, hc := [(1, 0xFFFFFFFF), (2, BitVec.ofNat 32 x)] }
theorem witness_HandlerReturn : ∀ x ∈ [0, 2 ^ 22], isClear formTret enc0 (sTret x) = true ∧ going formTret enc0 (sTret x)
    ∧ (issuer (sTret x)).g.handler = some ⟨0, none, 0xFFFFFFFF, 0, []⟩ ∧ (issuer (sTret x)).g.splits = [(issuer (sTret x)).sp]
    ∧ (issuer (sTret x)).sp.handler = true ∧ (issuer (sTret x)).sp.traps = [] ∧ (issuer (sTret x)).g.held = []
    ∧ (issuer (sTret x)).g.res = .resident ∧ (issuer (sTret x)).g.halt = .running ∧ (issuer (sTret x)).task.st = .released
    ∧ fmtLegal (mget (issuer (sTret x)).g.hc 2 0) = decide (x = 0) ∧ (0xFFFFFFFF : Word) &&& ~~~(issuer (sTret x)).g.exited &&& ~~~(mget (issuer (sTret x)).g.hc 1 0) = 0 := by decide +kernel

def sOtset (ad : Nat) : State :=
  withRegs (withTable (handling (atI (.otset (encM 0 0 1 0 0)))) 0) [(sKey 1, BitVec.ofNat 32 ad)]
theorem witness_TableUpkeep_otset : ∀ ad ∈ [4064, 4065, 4080], isClear formOtset (encM 0 0 1 0 0) (sOtset ad) = true
    ∧ going formOtset (encM 0 0 1 0 0) (sOtset ad) ∧ Calm (sOtset ad) ∧ holdsPhys (sOtset ad) 0 (getPart (sOtset ad) 0).otbase = true ∧ (uni formOtset (encM 0 0 1 0 0) (sOtset ad)).b = ad := by
  decide +kernel
/-- The table lies in a granule that the partition does not hold. -/
def sOtsetOut : State := modPart (sOtset 4064) 0 fun q => { q with otbase := 2 ^ 37 }
theorem witness_TableUpkeep_out : isClear formOtset (encM 0 0 1 0 0) sOtsetOut = true ∧ going formOtset (encM 0 0 1 0 0) sOtsetOut
    ∧ Calm sOtsetOut ∧ holdsPhys sOtsetOut 0 (getPart sOtsetOut 0).otbase = false := by decide +kernel
def sPinv (hi : Nat) : State := withRegs (handling (atI (.pinv enc0))) [(sKey 1, BitVec.ofNat 32 hi)]
theorem witness_TableUpkeep_pinv : ∀ hi ∈ [2 ^ 20 - 1, 2 ^ 20], isClear formPinv enc0 (sPinv hi) = true
    ∧ going formPinv enc0 (sPinv hi) ∧ (uni formPinv enc0 (sPinv hi)).a = hi * 2 ^ 32 := by decide +kernel

end Sys2Proof.Tests
end

