-- ==== Sys2Proof/Tests/Witness4.lean ====
section
/-!
SUPPORT. For the statements about what the device does on its own: operations, splits, homes, the fault buffer, Umber and host
chains: states that meet their hypotheses.
-/

namespace Sys2Proof.Tests

open Machine

set_option Elab.async false

/-! Operations and splits of group 0. -/

def op0 : Op := ⟨0, 0, some 1, [(sKey 3, 7)], true, false, false, 0, 0, 0, [], .done⟩
def withOps (s : State) (os : List Op) : State := withGroup s fun g => { g with ops := os }
def sOps (os : List Op) : State := withOps (atI (.nop enc0)) os
/-- Operation 0 is there, nothing holds it, and no earlier one of Indigo or Ochre stands. -/
def OpEnds (o : Op) : Bool :=
  let s := sOps [o]
  findOp (getGroup s 0) 0 == some o && (mkeys o.writes).Nodup && !isHeld (getPart s (getTeam s (teamKey 0)).part) (.op 0 0)
  && ((getGroup s 0).ops.takeWhile fun x => x.id != 0).all fun x => !x.indigo && !x.ochre
theorem witness_OperationEnds : OpEnds op0 = true
    ∧ (OpEnds { op0 with stage := .fixed 0 } = true ∧ 0 ≤ (sOps []).cycle)
    ∧ (OpEnds { op0 with stage := .fixed 1 } = true ∧ (sOps []).cycle < 1)
    ∧ (OpEnds { op0 with stage := .faulted ⟨2, 1, 0, 0, 0⟩ } = true
      ∧ ∃ x ∈ (getGroup (sOps [{ op0 with stage := .faulted ⟨2, 1, 0, 0, 0⟩ }]) 0).splits, x.age = 0)
    ∧ findOp (getGroup (sOps [op0, { op0 with id := 1 }]) 0) 1 = some { op0 with id := 1 }
    ∧ ¬ ({ op0 with id := 1 }.indigo = false
      ∨ ∀ x ∈ (getGroup (sOps [op0, { op0 with id := 1 }]) 0).ops.takeWhile (fun x => x.id != 1), x.indigo = false) := by
  decide +kernel
def oOchre (id : Nat) : Op := { op0 with id, indigo := false, ochre := true }
theorem witness_OperationEnds_ochre : OpEnds (oOchre 0) = true
    ∧ findOp (getGroup (sOps [oOchre 0, oOchre 1]) 0) 1 = some (oOchre 1)
    ∧ ¬ ((oOchre 1).ochre = true → ∀ x ∈ (getGroup (sOps [oOchre 0, oOchre 1]) 0).ops.takeWhile (fun x => x.id != 1), x.ochre = false) := by
  decide +kernel

/-- Group 0 gives `n` granules to group 1, which holds `q`. -/
def oGive (n : Nat) : Op := { op0 with writes := [], indigo := false, flag := none, stage := .rquota 1 n 3 }
def sGive (n q : Nat) (there : Bool) : State :=
  let s := withOps (atI (.nop enc0)) [oGive n]
  if there then { s with groups := mset s.groups 1 { placeGroup with w1 := 1, quota := q } } else s
def Gives (n q : Nat) (there : Bool) : Bool :=
  let s := sGive n q there
  let g := getGroup s 0
  findOp g 0 == some (oGive n) && g.res == .resident && g.ops.all (fun x => !opReaches x (8 * (g.quota - n)))
  && (rquotas g).head?.map (·.id) == some 0
theorem witness_QuotaArrives :
    (Gives 32 0 true = true ∧ mhas (sGive 32 0 true).groups 1 = true ∧ (getGroup (sGive 32 0 true) 1).quota + 32 ≤ 32)
    ∧ (Gives 1 32 true = true ∧ ¬ (getGroup (sGive 1 32 true) 1).quota + 1 ≤ 32)
    ∧ (Gives 1 0 false = true ∧ mhas (sGive 1 0 false).groups 1 = false) := by decide +kernel

def sReady (n stop : Option Nat) (cycle : Nat) : State :=
  { withSplit (atI (.nop enc0)) (fun x => { x with readyAt := n, stop }) with cycle }
theorem witness_SplitEvents :
    ((mfind (sReady (some 1) none 65).groups 0).bind (·.splits[0]?)).map (·.readyAt) = some (some 1) ∧ 1 + 64 ≤ (sReady (some 1) none 65).cycle
    ∧ ((mfind (sReady (some 1) none 64).groups 0).bind (·.splits[0]?)).map (·.readyAt) = some (some 1)
    ∧ (sReady (some 1) none 64).cycle < 1 + 64
    ∧ ∀ n ∈ [63, 64], ((mfind (sReady none (some n) 0).groups 0).bind (·.splits[0]?)).map (fun x => (x.stop, x.chain, x.stopped))
        = some (some n, 0, false) := by decide +kernel

theorem some_getD {α : Type} {o : Option α} (d : α) (h : o.isSome = true) : o = some (o.getD d) := by
  cases o with
  | some x => rfl
  | none => exact absurd h (by simp)
def sHeldTrap : State := withGroup (atI (.nop enc0)) fun g => { g with held := [(0, ⟨5, 1, 1, 2, 3⟩, 8)] }
theorem witness_HandlerEntry : ∃ a, atOf sHeldTrap 0 0 = some a
    ∧ a.g.held.find? (fun h => h.1 == a.sp.age) = some (a.sp.age, ⟨5, 1, 1, 2, 3⟩, 8) ∧ a.g.handler = none
    ∧ a.g.res = .resident ∧ a.g.halt = .running ∧ a.task.st = .released ∧ ∀ h ∈ a.g.held, a.sp.age ≤ h.1 := by
  exact ⟨(atOf sHeldTrap 0 0).getD (issuer sHeldTrap), some_getD _ (by decide +kernel), by decide +kernel, by decide +kernel, by decide +kernel,
    by decide +kernel, by decide +kernel, by decide +kernel⟩

/-! Homes: a grain of 512 bytes at 0x4000 with one byte written; a page of FP16 read as FP32; cursors. -/

def sOwned : State := { atI (.nop enc0) with own := [(0x4000, ⟨512, 3, [(0x41FF, 0x5A, 0)]⟩)] }
theorem witness_HomeRecall : (∃ o : OwnGrain, sOwned.own = [(0x4000, o)] ∧ o.size ∈ [32, 128, 512] ∧ 0x4000 % o.size = 0
      ∧ (mkeys o.dirty).Nodup ∧ ∀ x ∈ o.dirty, 0x4000 ≤ x.1 ∧ x.1 < 0x4000 + o.size ∧ x.2.2 = 0)
    ∧ sOwned.pools = [] ∧ sOwned.mgmt.mig = none ∧ sOwned.mgmt.reqs = [] := by
  exact ⟨⟨⟨512, 3, [(0x41FF, 0x5A, 0)]⟩, by decide +kernel⟩, by decide +kernel⟩

/-- Page 1 holds FP8 elements in chunks where a program sees FP32. -/
def sConverted : State :=
  withMem (withPages (atI (.nop enc0)) [pageAt 0x200000 0x1C + 2 ^ 56 + 3 * 2 ^ 59]) 0x100008 (leBytes 8 (7 + 2 ^ 53 + 0x200000))
def leafConv : Leaf := leafAt sConverted 0x1FFFF
theorem witness_ConvertedWrite : Calm sConverted ∧ (getTask sConverted 0 0).card.ver = false
    ∧ (checkAcc sConverted (carmineAcc sConverted 0) .write 0 0x1FFFC 1 anyPage).1 = .ok leafConv ∧ leafConv.sf ≠ 0
    ∧ leafConv.domain = false ∧ leafConv.key = 0 ∧ pageOff leafConv 0x1FFFC + 4 ≤ (if leafConv.big then 2 ^ 21 else 2 ^ 16) := by
  decide +kernel

theorem witness_CursorBufferDiscard : 31 < 32 ∧ 7 < 8 := by decide

/-! Held accesses: one of an Umber command at 0x10000, with a ring of 64 records at 0x3000. -/

def held0 : HeldAcc := ⟨.umber 0 0 1, 0x10000, true, 1, 0, 1, 7, false⟩
def withHeld (s : State) (h : HeldAcc) (gen put : Nat) : State :=
  modPart s 0 fun q => { q with held := [h], fbgen := gen, fbput := put, fbbase := 0x3000 }
def sHeldAcc (gen put : Nat) : State := withHeld (atI (.nop enc0)) held0 gen put
theorem witness_FaultRecord : (getPart (sHeldAcc 7 5) 0).held[0]? = some held0 ∧ held0.recorded = false ∧ Calm (sHeldAcc 7 5)
    ∧ held0.gen ≠ (getPart (sHeldAcc 8 5) 0).fbgen
    ∧ (held0.gen = (getPart (sHeldAcc 7 64) 0).fbgen
      ∧ ((getPart (sHeldAcc 7 64) 0).fbput + 2 ^ 32 - (getPart (sHeldAcc 7 64) 0).fbget) % 2 ^ 32 = 64)
    ∧ (held0.gen = (getPart (sHeldAcc 7 63) 0).fbgen
      ∧ ¬ ((getPart (sHeldAcc 7 63) 0).fbput + 2 ^ 32 - (getPart (sHeldAcc 7 63) 0).fbget) % 2 ^ 32 = 64)
    ∧ holdsPhys (sHeldAcc 7 63) 0 (0x3000 + 32 * 63) = true := by
  decide +kernel
/-- The ring lies in a granule that the partition does not hold. -/
def sFarRing : State := modPart (sHeldAcc 7 63) 0 fun q => { q with fbbase := 2 ^ 37 }
theorem witness_FaultRecord_far : (getPart sFarRing 0).held[0]? = some held0 ∧ held0.gen = (getPart sFarRing 0).fbgen
    ∧ Calm sFarRing ∧ holdsPhys sFarRing 0 (2 ^ 37 + 32 * 63) = false := by decide +kernel
theorem witness_HeldAccessReplay : (getPart (sHeldAcc 7 5) 0).held[0]? = some held0
    ∧ held0.who ≠ .served ∧ ∀ g o, held0.who ≠ .op g o ∧ held0.who ≠ .resq g o := by
  refine ⟨by decide +kernel, by decide +kernel, ?_⟩
  intro g o
  simp [held0]
theorem witness_FbgenWrite : (7#32).toNat = (getPart (sHeldAcc 7 5) 0).fbgen ∧ (8#32).toNat ≠ (getPart (sHeldAcc 7 5) 0).fbgen := by
  decide +kernel

/-- A load of two lanes whose page is resident now. -/
def capLd : Capture := ⟨[0, 31], [(0, 65532), (31, 0)], [], [], 0, 0xFFFFFFFF, [], [], none⟩
def opLd : Op := { op0 with flag := none, writes := [], stage := .held (.ld eLds) capLd }
def heldLd : HeldAcc := ⟨.op 0 0, 65532, false, 0, 0, 1, 0, true⟩
def sReplay : State := withHeld (withOps (atI (.ld eLds)) [opLd]) heldLd 0 0
theorem witness_ReplayedLoad : (getPart sReplay 0).held[0]? = some heldLd ∧ findOp (getGroup sReplay 0) 0 = some opLd
    ∧ opLd.lost = [] ∧ Calm sReplay ∧ (accOfOp sReplay 0 opLd.loc).p = 0
    ∧ mustWait sReplay (accOfOp sReplay 0 opLd.loc) ((getGroup sReplay 0).ops.takeWhile fun x => x.id != 0) (.ld eLds) capLd = false
    ∧ eLds.M 15 14 ≠ 1 ∧ Reaches sReplay (accOfOp sReplay 0 opLd.loc) .read anyPage capLd 4 (fun _ => leaf0)
    ∧ reqOf (eLds.M 13 11) leaf0 ≠ 3 ∧ capLd.lanes = mkeys capLd.addr ∧ (mkeys capLd.addr).Nodup
    ∧ (∀ l ∈ capLd.lanes, l < 32) ∧ eLds.d.toNat + szN (eLds.M 10 8) ≤ 256 := by
  decide +kernel

/-! Umber: a command of chain 0 that is running; rows of 16 bytes from scratchpad 0 up, to 256 up, the index vector at 512. -/

/-- A command's words: CTL, row count word, rows, columns, source, destination, strides, index, and words 12 to 14. -/
def cmd (ctl rcw rows cols src dst : Nat) (sstr dstr idx psc w38 : Nat) : List Word :=
  [ctl, rcw, rows, cols, src, 0, dst, 0, sstr, dstr, idx, 0, psc, 0, w38, 0].map (BitVec.ofNat 32)
/-- A row command of an opcode, with flags of CTL. -/
def rowCmd (op flags : Nat) : List Word :=
  cmd (op * 2 ^ 28 + 3 * 2 ^ 23 + 2 ^ 13 + flags) 1024 4 4 0 256 16 16 512 0 (if op = 4 then 1 else 0)
def ringOf (r : RunCmd) : Chain :=
  { Chain.unbound with bound := some (0x2000, 4, 0x3000), tail := 1, started := 1, running := [r] }
/-- Index vector: 3, null, 0, 2. -/
def sUmberRun (r : RunCmd) : State :=
  withTeam (atI (.nop enc0)) fun t => { t with
    chains := [(0, ringOf r)], scr := (rangeFrom 512 16).zip (leBytes 4 3 ++ leBytes 4 0xFFFFFFFF ++ leBytes 4 0 ++ leBytes 4 2) }
def run0 (ws : List Word) : RunCmd := ⟨1, ws, [], [], [], []⟩
def sUmber (ws : List Word) : State := sUmberRun (run0 ws)
/-- A command whose indices have been read. -/
def run1 (ws : List Word) : RunCmd := { run0 ws with index := [(0, 4), (1, 0), (2, 1), (3, 3)] }
/-- The 16 bytes of a row's source have been read too, and some pieces of it written. -/
def run2 (ws : List Word) (row : Nat) (put : List Nat) : RunCmd :=
  { run1 ws with bufs := [(row, ⟨(rangeFrom 0 16).map fun k => (k, BitVec.ofNat 8 k), put⟩)] }
/-- The command runs, the row is to move, its next acts are as many as said, and each of them succeeds. -/
def RowFits (op row : Nat) (r : RunCmd) (n : Nat) : Bool :=
  let s := sUmberRun r
  let c := ucmd r.words
  runningCmd s 0 0 1 == some r && cmdCheck r.words == none && c.op == op && decide (row < c.total) && !mhas r.written row
  && (r.acts c row).length == n
  && ((r.acts c row).all fun act =>
    match rowActs (choose (choose s 2).2 n).2 (umberAcc s 0 0 1) c r row [act] with | .ok _ => true | .error _ => false)
  && match rowActs (choose s 2).2 (umberAcc s 0 0 1) c r row (r.bulk c row) with | .ok _ => true | .error _ => false
abbrev copyCmd : List Word := (rowCmd 1 0).set 10 0
theorem witness_UmberRows_copy : RowFits 1 3 (run0 copyCmd) 2 = true ∧ RowFits 1 3 (run2 copyCmd 3 []) 2 = true
    ∧ RowFits 1 3 (run2 copyCmd 3 [8]) 1 = true ∧ RowFits 1 3 (run2 copyCmd 3 [8, 0]) 0 = true := by decide +kernel
theorem witness_UmberRows_gather : RowFits 2 0 (run0 (rowCmd 2 0)) 1 = true ∧ RowFits 2 0 (run1 (rowCmd 2 0)) 2 = true
    ∧ RowFits 2 0 (run2 (rowCmd 2 0) 0 []) 2 = true ∧ RowFits 2 1 (run1 (rowCmd 2 0)) 2 = true := by decide +kernel
theorem witness_UmberRows_scatter : RowFits 3 0 (run0 (rowCmd 3 0)) 1 = true ∧ RowFits 3 1 (run1 (rowCmd 3 0)) 0 = true
    ∧ RowFits 3 0 (run2 (rowCmd 3 0) 0 []) 2 = true ∧ (ucmd (rowCmd 3 0)).red = 0
    ∧ RowFits 3 2 (run2 (rowCmd 3 0x4000) 2 []) 4 = true ∧ (ucmd (rowCmd 3 0x4000)).red ≠ 0 := by decide +kernel
theorem witness_UmberRows_merge : RowFits 4 0 (run0 (rowCmd 4 0x4000)) 4 = true ∧ RowFits 4 0 (run1 (rowCmd 4 0x4000)) 2 = true
    ∧ RowFits 4 0 (run2 (rowCmd 4 0x4000) 0 []) 1 = true ∧ (ucmd (rowCmd 4 0x4000)).pln = false ∧ (ucmd (rowCmd 4 0x4000)).w38 = 1
    ∧ (run1 (rowCmd 4 0x4000)).alike (ucmd (rowCmd 4 0x4000)) 0 = [0] := by decide +kernel

/-- The steps that the clauses about one act take: an index, a unit of 8 bytes, and a piece read and written back. -/
def pieceOk (ws : List Word) (row n : Nat) : Bool :=
  let s := sUmber ws
  let u := umberAcc s 0 0 1
  let c := ucmd ws
  let at_ : Int := umAddr ((run1 ws).dest c row)
  match umRead s u c.dsp at_ n with
  | .ok x => x.1.length == n && (match umWrite x.2 u c.dsp c.rel at_ x.1 with | .ok _ => true | .error _ => false)
  | .error _ => false
def indexOf (ws : List Word) (row : Nat) : Option (Option Nat) :=
  (umIndex (sUmber ws) (umberAcc (sUmber ws) 0 0 1) (ucmd ws) row).toOption.map (·.1)
theorem witness_UmberRows_acts : indexOf (rowCmd 2 0) 0 = some (some 3) ∧ indexOf (rowCmd 2 0) 1 = some none
    ∧ (umRead (sUmber copyCmd) (umberAcc (sUmber copyCmd) 0 0 1) true 48 8).toOption.map (·.1.length) = some 8
    ∧ pieceOk copyCmd 3 8 = true ∧ pieceOk (rowCmd 3 0) 0 8 = true ∧ pieceOk (rowCmd 3 0x4000) 2 4 = true
    ∧ pieceOk (rowCmd 4 0x4000) 0 16 = true
    ∧ (run2 copyCmd 3 [8, 0]).unread (ucmd copyCmd) 3 = [] ∧ (run2 copyCmd 3 [8, 0]).left (ucmd copyCmd) 3 = []
    ∧ (run2 (rowCmd 4 0x4000) 0 [0]).left (ucmd (rowCmd 4 0x4000)) 0 = [] := by decide +kernel

theorem witness_UmberPlaces : 4092 + 4 ≤ (getTeam (sUmber []) 0).scrsize ∧ mhas (sUmber []).teams 0 = true
    ∧ (let c := ucmd (rowCmd 1 0); c.op = 1 ∧ c.pln = false ∧ c.trn = false)
    ∧ (let c := ucmd (rowCmd 1 (2 ^ 22)); c.op = 1 ∧ c.pln = false ∧ c.trn = true)
    ∧ (ucmd (rowCmd 2 0)).op = 2 ∧ (run1 (rowCmd 2 0)).entry (ucmd (rowCmd 2 0)) 0 = some 3
    ∧ (ucmd (rowCmd 3 0)).op = 3 ∧ (run1 (rowCmd 3 0)).entry (ucmd (rowCmd 3 0)) 3 = some 2
    ∧ (run1 (rowCmd 3 0)).entry (ucmd (rowCmd 3 0)) 1 = none
    ∧ ((ucmd (rowCmd 2 2048)).idn = true ∧ (ucmd (rowCmd 2 0)).idn = false ∧ (ucmd (rowCmd 2 0)).isp = true
      ∧ (ucmd (rowCmd 2 0)).idx % 2 ^ 32 + 3 * 4 + 4 ≤ (getTeam (sUmber []) 0).scrsize ∧ (ucmd (rowCmd 2 4096)).i64 = true)
    ∧ (ucmd (rowCmd 2 (2 ^ 21))).conj = true ∧ mfind ((run2 (rowCmd 2 (2 ^ 21)) 0 []).buf 0).got (8 + 7) = some 15
    ∧ (∀ j < 8, mhas ((run1 (rowCmd 2 0)).buf 1).got (0 + j) = false) ∧ cutRun 0 2041 8 ≠ [] := by decide +kernel

/-! Chains: the first command of a ring of 16 at 0x2000, its completion word at 0x3000. -/

/-- Its units but those of `left` have been read. -/
def sStart (ws : List Word) (left : List Nat) : State :=
  let got := ((List.range 8).filter fun k => !left.contains k).map fun k => (k, leNat ((ws.drop (2 * k)).take 2 |>.flatMap bytesOfWord))
  withMem (withTeam (atI (.nop enc0)) fun t => { t with
    chains := [(0, { Chain.unbound with bound := some (0x2000, 4, 0x3000), tail := 1, got })] }) 0x2000 (ws.flatMap bytesOfWord)
/-- Umber may start the command; what it has left to read can be read, and what it has then are the command's words. -/
def Starts (ws : List Word) (left : List Nat) : Bool :=
  let s := sStart ws left
  let c := chainOf s 0 0
  canStart s 0 0 && mhas s.teams 0 && slotUnits c == left
  && left.all fun k =>
    let r := rangeRead (if left.length = 1 then s else (choose s left.length).2) (umberAcc s 0 0 1) 1 (0x2000 + 8 * k) 8 4
    r.2.teams == s.teams && (match r.1 with
      | .ok bs => decide ((mset c.got k (leNat bs)).length < 8) == decide (1 < left.length)
          && (left.length != 1 || (List.range 8).flatMap (fun j => natWords 2 (mget (mset c.got k (leNat bs)) j 0)) == ws)
      | .error _ => false)
theorem witness_CommandStart :
    Starts (rowCmd 2 0) (List.range 8) = true ∧ Starts (rowCmd 2 0) [0, 7] = true
    ∧ (Starts (rowCmd 2 0) [7] = true ∧ cmdCheck (rowCmd 2 0) = none ∧ ¬ ((ucmd (rowCmd 2 0)).op ≤ 5 ∧ (ucmd (rowCmd 2 0)).rows = 0))
    ∧ (Starts ((rowCmd 2 0).set 2 0) [0] = true ∧ cmdCheck ((rowCmd 2 0).set 2 0) = none ∧ (ucmd ((rowCmd 2 0).set 2 0)).op ≤ 5
      ∧ (ucmd ((rowCmd 2 0).set 2 0)).rows = 0 ∧ (chainOf (sStart ((rowCmd 2 0).set 2 0) [0]) 0 0).running = [])
    ∧ (Starts ((rowCmd 2 0).set 3 0) [3] = true ∧ cmdCheck ((rowCmd 2 0).set 3 0) = some 12) := by decide +kernel

/-- A BIN of two items, one of them null, into one bin, with or without a place for its counts, and the copy behind it. -/
def binCmd (dst : Nat) : List Word := cmd (5 * 2 ^ 28 + 2 ^ 13) 0 2 1 0 dst 0 0 516 0 0
def sBin (dst : Nat) : State := withMem (sUmber (binCmd dst)) 0x2040 ((rowCmd 1 0).flatMap bytesOfWord)
/-- Once the target has been read, and once it is patched, with the 1 of its count among its bytes. -/
def sSeen (dst : Nat) : State := { sBin dst with tlb := [⟨.die 0, 0, 0, 0, 0, leaf0⟩] }
def patched (dst : Nat) : Except Perf State := binPatch (sSeen dst) (umberAcc (sBin dst) 0 0 1) (0x2000, 4, 0x3000) 1 2 [1]
def counted : Except Perf State := do umWrite (← patched 0x1000) (umberAcc (sBin 0x1000) 0 0 1) false 1 0x1000 (elemBytes 4 [1])
theorem witness_UmberBin : ∀ dst ∈ [0, 0x1000],
    (runningCmd (sBin dst) 0 0 1 = some (run0 (binCmd dst)) ∧ (chainOf (sBin dst) 0 0).bound = some (0x2000, 4, 0x3000)
      ∧ (chainOf (sBin dst) 0 0).tail = 1 ∧ (chainOf (sBin dst) 0 0).done = 0)
    ∧ ((ucmd (binCmd dst)).op = 5 ∧ (ucmd (binCmd dst)).cols = 1 ∧ (ucmd (binCmd dst)).rows = 2 ∧ (ucmd (binCmd dst)).isp = true
      ∧ (ucmd (binCmd dst)).idx = 516 ∧ (ucmd (binCmd dst)).rel = 1 ∧ (ucmd (binCmd dst)).dst = dst ∧ (ucmd (binCmd dst)).dsp = false)
    ∧ (umRead (sBin dst) (umberAcc (sBin dst) 0 0 1) true 516 8).toOption.map (fun x => (rowElems 4 x.1, decide (x.2 = sBin dst)))
      = some ([0xFFFFFFFF, 0], true) := by decide +kernel
theorem witness_UmberBin_counts : [1] = (List.range 1).map fun j => [0xFFFFFFFF, 0].count j := by decide
theorem witness_UmberBin_targets : ∀ dst ∈ [0, 0x1000],
    (binTargets (sBin dst) (umberAcc (sBin dst) 0 0 1) (0x2000, 4, 0x3000) 2 1).toOption
      = some ([0x11802000], sSeen dst) ∧ bitsOf 0x11802000 31 28 = 1 ∧ bitOf 0x11802000 20 = false := by decide +kernel
theorem witness_UmberBin_patches : ∀ dst ∈ [0, 0x1000], (patched dst).toOption.map (·.teams) = some (sBin dst).teams := by
  decide +kernel
theorem witness_UmberBin_place : counted.toOption.map (·.teams) = some (sBin 0x1000).teams := by decide +kernel

def fenceCmd (q : Nat) : List Word := cmd (6 * 2 ^ 28) 0 0 0 0 0 0 0 q 0 0
theorem witness_UmberFence : cmdCheck (fenceCmd 1) = none
    ∧ (runningCmd (sUmber (fenceCmd 1)) 0 0 1 = some (run0 (fenceCmd 1)) ∧ (ucmd (fenceCmd 1)).op = 6 ∧ (ucmd (fenceCmd 1)).idx ≠ 0
      ∧ (chainOf (sUmber (fenceCmd 1)) 0 1).bound = none)
    ∧ (runningCmd (sUmber (fenceCmd 0)) 0 0 1 = some (run0 (fenceCmd 0)) ∧ (ucmd (fenceCmd 0)).idx = 0
      ∧ ∀ x ∈ (chainOf (sUmber (fenceCmd 0)) 0 0).running, 1 ≤ x.seq) := by decide +kernel

/-- Row 3 of a copy is written; rows 0 to 2 have landed, or none. -/
def landing (landed : List Nat) : RunCmd := { run0 (rowCmd 1 0) with written := (List.range 4).map fun k => (k, k + 1), landed }
def sLanding (landed : List Nat) : State :=
  withTeam (sUmber (rowCmd 1 0)) fun t => { t with
    chains := [(0, { ringOf (run0 (rowCmd 1 0)) with running := [landing landed] })] }
theorem witness_RowLanding : ∀ landed ∈ [[], [0, 1, 2]],
    runningCmd (sLanding landed) 0 0 1 = some (landing landed)
    ∧ (ucmd (rowCmd 1 0)).op < 3 ∧ (ucmd (rowCmd 1 0)).dsp = true ∧ parkedOf (sLanding landed) 0 = []
    ∧ ((ucmd (rowCmd 1 0)).dst + 3 * (ucmd (rowCmd 1 0)).dstr : Int) = (304 : Nat)
    ∧ (ucmd (rowCmd 1 0)).rcw ≠ 0xFFFFFFFF ∧ (ucmd (rowCmd 1 0)).rcw + 4 ≤ (getTeam (sLanding landed) 0).scrsize
    ∧ 3 ∉ landed ∧ (ucmd (rowCmd 1 0)).total = 4 := by decide +kernel

/-- Commands 1 and 2 have completed, 3 has not. -/
def sCompleted : State :=
  withTeam (atI (.nop enc0)) fun t => { t with
    chains := [(0, { Chain.unbound with bound := some (0x2000, 4, 0x3000), tail := 4, started := 4, finished := [2, 4, 1] })] }
theorem witness_CompletionWord : doneTo 3 (chainOf sCompleted 0 0).finished 0 = 2 ∧ (chainOf sCompleted 0 0).done = 0
    ∧ (chainOf sCompleted 0 0).bound = some (0x2000, 4, 0x3000) ∧ mhas sCompleted.teams 0 = true
    ∧ (rangeWrite sCompleted (umberAcc sCompleted 0 0 2) 1 0x3000 (leBytes 8 2) 4).1.isOk = true
    ∧ (rangeWrite sCompleted (umberAcc sCompleted 0 0 2) 1 0x3000 (leBytes 8 2) 4).2.teams = sCompleted.teams := by decide +kernel

def sAdvance (tail : Nat) : State :=
  withOps (withTeam (atI (.nop enc0)) fun t => { t with
    chains := [(0, { Chain.unbound with bound := some (0x2000, 4, 0x3000), tail })] }) [{ op0 with stage := .cqadv 0 2 }]
theorem witness_ChainAdvance : ∀ tail ∈ [14, 15],
    (getGroup (sAdvance tail) 0).ops.find? (fun x => x.id == 0) = some { op0 with stage := .cqadv 0 2 }
    ∧ cqBehind (getGroup (sAdvance tail) 0) 0 0 = false ∧ (chainOf (sAdvance tail) 0 0).bound = some (0x2000, 4, 0x3000)
    ∧ 2 ≤ 2 ^ 4 ∧ mhas (sAdvance tail).teams 0 = true
    ∧ ((binPending (sAdvance tail) (umberAcc (sAdvance tail) 0 0 0) (chainOf (sAdvance tail) 0 0) = false
        ∧ (chainOf (sAdvance tail) 0 0).tail + 2 - (chainOf (sAdvance tail) 0 0).done ≤ 16) ↔ tail = 14)
    ∧ ∀ j < 2, (slotCtl (sAdvance tail) (umberAcc (sAdvance tail) 0 0 0) (0x2000, 4, 0x3000) (tail + 1 + j)).isSome = true := by
  decide +kernel
/-- The ring of the held CQADV lies on a page that is not resident. -/
def sAdvanceAway : State :=
  withPages (withOps (withTeam (atI (.nop enc0)) fun t => { t with
    chains := [(0, { Chain.unbound with bound := some (0x10000, 4, 0x3000), tail := 14, done := 14, started := 14 })] })
      [{ op0 with stage := .cqadv 0 2 }]) [pageAt 0 0x18]
theorem witness_ChainAdvance_away : (getGroup sAdvanceAway 0).ops.find? (fun x => x.id == 0) = some { op0 with stage := .cqadv 0 2 }
    ∧ cqBehind (getGroup sAdvanceAway 0) 0 0 = false ∧ mhas sAdvanceAway.teams 0 = true
    ∧ (chainOf sAdvanceAway 0 0).bound = some (0x10000, 4, 0x3000)
    ∧ binPending sAdvanceAway (umberAcc sAdvanceAway 0 0 0) (chainOf sAdvanceAway 0 0) = false
    ∧ slotCtl sAdvanceAway (umberAcc sAdvanceAway 0 0 0) (0x10000, 4, 0x3000) 15 = none := by decide +kernel

/-! Host chains: chain 31 idle, in error, or behind a function that is not enabled. -/

def sHost (en err : Bool) : State :=
  modPart (atI (.nop enc0)) 0 fun q => { q with en, chains := [(31, { HostChain.reset with err, run := err, cur := 128 })] }
theorem witness_HostChains :
    (0 < 8 ∧ 31 < 32 ∧ (getPart (sHost true false) 0).en = true ∧ (getHc (getPart (sHost true false) 0) 31).err = false)
    ∧ ((getPart (sHost true true) 0).en = true ∧ (getHc (getPart (sHost true true) 0) 31).err = true)
    ∧ ¬ (0 < 8 ∧ 31 < 32 ∧ (getPart (sHost false false) 0).en = true) := by decide +kernel

end Sys2Proof.Tests
end

