-- ==== Sys2Proof/Tests/Witness5.lean ====
section
/-!
SUPPORT. For the statements about cards, tasks, teams, groups and bulk tasks: states that meet their hypotheses.
-/

namespace Sys2Proof.Tests

open Machine

set_option Elab.async false

/-! Cards: at 0x4000, with the region of 64-byte units 0x103 to 0x106 read; task 1 writes units 0x100 to 0x103. -/

def cardBytes (ctl desc : Nat) : List Byte :=
  leBytes 4 ctl ++ leBytes 4 0 ++ leBytes 8 desc ++ leBytes 8 0x6000 ++ leBytes 8 0x4080
  ++ leBytes 12 (0x103 + 4 * 2 ^ 46 + 2 ^ 78) ++ List.replicate 84 0
/-- One group of 32 lanes, 8 registers, 4 KiB of scratchpad, code at 0. -/
def headerBytes : List Byte :=
  leBytes 4 (8 + 6 * 2 ^ 15) ++ leBytes 4 4096 ++ leBytes 8 5 ++ (List.replicate 5 (leBytes 8 1)).flatten
  ++ leBytes 8 0 ++ leBytes 8 16 ++ leBytes 8 0x1000 ++ leBytes 8 9 ++ leBytes 8 0 ++ List.replicate 32 0
def writer : Region := ⟨0x100, 4, 2, false, 0, 0⟩
def sCard (ctl va : Nat) : State :=
  modPart (withTask (withMem (withMem (atI (.nop enc0)) 0x4000 (cardBytes ctl 0x5000)) 0x5000 headerBytes)
    fun t => { t with card := { t.card with regions := [writer] } }) 0 fun q =>
      { q with chains := [(2, { HostChain.reset with head := va, run := true, upto := some 0x4000 })] }
/-- The card is read and legal, and so is its header. -/
def cardFits (s : State) : Bool :=
  match rangeRead s (carmineAcc s 0) 4 0x4000 128 4 with
  | (.ok bs, s1) => cardBad bs == none && (cardOf bs).regions.getD 0 writer == ⟨0x103, 4, 1, false, 0, 0⟩
    && (if (cardOf bs).kind = 1 then
          (match readHeader s1 0 (cardOf bs).desc with
           | (.ok _, s2) => s2.parts == s.parts && s2.groups == s.groups && s2.teams == s.teams
           | _ => false)
        else s1.parts == s.parts && s1.groups == s.groups && s1.teams == s.teams)
  | _ => false
def faulty (s : State) : Option Nat :=
  match rangeRead s (carmineAcc s 0) 4 0x4000 128 4 with
  | (.ok bs, s1) => if s1.parts = s.parts then cardBad bs else none
  | _ => none
def Accepts (s : State) (va : Nat) : Bool :=
  let c := getHc (getPart s 0) 2
  windowOpen (getPart s 0) && c.upto == some 0x4000 && c.past == []
  && (match nextCard s 0 c with | (.ok x, s0) => x == va && s0.parts == s.parts && s0.groups == s.groups | _ => false)
theorem witness_CardAcceptance_bulk : Accepts (sCard 2 0x4000) 0x4000 = true ∧ 0x4000 % 128 = 0 ∧ cardFits (sCard 2 0x4000) = true := by
  decide +kernel
theorem witness_CardAcceptance_grid : Accepts (sCard 1 0x4000) 0x4000 = true ∧ cardFits (sCard 1 0x4000) = true := by
  decide +kernel
theorem witness_CardAcceptance_bad :
    (Accepts (sCard 2 0x4040) 0x4040 = true ∧ 0x4040 % 128 ≠ 0)
    ∧ (Accepts (sCard 0 0x4000) 0x4000 = true ∧ faulty (sCard 0 0x4000) = some 0
      ∧ (∀ k ∈ (getPart (sCard 0 0x4000) 0).window, k.tid ≠ (getPart (sCard 0 0x4000) 0).nextTid)
      ∧ ∀ e ∈ (getPart (sCard 0 0x4000) 0).edges, e.dst ≠ (getPart (sCard 0 0x4000) 0).nextTid) := by
  decide +kernel
/-- A TASK whose card waits. -/
def sTaskOp : State := withOps (sCard 2 0x4000) [{ op0 with writes := [], stage := .task 7 0x4000 }]
theorem witness_CardAcceptance_task : windowOpen (getPart sTaskOp 0) = true
    ∧ (getGroup sTaskOp 0).ops.find? (fun x => x.id == 0) = some { op0 with writes := [], stage := .task 7 0x4000 } ∧ op0.lost = []
    ∧ (getTeam sTaskOp (teamKey 0)).part = 0 ∧ cardFits sTaskOp = true := by decide +kernel
theorem witness_CardAcceptance_edges : 2 ≤ writer.mode ∧ (regionOf (0x103 + 4 * 2 ^ 46 + 2 ^ 78)).mode % 2 = 1
    ∧ writer.base ≤ 0x103 ∧ 0x103 < writer.base + writer.len := by decide +kernel

/-! Tasks: task 1 as a variant of the released one. -/

def withT (f : Task → Task) : State := withTask (atI (.nop enc0)) f
def taskIn (s : State) : Task := (findTask s 0 1).getD Task.empty
/-- A second task that waits, behind task 1. -/
def twoTasks (f : Task → Task) : State :=
  modPart (withT f) 0 fun q => { q with window := q.window ++ [{ Task.empty with tid := 9, order := 7 }] }
def sFiring : State := withT fun t => { t with st := .waiting, card := { t.card with nstr := true, opmask := 1 } }
theorem witness_TaskSteps_start :
    ((findTask (twoTasks fun t => { t with st := .waiting }) 0 1).isSome = true
      ∧ isReady (getPart (twoTasks fun t => { t with st := .waiting }) 0) (taskIn (twoTasks fun t => { t with st := .waiting })) = true
      ∧ ∀ u ∈ (getPart (twoTasks fun t => { t with st := .waiting }) 0).window,
        isReady (getPart (twoTasks fun t => { t with st := .waiting }) 0) u = true
        ∨ mayFire (getPart (twoTasks fun t => { t with st := .waiting }) 0) u = true →
        readyBefore u (taskIn (twoTasks fun t => { t with st := .waiting })) = false)
    ∧ isReady (getPart (withT id) 0) (taskIn (withT id)) = false ∧ mayFire (getPart (withT id) 0) (taskIn (withT id)) = false
    ∧ ((findTask sFiring 0 1).isSome = true ∧ mayFire (getPart sFiring 0) (taskIn sFiring) = true
      ∧ (∀ u ∈ (getPart sFiring 0).window, isReady (getPart sFiring 0) u = true ∨ mayFire (getPart sFiring 0) u = true →
        readyBefore u (taskIn sFiring) = false)
      ∧ ∀ u ∈ (getPart sFiring 0).window, u.card.wdr = false) := by decide +kernel
/-- Task 1 waits behind task 9, which is ready before it. -/
def sBehind : State := modPart (withT fun t => { t with st := .waiting, order := 8 }) 0 fun q =>
  { q with window := q.window ++ [{ Task.empty with tid := 9, order := 7, st := .waiting }] }
theorem witness_TaskSteps_order : isReady (getPart sBehind 0) (taskIn sBehind) = true
    ∧ ∃ u ∈ (getPart sBehind 0).window, isReady (getPart sBehind 0) u = true ∧ readyBefore u (taskIn sBehind) = true := by
  decide +kernel

/-- Task 1 is done, and task 9 depends on it. -/
def sRecord : State :=
  modPart (withT fun t => { t with st := .decided, fate := some ⟨1, ⟨0, 0, 0, 0, 0⟩⟩, card := { t.card with crec := 0x6000 } }) 0
    fun q => { q with edges := [⟨1, 9, true, 0, 0, true, false, false⟩] }
/-- The state once words 1 to 7 of the record are written. -/
def sBody : State :=
  { withMem sRecord 0x6004 [1] with tlb := [⟨.die 0, 0, 8192, 0, 0, leaf0⟩] }
theorem witness_RecordWrite :
    let w := rangeWrite sRecord (carmineAcc sRecord 0) 4 0x6004 (recordBody (taskIn sRecord) ⟨1, ⟨0, 0, 0, 0, 0⟩⟩) 4
    (findTask sRecord 0 1).isSome = true ∧ (taskIn sRecord).st = .decided ∧ (taskIn sRecord).fate = some ⟨1, ⟨0, 0, 0, 0, 0⟩⟩
    ∧ (taskIn sRecord).card.crec = 0x6000 ∧ 0x6000 % 32 = 0 ∧ w.1.isOk = true ∧ w.2 = sBody
    ∧ (getPart sRecord 0).edges.map (·.src) = [1] := by decide +kernel
theorem witness_RecordWrite_status :
    let z := rangeWrite sBody (carmineAcc sRecord 0) 4 0x6000 (leBytes 4 1) 4
    z.1.isOk = true ∧ z.2.parts = sRecord.parts := by decide +kernel

/-- A record that cannot be written. -/
def sLostRecord : State := withT fun t => { t with st := .decided, fate := some ⟨1, ⟨0, 0, 0, 0, 0⟩⟩, card := { t.card with crec := 0x6004 } }
theorem witness_RecordWrite_lost : (findTask sLostRecord 0 1).isSome = true ∧ (taskIn sLostRecord).st = .decided
    ∧ (taskIn sLostRecord).fate = some ⟨1, ⟨0, 0, 0, 0, 0⟩⟩ ∧ (taskIn sLostRecord).card.crec % 32 ≠ 0 := by decide +kernel

def sStopping (fate : Option Fate) : State :=
  { withT (fun t => { t with st := .stopping, fate, card := { t.card with ver := true, idem := true } }) with groups := [] }
theorem witness_TaskLevelStop : ∀ f ∈ [none, some ⟨3, ⟨9, 4, 0, 0, 0⟩⟩],
    (findTask (sStopping f) 0 1).isSome = true ∧ (taskIn (sStopping f)).st = .stopping ∧ taskAtRest (sStopping f) 0 1 = true
    ∧ (taskIn (sStopping f)).fate = f ∧ (sStopping f).teams.length = 1 ∧ mayRestart (taskIn (sStopping f)) = true := by decide +kernel
/-- A task that has written directly, once a strike stopped it. -/
def sTainted : State := withTask (sStopping none) fun t => { t with taint := true, strike := some ⟨9, 2, 0, 0, 0⟩ }
theorem witness_TaskLevelStop_taint : (findTask sTainted 0 1).isSome = true ∧ (taskIn sTainted).st = .stopping
    ∧ taskAtRest sTainted 0 1 = true ∧ (taskIn sTainted).fate = none ∧ mayRestart (taskIn sTainted) = false := by decide +kernel
theorem witness_TaskLevelStop_not : (taskIn (withT id)).st ≠ .stopping := by decide +kernel

/-- The last team of a grid of one, and the first of a grid of two. -/
def sTeamEnds (n : Nat) : State :=
  { withT (fun t => { t with hdr := some { t.header with exts := [32, 1, n, 1, 1, 1] } }) with groups := [] }
theorem witness_TeamEnd : ∀ n ∈ [1, 2], ∃ tm, mfind (sTeamEnds n).teams 0 = some tm ∧ tm.part = 0 ∧ tm.tid = 1
    ∧ teamGroups (sTeamEnds n) 0 = [] ∧ chainsDone tm = true ∧ (taskIn (sTeamEnds n)).st = .released
    ∧ ((taskIn (sTeamEnds n)).retired + 1 = gridTeams (taskIn (sTeamEnds n)).header ↔ n = 1) := by
  intro n h
  refine ⟨placeTeam, ?_⟩
  revert n
  decide +kernel

def sEnded : State := withGroup (atI (.nop enc0)) fun g => { g with splits := [] }
theorem witness_GroupEnd : ((mfind sEnded.groups 0).isSome = true ∧ mhas sEnded.teams (teamKey 0) = true
      ∧ (getGroup sEnded 0).splits = [] ∧ (getGroup sEnded 0).ops = [] ∧ isEvicted (getGroup sEnded 0) = false)
    ∧ (getGroup (withT id) 0).splits ≠ [] := by decide +kernel

/-! Dispatch: task 1 is a grid of 100 teams of one group, none admitted; three cores are empty, core 0 has one team. -/

def grid0 (t : Task) : Task :=
  { t with admitted := 0, card := { t.card with kind := 1, prio := 3 },
           hdr := some { t.header with quota := 8, col := 0, scr := 4096, widths := [5, 0, 7, 0, 0, 0], exts := [32, 1, 100, 1, 1, 1] } }
def sGrid : State := withT grid0
/-- No core is left for it. -/
def sGridFull : State := modPart sGrid 0 fun q => { q with cg := 0 }
theorem witness_DispatchBatch :
    (headGrid (getPart sGrid 0) = some (taskIn sGrid) ∧ liveBatches (getPart sGrid 0) = [] ∧ (taskIn sGrid).header.col = 0
      ∧ (taskIn sGrid).header.gang = 0 ∧ freeSlots sGrid 0 (taskIn sGrid) = [(0, 31)])
    ∧ (headGrid (getPart sGridFull 0) = some (taskIn sGridFull) ∧ freeSlots sGridFull 0 (taskIn sGridFull) = []) := by
  decide +kernel
/-- The same grid in co-resident sets of 100 teams, for which the partition has no room, or of 10. -/
def sSets (n : Nat) : State := withT fun t =>
  let g := grid0 t
  { g with hdr := some { g.header with col := 3, widths := [5, 0, 7, 7, 0, 0], exts := [32, 1, n, 4, 1, 1] } }
theorem witness_DispatchBatch_set :
    headGrid (getPart (sSets 10) 0) = some (taskIn (sSets 10)) ∧ findTask (sSets 10) 0 (taskIn (sSets 10)).tid = some (taskIn (sSets 10))
    ∧ (taskIn (sSets 10)).header.col ≠ 0 ∧ cannotFit (sSets 10) 0 (taskIn (sSets 10)).header = false
    ∧ liveBatches (getPart (sSets 10) 0) = []
    ∧ (taskIn (sSets 10)).admitted % setTeams (taskIn (sSets 10)).header (taskIn (sSets 10)).header.col = 0
    ∧ cannotFit (sSets 100) 0 (taskIn (sSets 100)).header = true := by decide +kernel
def sAdmit : State := modPart sGrid 0 fun q => { q with batch := [⟨1, 0, [2, 3]⟩] }
theorem witness_TeamAdmit : liveBatches (getPart sAdmit 0) = [⟨1, 0, [2, 3]⟩] ∧ coreFor sAdmit 0 (getTask sAdmit 0 1) 0 = some 1
    ∧ freeTeamSlot sAdmit 1 = some 0 ∧ (fitTeam (roomOf sAdmit 1) (getTask sAdmit 0 1).header).isSome = true
    ∧ (getTask sAdmit 0 1).header.exts.getD 1 1 ≤ 32 ∧ (findTask sAdmit 0 1).isSome = true := by decide +kernel
/-- Two arrivals of 16 lanes at level 2: the first counts, the second flips and wakes the parked split. -/
def sArrive (arr : Nat) : State :=
  modPart (withSplit (atI (.nop enc0)) fun x => { x with park := .gbar 2 false }) 0 fun q =>
    { q with msgs := [⟨1, 0, 2, 16⟩], gbars := [⟨1, 2, 0, 32, false, arr⟩] }
theorem witness_GbarArrival : ∀ arr ∈ [0, 16], (getPart (sArrive arr) 0).msgs[0]? = some ⟨1, 0, 2, 16⟩
    ∧ 0 ∈ groupsOf (sArrive arr) 0 1 ∧ (getGroup (sArrive arr) 0).splits.all (wakesNow (sArrive arr) 0) = true
    ∧ (getGroup (sArrive arr) 0).splits[0]?.map (·.park) = some (.gbar 2 false)
    ∧ setOf (getTask (sArrive arr) 0 1).header (getTeam (sArrive arr) (teamKey 0)).linear 2
      = setOf (getTask (sArrive arr) 0 1).header 0 2
    ∧ setOf (getTask (sArrive arr) 0 1).header 0 2 = 0 ∧ (16 + 16 < 32 ↔ False) := by decide +kernel

/-! Groups that leave and return. -/

/-- Task 2, of higher priority, wants every granule of core 0's quadrants, and core 0 is the only one. -/
def sEvict : State :=
  modPart (withTeam (atI (.nop enc0)) fun t => { t with prio := 0 }) 0 fun q =>
    { q with window := q.window ++ [{ grid0 (q.window.headD Task.empty) with
        tid := 2, card := { Task.empty.card with kind := 1, prio := 3 },
        hdr := some { (q.window.headD Task.empty).header with quota := 32, exts := [32, 32, 1, 1, 1, 1], col := 0 } }] }
def sEvictOne : State := { sEvict with cores := [1, 2, 3].map fun c => (c, { Core.reset with gated := true }) }
theorem witness_PartialEviction : (needsEviction sEvictOne 0).map (·.tid) = some 2
    ∧ (((needsEviction sEvictOne 0).bind (evictCore sEvictOne 0)).map (·.1)) = some 0 := by decide +kernel

/-- A group without v registers, drained, whose context area begins at 0x2000. -/
def ctxArea (s : State) : State := modPart s 0 fun q => { q with ctxbase := 0x2000 }
def sSave : State :=
  ctxArea (withGroup (atI (.nop enc0)) fun g => { g with res := .stopping, quota := 0, splits := g.splits.map fun x => { x with stopped := true } })
/-- A halted group, whose record lies in slot 5, is to leave. -/
def sSaveHalted : State := withGroup sSave fun g => { g with halt := .halted 5 }
theorem witness_EvictionSave_halted : (mfind sSaveHalted.groups 0).isSome = true ∧ (getGroup sSaveHalted 0).res = .stopping
    ∧ drained (getGroup sSaveHalted 0) = true ∧ (getGroup sSaveHalted 0).halt = .halted 5 := by decide +kernel
theorem witness_EvictionSave : (mfind sSave.groups 0).isSome = true ∧ (getGroup sSave 0).halt = .running ∧ (getGroup sSave 0).res = .stopping ∧ drained (getGroup sSave 0) = true
    ∧ (rangeWrite sSave (carmineAcc sSave 0) 4 0x2000 (ctxRecord (getTeam sSave 0) (getGroup sSave 0)) 4).1.isOk = true
    ∧ (getGroup sSave 0).splits.length ≤ 4 ∧ (getGroup sSave 0).entries.length ≤ 32 := by decide +kernel
theorem witness_EvictionSave_same :
    SameRun sSave (rangeWrite sSave (carmineAcc sSave 0) 4 0x2000 (ctxRecord (getTeam sSave 0) (getGroup sSave 0)) 4).2 :=
  rangeWrite_same _ _ _ _ _ _ (by decide +kernel) (by decide +kernel)
/-- Group 1 gives group 0 a granule while group 0 leaves. -/
def sSaveGive : State :=
  let g := getGroup sSave 0
  { sSave with groups := mset sSave.groups 1 { g with w1 := 1, quota := 2, res := .resident, ops := [{ op0 with writes := [], indigo := false, flag := none, stage := .rquota 0 1 3 }] } }
theorem witness_EvictionSave_quota : (mfind sSaveGive.groups 0).isSome = true ∧ (getGroup sSaveGive 0).res = .stopping
    ∧ drained (getGroup sSaveGive 0) = true ∧ ((mfind sSaveGive.groups 1).map fun h => h.ops.map (·.stage)) = some [.rquota 0 1 3]
    ∧ 32 * teamKey 1 + 0 = 0
    ∧ (rangeWrite sSaveGive (carmineAcc sSaveGive 0) 4 0x2000 (ctxRecord (getTeam sSaveGive 0) (getGroup sSaveGive 0)) 4).1.isOk = true := by
  decide +kernel
theorem witness_EvictionSave_quota_same :
    SameRun sSaveGive (rangeWrite sSaveGive (carmineAcc sSaveGive 0) 4 0x2000 (ctxRecord (getTeam sSaveGive 0) (getGroup sSaveGive 0)) 4).2 :=
  rangeWrite_same _ _ _ _ _ _ (by decide +kernel) (by decide +kernel)
def sGone : State := ctxArea (withGroup (atI (.nop enc0)) fun g => { g with res := .evicted 5 0, quota := 0 })
theorem witness_GroupReturn : (mfind sGone.groups 0).isSome = true ∧ (getGroup sGone 0).res = .evicted 5 0 ∧ mayReturn sGone 0 = true
    ∧ (rangeRead sGone (carmineAcc sGone 0) 4 0x2000 0x2000 4).1.isOk = true
    ∧ (rangeRead sGone (carmineAcc sGone 0) 4 0x2000 0x2000 4).2.groups = sGone.groups ∧ (getGroup sGone 0).quota ≤ 32 := by
  decide +kernel

/-- Cores 0 to 3 leave the partition; it keeps cores 4 to 7, or nothing. -/
def leaves (s : State) (cg : Nat) : State :=
  { modPart s 0 fun q => { q with cg } with mgmt := { s.mgmt with resizes := [⟨0, 8, 1, 0, 0, 2, [], []⟩] } }
def sMove (cg : Nat) (moving : Bool) : State := leaves (withTeam (atI (.nop enc0)) fun t => { t with moving }) cg
def sMoved : State := withGroup (sMove 3 true) fun g => { g with res := .evicted 0 0 }
theorem witness_TeamMove :
    (mustMove (sMove 1 true) (getTeam (sMove 1 true) 0) = true ∧ moveTo (sMove 1 true) (getTeam (sMove 1 true) 0) = none
      ∧ (getTeam (sMove 1 true) 0).moving = true)
    ∧ (mustMove (sMove 3 false) (getTeam (sMove 3 false) 0) = true ∧ moveTo (sMove 3 false) (getTeam (sMove 3 false) 0) = some (4, 0)
      ∧ (getTeam (sMove 3 false) 0).moving = false ∧ (getGroup (sMove 3 false) 0).res = .resident)
    ∧ (mustMove sMoved (getTeam sMoved 0) = true ∧ moveTo sMoved (getTeam sMoved 0) = some (4, 0) ∧ (getTeam sMoved 0).moving = true
      ∧ freeTeamSlot sMoved 4 = some 0 ∧ umberIdle (getTeam sMoved 0) = true ∧ mwf sMoved.groups = true
      ∧ ∀ g ∈ sMoved.groups, isEvicted g.2 = true) := by decide +kernel

end Sys2Proof.Tests
end

