-- ==== Sys2Proof/Tests/Witness6.lean ====
section
/-!
SUPPORT. For the statements about bulk tasks, debugging, firmware, resizes, links and health: states that meet their hypotheses.
-/

namespace Sys2Proof.Tests

open Machine

set_option Elab.async false

/-! Bulk tasks: task 1 with its descriptor at 0x5000, or already read; core 0 is the only one that has power. -/

def words (xs : List Nat) : List Word := xs.map (BitVec.ofNat 32)
/-- CTL, 0, source 0x6000, destination 0x7000, a count, zeros. -/
def copyDesc (ctl n : Nat) : List Word := words ([ctl, 0, 0x6000, 0, 0x7000, 0, n] ++ List.replicate 9 0)
def oneCore (s : State) : State := { s with cores := [1, 2, 3].map fun c => (c, { Core.reset with gated := true }) }
def sBulk (kind : Nat) (inMem desc : List Word) (pos : Nat) : State :=
  oneCore (withMem (withT fun t => { t with card := { t.card with kind, desc := 0x5000 }, desc, pos }) 0x5000 (inMem.flatMap bytesOfWord))
/-- The descriptor is read; which fields of it are bad. -/
def descRead (s : State) : Option (List Nat) :=
  match rangeRead s { carmineAcc s 0 with tid := 1 } 4 0x5000 64 4 with
  | (.ok bs, s1) => if s1.parts = s.parts then some (bulkBad { taskIn s with
      desc := (List.range 16).map fun i => BitVec.ofNat 32 (leNat ((bs.drop (4 * i)).take 4)) }) else none
  | _ => none
def turnOf (s : State) (kinds : List Nat) : Bool :=
  (findTask s 0 1).isSome && bulkTurn (getPart s 0) kinds (taskIn s) && (taskIn s).st == .released && (taskIn s).fate == none
theorem witness_BulkTasks_read :
    (turnOf (sBulk 2 (copyDesc 0 8) [] 0) [2, 3] = true ∧ descRead (sBulk 2 (copyDesc 0 8) [] 0) = some [])
    ∧ (turnOf (sBulk 2 (copyDesc 1 8) [] 0) [2, 3] = true ∧ descRead (sBulk 2 (copyDesc 1 8) [] 0) = some [0])
    ∧ (turnOf (sBulk 3 (copyDesc 0x20 8) [] 0) [2, 3] = true ∧ descRead (sBulk 3 (copyDesc 0x20 8) [] 0) = some [])
    ∧ (turnOf (sBulk 2 [] (copyDesc 0 8) 8) [2, 3] = true ∧ dDword (taskIn (sBulk 2 [] (copyDesc 0 8) 8)) 6 ≤ 8) := by decide +kernel

/-- A piece from byte 4 on: it is read and written. The word of the party is a free value. -/
def sPiece (kind ctl n : Nat) : State := sBulk kind [] (copyDesc ctl n) 4
def pieceFits (s : State) (a b nr nw : Nat) : Bool :=
  let c := (bulkAcc s 0 1 1).1
  match rangeRead s ⟨0, 1, 0, 2 ^ 13, none, 1, 0⟩ 1 a nr 4 with
  | (.ok _, _) => c.core == 0 && c.p == 0 && c.tid == 1 && (rangeWrite s ⟨0, 1, 0, 2 ^ 13, none, 1, 0⟩ 1 b (List.replicate nw 0) 4).1.isOk
  | _ => false
theorem witness_BulkTasks_pieces :
    (turnOf (sPiece 2 0 8) [2, 3] = true ∧ (taskIn (sPiece 2 0 8)).pos < dDword (taskIn (sPiece 2 0 8)) 6
      ∧ pieceFits (sPiece 2 0 8) 0x6004 0x7004 4 4 = true)
    ∧ (turnOf (sPiece 3 0x20 8) [2, 3] = true ∧ bulkBits 0 = 32 ∧ bulkBits 2 = 16 ∧ elemMisaligned 32 0x6010 = false
      ∧ elemMisaligned 16 0x7008 = false ∧ pieceFits (sPiece 3 0x20 8) 0x6010 0x7008 16 8 = true)
    ∧ (turnOf (sPiece 3 0x86 8) [2, 3] = true ∧ bulkBits 6 = 6 ∧ (4 * bulkBits 8) % 8 = 0) := by decide +kernel

/-! GBUILD and GDUMP on the pool of four vertices. -/

def pool1 : Pool := { pool0 with lists := [(2, ⟨[(3, 0, 0)], 1, 1⟩)] }
def sGbulk (kind : Nat) (desc : List Word) (pos total : Nat) : State :=
  let s := sGraph (.nop enc0) gRecord pool1 [] []
  oneCore (withMem (withTask s fun t => { t with card := { t.card with kind }, desc, pos, total })
    0x6000 (leBytes 4 2 ++ leBytes 4 3))
/-- One record at 0x6000: the edge 2 to 3. -/
def buildDesc : List Word := words ([0, 0, 0x6000, 0, 1] ++ List.replicate 11 0)
/-- Vertices 0 to 1, row offsets at 0x6000, columns at 0x7000, at most 8 entries. -/
def dumpDesc (lo hi : Nat) : List Word := words [0, 0, 0x6000, 0, lo, 0, hi, 0, 0x7000, 0, 8, 0, 0, 0, 0, 0]
def party3 : Acc := ⟨0, 1, 0, 2 ^ 13, none, 3, 0xFFFFFFFF#32⟩
/-- The graph and a page of its pool are there. -/
def opened (s : State) (build : Bool) : Option State :=
  match bulkGraph s party3 (taskIn s) with
  | (.ok g, s2) => if g.pbase = 0x10000 ∧ g.vlim = 4 ∧ g.psz = 0 ∧ g.kept = (gEntry gRecord).kept ∧ g.dirs = true then
      (match poolAccess s2 party3 g build 0 [] with
       | (none, s3) => if (getPart s3 0).window = (getPart s 0).window then some s3 else none
       | _ => none) else none
  | _ => none
def GbulkReady (s : State) : Bool :=
  turnOf s [4, 5] && bulkAcc s 0 1 3 == (party3, s) && !(taskIn s).desc.isEmpty
theorem witness_BulkTasks_gbuild_end : GbulkReady (sGbulk 4 buildDesc 1 0) = true
    ∧ (opened (sGbulk 4 buildDesc 1 0) true).isSome = true
    ∧ halfBuilt (taskIn (sGbulk 4 buildDesc 1 0)) = false ∧ dDword (taskIn (sGbulk 4 buildDesc 1 0)) 4 ≤ 1 := by decide +kernel

/-- Every record of this pool lies on its one page, so an access to lists touches the same page as one without (R81). -/
theorem onePage (s : State) (hp : s.poison = []) (build : Bool) :
    ∀ ls ∈ [[listNo 2 false, listNo 3 true], [listNo 2 false]],
      poolAccess s party3 (gEntry gRecord) build 0 ls = poolAccess s party3 (gEntry gRecord) build 0 [] := by
  have hr : ∀ n ∈ [listNo 2 false, listNo 3 true], recordPage (gEntry gRecord) n = 0x10000 := by
    unfold recordPage recordVa
    generalize Config.freeBit 0 (2 ^ 40) = b
    revert b
    decide +kernel
  have h1 := hr (listNo 2 false) (by simp)
  have h2 := hr (listNo 3 true) (by simp)
  have hl : (gEntry gRecord).plen / 2 ^ 16 = 1 := by decide
  have hb : (gEntry gRecord).pbase = 0x10000 := by decide
  have hc : choose s 1 = (0, s) := rfl
  have p1 : ([0x10000, 0x10000, 0x10000 + 0 * 2 ^ 16] : List Nat).eraseDups = [0x10000] := by decide
  have p2 : ([0x10000, 0x10000 + 0 * 2 ^ 16] : List Nat).eraseDups = [0x10000] := by decide
  have p3 : ([0x10000 + 0 * 2 ^ 16] : List Nat).eraseDups = [0x10000] := by decide
  have hs : ∀ ls, strikePool s party3 (gEntry gRecord) ls = s := fun ls => by simp [strikePool, hp]
  intro ls h
  simp only [List.mem_cons, List.not_mem_nil, or_false] at h
  rcases h with rfl | rfl <;> unfold poolAccess
    <;> simp only [hl, hc, hs, List.map_cons, List.map_nil, h1, h2, hb, List.cons_append, List.nil_append, p1, p2, p3]

/-- The record is read, its vertices exist, and there is room for its edge. -/
def recordReads (s : State) : Bool :=
  match opened s true with
  | some s3 =>
    (match rangeRead s3 party3 3 0x6000 8 4 with
     | (.ok bs, s4) =>
       let g := gEntry gRecord
       let x := poolAccess s4 party3 g true 0 []
       let y := openPool (settleHalves x.2 0 fun _ h => awaits g (listNo 2 false) h) 0 g
       let kept := fun z : State => (getPart z 0).window == (getPart s 0).window
       bs == leBytes 4 2 ++ leBytes 4 3 && kept s4 && s4.poison == [] && x.1.isNone && kept x.2 && y.1 && kept y.2 && y.2.pools == s.pools
     | _ => false)
  | none => false
theorem witness_BulkTasks_gbuild : GbulkReady (sGbulk 4 buildDesc 0 0) = true ∧ recordReads (sGbulk 4 buildDesc 0 0) = true
    ∧ (taskIn (sGbulk 4 buildDesc 0 0)).pos < dDword (taskIn (sGbulk 4 buildDesc 0 0)) 4 ∧ 0x6000 % 4 = 0
    ∧ 16 ≤ (taskIn (sGbulk 4 buildDesc 0 0)).desc.length
    ∧ ([pool1].find? (poolIs 0 (gEntry gRecord))).isSome = true ∧ ([pool1].find? fun x => x.part == 0 && x.pbase == 0x10000).isSome = true
    ∧ degreeDue (sGbulk 4 buildDesc 0 0) 0 (gEntry gRecord) (listNo 2 false) < 2 ^ 28
    ∧ degreeDue (sGbulk 4 buildDesc 0 0) 0 (gEntry gRecord) (listNo 3 true) < 2 ^ 28 ∧ (mget pool1.lists (listNo 2 false) GList.empty).ctr ≠ 0xFFFFFFFF
    ∧ (gEntry gRecord).kept ≤ freeBlocks (sGbulk 4 buildDesc 0 0) 0 (gEntry gRecord) := by decide +kernel
theorem witness_BulkTasks_half : halfBuilt { taskIn (sGbulk 4 buildDesc 0 0) with
    desc := buildDesc ++ words [2, 3, 0, 0, 0, 0, 0, 0, 0x10000, 0] } = true := by decide +kernel

def listDumps (s : State) : Bool :=
  match opened s false with
  | some s3 =>
    let y := poolAccess s3 party3 (gEntry gRecord) false 0 []
    (match readList y.2 0 (gEntry gRecord) (listNo 2 false) with
     | (some x, s4) =>
       s3.poison == [] && y.1.isNone && (getPart y.2 0).window == (getPart s 0).window && x == GList.empty && (match dumpList party3 (taskIn s) (gEntry gRecord) x s4 with
         | .ok s5 => (getPart s5 0).window == (getPart s 0).window
         | .error _ => false)
     | _ => false)
  | none => false
theorem witness_BulkTasks_gdump_end : GbulkReady (sGbulk 5 (dumpDesc 0 2) 2 0) = true ∧ (opened (sGbulk 5 (dumpDesc 0 2) 2 0) false).isSome = true
    ∧ dDword (taskIn (sGbulk 5 (dumpDesc 0 2) 2 0)) 4 = 0 ∧ dDword (taskIn (sGbulk 5 (dumpDesc 0 2) 2 0)) 6 ≤ 2
    ∧ (taskIn (sGbulk 5 (dumpDesc 0 2) 2 0)).desc.length = 16 := by decide +kernel
theorem witness_BulkTasks_gdump : GbulkReady (sGbulk 5 (dumpDesc 1 3) 1 0) = true ∧ listDumps (sGbulk 5 (dumpDesc 1 3) 1 0) = true
    ∧ 1 + 1 < dDword (taskIn (sGbulk 5 (dumpDesc 1 3) 1 0)) 6 ∧ 0 + 0 ≤ dDword (taskIn (sGbulk 5 (dumpDesc 1 3) 1 0)) 10 := by
  decide +kernel

/-! Debugging and errors. Boot runs in every state here. -/

def sHalt (halt : Halt) (res : Residency) : State :=
  ctxArea (withGroup (atI (.nop enc0)) fun g => { g with halt, res, quota := 0, splits := g.splits.map fun x => { x with stopped := true } })
def withRing (s : State) (put : Nat) : State := modPart s 0 fun q => { q with dbgring := 0x8000, dbgput := put }
theorem witness_DbgctlHalt : (sHalt .running .resident).mgmt.boot ≠ .failed ∧ 0 ∈ groupsIn (sHalt .running .resident) 0
    ∧ (getGroup (sHalt .running .resident) 0).halt = .running
    ∧ ¬ (fun s : State => s.mgmt.boot ≠ .failed) { sHalt .running .resident with mgmt := { Mgmt.reset with boot := .failed } } := by
  decide +kernel
theorem witness_DebugHalt : ∀ put ∈ [15, 16],
    let s := withRing (sHalt (.stopping 2 5) .resident) put
    (mfind s.groups 0).isSome = true ∧ (getGroup s 0).res = .resident ∧ (getGroup s 0).halt = .stopping 2 5
    ∧ drained (getGroup s 0) = true
    ∧ (rangeWrite s (carmineAcc s 0) 4 0x2000 (ctxRecord (getTeam s 0) (getGroup s 0)) 4).1.isOk = true
    ∧ (((getPart s 0).dbgput + 2 ^ 32 - (getPart s 0).dbgget) % 2 ^ 32 ≠ 2 ^ 4 ↔ put = 15)
    ∧ holdsPhys s 0 (0x8000 + 64 * 15) = true ∧ holdsPhys s 0 (2 ^ 37 + 64 * 15) = false := by decide +kernel
theorem witness_DebugHalt_same :
    let s := withRing (sHalt (.stopping 2 5) .resident) 15
    SameRun s (rangeWrite s (carmineAcc s 0) 4 0x2000 (ctxRecord (getTeam s 0) (getGroup s 0)) 4).2 :=
  rangeWrite_same _ _ _ _ _ _ (by decide +kernel) (by decide +kernel)
theorem witness_DbgresWrite :
    (groupsIn (sHalt (.halted 0) (.evicted 0 0)) 0 = [0] ∧ (getGroup (sHalt (.halted 0) (.evicted 0 0)) 0).halt = .halted 0
      ∧ isEvicted (getGroup (sHalt (.halted 0) (.evicted 0 0)) 0) = true)
    ∧ (groupsIn (sHalt (.halted 0) .resident) 0 = [0] ∧ (getGroup (sHalt (.halted 0) .resident) 0).halt = .halted 0
      ∧ (getGroup (sHalt (.halted 0) .resident) 0).res = .resident ∧ (getGroup (sHalt (.halted 0) .resident) 0).quota ≤ 32
      ∧ (getTask (sHalt (.halted 0) .resident) 0 1).st = .released ∧ (getGroup (sHalt (.halted 0) .resident) 0).held = []
      ∧ (rangeRead (sHalt (.halted 0) .resident) (carmineAcc (sHalt (.halted 0) .resident) 0) 4 0x2000 0x2000 4).1.isOk = true
      ∧ (rangeRead (sHalt (.halted 0) .resident) (carmineAcc (sHalt (.halted 0) .resident) 0) 4 0x2000 0x2000 4).2.groups
        = (sHalt (.halted 0) .resident).groups
      ∧ (rangeRead (sHalt (.halted 0) .resident) (carmineAcc (sHalt (.halted 0) .resident) 0) 4 0x2000 0x2000 4).2.parts
        = (sHalt (.halted 0) .resident).parts) := by decide +kernel
/-- A task that an error kills, and one that it restarts. -/
def sStruck (ver : Bool) : State := withT fun t => { t with card := { t.card with ver, idem := ver } }
theorem witness_Errors : ∀ ver ∈ [true, false], mhas (sStruck ver).groups 0 = true ∧ (taskIn (sStruck ver)).st = .released
    ∧ (taskIn (sStruck ver)).fate = none ∧ (sStruck ver).mgmt.mig = none
    ∧ (((taskIn (sStruck ver)).card.ver = true ∧ (taskIn (sStruck ver)).card.idem = true ∧ (taskIn (sStruck ver)).taint = false
      ∧ (taskIn (sStruck ver)).settled = [] ∧ (taskIn (sStruck ver)).restarts < 3) ↔ ver = true) := by decide +kernel
theorem witness_NoframeStop : (getPart (sHeldAcc 7 5) 0).held.find? (fun h => h.tid == 1 && heldBase (sHeldAcc 7 5) 0 h.va == heldBase (sHeldAcc 7 5) 0 0x1FFFF) = some held0
    ∧ (taskIn (sHeldAcc 7 5)).st = .released ∧ (taskIn (sHeldAcc 7 5)).fate = none := by decide +kernel

/-! Firmware. -/

def sFw : State := atI (.nop enc0)
def withMgmt (s : State) (f : Mgmt → Mgmt) : State := { s with mgmt := f s.mgmt }
theorem witness_ShootdownSubmit : sFw.mgmt.down = [] ∧ partTlbs sFw 0 ≠ [] ∧ (8#32 + 7#32).getLsbD 3 = true
    ∧ (withMgmt sFw fun m => { m with down := [⟨0, true, false, 0, [], true, 0, 0⟩] }).mgmt.down ≠ [] := by decide +kernel
/-- The TLB of core 0 has not acknowledged yet, alone or with that of its die. -/
def sAck (pending : List TlbId) (all : Bool) : State :=
  { withMgmt sFw fun m => { m with down := [⟨0, all, false, 0, pending, true, 0, 0⟩] } with
    tlb := [⟨.core 0, 0, 0, 0, 0, leaf0⟩, ⟨.die 0, 0, 0, 0, 0, leaf0⟩, ⟨.core 0, 1, 0, 0, 0x10000, leaf0⟩] }
theorem witness_TlbAck : ∀ all ∈ [true, false],
    (TlbId.core 1 ∉ ((sAck [.core 0] all).mgmt.down.headD ⟨0, all, false, 0, [], true, 0, 0⟩).pending)
    ∧ (∀ y ∈ ((sAck [.core 0] all).mgmt.down.headD ⟨0, all, false, 0, [], true, 0, 0⟩).pending, y = TlbId.core 0)
    ∧ (∃ y ∈ ((sAck [.core 0, .die 0] all).mgmt.down.headD ⟨0, all, false, 0, [], true, 0, 0⟩).pending, y ≠ TlbId.core 0)
    ∧ (∃ e ∈ (sAck [.core 0] all).tlb, e.at_ = .core 0 ∧ e.part = 0 ∧ e.page = pageBase e.leaf 0)
    ∧ inFlight (sAck [.core 0] all) ⟨0, all, false, 0, [], true, 0, 0⟩ (.core 0) = false := by decide +kernel
/-- A load that has translated through the entry, and is not performed yet. -/
def sInFlight : State :=
  withOps (sAck [.core 0] false) [{ op0 with writes := [], stage := .pieces [(.ld eLds, { capLd with checked := [⟨0, 0, 4, some leaf0⟩] })] [] none }]
theorem witness_TlbAck_waits : inFlight sInFlight ⟨0, false, false, 0, [.core 0], true, 0, 0⟩ (.core 0) = true
    ∧ sInFlight.mgmt.down = [⟨0, false, false, 0, [.core 0], true, 0, 0⟩] := by decide +kernel
/-- A migration of 1024 bytes from 0x8000 to 0x20000. -/
def migWords (old : Nat) : List Word := words [old, 0, 0x20000, 0, 1024, 0, 0, 0]
theorem witness_MigrationSubmit : migBad sFw (migWords 0x8000) = false ∧ migBad sFw (migWords 0x8020) = true := by decide +kernel
def mig0 (pos state : Nat) : Migration := ⟨0x8000, 0x20000, 1024, 0, 0, state, pos⟩
def sMig (pos state : Nat) : State := withMgmt sFw fun m => { m with mig := some (mig0 pos state) }
theorem witness_BlockHandover : ∀ pos ∈ [0, 512], (sMig pos 1).mgmt.mig = some (mig0 pos 1) ∧ (mig0 pos 1).state = 1 ∧ (sMig pos 1).own = []
    ∧ (sMig pos 1).mgmt.reqs = [] ∧ (mig0 pos 1).kold = 0 ∧ (mig0 pos 1).knew = 0 ∧ (mig0 pos 1).pos < (mig0 pos 1).len
    ∧ 0x8000 + 1024 ≤ 0x20000 := by decide +kernel
def sReqs : State := withMgmt sFw fun m => { m with reqs := [⟨0x20000, [1], 0⟩, ⟨0x20201, [2, 3], 0⟩] }
theorem witness_RequestForward : sReqs.mgmt.reqs[1]? = some ⟨0x20201, [2, 3], 0⟩
    ∧ ∀ x ∈ sReqs.mgmt.reqs.take 1, x.pa / 512 ≠ 0x20201 / 512 := by decide +kernel
theorem witness_MigstatMapped : ((sMig 1024 2).mgmt.mig = some (mig0 1024 2) ∧ (mig0 1024 2).state = 2 ∧ (sMig 1024 2).mgmt.reqs = [])
    ∧ (mig0 512 1).state ≠ 2 := by decide +kernel
theorem witness_FirmwareMemoryWrite : Calm sFw ∧ 2 ^ 38 - 2 + [1, 2].length ≤ 2 ^ 38 := by decide +kernel
theorem witness_HostMemoryWrite : 1 < 2 ∧ 0 < 8 ∧ (getPart sFw 0).en = true
    ∧ (rangeWrite sFw (carmineAcc sFw 0) 4 0xFFFE [1, 2] 4).1.isOk = true := by decide +kernel
/-- One report has been made. -/
def sReported : State := withMgmt sFw fun m => { m with reports := 1 }
theorem witness_KeyLoad : sReported.mgmt.boot ≠ .failed ∧ (1 ≤ 1 ∧ 1 ≤ sReported.mgmt.reports) ∧ ¬ (2 ≤ sReported.mgmt.reports)
    ∧ 1 ≤ 255 ∧ 255 < 256 ∧ 0 < 8 ∧ bitOf (getPart sReported 0).hg 0 = true := by decide +kernel

/-! Resizes. Partition 0 gives cores, slices and channels of granule 0 back; it keeps granule 1 of each kind, or nothing. -/

def sHolds (n : Nat) : State := modPart sFw 0 fun q => { q with cg := n, sg := n, hg := n }
def rWords (dst cores slices chans : Nat) : List Word := words [dst * 256, 0, cores, 0, slices, 0, chans, 0]
def refusal (s : State) (d : List Word) : Nat :=
  let r := resizeOf d
  let form := r.src = r.dst ∨ 8 < r.src ∨ 9 < r.dst ∨ 2 ^ 16 ≤ (d.getD 0 0).toNat ∨ d.getD 1 0 ≠ 0 ∨ 2 ^ 48 ≤ r.slices ∨ d.getD 7 0 ≠ 0
  if form then 4
  else if inResize s r.src = true ∨ inResize s r.dst = true then 3
  else if masksIn r.masks (masksOf s r.src) = false then 1
  else if r.src < 8 ∧ (getPart s r.src).en = true ∧ allKinds (masksOff (masksOf s r.src) r.masks) = false then 2 else 0
def resize0 (state : Nat) : Resize := ⟨0, 8, 1, 1, 1, state, [], []⟩
def sResize (r : Resize) : State := withMgmt (sHolds 3) fun m => { m with resizes := [r] }
theorem witness_ResizeSubmit : refusal (sHolds 3) (rWords 0 1 1 1) = 4 ∧ refusal (sResize (resize0 1)) (rWords 8 1 1 1) = 3
    ∧ refusal (sHolds 3) (rWords 8 4 1 1) = 1 ∧ refusal (sHolds 1) (rWords 8 1 1 1) = 2 ∧ refusal (sHolds 3) (rWords 8 1 1 1) = 0 := by
  decide +kernel

theorem witness_ResizeStateAdvance :
    (sResize (resize0 1)).mgmt.resizes[0]? = some (resize0 1)
    ∧ ((resize0 2).src < 8 ∧ leavingTeams (sResize (resize0 2)) (resize0 2) ≠ [])
    ∧ (leavingTeams (sResize { resize0 2 with cores := 2 }) { resize0 2 with cores := 2 } = [])
    ∧ ({ resize0 3 with planS := [(4095, 4)] }.planS ≠ [] ∧ (resize0 3).planS = [] ∧ (resize0 3).planC = [])
    ∧ ((resize0 4).src < 8 ∧ movable (sResize (resize0 4)) (resize0 4) ≠ 0
      ∧ namesChans (sResize (resize0 4)) 0 (movable (sResize (resize0 4)) (resize0 4)) = true)
    ∧ ¬ movable (sResize { resize0 4 with chans := 0 }) { resize0 4 with chans := 0 } ≠ 0
    ∧ ((sResize (resize0 5)).own = [] ∧ (sResize (resize0 5)).mgmt.reqs = [] ∧ (resize0 5).src ≠ (resize0 5).dst ∧ (resize0 5).src ≤ 8
      ∧ (resize0 5).dst ≤ 9 ∧ (resize0 5).src < 8 ∧ bitOf (resize0 5).chans 0 = true)
    ∧ ({ resize0 6 with planC := [(0, 4)] }.planC ≠ [] ∧ (resize0 6).planS = [] ∧ (resize0 6).planC = []) := by decide +kernel
theorem witness_BucketHandover : mfind { resize0 3 with planS := [(4095, 4)] }.planS 4095 = some 4
    ∧ mfind { resize0 6 with planC := [(4095, 4)] }.planC 4095 = some 4 ∧ mfind (resize0 3).planS 4095 = none := by decide +kernel
theorem witness_Registers : sFw.mgmt.boot ≠ .failed ∧ 7 < 8 ∧ versionLines sFw 7 - (0#32).toNat ≤ (getPart sFw 7).vloglen
    ∧ (getPart sFw 0).otinv = none ∧ (getPart (modPart sFw 0 fun q => { q with otinv := some 9 }) 0).otinv = some 9
    ∧ 12 % 8 ≠ 0 ∧ 12 % 4 = 0 ∧ 13 % 4 ≠ 0 ∧ (withMgmt sFw fun m => { m with boot := .failed }).mgmt.boot = .failed := by decide +kernel

/-! Links: partition 0 has dies 0 and 1, and leads from die 0; a team of its task is on die 1. -/

def sDies : State :=
  let s := modPart sFw 0 fun q => { q with cg := 1 + 2 ^ 16 }
  { s with teams := mset s.teams 512 { placeTeam with core := 64 } }
theorem witness_DieLinkLoss : 1 ≠ 0 ∧ max 1 0 < 4 ∧ sDies.poison = [] ∧ (min 1 0, max 1 0) ∉ sDies.mgmt.deadDies ∧ dropDie (getPart sDies 0) 1 0 = some 1
    ∧ (taskIn sDies).st = .released ∧ (taskIn sDies).fate = none ∧ (taskIn sDies).card.wdr = false
    ∧ (∃ tm ∈ teamsOf sDies 0 1, tm.2.core / 64 = 1)
    ∧ (0, 1) ∈ (withMgmt sDies fun m => { m with deadDies := [(0, 1)] }).mgmt.deadDies := by decide +kernel
/-- Port 0 is lost; port 11 has two flits for the device that it leads to. -/
def sPorts : State := withMgmt sFw fun m => { m with badPorts := [0], flits := [(11, [⟨9, 4, 64, .read, []⟩, ⟨9, 5, 72, .write, [1]⟩])] }
theorem witness_LinkPorts : (12 ≤ 12 ∨ 12 ∈ sPorts.mgmt.badPorts) ∧ 0 ∈ sPorts.mgmt.badPorts
    ∧ (11 < 12 ∧ 11 ∉ sPorts.mgmt.badPorts ∧ mget sPorts.mgmt.flits 11 [] ≠ []) := by decide +kernel
/-- Which device a port leads to is free: where port 1 leads to device 9 too, one remains. -/
theorem witness_LinkPorts_other (h : Config.portDevice 1 = 9) :
    portsTo (withMgmt sPorts fun m => { m with badPorts := [0, 11] }) 9 ≠ [] := by
  intro hn
  have hm : 1 ∈ portsTo (withMgmt sPorts fun m => { m with badPorts := [0, 11] }) 9 := by simp [portsTo, h, withMgmt]
  rw [hn] at hm
  exact absurd hm (by simp)
/-- An access of device 3, partition 2, whose domain is partition 0; seen before, or not. -/
def domReq (addr : Nat) (what : DomOp) : DomReq := ⟨3, 2, 7, addr, what⟩
def sDomain (seen : Bool) : State :=
  withMgmt sFw fun m => { m with domains := [(26, 0)], seen := if seen then [(3, 7)] else [] }
def domTaken (r : DomReq) : Bool :=
  let s := sDomain false
  let e := s2Entry s 0 r.addr
  decide (r.addr < 2 ^ 38) && decide (r.addr % 2 ^ 21 + domLen r.what ≤ 2 ^ 21) && holdsPhys s 0 (s2At s 0 r.addr) && s2Ok e
  && domMay r.what e && holdsPhys s 0 (bitsOf e 37 21 * 2 ^ 21 + r.addr % 2 ^ 21) && bitsOf e 63 56 == 0
theorem witness_DomainRequest : (3, 7) ∈ (sDomain true).mgmt.seen
    ∧ ((3, 7) ∉ (sDomain false).mgmt.seen ∧ mfind (sDomain false).mgmt.domains (8 * 3 + 2) = some 0)
    ∧ (∀ o ∈ [DomOp.read 2, .write [1, 2]], domTaken (domReq 0x1FFFFE o) = true ∧ domTaken (domReq 0x1FFFFF o) = false)
    ∧ domTaken (domReq 0x1FFFFC (.rmw 0 0 1 0 true)) = true ∧ atomNew 0 0 5 1 0 = some 6
    ∧ mfind sFw.mgmt.domains (8 * 3 + 2) = none
    ∧ (sFw.mgmt.mig = none ∧ sFw.mgmt.reqs = [] ∧ sFw.own = [] ∧ sFw.poison = []) := by decide +kernel

/-! Health. No image verifies by evaluation: `Config.ed448Verify` is free. -/

theorem witness_Reset_bad : ¬ (([] : List (List Byte × List Byte)) ≠ []) := by decide
theorem witness_Reset_ok (hk : shake256 [0] = Config.fusedDigest) (h : Config.ed448Verify [0] [1] [2] = true) :
    shake256 [0] = Config.fusedDigest ∧ [([1], [2])] ≠ ([] : List (List Byte × List Byte))
    ∧ ∀ i ∈ [(([1], [2]) : List Byte × List Byte)], Config.ed448Verify [0] i.1 i.2 = true := by
  refine ⟨hk, by simp, ?_⟩
  intro i hi
  simp only [List.mem_singleton] at hi
  subst hi
  exact h
/-- A dump stands in device memory. -/
theorem witness_Reset_dump : (withMgmt sFw fun m => { m with dump := some (dumpOf sFw) }).mgmt.dump = some (dumpOf sFw)
    ∧ sFw.mgmt.dump = none ∧ sFw.mgmt.swaps = [] := ⟨rfl, rfl, rfl⟩
theorem witness_Attestation : sFw.mgmt.boot ≠ .failed ∧ 7 < 8 ∧ (List.replicate 64 (0 : Byte)).length = 64 := by decide +kernel
theorem witness_FatalError : sFw.mgmt.boot ≠ .failed ∧ sFw.mgmt.temp < 105 := by decide +kernel
def sGated (g : Bool) : State := { State.reset with cores := [(255, { Core.reset with gated := g })] }
theorem witness_CorePower : 255 < 256 ∧ (getCore (sGated false) 255).gated = false ∧ (getCore (sGated true) 255).gated = true
    ∧ teamsOn sFw 0 ≠ [] ∧ teamsOn (sGated false) 255 = [] ∧ (sGated false).own = [] := by decide +kernel
/-- Granule 63 of cores in quarantine, and spares in use. -/
def sQuar (used : Nat) (out : List Nat) : State :=
  withMgmt State.reset fun m => { m with quar := (2 ^ 63, 0, 0), spares := [(3, used)], outUnits := out }
theorem witness_Units : 0 < 3 ∧ 3 < 4 ∧ 63 < 4 * 16 ∧ 16 * 3 + 63 / 4 = 63
    ∧ (mget (sQuar 3 []).mgmt.spares 3 0 < 4 ∧ bitOf (sQuar 3 []).mgmt.pool.1 63 = true)
    ∧ (mget (sQuar 4 []).mgmt.spares 3 0 = 4 ∧ bitOf (sQuar 4 []).mgmt.quar.1 63 = true ∧ 64 * 0 + 63 ∉ (sQuar 4 []).mgmt.outUnits)
    ∧ (¬ bitOf State.reset.mgmt.quar.1 63 = true)
    ∧ ((sQuar 3 []).mgmt.swaps = [] ∧ (0, 3, 63) ∈ (withMgmt State.reset fun m => { m with swaps := [(0, 3, 63)] }).mgmt.swaps)
    ∧ (63 / 16 ∉ (sQuar 4 [63]).mgmt.badDies ∧ 64 * 0 + 63 ∈ (sQuar 4 [63]).mgmt.outUnits) := by decide +kernel

end Sys2Proof.Tests
end

