-- ==== Sys2Proof/Tests/Witness7.lean ====
section
/-!
SUPPORT. For the statements about encoding, steps, checks and invariants: states that meet their hypotheses.
-/

namespace Sys2Proof.Tests

open Machine

set_option Elab.async false

/-! A step: an input of the agenda; and a split at NOP. -/

def sInput : State := { State.reset with agenda := [.correctableError] }
theorem witness_StepRuns_input : sInput.agenda = .correctableError :: [] := rfl
/-- A tail through link 1 may overtake a write through link 0; an empty write, which stands for a read, keeps its place. -/
theorem witness_StepRuns_overtakes : agendaPicks [.hostMemoryWrite 0 0 0 [1], .tailWrite 0 0 ⟨1, 0⟩] = [0, 1]
    ∧ agendaPicks [.hostMemoryWrite 0 0 0 [1], .tailWrite 0 0 ⟨0, 0⟩] = [0]
    ∧ agendaPicks [.hostMemoryWrite 0 0 0 [], .tailWrite 0 0 ⟨1, 0⟩] = [0] := by decide +kernel
def sTurn : State := placeCode State.reset (encodeBytes (.nop enc0))
theorem witness_StepRuns_turn :
    let a := (atOf sTurn 0 0).getD (issuer (atI (.nop enc0)))
    (atOf sTurn 0 0).isSome = true ∧ sTurn.agenda = [] ∧ mayWake sTurn 0 0 = false ∧ a.sp.park = .none ∧ chainTrap a.sp = none ∧ sTurn.poison = []
    ∧ atRejoinPoint a.g a.sp = false ∧ a.sp.stop = none
    ∧ (match fetchWords sTurn a false 2 a.sp.pc.toNat with | .ok bs => (decode bs).toOption == some (.nop enc0, []) | .error _ => false) = true := by
  decide +kernel
theorem witness_StepRuns_fetch :
    let a := (atOf sTurn 0 0).getD (issuer (atI (.nop enc0)))
    12 < a.task.header.clen ∧ 12 % 4 = 0 ∧ a.task.header.code + 12 < 2 ^ 52 ∧ walk sTurn a.tm.part 12 = .ok leaf0
    ∧ leafCheck sTurn a.tm.part .read leaf0 = none ∧ leaf0.domain = false ∧ leaf0.sf = 0 := by decide +kernel

/-! Checks before the effect. -/

/-- IADD that waits for flag 1. -/
def eWaits : Enc := let e := encM 4 1 2 0 0; { e with ctl := { e.ctl with wait := 2 } }
def sTrapped : State := withSplit (atI (.iadd eWaits)) fun x => { x with traps := [⟨some 1, ⟨2, 1, 0, 0, 0⟩, 0, false⟩] }
theorem witness_IssueChecks_trap : (curAt sTrapped).isSome = true ∧ (issuer sTrapped).sp.chain = 0
    ∧ (issuer sTrapped).sp.traps.find? (fun t => t.now || (match t.flag with | some k => (waitFlags eWaits).contains k | none => false))
      = some ⟨some 1, ⟨2, 1, 0, 0, 0⟩, 0, false⟩ := by decide +kernel
def quiet (i : Instr) (f : Form) (e : Enc) (s : State) : Bool :=
  (formOf i).isSome && (curAt s).isSome && (dueTrap (issuer s) f e).isNone && (overdueFault (issuer s) f e).isNone
/-- The fault of an operation without a flag, which any wait takes. -/
def oFault : Op := { op0 with flag := none, writes := [], stage := .faulted ⟨2, 1, 0, 0, 0⟩ }
def sOverdue : State := withOps (atI (.iadd eWaits)) [oFault]
theorem witness_IssueChecks_overdue : (curAt sOverdue).isSome = true ∧ dueTrap (issuer sOverdue) formIadd eWaits = none
    ∧ overdueFault (issuer sOverdue) formIadd eWaits = some oFault := by decide +kernel
/-- The flag that it waits for is still counted. -/
def sStalls : State := withGroup (atI (.iadd eWaits)) fun g => { g with flags := [(1, 1)] }
theorem witness_IssueChecks :
    (quiet (.iadd (encM 253 1 2 7 0)) formIadd (encM 253 1 2 7 0) (atI (.iadd (encM 253 1 2 7 0))) = true
      ∧ encCheck formIadd (encM 253 1 2 7 0) (encCtxOf (atI (.iadd (encM 253 1 2 7 0))) (issuer (atI (.iadd (encM 253 1 2 7 0))))) = some 8)
    ∧ (quiet (.tret enc0) formTret enc0 (atI (.tret enc0)) = true ∧ formTret.handlerOnly = true
      ∧ (issuer (atI (.tret enc0))).sp.handler = false)
    ∧ (quiet (.iadd eWaits) formIadd eWaits sStalls = true ∧ encCheck formIadd eWaits (encCtxOf sStalls (issuer sStalls)) = none
      ∧ eligible sStalls (issuer sStalls) formIadd eWaits = false)
    ∧ curAt State.reset = none := by decide +kernel

/-! Encoding. -/

theorem witness_EncodingRoundTrip :
    (WellFormed (.iadd (encM 255 255 255 0 0)) ∧ (formOf (.iadd (encM 255 255 255 0 0))).isSome = true)
    ∧ (WellFormed (.st (encM 0 254 255 0 0x384)) ∧ (formOf (.st (encM 0 254 255 0 0x384))).isSome = true)
    ∧ (decode (bytesOfWord 0x00007980 ++ bytesOfWord 0x01000000)).toOption.isNone = true
    ∧ (0x00007980#32).toNat / 2 ^ 7 % 4 = 3 ∧ (0x80007900#32).toNat / 2 ^ 7 % 4 = 2 ∧ (0x01048400#32).toNat / 2 ^ 24 = 1
    ∧ (∃ f e, formOf (.sadd enc0) = some (f, e) ∧ f.uni = (0x80007900#32).getLsbD 31 ∧ f.op = 1)
    ∧ uniformOp 0xFF = none ∧ laneOp 0x1E = none := by
  refine ⟨by decide +kernel, by decide +kernel, by decide +kernel, by decide, by decide, by decide, ?_, rfl, rfl⟩
  exact ⟨formSadd, enc0, rfl, rfl, rfl⟩

/-! Invariants: a step that answers a state, from one that has them. -/

theorem witness_MemoryStaysCanonical : Memory.wf sInput.mem = true ∧ Memory.wf sInput.host = true ∧ ∃ t, step sInput = .next t :=
  ⟨rfl, rfl, _, rfl⟩
def sHot : State := { sInput with mgmt := { Mgmt.reset with cec := 0x7FFF, throttle := 8, temp := 255 } }
theorem witness_HealthStaysInRange : (sHot.mgmt.cec ≤ 0x7FFF ∧ sHot.mgmt.throttle ≤ 8 ∧ sHot.mgmt.temp ≤ 255)
    ∧ ∃ t, step sHot = .next t := ⟨by decide +kernel, _, rfl⟩

end Sys2Proof.Tests
end

