-- ==== Sys2Proof/Tests/Witness8.lean ====
section
/-!
SUPPORT. For the statements that say where each form completes: the states of the earlier files meet most of their hypotheses; these
meet the others.
-/

namespace Sys2Proof.Tests

open Machine

set_option Elab.async false

/-- MXB or I4G records in scratchpad, one or eight of them; I4G under a scale format `scf` of fmt. -/
def eFix (kind ef n : Nat) : Enc := encM 0 0 0 0 (kind + ef * 2 ^ 2 + n * 2 ^ 6) true
def fixedFits (f : Form) (e : Enc) (i : Enc → Instr) (scf : Nat) : Bool :=
  let s := withSplit (atI (i e)) fun x => { x with fmt := BitVec.ofNat 32 (scf * 2 ^ 10) }
  isClear f e s && (issuer s).sp.park == .none && decide (2 ≤ e.M 9 8) && e.M 18 17 == 0
  && (e.M 9 8 == 2 || fmtSCF (issuer s).sp.fmt == scf)
  && decide ((uni f e s).a + (e.M 16 14 + 1) * (4 * (ffOf (e.M 13 10)).bits + 18) ≤ (issuer s).tm.scrsize)
theorem witness_StreamForms : ∀ x ∈ [(2, 4, 0, 0), (2, 8, 7, 0), (3, 0, 0, 1), (3, 0, 7, 3)],
    fixedFits formDcd (eFix x.1 x.2.1 x.2.2.1) .dcd x.2.2.2 = true ∧ fixedFits formEnc (eFix x.1 x.2.1 x.2.2.1) .enc x.2.2.2 = true := by
  decide +kernel

/-- An idle chain advanced by 16, 0 or 1 commands, whose slots can be read. -/
theorem witness_ChainForms : ∀ m ∈ [0, 1, 16],
    isClear formCqadv enc0 (sChain (.cqadv enc0) (chain0 3 3) m) = true
    ∧ going formCqadv enc0 (sChain (.cqadv enc0) (chain0 3 3) m)
    ∧ mfind (issuer (sChain (.cqadv enc0) (chain0 3 3) m)).tm.chains 0 = some (chain0 3 3)
    ∧ (uni formCqadv enc0 (sChain (.cqadv enc0) (chain0 3 3) m)).b = m ∧ (chain0 3 3).done = (chain0 3 3).tail
    ∧ (issuer (sChain (.cqadv enc0) (chain0 3 3) m)).g.ops = []
    ∧ ∀ k < m, ∀ j < 4, walk (sChain (.cqadv enc0) (chain0 3 3) m) 0 (slotVa 0x3000 4 (4 + k) + j) = .ok leaf0 := by
  decide +kernel

/-- Under the guard q1, which is false. -/
def guarded (e : Enc) : Enc := { e with m := { e.m with guard := 1 }, ctl := { e.ctl with lit := 1 } }
def offFits (f : Form) (e : Enc) (i : Enc → Instr) (handler : Bool) : Bool :=
  let s := if handler then handling (atI (i e)) else atI (i e)
  isClear f e s && (issuer s).sp.park == .none && !decide (going f e s)
theorem witness_StreamAndChainForms_off :
    offFits formCqinit (guarded enc0) .cqinit false = true ∧ offFits formCqadv (guarded enc0) .cqadv false = true
    ∧ offFits formCqwait (guarded enc0) .cqwait false = true ∧ offFits formCqseq (guarded enc0) .cqseq false = true := by
  decide +kernel
theorem witness_SystemForms_off :
    offFits formSetfmt (guarded enc0) .setfmt false = true ∧ offFits formWrsr (guarded eWrsr) .wrsr true = true
    ∧ offFits formSetcmp (guarded eCmp) .setcmp false = true ∧ offFits formRquota (guarded enc0) .rquota false = true
    ∧ offFits formTrap (guarded enc0) .trap false = true ∧ offFits formBkpt (guarded enc0) .bkpt false = true
    ∧ offFits formTret (guarded enc0) .tret true = true ∧ offFits formTkill (guarded enc0) .tkill false = true
    ∧ offFits formOtset (guarded enc0) .otset true = true ∧ offFits formPinv (guarded enc0) .pinv true = true := by
  decide +kernel
/-- Breakpoints 1 to 15 as patterns, slope exponents −8 first and 8 last. -/
def ramp : SMap Byte := (List.range 15).map (fun k => (4 * k, BitVec.ofNat 8 (k + 1))) ++ [(64, 0xF8), (79, 8)]
/-- With the guard true: a legal image for SETCMP, no granule for RQUOTA, the executing task for TKILL. -/
theorem witness_SystemForms : (isClear formSetcmp eCmp (sCmp ramp) = true
      ∧ (∀ k < 15, fval 0 (k + 1) = .fin false (k + 1) (-149) false ∧ leNat ((List.range 4).map fun j => scrByte (issuer (sCmp ramp)).tm (0 + (4 * k + j))) = k + 1
        ∧ (k ≠ 0 → fcompare 2 (fval 0 (k - 1 + 1)) (fval 0 (k + 1)) = true))
      ∧ (∀ k < 4, scrByte (issuer (sCmp ramp)).tm (0 + (60 + k)) = 0)
      ∧ (scrByte (issuer (sCmp ramp)).tm 64).toInt = -8 ∧ (scrByte (issuer (sCmp ramp)).tm 79).toInt = 8)
    ∧ (isClear formRquota (encM 1 0 1 0 0) (sQuota 0 4) = true ∧ (uni formRquota (encM 1 0 1 0 0) (sQuota 0 4)).b = 0)
    ∧ (isClear formTkill enc0 (sKill 0) = true
      ∧ (findTask (sKill 0) 0 1).map (fun k => (k.st, k.fate)) = some (.released, none)) := by decide +kernel

end Sys2Proof.Tests
end

