-- ==== Sys2Proof/Tests/Witness9.lean ====
section
/-!
SUPPORT. For the statements about fills, converted writes, record formats, hold chains and versions: states and operands that meet
their hypotheses.
-/

namespace Sys2Proof.Tests

open Machine

set_option Elab.async false

/-! Fills: one group for each wait, one lane each, parked at an LDS of granule 0 under `.full` (8) or `.take` (16). -/

def sParked (ws : List Nat) : State :=
  let code := fun w => encodeBytes (.lds (eWait w))
  { withTask (placeCode State.reset (ws.flatMap code)) (fun t => { t with hdr := some { t.header with clen := 32 } }) with
    groups := (List.range ws.length).map fun k => (k, { placeGroup with
      w1 := k, splits := [{ Split.empty with active := 1, pc := BitVec.ofNat 32 (k * (code 8).length), park := .before [] false }] }) }
def marked (ws : List Nat) : State := markFull (sParked ws) 0 [0]
/-- The parked split of a group, and what its wait has seen. -/
def waiter (k : Nat) : Nat × Nat × SMap Byte := (k, 0, [])
/-- The granules that the wait takes, where it is satisfied. -/
def takes (s : State) (k : Nat) : Option (List Nat) := match parkedWait s (waiter k) with | .ready _ gs => some gs | _ => none
def seen (s : State) (k : Nat) : SMap Byte := match parkedWait s (waiter k) with | .ready got _ => got | _ => []
def granted (s t : State) (k : Nat) : State := setPark t k 0 (seen s k) true
theorem witness_Fills_none : mhas (sParked []).teams 0 = true ∧ [0] ≠ [] ∧ parkedOf (marked []) 0 = [] := by decide +kernel
theorem witness_Fills_wait : parkedOf (marked [8]) 0 = [waiter 0] ∧ takes (marked [8]) 0 = some []
    ∧ parkedOf (granted (marked [8]) (marked [8]) 0) 0 = [] := by decide +kernel
theorem witness_Fills_take : parkedOf (marked [16]) 0 = [waiter 0]
    ∧ takes (marked [16]) 0 = some [0]
    ∧ parkedOf (markEmpty (granted (marked [16]) (marked [16]) 0) 0 [0]) 0 = [] := by decide +kernel
theorem witness_Fills_both :
    let m := marked [8, 16]
    let m1 := granted m m 0
    parkedOf m 0 = [waiter 0, waiter 1] ∧ takes m 0 = some []
    ∧ takes m1 1 = some [0] ∧ parkedOf m1 0 = [waiter 1]
    ∧ parkedOf (markEmpty (granted m1 m1 1) 0 [0]) 0 = [] := by decide +kernel
/-- The device has chosen, and group `k` has its granule. -/
def chosen (k : Nat) : State :=
  let m := marked [16, 16]
  markEmpty (granted m { m with fresh := m.fresh + 1 } k) 0 [0]
theorem witness_Fills_takes :
    parkedOf (marked [16, 16]) 0 = [waiter 0, waiter 1] ∧ takes (marked [16, 16]) 0 = some [0]
    ∧ takes (marked [16, 16]) 1 = some [0] := by decide +kernel
theorem witness_Fills_chosen : parkedOf (chosen 0) 0 = [waiter 1] ∧ parkedOf (chosen 1) 0 = [waiter 0]
    ∧ takes (chosen 0) 1 = none ∧ takes (chosen 1) 0 = none := by decide +kernel

/-! Converted writes: 2-byte elements of MXE4M3 blocks, in memory that is one byte throughout. -/

def mxLeaf : Leaf := { leaf0 with sf := 1, df := 1 }
/-- A write of one BF16 value over its first or last bytes, or over the whole first block. -/
def oneValue (v n : Nat) : List Byte := (List.replicate n (leBytes 2 v)).flatten
/-- Every element of block 0 fits the scale byte `b`, where the first is written with `v`. -/
def fitsAll (b : Byte) (v : Nat) : Bool :=
  (List.range 32).all fun j => mxFits (sfCode 1) ((b.toNat : Int) - 127) (if j = 0 then fval 3 v else mxValue (sfCode 1) b.toNat b.toNat)
theorem witness_ConvertedWrites : mxLeaf.df ∈ [1, 2, 3] ∧ mxLeaf.sf ∈ [1, 2, 3, 5] ∧ { leaf0 with sf := 4, df := 3 }.sf = 4
    ∧ (62 / 2 / 32 = 0 ∧ (62 + (oneValue 0x3F80 1).length - 1) / 2 / 32 = 0)
    ∧ (0 / 2 / 32 = 0 ∧ (0 + (oneValue 0x3F80 32).length - 1) / 2 / 32 = 0 ∧ ∀ j < 32, ∃ k < 2, 0 ≤ j * 2 + k ∧ j * 2 + k < 64)
    ∧ (fitsAll 120 0x3F80 = true ∧ fitsAll 120 0x7F00 = false) := by decide +kernel

/-! Records at the end of scratchpad. -/

def sRecords (ad : Nat) (bs : List Byte) : Team := { placeTeam with scr := (rangeFrom ad bs.length).zip bs }
def lies (ad : Nat) (bs : List Byte) : Bool :=
  decide (ad + bs.length ≤ (sRecords ad bs).scrsize) && (List.range bs.length).all fun k => scrByte (sRecords ad bs) (ad + k) == bs.getD k 0
/-- Absent, then 0, then a value, in turn. -/
def someValues : List (Option Nat) := (List.range 32).map fun l => if l % 3 = 0 then none else if l % 3 = 1 then some 0 else some (2 ^ 32 - l)
def recordOf (kind ef scf : Nat) : List Byte := (encRecords RCtx.atomic kind ef scf [someValues] 7 []).1
theorem witness_RecordFormats : someValues.length = 32 ∧ (someValues.all fun x => decide (x.getD 0 < 2 ^ 32)) = true ∧ 7 < 2 ^ 32
    ∧ (∀ es ∈ [2, 4], lies (4096 - (bmapBytes es someValues).length) (bmapBytes es someValues) = true)
    ∧ lies (4096 - (dvarBytes 7 someValues).1.length) (dvarBytes 7 someValues).1 = true
    ∧ (∀ ef ∈ [4, 8], lies (4096 - (recordOf 2 ef 0).length) (recordOf 2 ef 0) = true)
    ∧ (RCtx.atomic.mode ≠ 5 ∧ ∀ scf ∈ [1, 3], lies (4096 - (recordOf 3 0 scf).length) (recordOf 3 0 scf) = true)
    ∧ (4096 - 5 + 5 ≤ placeTeam.scrsize
      ∧ (List.range 4).all (fun k => decide (128 ≤ (scrByte (sRecords 4091 [255, 255, 255, 255, 16]) (4091 + k)).toNat)) = true
      ∧ 16 ≤ (scrByte (sRecords 4091 [255, 255, 255, 255, 16]) (4091 + 4)).toNat)
    ∧ (dcdRecords placeTeam (fun x => some (scrByte placeTeam x)) 1 0 0 0 2 0 7).toOption.map (·.2) = some 64 := by decide +kernel

/-! Hold chains: the first member, a later one, and one without writeback. -/

def holding (nwb : Bool) : Enc := let e := encM 4 1 2 0 0; { e with ctl := { e.ctl with hold := true, nwb } }
def inChain (s : State) : State := withSplit s fun x => { x with chain := 1 }
theorem witness_HoldChains : ∀ nwb ∈ [false, true],
    isClear formIadd (holding nwb) (atI (.iadd (holding nwb))) = true ∧ isClear formIadd (holding nwb) (inChain (atI (.iadd (holding nwb)))) = true := by
  decide +kernel
/-- The first member of a chain, on the operands given. -/
def member (d a b : Nat) (md : Nat := 0) : Enc := let e := encM d a b 0 md; { e with ctl := { e.ctl with hold := true } }
theorem witness_HoldChains_forms : ∀ i ∈ ([.iadd (member 4 1 2), .isub (member 4 1 2), .imin (member 4 1 2), .shl (member 4 1 2),
      .popc (member 4 1 0), .sel (member 4 1 2), .mov (member 4 0 2), .fadd (member 4 1 2), .fmul (member 4 1 2), .ffma (member 4 1 2),
      .fmin (member 4 1 2), .sadd (member 4 1 2), .smin (member 4 1 2), .smov (member 4 0 2), .sffma (member 4 1 2),
      .icmp (member 1 1 2 0x20), .fcmp (member 1 1 2), .imul (member 4 1 2), .iadd64 (member 4 0 2), .smul (member 4 1 2),
      .redux (member 4 1 0), .frcp (member 4 1 0), .nop (member 0 0 0)] : List Instr), clearHere i = true := by
  decide +kernel

/-! Versions: a versioned task whose card has one VERR region, the 64-byte unit 0x40. -/

def sVersion (ver : SMap (Byte × Nat)) : State :=
  modPart (withTask (atI (.nop enc0)) fun t =>
    { t with card := { t.card with ver := true, regions := [{ writer with base := 0x40, len := 1, verr := true }] }, ver }) 0
    fun q => { q with vquota := 4 }
theorem witness_Versions :
    let s := sVersion []
    Calm s ∧ ((getPart s 0).window.filter fun x => x.tid == 1) = [taskIn s] ∧ (taskIn s).card.ver = true
    ∧ leaf0.sf = 0 ∧ leaf0.domain = false ∧ leaf0.key = 0 ∧ leaf0.gr < 3
    ∧ (0x1000 / 64 = (0x1000 + 64 - 1) / 64 ∧ verRegions (taskIn s) 0x1000 64 = [0] ∧ (taskIn s).settled = []
      ∧ versionLines s 0 + 2 ≤ (getPart s 0).vquota + (getPart s 0).vloglen)
    ∧ (0x1040 / 64 = (0x1040 + 64 - 1) / 64 ∧ verRegions (taskIn s) 0x1040 64 = []) := by decide +kernel
theorem witness_Versions_commit :
    let s := sVersion [(0x1000, (7, 0)), (2 ^ 60 - 1, (9, 0))]
    Calm s ∧ ((getPart s 0).window.filter fun x => x.tid == 1) = [taskIn s] ∧ (mkeys (taskIn s).ver).Nodup
    ∧ ∀ e ∈ (taskIn s).ver, e.1 < 2 ^ 60 ∧ e.2.2 = 0 := by decide +kernel

/-! Slots that are not bound, images that SETCMP refuses, formats that are no formats, rows that merge alike, and waits that end. -/

theorem witness_Chains_unbound : isClear formCqadv enc0 (atI (.cqadv enc0)) = true ∧ going formCqadv enc0 (atI (.cqadv enc0))
    ∧ mfind (issuer (atI (.cqadv enc0))).tm.chains (enc0.M 8 8) = none ∧ (issuer (atI (.cqadv enc0))).g.ops = [] := by decide +kernel
/-- An image whose first bad byte is the second breakpoint, a byte of word 15, or the last slope exponent. -/
theorem witness_CompandTables_bad : ∀ x ∈ [(4, 0), (63, 1), (79, 9)],
    isClear formSetcmp eCmp (sCmp (mset ramp x.1 (BitVec.ofNat 8 x.2))) = true
    ∧ imageFault ((List.range 80).map fun k => scrByte (issuer (sCmp (mset ramp x.1 (BitVec.ofNat 8 x.2)))).tm k) = some x.1 := by
  decide +kernel
/-- fmt with bit 22 set, under a true guard and under a false one. -/
def eFmt (e : Enc) : State := withRegs (atI (.setfmt e)) [(sKey 0, BitVec.ofNat 32 (2 ^ 22))]
theorem witness_FormatState_bad : ∀ e ∈ [enc0, guarded enc0], isClear formSetfmt e (eFmt e) = true
    ∧ (BitVec.ofNat 32 (uni formSetfmt e (eFmt e)).b).toNat / 2 ^ 22 = 1 := by decide +kernel
/-- Two copies, and two rows of index 3. -/
def mergeCmd : List Word := cmd (4 * 2 ^ 28 + 3 * 2 ^ 23 + 2 ^ 13 + 0x4000) 1024 4 4 0 256 16 16 512 0 2
def runAlike : RunCmd := { run0 mergeCmd with index := [(0, 4), (1, 4), (2, 1), (3, 0)] }
theorem witness_UmberRows_alike : (ucmd mergeCmd).op = 4 ∧ (ucmd mergeCmd).pln = false ∧ (ucmd mergeCmd).w38 = 2
    ∧ runAlike.alike (ucmd mergeCmd) 0 = [0, 1]
    ∧ (umRead (sUmberRun runAlike) (umberAcc (sUmberRun runAlike) 0 0 1) true (umAddr (runAlike.dest (ucmd mergeCmd) 0)) 16).isOk = true := by
  decide +kernel
/-- A fault record waits of an access that is tried again. -/
def heldFetch : HeldAcc := { held0 with who := .fetch 0 0, recorded := false }
theorem witness_FaultBuffer_served : (getPart (withHeld (atI (.nop enc0)) heldFetch 7 0) 0).held[0]? = some heldFetch
    ∧ heldFetch.recorded = false ∧ heldFetch.gen = (getPart (withHeld (atI (.nop enc0)) heldFetch 7 0) 0).fbgen := by decide +kernel
/-- An input has been overtaken. -/
theorem witness_StepRuns_late : ({ sInput with late := 1 } : State).late ≠ 0 ∧ ({ sInput with late := 1 } : State).agenda = .correctableError :: [] :=
  ⟨by decide, rfl⟩

end Sys2Proof.Tests
end

section
/-!
O58. What every step keeps of the two memories and of the health register. A state's vital parts are the two memories and the
three health fields with a width; `InOrder b v` says that what was in order in `b` is in order in `v`. One relation for all of
them, so that each operation of the model is looked at once: this section gives the relation and its rules.
-/

namespace Sys2Proof.Machine

/-- The parts of the state that the invariants of every step speak of: the two memories, and the fields of the health register
that R406 and R408 bound. -/
structure Vitals where
  mem      : Memory
  host     : Memory
  cec      : Nat
  throttle : Nat
  temp     : Nat

/-- The vital parts of a state. -/
def State.vitals (s : State) : Vitals := ⟨s.mem, s.host, s.mgmt.cec, s.mgmt.throttle, s.mgmt.temp⟩

/-- The fields of the health register have their width (R406, R408). -/
def Vitals.inRange (v : Vitals) : Prop := v.cec ≤ 0x7FFF ∧ v.throttle ≤ 8 ∧ v.temp ≤ 255

/-- What was in order in `b` is in order in `v`. -/
structure InOrder (b v : Vitals) : Prop where
  mem    : Memory.wf b.mem = true → Memory.wf v.mem = true
  host   : Memory.wf b.host = true → Memory.wf v.host = true
  health : b.inRange → v.inRange

/-- Device memory replaced by one in order. -/
theorem InOrder.setMem {was : Vitals} {s : State} {m : Memory} (h : InOrder was s.vitals)
    (hm : Memory.wf s.mem = true → Memory.wf m = true) : InOrder was { s with mem := m }.vitals :=
  ⟨fun w => hm (h.mem w), h.host, h.health⟩

/-- Host memory replaced by one in order. -/
theorem InOrder.setHost {was : Vitals} {s : State} {m : Memory} (h : InOrder was s.vitals)
    (hm : Memory.wf s.host = true → Memory.wf m = true) : InOrder was { s with host := m }.vitals :=
  ⟨h.mem, fun w => hm (h.host w), h.health⟩

/-- Health fields replaced by such that are in range. -/
theorem InOrder.setHealth {was v : Vitals} {cec throttle temp : Nat} (h : InOrder was v)
    (hr : v.inRange → cec ≤ 0x7FFF ∧ throttle ≤ 8 ∧ temp ≤ 255) :
    InOrder was ⟨v.mem, v.host, cec, throttle, temp⟩ :=
  ⟨h.mem, h.host, fun r => hr (h.health r)⟩

/-- Before a step everything is as it was. -/
theorem InOrder.refl (b : Vitals) : InOrder b b := ⟨id, id, id⟩

/-- An answer's next state, where it has one, is in order. -/
def Orderly (b : Vitals) : Res → Prop
  | .next t => InOrder b t.vitals
  | _ => True

/-- A result's state, where it succeeds, is in order. -/
inductive OrderlyOk {ε α : Type} (b : Vitals) (st : α → State) : Except ε α → Prop
  | ok {x : α} (h : InOrder b (st x).vitals) : OrderlyOk b st (.ok x)
  | error {e : ε} : OrderlyOk b st (.error e)

/-- A computation that may fail, and what follows it. -/
theorem OrderlyOk.bind {ε α β : Type} {was : Vitals} {sa : α → State} {sb : β → State} {x : Except ε α}
    {f : α → Except ε β} (hx : OrderlyOk was sa x) (hf : ∀ a, InOrder was (sa a).vitals → OrderlyOk was sb (f a)) :
    OrderlyOk was sb (x >>= f) := by
  cases hx with
  | ok h => exact hf _ h
  | error => exact .error

/-- A list of pairs keeps its canonical form when entries are left out. -/
theorem Memory.wf_filter {m : Memory} (f : Host.Cell → Bool) (h : Memory.wf m = true) : Memory.wf (m.filter f) = true := by
  unfold Memory.wf at h ⊢
  simp only [Bool.and_eq_true, List.all_eq_true] at h ⊢
  obtain ⟨hk, hz⟩ := h
  refine ⟨?_, fun x hx => hz x (List.mem_of_mem_filter hx)⟩
  clear hz
  induction m with
  | nil => rfl
  | cons x r ih =>
    obtain ⟨h1, h2⟩ := (mwf_cons x r).1 hk
    rw [List.filter_cons]
    split
    · exact (mwf_cons _ _).2 ⟨fun y hy => h1 y (List.mem_of_mem_filter hy), ih h2⟩
    · exact ih h2

section
variable (fused caps : Word) (cycle fresh : Nat) (cur : Option (Nat × Nat)) (agenda : List Instr) (late : Nat)
  (mem host : Memory) (remote : SMap Byte) (poison : SMap Poison) (own : SMap OwnGrain) (si : SMap Byte) (scopes : SMap ScopeRec)
  (tlb : List TlbEnt) (cores : SMap Core) (teams : SMap Team) (groups : SMap Group) (parts : SMap Partition) (pools : List Pool)
  (mgmt : Mgmt) (order : Nat)

@[simp] theorem vitals_mk :
    (State.mk fused caps cycle fresh cur agenda late mem host remote poison own si scopes tlb cores teams groups parts pools mgmt
      order).vitals = ⟨mem, host, mgmt.cec, mgmt.throttle, mgmt.temp⟩ := by simp only [State.vitals]
end

@[simp] theorem vitals_eta (s : State) : (⟨s.mem, s.host, s.mgmt.cec, s.mgmt.throttle, s.mgmt.temp⟩ : Vitals) = s.vitals := by
  simp only [State.vitals]

@[simp] theorem vitals_ite (c : Prop) [Decidable c] (s t : State) :
    (if c then s else t).vitals = if c then s.vitals else t.vitals := apply_ite _ _ _ _

@[simp] theorem vitals_snd_ite {α : Type} (c : Prop) [Decidable c] (x y : α × State) :
    (if c then x else y).2.vitals = if c then x.2.vitals else y.2.vitals := apply_ite (fun z : α × State => z.2.vitals) _ _ _

@[simp] theorem orderly_next (b : Vitals) (t : State) : Orderly b (.next t) ↔ InOrder b t.vitals := .rfl

/-- A fold of steps that leave a part of what they carry alone leaves it alone. -/
theorem foldl_keeps {α β γ : Type} (v : β → γ) {f : β → α → β} (h : ∀ a x, v (f a x) = v a) (xs : List α) (a : β) :
    v (xs.foldl f a) = v a := by
  induction xs generalizing a with
  | nil => rfl
  | cons x r ih => rw [List.foldl_cons, ih, h]

/-- A fold of steps that leave the vital parts alone. -/
@[simp] theorem foldl_vitals {α : Type} (f : State → α → State) (h : ∀ s x, (f s x).vitals = s.vitals) (xs : List α) (s : State) :
    (xs.foldl f s).vitals = s.vitals := foldl_keeps State.vitals h xs s

/-- A fold of steps that carry a state along and leave its vital parts alone. -/
@[simp] theorem foldl_snd_vitals {α β : Type} (f : β × State → α → β × State) (h : ∀ a x, (f a x).2.vitals = a.2.vitals)
    (xs : List α) (a : β × State) : (xs.foldl f a).2.vitals = a.2.vitals := foldl_keeps (·.2.vitals) h xs a

/-- A fold of steps that each keep the vital parts in order. -/
theorem foldl_inOrder {α : Type} {b : Vitals} {f : State → α → State}
    (h : ∀ s x, InOrder b s.vitals → InOrder b (f s x).vitals) (xs : List α) {s : State} (hs : InOrder b s.vitals) :
    InOrder b (xs.foldl f s).vitals := by
  induction xs generalizing s with
  | nil => exact hs
  | cons x r ih => exact ih (h s x hs)

/-- A fold of steps that carry a state along and keep its vital parts in order. -/
theorem foldl_snd_inOrder {α β : Type} {b : Vitals} {f : β × State → α → β × State}
    (h : ∀ a x, InOrder b a.2.vitals → InOrder b (f a x).2.vitals) (xs : List α) {a : β × State} (ha : InOrder b a.2.vitals) :
    InOrder b (xs.foldl f a).2.vitals := by
  induction xs generalizing a with
  | nil => exact ha
  | cons x r ih => exact ih (h a x ha)

@[simp] theorem orderlyOk_ok {ε α : Type} (was : Vitals) (st : α → State) (x : α) :
    OrderlyOk was st (.ok x : Except ε α) ↔ InOrder was (st x).vitals :=
  ⟨fun h => by cases h with | ok h => exact h, .ok⟩
@[simp] theorem orderlyOk_error {ε α : Type} (was : Vitals) (st : α → State) (e : ε) :
    OrderlyOk was st (.error e : Except ε α) ↔ True :=
  ⟨fun _ => trivial, fun _ => .error⟩

end Sys2Proof.Machine
end

section
/-!
Operations that leave the vital parts alone: one equation each, for `simp`, in the order of the model's files.
-/

namespace Sys2Proof.Machine

/-! ### Operations of Machine/Mem.lean -/

@[simp] theorem modPart_vitals (s : State) (p : Nat) (f : Partition → Partition) : (modPart s p f).vitals = s.vitals := by
  simp [modPart]

@[simp] theorem modCore_vitals (s : State) (n : Nat) (f : Core → Core) : (modCore s n f).vitals = s.vitals := by simp [modCore]

@[simp] theorem choose_vitals (s : State) (n : Nat) : (choose s n).2.vitals = s.vitals := by simp [choose]

@[simp] theorem notePool_vitals (s : State) (a : Nat) : (notePool s a).vitals = s.vitals := by simp [notePool]

@[simp] theorem assignUnits_vitals (s : State) (core : Nat) : (assignUnits s core).vitals = s.vitals := by simp [assignUnits]

@[simp] theorem tlbFill_vitals (s : State) (fresh : Bool) (e : TlbEnt) : (tlbFill s fresh e).vitals = s.vitals := by
  unfold tlbFill
  dsimp only
  (repeat' split) <;> simp

@[simp] theorem translate_vitals (s : State) (p core team va : Nat) : (translate s p core team va).2.vitals = s.vitals := by
  unfold translate
  dsimp only
  split <;> simp

@[simp] theorem countSat_vitals (s : State) (p n : Nat) : (countSat s p n).vitals = s.vitals := by simp [countSat]

/-! ### Operations of Machine/Operands.lean -/

@[simp] theorem modGroup_vitals (s : State) (gid : Nat) (f : Group → Group) : (modGroup s gid f).vitals = s.vitals := by
  simp [modGroup]

@[simp] theorem modSplit_vitals (s : State) (gid k : Nat) (f : Split → Split) : (modSplit s gid k f).vitals = s.vitals := by
  simp [modSplit]

@[simp] theorem modTeam_vitals (s : State) (tm : Nat) (f : Team → Team) : (modTeam s tm f).vitals = s.vitals := by
  simp [modTeam]

@[simp] theorem modTask_vitals (s : State) (p tid : Nat) (f : Task → Task) : (modTask s p tid f).vitals = s.vitals := by
  simp [modTask]

/-! ### Operations of Machine/Ops.lean -/

@[simp] theorem stopGroup_vitals (s : State) (gid : Nat) : (stopGroup s gid).vitals = s.vitals := by simp [stopGroup]

@[simp] theorem stopOne_vitals (s : State) (p tid : Nat) (fate : Fate) : (stopOne s p tid fate).vitals = s.vitals := by
  simp [stopOne]

@[simp] theorem stopAll_vitals (fuel : Nat) (s : State) (p : Nat) (work : List (Nat × Fate)) :
    (stopAll fuel s p work).vitals = s.vitals := by
  induction fuel generalizing s work with
  | zero => rfl
  | succ n ih =>
    cases work with
    | nil => rfl
    | cons x rest =>
      unfold stopAll
      split
      · exact ih ..
      · split <;> simp [ih]

@[simp] theorem stopTask_vitals (s : State) (p tid : Nat) (fate : Fate) : (stopTask s p tid fate).vitals = s.vitals := by
  simp [stopTask]

@[simp] theorem reportFault_vitals (s : State) (p : Nat) (t : TrapRec) : (reportFault s p t).vitals = s.vitals := by
  simp [reportFault]

@[simp] theorem trapTask_vitals (s : State) (p tid : Nat) (t : TrapRec) : (trapTask s p tid t).vitals = s.vitals := by
  simp [trapTask]

@[simp] theorem enterHandler_vitals (s : State) (gid k : Nat) (t : TrapRec) (resume : Word) :
    (enterHandler s gid k t resume).vitals = s.vitals := by
  unfold enterHandler
  split <;> simp

@[simp] theorem haltGroup_vitals (s : State) (gid cause : Nat) (pc : Word) : (haltGroup s gid cause pc).vitals = s.vitals := by
  simp [haltGroup]

@[simp] theorem takeTrap_vitals (s : State) (gid k : Nat) (t : TrapRec) (resume : Word) :
    (takeTrap s gid k t resume).vitals = s.vitals := by
  unfold takeTrap
  split <;> simp

@[simp] theorem trapEnc_vitals (s : State) (a : At) (cw ow : Word) (uni : Bool) (code : Nat) :
    (trapEnc s a cw ow uni code).vitals = s.vitals := by
  simp [trapEnc]

@[simp] theorem trapHere_vitals (s : State) (a : At) (t : TrapRec) : (trapHere s a t).vitals = s.vitals := by simp [trapHere]

@[simp] theorem leaveHandler_vitals (s : State) (gid : Nat) : (leaveHandler s gid).vitals = s.vitals := by simp [leaveHandler]

@[simp] theorem book_vitals (s : State) (a : At) (e : Enc) : (book s a e).vitals = s.vitals := by simp [book]

@[simp] theorem claimTrap_vitals (s : State) (a : At) (t : HeldTrap) : (claimTrap s a t).vitals = s.vitals := by
  simp [claimTrap]

@[simp] theorem writeFixed_vitals (s : State) (i : Iss) (ws : List (Nat × Word)) : (writeFixed s i ws).vitals = s.vitals := by
  simp [writeFixed]

@[simp] theorem shiftLatches_vitals (s : State) (i : Iss) (res : SMap Word) : (shiftLatches s i res).vitals = s.vitals := by
  simp [shiftLatches]

@[simp] theorem flagFixed_vitals (s : State) (i : Iss) : (flagFixed s i).vitals = s.vitals := by
  unfold flagFixed
  split <;> simp

@[simp] theorem retire_vitals (s : State) (i : Iss) (regs preds : List (Nat × Word)) (res : SMap Word) :
    (retire s i regs preds res).vitals = s.vitals := by
  simp [retire]

@[simp] theorem raiseInChain_vitals (s : State) (i : Iss) (t : TrapRec) : (raiseInChain s i t).vitals = s.vitals := by
  simp [raiseInChain]

@[simp] theorem retireN_vitals (s : State) (i : Iss) : (retireN s i).vitals = s.vitals := by simp [retireN]

@[simp] theorem outstanding_vitals (s : State) (i : Iss) (ws : List (Nat × Word)) (stage : Stage) (indigo graph : Bool) :
    (outstanding s i ws stage indigo graph).vitals = s.vitals := by
  simp [outstanding]

@[simp] theorem retireV_vitals (s : State) (i : Iss) (ws : List (Nat × Word)) : (retireV s i ws).vitals = s.vitals := by
  simp [retireV]

@[simp] theorem faultV_vitals (s : State) (i : Iss) (t : TrapRec) : (faultV s i t).vitals = s.vitals := by simp [faultV]

@[simp] theorem setLg_vitals (s : State) (gid lane : Nat) (x : Dword) : (setLg s gid lane x).vitals = s.vitals := by
  simp [setLg]

@[simp] theorem laneEffect_vitals (fn : State → Iss → LaneIn → LaneOut) (i : Iss) (s : State) :
    (laneEffect fn i s).vitals = s.vitals := by
  simp [laneEffect]

@[simp] theorem uniEffect_vitals (fn : State → Iss → LaneIn → LaneOut) (i : Iss) (s : State) :
    (uniEffect fn i s).vitals = s.vitals := by
  simp [uniEffect]

/-! ### Operations of Machine/Splits.lean -/

@[simp] theorem diverge_vitals (s : State) (gid k : Nat) (taken target : Word) :
    (diverge s gid k taken target).vitals = s.vitals := by
  simp [diverge]

@[simp] theorem reachRejoin_vitals (s : State) (gid k : Nat) : (reachRejoin s gid k).vitals = s.vitals := by simp [reachRejoin]

@[simp] theorem exitLanes_vitals (s : State) (gid k : Nat) (lanes : Word) : (exitLanes s gid k lanes).vitals = s.vitals := by
  unfold exitLanes
  dsimp only
  (repeat' split) <;> simp

/-! ### Operations of Machine/Ctl.lean -/

@[simp] theorem jumpTo_vitals (s : State) (i : Iss) (target : Word) : (jumpTo s i target).vitals = s.vitals := by simp [jumpTo]

@[simp] theorem braEffect_vitals (i : Iss) (s : State) : (braEffect i s).vitals = s.vitals := by simp [braEffect]

@[simp] theorem brlEffect_vitals (i : Iss) (s : State) : (brlEffect i s).vitals = s.vitals := by simp [brlEffect]

@[simp] theorem brxDiverge_vitals (s : State) (i : Iss) (ts : List (Nat × Word)) (ds : List Nat) :
    (brxDiverge s i ts ds).vitals = s.vitals := by
  fun_induction brxDiverge s i ts ds <;> simp [*]

@[simp] theorem brxEffect_vitals (i : Iss) (s : State) : (brxEffect i s).vitals = s.vitals := by simp [brxEffect]

@[simp] theorem rjnEffect_vitals (i : Iss) (s : State) : (rjnEffect i s).vitals = s.vitals := by simp [rjnEffect]

@[simp] theorem retireS_vitals (s : State) (i : Iss) (r : Nat) (v : Word) : (retireS s i r v).vitals = s.vitals := by
  simp [retireS]

@[simp] theorem callEffect_vitals (i : Iss) (s : State) : (callEffect i s).vitals = s.vitals := by simp [callEffect]

@[simp] theorem retEffect_vitals (i : Iss) (s : State) : (retEffect i s).vitals = s.vitals := by simp [retEffect]

@[simp] theorem loopnEffect_vitals (i : Iss) (s : State) : (loopnEffect i s).vitals = s.vitals := by simp [loopnEffect]

@[simp] theorem exitEffect_vitals (i : Iss) (s : State) : (exitEffect i s).vitals = s.vitals := by simp [exitEffect]

/-! ### Operations of Machine/Fp.lean -/

@[simp] theorem laneEffectV_vitals (fn : State → Iss → LaneIn → LaneOut) (i : Iss) (s : State) :
    (laneEffectV fn i s).vitals = s.vitals := by
  simp [laneEffectV]

/-! ### Operations of Machine/Access.lean -/

@[simp] theorem strikeTask_vitals (s : State) (p tid : Nat) (t : TrapRec) : (strikeTask s p tid t).vitals = s.vitals := by
  fun_cases strikeTask s p tid t <;> simp_all

@[simp] theorem strikePoison_vitals (s : State) (c : Acc) (addrs : List Nat) : (strikePoison s c addrs).vitals = s.vitals := by
  unfold strikePoison
  split <;> simp

@[simp] theorem strikeWalk_vitals (s : State) (c : Acc) (va : Nat) : (strikeWalk s c va).vitals = s.vitals := by
  simp [strikeWalk]

@[simp] theorem checkAcc_vitals (s : State) (c : Acc) (k : AccKind) (lane va n : Nat) (fmtOk : Leaf → Bool) :
    (checkAcc s c k lane va n fmtOk).2.vitals = s.vitals := by
  unfold checkAcc
  dsimp only
  (repeat' split) <;> simp

@[simp] theorem checkLanes_vitals (s : State) (c : Acc) (k : AccKind) (fmtOk : Leaf → Bool) (xs : List (Nat × Nat × Nat)) :
    (checkLanes s c k fmtOk xs).2.vitals = s.vitals := by
  induction xs generalizing s with
  | nil => rfl
  | cons x rest ih =>
    unfold checkLanes
    dsimp only
    split
    · simp
    · split <;> simp [ih]

@[simp] theorem sendTo_vitals (s : State) (dev addr : Nat) (kind : FlitKind) (data : List Byte) :
    (sendTo s dev addr kind data).vitals = s.vitals := by
  unfold sendTo
  dsimp only
  split <;> simp

@[simp] theorem sendFlit_vitals (s : State) (addr : Nat) (kind : FlitKind) (data : List Byte) :
    (sendFlit s addr kind data).vitals = s.vitals := by
  simp [sendFlit]

@[simp] theorem dropSectors_vitals (s : State) (hit : Nat → Bool) : (dropSectors s hit).vitals = s.vitals := by
  simp [dropSectors]

@[simp] theorem dropViews_vitals (s : State) (l : Leaf) (phys : List Nat) : (dropViews s l phys).vitals = s.vitals := by
  simp [dropViews]

@[simp] theorem dropBlocks_vitals (s : State) (addrs : List Nat) : (dropBlocks s addrs).vitals = s.vitals := by
  simp [dropBlocks]

@[simp] theorem dropOther_vitals (s : State) (core : Nat) (l : Leaf) (off n : Nat) :
    (dropOther s core l off n).vitals = s.vitals := by
  simp [dropOther]

@[simp] theorem dropSi_vitals (s : State) (core : Nat) : (dropSi s core).vitals = s.vitals := by simp [dropSi]

@[simp] theorem siRead_vitals (s : State) (core : Nat) (ver : SMap (Byte × Nat)) (l : Leaf) (off n : Nat) :
    (siRead s core ver l off n).2.vitals = s.vitals := by
  simp [siRead]

@[simp] theorem siPass_vitals (s : State) (core : Nat) (l : Leaf) (off n : Nat) :
    (siPass s core l off n).vitals = s.vitals := by
  simp [siPass]

@[simp] theorem siWrite_vitals (s0 : State) (core : Nat) (l : Leaf) (off : Nat) (bs : List Byte) (phys : List Nat) :
    (siWrite s0 core l off bs phys).vitals = s0.vitals := by
  simp [siWrite]

@[simp] theorem clearPoison_vitals (s : State) (addrs : List Nat) : (clearPoison s addrs).vitals = s.vitals := by
  simp [clearPoison]

@[simp] theorem versionWrite_vitals (s : State) (p tid : Nat) (lines : List Nat) (ws : List (Nat × Byte × Nat)) :
    (versionWrite s p tid lines ws).vitals = s.vitals := by
  simp [versionWrite]

@[simp] theorem noteCode_vitals (s : State) (p : Nat) (phys : List Nat) : (noteCode s p phys).vitals = s.vitals := by
  simp [noteCode]

@[simp] theorem adoptPages_vitals (s : State) (p : Nat) : (adoptPages s p).vitals = s.vitals := by simp [adoptPages]

@[simp] theorem taintTask_vitals (s : State) (c : Acc) : (taintTask s c).vitals = s.vitals := by simp [taintTask]

@[simp] theorem recordScope_vitals (s : State) (c : Acc) (scope : Nat) (lines : List Nat) :
    (recordScope s c scope lines).vitals = s.vitals := by
  simp [recordScope]

@[simp] theorem hearRecs_vitals (s : State) (gid : Nat) (rs : List ScopeRec) : (hearRecs s gid rs).vitals = s.vitals := by
  simp [hearRecs]

@[simp] theorem notePlain_vitals (s : State) (c : Acc) (lanes lines : List Nat) :
    (notePlain s c lanes lines).vitals = s.vitals := by
  fun_cases notePlain s c lanes lines <;> simp_all

@[simp] theorem noteRelease_vitals (s : State) (c : Acc) (scope : Nat) (lines : List Nat) :
    (noteRelease s c scope lines).vitals = s.vitals := by
  unfold noteRelease
  split <;> simp

@[simp] theorem acquire_vitals (s : State) (gid core scope : Nat) : (acquire s gid core scope).vitals = s.vitals := by
  simp [acquire]

@[simp] theorem hearWhere_vitals (s : State) (gid : Nat) (hit : ScopeRec → Bool) : (hearWhere s gid hit).vitals = s.vitals := by
  simp [hearWhere]

@[simp] theorem hearAround_vitals (s : State) (gid : Nat) (grid : Bool) : (hearAround s gid grid).vitals = s.vitals := by
  simp [hearAround]

@[simp] theorem acquireAround_vitals (s : State) (gid core scope : Nat) :
    (acquireAround s gid core scope).vitals = s.vitals := by
  simp [acquireAround]

@[simp] theorem hearLine_vitals (s : State) (c : Acc) (scope line : Nat) : (hearLine s c scope line).vitals = s.vitals := by
  unfold hearLine
  split <;> simp

@[simp] theorem noteReads_vitals (s : State) (c : Acc) (xs : List (Nat × Nat × Nat)) :
    (noteReads s c xs).vitals = s.vitals := by
  unfold noteReads
  split <;> simp

@[simp] theorem readCheck_vitals (s : State) (c : Acc) (scope : Nat) (lanes : List Nat) :
    (readCheck s c scope lanes).2.vitals = s.vitals := by
  unfold readCheck
  split <;> simp

@[simp] theorem addHeld_vitals (s : State) (c : Acc) (who : HeldBy) (write : Bool) (source : Nat) (vas : List Nat) :
    (addHeld s c who write source vas).vitals = s.vitals := by
  simp [addHeld]

@[simp] theorem dropHeld_vitals (s : State) (p : Nat) (who : HeldBy) : (dropHeld s p who).vitals = s.vitals := by
  simp [dropHeld]

@[simp] theorem pickWinners_vitals {α : Type} (fuel : Nat) (s : State) (xs : List (Nat × α)) :
    (pickWinners fuel s xs).2.vitals = s.vitals := by
  induction fuel generalizing s xs with
  | zero => rfl
  | succ n ih => cases xs <;> simp [pickWinners, ih]

@[simp] theorem setStage_vitals (s : State) (gid op : Nat) (st : Stage) : (setStage s gid op st).vitals = s.vitals := by
  simp [setStage]

@[simp] theorem settle_vitals (s : State) (i : Iss) (instr : Instr) (cap : Capture) (graph : Bool) (p : Perf) :
    (settle s i instr cap graph p).vitals = s.vitals := by
  unfold settle
  split <;> simp

@[simp] theorem settleReplay_vitals (s : State) (c : Acc) (gid op : Nat) (p : Perf) :
    (settleReplay s c gid op p).vitals = s.vitals := by
  unfold settleReplay
  split <;> simp

/-! ### Operations of Machine/Range.lean -/

@[simp] theorem rangeCheck_vitals (s : State) (c : Acc) (k : AccKind) (source : Nat) (fmtOk : Leaf → Bool) (ps : List (Nat × Nat)) :
    (rangeCheck s c k source fmtOk ps).2.vitals = s.vitals := by
  induction ps generalizing s with
  | nil => rfl
  | cons p rest ih =>
    unfold rangeCheck
    dsimp only
    split
    · simp
    · simp
    · split <;> simp [ih]

/-! ### Operations of Machine/Scratch.lean -/

@[simp] theorem scrWrite_vitals (s : State) (tk a : Nat) (bs : List Byte) : (scrWrite s tk a bs).vitals = s.vitals := by
  simp [scrWrite]

@[simp] theorem markFull_vitals (s : State) (tk : Nat) (gs : List Nat) : (markFull s tk gs).vitals = s.vitals := by
  simp [markFull]

@[simp] theorem markEmpty_vitals (s : State) (tk : Nat) (gs : List Nat) : (markEmpty s tk gs).vitals = s.vitals := by
  simp [markEmpty]

/-! ### Operations of Machine/Waits.lean -/

@[simp] theorem setPark_vitals (s : State) (gid k : Nat) (got : SMap Byte) (granted : Bool) :
    (setPark s gid k got granted).vitals = s.vitals := by simp [setPark]

@[simp] theorem grantWaits_vitals (s : State) (tk : Nat) : (grantWaits s tk).vitals = s.vitals := by
  refine foldl_vitals _ (fun s x => ?_) _ s
  split <;> simp

@[simp] theorem grantTakes_vitals (fuel : Nat) (s : State) (tk : Nat) :
    (grantTakes fuel s tk).vitals = s.vitals := by
  induction fuel generalizing s with
  | zero => rfl
  | succ n ih =>
    unfold grantTakes
    dsimp only
    split <;> simp [ih]

@[simp] theorem fill_vitals (s : State) (tk : Nat) (gs : List Nat) : (fill s tk gs).vitals = s.vitals := by simp [fill]

@[simp] theorem unpark_vitals (s : State) (i : Iss) : (unpark s i).vitals = s.vitals := by simp [unpark]

/-! ### Operations of Machine/Matrix.lean -/

@[simp] theorem mmaEffect_vitals (mmac : Bool) (got : SMap Byte) (i : Iss) (s : State) :
    (mmaEffect mmac got i s).vitals = s.vitals := by
  unfold mmaEffect
  dsimp only
  (repeat' split) <;> simp

@[simp] theorem performMma_vitals (s : State) (gid : Nat) (o : Op) (i : Instr) (cap : Capture) :
    (performMma s gid o i cap).vitals = s.vitals := by
  unfold performMma
  dsimp only
  (repeat' split) <;> simp

@[simp] theorem plnstEffect_vitals (i : Iss) (s : State) : (plnstEffect i s).vitals = s.vitals := by
  unfold plnstEffect
  dsimp only
  (repeat' split) <;> simp

@[simp] theorem mdrnCapture_vitals (s : State) (i : Iss) : (mdrnCapture s i).2.vitals = s.vitals := by simp [mdrnCapture]

@[simp] theorem shuffle_vitals {α : Type} (fuel : Nat) (s : State) (xs : List α) : (shuffle fuel s xs).2.vitals = s.vitals := by
  induction fuel generalizing s xs with
  | zero => rfl
  | succ n ih =>
    unfold shuffle
    dsimp only
    split <;> simp [ih]

@[simp] theorem mdrnScratch_vitals (s : State) (c : Acc) (e : Enc) (cap : Capture) :
    (mdrnScratch s c e cap).2.vitals = s.vitals := by
  simp [mdrnScratch]

@[simp] theorem mdrnCheck_vitals (s : State) (c : Acc) (e : Enc) (cap : Capture) :
    (mdrnCheck s c e cap).2.vitals = s.vitals := by
  unfold mdrnCheck
  dsimp only
  split <;> simp

/-! ### Operations of Machine/LdSt.lean -/

@[simp] theorem gatherAccs_vitals (s : State) (c : Acc) (k : AccKind) (fmtOk : Leaf → Bool) (res : Nat) (xs : List
    (Nat × Nat × Nat)) :
    (gatherAccs s c k fmtOk res xs).2.vitals = s.vitals := by
  unfold gatherAccs
  dsimp only
  split <;> simp

@[simp] theorem acquireRead_vitals (s : State) (c : Acc) (acq : Bool) (scope : Nat) (l : Leaf) (va : Nat) :
    (acquireRead s c acq scope l va).2.vitals = s.vitals := by
  unfold acquireRead
  split <;> simp

@[simp] theorem finishAccs_vitals (s : State) (c : Acc) (uni : Bool) (cap : Capture) (acq rel : Bool) (scope : Nat)
    (r : LaneRun) :
    (finishAccs s c uni cap acq rel scope r).vitals = s.vitals := by
  unfold finishAccs
  dsimp only
  split <;> simp

@[simp] theorem otEntry_vitals (s : State) (p h : Nat) : (otEntry s p h).2.vitals = s.vitals := by
  unfold otEntry
  dsimp only
  split <;> simp

@[simp] theorem otRead_vitals (s : State) (c : Acc) (h : Nat) : (otRead s c h).2.vitals = s.vitals := by
  unfold otRead
  dsimp only
  split <;> simp

@[simp] theorem tensorLane_vitals (s : State) (c : Acc) (st : Bool) (n : Nat) (cap : Capture) (lane : Nat) :
    (tensorLane s c st n cap lane).2.vitals = s.vitals := by
  unfold tensorLane
  dsimp only
  split <;> simp

@[simp] theorem tensorLanes_vitals (s : State) (c : Acc) (st : Bool) (n : Nat) (cap : Capture) (ls : List Nat) :
    (tensorLanes s c st n cap ls).2.vitals = s.vitals := by
  induction ls generalizing s with
  | nil => rfl
  | cons l rest ih =>
    unfold tensorLanes
    dsimp only
    split
    · simp
    · split
      · simp
      · split <;> simp [ih]

@[simp] theorem tensorCheckAll_vitals (st : Bool) (s : State) (c : Acc) (e : Enc) (cap : Capture) :
    (tensorCheckAll st s c e cap).2.vitals = s.vitals := by
  unfold tensorCheckAll
  dsimp only
  split <;> simp

@[simp] theorem ldsPerform_vitals (uni : Bool) (got : SMap Byte) (s : State) (c : Acc) (e : Enc) (cap : Capture) :
    (ldsPerform uni got s c e cap).2.vitals = s.vitals := by
  unfold ldsPerform
  dsimp only
  (repeat' split) <;> simp

@[simp] theorem stsPerform_vitals (uni : Bool) (s : State) (c : Acc) (e : Enc) (cap : Capture) :
    (stsPerform uni s c e cap).2.vitals = s.vitals := by
  simp [stsPerform]

@[simp] theorem atomsPerform_vitals (s : State) (c : Acc) (e : Enc) (cap : Capture) :
    (atomsPerform s c e cap).2.vitals = s.vitals := by
  unfold atomsPerform
  dsimp only
  split <;> simp <;>
    exact foldl_keeps (fun a : List (Nat × Word) × Bool × State => a.2.2.vitals) (fun a x => by split <;> simp) _ _

@[simp] theorem checkPlain_vitals (s : State) (c : Acc) (k : AccKind) (fmtOk : Leaf → Bool) (res n : Nat) (cap : Capture) :
    (checkPlain s c k fmtOk res n cap).2.vitals = s.vitals := by
  unfold checkPlain
  dsimp only
  split <;> simp

@[simp] theorem checkScr_vitals (s : State) (t : Option TrapRec) (cap : Capture) : (checkScr s t cap).2.vitals = s.vitals := by
  unfold checkScr
  split <;> simp

@[simp] theorem checkMem_vitals (s : State) (c : Acc) (i : Instr) (cap : Capture) :
    (checkMem s c i cap).2.vitals = s.vitals := by
  unfold checkMem
  dsimp only
  (repeat' split) <;> simp

@[simp] theorem resqEffect_vitals (i : Iss) (s : State) : (resqEffect i s).vitals = s.vitals := by
  unfold resqEffect
  dsimp only
  split <;> simp

@[simp] theorem oinfoEffect_vitals (i : Iss) (s : State) : (oinfoEffect i s).vitals = s.vitals := by
  unfold oinfoEffect
  dsimp only
  (repeat' split) <;> simp

/-! ### Operations of Machine/Slate.lean -/

@[simp] theorem recapture_vitals (s : State) (gid op : Nat) (i : Instr) (cap : Capture) :
    (recapture s gid op i cap).vitals = s.vitals := by
  simp [recapture]

/-! ### Operations of Machine/Graph.lean -/

@[simp] theorem tearPools_vitals (s : State) (p : Nat) (g : GEntry) : (tearPools s p g).vitals = s.vitals := by simp [tearPools]

@[simp] theorem frontPool_vitals (s : State) (q : Pool) : (frontPool s q).vitals = s.vitals := by simp [frontPool]

@[simp] theorem openPool_renew_vitals (p : Nat) (g : GEntry) (s : State) : (openPool.renew p g s).2.vitals = s.vitals := by
  simp [openPool.renew]

@[simp] theorem openPool_vitals (s0 : State) (p : Nat) (g : GEntry) : (openPool s0 p g).2.vitals = s0.vitals := by
  unfold openPool
  dsimp only
  split
  · simp
  · split <;> simp

@[simp] theorem setList_vitals (s : State) (p pbase n : Nat) (l : GList) : (setList s p pbase n l).vitals = s.vitals := by
  unfold setList
  split <;> simp

@[simp] theorem readList_vitals (s : State) (p : Nat) (g : GEntry) (n : Nat) : (readList s p g n).2.vitals = s.vitals := by
  simp [readList]

@[simp] theorem changeList_vitals (s : State) (p pbase psz n : Nat) (add : Bool) (e : Nat × Nat × Nat) :
    (changeList s p pbase psz n add e).vitals = s.vitals := by
  unfold changeList
  split <;> simp

@[simp] theorem graphCheck_vitals (s : State) (c : Acc) (need : GNeed) (lane h : Nat) (dirIn : Bool) (v : Nat) (vs : List Nat) :
    (graphCheck s c need lane h dirIn v vs).2.vitals = s.vitals := by
  unfold graphCheck
  dsimp only
  split <;> simp

@[simp] theorem setCur_vitals (s : State) (gid lane k : Nat) (c : Cursor) : (setCur s gid lane k c).vitals = s.vitals := by
  simp [setCur]

@[simp] theorem strikePool_vitals (s : State) (c : Acc) (g : GEntry) (lists : List Nat) :
    (strikePool s c g lists).vitals = s.vitals := by
  simp [strikePool]

@[simp] theorem touchPages_vitals (s : State) (c : Acc) (mutate : Bool) (lane : Nat) (pages : List Nat) :
    (touchPages s c mutate lane pages).2.vitals = s.vitals := by
  refine foldl_snd_vitals _ (fun a va => ?_) _ _
  split
  · rfl
  · dsimp only
    split <;> simp

@[simp] theorem poolAccess_vitals (s : State) (c : Acc) (g : GEntry) (mutate : Bool) (lane : Nat) (lists : List Nat) :
    (poolAccess s c g mutate lane lists).2.vitals = s.vitals := by
  simp [poolAccess]

@[simp] theorem graphChecks_vitals (s : State) (c : Acc) (mutate : Bool) (ls : List Nat)
    (chk : State → Nat → Except TrapRec (List (GEntry × List Nat)) × State) (h : ∀ s l, (chk s l).2.vitals = s.vitals) :
    (graphChecks s c mutate ls chk).2.vitals = s.vitals := by
  induction ls generalizing s with
  | nil => rfl
  | cons l rest ih =>
    unfold graphChecks
    dsimp only
    split
    · exact h s l
    · split
      · simp [ih, h]
      · split <;> exact (foldl_snd_vitals _ (fun a g => by split <;> simp) _ _).trans (by simp [ih, h])

@[simp] theorem graphFinish_vitals (s : State) (p : Nat) (todo : List Half) : (graphFinish s p todo).vitals = s.vitals := by
  refine foldl_vitals _ (fun s x => ?_) _ s
  split <;> simp

@[simp] theorem settleHalves_vitals (s : State) (p : Nat) (sel : Option (Nat × Nat) → Half → Bool) :
    (settleHalves s p sel).vitals = s.vitals := by
  simp [settleHalves]

@[simp] theorem graphBoth_vitals (s : State) (p : Nat) (g : GEntry) (add : Bool) (u v ser pay : Nat) :
    (graphBoth s p g add u v ser pay).2.vitals = s.vitals := by
  unfold graphBoth
  dsimp only
  (repeat' split) <;> simp

@[simp] theorem graphAdd_vitals (s : State) (p : Nat) (g : GEntry) (u v pay : Nat) :
    (graphAdd s p g u v pay).2.vitals = s.vitals := by
  simp [graphAdd]

@[simp] theorem gaddLane_vitals (s : State) (c : Acc) (op : OpRef) (e : Enc) (cap : Capture) (g : GEntry) (lane : Nat) :
    (gaddLane s c op e cap g lane).2.vitals = s.vitals := by
  unfold gaddLane
  dsimp only
  (repeat' split) <;> simp

@[simp] theorem gdelLane_vitals (s : State) (c : Acc) (op : OpRef) (e : Enc) (cap : Capture) (g : GEntry) (lane : Nat) :
    (gdelLane s c op e cap g lane).2.vitals = s.vitals := by
  unfold gdelLane
  dsimp only
  (repeat' split) <;> simp

@[simp] theorem greadLane_vitals (s : State) (c : Acc) (i : Instr) (dirIn : Bool) (cap : Capture) (g : GEntry) (lane : Nat) :
    (greadLane s c i dirIn cap g lane).2.vitals = s.vitals := by
  unfold greadLane
  dsimp only
  split <;> simp

@[simp] theorem cnextLane_vitals (s : State) (c : Acc) (gid : Nat) (e : Enc) (g : GEntry) (lane : Nat) :
    (cnextLane s c gid e g lane).2.vitals = s.vitals := by
  unfold cnextLane
  dsimp only
  (repeat' split) <;> simp

@[simp] theorem cseekLane_vitals (s : State) (c : Acc) (gid : Nat) (e : Enc) (cap : Capture) (g : GEntry) (lane : Nat) :
    (cseekLane s c gid e cap g lane).2.vitals = s.vitals := by
  unfold cseekLane
  dsimp only
  split <;> simp

@[simp] theorem gisectLane_vitals (s : State) (c : Acc) (gid : Nat) (e : Enc) (ga gb : GEntry) (lane : Nat) :
    (gisectLane s c gid e ga gb lane).2.vitals = s.vitals := by
  unfold gisectLane
  dsimp only
  split <;> simp

@[simp] theorem handleCheck_vitals (c : Acc) (need : GNeed) (dirIn : Bool) (cap : Capture) (two : Bool)
    (more : State → GEntry → Nat → List Nat) (s : State) (lane : Nat) :
    (handleCheck c need dirIn cap two more s lane).2.vitals = s.vitals := by
  unfold handleCheck
  dsimp only
  split <;> simp

@[simp] theorem cursorCheck_vitals (c : Acc) (gid : Nat) (ks : List Nat) (s : State) (lane : Nat) :
    (cursorCheck c gid ks s lane).2.vitals = s.vitals := by
  unfold cursorCheck
  dsimp only
  split
  · rfl
  · refine foldl_snd_vitals _ (fun a x => ?_) _ _
    split
    · rfl
    · split <;> simp

@[simp] theorem anyCursor_vitals (c : Acc) (gid k : Nat) (s : State) (lane : Nat) :
    (anyCursor c gid k s lane).2.vitals = s.vitals := by
  simp [anyCursor]

@[simp] theorem graphGate_vitals (s : State) (c : Acc) (gid : Nat) (i : Instr) (cap : Capture) :
    (graphGate s c gid i cap).2.vitals = s.vitals := by
  unfold graphGate
  split <;> simp

@[simp] theorem graphLane_vitals (s : State) (c : Acc) (op : OpRef) (i : Instr) (cap : Capture) (l : Nat) :
    (graphLane s c op i cap l).2.vitals = s.vitals := by
  unfold graphLane
  split <;> simp

@[simp] theorem graphNext_vitals (s : State) (c : Acc) (op : OpRef) (rest : List (Instr × Capture)) (ws : List
    (Nat × Word)) (todo : List Half) (t : Option TrapRec) :
    (graphNext s c op rest ws todo t).vitals = s.vitals := by
  simp [graphNext]

@[simp] theorem graphStep_vitals (s : State) (c : Acc) (op : OpRef) (p : Instr × Capture) (rest : List (Instr × Capture)) :
    (graphStep s c op p rest).2.vitals = s.vitals := by
  unfold graphStep
  dsimp only
  split <;> simp

@[simp] theorem graphRun_vitals (s : State) (c : Acc) (op : OpRef) (ps : List (Instr × Capture)) :
    (graphRun s c op ps).vitals = s.vitals := by
  induction ps generalizing s with
  | nil => rfl
  | cons p rest ih => simp [graphRun, ih]

@[simp] theorem performGraph_vitals (s : State) (gid : Nat) (o : Op) : (performGraph s gid o).vitals = s.vitals := by
  unfold performGraph
  dsimp only
  (repeat' split) <;> simp

@[simp] theorem graphEffect_vitals (instr : Instr) (nb nc : Nat) (i : Iss) (s : State) :
    (graphEffect instr nb nc i s).vitals = s.vitals := by
  unfold graphEffect
  dsimp only
  (repeat' split) <;> simp

/-! ### Operations of Machine/Chains.lean -/

@[simp] theorem modChain_vitals (s : State) (tk slot : Nat) (f : Chain → Chain) : (modChain s tk slot f).vitals = s.vitals := by
  simp [modChain]

@[simp] theorem holdPages_vitals (s : State) (c : Acc) (who : HeldBy) (write : Bool) (source : Nat) (vas : List Nat) :
    (holdPages s c who write source vas).vitals = s.vitals := by
  simp [holdPages]

@[simp] theorem performAdvance_vitals (s : State) (gid op slot n : Nat) (loc : Word) :
    (performAdvance s gid op slot n loc).vitals = s.vitals := by
  unfold performAdvance
  dsimp only
  split <;> simp

@[simp] theorem cqwaitEffect_vitals (got : SMap Byte) (i : Iss) (s : State) : (cqwaitEffect got i s).vitals = s.vitals := by
  simp [cqwaitEffect]

@[simp] theorem cqseqEffect_vitals (i : Iss) (s : State) : (cqseqEffect i s).vitals = s.vitals := by simp [cqseqEffect]

/-! ### Operations of Machine/Tasks.lean -/

@[simp] theorem signalMsix_vitals (s : State) (f : Nat) : (signalMsix s f).vitals = s.vitals := by simp [signalMsix]

@[simp] theorem settleRegion_vitals (s : State) (p tid j : Nat) : (settleRegion s p tid j).vitals = s.vitals := by
  simp [settleRegion]

@[simp] theorem releaseTask_vitals (s : State) (p tid : Nat) : (releaseTask s p tid).vitals = s.vitals := by simp [releaseTask]

@[simp] theorem decideTask_vitals (s : State) (p tid : Nat) : (decideTask s p tid).vitals = s.vitals := by simp [decideTask]

@[simp] theorem leaveWindow_vitals (s : State) (p : Nat) (t : Task) : (leaveWindow s p t).vitals = s.vitals := by
  simp [leaveWindow]

/-! ### Operations of Machine/Context.lean -/

@[simp] theorem strikeRecord_vitals (s : State) (gid slot : Nat) : (strikeRecord s gid slot).vitals = s.vitals := by
  simp [strikeRecord]

/-! ### Operations of Machine/Sync.lean -/

@[simp] theorem wakeBars_vitals (s : State) (gid core addr : Nat) (ph : Bool) :
    (wakeBars s gid core addr ph).vitals = s.vitals := by
  simp [wakeBars]

@[simp] theorem wakeWord_vitals (s : State) (tk addr : Nat) : (wakeWord s tk addr).vitals = s.vitals := by simp [wakeWord]

@[simp] theorem barArrive_vitals (s : State) (i : Iss) (addr : Nat) : (barArrive s i addr).2.vitals = s.vitals := by
  simp [barArrive]

@[simp] theorem baraEffect_vitals (i : Iss) (s : State) : (baraEffect i s).vitals = s.vitals := by
  unfold baraEffect
  dsimp only
  (repeat' split) <;> simp

@[simp] theorem barEffect_vitals (i : Iss) (s : State) : (barEffect i s).vitals = s.vitals := by
  unfold barEffect
  dsimp only
  (repeat' split) <;> simp

@[simp] theorem wordEffect_vitals (got : SMap Byte) (i : Iss) (s : State) : (wordEffect got i s).vitals = s.vitals := by
  fun_cases wordEffect got i s <;> simp_all

@[simp] theorem gbarEffect_vitals (i : Iss) (s : State) : (gbarEffect i s).vitals = s.vitals := by simp [gbarEffect]

@[simp] theorem wakeGbar_vitals (s : State) (gid : Nat) : (wakeGbar s gid).vitals = s.vitals := by simp [wakeGbar]

@[simp] theorem wakeParked_vitals (s : State) (gid k : Nat) : (wakeParked s gid k).vitals = s.vitals := by
  fun_cases wakeParked s gid k <;> simp_all

@[simp] theorem fenceEffect_vitals (i : Iss) (s : State) : (fenceEffect i s).vitals = s.vitals := by
  unfold fenceEffect
  dsimp only
  (repeat' split) <;> simp

/-! ### Operations of Machine/Teams.lean -/

@[simp] theorem evictGroup_vitals (s : State) (gid : Nat) : (evictGroup s gid).vitals = s.vitals := by simp [evictGroup]

@[simp] theorem evictFrom_vitals (s : State) (gs : List (Nat × Group)) (need : List (Nat × Nat)) :
    (evictFrom s gs need).vitals = s.vitals := by
  fun_induction evictFrom s gs need <;> simp [*]

@[simp] theorem freeTeam_vitals (s : State) (tk : Nat) : (freeTeam s tk).vitals = s.vitals := by simp [freeTeam]

/-! ### Operations of Machine/Umber.lean -/

@[simp] theorem modRun_vitals (s : State) (tk slot seq : Nat) (f : RunCmd → RunCmd) :
    (modRun s tk slot seq f).vitals = s.vitals := by
  simp [modRun]

@[simp] theorem umberFail_vitals (s : State) (tk slot seq : Nat) (t : TrapRec) :
    (umberFail s tk slot seq t).vitals = s.vitals := by
  simp [umberFail]

@[simp] theorem umberStop_vitals (s : State) (tk slot seq : Nat) (p : Perf) :
    (umberStop s tk slot seq p).vitals = s.vitals := by
  unfold umberStop
  split <;> simp

@[simp] theorem cmdComplete_vitals (s : State) (tk slot seq : Nat) : (cmdComplete s tk slot seq).vitals = s.vitals := by
  simp [cmdComplete]

@[simp] theorem redFree_vitals (fuel : Nat) (s : State) (red ef : Nat) (xs : List Nat) :
    (redFree fuel s red ef xs).2.vitals = s.vitals := by
  induction fuel generalizing s xs with
  | zero => unfold redFree; split <;> simp_all
  | succ n ih => unfold redFree; split <;> simp_all

@[simp] theorem mergeCols_vitals (s : State) (red ef : Nat) (old : List Nat) (srcs : List (List Nat)) (k : Nat) :
    (mergeCols s red ef old srcs k).2.vitals = s.vitals := by
  induction old generalizing s k with
  | nil => rfl
  | cons x rest ih => simp [mergeCols, ih]

/-! ### Operations of Machine/Complete.lean -/

@[simp] theorem endOp_vitals (s : State) (gid : Nat) (o : Op) : (endOp s gid o).vitals = s.vitals := by simp [endOp]

@[simp] theorem holdTrap_vitals (s : State) (gid : Nat) (o : Op) (t : TrapRec) : (holdTrap s gid o t).vitals = s.vitals := by
  simp [holdTrap]

@[simp] theorem completeRquota_vitals (s : State) (gid : Nat) (o : Op) (recv n dest : Nat) :
    (completeRquota s gid o recv n dest).vitals = s.vitals := by
  simp [completeRquota]

@[simp] theorem closeOp_vitals (s : State) (gid op : Nat) : (closeOp s gid op).vitals = s.vitals := by
  fun_cases closeOp s gid op <;> simp_all

@[simp] theorem takeStop_vitals (s : State) (gid k : Nat) : (takeStop s gid k).vitals = s.vitals := by simp [takeStop]

/-! ### Operations of Machine/Cards.lean -/

@[simp] theorem acceptTask_vitals (s : State) (p : Nat) (parent : Option Nat) (card : Card) (hdr : Option Header)
    (bad : Option TrapRec) (refused : Bool) :
    (acceptTask s p parent card hdr bad refused).2.vitals = s.vitals := by
  unfold acceptTask
  dsimp only
  split <;> simp

@[simp] theorem modHc_vitals (s : State) (p h : Nat) (f : HostChain → HostChain) : (modHc s p h f).vitals = s.vitals := by
  simp [modHc]

/-! ### Operations of Machine/Bulk.lean -/

@[simp] theorem bulkAcc_vitals (s : State) (p tid src : Nat) : (bulkAcc s p tid src).2.vitals = s.vitals := by simp [bulkAcc]

@[simp] theorem bulkStop_vitals (s : State) (c : Acc) (f : Perf) : (bulkStop s c f).vitals = s.vitals := by
  unfold bulkStop
  split <;> simp

@[simp] theorem bulkAt_vitals (s : State) (p tid pos : Nat) : (bulkAt s p tid pos).vitals = s.vitals := by simp [bulkAt]

@[simp] theorem bulkGraph_vitals (s : State) (c : Acc) (t : Task) : (bulkGraph s c t).2.vitals = s.vitals := by
  unfold bulkGraph
  dsimp only
  (repeat' split) <;> simp

@[simp] theorem damagedRecord_vitals (s : State) (c : Acc) (t : Task) (g : GEntry) (u v : Nat) :
    (damagedRecord s c t g u v).vitals = s.vitals := by
  unfold damagedRecord
  dsimp only
  split <;> simp

@[simp] theorem buildAdd_vitals (s : State) (c : Acc) (t : Task) (g : GEntry) (u v pay : Nat) :
    (buildAdd s c t g u v pay).vitals = s.vitals := by
  unfold buildAdd
  dsimp only
  (repeat' split) <;> simp

/-! ### Operations of Machine/Coop.lean -/

@[simp] theorem coopEffect_vitals (fn : State → Iss → List Nat → (Nat → LaneIn) → List CoopOut) (i : Iss) (s : State) :
    (coopEffect fn i s).vitals = s.vitals := by
  unfold coopEffect
  dsimp only
  rw [retireV_vitals]
  refine foldl_vitals _ (fun s o => ?_) _ s
  split <;> simp

/-! ### Operations of Machine/Debug.lean -/

@[simp] theorem haltAll_vitals (s : State) (p : Nat) : (haltAll s p).vitals = s.vitals := by simp [haltAll]

@[simp] theorem poisonBlock_vitals (s : State) (dram : Bool) (pa : Nat) : (poisonBlock s dram pa).vitals = s.vitals := by
  simp [poisonBlock]

@[simp] theorem dropOps_vitals (s : State) (p tid : Nat) (t : TrapRec) : (dropOps s p tid t).vitals = s.vitals := by
  simp [dropOps]

/-! ### Operations of Machine/Firmware.lean -/

@[simp] theorem modMgmt_vitals (s : State) (f : Mgmt → Mgmt) :
    (modMgmt s f).vitals = ⟨s.mem, s.host, (f s.mgmt).cec, (f s.mgmt).throttle, (f s.mgmt).temp⟩ := by
  simp only [modMgmt, State.vitals]

@[simp] theorem downDone_vitals (s : State) (d : Shootdown) : (downDone s d).vitals = s.vitals := by simp [downDone]

@[simp] theorem submitDown_vitals (s : State) (addr : Nat) (ctl : Word) : (submitDown s addr ctl).vitals = s.vitals := by
  simp [submitDown]

@[simp] theorem submitMig_vitals (s : State) (d : List Word) : (submitMig s d).vitals = s.vitals := by simp [submitMig]

@[simp] theorem moveLines_vitals (f : Nat → Nat) (s : State) : (moveLines f s).vitals = s.vitals := by simp [moveLines]

@[simp] theorem moveTags_vitals (s0 : State) (lo n dst knew : Nat) : (moveTags s0 lo n dst knew).vitals = s0.vitals := by
  simp [moveTags]

@[simp] theorem movePools_vitals (s : State) (m : Migration) : (movePools s m).vitals = s.vitals := by simp [movePools]

@[simp] theorem moveViews_vitals (s : State) (m : Migration) : (moveViews s m).vitals = s.vitals := by simp [moveViews]

@[simp] theorem sysLines_vitals (s : State) (lines : List Nat) : (sysLines s lines).vitals = s.vitals := by simp [sysLines]

/-! ### Operations of Machine/Resize.lean -/

@[simp] theorem setMasks_vitals (s : State) (x : Nat) (m : Nat × Nat × Nat) : (setMasks s x m).vitals = s.vitals := by
  simp [setMasks]

@[simp] theorem submitResize_vitals (s : State) (d : List Word) : (submitResize s d).vitals = s.vitals := by simp [submitResize]

@[simp] theorem swapIn_vitals (s : State) (x : Nat × Nat × Nat) : (swapIn s x).vitals = s.vitals := by simp [swapIn]

@[simp] theorem swapDue_vitals (s : State) : (swapDue s).vitals = s.vitals := by simp [swapDue]

@[simp] theorem trimDies_vitals (s : State) (p : Nat) : (trimDies s p).vitals = s.vitals := by simp [trimDies]

@[simp] theorem startRehash_vitals (s : State) (r : Resize) : (startRehash s r).2.vitals = s.vitals := by simp [startRehash]

/-! ### Operations of Machine/Regs.lean -/

@[simp] theorem setPctl_vitals (s : State) (p v : Nat) : (setPctl s p v).vitals = s.vitals := by simp [setPctl]

@[simp] theorem spillAll_vitals (fuel : Nat) (s : State) (p : Nat) : (spillAll fuel s p).vitals = s.vitals := by
  induction fuel generalizing s with
  | zero => rfl
  | succ n ih => simp [spillAll, ih]

@[simp] theorem setVquota_vitals (s : State) (p v : Nat) : (setVquota s p v).vitals = s.vitals := by simp [setVquota]

@[simp] theorem setOtinv_vitals (s : State) (p v : Nat) : (setOtinv s p v).vitals = s.vitals := by simp [setOtinv]

@[simp] theorem setDbgctl_vitals (s : State) (p v : Nat) : (setDbgctl s p v).vitals = s.vitals := by simp [setDbgctl]

@[simp] theorem write8_vitals (s : State) (off v : Nat) (high : Bool) (set : Nat → State → State)
    (h : ∀ x t, (set x t).vitals = t.vitals) : (write8 s off v high set).vitals = s.vitals := by
  simp [write8, h]

@[simp] theorem hostWrite_vitals (s : State) (off v : Nat) : (hostWrite s off v).vitals = s.vitals := by
  unfold hostWrite
  split <;> simp

@[simp] theorem vfWrite_vitals (s : State) (p off v : Nat) : (vfWrite s p off v).vitals = s.vitals := by
  unfold vfWrite
  split <;> simp

/-! ### Operations of Machine/Health.lean -/

@[simp] theorem loseParts_vitals (s : State) (c : Acc) (gid a b : Nat) (ps : List (Instr × Capture)) :
    (loseParts s c gid a b ps).2.vitals = s.vitals := by
  simp [loseParts]

@[simp] theorem inPieces_vitals (s : State) (c : Acc) (gid : Nat) (o : Op) : (inPieces s c gid o).2.vitals = s.vitals := by
  unfold inPieces
  dsimp only
  (repeat' split) <;> simp

@[simp] theorem loseOp_vitals (a b gid : Nat) (s : State) (o : Op) : (loseOp a b gid s o).vitals = s.vitals := by simp [loseOp]

@[simp] theorem loseInFlight_vitals (a b : Nat) (s : State) (gid : Nat) : (loseInFlight a b s gid).vitals = s.vitals := by
  simp [loseInFlight]

@[simp] theorem failTask_vitals (s : State) (p a b : Nat) (t : Task) : (failTask s p a b t).vitals = s.vitals := by
  simp [failTask]

@[simp] theorem linkHits_vitals (s : State) (p a b drop : Nat) (t : Task) : (linkHits s p a b drop t).2.vitals = s.vitals := by
  simp [linkHits]

@[simp] theorem linkLossAt_vitals (a b : Nat) (s : State) (p : Nat) : (linkLossAt a b s p).vitals = s.vitals := by
  unfold linkLossAt
  split <;> simp

@[simp] theorem resend_vitals (s : State) (f : Flit) : (resend s f).vitals = s.vitals := by
  unfold resend
  dsimp only
  split <;> simp

/-! ### Operations of Machine/Int.lean -/

@[simp] theorem rdspEffect_vitals (i : Iss) (s : State) : (rdspEffect i s).vitals = s.vitals := by simp [rdspEffect]

/-! ### Operations of Machine/Stream.lean -/

@[simp] theorem xfEffect_vitals (i : Iss) (s : State) : (xfEffect i s).vitals = s.vitals := by
  unfold xfEffect
  split <;> simp

@[simp] theorem dcdEffect_vitals (got : SMap Byte) (i : Iss) (s : State) : (dcdEffect got i s).vitals = s.vitals := by
  unfold dcdEffect
  dsimp only
  (repeat' split) <;> simp

@[simp] theorem encEffect_vitals (i : Iss) (s : State) : (encEffect i s).vitals = s.vitals := by simp [encEffect]

/-! ### Operations of Machine/Sys.lean -/

@[simp] theorem taskEffect_vitals (i : Iss) (s : State) : (taskEffect i s).vitals = s.vitals := by simp [taskEffect]

@[simp] theorem tjoinEffect_vitals (got : SMap Byte) (i : Iss) (s : State) : (tjoinEffect got i s).vitals = s.vitals := by
  unfold tjoinEffect
  dsimp only
  (repeat' split) <;> simp

@[simp] theorem tsettleEffect_vitals (i : Iss) (s : State) : (tsettleEffect i s).vitals = s.vitals := by simp [tsettleEffect]

@[simp] theorem tkillEffect_vitals (i : Iss) (s : State) : (tkillEffect i s).vitals = s.vitals := by simp [tkillEffect]

@[simp] theorem setfmtEffect_vitals (i : Iss) (s : State) : (setfmtEffect i s).vitals = s.vitals := by simp [setfmtEffect]

@[simp] theorem setcmpEffect_vitals (i : Iss) (s : State) : (setcmpEffect i s).vitals = s.vitals := by
  unfold setcmpEffect
  dsimp only
  (repeat' split) <;> simp

@[simp] theorem rquotaEffect_vitals (i : Iss) (s : State) : (rquotaEffect i s).vitals = s.vitals := by simp [rquotaEffect]

@[simp] theorem wrsrEffect_vitals (i : Iss) (s : State) : (wrsrEffect i s).vitals = s.vitals := by simp [wrsrEffect]

@[simp] theorem softTrap_vitals (group code : Nat) (i : Iss) (s : State) : (softTrap group code i s).vitals = s.vitals := by
  simp [softTrap]

@[simp] theorem tretEffect_vitals (i : Iss) (s : State) : (tretEffect i s).vitals = s.vitals := by
  unfold tretEffect
  split <;> simp

@[simp] theorem dropOt_vitals (s : State) (p h : Nat) : (dropOt s p h).vitals = s.vitals := by simp [dropOt]

@[simp] theorem pinvEffect_vitals (i : Iss) (s : State) : (pinvEffect i s).vitals = s.vitals := by simp [pinvEffect]

/-! ### Operations of Machine/Sched.lean -/

@[simp] theorem strikeFetch_vitals (s : State) (a : At) (n : Nat) : (strikeFetch s a n).vitals = s.vitals := by
  simp [strikeFetch]

@[simp] theorem takeChainTrap_vitals (s : State) (a : At) : (takeChainTrap s a).vitals = s.vitals := by
  unfold takeChainTrap
  split <;> simp

@[simp] theorem markReady_vitals (s : State) (rs : List (Nat × Nat)) : (markReady s rs).vitals = s.vitals := by simp [markReady]

end Sys2Proof.Machine
end

section
/-!
Operations that write device memory or the host's, and those that call them: each keeps the vital parts in order. A byte is
written by `physWriteByte`, `reportEvent` writes the host's ring, `scrubChans` and `afterReset` leave bytes out; the rest goes
through these.
-/

namespace Sys2Proof.Machine

variable {was : Vitals}

/-! ### Operations of Machine/Mem.lean -/

@[simp] theorem physWriteByte_inOrder {s0 : State} {a key : Nat} {b : Byte} (h : InOrder was s0.vitals) :
    InOrder was (physWriteByte s0 a key b).vitals := by
  have hs : InOrder was (notePool s0 a).vitals := by simpa using h
  unfold physWriteByte
  dsimp only
  split
  · exact hs.setMem (writeByte_wf _ _ _)
  · exact hs.setMem (writeBytes_wf _ _ _)

@[simp] theorem settleByte_inOrder {s : State} {a key : Nat} {b : Byte} (h : InOrder was s.vitals) :
    InOrder was (settleByte s a key b).vitals := by
  unfold settleByte
  split <;> simp [h]

@[simp] theorem performReq_inOrder {s : State} {r : Request} (h : InOrder was s.vitals) :
    InOrder was (performReq s r).vitals := foldl_inOrder (fun _ _ => physWriteByte_inOrder) _ h

@[simp] theorem forwardAll_inOrder {s : State} (hw : InOrder was s.vitals) : InOrder was (forwardAll s).vitals :=
  foldl_inOrder (fun s x hw => by simp [hw]) _ hw

@[simp] theorem recallGrain_inOrder {s : State} {base : Nat} (h : InOrder was s.vitals) :
    InOrder was (recallGrain s base).vitals := by
  unfold recallGrain
  split
  · exact h
  · exact foldl_inOrder (fun _ _ => settleByte_inOrder) _ (by simpa using h)

@[simp] theorem recallFrom_inOrder {s : State} {a : Nat} {c : Option Nat} (h : InOrder was s.vitals) :
    InOrder was (recallFrom s a c).vitals := by
  unfold recallFrom
  split
  · split <;> simp [h]
  · exact h

@[simp] theorem homeWriteByte_inOrder {s : State} {a key : Nat} {b : Byte} (h : InOrder was s.vitals) :
    InOrder was (homeWriteByte s a key b).vitals := by
  unfold homeWriteByte
  dsimp only
  split <;> split
  · split <;> simp [h]
  · simp [h]
  · split <;> simp [h]
  · simp [h]

@[simp] theorem homeWrite_inOrder {s : State} {ws : List (Nat × Byte)} {key : Nat} (h : InOrder was s.vitals) :
    InOrder was (homeWrite s ws key).vitals := foldl_inOrder (fun _ _ => homeWriteByte_inOrder) _ h

@[simp] theorem recallRange_inOrder {s : State} {base n : Nat} (h : InOrder was s.vitals) :
    InOrder was (recallRange s base n).vitals := foldl_inOrder (fun _ _ => recallGrain_inOrder) _ h

@[simp] theorem ownWrite_inOrder {s : State} {core gsize : Nat} {ws : List (Nat × Byte)} {key : Nat}
    (h : InOrder was s.vitals) : InOrder was (ownWrite s core gsize ws key).vitals := by
  refine foldl_inOrder (fun s w h => ?_) _ h
  dsimp only
  split <;> simp [h]

@[simp] theorem ownTake_inOrder {s : State} {core gsize a : Nat} (hw : InOrder was s.vitals) :
    InOrder was (ownTake s core gsize a).vitals := by
  unfold ownTake
  dsimp only
  split <;> simp [hw]

/-! ### Operations of Machine/Ops.lean -/

/-- What the frame of issue leaves is in order. -/
def Gate.orderly (was : Vitals) : Gate → Prop
  | .noIssuer => True
  | .still t => InOrder was t.vitals
  | .go t _ => InOrder was t.vitals

/-- The frame of R191, with its traps and waits, keeps the vital parts in order. -/
theorem gate_orderly {f : Form} {e : Enc} {s : State} (h : InOrder was s.vitals) : (gate f e s).orderly was := by
  unfold gate
  split
  · trivial
  · next a _ =>
    extract_lets due pick s1 s2
    clear_value due
    have hp : InOrder was pick.2.vitals := by
      unfold pick
      split <;> simp [h]
    have hb : InOrder was s2.vitals := by simpa [s2] using hp
    have hs : InOrder was s1.vitals := hp
    clear_value s2 s1 pick
    split
    · show InOrder was (takeTrap ..).vitals
      simpa using hp
    · split
      · show InOrder was (trapEnc ..).vitals
        simpa using hs
      · split
        · exact hs
        · split
          · exact hb
          · exact hs

/-- An instruction is orderly when its effect is. -/
theorem issue_orderly {f : Form} {e : Enc} {s : State} {eff : Iss → State → State} (h : InOrder was s.vitals)
    (heff : ∀ i t, InOrder was t.vitals → InOrder was (eff i t).vitals) : Orderly was (issue f e s eff) := by
  have hg := gate_orderly (f := f) (e := e) h
  unfold issue
  split
  · trivial
  · next hs => rw [hs] at hg; exact hg
  · next hs => rw [hs] at hg; exact heff _ _ hg

theorem execLane_orderly {f : Form} {fn : State → Iss → LaneIn → LaneOut} {e : Enc} {s : State} (h : InOrder was s.vitals) :
    Orderly was (execLane f fn e s) := issue_orderly h fun _ _ ht => by simpa using ht

theorem execUni_orderly {f : Form} {fn : State → Iss → LaneIn → LaneOut} {e : Enc} {s : State} (h : InOrder was s.vitals) :
    Orderly was (execUni f fn e s) := issue_orderly h fun _ _ ht => by simpa using ht

/-! ### Operations of Machine/Ctl.lean -/

/-- So is one with a check of its own before the effect. -/
theorem issueChecked_orderly {f : Form} {e : Enc} {s : State} {chk : State → Iss → Option TrapRec} {eff : Iss → State → State}
    (h : InOrder was s.vitals) (heff : ∀ i t, InOrder was t.vitals → InOrder was (eff i t).vitals) :
    Orderly was (issueChecked f e s chk eff) := by
  have hg := gate_orderly (f := f) (e := e) h
  unfold issueChecked
  split
  · trivial
  · next hs => rw [hs] at hg; exact hg
  · next hs =>
    rw [hs] at hg
    have hg : InOrder was _ := hg
    split
    · split <;> simp [h, hg]
    · exact heff _ _ hg

/-! ### Operations of Machine/Access.lean -/

@[simp] theorem readAt_inOrder {s : State} {c : Acc} {l : Leaf} {va n req : Nat} (hw : InOrder was s.vitals) :
    InOrder was (readAt s c l va n req).2.vitals := by
  unfold readAt
  dsimp only
  (repeat' split) <;> simp [hw]

@[simp] theorem writeUnit_inOrder {s : State} {c : Acc} {l : Leaf} {va : Nat} {bs : List Byte} {req : Nat}
    (hw : InOrder was s.vitals) :
    InOrder was (writeUnit s c l va bs req).vitals := by
  unfold writeUnit
  dsimp only
  (repeat' split) <;> simp [hw]

@[simp] theorem writeAt_inOrder {s : State} {c : Acc} {l : Leaf} {va : Nat} {bs : List Byte} {req : Nat}
    (h : InOrder was s.vitals) : InOrder was (writeAt s c l va bs req).vitals := by
  unfold writeAt
  split
  · exact foldl_inOrder (fun _ _ => writeUnit_inOrder) _ h
  · exact writeUnit_inOrder h

/-! ### Operations of Machine/Range.lean -/

@[simp] theorem rangeRead_inOrder {s : State} {c : Acc} {source va n req : Nat} (h : InOrder was s.vitals) :
    InOrder was (rangeRead s c source va n req).2.vitals := by
  unfold rangeRead
  dsimp only
  split
  · simpa using h
  · exact foldl_snd_inOrder (fun _ _ h => by exact readAt_inOrder h) _ (by simpa using h)

@[simp] theorem rangeWrite_inOrder {s : State} {c : Acc} {source va : Nat} {bs : List Byte} {req : Nat}
    (h : InOrder was s.vitals) : InOrder was (rangeWrite s c source va bs req).2.vitals := by
  unfold rangeWrite
  dsimp only
  split
  · simpa using h
  · exact foldl_inOrder (fun _ _ => writeAt_inOrder) _ (by simpa using h)

/-! ### Operations of Machine/Waits.lean -/

/-- So is one that parks until its granules are full. -/
theorem issueWait_orderly {f : Form} {e : Enc} {i : Instr} {s : State} {eff : SMap Byte → Iss → State → State}
    (h : InOrder was s.vitals) (heff : ∀ got i t, InOrder was t.vitals → InOrder was (eff got i t).vitals) :
    Orderly was (issueWait f e i s eff) := by
  have hg := gate_orderly (f := f) (e := e) h
  unfold issueWait
  split
  · trivial
  · next hs => rw [hs] at hg; exact hg
  · next hs =>
    rw [hs] at hg
    have hg : InOrder was _ := hg
    split
    · exact heff _ _ _ (by simpa using hg)
    · split
      · exact heff _ _ _ (by simpa using hg)
      · exact heff _ _ _ (by simpa using hg)
      · simpa using h

/-! ### Operations of Machine/Matrix.lean -/

@[simp] theorem rowWrite_inOrder {c : Acc} {req : Nat} {s : State} {lane : Nat} {bs : List (Nat × Leaf × Byte)}
    (h : InOrder was s.vitals) : InOrder was (rowWrite c req s lane bs).vitals := by
  refine foldl_inOrder (fun s l h => ?_) _ h
  dsimp only
  split <;> simp [h]

@[simp] theorem mdrnRow_inOrder {c : Acc} {rc : RCtx} {e : Enc} {cap : Capture} {s : State} {row : List MdrnSite}
    (h : InOrder was s.vitals) : InOrder was (mdrnRow c rc e cap s row).vitals := by
  unfold mdrnRow
  dsimp only
  split
  · exact h
  · exact rowWrite_inOrder (foldl_snd_inOrder (fun _ _ h => by exact readAt_inOrder h) _ h)

@[simp] theorem mdrnMemory_inOrder {s : State} {c : Acc} {e : Enc} {cap : Capture} (h : InOrder was s.vitals) :
    InOrder was (mdrnMemory s c e cap).2.vitals := by
  unfold mdrnMemory
  dsimp only
  split
  · exact foldl_inOrder (fun _ _ => mdrnRow_inOrder) _ (by simpa using h)
  · refine foldl_inOrder (fun s r h => ?_) _ (by simpa using h)
    exact foldl_inOrder (fun _ _ => rowWrite_inOrder) _ h

/-! ### Operations of Machine/LdSt.lean -/

@[simp] theorem ldPerform_inOrder {uni : Bool} {s : State} {c : Acc} {e : Enc} {cap : Capture} (h : InOrder was s.vitals) :
    InOrder was (ldPerform uni s c e cap).2.vitals := by
  simp only [ldPerform, finishAccs_vitals]
  refine foldl_snd_inOrder (fun a x h => ?_) _ h
  split <;> simp [h]

@[simp] theorem stPerform_inOrder {uni : Bool} {s : State} {c : Acc} {e : Enc} {cap : Capture} (h : InOrder was s.vitals) :
    InOrder was (stPerform uni s c e cap).2.vitals := by
  simp only [stPerform, finishAccs_vitals]
  exact foldl_inOrder (fun _ _ => writeAt_inOrder) _ (by simpa using h)

@[simp] theorem atomPerform_inOrder {uni ret : Bool} {s : State} {c : Acc} {e : Enc} {cap : Capture}
    (h : InOrder was s.vitals) : InOrder was (atomPerform uni ret s c e cap).2.vitals := by
  simp only [atomPerform, finishAccs_vitals]
  refine foldl_snd_inOrder (fun a x h => ?_) _ h
  split
  · exact h
  · dsimp only
    split
    · simp [h]
    · split <;> simp [h]

@[simp] theorem tstrPerform_inOrder {s : State} {c : Acc} {e : Enc} {cap : Capture} (h : InOrder was s.vitals) :
    InOrder was (tstrPerform s c e cap).2.vitals := by
  simp only [tstrPerform, finishAccs_vitals]
  exact foldl_inOrder (fun _ _ => writeAt_inOrder) _ (by simpa using h)

@[simp] theorem tldPerform_inOrder {s : State} {c : Acc} {e : Enc} {cap : Capture} (h : InOrder was s.vitals) :
    InOrder was (tldPerform s c e cap).2.vitals := by
  simp only [tldPerform, finishAccs_vitals]
  refine foldl_snd_inOrder (fun a x h => ?_) _ h
  dsimp only
  split
  · split <;> simp [h]
  · exact h

@[simp] theorem runMem_inOrder {s : State} {c : Acc} {i : Instr} {cap : Capture} (h : InOrder was s.vitals) :
    InOrder was (runMem s c i cap).2.vitals := by
  unfold runMem
  split
  case h_10 => split <;> simp [h]
  all_goals simp [h]

@[simp] theorem performMem_inOrder {s : State} {c : Acc} {i : Instr} {cap : Capture} (hw : InOrder was s.vitals) :
    InOrder was (performMem s c i cap).2.vitals := by
  unfold performMem
  dsimp only
  split <;> simp [hw]

theorem pickPiece_inOrder {run : State → Instr × Capture → List (Instr × Capture) → Perf × State} {ks : List Nat} {s : State}
    {c : Acc} {gid : Nat} {o : Op} {ps : List (Instr × Capture)} {todo : List Half} {t : Option TrapRec}
    (h : InOrder was s.vitals) (hrun : ∀ t p rest, InOrder was t.vitals → InOrder was (run t p rest).2.vitals) :
    InOrder was (pickPiece run ks s c gid o ps todo t).vitals := by
  have hc : InOrder was (choose s ks.length).2.vitals := by simpa using h
  unfold pickPiece
  dsimp only
  split
  · simpa using h
  · split
    · split <;> simpa using hrun _ _ _ hc
    · simpa using hrun _ _ _ hc

@[simp] theorem performPiece_inOrder {s : State} {c : Acc} {gid : Nat} {o : Op} {ps : List (Instr × Capture)}
    {todo : List Half} {t : Option TrapRec} (h : InOrder was s.vitals) :
    InOrder was (performPiece s c gid o ps todo t).vitals := pickPiece_inOrder h fun _ _ _ => runMem_inOrder

@[simp] theorem performWhole_inOrder {s : State} {c : Acc} {gid : Nat} {o : Op} {i : Instr} {cap : Capture}
    (hw : InOrder was s.vitals) :
    InOrder was (performWhole s c gid o i cap).vitals := by
  unfold performWhole
  dsimp only
  (repeat' split) <;> simp [hw]

@[simp] theorem memIssue_inOrder {instr : Instr} {k : Capture} {i : Iss} {s : State} (hw : InOrder was s.vitals) :
    InOrder was (memIssue instr k i s).vitals := by
  unfold memIssue
  dsimp only
  (repeat' split) <;> simp [hw]

@[simp] theorem memEffect_inOrder {instr : Instr} {cap : State → Iss → Capture} {i : Iss} {s : State}
    (hw : InOrder was s.vitals) :
    InOrder was (memEffect instr cap i s).vitals := by
  simp [memEffect, hw]

@[simp] theorem mdrnEffect_inOrder {i : Iss} {s : State} (hw : InOrder was s.vitals) : InOrder was (mdrnEffect i s).vitals := by
  simp [mdrnEffect, hw]

@[simp] theorem tensorEffect_inOrder {st : Bool} {instr : Instr} {i : Iss} {s : State} (hw : InOrder was s.vitals) :
    InOrder was (tensorEffect st instr i s).vitals := by
  simp [tensorEffect, hw]

@[simp] theorem ldsEffect_inOrder {got : SMap Byte} {i : Iss} {s : State} (hw : InOrder was s.vitals) :
    InOrder was (ldsEffect got i s).vitals := by
  unfold ldsEffect
  dsimp only
  (repeat' split) <;> simp [hw]

/-! ### Operations of Machine/Slate.lean -/

@[simp] theorem slateRead_orderly {s : State} {c : Acc} {va n : Nat} (h : InOrder was s.vitals) :
    OrderlyOk was Prod.snd (slateRead s c va n) := by
  unfold slateRead
  dsimp only
  split <;> simp [h]

@[simp] theorem slateWrite_orderly {s : State} {c : Acc} {va : Nat} {bs : List Byte} (h : InOrder was s.vitals) :
    OrderlyOk was id (slateWrite s c va bs) := by
  unfold slateWrite
  dsimp only
  split <;> simp [h]

theorem spillRead_orderly {s : State} {c : Acc} {t : Slate} {i : Nat} (h : InOrder was s.vitals) :
    OrderlyOk was (·.2.2) (spillRead s c t i) :=
  (slateRead_orderly h).bind fun _ h => .ok h

theorem spillFind_orderly {fuel : Nat} {s : State} {c : Acc} {t : Slate} {k i : Nat} (h : InOrder was s.vitals) :
    OrderlyOk was Prod.snd (spillFind fuel s c t k i) := by
  induction fuel generalizing s i with
  | zero => exact .ok h
  | succ n ih =>
    refine (spillRead_orderly h).bind fun x h => ?_
    dsimp only
    split
    · exact .ok h
    · split
      · exact .ok h
      · exact ih h

theorem spillFree_orderly {fuel : Nat} {s : State} {c : Acc} {t : Slate} {i : Nat} (h : InOrder was s.vitals) :
    OrderlyOk was Prod.snd (spillFree fuel s c t i) := by
  induction fuel generalizing s i with
  | zero => exact .ok h
  | succ n ih =>
    refine (spillRead_orderly h).bind fun x h => ?_
    dsimp only
    split
    · exact .ok h
    · exact ih h

theorem slateLocate_orderly {s : State} {c : Acc} {t : Slate} {k : Nat} (h : InOrder was s.vitals) :
    OrderlyOk was Prod.snd (slateLocate s c t k) := by
  unfold slateLocate
  split
  · exact .ok h
  · split
    · exact spillFind_orderly h
    · exact .ok h

theorem slateValue_orderly {s : State} {c : Acc} {t : Slate} {f : Found} (h : InOrder was s.vitals) :
    OrderlyOk was Prod.snd (slateValue s c t f) := by
  unfold slateValue
  split
  · exact .ok h
  · exact (spillRead_orderly h).bind fun _ h => .ok h
  · exact .ok h

theorem slateSetValue_orderly {s : State} {c : Acc} {tk : Nat} {t : Slate} {k : Nat} {f : Found} {v : Nat}
    (h : InOrder was s.vitals) : OrderlyOk was id (slateSetValue s c tk t k f v) := by
  unfold slateSetValue
  split
  · exact .ok h
  · exact slateWrite_orderly h
  · exact .ok h

theorem slateCount_orderly {s : State} {c : Acc} {t : Slate} {spills inspill fulls : Int} (h : InOrder was s.vitals) :
    OrderlyOk was id (slateCount s c t spills inspill fulls) :=
  (slateRead_orderly h).bind fun _ => slateWrite_orderly

theorem slateInsert_orderly {s : State} {c : Acc} {tk : Nat} {t : Slate} {k v : Nat} (h : InOrder was s.vitals) :
    OrderlyOk was Prod.snd (slateInsert s c tk t k v) := by
  unfold slateInsert
  dsimp only
  split
  · exact .ok h
  · refine (spillFree_orderly (by exact h)).bind fun x h => ?_
    split
    · exact (slateWrite_orderly h).bind fun _ h => (slateCount_orderly h).bind fun _ h => .ok h
    · exact (slateCount_orderly h).bind fun _ h => .ok h

theorem hinsLane_orderly {s : State} {c : Acc} {tk : Nat} {t : Slate} {e : Enc} {lane k b : Nat} (h : InOrder was s.vitals) :
    OrderlyOk was Prod.snd (hinsLane s c tk t e lane k b) := by
  unfold hinsLane
  split
  · exact .ok h
  · refine (slateLocate_orderly h).bind fun x h => ?_
    dsimp only
    split
    · exact (slateInsert_orderly h).bind fun _ h => .ok h
    · exact .ok h

theorem haccLane_orderly {s : State} {c : Acc} {tk : Nat} {t : Slate} {e : Enc} {lane k b : Nat} (h : InOrder was s.vitals) :
    OrderlyOk was Prod.snd (haccLane s c tk t e lane k b) := by
  unfold haccLane
  split
  · exact .ok h
  · refine (slateLocate_orderly h).bind fun x h => ?_
    dsimp only
    split
    · exact (slateInsert_orderly h).bind fun _ h => .ok h
    · exact (slateValue_orderly h).bind fun _ h => (slateSetValue_orderly h).bind fun _ h => .ok h

theorem hprobeLane_orderly {s : State} {c : Acc} {t : Slate} {e : Enc} {lane k : Nat} (h : InOrder was s.vitals) :
    OrderlyOk was Prod.snd (hprobeLane s c t e lane k) := by
  unfold hprobeLane
  split
  · exact .ok h
  · exact (slateLocate_orderly h).bind fun _ h => (slateValue_orderly h).bind fun _ h => .ok h

theorem hdelLane_orderly {s : State} {c : Acc} {tk : Nat} {t : Slate} {e : Enc} {lane k : Nat} (h : InOrder was s.vitals) :
    OrderlyOk was Prod.snd (hdelLane s c tk t e lane k) := by
  unfold hdelLane
  split
  · exact .ok h
  · refine (slateLocate_orderly h).bind fun x h => ?_
    dsimp only
    split
    · exact .ok h
    · exact .ok h
    · exact (slateWrite_orderly h).bind fun _ h => (slateCount_orderly h).bind fun _ h => .ok h

theorem slateLane_orderly {s : State} {c : Acc} {tk : Nat} {i : Instr} {lane k b : Nat} (h : InOrder was s.vitals) :
    OrderlyOk was Prod.snd (slateLane s c tk i lane k b) := by
  unfold slateLane
  split
  · exact .error
  · split
    · exact hinsLane_orderly h
    · exact hprobeLane_orderly h
    · exact haccLane_orderly h
    · exact hdelLane_orderly h
    · exact .ok h

theorem slateLanes_inOrder {s : State} {c : Acc} {i : Instr} {cap : Capture} {ls : List Nat} (h : InOrder was s.vitals) :
    InOrder was (slateLanes s c i cap ls).st.vitals := by
  induction ls generalizing s with
  | nil => exact h
  | cons l rest ih =>
    unfold slateLanes
    have hl := slateLane_orderly (c := c) (tk := c.team) (i := i) (lane := l) (k := mget cap.addr l 0)
      (b := wordsNat (mget cap.data l [])) h
    split
    · exact h
    · next hs => exact ih (by simpa [hs] using hl)

@[simp] theorem slatePerform_inOrder {s : State} {c : Acc} {gid op : Nat} {i : Instr} {cap : Capture} (h : InOrder was s.vitals) :
    InOrder was (slatePerform s c gid op i cap).vitals := by
  unfold slatePerform
  dsimp only
  split <;> simpa using slateLanes_inOrder h

@[simp] theorem wipeRegion_inOrder {fuel : Nat} {s : State} {c : Acc} {base va hi : Nat} (h : InOrder was s.vitals) :
    InOrder was (wipeRegion fuel s c base va hi).2.2.vitals := by
  induction fuel generalizing s va with
  | zero => exact h
  | succ n ih =>
    unfold wipeRegion
    split
    · exact h
    · dsimp only
      split
      · exact ih (by simp [h])
      · simpa using h
      · simpa using h

@[simp] theorem hinitPerform_inOrder {s : State} {c : Acc} {e : Enc} {cap : Capture} (h : InOrder was s.vitals) :
    InOrder was (hinitPerform s c e cap).2.2.vitals := by
  unfold hinitPerform
  dsimp only
  split
  · exact h
  · split
    · exact h
    · split <;> simp [h]

@[simp] theorem performSlate_inOrder {s : State} {gid : Nat} {o : Op} (h : InOrder was s.vitals) :
    InOrder was (performSlate s gid o).vitals := by
  unfold performSlate
  dsimp only
  split
  · exact h
  · split
    · simp [h]
    · split
      · exact h
      · split <;> split <;> simp [h]
    · split
      · exact h
      · refine pickPiece_inOrder h fun t p _ h => ?_
        split <;> exact slateLanes_inOrder h
    · exact h

@[simp] theorem slateEffect_inOrder {instr : Instr} {wide : Nat} {i : Iss} {s : State} (h : InOrder was s.vitals) :
    InOrder was (slateEffect instr wide i s).vitals := by
  unfold slateEffect
  dsimp only
  split
  · simpa using h
  · split <;> simp [h]

@[simp] theorem hinitEffect_inOrder {i : Iss} {s : State} (hw : InOrder was s.vitals) :
    InOrder was (hinitEffect i s).vitals := by
  unfold hinitEffect
  dsimp only
  (repeat' split) <;> simp [hw]

/-! ### Operations of Machine/Chains.lean -/

@[simp] theorem performInit_inOrder {s : State} {gid op slot h : Nat} {loc : Word} (hw : InOrder was s.vitals) :
    InOrder was (performInit s gid op slot h loc).vitals := by
  unfold performInit
  dsimp only
  (repeat' split) <;> simp [hw]

@[simp] theorem performCq_inOrder {s : State} {gid : Nat} {o : Op} (hw : InOrder was s.vitals) :
    InOrder was (performCq s gid o).vitals := by
  unfold performCq
  dsimp only
  (repeat' split) <;> simp [hw]

@[simp] theorem cqIssue_inOrder {s : State} {i : Iss} {st : Stage} (hw : InOrder was s.vitals) :
    InOrder was (cqIssue s i st).vitals := by
  unfold cqIssue
  dsimp only
  split <;> simp [hw]

@[simp] theorem cqinitEffect_inOrder {i : Iss} {s : State} (hw : InOrder was s.vitals) :
    InOrder was (cqinitEffect i s).vitals := by
  unfold cqinitEffect
  dsimp only
  (repeat' split) <;> simp [hw]

@[simp] theorem cqadvEffect_inOrder {i : Iss} {s : State} (hw : InOrder was s.vitals) :
    InOrder was (cqadvEffect i s).vitals := by
  unfold cqadvEffect
  split <;> simp [hw]

/-! ### Operations of Machine/Tasks.lean -/

@[simp] theorem reportEvent_inOrder {s : State} {ty die part info : Nat} (h : InOrder was s.vitals) :
    InOrder was (reportEvent s ty die part info).vitals := by
  unfold reportEvent
  dsimp only
  split
  · exact h
  · split
    · exact h
    · exact h.setHost (writeBytes_wf _ _ _)

@[simp] theorem commitVersion_inOrder {s : State} {p tid : Nat} (h : InOrder was s.vitals) :
    InOrder was (commitVersion s p tid).vitals := by
  have hf (far : List (Nat × List Byte)) :
      (far.foldr (fun r acc => sendFlit acc r.1 .write r.2) s).vitals = s.vitals := by
    induction far with
    | nil => rfl
    | cons r rest ih => simpa using ih
  simp only [commitVersion, modTask_vitals, dropBlocks_vitals, clearPoison_vitals]
  refine foldl_inOrder (fun s e h => ?_) _ (by simpa [hf] using h)
  split
  · exact h
  · exact homeWriteByte_inOrder h

@[simp] theorem finishTask_inOrder {s : State} {p tid : Nat} (hw : InOrder was s.vitals) :
    InOrder was (finishTask s p tid).vitals := by
  simp [finishTask, hw]

theorem execRecordWrite_orderly {part tid : Nat} {s : State} (h : InOrder was s.vitals) :
    Orderly was (execRecordWrite part tid s) := by
  unfold execRecordWrite
  split
  · exact h
  · split
    · exact h
    · split
      · exact h
      · have lost (t : State) (e : Perf) (tk : Task) (ht : InOrder was t.vitals) :
            InOrder was (leaveWindow (reportEvent (match e with | .fail x => reportFault t part x | _ => t) 6 0xFF part tid)
              part tk).vitals := by
          cases e <;> simp [ht]
        dsimp only
        split
        · exact lost _ (.fail _) _ h
        · split
          · simp [h]
          · exact lost _ _ _ (by simp [h])
          · split
            · simp [h]
            · exact lost _ _ _ (by simp [h])

@[simp] theorem execTaskRelease_orderly {part tid : Nat} {s : State} (hw : InOrder was s.vitals) :
    Orderly was (execTaskRelease part tid s) := by
  unfold execTaskRelease
  dsimp only
  (repeat' split) <;> simp [hw]

@[simp] theorem execFire_orderly {part tid : Nat} {s : State} (hw : InOrder was s.vitals) :
    Orderly was (execFire part tid s) := by
  unfold execFire
  dsimp only
  (repeat' split) <;> simp [hw]

/-! ### Operations of Machine/Context.lean -/

theorem saveCtx_inOrder {s t : State} {gid slot : Nat} (h : InOrder was s.vitals) (ht : saveCtx s gid slot = some t) :
    InOrder was t.vitals := by
  unfold saveCtx at ht
  dsimp only at ht
  split at ht
  · cases ht; simp [h]
  · cases ht

theorem restoreCtx_inOrder {s t : State} {gid slot : Nat} (h : InOrder was s.vitals) (ht : restoreCtx s gid slot = some t) :
    InOrder was t.vitals := by
  unfold restoreCtx at ht
  dsimp only at ht
  split at ht
  · cases ht; simp [h]
  · cases ht

theorem evictRecord_inOrder {s : State} {gid : Nat} {g : Group} {x : Nat × State} (h : InOrder was s.vitals)
    (hx : evictRecord s gid g = some x) : InOrder was x.2.vitals := by
  unfold evictRecord at hx
  split at hx
  · cases hx; exact h
  · obtain ⟨t, ht, rfl⟩ := Option.map_eq_some_iff.1 hx
    exact saveCtx_inOrder h ht

theorem execEvictionSave_orderly {gid : Nat} {s : State} (h : InOrder was s.vitals) :
    Orderly was (execEvictionSave gid s) := by
  unfold execEvictionSave
  split
  · exact h
  · split
    · split
      · next hx => exact evictRecord_inOrder h hx
      · exact h
    · exact h

/-! ### Operations of Machine/Teams.lean -/

@[simp] theorem recarve_inOrder {s : State} {core carve : Nat} (h : InOrder was s.vitals) :
    InOrder was (recarve s core carve).vitals := by
  unfold recarve
  split
  · exact h
  · rw [dropSi_vitals]
    exact foldl_inOrder (fun _ _ => recallGrain_inOrder) _ h

@[simp] theorem startTeam_inOrder {s : State} {p : Nat} {t : Task} {core slot linear base qb : Nat} (h : InOrder was s.vitals) :
    InOrder was (startTeam s p t core slot linear base qb).vitals := by
  have hr : InOrder was (recarve s core t.header.carve).vitals := recarve_inOrder h
  simpa [startTeam] using hr

theorem seatTeam_inOrder {s t : State} {p tid die linear : Nat} (h : InOrder was s.vitals)
    (ht : seatTeam s p tid die linear = some t) : InOrder was t.vitals := by
  unfold seatTeam at ht
  obtain ⟨c, -, hc⟩ := Option.bind_eq_some_iff.1 ht
  split at hc
  · cases hc; simp [h]
  · cases hc

theorem seatAll_inOrder {s t : State} {p tid : Nat} {xs : List (Nat × Nat)} (h : InOrder was s.vitals)
    (ht : seatAll s p tid xs = some t) : InOrder was t.vitals := by
  induction xs generalizing s with
  | nil => cases ht; exact h
  | cons x rest ih =>
    obtain ⟨s1, h1, h2⟩ := Option.bind_eq_some_iff.1 ht
    exact ih (seatTeam_inOrder h h1) h2

theorem execTeamAdmit_orderly {part : Nat} {s : State} (h : InOrder was s.vitals) : Orderly was (execTeamAdmit part s) := by
  unfold execTeamAdmit
  dsimp only
  split
  · exact h
  · show InOrder was (State.vitals _)
    split
    · simpa using h
    · next hs => simpa using seatTeam_inOrder h hs

/-- A set of teams that takes its places, or where it does not fit nothing. -/
theorem seatAll_getD_inOrder {s t : State} {p tid : Nat} {xs : List (Nat × Nat)} (h : InOrder was s.vitals)
    (ht : InOrder was t.vitals) : InOrder was ((seatAll t p tid xs).getD s).vitals := by
  cases hx : seatAll t p tid xs with
  | none => exact h
  | some u => exact seatAll_inOrder ht hx

theorem execDispatchBatch_orderly {part : Nat} {s : State} (h : InOrder was s.vitals) :
    Orderly was (execDispatchBatch part s) := by
  unfold execDispatchBatch
  extract_lets q
  split
  · exact h
  · split
    · exact h
    · extract_lets hd fs pos nc news
      split
      · split <;> simp [h]
      · split
        · simp [h]
        · split
          · exact h
          · split
            · exact h
            · exact seatAll_getD_inOrder h (by simpa using h)

@[simp] theorem execPartialEviction_orderly {part : Nat} {s : State} (hw : InOrder was s.vitals) :
    Orderly was (execPartialEviction part s) := by
  unfold execPartialEviction
  dsimp only
  (repeat' split) <;> simp [hw]

theorem execGroupReturn_orderly {gid : Nat} {s : State} (h : InOrder was s.vitals) : Orderly was (execGroupReturn gid s) := by
  unfold execGroupReturn
  split
  · exact h
  · split
    · exact h
    · split
      · exact h
      · split
        · exact h
        · next hs => simpa using restoreCtx_inOrder h hs

theorem execGroupEnd_orderly {gid : Nat} {s : State} (h : InOrder was s.vitals) : Orderly was (execGroupEnd gid s) := by
  unfold execGroupEnd
  split
  · exact h
  · split <;> exact h

@[simp] theorem execTeamEnd_orderly {tm : Nat} {s : State} (hw : InOrder was s.vitals) : Orderly was (execTeamEnd tm s) := by
  unfold execTeamEnd
  dsimp only
  (repeat' split) <;> simp [hw]

@[simp] theorem execTaskLevelStop_orderly {part tid : Nat} {s : State} (hw : InOrder was s.vitals) :
    Orderly was (execTaskLevelStop part tid s) := by
  unfold execTaskLevelStop
  dsimp only
  split <;> simp [hw]

@[simp] theorem execGbarArrival_orderly {part idx : Nat} {s : State} (hw : InOrder was s.vitals) :
    Orderly was (execGbarArrival part idx s) := by
  unfold execGbarArrival
  dsimp only
  split <;> simp [hw]

/-! ### Operations of Machine/Umber.lean -/

@[simp] theorem execUmberCommandStart_orderly {tm slot : Nat} {s : State} (hw : InOrder was s.vitals) :
    Orderly was (execUmberCommandStart tm slot s) := by
  unfold execUmberCommandStart
  dsimp only
  (repeat' split) <;> simp [hw]

theorem umRead_orderly {s : State} {u : Acc} {scr : Bool} {a : Int} {n : Nat} (h : InOrder was s.vitals) :
    OrderlyOk was Prod.snd (umRead s u scr a n) := by
  unfold umRead
  dsimp only
  split
  · split
    · exact .error
    · exact .ok h
  · split
    · exact .ok (rangeRead_inOrder h)
    · exact .error

theorem umWrite_orderly {s : State} {u : Acc} {scr : Bool} {scope : Nat} {a : Int} {bs : List Byte} (h : InOrder was s.vitals) :
    OrderlyOk was id (umWrite s u scr scope a bs) := by
  unfold umWrite
  dsimp only
  split
  · split
    · exact .error
    · simpa using h
  · split <;> simp [h]

theorem umIndex_orderly {s : State} {u : Acc} {c : UCmd} {i : Nat} (h : InOrder was s.vitals) :
    OrderlyOk was Prod.snd (umIndex s u c i) := by
  unfold umIndex
  split
  · exact .ok h
  · exact (umRead_orderly h).bind fun _ h => .ok h

theorem rowPut_orderly {s : State} {u : Acc} {c : UCmd} {r : RunCmd} {row pos n : Nat} (h : InOrder was s.vitals) :
    OrderlyOk was id (rowPut s u c r row pos n) := by
  unfold rowPut
  dsimp only
  split
  · exact (umRead_orderly h).bind fun _ h => umWrite_orderly h
  · split
    · exact (umRead_orderly h).bind fun _ h => umWrite_orderly (by simpa using h)
    · exact umWrite_orderly h

theorem rowAct_orderly {s : State} {u : Acc} {c : UCmd} {r : RunCmd} {row : Nat} {act : RowAct} (h : InOrder was s.vitals) :
    OrderlyOk was Prod.snd (rowAct s u c r row act) := by
  unfold rowAct
  dsimp only
  split
  · exact (umIndex_orderly h).bind fun _ h => .ok h
  · exact (umRead_orderly h).bind fun _ h => .ok h
  · exact (rowPut_orderly h).bind fun _ h => .ok h

theorem rowActs_orderly {s : State} {u : Acc} {c : UCmd} {r : RunCmd} {row : Nat} {acts : List RowAct} (h : InOrder was s.vitals) :
    OrderlyOk was Prod.snd (rowActs s u c r row acts) := by
  induction acts generalizing s r with
  | nil => exact .ok h
  | cons act rest ih => exact (rowAct_orderly h).bind fun _ h => ih h

theorem umberStep_orderly {op tk slot seq row : Nat} {s : State} (h : InOrder was s.vitals) :
    Orderly was (umberStep op tk slot seq row s) := by
  unfold umberStep
  split
  · exact h
  · next r _ =>
    extract_lets c acts whole pick todo
    have ht : InOrder was todo.2.vitals := by simpa [todo, pick, whole] using h
    clear_value todo
    have hx := rowActs_orderly (u := umberAcc s tk slot seq) (c := c) (r := r) (row := row) (acts := todo.1) ht
    split
    · exact h
    · split
      · next hs => rw [hs] at hx; simpa using hx
      · simpa using ht

@[simp] theorem execRowLanding_orderly {tm slot seq row : Nat} {s : State} (hw : InOrder was s.vitals) :
    Orderly was (execRowLanding tm slot seq row s) := by
  unfold execRowLanding
  dsimp only
  (repeat' split) <;> simp [hw]

@[simp] theorem execUmberFence_orderly {tm slot seq : Nat} {s : State} (hw : InOrder was s.vitals) :
    Orderly was (execUmberFence tm slot seq s) := by
  unfold execUmberFence
  dsimp only
  (repeat' split) <;> simp [hw]

theorem binPatch_orderly {s : State} {u : Acc} {b : Nat × Nat × Nat} {scope seq : Nat} {cs : List Nat} (h : InOrder was s.vitals) :
    OrderlyOk was id (binPatch s u b scope seq cs) := by
  induction cs generalizing s seq with
  | nil => exact .ok h
  | cons x rest ih =>
    unfold binPatch
    exact (umWrite_orderly h).bind fun _ h => ih h

theorem binTargets_orderly {s : State} {u : Acc} {b : Nat × Nat × Nat} {seq n : Nat} (h : InOrder was s.vitals) :
    OrderlyOk was Prod.snd (binTargets s u b seq n) := by
  induction n generalizing s seq with
  | zero => exact .ok h
  | succ k ih =>
    unfold binTargets
    exact (umRead_orderly h).bind fun _ h => (ih h).bind fun _ h => .ok h

theorem binRun_orderly {s : State} {tk slot seq : Nat} {b : Nat × Nat × Nat} {c : UCmd} (h : InOrder was s.vitals) :
    OrderlyOk was id (binRun s tk slot seq b c) := by
  unfold binRun
  refine (umRead_orderly h).bind fun (bs, s1) h => ?_
  dsimp only
  split
  · exact .error
  · next cs _ =>
    split
    · exact .error
    · refine (binTargets_orderly h).bind fun (ts, s2) h => ?_
      dsimp only
      split
      · exact .error
      · split
        · exact .error
        · refine (binPatch_orderly h).bind fun s3 h => ?_
          have hend (s : State) (h : InOrder was s.vitals) : OrderlyOk was id (.ok (cmdComplete (modChain s tk slot fun q =>
              { q with tail := q.tail + c.cols, scopes := (List.range c.cols).foldl (fun m j =>
                mset m (seq + 1 + j) (ctlScope (ts.getD j 0))) q.scopes }) tk slot seq) : Except Perf State) := .ok (by simpa using h)
          split
          · exact hend _ h
          · exact (umWrite_orderly h).bind fun s4 h => hend s4 h

theorem execUmberBin_orderly {tm slot seq : Nat} {s : State} (h : InOrder was s.vitals) :
    Orderly was (execUmberBin tm slot seq s) := by
  unfold execUmberBin
  split
  · next r b _ _ =>
    dsimp only
    split
    · exact h
    · split
      · exact h
      · have hb := binRun_orderly (tk := tm) (slot := slot) (seq := seq) (b := b) (c := ucmd r.words) h
        split
        · next hs => simpa [hs] using hb
        · simpa using h
  · exact h

@[simp] theorem execCompletionWordWrite_orderly {tm slot : Nat} {s : State} (hw : InOrder was s.vitals) :
    Orderly was (execCompletionWordWrite tm slot s) := by
  unfold execCompletionWordWrite
  dsimp only
  (repeat' split) <;> simp [hw]

@[simp] theorem execChainAdvance_orderly {gid op : Nat} {s : State} (hw : InOrder was s.vitals) :
    Orderly was (execChainAdvance gid op s) := by
  unfold execChainAdvance
  split <;> simp [hw]

/-! ### Operations of Machine/Complete.lean -/

theorem execResultReadable_orderly {gid op : Nat} {s : State} (h : InOrder was s.vitals) :
    Orderly was (execResultReadable gid op s) := by
  unfold execResultReadable
  split
  · split
    · show InOrder was (State.vitals _)
      split <;> simp [h]
    · exact h
  · exact h

@[simp] theorem performOp_inOrder {s : State} {gid : Nat} {o : Op} (hw : InOrder was s.vitals) :
    InOrder was (performOp s gid o).vitals := by
  unfold performOp
  dsimp only
  (repeat' split) <;> simp [hw]

@[simp] theorem execOperationComplete_orderly {gid op : Nat} {s : State} (hw : InOrder was s.vitals) :
    Orderly was (execOperationComplete gid op s) := by
  unfold execOperationComplete
  dsimp only
  (repeat' split) <;> simp [hw]

@[simp] theorem execReadyAgePromote_orderly {gid k : Nat} {s : State} (hw : InOrder was s.vitals) :
    Orderly was (execReadyAgePromote gid k s) := by
  simp [execReadyAgePromote, hw]

@[simp] theorem execStopBound_orderly {gid k : Nat} {s : State} (hw : InOrder was s.vitals) :
    Orderly was (execStopBound gid k s) := by
  unfold execStopBound
  split <;> simp [hw]

@[simp] theorem execHomeRecall_orderly {grain : Nat} {s : State} (hw : InOrder was s.vitals) :
    Orderly was (execHomeRecall grain s) := by
  simp [execHomeRecall, hw]

@[simp] theorem execConvertedWrite_orderly {part va : Nat} {data : List Byte} {s : State} (hw : InOrder was s.vitals) :
    Orderly was (execConvertedWrite part va data s) := by
  unfold execConvertedWrite
  dsimp only
  (repeat' split) <;> simp [hw]

@[simp] theorem execCursorBufferDiscard_orderly {gid lane cur : Nat} {s : State} (hw : InOrder was s.vitals) :
    Orderly was (execCursorBufferDiscard gid lane cur s) := by
  simp [execCursorBufferDiscard, hw]

@[simp] theorem execHandlerEntry_orderly {gid k : Nat} {s : State} (hw : InOrder was s.vitals) :
    Orderly was (execHandlerEntry gid k s) := by
  unfold execHandlerEntry
  dsimp only
  (repeat' split) <;> simp [hw]

@[simp] theorem execFaultRecord_orderly {part idx : Nat} {s : State} (hw : InOrder was s.vitals) :
    Orderly was (execFaultRecord part idx s) := by
  unfold execFaultRecord
  dsimp only
  (repeat' split) <;> simp [hw]

theorem replayHeld_inOrder {s : State} {p : Nat} {w : HeldBy} (h : InOrder was s.vitals) :
    InOrder was (replayHeld s p w).vitals := by
  unfold replayHeld
  split
  · split
    · exact performOp_inOrder (by simpa using h)
    · simpa using h
  · simpa using h
  · simpa using h

theorem execHeldAccessReplay_orderly {part idx : Nat} {s : State} (h : InOrder was s.vitals) :
    Orderly was (execHeldAccessReplay part idx s) := by
  unfold execHeldAccessReplay
  split
  · exact h
  · show InOrder was (State.vitals _)
    split
    · exact h
    · exact h
    · exact replayHeld_inOrder h

theorem execFbgenWrite_orderly {part : Nat} {v : Word} {s : State} (h : InOrder was s.vitals) :
    Orderly was (execFbgenWrite part v s) := by
  unfold execFbgenWrite
  dsimp only
  split
  · exact h
  · exact foldl_inOrder (fun _ _ => replayHeld_inOrder) _ (by simpa using h)

/-! ### Operations of Machine/Cards.lean -/

@[simp] theorem readHeader_inOrder {s : State} {p desc : Nat} (hw : InOrder was s.vitals) :
    InOrder was (readHeader s p desc).2.vitals := by
  unfold readHeader
  dsimp only
  (repeat' split) <;> simp [hw]

@[simp] theorem acceptCard_inOrder {s : State} {p : Nat} {parent : Option Nat} {va : Nat} (hw : InOrder was s.vitals) :
    InOrder was (acceptCard s p parent va).2.vitals := by
  unfold acceptCard
  dsimp only
  (repeat' split) <;> simp [hw]

@[simp] theorem execHeadWrite_orderly {part chain : Nat} {v : Dword} {s : State} (hw : InOrder was s.vitals) :
    Orderly was (execHeadWrite part chain v s) := by
  simp [execHeadWrite, hw]

@[simp] theorem execTailWrite_orderly {part chain : Nat} {v : LinkWrite} {s : State} (hw : InOrder was s.vitals) :
    Orderly was (execTailWrite part chain v s) := by
  simp [execTailWrite, hw]

@[simp] theorem execChainErrClear_orderly {part chain : Nat} {s : State} (hw : InOrder was s.vitals) :
    Orderly was (execChainErrClear part chain s) := by
  simp [execChainErrClear, hw]

@[simp] theorem chainStop_inOrder {s : State} {p h code : Nat} (hw : InOrder was s.vitals) :
    InOrder was (chainStop s p h code).vitals := by
  simp [chainStop, hw]

theorem nextCard_inOrder {s : State} {p : Nat} {c : HostChain} (h : InOrder was s.vitals) :
    InOrder was (nextCard s p c).2.vitals := by
  unfold nextCard
  split
  · exact h
  · exact rangeRead_inOrder h

theorem acceptFromChain_inOrder {s : State} {p h : Nat} (hw : InOrder was s.vitals) :
    InOrder was (acceptFromChain s p h).vitals := by
  unfold acceptFromChain
  extract_lets c hold n
  split
  · exact hw
  · have hn : InOrder was n.2.vitals := nextCard_inOrder hw
    clear_value n
    split
    · simpa [hold] using hn
    · simp [hn]
    · next va _ =>
      split
      · simp [hn]
      · split
        · simp [hn]
        · extract_lets a
          have ha : InOrder was a.2.vitals := acceptCard_inOrder hn
          clear_value a
          split <;> simp [hold, ha]

@[simp] theorem acceptFromTask_inOrder {s : State} {p gid op dest card : Nat} (hw : InOrder was s.vitals) :
    InOrder was (acceptFromTask s p gid op dest card).vitals := by
  unfold acceptFromTask
  dsimp only
  split <;> simp [hw]

theorem execCardAccept_orderly {part : Nat} {src : CardSrc} {s : State} (h : InOrder was s.vitals) :
    Orderly was (execCardAccept part src s) := by
  unfold execCardAccept
  split
  · exact h
  · split
    · exact acceptFromChain_inOrder h
    · split
      · split
        · show InOrder was (State.vitals _)
          split <;> simp [h]
        · exact h
      · exact h

/-! ### Operations of Machine/Bulk.lean -/

theorem readDesc_inOrder {s : State} {p : Nat} {t : Task} (h : InOrder was s.vitals) :
    InOrder was (readDesc s p t).2.vitals := by
  unfold readDesc
  extract_lets b c r
  have hr : InOrder was r.2.vitals := rangeRead_inOrder h
  clear_value r
  split <;> simp [hr]

@[simp] theorem bulkDone_inOrder {s : State} {p tid : Nat} (hw : InOrder was s.vitals) :
    InOrder was (bulkDone s p tid).vitals := by
  unfold bulkDone
  split <;> simp [hw]

theorem bulkStep_orderly {kind part tid : Nat} {s : State} {f : Acc → Task → State → State} (h : InOrder was s.vitals)
    (hf : ∀ c t s, InOrder was s.vitals → InOrder was (f c t s).vitals) : Orderly was (bulkStep kind part tid s f) := by
  unfold bulkStep
  split
  · exact h
  · next t _ =>
    split
    · exact h
    · split
      · split
        · simp [h]
        · extract_lets r
          have hr : InOrder was r.2.vitals := readDesc_inOrder h
          clear_value r
          split
          · exact hr
          · extract_lets bad c
            split
            · exact hr
            · simp [c, hr]
      · split
        · simp [h]
        · exact hf _ _ _ (by simpa using h)

@[simp] theorem copyPiece_inOrder {c : Acc} {t : Task} {s : State} (hw : InOrder was s.vitals) :
    InOrder was (copyPiece c t s).vitals := by
  unfold copyPiece
  dsimp only
  (repeat' split) <;> simp [hw]

theorem execBulkCopy_orderly {part tid : Nat} {s : State} (h : InOrder was s.vitals) : Orderly was (execBulkCopy part tid s) :=
  bulkStep_orderly h fun _ _ _ => copyPiece_inOrder

@[simp] theorem convertPiece_inOrder {c : Acc} {t : Task} {s : State} (hw : InOrder was s.vitals) :
    InOrder was (convertPiece c t s).vitals := by
  unfold convertPiece
  dsimp only
  (repeat' split) <;> simp [hw]

theorem execBulkConvert_orderly {part tid : Nat} {s : State} (h : InOrder was s.vitals) :
    Orderly was (execBulkConvert part tid s) := bulkStep_orderly h fun _ _ _ => convertPiece_inOrder

theorem graphBulkStep_orderly {kind part tid : Nat} {s : State} {f : Acc → Task → GEntry → State → State}
    (h : InOrder was s.vitals) (hf : ∀ c t x s, InOrder was s.vitals → InOrder was (f c t x s).vitals) :
    Orderly was (graphBulkStep kind part tid s f) := by
  unfold graphBulkStep
  split
  · exact h
  · next t _ =>
    split
    · exact h
    · split
      · extract_lets cc r
        split
        · simp [h]
        · have hr : InOrder was r.2.vitals := readDesc_inOrder h
          clear_value r
          split
          · exact hr
          · show InOrder was (State.vitals _)
            split <;> simp [hr]
      · extract_lets c g
        have hg : InOrder was g.2.vitals := by simpa [g, c] using h
        clear_value g
        split
        · simp [hg]
        · extract_lets a
          have ha : InOrder was a.2.vitals := by simpa [a] using hg
          clear_value a
          split
          · simp [ha]
          · exact hf _ _ _ _ ha

@[simp] theorem buildPiece_inOrder {c : Acc} {t : Task} {g : GEntry} {s : State} (hw : InOrder was s.vitals) :
    InOrder was (buildPiece c t g s).vitals := by
  unfold buildPiece
  dsimp only
  (repeat' split) <;> simp [hw]

theorem execGbuild_orderly {part tid : Nat} {s : State} (h : InOrder was s.vitals) : Orderly was (execGbuild part tid s) := by
  unfold execGbuild
  split
  · exact h
  · split
    · simp [h]
    · exact graphBulkStep_orderly h fun _ _ _ _ => buildPiece_inOrder

/-- One array of a dump: nothing, a fault, or one write (R147). -/
theorem dumpPut_orderly {c : Acc} {s : State} {w base k : Nat} {bs : List Byte} (h : InOrder was s.vitals) :
    OrderlyOk was id (if bs.isEmpty then .ok s
      else if (base + k * w) % w ≠ 0 then .error (.fail (memTrap c 0 true 2 3 (base + k * w) 0))
      else
        match (rangeWrite s c 3 (base + k * w) bs 4).1 with
        | .ok _ => .ok (rangeWrite s c 3 (base + k * w) bs 4).2
        | .error f => .error f) := by
  split
  · exact .ok h
  · split
    · exact .error
    · split
      · exact .ok (rangeWrite_inOrder h)
      · exact .error

theorem dumpList_orderly {c : Acc} {t : Task} {g : GEntry} {l : GList} {s : State} (h : InOrder was s.vitals) :
    OrderlyOk was id (dumpList c t g l s) := by
  unfold dumpList
  extract_lets ctl n pb put marks rest
  have hput {s : State} {w base k : Nat} {bs : List Byte} (h : InOrder was s.vitals) : OrderlyOk was id (put s w base k bs) :=
    dumpPut_orderly h
  clear_value put
  have hmarks {s : State} (h : InOrder was s.vitals) : OrderlyOk was id (marks s) := by
    unfold marks
    split
    · exact hput h
    · exact .ok h
  have hrest {s : State} (h : InOrder was s.vitals) : OrderlyOk was id (rest s) := by
    refine (hput h).bind fun s h => ?_
    split
    · exact .ok h
    · refine (hput h).bind fun s h => ?_
      split
      · exact (hput h).bind fun _ h => hmarks h
      · exact hmarks h
  split
  · exact (hput h).bind fun _ h => hrest h
  · exact hrest h

theorem dumpPiece_inOrder {c : Acc} {t : Task} {g : GEntry} {s : State} (h : InOrder was s.vitals) :
    InOrder was (dumpPiece c t g s).vitals := by
  unfold dumpPiece
  extract_lets lo hi r v n a l
  split
  · split
    · simp [h]
    · split
      · split
        · simp [h]
        · have hr : InOrder was r.2.vitals := rangeWrite_inOrder h
          clear_value r
          split <;> simp [hr]
      · simp [h]
  · have ha : InOrder was a.2.vitals := by simpa [a] using h
    have hl : InOrder was l.2.vitals := by simpa [l] using ha
    clear_value l a
    split
    · simp [ha]
    · simp [hl]
    · next x _ _ =>
      have hd := dumpList_orderly (c := c) (t := t) (g := g) (l := x) hl
      split
      · simp [hl]
      · next hs =>
        simp only [hs, orderlyOk_ok, id] at hd
        simp [hd]

theorem execGdump_orderly {part tid : Nat} {s : State} (h : InOrder was s.vitals) : Orderly was (execGdump part tid s) :=
  graphBulkStep_orderly h fun _ _ _ _ => dumpPiece_inOrder

/-! ### Operations of Machine/Debug.lean -/

@[simp] theorem writeNotice_inOrder {s : State} {gid cause : Nat} {pc : Word} (hw : InOrder was s.vitals) :
    InOrder was (writeNotice s gid cause pc).vitals := by
  unfold writeNotice
  dsimp only
  (repeat' split) <;> simp [hw]

theorem execDebugHalt_orderly {gid : Nat} {s : State} (h : InOrder was s.vitals) : Orderly was (execDebugHalt gid s) := by
  unfold execDebugHalt
  split
  · exact h
  · split
    · exact h
    · split
      · split
        · split
          · next hs => exact writeNotice_inOrder (by simpa using saveCtx_inOrder h hs)
          · exact h
        · exact h
      · exact writeNotice_inOrder h
      · exact h

@[simp] theorem execDbgctlHalt_orderly {part : Nat} {s : State} (hw : InOrder was s.vitals) :
    Orderly was (execDbgctlHalt part s) := by
  simp [execDbgctlHalt, hw]

theorem resumeHalted_inOrder {s : State} {gid : Nat} (h : InOrder was s.vitals) :
    InOrder was (resumeHalted s gid).vitals := by
  unfold resumeHalted
  dsimp only
  split
  · exact h
  · split
    · split
      · exact h
      · next hs => simpa using restoreCtx_inOrder h hs
    · simpa using h

theorem resumeSlot_inOrder {s : State} {p : Nat} {v : Word} (h : InOrder was s.vitals) :
    InOrder was (resumeSlot s p v).vitals := foldl_inOrder (fun _ _ => resumeHalted_inOrder) _ h

theorem execDbgresWrite_orderly {part : Nat} {v : Word} {s : State} (h : InOrder was s.vitals) :
    Orderly was (execDbgresWrite part v s) := by
  show InOrder was (State.vitals _)
  split
  · exact resumeSlot_inOrder h
  · exact h

theorem execCorrectableError_orderly {s : State} (h : InOrder was s.vitals) : Orderly was (execCorrectableError s) :=
  h.setHealth fun hr => ⟨Nat.min_le_left _ _, hr.2⟩

@[simp] theorem execUncorrectableError_orderly {site : ErrSite} {s : State} (hw : InOrder was s.vitals) :
    Orderly was (execUncorrectableError site s) := by
  unfold execUncorrectableError
  split <;> simp [hw]

@[simp] theorem execNoframeStop_orderly {part tid va : Nat} {s : State} (hw : InOrder was s.vitals) :
    Orderly was (execNoframeStop part tid va s) := by
  unfold execNoframeStop
  dsimp only
  (repeat' split) <;> simp [hw]

/-! ### Operations of Machine/Firmware.lean -/

@[simp] theorem execShootdownSubmit_orderly {addr : Dword} {ctl : Word} {s : State} (hw : InOrder was s.vitals) :
    Orderly was (execShootdownSubmit addr ctl s) := by
  simp [execShootdownSubmit, hw]

@[simp] theorem execTlbAck_orderly {tlb : TlbId} {s : State} (hw : InOrder was s.vitals) : Orderly was (execTlbAck tlb s) := by
  unfold execTlbAck
  dsimp only
  (repeat' split) <;> simp [hw]

@[simp] theorem execMigrationSubmit_orderly {desc : List Word} {s : State} (hw : InOrder was s.vitals) :
    Orderly was (execMigrationSubmit desc s) := by
  simp [execMigrationSubmit, hw]

theorem execBlockHandover_orderly {s : State} (h : InOrder was s.vitals) : Orderly was (execBlockHandover s) := by
  unfold execBlockHandover
  split
  · exact h
  · next m _ =>
    split
    · exact h
    · extract_lets lo n dst grains s1 bytes s2 s3
      have h1 : InOrder was s1.vitals := foldl_inOrder (fun _ _ => recallGrain_inOrder) _ h
      have h2 : InOrder was s2.vitals := foldl_inOrder (fun _ _ => physWriteByte_inOrder) _ h1
      simpa [s3] using h2

theorem execRequestForward_orderly {idx : Nat} {s : State} (h : InOrder was s.vitals) :
    Orderly was (execRequestForward idx s) := by
  unfold execRequestForward
  split
  · exact h
  · split
    · exact h
    · exact performReq_inOrder (by simpa using h)

theorem retireMig_inOrder {s : State} (h : InOrder was s.vitals) : InOrder was (retireMig s).vitals := by
  unfold retireMig
  split
  · split
    · simp [h]
    · exact h
  · exact h

theorem execMigstatMapped_orderly {s : State} (h : InOrder was s.vitals) : Orderly was (execMigstatMapped s) := by
  show InOrder was (State.vitals _)
  split
  · exact retireMig_inOrder h
  · exact h

@[simp] theorem physWrite_inOrder {s : State} {pa key : Nat} {data : List Byte} (hw : InOrder was s.vitals) :
    InOrder was (physWrite s pa key data).vitals := by
  simp [physWrite, hw]

theorem execFirmwareMemoryWrite_orderly {what : FwTarget} {data : List Byte} {s : State} (h : InOrder was s.vitals) :
    Orderly was (execFirmwareMemoryWrite what data s) := by
  unfold execFirmwareMemoryWrite
  split
  · exact h
  · split
    · show InOrder was (State.vitals _)
      split <;> simp [h]
    · show InOrder was (State.vitals _)
      split
      · simpa using h
      · exact h

@[simp] theorem execHostMemoryWrite_orderly {link part va : Nat} {data : List Byte} {s : State} (hw : InOrder was s.vitals) :
    Orderly was (execHostMemoryWrite link part va data s) := by
  unfold execHostMemoryWrite
  dsimp only
  (repeat' split) <;> simp [hw]

@[simp] theorem execKeyLoad_orderly {part key : Nat} {peer : List Byte} {secret : Secret} {s : State}
    (hw : InOrder was s.vitals) :
    Orderly was (execKeyLoad part key peer secret s) := by
  unfold execKeyLoad
  split <;> simp [hw]

@[simp] theorem execKeySlotErase_orderly {part key : Nat} {s : State} (hw : InOrder was s.vitals) :
    Orderly was (execKeySlotErase part key s) := by
  unfold execKeySlotErase
  split <;> simp [hw]

/-! ### Operations of Machine/Resize.lean -/

@[simp] theorem execResizeSubmit_orderly {desc : List Word} {s : State} (hw : InOrder was s.vitals) :
    Orderly was (execResizeSubmit desc s) := by
  simp [execResizeSubmit, hw]

@[simp] theorem scrubCores_inOrder {s : State} {cores : Nat} (hw : InOrder was s.vitals) :
    InOrder was (scrubCores s cores).vitals :=
  foldl_inOrder (fun s x hw => by simp [hw]) _ hw

theorem scrubChans_inOrder {s : State} {p chans : Nat} (h : InOrder was s.vitals) :
    InOrder was (scrubChans s p chans).vitals := by
  unfold scrubChans
  split
  · exact h
  · extract_lets out line clean s0 s1 kept
    have h1 : InOrder was s1.vitals := by simp [s1, s0, h]
    exact h1.setMem (Memory.wf_filter _)

theorem quarEvents_inOrder {s : State} {m : Nat × Nat × Nat} (h : InOrder was s.vitals) :
    InOrder was (quarEvents s m).vitals := by
  unfold quarEvents
  extract_lets one s1 s2
  have hone (kind : Nat) (s : State) (g : Nat) (h : InOrder was s.vitals) : InOrder was (one kind s g).vitals :=
    reportEvent_inOrder h
  exact foldl_inOrder (hone 2) _ (foldl_inOrder (hone 1) _ (foldl_inOrder (hone 0) _ h))

theorem attach_inOrder {s : State} {r : Resize} (h : InOrder was s.vitals) : InOrder was (attach s r).2.vitals := by
  unfold attach
  extract_lets s1 s2 s3 s4 q
  have h1 : InOrder was s1.vitals := by simpa [s1] using h
  clear_value s1
  have h2 : InOrder was s2.vitals := by
    unfold s2
    split
    · simpa using h1
    · exact h1
  clear_value s2
  have h3 : InOrder was s3.vitals := by simpa [s3] using h2
  clear_value s3
  split
  · simpa [s4] using h3
  · show InOrder was (swapDue _).vitals
    split
    · simpa using quarEvents_inOrder h3
    · simpa using h3

theorem resizeNext_inOrder {s : State} {r : Resize} (h : InOrder was s.vitals) : InOrder was (resizeNext s r).2.vitals := by
  unfold resizeNext
  split
  · simpa using h
  · extract_lets s1 x
    have h1 : InOrder was s1.vitals := by
      unfold s1
      split
      · exact scrubChans_inOrder (scrubCores_inOrder h)
      · exact h
    exact attach_inOrder h1
  · show InOrder was (State.vitals _)
    split
    · simpa using h
    · exact h
  · exact h

theorem execResizeStateAdvance_orderly {idx : Nat} {s : State} (h : InOrder was s.vitals) :
    Orderly was (execResizeStateAdvance idx s) := by
  unfold execResizeStateAdvance
  split
  · exact h
  · next r _ =>
    split
    · exact h
    · have hx : InOrder was (resizeNext s r).2.vitals := resizeNext_inOrder h
      dsimp only
      split
      · simpa using hx
      · show InOrder was (State.vitals _)
        split <;> simpa using hx

@[simp] theorem execBucketHandover_orderly {idx : Nat} {ctrl : Bool} {bucket : Nat} {s : State} (hw : InOrder was s.vitals) :
    Orderly was (execBucketHandover idx ctrl bucket s) := by
  unfold execBucketHandover
  dsimp only
  (repeat' split) <;> simp [hw]

@[simp] theorem relocate_inOrder {s : State} {tk core slot qb : Nat} (hw : InOrder was s.vitals) :
    InOrder was (relocate s tk core slot qb).vitals := by
  unfold relocate
  split <;> simp [hw]

theorem execTeamMove_orderly {tm : Nat} {s : State} (h : InOrder was s.vitals) : Orderly was (execTeamMove tm s) := by
  unfold execTeamMove
  split
  · exact h
  · split
    · exact h
    · split
      · show InOrder was (State.vitals _)
        split <;> simp [h]
      · split
        · simp [h]
        · split
          · split
            · simp [h]
            · exact h
          · exact h

/-! ### Operations of Machine/Regs.lean -/

@[simp] theorem execPctlWrite_orderly {part : Nat} {v : Word} {s : State} (hw : InOrder was s.vitals) :
    Orderly was (execPctlWrite part v s) := by
  simp [execPctlWrite, hw]

@[simp] theorem execVquotaWrite_orderly {part : Nat} {v : Word} {s : State} (hw : InOrder was s.vitals) :
    Orderly was (execVquotaWrite part v s) := by
  simp [execVquotaWrite, hw]

@[simp] theorem execOtinvWrite_orderly {part : Nat} {v : Word} {s : State} (hw : InOrder was s.vitals) :
    Orderly was (execOtinvWrite part v s) := by
  simp [execOtinvWrite, hw]

@[simp] theorem execOtinvComplete_orderly {part : Nat} {s : State} (hw : InOrder was s.vitals) :
    Orderly was (execOtinvComplete part s) := by
  unfold execOtinvComplete
  split <;> simp [hw]

theorem setFbgen_inOrder {s : State} {p v : Nat} (h : InOrder was s.vitals) : InOrder was (setFbgen s p v).vitals := by
  have hw := execFbgenWrite_orderly (part := p) (v := BitVec.ofNat 32 v) h
  unfold setFbgen
  split
  · next hs => rw [hs] at hw; exact hw
  · exact h

theorem partWrite_inOrder {s : State} {p off v : Nat} (h : InOrder was s.vitals) :
    InOrder was (partWrite s p off v).vitals := by
  unfold partWrite
  extract_lets at_ set8 set4
  have h8 (high : Bool) (f : Nat → Partition → Partition) : InOrder was (set8 high f).vitals := by
    show InOrder was (write8 ..).vitals
    rwa [write8_vitals _ _ _ _ _ fun _ _ => by simp]
  have h4 (f : Partition → Partition) : InOrder was (set4 f).vitals := by simpa [set4] using h
  clear_value set8 set4
  split
  case h_10 => exact setFbgen_inOrder h
  case h_24 => exact resumeSlot_inOrder h
  all_goals simp [h, h4, h8]

theorem setHealth_inOrder {s : State} {v : Nat} (h : InOrder was s.vitals) : InOrder was (setHealth s v).vitals := by
  unfold setHealth
  extract_lets m s1 s2 s3
  have h1 : InOrder was s1.vitals := h.setHealth fun _ => by
    have hb (hi lo : Nat) : bitsOf v hi lo < 2 ^ (hi + 1 - lo) := Nat.mod_lt _ (by positivity)
    exact ⟨Nat.le_of_lt_succ (hb 14 0), Nat.min_le_left _ _, Nat.le_of_lt_succ (hb 27 20)⟩
  have h2 : InOrder was s2.vitals := by
    unfold s2
    split
    · exact reportEvent_inOrder h1
    · exact h1
  have h3 : InOrder was s3.vitals := by
    unfold s3
    split
    · exact reportEvent_inOrder h2
    · exact h2
  split
  · exact reportEvent_inOrder h3
  · exact h3

theorem setMigstat_inOrder {s : State} {v : Nat} (h : InOrder was s.vitals) : InOrder was (setMigstat s v).vitals := by
  unfold setMigstat
  extract_lets s1
  have h1 : InOrder was s1.vitals := by
    unfold s1
    split <;> simp [h]
  split
  · exact retireMig_inOrder h1
  · exact h1

theorem mgmtWrite_inOrder {s : State} {off v : Nat} (h : InOrder was s.vitals) : InOrder was (mgmtWrite s off v).vitals := by
  unfold mgmtWrite
  extract_lets w s1 s2 s3 d
  split
  · exact partWrite_inOrder h
  · split
    · split <;> simp [s1, h]
    · split
      · split <;> simp [s2, h]
      · split
        · split <;> simp [s3, h]
        · split
          · exact setHealth_inOrder h
          · split
            · exact setMigstat_inOrder h
            · simp [h]

theorem spaceWrite_inOrder {sp : RegSpace} {s : State} {off v : Nat} (h : InOrder was s.vitals) :
    InOrder was (spaceWrite sp s off v).vitals := by
  unfold spaceWrite
  split
  · split
    · exact mgmtWrite_inOrder h
    · exact h
  · simp [h]
  · simp [h]

theorem execRegisterWrite_orderly {space : RegSpace} {off : Nat} {v : Dword} {wide : Bool} {s : State}
    (h : InOrder was s.vitals) : Orderly was (execRegisterWrite space off v wide s) := by
  unfold execRegisterWrite
  extract_lets x
  split
  · show InOrder was (State.vitals _)
    split
    · exact spaceWrite_inOrder (spaceWrite_inOrder h)
    · exact h
  · show InOrder was (State.vitals _)
    split
    · exact spaceWrite_inOrder h
    · exact h

/-! ### Operations of Machine/Health.lean -/

@[simp] theorem writeDump_inOrder {s : State} {d : Dump} (hw : InOrder was s.vitals) : InOrder was (writeDump s d).vitals :=
  foldl_inOrder (fun s x hw => by simp [hw]) _ hw

@[simp] theorem execAttestationRequest_orderly {part : Nat} {nonce : List Byte} {s : State} (hw : InOrder was s.vitals) :
    Orderly was (execAttestationRequest part nonce s) := by
  unfold execAttestationRequest
  split <;> simp [hw]

@[simp] theorem execDieLinkLoss_orderly {a b : Nat} {s : State} (hw : InOrder was s.vitals) :
    Orderly was (execDieLinkLoss a b s) := by
  unfold execDieLinkLoss
  dsimp only
  split <;> simp [hw]

@[simp] theorem execDieLinkRetrain_orderly {a b : Nat} {s : State} (hw : InOrder was s.vitals) :
    Orderly was (execDieLinkRetrain a b s) := by
  simp [execDieLinkRetrain, hw]

@[simp] theorem execLinkPortLoss_orderly {port : Nat} {s : State} (hw : InOrder was s.vitals) :
    Orderly was (execLinkPortLoss port s) := by
  unfold execLinkPortLoss
  split <;> simp [hw]

@[simp] theorem execFlitAck_orderly {port n : Nat} {s : State} (hw : InOrder was s.vitals) :
    Orderly was (execFlitAck port n s) := by
  simp [execFlitAck, hw]

@[simp] theorem execFlitRetry_orderly {n : Nat} {s : State} (hw : InOrder was s.vitals) : Orderly was (execFlitRetry n s) := by
  simp [execFlitRetry, hw]

@[simp] theorem domainPerform_inOrder {s : State} {pa key : Nat} {o : DomOp} (hw : InOrder was s.vitals) :
    InOrder was (domainPerform s pa key o).2.vitals := by
  unfold domainPerform
  dsimp only
  (repeat' split) <;> simp [hw]

@[simp] theorem execDomainRequest_orderly {r : DomReq} {s : State} (hw : InOrder was s.vitals) :
    Orderly was (execDomainRequest r s) := by
  unfold execDomainRequest
  dsimp only
  (repeat' split) <;> simp [hw]

@[simp] theorem requestRepl_inOrder {s : State} {die : Nat} (hw : InOrder was s.vitals) :
    InOrder was (requestRepl s die).vitals := by
  unfold requestRepl
  split <;> simp [hw]

@[simp] theorem takeOut_inOrder {s : State} {kind die g : Nat} (hw : InOrder was s.vitals) :
    InOrder was (takeOut s kind die g).vitals := by
  simp [takeOut, hw]

@[simp] theorem execRetireFailingUnit_orderly {kind die unit : Nat} {s : State} (hw : InOrder was s.vitals) :
    Orderly was (execRetireFailingUnit kind die unit s) := by
  unfold execRetireFailingUnit
  dsimp only
  (repeat' split) <;> simp [hw]

@[simp] theorem execGranuleRepair_orderly {kind g : Nat} {s : State} (hw : InOrder was s.vitals) :
    Orderly was (execGranuleRepair kind g s) := by
  unfold execGranuleRepair
  split <;> simp [hw]

@[simp] theorem fatal_inOrder {s : State} (hw : InOrder was s.vitals) : InOrder was (fatal s).vitals := by
  unfold fatal
  split <;> simp [hw]

@[simp] theorem execCorePowerUp_orderly {core : Nat} {s : State} (hw : InOrder was s.vitals) :
    Orderly was (execCorePowerUp core s) := by
  simp [execCorePowerUp, hw]

/-! ### Operations of Machine/Sys.lean -/

@[simp] theorem otsetEffect_inOrder {i : Iss} {s : State} (hw : InOrder was s.vitals) :
    InOrder was (otsetEffect i s).vitals := by
  unfold otsetEffect
  split <;> simp [hw]

/-! ### Reset, throttling and power -/

/-- RESET starts from memory less the dump, and from a health register of zeros. -/
theorem afterReset_inOrder {s : State} (h : InOrder was s.vitals) : InOrder was (afterReset s).vitals := by
  have he : InOrder was ⟨eraseDump s, s.host, 0, 0, 0⟩ := by
    refine ⟨fun hm => ?_, h.host, fun _ => by simp [Vitals.inRange]⟩
    unfold eraseDump
    split
    · exact h.mem hm
    · exact Memory.wf_filter _ (h.mem hm)
  simpa [afterReset, Mgmt.reset] using he

theorem execReset_orderly {images : Flash} {s : State} (h : InOrder was s.vitals) : Orderly was (execReset images s) := by
  have ha : InOrder was (afterReset s).vitals := afterReset_inOrder h
  unfold execReset
  extract_lets s1 b
  split
  · exact ha
  · exact reportEvent_inOrder ha

theorem execFatalError_orderly {why : FatalCause} {s : State} (h : InOrder was s.vitals) :
    Orderly was (execFatalError why s) := by
  unfold execFatalError
  split <;> (show InOrder was (State.vitals _); split <;> simp [h])

/-- The throttle has steps 0 to 8 (R408). -/
theorem nextThrottle_le {k temp watts : Nat} (h : k ≤ 8) : nextThrottle k temp watts ≤ 8 := by
  unfold nextThrottle
  split
  · exact Nat.min_le_left _ _
  · split <;> omega

theorem execThrottleStep_orderly {temps : List Nat} {watts : Nat} {s : State} (h : InOrder was s.vitals) :
    Orderly was (execThrottleStep temps watts s) := by
  unfold execThrottleStep
  extract_lets t k s1 s2
  have h1 : InOrder was s1.vitals := h.setHealth fun ⟨hc, ht, _⟩ => ⟨hc, nextThrottle_le ht, Nat.min_le_left _ _⟩
  have h2 : InOrder was s2.vitals := by
    unfold s2
    split
    · exact h1
    · exact reportEvent_inOrder h1
  show InOrder was (State.vitals _)
  split
  · exact fatal_inOrder h2
  · exact h2

theorem execCorePowerGate_orderly {core : Nat} {s : State} (h : InOrder was s.vitals) :
    Orderly was (execCorePowerGate core s) := by
  unfold execCorePowerGate
  split
  · exact h
  · extract_lets grains s1
    have h1 : InOrder was s1.vitals := by
      simpa [s1] using foldl_inOrder (fun _ _ => recallGrain_inOrder) grains h
    simpa using h1

/-- Every operation keeps the vital parts in order. -/
theorem exec_orderly {i : Instr} {s : State} (h : InOrder was s.vitals) : Orderly was (exec i s) := by
  cases i
  case iadd | isub | imul | imulh | imad | imin | imax | iabs | iadd64 | imadw | shl | shr | sar | fshf | ltab | popc
       | clz | brev | bfe | bfi | bpick | icmp | ptab | sel | mov | wrsp | lea | idp4 | fadd | fmul | ffma | fmin | fmax
       | fcmp | fclass | fscale | frnd | cvt | pkn | upkn | cfma | cmul | fdp2 | rand | prune =>
    exact execLane_orderly h
  case sadd | ssub | smul | smad | smin | smax | sshl | sshr | ssar | sltab | smov | scmp | ssel | sadd64 | smadw | sbfe
       | spopc | sclz | qtab | sffma | scvt =>
    exact execUni_orderly h
  case rdsp | frcp | frsq | fsqrt | fdiv | fexp2 | flog2 | xf | enc | xlane | poll | redux | scan | matchB | topk
       | plnst | mdrn | ld | st | sts | atom | atoms | red | tld | tstr | pref | resq | hins | hprobe | hacc | hdel
       | gld | gdeg | gadd | gdel | gfind | gpay | copen | cnext | cseek | cinfo | cclose | gisect | sld | sst | slds
       | ssts | satom | oinfo | brl | rjn | call | exit | loopn | nop | bar | bara | gbar | fence | cqinit | cqadv
       | cqseq | task | tsettle | hinit | setcmp | rquota | wrsr | trap | bkpt | tkill =>
    exact issue_orderly h fun _ _ ht => by simp [ht]
  case bra | brx | ret | setfmt | tret | otset | pinv =>
    exact issueChecked_orderly h fun _ _ ht => by simp [ht]
  case dcd | mma | mmac | lds | barw | rcw | cqwait | tjoin =>
    exact issueWait_orderly h fun _ _ _ ht => by simp [ht]
  case resultReadable => exact execResultReadable_orderly h
  case operationComplete => exact execOperationComplete_orderly h
  case readyAgePromote => exact execReadyAgePromote_orderly h
  case stopBound => exact execStopBound_orderly h
  case groupEnd => exact execGroupEnd_orderly h
  case teamEnd => exact execTeamEnd_orderly h
  case homeRecall => exact execHomeRecall_orderly h
  case convertedWrite => exact execConvertedWrite_orderly h
  case cursorBufferDiscard => exact execCursorBufferDiscard_orderly h
  case faultRecord => exact execFaultRecord_orderly h
  case heldAccessReplay => exact execHeldAccessReplay_orderly h
  case fbgenWrite => exact execFbgenWrite_orderly h
  case umberCommandStart => exact execUmberCommandStart_orderly h
  case umberCopy => exact umberStep_orderly h
  case umberGather => exact umberStep_orderly h
  case umberScatter => exact umberStep_orderly h
  case umberMerge => exact umberStep_orderly h
  case umberBin => exact execUmberBin_orderly h
  case umberFence => exact execUmberFence_orderly h
  case rowLanding => exact execRowLanding_orderly h
  case completionWordWrite => exact execCompletionWordWrite_orderly h
  case chainAdvance => exact execChainAdvance_orderly h
  case headWrite => exact execHeadWrite_orderly h
  case tailWrite => exact execTailWrite_orderly h
  case chainErrClear => exact execChainErrClear_orderly h
  case cardAccept => exact execCardAccept_orderly h
  case taskRelease => exact execTaskRelease_orderly h
  case fire => exact execFire_orderly h
  case recordWrite => exact execRecordWrite_orderly h
  case bulkCopy => exact execBulkCopy_orderly h
  case bulkConvert => exact execBulkConvert_orderly h
  case gbuild => exact execGbuild_orderly h
  case gdump => exact execGdump_orderly h
  case dispatchBatch => exact execDispatchBatch_orderly h
  case teamAdmit => exact execTeamAdmit_orderly h
  case partialEviction => exact execPartialEviction_orderly h
  case evictionSave => exact execEvictionSave_orderly h
  case groupReturn => exact execGroupReturn_orderly h
  case gbarArrival => exact execGbarArrival_orderly h
  case handlerEntry => exact execHandlerEntry_orderly h
  case taskLevelStop => exact execTaskLevelStop_orderly h
  case debugHalt => exact execDebugHalt_orderly h
  case dbgctlHalt => exact execDbgctlHalt_orderly h
  case dbgresWrite => exact execDbgresWrite_orderly h
  case correctableError => exact execCorrectableError_orderly h
  case uncorrectableError => exact execUncorrectableError_orderly h
  case shootdownSubmit => exact execShootdownSubmit_orderly h
  case tlbAck => exact execTlbAck_orderly h
  case migrationSubmit => exact execMigrationSubmit_orderly h
  case blockHandover => exact execBlockHandover_orderly h
  case requestForward => exact execRequestForward_orderly h
  case migstatMapped => exact execMigstatMapped_orderly h
  case resizeSubmit => exact execResizeSubmit_orderly h
  case resizeStateAdvance => exact execResizeStateAdvance_orderly h
  case teamMove => exact execTeamMove_orderly h
  case bucketHandover => exact execBucketHandover_orderly h
  case pctlWrite => exact execPctlWrite_orderly h
  case vquotaWrite => exact execVquotaWrite_orderly h
  case otinvWrite => exact execOtinvWrite_orderly h
  case otinvComplete => exact execOtinvComplete_orderly h
  case registerWrite => exact execRegisterWrite_orderly h
  case dieLinkLoss => exact execDieLinkLoss_orderly h
  case linkPortLoss => exact execLinkPortLoss_orderly h
  case flitAck => exact execFlitAck_orderly h
  case flitRetry => exact execFlitRetry_orderly (n := 0) h
  case domainRequest => exact execDomainRequest_orderly h
  case reset => exact execReset_orderly h
  case attestationRequest => exact execAttestationRequest_orderly h
  case keyLoad => exact execKeyLoad_orderly h
  case throttleStep => exact execThrottleStep_orderly h
  case fatalError => exact execFatalError_orderly h
  case corePowerUp => exact execCorePowerUp_orderly h
  case corePowerGate => exact execCorePowerGate_orderly h
  case hostMemoryWrite => exact execHostMemoryWrite_orderly h
  case firmwareMemoryWrite => exact execFirmwareMemoryWrite_orderly h
  case noframeStop => exact execNoframeStop_orderly h
  case keySlotErase => exact execKeySlotErase_orderly h
  case retireFailingUnit => exact execRetireFailingUnit_orderly h
  case granuleRepair => exact execGranuleRepair_orderly h
  case dieLinkRetrain => exact execDieLinkRetrain_orderly h

theorem runFetched_orderly {s : State} {a : At} {f : Fetched} (h : InOrder was s.vitals) :
    Orderly was (runFetched s a f) := by
  unfold runFetched
  split
  · exact exec_orderly (by simpa using h)
  · simp [h]
  · simp [h]
  · simp [h]

theorem turn_orderly {s : State} {gid k : Nat} (h : InOrder was s.vitals) : Orderly was (turn s gid k) := by
  unfold turn
  split
  · exact h
  · next a _ =>
    split
    · simp [h]
    · split
      · simp [h]
      · split
        · simp [h]
        · split
          · simp [h]
          · extract_lets f space
            split
            · simp [h]
            · exact runFetched_orderly h

theorem tick_orderly {r : Res} (h : Orderly was r) : Orderly was (tick r) := by
  cases r <;> exact h

theorem deviceStep_orderly {s : State} (h : InOrder was s.vitals) : Orderly was (deviceStep s) := by
  unfold deviceStep
  extract_lets rs s1 all due ps evs c
  have hc : InOrder was c.2.vitals := by simpa [c, s1] using h
  clear_value c
  split
  · exact tick_orderly (turn_orderly hc)
  · split
    · exact tick_orderly (exec_orderly (by simpa using hc))
    · exact tick_orderly hc

/-- One step of the machine keeps the vital parts in order. -/
theorem step_orderly {s : State} (h : InOrder was s.vitals) : Orderly was (step s) := by
  unfold step stepOnce
  split
  · next i rest _ =>
    extract_lets ks c k
    have hc : InOrder was c.2.vitals := by simpa [c] using h
    clear_value c
    split
    · exact deviceStep_orderly hc
    · exact tick_orderly (exec_orderly (by simpa using hc))
  · exact deviceStep_orderly h

/-- What was in order before a step is in order after it. -/
theorem step_inOrder {s t : State} (h : step s = .next t) : InOrder s.vitals t.vitals := by
  have hs := step_orderly (InOrder.refl s.vitals)
  rwa [h] at hs


/-- Settles O58: every operation keeps what was in order in order, so the step that runs one does. -/
theorem memoryStaysCanonical : Obligations.MemoryStaysCanonical := by
  unfold Obligations.MemoryStaysCanonical
  intro s t hm hh h
  have hs := step_inOrder h
  exact ⟨hs.mem hm, hs.host hh⟩

end Sys2Proof.Machine
end

section
/-!
O53. The dump of a fatal error is written into device memory like any other bytes, so a formatted graph pool that holds the
region of the dump notes the write (R81, `notePool`).
-/

namespace Sys2Proof.Machine

/-- A pool notes a write of a byte that it holds. -/
theorem notePool_edited {s : State} {q : Pool} {a : Nat} (hq : q ∈ s.pools) (ha : poolHolds s q a = true) :
    ∃ r ∈ (notePool s a).pools, origA s a ∈ r.edited := by
  have hne : s.pools.isEmpty = false := by
    simpa using List.ne_nil_of_mem hq
  simp only [notePool, hne, Bool.false_eq_true, if_false]
  refine ⟨_, List.mem_map_of_mem hq, ?_⟩
  split
  · exact List.mem_cons_self
  · next hc => simpa [ha] using hc

/-- A pool forgets no write that it has noted. -/
theorem notePool_keeps_edited {s : State} {q : Pool} {a x : Nat} (hq : q ∈ s.pools) (hx : x ∈ q.edited) :
    ∃ r ∈ (notePool s a).pools, x ∈ r.edited := by
  unfold notePool
  split
  · exact ⟨q, hq, hx⟩
  · refine ⟨_, List.mem_map_of_mem hq, ?_⟩
    split
    · exact List.mem_cons_of_mem _ hx
    · exact hx

/-- A byte written marks the pools as `notePool` says. -/
@[simp] theorem physWriteByte_pools (s : State) (a key : Nat) (b : Byte) :
    (physWriteByte s a key b).pools = (notePool s a).pools := by
  unfold physWriteByte
  dsimp only
  split <;> rfl

/-- Bytes written without a key let no pool forget a write. -/
theorem foldl_physWriteByte_keeps_edited {x : Nat} (ws : List (Byte × Nat)) {s : State}
    (h : ∃ q ∈ s.pools, x ∈ q.edited) :
    ∃ q ∈ (ws.foldl (fun acc b => physWriteByte acc (dumpAt b.2) 0 b.1) s).pools, x ∈ q.edited := by
  induction ws generalizing s with
  | nil => exact h
  | cons w ws ih =>
    obtain ⟨q, hq, hx⟩ := h
    refine ih ?_
    rw [physWriteByte_pools]
    exact notePool_keeps_edited hq hx

/-- An event leaves the pools, FATAL and a migration as they are. -/
theorem reportEvent_keeps (s : State) (ty die part info : Nat) :
    (reportEvent s ty die part info).pools = s.pools ∧ (reportEvent s ty die part info).mgmt.fatal = s.mgmt.fatal
      ∧ (reportEvent s ty die part info).mgmt.mig = s.mgmt.mig := by
  unfold reportEvent
  dsimp only
  split
  · exact ⟨rfl, rfl, rfl⟩
  · split <;> exact ⟨rfl, rfl, rfl⟩

/-- Without a migration a byte is where it was. -/
theorem origA_of_mig_none {s : State} {a : Nat} (h : s.mgmt.mig = none) : origA s a = a := by
  simp [origA, h]

/-- A dump has bytes: at least the four of its last field. -/
theorem dumpBytes_ne_nil (d : Dump) : dumpBytes d ≠ [] := by
  intro h
  have hl := congrArg List.length h
  simp [dumpBytes, leBytes] at hl

/-- A pool that holds the first byte of the dump region notes that the dump was written. -/
theorem writeDump_edited {s : State} {q : Pool} {d : Dump} (hq : q ∈ s.pools) (ha : poolHolds s q (dumpAt 0) = true) :
    ∃ r ∈ (writeDump s d).pools, origA s (dumpAt 0) ∈ r.edited := by
  unfold writeDump
  cases hb : dumpBytes d with
  | nil => exact absurd hb (dumpBytes_ne_nil d)
  | cons b bs =>
    rw [List.zipIdx_cons, List.foldl_cons]
    refine foldl_physWriteByte_keeps_edited _ ?_
    rw [physWriteByte_pools]
    exact notePool_edited (s := modMgmt s fun m => { m with dump := some d }) hq ha

/-- Such a pool notes the dump that a fatal error writes. -/
theorem fatal_edited {s : State} {q : Pool} (hf : s.mgmt.fatal = false) (hq : q ∈ s.pools)
    (ha : poolHolds s q (dumpAt 0) = true) : ∃ r ∈ (fatal s).pools, origA s (dumpAt 0) ∈ r.edited := by
  simp only [fatal, hf, Bool.false_eq_true, if_false, (reportEvent_keeps ..).1]
  generalize dumpOf s = d
  exact writeDump_edited hq ha

/-- A temperature step at 105 °C is a fatal error of a device whose pools, FATAL and migration are as they were. -/
theorem execThrottleStep_of_hot {s : State} {temps : List Nat} {watts : Nat} (h : 105 ≤ hottest temps) :
    ∃ u, execThrottleStep temps watts s = .next (fatal u) ∧ u.pools = s.pools ∧ u.mgmt.fatal = s.mgmt.fatal
      ∧ u.mgmt.mig = s.mgmt.mig := by
  unfold execThrottleStep
  extract_lets t k s1 s2
  refine ⟨s2, by rw [if_pos h], ?_⟩
  unfold s2
  split
  · exact ⟨rfl, rfl, rfl⟩
  · exact reportEvent_keeps ..

/-- A pool whose one frame begins where the dump region does, and that no one has written to. -/
def dumpPool : Pool where
  part := 0
  pbase := 0
  plen := 2 ^ 16
  vlim := 0
  dirs := false
  psz := 0
  lists := []
  edited := []
  frames := [(0, dumpAt 0)]
  torn := false

/-- The device after reset, with that pool. -/
def sDumpPool : State := { State.reset with pools := [dumpPool] }

/-- Refutes O53: at 105 °C a THROTTLE_STEP is a fatal error, whose dump a graph pool that holds the dump region notes as a
write of its bytes, so more changes than device memory, the host's and the management state. -/
theorem not_healthAndPower : ¬ Obligations.HealthAndPower := by
  unfold Obligations.HealthAndPower
  intro ⟨_, _, hthrottle, _⟩
  obtain ⟨t, ht, hsame, _⟩ := hthrottle sDumpPool [105] 0
  have hpools : t.pools = [dumpPool] := congrArg State.pools hsame
  obtain ⟨u, hu, hupools, hufatal, humig⟩ :=
    execThrottleStep_of_hot (s := sDumpPool) (temps := [105]) (watts := 0) (by decide)
  have hplace : origA u (dumpAt 0) = dumpAt 0 := origA_of_mig_none humig
  obtain ⟨r, hr, hx⟩ := fatal_edited (q := dumpPool) hufatal (hupools ▸ List.mem_cons_self)
    (by simp [poolHolds, dumpPool, hplace])
  have htu : t = fatal u := Host.Outcome.next.inj (ht.symm.trans hu)
  rw [hplace] at hx
  rw [← htu] at hr
  rw [hpools, List.mem_singleton] at hr
  subst hr
  exact absurd hx List.not_mem_nil

end Sys2Proof.Machine
end

section
/-!
O56. A step: the inputs that may happen next, the choice among turns and internal steps, and the instruction that a turn
fetches and runs (R25, R26, R110, R114, R168, R169).
-/

namespace Sys2Proof.Machine

/-! ### The agenda -/

/-- What it takes for a write to overtake an earlier input (R114). -/
theorem of_overtakes {late early : Instr} (h : overtakes late early = true) :
    ∃ a b p va data, early = .hostMemoryWrite a p va data ∧ data ≠ [] ∧ hostLink late = some b ∧ a ≠ b := by
  unfold overtakes at h
  split at h
  · next b a p va data hl =>
    simp only [Bool.and_eq_true, bne_iff_ne, Bool.not_eq_true', List.isEmpty_eq_false_iff] at h
    exact ⟨a, b, p, va, data, rfl, h.2, hl, Ne.symm h.1⟩
  · exact absurd h Bool.false_ne_true

/-- An input that may happen next stands on the agenda, and overtakes every input before it. -/
theorem mem_agendaPicks {xs : List Instr} {k : Nat} : k ∈ agendaPicks xs ↔
    ∃ x, xs[k]? = some x ∧ ∀ (j : Nat) (y : Instr), j < k → xs[j]? = some y → overtakes x y = true := by
  unfold agendaPicks
  simp only [List.mem_filter, List.mem_range, List.all_eq_true]
  constructor
  · rintro ⟨hk, hall⟩
    refine ⟨xs[k], List.getElem?_eq_getElem hk, fun j y hj hy => ?_⟩
    have hy' : y ∈ xs.take k := List.mem_iff_getElem?.2 ⟨j, by simpa [List.getElem?_take, hj] using hy⟩
    simpa [List.getElem?_eq_getElem hk] using hall y hy'
  · rintro ⟨x, hx, hall⟩
    obtain ⟨hk, -⟩ := List.getElem?_eq_some_iff.1 hx
    refine ⟨hk, fun y hy => ?_⟩
    obtain ⟨j, hj⟩ := List.mem_iff_getElem?.1 hy
    have hjk : j < k := by
      by_contra hn
      simp [hn] at hj
    simpa [hx] using hall j y hjk (by simpa [List.getElem?_take, hjk] using hj)

/-- The first input may always happen next. -/
theorem zero_mem_agendaPicks (i : Instr) (rest : List Instr) : 0 ∈ agendaPicks (i :: rest) :=
  mem_agendaPicks.2 ⟨i, rfl, fun _ _ hj => absurd hj (Nat.not_lt_zero _)⟩

/-- A choice among `n` outcomes is one of them, and takes at most a new moment for the free values. -/
theorem choose_spec (s : State) (n : Nat) :
    ((choose s n).1 < n ∨ n = 0) ∧ ∃ fresh, (choose s n).2 = { s with fresh } := by
  unfold choose
  split
  · next h => exact ⟨by simp only; omega, s.fresh, rfl⟩
  · next h => exact ⟨.inl (Nat.mod_lt _ (by omega)), _, rfl⟩

/-- With inputs waiting, a step is one of those that may happen next, or, where one has been overtaken, a step of the
device's own. -/
theorem stepOnce_agenda {s : State} {i : Instr} {rest : List Instr} (h : s.agenda = i :: rest) :
    (∃ k fresh x, k ∈ agendaPicks s.agenda ∧ s.agenda[k]? = some x
      ∧ stepOnce s = tick (exec x { s with agenda := s.agenda.eraseIdx k, late := lateAfter s.late k, fresh, cur := none }))
    ∨ (s.late ≠ 0 ∧ ∃ fresh, stepOnce s = deviceStep { s with fresh }) := by
  have hpos : 0 < (agendaPicks s.agenda).length := List.length_pos_of_mem (h ▸ zero_mem_agendaPicks i rest)
  obtain ⟨hlt, fresh, hs⟩ := choose_spec s ((agendaPicks s.agenda).length + if s.late = 0 then 0 else 1)
  have hstep : stepOnce s =
      let c := choose s ((agendaPicks s.agenda).length + if s.late = 0 then 0 else 1)
      let k := (agendaPicks s.agenda).getD c.1 0
      if c.1 ≥ (agendaPicks s.agenda).length then deviceStep c.2
      else tick (exec (s.agenda.getD k i) { c.2 with agenda := s.agenda.eraseIdx k, late := lateAfter s.late k, cur := none }) := by
    unfold stepOnce
    simp only [h]
  generalize choose s ((agendaPicks s.agenda).length + if s.late = 0 then 0 else 1) = c at hlt hs hstep
  dsimp only at hstep
  rw [hs] at hstep
  by_cases hge : c.1 ≥ (agendaPicks s.agenda).length
  · rw [if_pos hge] at hstep
    refine .inr ⟨fun h0 => ?_, fresh, hstep⟩
    simp only [h0, if_true, Nat.add_zero] at hlt
    omega
  · rw [if_neg hge] at hstep
    have hmem : (agendaPicks s.agenda).getD c.1 0 ∈ agendaPicks s.agenda := by
      rw [List.getD_eq_getElem _ _ (by omega)]; exact List.getElem_mem _
    obtain ⟨x, hx, -⟩ := mem_agendaPicks.1 hmem
    have hxd : s.agenda.getD ((agendaPicks s.agenda).getD c.1 0) i = x := by
      rw [List.getD_eq_getElem?_getD, hx, Option.getD_some]
    exact .inl ⟨_, fresh, x, hmem, hx, by rw [hstep, hxd]⟩

/-! ### The device's own steps -/

/-- A device step takes one of the turns and internal steps that are possible, where there are any; an access that has waited
as long as it may goes first (R110). -/
theorem deviceStep_picks (s : State) :
    let rs := (allSplits s).filter fun c => ready s c.1 c.2
    let s1 := markReady s rs
    let due := (internalEvents s1).filter (overdueEvent s1)
    let turns := if due.isEmpty then picks s1 rs else []
    let steps := if due.isEmpty then internalEvents s1 else due
    ∃ c fresh : Nat, (c < turns.length + steps.length ∨ turns.length + steps.length = 0) ∧
      let s2 := { s1 with fresh }
      (∀ p, turns[c]? = some p → deviceStep s = tick (turn s2 p.1 p.2))
      ∧ (turns.length ≤ c → ∀ i, steps[c - turns.length]? = some i → deviceStep s = tick (exec i { s2 with cur := none }))
      ∧ (turns.length + steps.length = 0 → deviceStep s = tick (.next s2)) := by
  intro rs s1 due turns steps
  obtain ⟨hlt, fresh, hs⟩ := choose_spec s1 (turns.length + steps.length)
  have hd : deviceStep s = match turns[(choose s1 (turns.length + steps.length)).1]? with
      | some p => tick (turn (choose s1 (turns.length + steps.length)).2 p.1 p.2)
      | none =>
        match steps[(choose s1 (turns.length + steps.length)).1 - turns.length]? with
        | some i => tick (exec i { (choose s1 (turns.length + steps.length)).2 with cur := none })
        | none => tick (.next (choose s1 (turns.length + steps.length)).2) := rfl
  rw [hs] at hd
  refine ⟨_, fresh, hlt, fun p hp => ?_, fun hle i hi => ?_, fun h0 => ?_⟩
  · rw [hd]; simp only [hp]
  · rw [hd]; simp only [List.getElem?_eq_none hle, hi]
  · have ht : turns = [] := List.length_eq_zero_iff.1 (by omega)
    have hst : steps = [] := List.length_eq_zero_iff.1 (by omega)
    rw [hd, ht, hst]; rfl

/-! ### Fetch -/

/-- Delivered bytes of a page are as many as asked for. -/
theorem freshBytes_length (s : State) (ver : SMap (Byte × Nat)) (l : Leaf) (off n : Nat) :
    (freshBytes s ver l off n).length = n := by
  unfold freshBytes deliver
  split
  · simp
  · split <;> simp

/-- A word of code that may be the old or the new one is one of the three that there are (R169). -/
theorem oldOrNew_cases (s : State) (t : Task) (off : Nat) (now own : List Byte) :
    oldOrNew s t off now own = now ∨ oldOrNew s t off now own = own ∨ codeWord t off = some (oldOrNew s t off now own) := by
  have hnew : (if own != now && Config.freeBit s.cycle (off + 1) then own else now) = now
      ∨ (if own != now && Config.freeBit s.cycle (off + 1) then own else now) = own := by
    split
    · exact .inr rfl
    · exact .inl rfl
  unfold oldOrNew
  dsimp only
  generalize (if own != now && Config.freeBit s.cycle (off + 1) then own else now) = new at hnew ⊢
  cases codeWord t off with
  | none => exact hnew.imp_right .inl
  | some old =>
    dsimp only
    split
    · exact .inr (.inr rfl)
    · exact hnew.imp_right .inl

theorem codeWord_length {t : Task} {off : Nat} {w : List Byte} (h : codeWord t off = some w) : w.length = 4 := by
  unfold codeWord at h
  dsimp only at h
  split at h
  · next hl => exact Option.some.inj h ▸ hl
  · exact absurd h (by simp)

/-- A word that has been fetched, whatever set the fetch names in its trap: the delivered bytes as memory or the task's version
has them, or the word that stood there at the task's start (R169). -/
theorem fetchWord_ok {s : State} {a : At} {uni : Bool} {off : Nat} {w : List Byte} (h : fetchWord s a uni off = .ok w) :
    w.length = 4 ∧ ∀ u, fetchWord s a u off = .ok w := by
  unfold fetchWord at h ⊢
  dsimp only at h ⊢
  split at h
  · exact absurd h (by simp)
  next h1 =>
  split at h
  · exact absurd h (by simp)
  next h2 =>
  split at h
  · exact absurd h (by simp)
  · split at h <;> exact absurd h (by simp)
  next l hl =>
  split at h
  · exact absurd h (by simp)
  next h3 =>
  split at h
  · exact absurd h (by simp)
  next h4 =>
  have hw := Except.ok.inj h
  refine ⟨?_, fun u => ?_⟩
  · rw [← hw]
    rcases oldOrNew_cases s a.task off (freshBytes s [] l (a.task.header.code + off - pageBase l (a.task.header.code + off)) 4)
      (freshBytes s (versionOf s (fetchAcc a uni)) l (a.task.header.code + off - pageBase l (a.task.header.code + off)) 4)
      with hc | hc | hc
    · rw [hc, freshBytes_length]
    · rw [hc, freshBytes_length]
    · exact codeWord_length hc
  · simp only [if_neg h1, if_neg h2, if_neg h4]
    exact h

/-- Words that have been fetched, whatever set the fetch names in its trap. -/
theorem fetchWords_ok {s : State} {a : At} {uni : Bool} {n off : Nat} {bs : List Byte} (h : fetchWords s a uni n off = .ok bs) :
    bs.length = 4 * n ∧ ∀ u, fetchWords s a u n off = .ok bs := by
  induction n generalizing off bs with
  | zero => exact ⟨by rw [← Except.ok.inj h]; rfl, fun _ => h⟩
  | succ n ih =>
    unfold fetchWords at h
    split at h
    · exact absurd h (by simp)
    next w hw =>
    split at h
    · exact absurd h (by simp)
    next r hr =>
    obtain ⟨hl, hu⟩ := fetchWord_ok hw
    obtain ⟨hl', hu'⟩ := ih hr
    rw [← Except.ok.inj h]
    refine ⟨by rw [List.length_append]; omega, fun u => ?_⟩
    unfold fetchWords
    simp only [hu u, hu' u]

/-- The first word of a fetch, and the words that follow it. -/
theorem fetchWords_succ {s : State} {a : At} {uni : Bool} {n off : Nat} {bs : List Byte}
    (h : fetchWords s a uni (n + 1) off = .ok bs) :
    ∃ w r, fetchWord s a uni off = .ok w ∧ fetchWords s a uni n (off + 4) = .ok r ∧ bs = w ++ r := by
  unfold fetchWords at h
  split at h
  · exact absurd h (by simp)
  next w hw =>
  split at h
  · exact absurd h (by simp)
  next r hr => exact ⟨w, r, hw, hr, (Except.ok.inj h).symm⟩

/-! ### Decoding what has been fetched -/

/-- There is no word in no byte. -/
theorem takeWords_nil (n : Nat) : takeWords n [] = ([], []) := by
  cases n <;> rfl

/-- Words taken whole leave no more than what is past them. -/
theorem takeWords_all {n : Nat} {bs : List Byte} (hl : (takeWords n bs).1.length = n) (hr : (takeWords n bs).2 = []) :
    bs.length = 4 * n := by
  induction n generalizing bs with
  | zero => rw [show bs = [] from hr]; rfl
  | succ n ih =>
    match bs with
    | b0 :: b1 :: b2 :: b3 :: rest =>
      have := ih (bs := rest) (by simpa [takeWords] using hl) hr
      simp only [List.length_cons]
      omega
    | [] => simp [takeWords] at hl
    | [_] => simp [takeWords] at hl
    | [_, _] => simp [takeWords] at hl
    | [_, _, _] => simp [takeWords] at hl

/-- The decoder's rows carry the fields that they are given. -/
theorem encOfInstr_row {cw : Word} {op : Nat} {mk : Enc → Instr}
    (h : (if cw.getLsbD 31 then uniformOp op else laneOp op) = some mk) (e : Enc) : encOfInstr (mk e) = some e := by
  split at h
  · unfold uniformOp at h
    split at h <;> simp only [Option.some.injEq, reduceCtorEq] at h <;> subst h <;> rfl
  · unfold laneOp at h
    split at h <;> simp only [Option.some.injEq, reduceCtorEq] at h <;> subst h <;> rfl

/-- A whole instruction, taken apart: its first eight bytes decode, or are too few; and its length is its fields'. -/
theorem decode_whole {w1 w2 r : List Byte} {i : Instr} (h1 : w1.length = 4) (h2 : w2.length = 4)
    (h : decode (w1 ++ (w2 ++ r)) = .ok (i, [])) :
    let cw := wordOfBytes (w1.getD 0 0) (w1.getD 1 0) (w1.getD 2 0) (w1.getD 3 0)
    r.length = 4 * (cw.extractLsb' 7 2).toNat ∧ (w1 ++ (w2 ++ r)).length = fetchedBytes (.instr i)
    ∧ (decode (w1 ++ w2) = .error .truncated ∨ r = [] ∧ decode (w1 ++ w2) = .ok (i, [])) := by
  match w1, w2, h1, h2 with
  | [a0, a1, a2, a3], [b0, b1, b2, b3], _, _ =>
    intro cw
    have hcw : wordOfBytes a0 a1 a2 a3 = cw := rfl
    clear_value cw
    unfold decode at h ⊢
    simp only [List.cons_append, List.nil_append, takeWords, hcw] at h ⊢
    generalize wordOfBytes b0 b1 b2 b3 = ow at h ⊢
    split at h
    · exact absurd h (by simp)
    next h3 =>
    split at h
    · exact absurd h (by simp)
    next h0 =>
    split at h
    · exact absurd h (by simp)
    next mk hmk =>
    split at h
    · next hn =>
      obtain ⟨hi, hr⟩ := Prod.mk.inj (Except.ok.inj h)
      have hlen : r.length = 4 * (cw.extractLsb' 7 2).toNat := takeWords_all hn hr
      refine ⟨hlen, ?_, ?_⟩
      · rw [← hi]
        simp only [fetchedBytes, encOfInstr_row hmk, Option.elim_some, List.length_cons, hlen]
        exact Nat.add_comm _ 8
      · rw [if_neg h3, if_neg h0]
        by_cases hz : (cw.extractLsb' 7 2).toNat = 0
        · have hr0 : r = [] := List.length_eq_zero_iff.1 (by omega)
          subst hr0
          exact .inr ⟨rfl, by simp [takeWords_nil, hz, ← hi]⟩
        · exact .inl (by simp only [takeWords_nil]; exact if_neg fun h => hz h.symm)
    · exact absurd h (by simp)

/-- A fetch finds the instruction that the bytes at the split's program counter decode to. -/
theorem fetch_eq {s : State} {a : At} {uni : Bool} {n : Nat} {bs : List Byte} {i : Instr}
    (h : fetchWords s a uni n a.sp.pc.toNat = .ok bs) (hd : decode bs = .ok (i, [])) :
    fetch s a = .instr i ∧ bs.length = fetchedBytes (.instr i) := by
  match n with
  | 0 => rw [← Except.ok.inj h] at hd; exact absurd hd (by simp [decode, takeWords])
  | 1 =>
    obtain ⟨w, r, hw, hr, rfl⟩ := fetchWords_succ h
    rw [← Except.ok.inj hr, List.append_nil] at hd
    match w, (fetchWord_ok hw).1 with
    | [b0, b1, b2, b3], _ => exact absurd hd (by simp [decode, takeWords])
  | n + 2 =>
    obtain ⟨w1, r1, hw1, hr1, rfl⟩ := fetchWords_succ h
    obtain ⟨w2, r, hw2, hr, rfl⟩ := fetchWords_succ hr1
    obtain ⟨hl1, hu1⟩ := fetchWord_ok hw1
    obtain ⟨hl2, hu2⟩ := fetchWord_ok hw2
    obtain ⟨hlr, hur⟩ := fetchWords_ok hr
    obtain ⟨hlen, hbytes, hhead⟩ := decode_whole hl1 hl2 hd
    have hh : fetchHead s a a.sp.pc.toNat = .ok (w1 ++ w2) := by
      unfold fetchHead
      simp only [hu1, hu2]
    refine ⟨?_, hbytes⟩
    have hn : n = ((wordOfBytes (w1.getD 0 0) (w1.getD 1 0) (w1.getD 2 0) (w1.getD 3 0)).extractLsb' 7 2).toNat := by omega
    have hg : ∀ j < 4, (w1 ++ w2).getD j 0 = w1.getD j 0 := fun j hj => List.getD_append _ _ _ _ (by omega)
    unfold fetch
    rcases hhead with ht | ⟨-, ho⟩
    · simp only [hh, ht, hg 0 (by decide), hg 1 (by decide), hg 2 (by decide), hg 3 (by decide), ← hn, hur,
        List.append_assoc, hd]
    · simp only [hh, ho]

/-- Without a poisoned block a fetch strikes no task. -/
theorem strikeFetch_nil {s : State} (a : At) (n : Nat) (h : s.poison = []) : strikeFetch s a n = s := by
  unfold strikeFetch
  rw [h]; rfl

/-- A turn that neither wakes its split, closes windows, takes a chain's trap, reaches a rejoin point nor stops runs the
instruction that it fetches. -/
theorem turn_runs {s : State} {gid k : Nat} {a : At} {i : Instr} (ha : atOf s gid k = some a) (hw : mayWake s gid k = false)
    (hh : handlerSettles a = false) (hp : a.sp.park = .none → chainTrap a.sp = none ∧ atRejoinPoint a.g a.sp = false)
    (hs : a.sp.stop = none) (hf : fetch s a = .instr i) :
    turn s gid k = exec i { strikeFetch s a (fetchedBytes (.instr i)) with cur := some (gid, k) } := by
  obtain ⟨-, -, hgid, hk, -⟩ := atOf_some ha
  have hc : (a.sp.park == .none && (chainTrap a.sp).isSome) = false := by
    by_cases h : a.sp.park = .none <;> simp [h, hp]
  have hr : (a.sp.park == .none && atRejoinPoint a.g a.sp) = false := by
    by_cases h : a.sp.park = .none <;> simp [h, hp]
  unfold turn
  simp only [ha, hw, hh, hc, hr, hf, stopsHere, hs, Option.isSome_none, Bool.false_and, Bool.false_eq_true, if_false,
    runFetched, hgid, hk]

/-- An aligned word of the code object, on a page of memory that may be read. -/
theorem fetchWord_mem {s : State} {a : At} {uni : Bool} {off : Nat} {l : Leaf} (hlt : off < a.task.header.clen)
    (h4 : off % 4 = 0) (hva : a.task.header.code + off < 2 ^ 52) (hw : walk s a.tm.part (a.task.header.code + off) = .ok l)
    (hc : leafCheck s a.tm.part .read l = none) (hd : l.domain = false) :
    fetchWord s a uni off = .ok (oldOrNew s a.task off
      (freshBytes s [] l (a.task.header.code + off - pageBase l (a.task.header.code + off)) 4)
      (freshBytes s (versionOf s (fetchAcc a uni)) l (a.task.header.code + off - pageBase l (a.task.header.code + off)) 4)) := by
  unfold fetchWord
  simp only [show ¬ (off ≥ a.task.header.clen ∨ off % 4 ≠ 0) by omega, if_false, Nat.not_le.2 hva, hw, hc, hd,
    Bool.false_and, Bool.false_eq_true]

/-- The bytes of a page of memory that is not converted, as its home serves them to one who sees no version. -/
theorem freshBytes_raw (s : State) {l : Leaf} (off n : Nat) (hd : l.domain = false) (hf : l.sf = 0) :
    freshBytes s [] l off n = (rangeFrom (l.frame + off) n).map fun x => cohByte s x l.key := by
  unfold freshBytes deliver
  simp only [hd, hf, Bool.false_eq_true, if_false, if_true]
  rfl

/-- Settles O56: the agenda's picks, the choice of a device step, and the turn of a split that runs its fetched bytes. -/
theorem stepRuns : Obligations.StepRuns := by
  unfold Obligations.StepRuns
  dsimp only
  refine ⟨fun s i rest h => ⟨h ▸ zero_mem_agendaPicks i rest, ?_⟩, fun s h => ?_, fun xs k hk j hj => ?_, fun s => ?_,
    fun s gid k a uni n bs i ha hw hh hp hs hf hd => ?_, fun s a uni off l hlt h4 hva hw hc hd hsf => ?_⟩
  · obtain ⟨k, fresh, x, hk, hx, he⟩ | hl := stepOnce_agenda h
    · exact .inl ⟨k, fresh, x, hk, hx, he⟩
    · exact .inr hl
  · change stepOnce s = _
    unfold stepOnce
    rw [h]
  · obtain ⟨x, hx, hall⟩ := mem_agendaPicks.1 hk
    obtain ⟨hlt, -⟩ := List.getElem?_eq_some_iff.1 hx
    have hy := List.getElem?_eq_getElem (Nat.lt_trans hj hlt)
    obtain ⟨a, b, p, va, data, he, hne, hl, hab⟩ := of_overtakes (hall j _ hj hy)
    exact ⟨a, b, p, va, data, x, he ▸ hy, hne, hx, hl, hab⟩
  · have hpicks := deviceStep_picks s
    simp only [List.isEmpty_iff] at hpicks
    exact hpicks
  · obtain ⟨hi, hl⟩ := fetch_eq hf hd
    have ht := turn_runs ha hw hh hp hs hi
    rw [← hl] at ht
    exact ⟨ht, fun hn => by rw [ht, strikeFetch_nil a _ hn]⟩
  · refine ⟨_, fetchWord_mem hlt h4 hva hw hc hd, ?_⟩
    rw [← freshBytes_raw s _ _ hd hsf]
    exact (oldOrNew_cases ..).imp_right (Or.imp_right id)

end Sys2Proof.Machine
end

section
/-!
O35. Events of a split: promotion (R25), a stop at its 64th boundary (R22), and a trap held during handler mode (R368).
-/

namespace Sys2Proof.Machine

/-- A group's record after a change that its key names. -/
theorem getGroup_modGroup_of {s : State} {gid : Nat} {g : Group} (f : Group → Group) (h : mfind s.groups gid = some g) :
    getGroup (modGroup s gid f) gid = f g := by
  rw [getGroup_modGroup_self s gid f g h, getGroup, mget, h, Option.getD_some]

/-- Changing an entry of a list is setting it to what the change makes of it. -/
theorem modify_eq_set_of {α : Type} {xs : List α} {k : Nat} {x : α} (f : α → α) (h : xs[k]? = some x) :
    xs.modify k f = xs.set k (f x) := by
  refine List.ext_getElem? fun j => ?_
  rw [List.getElem?_modify, List.getElem?_set']
  by_cases hj : k = j
  · subst hj; simp [h]
  · simp [hj]

/-- A group's record after one of its splits changes. -/
theorem getGroup_modSplit_of {s : State} {gid k : Nat} {g : Group} {x : Split} (f : Split → Split)
    (h : mfind s.groups gid = some g) (hx : g.splits[k]? = some x) :
    getGroup (modSplit s gid k f) gid = { g with splits := g.splits.set k (f x) } := by
  rw [modSplit, getGroup_modGroup_of _ h, modify_eq_set_of f hx]

/-- A change that leaves the split that it names as it was leaves every group. -/
theorem mfind_modSplit_id {s : State} {gid k : Nat} {g : Group} {x : Split} {f : Split → Split}
    (h : mfind s.groups gid = some g) (hx : g.splits[k]? = some x) (hf : f x = x) (j : Nat) :
    mfind (modSplit s gid k f).groups j = mfind s.groups j := by
  rw [modSplit, mfind_modGroup]
  split
  · next hj =>
    obtain ⟨hk, hkx⟩ := List.getElem?_eq_some_iff.1 hx
    rw [hj, h, Option.map_some, modify_eq_set_of f hx, hf, ← hkx, List.set_getElem_self]
  · rfl

/-- What the first `n` places of a list of values are set to in a map. -/
theorem mget_foldl_mset {α : Type} (v : Nat → α) (n a : Nat) (m : SMap α) (j : Nat) (d : α) :
    mget ((rangeFrom a n).foldl (fun m i => mset m i (v i)) m) j d
      = if a ≤ j ∧ j < a + n then v j else mget m j d := by
  induction n generalizing a m with
  | zero => exact (if_neg (by omega)).symm
  | succ n ih =>
    rw [rangeFrom, List.foldl_cons, ih]
    by_cases hj : j = a
    · subst hj
      rw [if_neg (by omega), if_pos (by omega), mget_mset_self]
    · rw [mget_mset_other _ _ _ _ _ hj]
      exact if_congr (by omega) rfl rfl

/-- Where a split is, after a change of its group that keeps a split in its place. -/
theorem atOf_modGroup_self {s : State} {gid k : Nat} {a : At} (ha : atOf s gid k = some a) {f : Group → Group} {x : Split}
    (hx : (f a.g).splits[k]? = some x) : atOf (modGroup s gid f) gid k = some { a with g := f a.g, sp := x } := by
  obtain ⟨hg, -, hgid, hk, htm, htask⟩ := atOf_some ha
  unfold atOf
  rw [mfind_modGroup, if_pos rfl, hg, Option.map_some]
  simp only [hx, hgid, hk, htm, htask]
  rfl

/-- Where a split is, after a change of its own. -/
theorem atOf_modSplit_self {s : State} {gid k : Nat} {a : At} (ha : atOf s gid k = some a) (f : Split → Split) :
    atOf (modSplit s gid k f) gid k
      = some { a with g := { a.g with splits := a.g.splits.modify k f }, sp := f a.sp } :=
  atOf_modGroup_self ha (by rw [List.getElem?_modify_eq, (atOf_some ha).2.1]; rfl)

/-- What handler entry leaves of a group whose split traps (R368). -/
theorem enterHandler_group {s : State} {gid k : Nat} {a : At} (ha : atOf s gid k = some a) (c : TrapRec) (resume : Word) :
    let t := enterHandler s gid k c resume
    let g := getGroup t gid;
    ({ t with groups := s.groups } = s) ∧ g.regs = a.g.regs ∧ g.held = a.g.held ∧ (∀ y, y ≠ gid → getGroup t y = getGroup s y)
    ∧ (∀ n, mget g.hc n 0 = ([resume, a.sp.active, a.sp.fmt,
        BitVec.ofNat 32 (c.code + 32 * c.group + if c.group = 5 ∧ c.code = 1 then 1024 else 0), c.d0, c.d1, c.d2][n]?).getD
          (mget a.g.hc n 0))
    ∧ g.splits[k]? = some { a.sp with
        pc := BitVec.ofNat 32 a.task.header.hoff, fmt := 0, pend := .none, stale := [], chain := 0, handler := true, park := .none } := by
  obtain ⟨hg, hx, -⟩ := atOf_some ha
  intro t g
  have ht : t = enterHandler s gid k c resume := rfl
  have hgt : g = getGroup t gid := rfl
  clear_value g t
  unfold enterHandler at ht
  rw [ha] at ht
  dsimp only at ht
  rw [ht, getGroup_modGroup_of _ hg] at hgt
  refine ⟨ht ▸ rfl, hgt ▸ rfl, hgt ▸ rfl, fun y hy => ht ▸ getGroup_modGroup_other _ _ _ _ hy, fun n => ?_, ?_⟩
  · have hcause : c.code + (c.group <<< 5) + (if trapRx c then 1024 else 0)
        = c.code + 32 * c.group + if c.group = 5 ∧ c.code = 1 then 1024 else 0 := by
      simp only [Nat.shiftLeft_eq, trapRx, Bool.and_eq_true, beq_iff_eq]
      omega
    rw [hgt]
    dsimp only
    rw [mget_foldl_mset, hcause]
    split
    · next hn =>
      rw [List.getD_eq_getElem?_getD, List.getElem?_eq_getElem (by simp only [List.length_cons, List.length_nil]; omega)]
      rfl
    · next hn => rw [List.getElem?_eq_none (by simp only [List.length_cons, List.length_nil]; omega)]; rfl
  · rw [hgt]
    dsimp only
    rw [List.getElem?_mapIdx, hx, Option.map_some, if_pos rfl]

/-- A split that goes on after a stop. -/
def goOn (x : Split) : Split := { x with stop := none, stopped := false }

/-- A group whose held trap of the split of an age has been taken. -/
def takeHeld (age : Nat) (g : Group) : Group := { g with held := g.held.filter (·.1 != age) }

/-- A trap held during handler mode is taken once the mode has ended, where its split is the oldest of those that hold one. -/
theorem execHandlerEntry_of {s : State} {gid k : Nat} {a : At} {c : TrapRec} {resume : Word} (ha : atOf s gid k = some a)
    (hheld : a.g.held.find? (fun h => h.1 == a.sp.age) = some (a.sp.age, c, resume)) (hh : a.g.handler = none)
    (hres : a.g.res = .resident) (hhalt : a.g.halt = .running) (hst : a.task.st = .released)
    (hold : ∀ h ∈ a.g.held, a.sp.age ≤ h.1) :
    exec (.handlerEntry gid k) s
      = .next (enterHandler (modGroup (modSplit s gid k goOn) gid (takeHeld a.sp.age)) gid k c resume) := by
  have hall : (a.g.held.all fun h => decide (a.sp.age ≤ h.1)) = true := by simpa using hold
  change execHandlerEntry gid k s = _
  unfold execHandlerEntry
  simp only [ha, hheld, hh, hall, hres, hhalt, hst]
  rfl

/-- Settles O35: each event changes the split that it names, and handler entry takes the held trap of the oldest split. -/
theorem splitEvents_hold : Obligations.SplitEvents := by
  unfold Obligations.SplitEvents
  refine ⟨fun s gid k g x hg hx => ⟨fun n hn hle => ?_, fun hlt => ?_, fun n hn hc hstop => ?_⟩, 
    fun s gid k a c resume ha hheld hh hres hhalt hst hold => ?_⟩
  · refine ⟨_, rfl, ?_, rfl⟩
    rw [getGroup_modSplit_of _ hg hx]
    simp [hn, hle]
  · refine ⟨_, rfl, mfind_modSplit_id hg hx ?_, rfl⟩
    cases hr : x.readyAt with
    | none => rfl
    | some n => simp [Nat.not_le.2 (hlt n hr)]
  · have hgx : (getGroup s gid).splits[k]? = some x := by rw [getGroup, mget, hg]; exact hx
    have he : exec (.stopBound gid k) s = .next (if 64 ≤ n then takeStop s gid k else s) := by
      change execStopBound gid k s = _
      unfold execStopBound
      simp [hgx, hn, hc, hstop]
    refine ⟨fun hle => ⟨takeStop s gid k, by rw [he, if_pos hle], rfl, ?_⟩, fun hlt => by rw [he, if_neg (Nat.not_le.2 hlt)]⟩
    exact getGroup_modSplit_of _ hg hx
  · obtain ⟨hg, hx, -⟩ := atOf_some ha
    have ha2 := atOf_modGroup_self (atOf_modSplit_self ha goOn) (f := takeHeld a.sp.age) (x := goOn a.sp)
      (by simp [takeHeld, hx])
    obtain ⟨hs, hregs, hheld', hother, hhc, hsp⟩ := enterHandler_group ha2 c resume
    have he := execHandlerEntry_of ha hheld hh hres hhalt hst hold
    refine ⟨_, he, congrArg (fun u : State => { u with groups := s.groups }) hs, fun y n => ?_, hheld', hhc, _, hsp, rfl, rfl, rfl, rfl, rfl⟩
    by_cases hy : y = gid
    · have hs0 : getGroup s y = a.g := by rw [hy, getGroup, mget, hg, Option.getD_some]
      rw [regOf, hy, hregs, ← hy, regOf, hs0]
      rfl
    · rw [regOf, hother y hy, regOf, getGroup_modGroup_other _ _ _ _ hy, modSplit, getGroup_modGroup_other _ _ _ _ hy]

end Sys2Proof.Machine
end

section
/-!
O34. The end of an operation: its writes, its flag, its trap (R18 to R20, R217, R369), and the move of an RQUOTA (R28, R302).
-/

namespace Sys2Proof.Machine

/-! ### Maps -/

/-- A key that is not among the keys is not found. -/
theorem mfind_none_of_not_mem {α : Type} {m : SMap α} {k : Nat} (h : k ∉ mkeys m) : mfind m k = none := by
  induction m with
  | nil => rfl
  | cons x r ih =>
    obtain ⟨hx, hr⟩ := not_or.1 (fun hm => h (List.mem_cons.2 hm))
    rw [mfind, if_neg (Ne.symm hx), ih hr]

/-- What a list of writes, one per register, leaves in a map. -/
theorem mget_foldl_mput {ws : SMap Word} (h : (mkeys ws).Nodup) (m : SMap Word) (k : Nat) :
    mget (ws.foldl (fun m w => mput 0 m w.1 w.2) m) k 0 = mget ws k (mget m k 0) := by
  induction ws generalizing m with
  | nil => rfl
  | cons x r ih =>
    obtain ⟨hx, hr⟩ := List.nodup_cons.1 h
    rw [List.foldl_cons, ih hr, mget_mput]
    by_cases hk : x.1 = k
    · subst hk
      rw [if_pos rfl, mget, mfind_none_of_not_mem hx, mget, mfind, if_pos rfl]; rfl
    · rw [if_neg (Ne.symm hk)]
      simp only [mget, mfind, if_neg hk]

/-- Lookup in a map from which keys have been taken out. -/
theorem mfind_filter_key {α : Type} (p : Nat → Bool) (m : SMap α) (k : Nat) :
    mfind (m.filter fun x => p x.1) k = if p k then mfind m k else none := by
  induction m with
  | nil => simp [mfind]
  | cons x r ih =>
    rw [List.filter_cons]
    by_cases hx : x.1 = k
    · subst hx
      cases hp : p x.1 <;> simp [mfind, ih, hp]
    · cases hp : p x.1 <;> simp [mfind, ih, hx]

/-! ### The end of an operation -/

/-- An operation that is found is the group's, under its own number, and its group is there. -/
theorem findOp_some {s : State} {gid op : Nat} {o : Op} (h : findOp (getGroup s gid) op = some o) :
    o.id = op ∧ mfind s.groups gid = some (getGroup s gid) := by
  refine ⟨by simpa using List.find?_some h, ?_⟩
  cases hg : mfind s.groups gid with
  | some g => rw [getGroup, mget, hg]; rfl
  | none => rw [getGroup, mget, hg] at h; exact absurd h (by simp [findOp, Group.empty])

/-- What the end of an operation makes of its group (R19, R20). -/
theorem endOp_ended {s : State} {gid : Nat} {o : Op} (hg : mfind s.groups gid = some (getGroup s gid))
    (hw : (mkeys o.writes).Nodup) :
    Ended s (endOp s gid o) gid o
    ∧ (getGroup (endOp s gid o) gid).splits
        = (getGroup s gid).splits.map fun x => { x with stale := x.stale.filter fun w => !mhas o.writes w.loc } := by
  have hgt : getGroup (endOp s gid o) gid = _ := getGroup_modGroup_of _ hg
  refine ⟨⟨fun k => ?_, fun k => ?_, ?_, fun y hy => ?_, rfl⟩, ?_⟩
  · rw [regOf, hgt]
    exact mget_foldl_mput hw _ k
  · simp only [getFlag, hgt]
    cases o.flag with
    | none => rfl
    | some j =>
      dsimp only
      rw [mget_mput]
      by_cases hk : k = j
      · subst hk; rw [if_pos rfl, if_pos rfl]
      · rw [if_neg hk, if_neg (fun h => hk (Option.some.inj h).symm)]; rfl
  · rw [hgt]
  · rw [endOp, mfind_modGroup, if_neg hy]
  · rw [hgt]
    dsimp only
    split
    · next he =>
      rw [List.isEmpty_iff.1 he]
      simp [mhas]
    · rfl

/-- The trap of a faulted operation waits at its split, and nothing else of the group changes (R369). -/
theorem holdTrap_ended {s t : State} {gid : Nat} {o : Op} {c : TrapRec} (h : Ended s t gid o)
    (hg : mfind t.groups gid = some (getGroup t gid)) (hx : ∃ x ∈ (getGroup t gid).splits, x.age = o.split) :
    Ended s (holdTrap t gid o c) gid o
    ∧ (getGroup (holdTrap t gid o c) gid).splits = (getGroup t gid).splits.map fun x =>
        if x.age = o.split then { x with traps := x.traps ++ [⟨o.flag, c, o.at_, false⟩] } else x := by
  have hany : (getGroup t gid).splits.any (fun x => x.age == o.split) = true := by simpa using hx
  have ht : holdTrap t gid o c = modGroup t gid fun g => { g with splits := g.splits.map fun x =>
      if x.age = o.split then { x with traps := x.traps ++ [⟨o.flag, c, o.at_, false⟩] } else x } := if_pos hany
  have hgt := getGroup_modGroup_of (fun g => { g with splits := g.splits.map fun x =>
      if x.age = o.split then { x with traps := x.traps ++ [⟨o.flag, c, o.at_, false⟩] } else x }) hg
  rw [ht]
  refine ⟨⟨fun k => ?_, fun k => ?_, ?_, fun y hy => ?_, h.rest⟩, by rw [hgt]⟩
  · rw [regOf, hgt]; exact h.regs k
  · rw [hgt]; exact h.flags k
  · rw [hgt]; exact h.ops
  · rw [mfind_modGroup, if_neg hy]; exact h.others y hy

/-- An earlier operation of Indigo or of Ochre stands before one of the same unit (R135, R217). -/
theorem indigoBehind_iff (g : Group) (o : Op) : indigoBehind g o = false ↔
    (o.indigo = true → ∀ x ∈ g.ops.takeWhile fun x => x.id != o.id, x.indigo = false)
    ∧ (o.ochre = true → ∀ x ∈ g.ops.takeWhile fun x => x.id != o.id, x.ochre = false) := by
  simp only [indigoBehind, Bool.or_eq_false_iff, Bool.and_eq_false_imp, List.any_eq_false, Bool.not_eq_true]

/-- The completion of an operation that an earlier one of its unit does not hold back. -/
theorem execOperationComplete_of {s : State} {gid op : Nat} {o : Op} (ho : findOp (getGroup s gid) op = some o)
    (hb : indigoBehind (getGroup s gid) o = false) (hh : isHeld (getPart s (getTeam s (teamKey gid)).part) (.op gid op) = false) :
    (o.stage = .done → exec (.operationComplete gid op) s = .next (endOp s gid o))
    ∧ (∀ c, o.stage = .faulted c → exec (.operationComplete gid op) s = .next (holdTrap (endOp s gid o) gid o c)) := by
  refine ⟨fun hs => ?_, fun c hs => ?_⟩ <;>
  · change execOperationComplete gid op s = _
    unfold execOperationComplete
    simp only [ho, hb, hs, hh, performOp, closeOp, Bool.false_eq_true, if_false]

theorem operationEndsClaim : OperationEndsClaim := by
  intro s gid op o ho hw held earlier close first
  obtain ⟨hid, hg⟩ := findOp_some ho
  obtain ⟨hended, hsplits⟩ := endOp_ended hg hw
  have hfirst : first ↔ indigoBehind (getGroup s gid) o = false := by
    rw [indigoBehind_iff, hid]
  have hfixed : ∀ due, o.stage = .fixed due →
      exec (.resultReadable gid op) s = .next (if due ≤ s.cycle then endOp s gid o else s) := fun due hs => by
    change execResultReadable gid op s = _
    unfold execResultReadable
    simp only [ho, hs]
  refine ⟨fun due hs hle => ⟨_, by rw [hfixed due hs, if_pos hle], hended⟩,
    fun due hs hlt => by rw [hfixed due hs, if_neg (Nat.not_le.2 hlt)], fun hs hh hf => ?_, fun c hs hh hf hx => ?_, fun hf => ?_⟩
  · exact ⟨_, (execOperationComplete_of ho (hfirst.1 hf) hh).1 hs, hended, hsplits⟩
  · have hx' : ∃ x ∈ (getGroup (endOp s gid o) gid).splits, x.age = o.split := by
      obtain ⟨x, hx, hage⟩ := hx
      exact ⟨close x, hsplits ▸ List.mem_map_of_mem hx, hage⟩
    have hg' : mfind (endOp s gid o).groups gid = some (getGroup (endOp s gid o) gid) := by
      rw [getGroup, mget, endOp, mfind_modGroup, if_pos rfl, hg]; rfl
    obtain ⟨hend, hsp⟩ := holdTrap_ended (c := c) hended hg' hx'
    exact ⟨_, (execOperationComplete_of ho (hfirst.1 hf) hh).2 c hs, hend, by rw [hsp, hsplits]⟩
  · have hb : indigoBehind (getGroup s gid) o = true := by
      rw [hfirst] at hf; exact Bool.not_eq_false _ ▸ hf
    change execOperationComplete gid op s = _
    unfold execOperationComplete
    simp only [ho, hb, if_true]

/-! ### The move of an RQUOTA -/

theorem vKey_lt {l k : Nat} (hl : l < 32) (hk : k < 256) : vKey l k < 8192 ∧ vKey l k % 256 = k := by
  unfold vKey; omega

/-- What is left in a v register where the registers at and above a number are taken out (R28). -/
theorem mget_dropRegs (lo : Nat) (m : SMap Word) {l k : Nat} (hl : l < 32) (hk : k < 256) :
    mget (dropRegs lo m) (vKey l k) 0 = if lo ≤ k then 0 else mget m (vKey l k) 0 := by
  obtain ⟨h1, h2⟩ := vKey_lt hl hk
  rw [mget, dropRegs, mfind_filter_key (fun j => !(decide (j < 8192) && decide (lo ≤ j % 256))), h2]
  by_cases h : lo ≤ k <;> simp [h, h1, mget]

/-- The predicate that an RQUOTA learns at its end is its one write (R302). -/
theorem lateWrites_q {o : Op} {dest : Nat} (h1 : 1 ≤ dest) (hw : o.writes = []) (hl : o.lost = []) (w : Word) :
    lateWrites o (qKey dest) w = [(qKey dest, w)] := by
  have hf : fixedTrue (qKey dest) = false := by
    simp only [fixedTrue, qKey, show ¬ 8576 + dest < 8576 by omega, decide_false, Bool.and_false, Bool.false_and, Bool.or_false,
      beq_eq_false_iff_ne]
    omega
  rw [lateWrites, hf, hl, hw]; rfl

/-- The end of an operation leaves its group's quota. -/
theorem endOp_quota {s : State} {gid : Nat} {o : Op} (hg : mfind s.groups gid = some (getGroup s gid)) :
    (getGroup (endOp s gid o) gid).quota = (getGroup s gid).quota := by
  rw [endOp, getGroup_modGroup_of _ hg]

/-- What the giver of granules keeps (R28). -/
def giveQuota (n : Nat) (g : Group) : Group := { g with quota := g.quota - n, regs := dropRegs (8 * (g.quota - n)) g.regs }

/-- What the receiver of granules has (R28). -/
def takeQuota (n : Nat) (r : Group) : Group := { r with quota := r.quota + n, regs := dropRegs (8 * r.quota) r.regs }

theorem quotaArrivesClaim : QuotaArrivesClaim := by
  intro s gid op o recv n dest ho hs hi hoc hw hl g dst r hdst h1 h7 hres hreach hfirst fits
  obtain ⟨hid, hg⟩ := findOp_some ho
  have hb : indigoBehind g o = false := by simp only [indigoBehind, hi, hoc, Bool.false_and, Bool.or_self]
  have he : exec (.operationComplete gid op) s = .next (completeRquota s gid o recv n dest) := by
    change execOperationComplete gid op s = _
    unfold execOperationComplete
    simp only [ho, show indigoBehind (getGroup s gid) o = false from hb, hs, Bool.false_eq_true, if_false]
  have hnodup : ∀ w, (mkeys ({ o with writes := lateWrites o (qKey dest) w } : Op).writes).Nodup := fun w => by
    dsimp only
    rw [lateWrites_q h1 hw hl]
    exact List.nodup_singleton _
  have hwrite : ∀ w d, mget ({ o with writes := lateWrites o (qKey dest) w } : Op).writes (qKey dest) d = w := fun w d => by
    dsimp only
    rw [lateWrites_q h1 hw hl]
    simp [mget, mfind]
  have hfits : fits ↔ ¬ (g.res ≠ .resident ∨ !mhas s.groups dst ∨ r.res ≠ .resident ∨ r.quota + n > 32) := by
    simp only [fits, hres]
    grind
  rw [he]
  by_cases hf : fits
  · have hcomplete : completeRquota s gid o recv n dest
        = endOp (modGroup (modGroup s gid (giveQuota n)) dst (takeQuota n)) gid
            { o with writes := lateWrites o (qKey dest) (boolWord true) } := by
      have hany : g.ops.any (fun x => opReaches x (8 * (g.quota - n))) = false := by simpa using hreach
      unfold completeRquota
      rw [if_neg (hfits.1 hf), if_neg (by rw [hid]; exact not_or.2 ⟨not_not.2 hfirst, by rw [hany]; exact Bool.false_ne_true⟩)]
      rfl
    have hr : mfind s.groups dst = some r := by
      obtain ⟨x, hx⟩ := Option.isSome_iff_exists.1 hf.1
      rw [hx, show r = x by simp only [r, getGroup, mget, hx, Option.getD_some]]
    have hg2 : mfind (modGroup (modGroup s gid (giveQuota n)) dst (takeQuota n)).groups gid = some (giveQuota n g) := by
      rw [mfind_modGroup, if_neg (Ne.symm hdst), mfind_modGroup, if_pos rfl, hg]; rfl
    have hr2 : mfind (modGroup (modGroup s gid (giveQuota n)) dst (takeQuota n)).groups dst = some (takeQuota n r) := by
      rw [mfind_modGroup, if_pos rfl, mfind_modGroup, if_neg hdst, hr]; rfl
    have hgg : getGroup (modGroup (modGroup s gid (giveQuota n)) dst (takeQuota n)) gid = giveQuota n g := by
      rw [getGroup, mget, hg2]; rfl
    rw [← hgg] at hg2
    obtain ⟨hend, -⟩ := endOp_ended hg2 (hnodup (boolWord true))
    have hrt := hend.others dst hdst
    rw [hr2] at hrt
    have hrt' : getGroup (endOp (modGroup (modGroup s gid (giveQuota n)) dst (takeQuota n)) gid
        { o with writes := lateWrites o (qKey dest) (boolWord true) }) dst = takeQuota n r := by
      rw [getGroup, mget, hrt]; rfl
    refine ⟨_, congrArg Host.Outcome.next hcomplete, rfl, ?_, fun _ => ⟨?_, ?_, by rw [hrt']; rfl, fun l k hl hk => ?_⟩,
      fun hn => absurd hf hn⟩
    · rw [hend.ops, hgg, ← hid]; rfl
    · rw [hend.regs, hwrite]; rfl
    · rw [endOp_quota hg2, hgg]; rfl
    · rw [regOf, hrt']
      exact mget_dropRegs _ _ hl hk
  · have hcomplete : completeRquota s gid o recv n dest
        = endOp s gid { o with writes := lateWrites o (qKey dest) (boolWord false) } := by
      unfold completeRquota
      rw [if_pos (not_not.1 fun h => hf (hfits.2 h))]
    obtain ⟨hend, -⟩ := endOp_ended hg (hnodup (boolWord false))
    refine ⟨_, congrArg Host.Outcome.next hcomplete, rfl, ?_, fun h => absurd h hf, fun _ => ⟨?_, endOp_quota hg, hend.others⟩⟩
    · rw [hend.ops, ← hid]
    · rw [hend.regs, hwrite]; rfl

/-- Settles O34: what the end of an operation makes of its group, and the move of an RQUOTA on top of it. -/
theorem operationEnds : Obligations.OperationEnds := ⟨operationEndsClaim, quotaArrivesClaim⟩

end Sys2Proof.Machine
end

section
/-!
O49. The latches b1 to b3: what issue, and the retirement of a member of a hold chain, leave in them (R24, R180, R181).
-/

namespace Sys2Proof.Machine

/-! ### Latch rows -/

/-- A latch's place, in its quadrant's part of the row. -/
theorem latchKey_div (q : Nat) {k l : Nat} (h1 : 1 ≤ k) (h3 : k ≤ 3) (hl : l < 32) : latchKey q k l / 96 = q := by
  unfold latchKey; omega

/-- Latches in different places are different. -/
theorem latchKey_inj (q : Nat) {k j l m : Nat} (hk : 1 ≤ k) (hj : 1 ≤ j) (hl : l < 32) (hm : m < 32)
    (h : latchKey q k l = latchKey q j m) : k = j ∧ l = m := by
  unfold latchKey at h; omega

/-- What a shift puts in latch `k` of a lane position. -/
def shifted (q : Nat) (res m : SMap Word) (k l : Nat) : Word :=
  if k = 1 then mget res l 0 else mget m (latchKey q (k - 1) l) 0

/-- The shift of one lane position. -/
def shiftLane (q : Nat) (res m acc : SMap Word) (l : Nat) : SMap Word :=
  mput 0 (mput 0 (mput 0 acc (latchKey q 3 l) (mget m (latchKey q 2 l) 0)) (latchKey q 2 l) (mget m (latchKey q 1 l) 0))
    (latchKey q 1 l) (mget res l 0)

/-- A row is shifted one lane position after the other. -/
theorem shiftRow_eq (q : Nat) (res m : SMap Word) : shiftRow q res m = (List.range 32).foldl (shiftLane q res m) m := rfl

/-- The shift of a lane position changes its own latches. -/
theorem mget_shiftLane (q : Nat) (res m acc : SMap Word) {k l j : Nat} (h1 : 1 ≤ k) (h3 : k ≤ 3) (hl : l < 32) (hj : j < 32) :
    mget (shiftLane q res m acc j) (latchKey q k l) 0
      = if l = j then shifted q res m k l else mget acc (latchKey q k l) 0 := by
  unfold shiftLane
  have hne : ∀ n, 1 ≤ n → (l ≠ j ∨ k ≠ n) → latchKey q k l ≠ latchKey q n j := fun n hn hor he => by
    obtain ⟨hk, hl'⟩ := latchKey_inj q h1 hn hl hj he
    exact hor.elim (fun h => h hl') fun h => h hk
  by_cases hlj : l = j
  · subst hlj
    rw [if_pos rfl]
    obtain rfl | rfl | rfl : k = 1 ∨ k = 2 ∨ k = 3 := by omega
    · rw [mget_mput_self]; rfl
    · rw [mget_mput_other _ _ _ _ _ (hne 1 (by decide) (.inr (by decide))), mget_mput_self]; rfl
    · rw [mget_mput_other _ _ _ _ _ (hne 1 (by decide) (.inr (by decide))),
        mget_mput_other _ _ _ _ _ (hne 2 (by decide) (.inr (by decide))), mget_mput_self]; rfl
  · rw [if_neg hlj, mget_mput_other _ _ _ _ _ (hne 1 (by decide) (.inl hlj)),
      mget_mput_other _ _ _ _ _ (hne 2 (by decide) (.inl hlj)), mget_mput_other _ _ _ _ _ (hne 3 (by decide) (.inl hlj))]

/-- The shift of some lane positions. -/
theorem mget_shiftLanes (q : Nat) (res m : SMap Word) {k l : Nat} (h1 : 1 ≤ k) (h3 : k ≤ 3) (hl : l < 32) (ls : List Nat)
    (hls : ∀ j ∈ ls, j < 32) (acc : SMap Word) :
    mget (ls.foldl (shiftLane q res m) acc) (latchKey q k l) 0
      = if l ∈ ls then shifted q res m k l else mget acc (latchKey q k l) 0 := by
  induction ls generalizing acc with
  | nil => rfl
  | cons j r ih =>
    rw [List.foldl_cons, ih (fun x hx => hls x (List.mem_cons_of_mem _ hx)),
      mget_shiftLane q res m acc h1 h3 hl (hls j List.mem_cons_self)]
    by_cases hr : l ∈ r
    · rw [if_pos hr, if_pos (List.mem_cons_of_mem _ hr)]
    · rw [if_neg hr]
      exact if_congr (by simp [hr]) rfl rfl

/-- A shifted row: each latch has what the one before it had, and b1 the result. -/
theorem mget_shiftRow (q : Nat) (res m : SMap Word) {k l : Nat} (h1 : 1 ≤ k) (h3 : k ≤ 3) (hl : l < 32) :
    mget (shiftRow q res m) (latchKey q k l) 0 = shifted q res m k l := by
  rw [shiftRow_eq, mget_shiftLanes q res m h1 h3 hl _ (fun j hj => List.mem_range.1 hj), if_pos (List.mem_range.2 hl)]

/-- A shift leaves the latches of other quadrants. -/
theorem mget_shiftRow_other (q : Nat) (res m : SMap Word) {key : Nat} (h : key / 96 ≠ q) :
    mget (shiftRow q res m) key 0 = mget m key 0 := by
  rw [shiftRow_eq]
  suffices ∀ (ls : List Nat), (∀ j ∈ ls, j < 32) → ∀ acc, mget (ls.foldl (shiftLane q res m) acc) key 0 = mget acc key 0 from
    this _ (fun j hj => List.mem_range.1 hj) m
  intro ls
  induction ls with
  | nil => exact fun _ _ => rfl
  | cons j r ih =>
    intro hls acc
    have hne : ∀ n, 1 ≤ n → n ≤ 3 → key ≠ latchKey q n j := fun n hn hn' he =>
      h (he ▸ latchKey_div q hn hn' (hls j List.mem_cons_self))
    rw [List.foldl_cons, ih (fun x hx => hls x (List.mem_cons_of_mem _ hx))]
    unfold shiftLane
    rw [mget_mput_other _ _ _ _ _ (hne 1 (by decide) (by decide)), mget_mput_other _ _ _ _ _ (hne 2 (by decide) (by decide)),
      mget_mput_other _ _ _ _ _ (hne 3 (by decide) (by decide))]

/-- A cleared row: zero in its quadrant, and as it was elsewhere (R180). -/
theorem mget_clearLatches (q : Nat) (m : SMap Word) (key : Nat) :
    mget (clearLatches q m) key 0 = if key / 96 = q then 0 else mget m key 0 := by
  rw [mget, clearLatches, mfind_filter_key (fun j => !(decide (96 * q ≤ j) && decide (j < 96 * q + 96)))]
  by_cases h : key / 96 = q
  · rw [if_pos h, if_neg (by simp only [Bool.not_eq_true', Bool.and_eq_false_iff, decide_eq_false_iff_not]; omega)]; rfl
  · rw [if_neg h, if_pos (by simp only [Bool.not_eq_true', Bool.and_eq_false_iff, decide_eq_false_iff_not]; omega)]; rfl

/-! ### Issue and retirement -/

/-- Whether an instruction starts a hold chain. -/
def startsChain (a : At) (e : Enc) : Prop := e.ctl.hold = true ∧ a.sp.chain = 0

/-- The latches after the bookkeeping of issue. -/
theorem book_latches (s : State) (a : At) (e : Enc) :
    (¬ startsChain a e → ∀ n, (getCore (book s a e) n).latches = (getCore s n).latches)
    ∧ (startsChain a e → (∀ n, n ≠ a.tm.core → (getCore (book s a e) n).latches = (getCore s n).latches)
      ∧ (getCore (book s a e) a.tm.core).latches
          = clearLatches (quadrantOf a.tm a.g.w1) (getCore s a.tm.core).latches) := by
  unfold book startsChain
  simp only
  split
  · next h =>
    have hc : e.ctl.hold = true ∧ a.sp.chain = 0 := by simpa using h
    refine ⟨fun hn => absurd hc hn, fun _ => ⟨fun n hn => ?_, ?_⟩⟩
    · rw [getCore_modCore_other _ _ _ _ hn]; rfl
    · rw [getCore_modCore_self]; rfl
  · next h =>
    have hc : ¬ (e.ctl.hold = true ∧ a.sp.chain = 0) := by simpa using h
    exact ⟨fun _ _ => rfl, fun h' => absurd h' hc⟩

/-- The latches after a retirement: shifted by a class A or F member of a hold chain, and as they were otherwise. -/
theorem retire_latches (s : State) (i : Iss) (regs preds : List (Nat × Word)) (res : SMap Word) (n : Nat) :
    (getCore (retire s i regs preds res) n).latches
      = if n = i.a.tm.core ∧ i.chain = true ∧ (i.f.cls i.e = .A ∨ i.f.cls i.e = .F)
        then shiftRow (quadrantOf i.a.tm i.a.g.w1) res (getCore s n).latches else (getCore s n).latches := by
  have hkeep : ∀ (s1 : State) ws, getCore (flagFixed (writeFixed s1 i ws) i) n = getCore s1 n := fun s1 ws => by
    unfold flagFixed writeFixed; split <;> rfl
  unfold retire
  simp only [hkeep]
  by_cases hc : i.chain = true ∧ (i.f.cls i.e = .A ∨ i.f.cls i.e = .F)
  · rw [if_pos (by simpa using hc)]
    by_cases hn : n = i.a.tm.core
    · rw [if_pos ⟨hn, hc⟩, hn, shiftLatches, getCore_modCore_self]
    · rw [if_neg fun h => hn h.1, shiftLatches, getCore_modCore_other _ _ _ _ hn]
  · rw [if_neg (by simpa using hc), if_neg fun h => hc h.2]

/-- A latch after the bookkeeping of issue: zero at the start of a chain (R180). -/
theorem latchAt_book (s : State) (a : At) (e : Enc) {k l : Nat} (h1 : 1 ≤ k) (h3 : k ≤ 3) (hl : l < 32) :
    latchAt (book s a e) a k l = if e.ctl.hold = true ∧ a.sp.chain = 0 then 0 else latchAt s a k l := by
  obtain ⟨hkeep, hstart⟩ := book_latches s a e
  unfold latchAt
  by_cases hs : startsChain a e
  · rw [(hstart hs).2, mget_clearLatches, if_pos (latchKey_div _ h1 h3 hl)]
    exact (if_pos hs).symm
  · rw [hkeep hs]
    exact (if_neg hs).symm

/-- The bookkeeping of issue leaves the latches of other quadrants and cores. -/
theorem book_latches_other (s : State) (a : At) (e : Enc) {n key : Nat}
    (h : n ≠ a.tm.core ∨ key / 96 ≠ quadrantOf a.tm a.g.w1) :
    mget (getCore (book s a e) n).latches key 0 = mget (getCore s n).latches key 0 := by
  obtain ⟨hkeep, hstart⟩ := book_latches s a e
  by_cases hs : startsChain a e
  · by_cases hn : n = a.tm.core
    · rw [hn, (hstart hs).2, mget_clearLatches, if_neg (h.resolve_left fun hne => hne hn)]
    · rw [(hstart hs).1 n hn]
  · rw [hkeep hs]

/-- An instruction that leaves the latches as the bookkeeping of issue did, of a class that does not shift them. -/
theorem latchesAfter_kept {s t : State} {a : At} {e : Enc} {c : LatClass} {P : Nat → Word → Prop} (hc : c ≠ .A ∧ c ≠ .F)
    (ht : ∀ n, (getCore t n).latches = (getCore (book s a e) n).latches) : LatchesAfter s t a e c P := by
  refine ⟨fun hn n => ?_, fun _ h => absurd h (not_or.2 hc), fun _ _ _ k l h1 h3 hl => ?_, fun n key hn => ?_⟩
  · rw [ht, (book_latches s a e).1 fun hs => hn (.inl hs.1)]
  · exact (congrArg (fun m => mget m _ 0) (ht a.tm.core)).trans (latchAt_book s a e h1 h3 hl)
  · rw [ht, book_latches_other s a e hn]

/-- A retirement, in the state that the bookkeeping of issue left, up to the generators. -/
theorem latchesAfter_retire {f : Form} {e : Enc} {s : State} {a : At} (h : Clear f e s a) {u : State}
    (hu : ∀ n, (getCore u n).latches = (getCore (book s a e) n).latches) (regs preds : List (Nat × Word)) {res : SMap Word}
    {P : Nat → Word → Prop} (hP : ∀ l < 32, P l (mget res l 0)) :
    LatchesAfter s (retire u (issOf f e s a) regs preds res) a e (f.cls e) P := by
  obtain ⟨-, -, -, -, htm, -, -, hg⟩ := iss_facts h
  have hw : (issOf f e s a).a.g.w1 = a.g.w1 := by rw [hg]; rfl
  have hchain : (issOf f e s a).chain = true ↔ e.ctl.hold = true ∨ 0 < a.sp.chain := by simp [issOf]
  have hret := fun n => retire_latches u (issOf f e s a) regs preds res n
  simp only [htm, hw, hchain, hu, show (issOf f e s a).f = f from rfl, show (issOf f e s a).e = e from rfl] at hret
  by_cases hshift : (e.ctl.hold = true ∨ 0 < a.sp.chain) ∧ (f.cls e = .A ∨ f.cls e = .F)
  · refine ⟨fun hn => absurd hshift.1 hn, fun _ _ l hl => ?_, fun _ hA hF => absurd hshift.2 (not_or.2 ⟨hA, hF⟩),
      fun n key hn => ?_⟩
    · have hat : ∀ k, 1 ≤ k → k ≤ 3 → latchAt (retire u (issOf f e s a) regs preds res) a k l
          = shifted (quadrantOf a.tm a.g.w1) res (getCore (book s a e) a.tm.core).latches k l := fun k h1 h3 => by
        rw [latchAt, hret, if_pos ⟨rfl, hshift⟩, mget_shiftRow _ _ _ h1 h3 hl]
      refine ⟨?_, ?_, ?_⟩
      · rw [hat 1 (by decide) (by decide)]; exact hP l hl
      · rw [hat 2 (by decide) (by decide)]; exact latchAt_book s a e (by decide) (by decide) hl
      · rw [hat 3 (by decide) (by decide)]; exact latchAt_book s a e (by decide) (by decide) hl
    · rw [hret]
      split
      · next hc => rw [mget_shiftRow_other _ _ _ (hn.resolve_left fun hne => hne hc.1), book_latches_other s a e hn]
      · exact book_latches_other s a e hn
  · have hkeep : ∀ n, (getCore (retire u (issOf f e s a) regs preds res) n).latches = (getCore (book s a e) n).latches :=
      fun n => by rw [hret, if_neg fun hc => hshift hc.2]
    refine ⟨fun hn n => ?_, fun hc hAF => absurd ⟨hc, hAF⟩ hshift, fun _ _ _ k l h1 h3 hl => ?_, fun n key hn => ?_⟩
    · rw [hkeep, (book_latches s a e).1 fun hs => hn (.inl hs.1)]
    · exact (congrArg (fun m => mget m _ 0) (hkeep a.tm.core)).trans (latchAt_book s a e h1 h3 hl)
    · rw [hkeep, book_latches_other s a e hn]

/-- What b1 receives may be said more weakly. -/
theorem latchesAfter_mono {s t : State} {a : At} {e : Enc} {c : LatClass} {P Q : Nat → Word → Prop}
    (h : LatchesAfter s t a e c P) (hPQ : ∀ l v, P l v → Q l v) : LatchesAfter s t a e c Q := by
  obtain ⟨hout, hshift, hkeep, hother⟩ := h
  refine ⟨hout, fun hc hA l hl => ?_, hkeep, hother⟩
  obtain ⟨h1, h2, h3⟩ := hshift hc hA l hl
  exact ⟨hPQ l _ h1, h2, h3⟩

/-- Generators set one after another leave every core. -/
theorem setLgs_cores (s : State) (gid : Nat) (outs : List (Nat × LaneOut)) (n : Nat) :
    getCore (outs.foldl (fun acc o => setLg acc gid o.1 o.2.lg) s) n = getCore s n :=
  (congrArg (fun u : State => getCore u n) (setLgs_rest s gid outs).1 :)

/-- What is found among the results of some lanes. -/
theorem mget_results {α : Type} {ls : List Nat} (v : Nat → α) (d : α) (l : Nat) :
    mget (ls.map fun x => (x, v x)) l d = if l ∈ ls then v l else d := by
  induction ls with
  | nil => rfl
  | cons x r ih =>
    by_cases hx : x = l
    · subst hx; simp [mget, mfind]
    · have : mget ((x :: r).map fun x => (x, v x)) l d = mget (r.map fun x => (x, v x)) l d := by simp [mget, mfind, hx]
      rw [this, ih]
      exact if_congr (by simp [Ne.symm hx]) rfl rfl

/-- What a lane instruction of class A, F or D leaves in the latches: the low word of each participant's result. -/
theorem laneEffect_latches {f : Form} {e : Enc} {s : State} {a : At} (h : Clear f e s a) (fn : State → Iss → LaneIn → LaneOut) :
    let i := issOf f e s a
    let s1 := book s a e
    LatchesAfter s (laneEffect fn i s1) a e (f.cls e) fun l v =>
      (l ∉ participants s1 i.a e → v = 0)
      ∧ ((∃ n, f.d e a.sp.fmt = .vd n) → l ∈ participants s1 i.a e → v = BitVec.ofNat 32 (fn s1 i (laneIn s1 i l)).d) := by
  intro i s1
  unfold laneEffect
  dsimp only
  refine latchesAfter_retire h (fun n => by rw [setLgs_cores]) _ _ fun l hl => ?_
  have hfmt : i.a.sp.fmt = a.sp.fmt := (iss_facts h).2.2.1
  rw [List.map_map]
  have hres := mget_results (ls := participants s1 i.a e) (fun l => BitVec.ofNat 32 (fn s1 i (laneIn s1 i l)).d) 0 l
  have hfree := mget_results (ls := participants s1 i.a e) (fun l => Config.freeWord s1.fresh l) 0 l
  constructor
  · intro hn
    rw [if_neg hn] at hres hfree
    split
    · exact hres
    · exact hfree
  · rintro ⟨n, hd⟩ hin
    rw [if_pos hin] at hres
    have hrole : i.f.d i.e i.a.sp.fmt = .vd n := by rw [hfmt]; exact hd
    simp only [hrole, if_true]
    exact hres

/-- What a uniform instruction of class A, F or D leaves in the latches: the low word of its result in every position, or zero
under a false guard. -/
theorem uniEffect_latches {f : Form} {e : Enc} {s : State} {a : At} (h : Clear f e s a) (fn : State → Iss → LaneIn → LaneOut) :
    let i := issOf f e s a
    let s1 := book s a e
    LatchesAfter s (uniEffect fn i s1) a e (f.cls e) fun _ v =>
      (¬ uniGuard s1 i.a e = true → v = 0)
      ∧ ((∃ n, f.d e a.sp.fmt = .ud n) → uniGuard s1 i.a e = true →
          v = BitVec.ofNat 32 (fn s1 i (laneIn s1 i (lowLane a.sp.active))).d) := by
  intro i s1
  have hfmt : i.a.sp.fmt = a.sp.fmt := (iss_facts h).2.2.1
  have hact : i.a.sp.active = a.sp.active := (iss_facts h).2.2.2.1
  by_cases hg : uniGuard s1 i.a e = true
  · unfold uniEffect
    dsimp only
    rw [if_pos (show uniGuard s1 i.a i.e = true from hg)]
    refine latchesAfter_retire h (fun n => congrArg Core.latches (setLgs_cores s1 i.a.gid [(_, _)] n)) _ _ fun l hl =>
      ⟨fun hn => absurd hg hn, ?_⟩
    rintro ⟨n, hd⟩ -
    have hrole : i.f.d i.e i.a.sp.fmt = .ud n := by rw [hfmt]; exact hd
    simp only [hrole, if_true, hact]
    rw [mget_results (fun _ => _) 0 l, if_pos (List.mem_range.2 hl)]
  · rw [uniEffect_off fn i s1 hg]
    exact latchesAfter_retire h (fun n => rfl) _ _ fun l _ => ⟨fun _ => rfl, fun _ hg' => absurd hg' hg⟩

/-- The lowest register of a block that holds a number holds its low word. -/
theorem regOf_of_blockOf {s : State} {gid key n x : Nat} (hn : 0 < n) (h : blockOf s gid key n = x % 2 ^ (32 * n)) :
    regOf s gid key = BitVec.ofNat 32 x := by
  obtain ⟨m, rfl⟩ : ∃ m, n = m + 1 := ⟨n - 1, by omega⟩
  have hx : x % 2 ^ (32 * (m + 1)) % 2 ^ 32 = x % 2 ^ 32 :=
    Nat.mod_mod_of_dvd _ (Nat.pow_dvd_pow 2 (by omega))
  have hlow : (regOf s gid key).toNat = x % 2 ^ 32 := by
    rw [← hx, ← h, blockOf, rangeFrom, List.map_cons, wordsNat, Nat.add_mul_mod_self_left, Nat.mod_eq_of_lt (BitVec.isLt _)]
  exact BitVec.eq_of_toNat_eq (by rw [hlow, BitVec.toNat_ofNat])

/-- A state that an instruction leads to. -/
theorem next_inj {s : State} {i : Instr} {t u : State} (ht : exec i s = .next t) (hu : exec i s = .next u) : t = u :=
  Host.Outcome.next.inj (ht.symm.trans hu)

/-! ### The forms -/

/-- A lane instruction with a v destination shifts the low word of each participant's result into b1. -/
theorem laneLatches {mk : Enc → Instr} {f : Form} (n : Enc → Nat) (fn : State → Iss → LaneIn → LaneOut)
    (hx : ∀ e s, exec (mk e) s = execLane f fn e s) (hj : f.gj = false) (hd : ∀ e w, f.d e w = .vd (n e)) (hn : ∀ e, 0 < n e)
    (e : Enc) (s : State) (a : At) (h : Clear f e s a) :
    ∃ t, exec (mk e) s = .next t ∧ LatchesAfter s t a e (f.cls e) fun l v =>
      if l ∈ participants (book s a e) (issOf f e s a).a e then e.ctl.nwb = false → v = regOf t a.gid (vKey l e.d.toNat)
      else v = 0 := by
  obtain ⟨t, ht, -, -, -, hw⟩ := laneResult_of hx hj hd (out := fn) (fun _ _ _ _ _ _ _ _ => ⟨rfl, rfl⟩) e s a h
  refine ⟨t, ht, ?_⟩
  have hl := laneEffect_latches h fn
  have hte : t = laneEffect fn (issOf f e s a) (book s a e) := next_inj ht (by rw [hx, execLane, issue_clear h])
  dsimp only at hl
  rw [← hte] at hl
  refine latchesAfter_mono hl fun l v ⟨hout, hin⟩ => ?_
  split
  · next hmem =>
    intro hb
    rw [hin ⟨_, hd e _⟩ hmem]
    rw [hb] at hw
    exact (regOf_of_blockOf (hn e) (hw.dest l hmem)).symm
  · next hmem => exact hout hmem

/-- A uniform instruction with an s destination shifts the low word of its result into b1 of every lane position. -/
theorem uniLatches {mk : Enc → Instr} {f : Form} (n : Enc → Nat) (fn : State → Iss → LaneIn → LaneOut)
    (hx : ∀ e s, exec (mk e) s = execUni f fn e s) (hj : f.gj = false) (hd : ∀ e w, f.d e w = .ud (n e))
    (hn : ∀ e, n e = 1 ∨ n e = 2 ∨ n e = 4) (e : Enc) (s : State) (a : At) (h : Clear f e s a) :
    ∃ t, exec (mk e) s = .next t ∧ LatchesAfter s t a e (f.cls e) fun _ v =>
      if uniGuard (book s a e) (issOf f e s a).a e = true then e.ctl.nwb = false → v = regOf t a.gid (sKey e.d.toNat)
      else v = 0 := by
  obtain ⟨t, ht, -, -, -, hw⟩ := uniResult_of hx hj hd hn (out := fn) (fun _ _ _ _ _ _ _ => ⟨rfl, rfl⟩) e s a h
  refine ⟨t, ht, ?_⟩
  have hl := uniEffect_latches h fn
  have hte : t = uniEffect fn (issOf f e s a) (book s a e) := next_inj ht (by rw [hx, execUni, issue_clear h])
  dsimp only at hl
  rw [← hte] at hl
  refine latchesAfter_mono hl fun l v ⟨hout, hin⟩ => ?_
  split
  · next hg =>
    intro hb
    rw [hin ⟨_, hd e _⟩ hg]
    rw [hb, hg] at hw
    exact (regOf_of_blockOf (by have := hn e; omega) (hw.dest _ List.mem_cons_self)).symm
  · next hg => exact hout hg

/-- A lane instruction with a predicate destination shifts zero into b1 of the positions that take no part. -/
theorem predLatches {mk : Enc → Instr} {f : Form} (fn : State → Iss → LaneIn → LaneOut)
    (hx : ∀ e s, exec (mk e) s = execLane f fn e s) (e : Enc) (s : State) (a : At) (h : Clear f e s a) :
    ∃ t, exec (mk e) s = .next t ∧ LatchesAfter s t a e (f.cls e) fun l v =>
      l ∉ participants (book s a e) (issOf f e s a).a e → v = 0 :=
  ⟨_, by rw [hx, execLane, issue_clear h], latchesAfter_mono (laneEffect_latches h fn) fun _ _ hp => hp.1⟩

/-- A lane instruction of another class leaves the latches. -/
theorem laneOther {mk : Enc → Instr} {f : Form} (fn : State → Iss → LaneIn → LaneOut)
    (hx : ∀ e s, exec (mk e) s = execLane f fn e s) (e : Enc) (s : State) (a : At) (h : Clear f e s a) :
    ∃ t, exec (mk e) s = .next t ∧ LatchesAfter s t a e (f.cls e) fun _ _ => True :=
  ⟨_, by rw [hx, execLane, issue_clear h], latchesAfter_mono (laneEffect_latches h fn) fun _ _ _ => trivial⟩

/-- A uniform instruction of another class leaves the latches. -/
theorem uniOther {mk : Enc → Instr} {f : Form} (fn : State → Iss → LaneIn → LaneOut)
    (hx : ∀ e s, exec (mk e) s = execUni f fn e s) (e : Enc) (s : State) (a : At) (h : Clear f e s a) :
    ∃ t, exec (mk e) s = .next t ∧ LatchesAfter s t a e (f.cls e) fun _ _ => True :=
  ⟨_, by rw [hx, execUni, issue_clear h], latchesAfter_mono (uniEffect_latches h fn) fun _ _ _ => trivial⟩

/-- An operation that goes outstanding leaves every core. -/
theorem getCore_retireV (s : State) (i : Iss) (ws : List (Nat × Word)) (n : Nat) : getCore (retireV s i ws) n = getCore s n := rfl

/-- A cooperative instruction leaves every core. -/
theorem coopEffect_cores (fn : State → Iss → List Nat → (Nat → LaneIn) → List CoopOut) (i : Iss) (s : State) (n : Nat) :
    getCore (coopEffect fn i s) n = getCore s n := by
  unfold coopEffect
  dsimp only
  rw [getCore_retireV]
  generalize fn s i (participants s i.a i.e) (laneIn s i) = outs
  induction outs generalizing s with
  | nil => rfl
  | cons o r ih =>
    rw [List.foldl_cons, ih]
    cases o.lg <;> rfl

/-! ### Integer addition -/

/-- The integer that the low bits of a number hold, said twice. -/
theorem asInt_eq_intOf (n : Nat) (sg : Bool) (p : Nat) : asInt n sg p = intOf n sg p := by
  unfold asInt intOf
  rw [BitVec.toInt_eq_msb_cond, BitVec.msb_eq_getLsbD_last, BitVec.getLsbD, BitVec.toNat_ofNat]
  cases sg <;> simp

/-- A sum kept in its width: clamped or wrapped, said twice. -/
theorem satOr_eq_keepIn (sat sg : Bool) (n : Nat) (x : Int) : satOr sat n sg x = keepIn n sg sat x := by
  unfold satOr keepIn clampTo wrapTo intLo intHi
  cases sat <;> cases sg <;> simp [BitVec.toNat_ofInt]

/-- The sum of IADD (R196). -/
theorem opIadd_eq (i : Iss) (x : LaneIn) :
    opIadd i x = keepIn 32 (i.bit 8) (i.bit 9) (intOf 32 (i.bit 8) x.a + intOf 32 (i.bit 8) x.b) := by
  rw [opIadd, satOr_eq_keepIn, asInt_eq_intOf, asInt_eq_intOf]; rfl

/-- An instruction under NWB is a class A or F member of a hold chain (R181, R183). -/
theorem nwb_holds {f : Form} {e : Enc} {s : State} {a : At} (h : Clear f e s a) (hb : e.ctl.nwb = true) :
    e.ctl.hold = true ∧ (f.cls e = .A ∨ f.cls e = .F) := by
  obtain ⟨-, -, hnwb, -⟩ := encCheck_none h.legal
  simp only [nwbBad, hb, Bool.true_and, Bool.not_eq_false', Bool.and_eq_true, Bool.or_eq_true, beq_iff_eq] at hnwb
  exact hnwb

/-- Under NWB the sum of IADD stands in b1 alone. -/
theorem iadd_nwb (e : Enc) (s : State) (a : At) (h : Clear formIadd e s a) (hb : e.ctl.nwb = true) :
    let i := issOf formIadd e s a
    ∃ t, exec (.iadd e) s = .next t ∧ (∀ k, regOf t a.gid k = regOf s a.gid k)
      ∧ ∀ l ∈ participants (book s a e) i.a e, latchAt t a 1 l = BitVec.ofNat 32 (
          let x := laneIn (book s a e) i l
          keepIn 32 (i.bit 8) (i.bit 9) (intOf 32 (i.bit 8) x.a + intOf 32 (i.bit 8) x.b)) := by
  intro i
  have hx : ∀ e s, exec (.iadd e) s = execLane formIadd (plain opIadd) e s := fun _ _ => rfl
  obtain ⟨t, ht, -, -, -, hw⟩ := laneResult_of (n := fun _ => 1) hx rfl (fun _ _ => rfl) (out := plain opIadd)
    (fun _ _ _ _ _ _ _ _ => ⟨rfl, rfl⟩) e s a h
  have hte : t = laneEffect (plain opIadd) i (book s a e) := next_inj ht (by rw [hx, execLane, issue_clear h])
  obtain ⟨-, hshift, -⟩ := laneEffect_latches h (plain opIadd)
  refine ⟨t, ht, fun k => hw.other k fun l hl => ?_, fun l hl => ?_⟩
  · rw [hb] at hl; exact absurd hl List.not_mem_nil
  · rw [hte, (hshift (.inl (nwb_holds h hb).1) (.inl rfl) l (lt_of_participant hl)).1.2 ⟨1, rfl⟩ hl]
    exact congrArg _ (opIadd_eq ..)

/-- A float of a lane takes one register or two. -/
theorem ftW_cases (e : Enc) : ftW e = 1 ∨ ftW e = 2 ∨ ftW e = 4 := by
  unfold ftW; split <;> simp

/-- A destination of selectable width takes one register or two. -/
theorem w64_cases (e : Enc) (k : Nat) : w64 e k = 1 ∨ w64 e k = 2 ∨ w64 e k = 4 := by
  have : e.M k k < 2 := by simpa [Enc.M, bitsOf] using Nat.mod_lt (e.m.md.toNat >>> (k - 8)) Nat.two_pos
  unfold w64; omega

/-- Settles O49: the latches after the retirement of each class, and what b1 has of the result. -/
theorem holdChains : Obligations.HoldChains := by
  unfold Obligations.HoldChains
  have one : ∀ e : Enc, (fun _ : Enc => 1) e = 1 ∨ (fun _ : Enc => 1) e = 2 ∨ (fun _ : Enc => 1) e = 4 := fun _ => .inl rfl
  have ft : ∀ e, 0 < ftW e := fun e => by have := ftW_cases e; omega
  have w : ∀ e, 0 < w64 e 8 := fun e => by have := w64_cases e 8; omega
  have hD : LatClass.D ≠ .A ∧ LatClass.D ≠ .F := by decide
  have hV : LatClass.V ≠ .A ∧ LatClass.V ≠ .F := by decide
  have hN : LatClass.N ≠ .A ∧ LatClass.N ≠ .F := by decide
  have frcp := fun e s a (h : Clear formFrcp e s a) => issue_clear h (laneEffectV (opOchre fun _ a _ => xrcp a))
  have redux := fun e s a (h : Clear formRedux e s a) => issue_clear h (coopEffect coopRedux)
  have nop := fun e s a (h : Clear formNop e s a) => issue_clear h (fun i s => retireN s i)
  exact ⟨laneLatches (fun _ => 1) _ (fun _ _ => rfl) rfl (fun _ _ => rfl) (fun _ => by decide),
    laneLatches (fun _ => 1) _ (fun _ _ => rfl) rfl (fun _ _ => rfl) (fun _ => by decide),
    laneLatches (fun _ => 1) _ (fun _ _ => rfl) rfl (fun _ _ => rfl) (fun _ => by decide),
    laneLatches (fun _ => 1) _ (fun _ _ => rfl) rfl (fun _ _ => rfl) (fun _ => by decide),
    laneLatches (fun _ => 1) _ (fun _ _ => rfl) rfl (fun _ _ => rfl) (fun _ => by decide),
    laneLatches (fun e => w64 e 8) _ (fun _ _ => rfl) rfl (fun _ _ => rfl) w,
    laneLatches (fun e => w64 e 8) _ (fun _ _ => rfl) rfl (fun _ _ => rfl) w,
    laneLatches ftW _ (fun _ _ => rfl) rfl (fun _ _ => rfl) ft,
    laneLatches ftW _ (fun _ _ => rfl) rfl (fun _ _ => rfl) ft,
    laneLatches ftW _ (fun _ _ => rfl) rfl (fun _ _ => rfl) ft,
    laneLatches ftW _ (fun _ _ => rfl) rfl (fun _ _ => rfl) ft,
    uniLatches (fun _ => 1) _ (fun _ _ => rfl) rfl (fun _ _ => rfl) one,
    uniLatches (fun _ => 1) _ (fun _ _ => rfl) rfl (fun _ _ => rfl) one,
    uniLatches (fun e => w64 e 8) _ (fun _ _ => rfl) rfl (fun _ _ => rfl) (w64_cases · 8),
    uniLatches ftW _ (fun _ _ => rfl) rfl (fun _ _ => rfl) ftW_cases,
    predLatches _ (fun _ _ => rfl), predLatches _ (fun _ _ => rfl),
    ⟨fun _ => hD, laneOther _ fun _ _ => rfl⟩, ⟨fun _ => hD, laneOther _ fun _ _ => rfl⟩,
    ⟨fun _ => hD, uniOther _ fun _ _ => rfl⟩,
    ⟨fun _ => hV, fun e s a h => ⟨_, redux e s a h, latchesAfter_kept hV fun n => by rw [coopEffect_cores]⟩⟩,
    ⟨fun _ => hV, fun e s a h => ⟨_, frcp e s a h, latchesAfter_kept hV fun n => by
      rw [laneEffectV, getCore_retireV, setLgs_cores]⟩⟩,
    ⟨fun _ => hN, fun e s a h => ⟨_, nop e s a h, latchesAfter_kept hN fun n => by
      unfold retireN flagFixed; split <;> rfl⟩⟩,
    iadd_nwb⟩

end Sys2Proof.Machine
end

section
/-!
O48. The system instructions: format, compand and quota state, traps and their return, TKILL, OTSET and PINV
(R54, R163, R300 to R308, R363, R368).
-/

namespace Sys2Proof.Machine

/-! ### Instructions of class N -/

/-- The group of an instruction that has retired is `g`, up to its operations; besides groups and latches nothing changed. -/
structure Retired (s t : State) (a : At) (g : Group) : Prop where
  group  : ∃ ops nextOp, mfind t.groups a.gid = some { g with ops, nextOp }
  rest   : { t with groups := s.groups, cores := s.cores } = s
  others : ∀ j, j ≠ a.gid → mfind t.groups j = mfind s.groups j

/-- What the retirement of a class N instruction changes: the operations of its group. -/
theorem retireN_groups {u : State} {i : Iss} {g : Group} (hg : mfind u.groups i.a.gid = some g) :
    (∃ ops nextOp, mfind (retireN u i).groups i.a.gid = some { g with ops, nextOp })
    ∧ { retireN u i with groups := u.groups } = u
    ∧ ∀ j, j ≠ i.a.gid → mfind (retireN u i).groups j = mfind u.groups j := by
  unfold retireN flagFixed
  cases flagOf i.e with
  | none => exact ⟨⟨g.ops, g.nextOp, hg⟩, rfl, fun _ _ => rfl⟩
  | some k =>
    refine ⟨?_, rfl, fun j hj => ?_⟩
    · dsimp only
      rw [mfind_modGroup, if_pos rfl, hg]; exact ⟨_, _, rfl⟩
    · rw [mfind_modGroup, if_neg hj]

/-- The retirement of a class N instruction, in the state that the bookkeeping of issue left. -/
theorem retired_book {f : Form} {e : Enc} {s : State} {a : At} (h : Clear f e s a) :
    Retired s (retireN (book s a e) (issOf f e s a)) a (bookGroup s a e a.g) := by
  obtain ⟨hgid, -, -, -, -, hb, -⟩ := iss_facts h
  obtain ⟨hgrp, hrest, hoth⟩ := retireN_groups (i := issOf f e s a) (hgid ▸ hb)
  rw [hgid] at hgrp hoth
  refine ⟨hgrp, ?_, fun j hj => (hoth j hj).trans (book_others s a e j hj)⟩
  exact (congrArg (fun u : State => { u with groups := s.groups, cores := s.cores }) hrest).trans (book_rest s a e)

/-- The retirement of a class N instruction that has changed its group. -/
theorem retired_modGroup {f : Form} {e : Enc} {s : State} {a : At} (h : Clear f e s a) (F : Group → Group) :
    Retired s (retireN (modGroup (book s a e) (issOf f e s a).a.gid F) (issOf f e s a)) a (F (bookGroup s a e a.g)) := by
  obtain ⟨hgid, -, -, -, -, hb, -⟩ := iss_facts h
  have hg : mfind (modGroup (book s a e) (issOf f e s a).a.gid F).groups (issOf f e s a).a.gid
      = some (F (bookGroup s a e a.g)) := by
    rw [mfind_modGroup, if_pos rfl, hgid, hb]; rfl
  obtain ⟨hgrp, hrest, hoth⟩ := retireN_groups hg
  rw [hgid] at hgrp hoth hrest
  refine ⟨by rw [hgid]; exact hgrp, ?_, fun j hj => ?_⟩
  · rw [hgid]
    exact (congrArg (fun u : State => { u with groups := s.groups, cores := s.cores }) hrest).trans (book_rest s a e)
  · rw [hgid, hoth j hj, mfind_modGroup, if_neg hj, book_others s a e j hj]

namespace Retired

variable {s t : State} {a : At} {g : Group}

theorem mem (h : Retired s t a g) : t.mem = s.mem := by
  have := congrArg State.mem h.rest
  exact this

theorem teams (h : Retired s t a g) : t.teams = s.teams := by
  have := congrArg State.teams h.rest
  exact this

theorem parts (h : Retired s t a g) : t.parts = s.parts := by
  have := congrArg State.parts h.rest
  exact this

/-- What does not look at groups or cores did not change. -/
theorem field {α : Sort*} (h : Retired s t a g) (φ : State → α) (hφ : ∀ (u : State) gs cs, φ { u with groups := gs, cores := cs } = φ u) :
    φ t = φ s := by
  have := congrArg φ h.rest
  rwa [hφ] at this

/-- The group's record, up to its operations. -/
theorem getGroup (h : Retired s t a g) : ∃ ops nextOp, getGroup t a.gid = { g with ops, nextOp } := by
  obtain ⟨ops, nextOp, hg⟩ := h.group
  exact ⟨ops, nextOp, by rw [Machine.getGroup, mget, hg]; rfl⟩

theorem splits (h : Retired s t a g) : (Machine.getGroup t a.gid).splits = g.splits := by
  obtain ⟨_, _, hg⟩ := h.getGroup
  rw [hg]

theorem hc (h : Retired s t a g) : (Machine.getGroup t a.gid).hc = g.hc := by
  obtain ⟨_, _, hg⟩ := h.getGroup
  rw [hg]

/-- Where the issuing split is then. -/
theorem atOf (h : Retired s t a g) (ha : curAt s = some a) {x : Split} (hx : g.splits[a.k]? = some x) :
    ∃ ops nextOp, atOf t a.gid a.k = some { a with g := { g with ops, nextOp }, sp := x } := by
  obtain ⟨ops, nextOp, hg⟩ := h.group
  obtain ⟨-, -, -, -, htm, htask⟩ := atOf_some (curAt_some ha).1
  have hteam : getTeam t (teamKey a.gid) = getTeam s (teamKey a.gid) := by rw [getTeam, h.teams, getTeam]
  have htk : ∀ p n, getTask t p n = getTask s p n := fun p n => by
    unfold getTask findTask getPart; rw [h.parts]
  refine ⟨ops, nextOp, ?_⟩
  unfold Machine.atOf
  simp only [hg, hx, hteam, htk, ← htm, ← htask]

end Retired

/-- The split goes on with the next instruction after such a retirement. -/
theorem wentOn_of_retired {s t : State} {a : At} {e : Enc} {g : Group} (h : Retired s t a g)
    (hpc : g.splits[a.k]?.map (·.pc) = some (nextPc a e)) : WentOn t a e := by
  rw [WentOn, h.splits]; exact hpc

/-- No register changed in such a retirement, of a group that kept its own. -/
theorem regOf_of_retired {s t : State} {a : At} {g : Group} (h : Retired s t a g) (ha : curAt s = some a)
    (hr : g.regs = a.g.regs) (x k : Nat) : regOf t x k = regOf s x k := by
  obtain ⟨_, _, hg⟩ := h.getGroup
  by_cases hx : x = a.gid
  · rw [hx, regOf, hg, regOf, getGroup, mget.eq_1 s.groups, (curAt_some ha).2]
    exact congrArg (fun m : SMap Word => mget m k 0) hr
  · rw [regOf, getGroup, mget.eq_1 t.groups, h.others x hx]; rfl

/-- The bookkeeping of issue leaves memory. -/
theorem book_mem (s : State) (a : At) (e : Enc) : (book s a e).mem = s.mem := by
  have := congrArg State.mem (book_rest s a e)
  exact this

/-- The split of a booked group. -/
theorem bookGroup_split {f : Form} {e : Enc} {s : State} {a : At} (h : Clear f e s a) :
    (bookGroup s a e a.g).splits[a.k]? = some (bookSplit s a e a.sp) := (iss_facts h).2.2.2.2.2.2.1

/-- The program counter of a booked split. -/
theorem bookGroup_pc {f : Form} {e : Enc} {s : State} {a : At} (h : Clear f e s a) :
    (bookGroup s a e a.g).splits[a.k]?.map (·.pc) = some (nextPc a e) := by
  rw [bookGroup_split h]; rfl

/-- An instruction whose own check passes has its effect. -/
theorem issueChecked_clear {f : Form} {e : Enc} {s : State} {a : At} (h : Clear f e s a) {chk : State → Iss → Option TrapRec}
    (eff : Iss → State → State) (hc : chk (book s a e) (issOf f e s a) = none) :
    issueChecked f e s chk eff = .next (eff (issOf f e s a) (book s a e)) := by
  unfold issueChecked
  rw [gate_clear h]
  dsimp only
  rw [hc]

/-- A uniform source A, as it issues. -/
theorem uniA_eq {f : Form} {e : Enc} {s : State} {a : At} (h : Clear f e s a) :
    uniA (book s a e) (issOf f e s a) = (uniSrc f e s a).a := by
  unfold uniA uniSrc laneIn
  rw [(iss_facts h).2.2.2.1]

/-- A uniform source B, as it issues. -/
theorem uniB_eq {f : Form} {e : Enc} {s : State} {a : At} (h : Clear f e s a) :
    uniB (book s a e) (issOf f e s a) = (uniSrc f e s a).b := by
  unfold uniB uniSrc laneIn
  rw [(iss_facts h).2.2.2.1]

/-! ### SETFMT, WRSR and PINV -/

theorem setfmtCheck_none {e : Enc} {s : State} {a : At} (h : Clear formSetfmt e s a)
    (hl : fmtLegal (BitVec.ofNat 32 (uniSrc formSetfmt e s a).b) = true) :
    setfmtCheck (book s a e) (issOf formSetfmt e s a) = none := by
  rw [setfmtCheck, uniB_eq h, fmtTrap, if_pos hl]

theorem setfmt_sets (e : Enc) (s : State) (a : At) (h : Clear formSetfmt e s a) (hg : goes formSetfmt e s a)
    (hl : fmtLegal (BitVec.ofNat 32 (uniSrc formSetfmt e s a).b) = true) :
    ∃ t, exec (.setfmt e) s = .next t ∧ WentOn t a e ∧ t.mem = s.mem
      ∧ (getGroup t a.gid).splits[a.k]?.map (·.fmt) = some (BitVec.ofNat 32 (uniSrc formSetfmt e s a).b) := by
  have hx : exec (.setfmt e) s = _ := issueChecked_clear h setfmtEffect (setfmtCheck_none h hl)
  unfold setfmtEffect at hx
  rw [if_pos (show uniGuard _ _ (issOf formSetfmt e s a).e = true from hg), uniB_eq h, (iss_facts h).2.1] at hx
  have hr := retired_modGroup h fun g => { g with splits := g.splits.modify a.k fun x =>
    { x with fmt := BitVec.ofNat 32 (uniSrc formSetfmt e s a).b } }
  have hsp := bookGroup_split h
  refine ⟨_, hx, wentOn_of_retired hr ?_, hr.mem, (congrArg (fun l : List Split => l[a.k]?.map (·.fmt)) hr.splits).trans ?_⟩
  · dsimp only
    rw [List.getElem?_modify_eq, hsp]; rfl
  · dsimp only
    rw [List.getElem?_modify_eq, hsp]; rfl

theorem wrsr_writes (e : Enc) (s : State) (a : At) (h : Clear formWrsr e s a) (hg : goes formWrsr e s a) :
    ∃ t, exec (.wrsr e) s = .next t ∧ WentOn t a e ∧ t.mem = s.mem
      ∧ mget (getGroup t a.gid).hc (e.d.toNat - 160) 0 = BitVec.ofNat 32 (uniSrc formWrsr e s a).b := by
  have hx : exec (.wrsr e) s = _ := issue_clear h wrsrEffect
  unfold wrsrEffect at hx
  rw [if_pos (show uniGuard _ _ (issOf formWrsr e s a).e = true from hg), uniB_eq h] at hx
  have hr := retired_modGroup h fun g =>
    { g with hc := mput 0 g.hc (e.d.toNat - 160) (BitVec.ofNat 32 (uniSrc formWrsr e s a).b) }
  refine ⟨_, hx, wentOn_of_retired hr (bookGroup_pc h), hr.mem, (congrArg (fun m : SMap Word => mget m _ 0) hr.hc).trans ?_⟩
  exact mget_mput_self ..

theorem pinv_drops (e : Enc) (s : State) (a : At) (h : Clear formPinv e s a) (hg : goes formPinv e s a)
    (hlt : (uniSrc formPinv e s a).a < 2 ^ 52) :
    ∃ t, exec (.pinv e) s = .next t ∧ WentOn t a e ∧ t.mem = s.mem
      ∧ ∀ x ∈ t.tlb, ¬ (x.part = a.tm.part ∧ x.page = pageBase x.leaf (uniSrc formPinv e s a).a) := by
  have hc : pinvCheck (book s a e) (issOf formPinv e s a) = none := by
    rw [pinvCheck, uniA_eq h, decide_eq_false (Nat.not_le.2 hlt), Bool.and_false]; rfl
  have hx : exec (.pinv e) s = _ := issueChecked_clear h pinvEffect hc
  unfold pinvEffect at hx
  dsimp only at hx
  rw [if_pos (show uniGuard _ _ (issOf formPinv e s a).e = true from hg), uniA_eq h, (iss_facts h).2.2.2.2.1] at hx
  have hr := retired_book h
  refine ⟨_, hx, (wentOn_of_retired hr (bookGroup_pc h) :), (hr.mem :), fun x hm ⟨hp, hpage⟩ => ?_⟩
  have hcov := (List.mem_filter.1 hm).2
  rw [tlbCovers, hp, ← hpage] at hcov
  simp at hcov

/-! ### SETCMP and RQUOTA -/

/-- An operation that goes outstanding in a state whose groups are as the bookkeeping of issue left them. -/
theorem sent_in {f : Form} {e : Enc} {s : State} {a : At} (h : Clear f e s a) {u : State}
    (hu : u.groups = (book s a e).groups) (ws : List (Nat × Word)) (st : Stage) (ind gr : Bool) :
    WentOn (outstanding u (issOf f e s a) ws st ind gr) a e
    ∧ ∃ o, Sent s (outstanding u (issOf f e s a) ws st ind gr) a e o ∧ o.stage = st ∧ o.writes = opWrites ws := by
  obtain ⟨hgid, -, -, -, -, hb, hsp, -⟩ := iss_facts h
  obtain ⟨splits, hgrp, hpc⟩ := outstanding_group u (issOf f e s a) ws st ind gr (bookGroup s a e a.g) (by rw [hgid, hu]; exact hb)
  rw [hgid] at hgrp
  have hgt : getGroup (outstanding u (issOf f e s a) ws st ind gr) a.gid = _ := congrArg (·.getD Group.empty) hgrp
  have hgs : getGroup s a.gid = a.g := by rw [getGroup, mget, (curAt_some h.issuer).2]; rfl
  have hage : (issOf f e s a).a.sp.age = a.sp.age := by
    rw [show (issOf f e s a).a = _ from (issuedAt_eq e h.issuer).2]; rfl
  refine ⟨?_, ⟨a.g.nextOp, (issOf f e s a).a.sp.age, flagOf e, opWrites ws, ind || isIndigo f, isOchre f, gr, (issOf f e s a).loc,
    (issOf f e s a).a.sp.issued, u.cycle, [], st⟩, ⟨?_, rfl, hage, fun k => ?_⟩, rfl, rfl⟩
  · rw [WentOn, hgt]
    exact (hpc a.k).trans (bookGroup_pc h)
  · rw [hgt, hgs]; rfl
  · rw [regOf, hgt, regOf, hgs]; rfl

theorem rquota_none (e : Enc) (s : State) (a : At) (h : Clear formRquota e s a) (hg : goes formRquota e s a)
    (hb : (uniSrc formRquota e s a).b = 0) :
    ∃ t o, exec (.rquota e) s = .next t ∧ WentOn t a e ∧ Sent s t a e o ∧ o.stage = .done ∧ t.mem = s.mem
      ∧ (e.d ≠ 0 → Delivers o.writes [0] (fun _ => qKey e.d.toNat) 1 (fun _ => 1)) := by
  have hguard : uniGuard (book s a e) (issOf formRquota e s a).a (issOf formRquota e s a).e = true := hg
  have hx : exec (.rquota e) s = .next (retireV (book s a e) (issOf formRquota e s a) [qWrite e.d.toNat true]) := by
    refine (issue_clear h rquotaEffect).trans ?_
    unfold rquotaEffect
    rw [hguard, uniB_eq h, hb]; rfl
  obtain ⟨hw, o, hs, hst, hwr⟩ := sent_in h rfl [qWrite e.d.toNat true] .done false false
  refine ⟨_, o, hx, hw, hs, hst, book_mem s a e, fun hd l _ j hj => ?_⟩
  have hd0 : e.d.toNat ≠ 0 := fun hz => hd (BitVec.eq_of_toNat_eq hz)
  have hfix : fixedTrue (qKey e.d.toNat) = false := by
    simp only [fixedTrue, qKey, show ¬ 8576 + e.d.toNat < 8576 by omega, decide_false, Bool.and_false, Bool.false_and,
      Bool.or_false, beq_eq_false_iff_ne]
    omega
  obtain rfl : j = 0 := by omega
  rw [hwr, opWrites, List.foldl_cons, qWrite, List.foldl_nil, hfix, if_neg Bool.false_ne_true]
  dsimp only
  rw [Nat.add_zero, mfind_mset_self]
  rfl

/-- The bytes that are read of scratchpad, by place. -/
theorem scrRead_getElem? (tm : Team) (ad n k : Nat) : (scrRead tm ad n)[k]? = if k < n then some (scrByte tm (ad + k)) else none := by
  rw [scrRead, List.getElem?_map]
  induction n generalizing ad k with
  | zero => rfl
  | succ n ih =>
    cases k with
    | zero => rfl
    | succ k =>
      rw [rangeFrom, List.getElem?_cons_succ, ih, Nat.add_right_comm, ← Nat.add_assoc]
      exact if_congr (by omega) rfl rfl

/-- A breakpoint of a compand image, as it stands in scratchpad (R49). -/
theorem recNat_scrRead {tm : Team} {ad n k : Nat} (hk : k + 4 ≤ n) :
    recNat (scrRead tm ad n) k 4 = leNat ((List.range 4).map fun j => scrByte tm (ad + (k + j))) := by
  unfold recNat
  congr 1
  refine List.ext_getElem? fun j => ?_
  rw [List.getElem?_take, List.getElem?_drop, scrRead_getElem?, List.getElem?_map]
  by_cases hj : j < 4
  · rw [if_pos hj, if_pos (by omega), List.getElem?_range hj]; rfl
  · rw [if_neg hj, List.getElem?_eq_none (by rw [List.length_range]; omega)]; rfl

/-- A faultless compand image: finite breakpoints that rise, zeros, and slope exponents of at most 8 (R49, R301). -/
theorem imageFault_none {bs : List Byte}
    (hbp : ∀ k < 15, (match fval 0 (recNat bs (4 * k) 4) with | .fin _ _ _ _ => true | _ => false) = true
      ∧ (k ≠ 0 → fcompare 2 (fval 0 (recNat bs (4 * (k - 1)) 4)) (fval 0 (recNat bs (4 * k) 4)) = true))
    (hzero : ∀ k, 60 ≤ k → k < 64 → bs.getD k 0 = 0)
    (hslope : ∀ k, 64 ≤ k → k < 80 → -8 ≤ (bs.getD k 0).toInt ∧ (bs.getD k 0).toInt ≤ 8) : imageFault bs = none := by
  unfold imageFault
  dsimp only
  rw [List.find?_eq_none.2 fun k hk => ?_]
  · dsimp only
    refine List.find?_eq_none.2 fun k hk => ?_
    obtain ⟨h1, h2⟩ := (mem_rangeFrom _ _ _).1 hk
    by_cases hlt : k < 64
    · rw [if_pos hlt, hzero k h1 hlt]; decide
    · obtain ⟨hlo, hhi⟩ := hslope k (by omega) (by omega)
      rw [if_neg hlt, slopeOf, decide_eq_true_eq]
      omega
  · obtain ⟨hfin, hup⟩ := hbp k (List.mem_range.1 hk)
    split
    · by_cases h0 : k = 0
      · simp [h0]
      · simp [hup h0]
    · next hne =>
      split at hfin
      · next hf => exact absurd hf (hne _ _ _ _)
      · exact absurd hfin Bool.false_ne_true

/-- A source of one word is less than 2^32. -/
theorem srcA_lt {s : State} {a : At} {f : Form} {e : Enc} {lane : Nat} (h : f.a e a.sp.fmt = .us 1) : srcA s a f e lane < 2 ^ 32 := by
  unfold srcA
  split
  · exact BitVec.isLt _
  · rw [h, Role.marked, roleValue, readU, rangeFrom, rangeFrom, List.map_cons, List.map_nil, wordsNat, wordsNat]
    · exact BitVec.isLt _
    · exact fun _ hn => Role.noConfusion hn

/-- A source B of one word, or an immediate of one, is less than 2^32. -/
theorem srcB_lt {s : State} {a : At} {f : Form} {e : Enc} {lane : Nat} (h : f.b e a.sp.fmt = .us 1) (hi : f.bi e = .w32) :
    srcB s a f e lane < 2 ^ 32 := by
  unfold srcB
  split
  · exact BitVec.isLt _
  · split
    · rw [hi]; exact BitVec.isLt _
    · rw [h, Role.marked, roleValue, readU, rangeFrom, rangeFrom, List.map_cons, List.map_nil, wordsNat, wordsNat]
      · exact BitVec.isLt _
      · exact fun _ hn => Role.noConfusion hn

theorem setcmp_sets (e : Enc) (s : State) (a : At) (h : Clear formSetcmp e s a) (hg : goes formSetcmp e s a) :
    let ad := (uniSrc formSetcmp e s a).a
    let byte := fun k => scrByte a.tm (ad + k)
    let bp := fun k => leNat ((List.range 4).map fun j => byte (4 * k + j))
    let finite := fun k => match fval 0 (bp k) with | .fin _ _ _ _ => true | _ => false
    ad % 4 = 0 → ad + 80 ≤ a.tm.scrsize →
    (∀ k < 15, finite k = true ∧ (k ≠ 0 → fcompare 2 (fval 0 (bp (k - 1))) (fval 0 (bp k)) = true)) →
    (∀ k, 60 ≤ k → k < 64 → byte k = 0) → (∀ k, 64 ≤ k → k < 80 → -8 ≤ (byte k).toInt ∧ (byte k).toInt ≤ 8) →
    ∃ t o, exec (.setcmp e) s = .next t ∧ WentOn t a e ∧ Sent s t a e o ∧ o.stage = .done ∧ o.writes = [] ∧ t.mem = s.mem
      ∧ mfind (getCore t a.tm.core).tables (e.M 9 8) = some ⟨(List.range 15).map fun k => BitVec.ofNat 32 (bp k),
          (List.range 16).map fun k => (byte (64 + k)).toInt⟩ := by
  intro ad byte bp finite h4 hsize hbp hzero hslope
  have htm : (issOf formSetcmp e s a).a.tm = a.tm := (iss_facts h).2.2.2.2.1
  have hlt : ad < 2 ^ 32 := srcA_lt rfl
  have hguard : uniGuard (book s a e) (issOf formSetcmp e s a).a (issOf formSetcmp e s a).e = true := hg
  have hrec : ∀ k < 15, recNat (scrRead a.tm ad 80) (4 * k) 4 = bp k := fun k hk => recNat_scrRead (by omega)
  have hget : ∀ k < 80, (scrRead a.tm ad 80).getD k 0 = byte k := fun k hk => by
    rw [List.getD_eq_getElem?_getD, scrRead_getElem?, if_pos hk]; rfl
  have hfault : imageFault (scrRead a.tm ad 80) = none := by
    refine imageFault_none (fun k hk => ?_) (fun k h1 h2 => ?_) fun k h1 h2 => ?_
    · rw [hrec k hk, hrec (k - 1) (by omega)]; exact hbp k hk
    · rw [hget k (by omega)]; exact hzero k h1 h2
    · rw [hget k h2]; exact hslope k h1 h2
  have hx : exec (.setcmp e) s = .next (retireV (modCore (book s a e) a.tm.core fun c =>
      { c with tables := mset c.tables (e.M 9 8) (imageTable (scrRead a.tm ad 80)) }) (issOf formSetcmp e s a) []) := by
    refine (issue_clear h setcmpEffect).trans ?_
    unfold setcmpEffect
    rw [hguard, uniA_eq h, htm]
    simp only [show (uniSrc formSetcmp e s a).a = ad from rfl, Nat.mod_eq_of_lt hlt, h4, ne_eq, not_true_eq_false, if_false,
      Nat.not_lt.2 hsize, hfault, Bool.not_true, Bool.false_eq_true]
    rfl
  obtain ⟨hw, o, hs, hst, hwr⟩ := sent_in h (u := modCore (book s a e) a.tm.core fun c =>
      { c with tables := mset c.tables (e.M 9 8) (imageTable (scrRead a.tm ad 80)) }) rfl [] .done false false
  refine ⟨_, o, hx, hw, hs, hst, hwr, book_mem s a e, ?_⟩
  rw [getCore_retireV, getCore_modCore_self]
  refine (mfind_mset_self ..).trans (congrArg some ?_)
  refine congrArg₂ Compand.mk (List.map_congr_left fun k hk => ?_) (List.map_congr_left fun k hk => ?_)
  · rw [hrec k (List.mem_range.1 hk)]
  · rw [slopeOf, hget (64 + k) (by have := List.mem_range.1 hk; omega)]

/-! ### TRAP, BKPT and TRET -/

/-- A trap of a program goes to the handler of its grid, where no handler runs yet (R368). -/
theorem takeTrap_enters {s : State} {gid k : Nat} {a : At} (ha : atOf s gid k = some a) {c : TrapRec}
    (hgr : c.group = 11 ∨ c.group = 12) (hver : a.task.card.ver = false) (hhnd : a.task.header.hnd = true)
    (harm : (getPart s a.tm.part).arm = false) (hh : a.sp.handler = false) (hn : a.g.handler = none) (resume : Word) :
    takeTrap s gid k c resume = enterHandler s gid k c resume := by
  have hlist : [4, 5, 11, 12].contains c.group = true := by rcases hgr with h | h <;> rw [h] <;> rfl
  unfold takeTrap
  simp only [ha, harm, hlist, hver, hhnd, hh, hn, Bool.false_eq_true, and_false, if_false, Bool.not_false, Bool.and_self,
    if_true, Option.isSome_none]

/-- A program's trap that goes to its grid's handler (R304, R368). -/
theorem softTrap_enters {f : Form} {e : Enc} {s : State} {a : At} (h : Clear f e s a) (hg : goes f e s a)
    (hhold : e.ctl.hold = false) (hver : a.task.card.ver = false) (hhnd : a.task.header.hnd = true)
    (harm : (getPart s a.tm.part).arm = false) (hh : a.sp.handler = false) (hn : a.g.handler = none) {group : Nat}
    (hgr : group = 11 ∨ group = 12) (code : Nat) :
    let t := softTrap group code (issOf f e s a) (book s a e)
    let mine := (getGroup t a.gid).splits[a.k]?
    t.mem = s.mem ∧ mine.map (·.pc) = some (BitVec.ofNat 32 a.task.header.hoff) ∧ mine.map (·.handler) = some true
    ∧ mget (getGroup t a.gid).hc 0 0 = nextPc a e ∧ mget (getGroup t a.gid).hc 1 0 = a.sp.active
    ∧ mget (getGroup t a.gid).hc 2 0 = a.sp.fmt ∧ mget (getGroup t a.gid).hc 3 0 = BitVec.ofNat 32 (code + 32 * group) := by
  intro t mine
  obtain ⟨hgid, hk, -⟩ := iss_facts h
  have hr := retired_book h
  obtain ⟨ops, nextOp, hat⟩ := hr.atOf h.issuer (bookGroup_split h)
  have hpart : getPart (retireN (book s a e) (issOf f e s a)) a.tm.part = getPart s a.tm.part := by
    rw [getPart, hr.parts, getPart]
  have hpc : (issOf f e s a).a.sp.pc = nextPc a e := by
    rw [show (issOf f e s a).a = _ from (issuedAt_eq e h.issuer).2]; rfl
  have ht : t = enterHandler (retireN (book s a e) (issOf f e s a)) a.gid a.k ⟨group, code, 0, 0, (issOf f e s a).loc⟩
      (nextPc a e) := by
    rw [← takeTrap_enters hat hgr hver hhnd (by rw [hpart]; exact harm) hh hn]
    simp only [t, softTrap, show uniGuard (book s a e) (issOf f e s a).a (issOf f e s a).e = true from hg,
      show (issOf f e s a).e.ctl.hold = false from hhold, Bool.not_true, Bool.false_eq_true, if_false, hgid, hk, hpc]
  obtain ⟨hrest, -, -, -, hhc, hsp⟩ := enterHandler_group hat ⟨group, code, 0, 0, (issOf f e s a).loc⟩ (nextPc a e)
  dsimp only at hrest hhc hsp
  rw [← ht] at hrest hhc hsp
  have hmem : t.mem = (retireN (book s a e) (issOf f e s a)).mem := by
    have := congrArg State.mem hrest
    exact this
  have hno : ¬ (group = 5 ∧ code = 1) := by omega
  rw [if_neg hno] at hhc
  refine ⟨hmem.trans hr.mem, by simp only [mine, hsp]; rfl, by simp only [mine, hsp]; rfl, ?_, ?_, ?_, ?_⟩
  · rw [hhc]; rfl
  · rw [hhc]; rfl
  · rw [hhc]; rfl
  · rw [hhc]; rfl

/-- The handler of a group whose one split it is leaves it as it says, with every lane of the trapped split (R305). -/
theorem joinHandler_single {h : Handler} {g : Group} {x : Split} (hg : g.splits = [x]) (hx : x.handler = true) :
    (joinHandler h g).splits = [{ x with
      active := h.mask &&& ~~~g.exited, pc := mget g.hc 0 0, fmt := mget g.hc 2 0, pend := h.pend, park := .none
      age := h.split, now := max 0 x.now, traps := x.traps }] := by
  simp [joinHandler, hg, hx]

/-- The end of handler mode, split by split (R368). -/
theorem leaveHandler_group {s : State} {gid : Nat} {g : Group} (hg : mfind s.groups gid = some g) :
    (getGroup (leaveHandler s gid) gid).handler = none
    ∧ (getGroup (leaveHandler s gid) gid).splits.map (fun x => (x.pc, x.fmt, x.handler))
        = g.splits.map fun x => (x.pc, x.fmt, false) := by
  have hgt : getGroup (leaveHandler s gid) gid = _ := getGroup_modGroup_of _ hg
  rw [hgt]
  refine ⟨rfl, ?_⟩
  dsimp only
  rw [List.map_map]
  refine List.map_congr_left fun x _ => ?_
  simp only [Function.comp, settleParked]
  split <;> rfl

/-- A handler with one split, no lane of which its return ends, leaves handler mode at once (R305). -/
theorem tret_single {u : State} {gid : Nat} {h : Handler} {g : Group} {x : Split} (hg : mfind u.groups gid = some (joinHandler h g))
    (hsp : g.splits = [x]) (hx : x.handler = true) (hh : g.handler = some h)
    (hm : h.mask &&& ~~~g.exited &&& ~~~(mget g.hc 1 0) = 0) :
    (let g := getGroup u gid
     let k := g.splits.length - 1
     let gone := (g.splits.getD k Split.empty).active &&& ~~~(mget g.hc 1 0)
     let s3 := if gone = 0 then u else exitLanes u gid k gone
     if (getGroup s3 gid).handler.isSome then leaveHandler s3 gid else s3) = leaveHandler u gid := by
  have hgu : getGroup u gid = joinHandler h g := by rw [getGroup, mget, hg]; rfl
  have hgone : ((getGroup u gid).splits.getD ((getGroup u gid).splits.length - 1) Split.empty).active
      &&& ~~~(mget (getGroup u gid).hc 1 0) = 0 := by
    rw [hgu, joinHandler_single hsp hx]
    exact hm
  have hsome : (getGroup u gid).handler.isSome = true := by rw [hgu]; exact hh ▸ rfl
  simp only [hgone, if_true, hsome]

theorem tret_leaves (e : Enc) (s : State) (a : At) (h : Handler) (hc : Clear formTret e s a) (hg : goes formTret e s a)
    (hh : a.g.handler = some h) (hsp : a.g.splits = [a.sp]) (hx : a.sp.handler = true)
    (hl : fmtLegal (mget a.g.hc 2 0) = true) (hm : h.mask &&& ~~~a.g.exited &&& ~~~(mget a.g.hc 1 0) = 0) :
    ∃ t, exec (.tret e) s = .next t ∧ t.mem = s.mem ∧ (getGroup t a.gid).handler = none
      ∧ (getGroup t a.gid).splits[a.k]?.map (·.pc) = some (mget a.g.hc 0 0)
      ∧ (getGroup t a.gid).splits[a.k]?.map (·.fmt) = some (mget a.g.hc 2 0)
      ∧ (getGroup t a.gid).splits[a.k]?.map (·.handler) = some false := by
  obtain ⟨hgid, -, -, -, -, -, -, hig⟩ := iss_facts hc
  have hk : a.k = 0 := by
    have := (atOf_some (curAt_some hc.issuer).1).2.1
    rw [hsp, List.getElem?_singleton] at this
    by_contra hne
    simp [hne] at this
  have hguard : uniGuard (book s a e) (issOf formTret e s a).a (issOf formTret e s a).e = true := hg
  have hchk : tretCheck (book s a e) (issOf formTret e s a) = none := by
    rw [tretCheck, if_pos hguard, hig, fmtTrap, if_pos (show fmtLegal (mget (bookGroup s a e a.g).hc 2 0) = true from hl)]
  have hr := retired_book hc
  obtain ⟨ops, nextOp, hgrp⟩ := hr.group
  have hbsp : (bookGroup s a e a.g).splits = [bookSplit s a e a.sp] := by
    simp [bookGroup, hsp, hk]
  generalize hs1 : retireN (book s a e) (issOf formTret e s a) = s1 at hgrp hr
  generalize hg1 : ({ bookGroup s a e a.g with ops, nextOp } : Group) = g1 at hgrp
  have hsp1 : g1.splits = [bookSplit s a e a.sp] := by rw [← hg1]; exact hbsp
  have hh1 : g1.handler = some h := by rw [← hg1]; exact hh
  have hc1 : g1.hc = a.g.hc := by rw [← hg1]; rfl
  have hg2 : mfind (modGroup s1 a.gid (joinHandler h)).groups a.gid = some (joinHandler h g1) := by
    rw [mfind_modGroup, if_pos rfl, hgrp]; rfl
  have hexec : exec (.tret e) s = .next (leaveHandler (modGroup s1 a.gid (joinHandler h)) a.gid) := by
    refine (issueChecked_clear hc tretEffect hchk).trans ?_
    unfold tretEffect
    simp only [hig, show (bookGroup s a e a.g).handler = some h from hh, hguard, Bool.not_true, Bool.false_eq_true, if_false,
      hgid, hs1]
    exact congrArg _ (tret_single hg2 hsp1 hx hh1 (by rw [hc1, ← hg1]; exact hm))
  obtain ⟨hnone, hmap⟩ := leaveHandler_group hg2
  rw [joinHandler_single hsp1 hx, List.map_singleton, hc1] at hmap
  have h0 := congrArg (·[0]?) hmap
  dsimp only at h0
  rw [List.getElem?_map, List.getElem?_cons_zero, Option.map_eq_some_iff] at h0
  obtain ⟨y, hy, hyv⟩ := h0
  obtain ⟨hpc, hfmt, hhnd⟩ : y.pc = mget a.g.hc 0 0 ∧ y.fmt = mget a.g.hc 2 0 ∧ y.handler = false := by
    simpa using hyv
  refine ⟨_, hexec, hr.mem, hnone, ?_⟩
  rw [hk, hy]
  exact ⟨congrArg some hpc, congrArg some hfmt, congrArg some hhnd⟩

/-! ### TKILL -/

/-- The tasks of a partition, as far as they are found by number. -/
theorem findTask_modTask_other {s : State} {p tid x : Nat} (F : Task → Task) (hx : x ≠ tid) (hF : ∀ t, (F t).tid = t.tid) :
    findTask (modTask s p x F) p tid = findTask s p tid := by
  unfold findTask modTask
  rw [getPart_modPart_self]
  dsimp only
  generalize (getPart s p).window = ts
  induction ts with
  | nil => rfl
  | cons t r ih =>
    rw [List.map_cons, List.find?_cons, List.find?_cons, ih]
    by_cases ht : t.tid = x
    · have h1 : (t.tid == tid) = false := beq_false_of_ne (ht ▸ hx)
      rw [if_pos ht, hF, h1]
    · rw [if_neg ht]

/-- A task that is found, after its change. -/
theorem findTask_modTask_self {s : State} {p tid : Nat} {k : Task} {F : Task → Task} (h : findTask s p tid = some k)
    (hF : ∀ t, (F t).tid = t.tid) : findTask (modTask s p tid F) p tid = some (F k) := by
  unfold findTask modTask at *
  rw [getPart_modPart_self]
  dsimp only
  generalize (getPart s p).window = ts at h ⊢
  induction ts with
  | nil => exact absurd h (by simp)
  | cons t r ih =>
    rw [List.map_cons, List.find?_cons]
    by_cases ht : t.tid = tid
    · rw [List.find?_cons, show (t.tid == tid) = true from beq_iff_eq.2 ht] at h
      rw [if_pos ht, hF, show (t.tid == tid) = true from beq_iff_eq.2 ht, ← Option.some.inj h]
    · rw [List.find?_cons, show (t.tid == tid) = false from beq_false_of_ne ht] at h
      rw [if_neg ht, show (t.tid == tid) = false from beq_false_of_ne ht]
      exact ih h

/-- Groups that are asked to stop leave the partitions. -/
theorem stopGroups_parts (s : State) (gs : List Nat) : (gs.foldl stopGroup s).parts = s.parts := by
  induction gs generalizing s with
  | nil => rfl
  | cons g r ih => rw [List.foldl_cons, ih]; rfl

/-- The stop of one task leaves the others. -/
theorem findTask_stopOne_other {s : State} {p tid x : Nat} (f : Fate) (hx : x ≠ tid) :
    findTask (stopOne s p x f) p tid = findTask s p tid := by
  unfold stopOne
  split
  · exact findTask_modTask_other _ hx fun _ => rfl
  · rw [findTask, getPart, stopGroups_parts]
    exact findTask_modTask_other _ hx fun _ => rfl

/-- Edges that stop counting leave the window. -/
theorem findTask_uncounted (s : State) (p tid : Nat) (hit : Edge → Bool) :
    findTask (modPart s p fun _ => (uncount (getPart s p) hit).2) p tid = findTask s p tid := by
  rw [findTask, getPart_modPart_self]; rfl

/-- Stopping tasks leaves one that has a fate (R163). -/
theorem findTask_stopAll {n : Nat} {s : State} {p tid : Nat} {k : Task} (work : List (Nat × Fate))
    (h : findTask s p tid = some k) (hf : k.fate.isSome = true) : findTask (stopAll n s p work) p tid = some k := by
  induction n generalizing s work with
  | zero => unfold stopAll; exact h
  | succ n ih =>
    match work with
    | [] => unfold stopAll; exact h
    | (x, f) :: rest =>
      unfold stopAll
      split
      · exact ih _ h
      · next t ht =>
        split
        · exact ih _ h
        · next hgo =>
          have hx : x ≠ tid := fun he => hgo (.inl (by rw [he, h] at ht; rw [← Option.some.inj ht]; exact hf))
          refine ih _ ?_
          rw [findTask_uncounted, findTask_stopOne_other f hx, h]

/-- A running task that is stopped has the fate that it is stopped with (R163). -/
theorem findTask_stopTask {s : State} {p tid : Nat} {k : Task} (f : Fate) (h : findTask s p tid = some k)
    (hst : k.st = .released) (hf : k.fate = none) :
    findTask (stopTask s p tid f) p tid = some { k with st := .stopping, fate := some f, ver := [], lines := [] } := by
  have hgo : ¬ (k.fate.isSome = true ∨ k.st = .decided) := by simp [hf, hst]
  have hget : (getTask s p tid).st ≠ .waiting := by rw [getTask, h, Option.getD_some, hst]; decide
  unfold stopTask stopAll
  simp only [h, if_neg hgo]
  refine findTask_stopAll _ ?_ rfl
  rw [findTask_uncounted, stopOne, if_neg hget, findTask, getPart, stopGroups_parts]
  exact findTask_modTask_self h fun _ => rfl

theorem tkill_stops (e : Enc) (s : State) (a : At) (k : Task) (h : Clear formTkill e s a) (hg : goes formTkill e s a)
    (hz : (uniSrc formTkill e s a).a = 0) (hk : findTask s a.tm.part a.tm.tid = some k) (hst : k.st = .released)
    (hf : k.fate = none) :
    ∃ t k', exec (.tkill e) s = .next t ∧ t.mem = s.mem ∧ findTask t a.tm.part a.tm.tid = some k' ∧ k'.st = .stopping
      ∧ k'.fate.map (·.status) = some 3 := by
  have hr := retired_book h
  have hx : exec (.tkill e) s = .next (stopTask (retireN (book s a e) (issOf formTkill e s a)) a.tm.part a.tm.tid
      ⟨3, ⟨0, 0, BitVec.ofNat 32 a.tm.tid, 0, 0⟩⟩) := by
    refine (issue_clear h tkillEffect).trans ?_
    unfold tkillEffect
    simp only [uniA_eq h, hz, if_true, show uniGuard (book s a e) (issOf formTkill e s a).a (issOf formTkill e s a).e = true from hg,
      beq_self_eq_true, Bool.true_or, Bool.and_self, (iss_facts h).2.2.2.2.1]
  have hk' : findTask (retireN (book s a e) (issOf formTkill e s a)) a.tm.part a.tm.tid = some k := by
    rw [findTask, getPart, hr.parts]; exact hk
  refine ⟨_, _, hx, ?_, findTask_stopTask _ hk' hst hf, rfl, rfl⟩
  exact (congrArg Vitals.mem (stopTask_vitals _ _ _ _)).trans hr.mem

/-! ### OTSET -/

/-- A byte written at its home, where nothing stands between it and device memory. -/
theorem homeWriteByte_calm {s : State} (h : Calm s) (x : Nat) (b : Byte) :
    homeWriteByte s x 0 b = { s with mem := writeByte s.mem x b } := by
  obtain ⟨-, hpools, hmig, hreqs, hown⟩ := h
  have hhome : homeOf s x 0 = (x, 0) := by rw [homeOf, hmig]
  have hgrain : ownGrain s x = none := by simp [ownGrain, hown]
  have hnote : notePool s x = s := by rw [notePool, hpools]; rfl
  unfold homeWriteByte
  simp only [hhome, hgrain, if_true, settleByte, hreqs, queuedByte, Option.isSome_none, Bool.false_eq_true, if_false,
    physWriteByte, hnote]

/-- Bytes written at their homes, where nothing stands between them and device memory. -/
theorem homeWrite_calm {s : State} (h : Calm s) (ws : List (Nat × Byte)) :
    homeWrite s ws 0 = { s with mem := ws.foldl (fun m w => writeByte m w.1 w.2) s.mem } := by
  unfold homeWrite
  induction ws generalizing s with
  | nil => rfl
  | cons w r ih =>
    rw [List.foldl_cons, homeWriteByte_calm h]
    exact ih (s := { s with mem := writeByte s.mem w.1 w.2 }) h

/-- A byte of memory after a run of bytes has been written. -/
theorem readByte_writes (bs : List Byte) (m : Memory) (x y : Nat) :
    readByte (((rangeFrom x bs.length).zip bs).foldl (fun m w => writeByte m w.1 w.2) m) y
      = if x ≤ y ∧ y < x + bs.length then bs.getD (y - x) 0 else readByte m y := by
  induction bs generalizing x m with
  | nil => exact (if_neg (by simp only [List.length_nil]; omega)).symm
  | cons b r ih =>
    rw [List.length_cons, rangeFrom, List.zip_cons_cons, List.foldl_cons, ih]
    by_cases hy : y = x
    · subst hy
      rw [if_neg (by omega), if_pos (by omega), readByte_writeByte_self, Nat.sub_self, List.getD_cons_zero]
    · rw [readByte_writeByte_other _ _ _ _ hy]
      by_cases hin : x + 1 ≤ y ∧ y < x + 1 + r.length
      · rw [if_pos hin, if_pos (by omega), show y - x = y - (x + 1) + 1 by omega, List.getD_cons_succ]
      · rw [if_neg hin, if_neg (by omega)]

theorem otset_writes (e : Enc) (s : State) (a : At) (h : Clear formOtset e s a) (hg : goes formOtset e s a) (hcalm : Calm s) :
    let ad := (uniSrc formOtset e s a).b
    let at_ := (getPart s a.tm.part).otbase + 32 * ((uniSrc formOtset e s a).a % 2 ^ 16)
    ad % 16 = 0 → ad + 32 ≤ a.tm.scrsize → holdsPhys s a.tm.part at_ = true →
    ∃ t, exec (.otset e) s = .next t ∧ WentOn t a e
      ∧ ∀ y, readByte t.mem y = if at_ ≤ y ∧ y < at_ + 32 then scrByte a.tm (ad + (y - at_)) else readByte s.mem y := by
  intro ad at_ h16 hsize hholds
  have htm : (issOf formOtset e s a).a.tm = a.tm := (iss_facts h).2.2.2.2.1
  have hguard : uniGuard (book s a e) (issOf formOtset e s a).a (issOf formOtset e s a).e = true := hg
  have hlt : ad < 2 ^ 32 := srcB_lt rfl rfl
  have hpart : getPart (book s a e) a.tm.part = getPart s a.tm.part :=
    book_field s a e (fun u => getPart u a.tm.part) fun _ _ _ => rfl
  have hchk : otsetCheck (book s a e) (issOf formOtset e s a) = none := by
    have hholds' : holdsPhys (book s a e) a.tm.part at_ = true :=
      (book_field s a e (fun u => holdsPhys u a.tm.part at_) fun _ _ _ => rfl).trans hholds
    unfold otsetCheck
    simp only [uniB_eq h, uniA_eq h, show (uniSrc formOtset e s a).b = ad from rfl, Nat.mod_eq_of_lt hlt, htm, hguard, hpart,
      h16, Nat.not_lt.2 hsize, Bool.not_true, Bool.false_eq_true, if_false, ne_eq, not_true_eq_false]
    exact if_pos hholds'
  have hr := retired_book h
  have hrpart : getPart (retireN (book s a e) (issOf formOtset e s a)) a.tm.part = getPart s a.tm.part := by
    rw [getPart, hr.parts, getPart]
  have hx : exec (.otset e) s = .next (dropOt (homeWrite (retireN (book s a e) (issOf formOtset e s a))
      ((rangeFrom at_ 32).zip (scrRead a.tm ad 32)) 0) a.tm.part ((uniSrc formOtset e s a).a % 2 ^ 16)) := by
    refine (issueChecked_clear h otsetEffect hchk).trans ?_
    unfold otsetEffect
    simp only [uniB_eq h, uniA_eq h, show (uniSrc formOtset e s a).b = ad from rfl, Nat.mod_eq_of_lt hlt, htm, hguard,
      Bool.not_true, Bool.false_eq_true, if_false, at_, ← hpart]
  have hcalm' : Calm (retireN (book s a e) (issOf formOtset e s a)) :=
    hr.field (fun u => Calm u) (fun _ _ _ => rfl) ▸ hcalm
  rw [homeWrite_calm hcalm'] at hx
  refine ⟨_, hx, (wentOn_of_retired hr (bookGroup_pc h) :), fun y => ?_⟩
  have hlen : (scrRead a.tm ad 32).length = 32 := by rw [scrRead, List.length_map, rangeFrom_length]
  have hread := readByte_writes (scrRead a.tm ad 32) (retireN (book s a e) (issOf formOtset e s a)).mem at_ y
  rw [hlen, hr.mem] at hread
  rw [← hr.mem] at hread ⊢
  refine (show _ from hread).trans (ite_congr rfl (fun hy => ?_) fun _ => rfl)
  rw [List.getD_eq_getElem?_getD, scrRead_getElem?, if_pos (by omega), Option.getD_some]

/-! ### False guards -/

/-- The instruction went on without effect. -/
structure NoEffect (s t : State) (a : At) (e : Enc) : Prop where
  wentOn : WentOn t a e
  mem    : t.mem = s.mem
  teams  : t.teams = s.teams
  parts  : t.parts = s.parts
  regs   : ∀ x k, regOf t x k = regOf s x k

/-- A class N instruction that only retires has no effect. -/
theorem noEffect_retireN {f : Form} {e : Enc} {s : State} {a : At} (h : Clear f e s a) :
    NoEffect s (retireN (book s a e) (issOf f e s a)) a e := by
  have hr := retired_book h
  exact ⟨wentOn_of_retired hr (bookGroup_pc h), hr.mem, hr.teams, hr.parts, regOf_of_retired hr h.issuer rfl⟩

/-- A class V instruction that delivers nothing has no effect. -/
theorem noEffect_retireV {f : Form} {e : Enc} {s : State} {a : At} (h : Clear f e s a) :
    NoEffect s (retireV (book s a e) (issOf f e s a) []) a e := by
  obtain ⟨hw, o, hs, -⟩ := sent_in h rfl [] .done false false
  refine ⟨hw, book_mem s a e, book_field s a e State.teams fun _ _ _ => rfl, book_field s a e State.parts fun _ _ _ => rfl,
    fun x k => ?_⟩
  by_cases hx : x = a.gid
  · rw [hx]; exact hs.regs k
  · have hm : mfind (retireV (book s a e) (issOf f e s a) []).groups x = mfind s.groups x := by
      rw [retireV, outstanding, mfind_modGroup, (iss_facts h).1, if_neg hx, book_others s a e x hx]
    exact congrArg (fun g : Option Group => mget (g.getD Group.empty).regs k 0) hm

/-- Under a false guard a system instruction has no effect, but for SETFMT's check of its fmt (R54). -/
theorem system_guarded (f : Form) (i : Instr) (e : Enc) (s : State) (a : At)
    (hi : (f, i) ∈ [(formSetfmt, Instr.setfmt e), (formWrsr, .wrsr e), (formSetcmp, .setcmp e), (formRquota, .rquota e),
      (formTrap, .trap e), (formBkpt, .bkpt e), (formTret, .tret e), (formTkill, .tkill e), (formOtset, .otset e),
      (formPinv, .pinv e)])
    (h : Clear f e s a) (hg : ¬ goes f e s a)
    (hl : i = .setfmt e → fmtLegal (BitVec.ofNat 32 (uniSrc formSetfmt e s a).b) = true) :
    ∃ t, exec i s = .next t ∧ NoEffect s t a e := by
  have hguard : uniGuard (book s a e) (issOf f e s a).a (issOf f e s a).e = false := Bool.not_eq_true _ ▸ hg
  have hN := noEffect_retireN h
  have hV := noEffect_retireV h
  simp only [List.mem_cons, Prod.mk.injEq, List.not_mem_nil, or_false] at hi
  rcases hi with ⟨rfl, rfl⟩ | ⟨rfl, rfl⟩ | ⟨rfl, rfl⟩ | ⟨rfl, rfl⟩ | ⟨rfl, rfl⟩ | ⟨rfl, rfl⟩ | ⟨rfl, rfl⟩ | ⟨rfl, rfl⟩ | ⟨rfl, rfl⟩
    | ⟨rfl, rfl⟩
  case inl =>
    have hx := issueChecked_clear h setfmtEffect (setfmtCheck_none h (hl rfl))
    unfold setfmtEffect at hx
    rw [hguard] at hx
    exact ⟨_, hx, hN⟩
  case inr.inl =>
    have hx := issue_clear h wrsrEffect
    unfold wrsrEffect at hx
    rw [hguard] at hx
    exact ⟨_, hx, hN⟩
  case inr.inr.inl =>
    have hx := issue_clear h setcmpEffect
    unfold setcmpEffect at hx
    rw [hguard] at hx
    exact ⟨_, hx, hV⟩
  case inr.inr.inr.inl =>
    have hx := issue_clear h rquotaEffect
    unfold rquotaEffect at hx
    rw [hguard] at hx
    exact ⟨_, hx, hV⟩
  case inr.inr.inr.inr.inl =>
    have hx := issue_clear h (softTrap 11 (e.M 12 8))
    unfold softTrap at hx
    rw [hguard] at hx
    exact ⟨_, hx, hN⟩
  case inr.inr.inr.inr.inr.inl =>
    have hx := issue_clear h (softTrap 12 1)
    unfold softTrap at hx
    rw [hguard] at hx
    exact ⟨_, hx, hN⟩
  case inr.inr.inr.inr.inr.inr.inl =>
    have hc : tretCheck (book s a e) (issOf formTret e s a) = none := by rw [tretCheck, hguard]; rfl
    have hx := issueChecked_clear h tretEffect hc
    have heff : tretEffect (issOf formTret e s a) (book s a e) = retireN (book s a e) (issOf formTret e s a) := by
      unfold tretEffect
      rw [hguard]
      cases (issOf formTret e s a).a.g.handler <;> rfl
    exact ⟨_, hx, heff ▸ hN⟩
  case inr.inr.inr.inr.inr.inr.inr.inl =>
    have hx := issue_clear h tkillEffect
    unfold tkillEffect at hx
    rw [hguard] at hx
    exact ⟨_, hx, hN⟩
  case inr.inr.inr.inr.inr.inr.inr.inr.inl =>
    have hc : otsetCheck (book s a e) (issOf formOtset e s a) = none := by rw [otsetCheck, hguard]; rfl
    have hx := issueChecked_clear h otsetEffect hc
    unfold otsetEffect at hx
    rw [hguard] at hx
    exact ⟨_, hx, hN⟩
  case inr.inr.inr.inr.inr.inr.inr.inr.inr =>
    have hc : pinvCheck (book s a e) (issOf formPinv e s a) = none := by rw [pinvCheck, hguard]; rfl
    have hx := issueChecked_clear h pinvEffect hc
    unfold pinvEffect at hx
    rw [hguard] at hx
    exact ⟨_, hx, hN⟩

/-- Settles O48: each system instruction where it completes, and all of them under a false guard. -/
theorem systemForms : Obligations.SystemForms := by
  unfold Obligations.SystemForms
  refine ⟨setfmt_sets, wrsr_writes, setcmp_sets, rquota_none, fun e s a => ⟨?_, ?_⟩, ?_, tkill_stops, otset_writes, pinv_drops, ?_⟩
  · intro h hg hhold hver hhnd harm hh hn
    exact ⟨_, issue_clear h _, softTrap_enters h hg hhold hver hhnd harm hh hn (.inl rfl) (e.M 12 8)⟩
  · intro h hg hhold hver hhnd harm hh hn
    exact ⟨_, issue_clear h _, softTrap_enters h hg hhold hver hhnd harm hh hn (.inr rfl) 1⟩
  · intro e s a h hc hg hh hsp hx _ _ _ _ _ _ hl hm
    exact tret_leaves e s a h hc hg hh hsp hx hl hm
  · intro f i e s a hi h hg hl
    obtain ⟨t, ht, hn⟩ := system_guarded f i e s a hi h hg hl
    exact ⟨t, ht, hn.wentOn, hn.mem, hn.teams, hn.parts, hn.regs⟩

end Sys2Proof.Machine
end

section
/-!
O42. Dispatch: the next batch of the head grid, the entry state of a team, co-resident sets, and the count at a grid barrier
(R9 to R12, R289, R340, R342, R343, R348).
-/

namespace Sys2Proof.Machine

/-! ### The next batch -/

/-- An entry of a map whose keys rise is what its key finds. -/
theorem mfind_of_mem {α : Type} {m : SMap α} (hm : mwf m = true) {x : Nat × α} (hx : x ∈ m) : mfind m x.1 = some x.2 := by
  induction m with
  | nil => exact absurd hx List.not_mem_nil
  | cons y r ih =>
    obtain ⟨hlt, hr⟩ := (mwf_cons y r).1 hm
    rcases List.mem_cons.1 hx with rfl | hx
    · exact if_pos rfl
    · rw [mfind, if_neg (Nat.ne_of_lt (hlt x hx)), ih hr hx]

/-- What a key finds is an entry of the map. -/
theorem mem_of_mfind {α : Type} {m : SMap α} {k : Nat} {v : α} (h : mfind m k = some v) : (k, v) ∈ m := by
  induction m with
  | nil => exact absurd h (by simp)
  | cons y r ih =>
    rw [mfind] at h
    split at h
    · next hk => rw [← hk, ← Option.some.inj h]; exact List.mem_cons_self
    · exact List.mem_cons_of_mem _ (ih h)

/-- The dies in `freeSlots` rise. -/
theorem freeSlots_wf (s : State) (p : Nat) (t : Task) : mwf (freeSlots s p t) = true := by
  unfold freeSlots
  generalize coresOf s p = cs
  suffices ∀ m : SMap Nat, mwf m = true → mwf (cs.foldl (fun m c =>
      let n := if coreReserved s c t.card.prio then 0 else fitCount 8 (roomOf s c) t.header
      mset m (dieOf c) (mget m (dieOf c) 0 + n)) m) = true from this [] rfl
  induction cs with
  | nil => exact fun _ h => h
  | cons c r ih => exact fun m h => ih _ (mwf_mset _ _ _ h)

/-- The die with more free slots, of the best so far and the next. -/
def freer (acc : Option (Nat × Nat)) (d : Nat × Nat) : Option (Nat × Nat) :=
  match acc with
  | some b => if b.2 < d.2 then some d else acc
  | none => if d.2 = 0 then none else some d

theorem mostFree_eq (fs : SMap Nat) : mostFree fs = fs.foldl freer none := rfl

/-- Where no die has a free slot, there is no best one. -/
theorem mostFree_none {fs : SMap Nat} (h : ∀ x ∈ fs, x.2 = 0) : mostFree fs = none := by
  rw [mostFree_eq]
  induction fs with
  | nil => rfl
  | cons x r ih =>
    rw [List.foldl_cons, freer, if_pos (h x List.mem_cons_self)]
    exact ih fun y hy => h y (List.mem_cons_of_mem _ hy)

/-- Dies with fewer slots than `n` leave a best one with fewer. -/
theorem foldl_freer_lt {n : Nat} (fs : SMap Nat) (h : ∀ x ∈ fs, x.2 < n) {acc : Option (Nat × Nat)}
    (ha : ∀ b ∈ acc, b.2 < n) : ∀ b ∈ fs.foldl freer acc, b.2 < n := by
  induction fs generalizing acc with
  | nil => exact ha
  | cons x r ih =>
    refine ih (fun y hy => h y (List.mem_cons_of_mem _ hy)) fun b hb => ?_
    have hx := h x List.mem_cons_self
    unfold freer at hb
    split at hb
    · split at hb
      · exact Option.some.inj hb ▸ hx
      · exact ha b hb
    · split at hb
      · exact absurd hb (by simp)
      · exact Option.some.inj hb ▸ hx

/-- A best die stays the best while no die has more slots. -/
theorem foldl_freer_ge (fs : SMap Nat) {b : Nat × Nat} (h : ∀ x ∈ fs, x.2 ≤ b.2) : fs.foldl freer (some b) = some b := by
  induction fs with
  | nil => rfl
  | cons x r ih =>
    rw [List.foldl_cons, freer, if_neg (Nat.not_lt.2 (h x List.mem_cons_self))]
    exact ih fun y hy => h y (List.mem_cons_of_mem _ hy)

/-- The best die has the most free slots, and is the lowest of those that have (R342). -/
theorem mostFree_of {fs : SMap Nat} (hwf : mwf fs = true) {d n : Nat} (hd : (d, n) ∈ fs) (hn : 0 < n)
    (hbest : ∀ x ∈ fs, x.2 < n ∨ (x.2 = n ∧ d ≤ x.1)) : mostFree fs = some (d, n) := by
  obtain ⟨l, r, rfl⟩ := List.append_of_mem hd
  have hlow : ∀ x ∈ l, x.1 < d := by
    clear hd hbest
    induction l with
    | nil => exact fun _ h => absurd h List.not_mem_nil
    | cons y l ih =>
      obtain ⟨hlt, hr⟩ := (mwf_cons y (l ++ (d, n) :: r)).1 hwf
      intro x hx
      rcases List.mem_cons.1 hx with rfl | hx
      · exact hlt (d, n) (by simp)
      · exact ih hr x hx
  have hl : ∀ b ∈ l.foldl freer none, b.2 < n := by
    refine foldl_freer_lt l (fun x hx => ?_) (by simp)
    have := hlow x hx
    rcases hbest x (by simp [hx]) with h | ⟨-, h⟩
    · exact h
    · omega
  have hmid : freer (l.foldl freer none) (d, n) = some (d, n) := by
    cases hacc : l.foldl freer none with
    | none => exact if_neg (by omega)
    | some b => exact if_pos (hl b hacc)
  rw [mostFree_eq, List.foldl_append, List.foldl_cons, hmid]
  refine foldl_freer_ge r fun x hx => ?_
  rcases hbest x (by simp [hx]) with h | ⟨h, -⟩ <;> omega

/-- The next batch of a grid without gangs or co-resident sets (R342). -/
theorem nextBatch_plain {h : Header} (hc : h.col = 0) (hg : h.gang = 0) (tid : Nat) (fs gangs : SMap Nat) (pos stop : Nat) :
    nextBatch h tid fs gangs pos stop = (mostFree fs).bind fun b =>
      if b.2 = 0 then none else some (b.1, min 64 (min (stop - pos) b.2)) := by
  unfold nextBatch
  simp only [hc, hg, if_true]
  cases mostFree fs with
  | none => rfl
  | some b =>
    by_cases hb : b.2 = 0
    · simp [hb]
    · simp [hb, Nat.one_le_iff_ne_zero]

/-- The dispatch of a batch of a grid without co-resident sets. -/
theorem execDispatchBatch_plain {s : State} {p : Nat} {k : Task} (hk : headGrid (getPart s p) = some k)
    (hl : liveBatches (getPart s p) = []) (hc : k.header.col = 0) (hg : k.header.gang = 0) :
    exec (.dispatchBatch p) s = .next (match mostFree (freeSlots s p k) with
      | some b => if b.2 = 0 then s else modPart s p fun q => { q with batch := [⟨k.tid, b.1,
          (rangeFrom k.admitted (min 64 (min (gridTeams k.header - k.admitted) b.2))).map (teamIndex k.header)⟩] }
      | none => s) := by
  change execDispatchBatch p s = _
  unfold execDispatchBatch
  simp only [hk, hl, List.isEmpty_nil, Bool.not_true, Bool.false_eq_true, if_false, hc, if_true, nextBatch_plain hc hg, hg]
  cases mostFree (freeSlots s p k) with
  | none => rfl
  | some b =>
    by_cases hb : b.2 = 0
    · simp [hb]
    · simp [hb]

theorem dispatchBatch_plain (s : State) (p : Nat) (k : Task) (hk : headGrid (getPart s p) = some k)
    (hl : liveBatches (getPart s p) = []) (hc : k.header.col = 0) (hg : k.header.gang = 0) :
    let q := getPart s p
    let fs := freeSlots s p k
    ((∀ d n, mfind fs d = some n → n = 0) → exec (.dispatchBatch p) s = .next s)
    ∧ (∀ d n, mfind fs d = some n → 0 < n → (∀ e m, mfind fs e = some m → m < n ∨ (m = n ∧ d ≤ e)) →
      ∃ t, exec (.dispatchBatch p) s = .next t ∧ { t with parts := s.parts } = s
        ∧ getPart t p = { q with batch := [⟨k.tid, d,
            (rangeFrom k.admitted (min 64 (min (gridTeams k.header - k.admitted) n))).map (teamIndex k.header)⟩] }) := by
  intro q fs
  have hwf := freeSlots_wf s p k
  refine ⟨fun hz => ?_, fun d n hd hn hbest => ?_⟩
  · rw [execDispatchBatch_plain hk hl hc hg, mostFree_none fun x hx => hz x.1 x.2 (mfind_of_mem hwf hx)]
  · rw [execDispatchBatch_plain hk hl hc hg,
      mostFree_of hwf (mem_of_mfind hd) hn fun x hx => hbest x.1 x.2 (mfind_of_mem hwf hx)]
    dsimp only
    rw [if_neg (Nat.ne_of_gt hn)]
    exact ⟨_, rfl, rfl, getPart_modPart_self ..⟩

/-! ### The start of a team -/

/-- A byte that settles leaves the partitions. -/
theorem settleByte_parts (s : State) (x key : Nat) (b : Byte) : (settleByte s x key b).parts = s.parts := by
  unfold settleByte physWriteByte notePool
  dsimp only
  split
  · rfl
  · split <;> split <;> rfl

/-- A recall leaves the partitions. -/
theorem recallGrain_parts (s : State) (base : Nat) : (recallGrain s base).parts = s.parts := by
  unfold recallGrain
  split
  · rfl
  · next o _ =>
    suffices ∀ u : State, (o.dirty.foldl (fun acc e => settleByte acc e.1 e.2.2 e.2.1) u).parts = u.parts from this _
    induction o.dirty with
    | nil => exact fun _ => rfl
    | cons x r ih => exact fun u => (ih _).trans (settleByte_parts ..)

/-- Recalls leave groups, teams and partitions. -/
theorem recallGrains_keep (s : State) (gs : List Nat) :
    (gs.foldl recallGrain s).groups = s.groups ∧ (gs.foldl recallGrain s).teams = s.teams
    ∧ (gs.foldl recallGrain s).parts = s.parts := by
  induction gs generalizing s with
  | nil => exact ⟨rfl, rfl, rfl⟩
  | cons x r ih =>
    obtain ⟨hg, ht, hp⟩ := ih (recallGrain s x)
    have hs := recallGrain_same s x
    exact ⟨hg.trans hs.groups, ht.trans hs.teams, hp.trans (recallGrain_parts s x)⟩

/-- A change of carve-out leaves groups, teams and partitions (R58). -/
theorem recarve_keeps (s : State) (core carve : Nat) :
    (recarve s core carve).groups = s.groups ∧ (recarve s core carve).teams = s.teams
    ∧ (recarve s core carve).parts = s.parts := by
  unfold recarve
  split
  · exact ⟨rfl, rfl, rfl⟩
  · exact recallGrains_keep s _

/-- A change of carve-out leaves memory where the core owns nothing, as no change does (R58). -/
theorem recarve_mem {s : State} {core carve : Nat}
    (h : (getCore s core).carve = carve ∨ ∀ g ∈ s.own, g.2.core ≠ core) : (recarve s core carve).mem = s.mem := by
  unfold recarve
  split
  · rfl
  · next hne =>
    have hnil : s.own.filter (fun g => g.2.core == core) = [] :=
      List.filter_eq_nil_iff.2 fun g hg => by simpa using h.resolve_left hne g hg
    rw [hnil]; rfl

/-- The start of one group of a team. -/
def seatGroup (h : Header) (tk linear : Nat) (acc : State) (w1 : Nat) : State :=
  { acc with groups := mset acc.groups (32 * tk + w1) (entryGroup h linear w1 acc.order), order := acc.order + 1 }

/-- The start of a team's groups changes groups alone, and the model's order of starts. -/
theorem seatGroups_rest (h : Header) (tk linear : Nat) (ws : List Nat) (s : State) :
    { ws.foldl (seatGroup h tk linear) s with groups := s.groups, order := s.order } = s := by
  induction ws generalizing s with
  | nil => rfl
  | cons w r ih =>
    have := congrArg (fun u : State => { u with groups := s.groups, order := s.order }) (ih (seatGroup h tk linear s w))
    exact this

/-- Each group that starts stands in its entry state. -/
theorem seatGroups_group (h : Header) (tk linear w : Nat) (ws : List Nat) (s : State)
    (hw : w ∈ ws ∨ ∃ age, mfind s.groups (32 * tk + w) = some (entryGroup h linear w age)) :
    ∃ age, mfind (ws.foldl (seatGroup h tk linear) s).groups (32 * tk + w) = some (entryGroup h linear w age) := by
  induction ws generalizing s with
  | nil => exact hw.resolve_left List.not_mem_nil
  | cons x r ih =>
    refine ih _ ?_
    by_cases hx : w = x
    · subst hx
      exact .inr ⟨s.order, mfind_mset_self ..⟩
    · refine hw.imp (fun hm => (List.mem_cons.1 hm).resolve_left hx) fun ⟨age, ha⟩ => ⟨age, ?_⟩
      rw [seatGroup, mfind_mset_other _ _ _ _ (by omega), ha]

/-- The s registers of a group's entry state (R12). -/
theorem entryGroup_regs (h : Header) (linear w age r : Nat) :
    mget (entryGroup h linear w age).regs r 0 = if r = sKey 0 then BitVec.ofNat 32 h.param
      else if r = sKey 1 then BitVec.ofNat 32 (h.param / 2 ^ 32) else if r = sKey 2 then BitVec.ofNat 32 w
      else if r = sKey 3 then BitVec.ofNat 32 linear else 0 := by
  simp only [entryGroup, List.foldl_cons, List.foldl_nil, mget_mput]
  by_cases h0 : r = sKey 0
  · rw [h0]; simp [sKey]
  by_cases h1 : r = sKey 1
  · rw [h1]; simp [sKey]
  by_cases h2 : r = sKey 2
  · rw [h2]; simp [sKey]
  rw [if_neg h2, if_neg h1, if_neg h0, if_neg h0, if_neg h1, if_neg h2]
  rfl

/-- The generators of a group's entry state (R12). -/
theorem entryGroup_lg (h : Header) (linear w age : Nat) {l : Nat} (hl : l < 32) :
    mget (entryGroup h linear w age).lg l 0
      = seedLane (BitVec.ofNat 64 h.seed) (BitVec.ofNat 64 (l + w * 2 ^ 5 + linear * 2 ^ (5 + h.widths.getD 1 0))) :=
  (mget_results (fun l => seedLane (BitVec.ofNat 64 h.seed) (BitVec.ofNat 64 (l + w * 2 ^ 5 + linear * 2 ^ (5 + h.widths.getD 1 0))))
    0 l).trans (if_pos (List.mem_range.2 hl))

/-- The state in which a team's groups start: its place, its scratchpad and the units of its core are given (R11, R58, R59). -/
def teamPlaced (s : State) (p : Nat) (t : Task) (core slot linear base qb : Nat) : State :=
  let h := t.header
  let team : Team :=
    { Team.empty with
      part := p, tid := t.tid, linear, core, slot, qb, ngrp := h.exts.getD 1 1, spread := h.spread, prio := t.card.prio,
      scrbase := base, scrsize := h.scr, order := s.order }
  let s1 := modCore (recarve s core h.carve) core fun c => { c with carve := h.carve }
  assignUnits
    { s1 with
      teams := mset s1.teams (8 * core + slot) team
      tlb := s1.tlb.filter fun e => !(e.at_ == .core core && e.team == 8 * core + slot)
      order := s1.order + 1 } core

/-- A team starts: it is placed, then its groups start, and its task has one more team admitted. -/
theorem startTeam_eq (s : State) (p : Nat) (t : Task) (core slot linear base qb : Nat) :
    startTeam s p t core slot linear base qb = modTask (dropSi ((List.range (t.header.exts.getD 1 1)).foldl
      (seatGroup t.header (8 * core + slot) linear) (teamPlaced s p t core slot linear base qb)) core) p t.tid
        fun x => { x with admitted := x.admitted + 1 } := rfl

/-- What the place of a team keeps and sets. -/
theorem teamPlaced_keeps (s : State) (p : Nat) (t : Task) (core slot linear base qb : Nat) :
    let u := teamPlaced s p t core slot linear base qb
    u.groups = s.groups ∧ u.parts = s.parts ∧ u.mem = (recarve s core t.header.carve).mem
    ∧ u.teams = mset s.teams (8 * core + slot) { Team.empty with
        part := p, tid := t.tid, linear, core, slot, qb, ngrp := t.header.exts.getD 1 1, spread := t.header.spread,
        prio := t.card.prio, scrbase := base, scrsize := t.header.scr, order := s.order } := by
  obtain ⟨hg, ht, hp⟩ := recarve_keeps s core t.header.carve
  exact ⟨hg, hp, rfl, congrArg (fun ts => mset ts _ _) ht⟩

/-- What the start of a team changes: its team record, its groups, and the count of its task's teams. -/
theorem startTeam_facts (s : State) (p : Nat) (t : Task) (core slot linear base qb : Nat) :
    let u := startTeam s p t core slot linear base qb
    u.mem = (recarve s core t.header.carve).mem
    ∧ u.teams = mset s.teams (8 * core + slot) { Team.empty with
        part := p, tid := t.tid, linear, core, slot, qb, ngrp := t.header.exts.getD 1 1, spread := t.header.spread,
        prio := t.card.prio, scrbase := base, scrsize := t.header.scr, order := s.order }
    ∧ (getPart u p) = { getPart s p with
        window := (getPart s p).window.map fun x => if x.tid = t.tid then { x with admitted := x.admitted + 1 } else x }
    ∧ ∀ w < t.header.exts.getD 1 1, ∃ age,
        mfind u.groups (32 * (8 * core + slot) + w) = some (entryGroup t.header linear w age) := by
  intro u
  obtain ⟨-, hp, hm, ht⟩ := teamPlaced_keeps s p t core slot linear base qb
  have hrest := seatGroups_rest t.header (8 * core + slot) linear (List.range (t.header.exts.getD 1 1))
    (teamPlaced s p t core slot linear base qb)
  have hu : u = _ := startTeam_eq s p t core slot linear base qb
  generalize hv : (List.range (t.header.exts.getD 1 1)).foldl (seatGroup t.header (8 * core + slot) linear)
    (teamPlaced s p t core slot linear base qb) = v at hrest hu
  have hvm : v.mem = (recarve s core t.header.carve).mem := by
    have := congrArg State.mem hrest
    exact this.trans hm
  have hvt : v.teams = (teamPlaced s p t core slot linear base qb).teams := by
    have := congrArg State.teams hrest
    exact this
  have hvp : v.parts = s.parts := by
    have := congrArg State.parts hrest
    exact this.trans hp
  refine ⟨by rw [hu]; exact hvm, by rw [hu]; exact hvt.trans ht, ?_, fun w hw => ?_⟩
  · have hpart : getPart (dropSi v core) p = getPart s p := congrArg (fun ps => mget ps p Partition.reset) hvp
    rw [hu, modTask, getPart_modPart_self, hpart]
  · obtain ⟨age, ha⟩ := seatGroups_group t.header (8 * core + slot) linear w (List.range (t.header.exts.getD 1 1))
      (teamPlaced s p t core slot linear base qb) (.inl (List.mem_range.2 hw))
    exact ⟨age, by rw [hu]; exact hv ▸ ha⟩

/-- A task that is found has the number that it is found by. -/
theorem findTask_tid {s : State} {p tid : Nat} {k : Task} (h : findTask s p tid = some k) :
    k.tid = tid ∧ getTask s p tid = k :=
  ⟨by simpa using List.find?_some h, by rw [getTask, h]; rfl⟩

/-- A team admitted is one more team of its task. -/
theorem findTask_admitted {s u : State} {p tid : Nat} {k : Task} (h : findTask s p tid = some k)
    (hu : (getPart u p).window = (getPart s p).window.map fun x => if x.tid = tid then { x with admitted := x.admitted + 1 } else x) :
    findTask u p tid = some { k with admitted := k.admitted + 1 } := by
  have hm := findTask_modTask_self (F := fun x => { x with admitted := x.admitted + 1 }) h fun _ => rfl
  rw [findTask, modTask, getPart_modPart_self] at hm
  rw [findTask, hu]
  exact hm

theorem teamAdmit_starts (s : State) (p : Nat) (b : Batch) (rest : List Batch) (c slot o qb : Nat) (room : Room)
    (hl : liveBatches (getPart s p) = b :: rest) :
    let k := getTask s p b.tid
    let h := k.header
    coreFor s p k b.die = some c → freeTeamSlot s c = some slot → fitTeam (roomOf s c) h = some (o, qb, room) →
    h.exts.getD 1 1 ≤ 32 → (∃ u, findTask s p b.tid = some u) →
    let tk := 8 * c + slot
    let idx := b.teams.headD 0
    ∃ t, exec (.teamAdmit p) s = .next t ∧ ((getCore s c).carve = h.carve ∨ (∀ g ∈ s.own, g.2.core ≠ c) → t.mem = s.mem)
      ∧ findTask t p b.tid = some { k with admitted := k.admitted + 1 }
      ∧ (getPart t p).batch = { b with teams := b.teams.drop 1 } :: rest
      ∧ (∃ tm, mfind t.teams tk = some tm ∧ tm.part = p ∧ tm.tid = b.tid ∧ tm.linear = idx ∧ tm.core = c ∧ tm.slot = slot
          ∧ tm.ngrp = h.exts.getD 1 1 ∧ tm.prio = k.card.prio ∧ tm.scrbase = o ∧ tm.scrsize = h.scr ∧ tm.scr = [] ∧ tm.full = []
          ∧ tm.chains = [] ∧ tm.slate = none)
      ∧ (∀ x, x ≠ tk → mfind t.teams x = mfind s.teams x)
      ∧ ∀ w, w < h.exts.getD 1 1 → ∃ g x, mfind t.groups (32 * tk + w) = some g ∧ g.w1 = w ∧ g.quota = h.quota
          ∧ g.splits = [x] ∧ x.pc = 0 ∧ x.active = 0xFFFFFFFF ∧ x.fmt = 0 ∧ x.pend = none ∧ x.park = .none
          ∧ g.entries = [] ∧ g.ops = [] ∧ g.flags = [] ∧ g.cursors = [] ∧ g.exited = 0 ∧ g.handler = none
          ∧ (∀ r, mget g.regs r 0 = if r = sKey 0 then BitVec.ofNat 32 h.param else if r = sKey 1 then BitVec.ofNat 32 (h.param / 2 ^ 32)
              else if r = sKey 2 then BitVec.ofNat 32 w else if r = sKey 3 then BitVec.ofNat 32 idx else 0)
          ∧ ∀ l, l < 32 → mget g.lg l 0
              = seedLane (BitVec.ofNat 64 h.seed) (BitVec.ofNat 64 (l + w * 2 ^ 5 + idx * 2 ^ (5 + h.widths.getD 1 0))) := by
  intro k h hcore hslot hfit hexts ⟨u, hu⟩ tk idx
  obtain ⟨htid, hku⟩ := findTask_tid hu
  have hk : findTask s p b.tid = some k := hu.trans (congrArg some hku.symm)
  have hktid : k.tid = b.tid := (congrArg Task.tid hku).trans htid
  obtain ⟨hmem, hteams, hpart, hgroups⟩ := startTeam_facts s p k c slot idx o qb
  have hseat : seatTeam s p b.tid b.die idx
      = some (modPart (startTeam s p k c slot idx o qb) p fun q => { q with evictor := none }) := by
    unfold seatTeam
    dsimp only
    rw [show getTask s p b.tid = k from rfl, hcore, Option.bind_some, hslot, show fitTeam (roomOf s c) k.header = _ from hfit]
  have hexec : exec (.teamAdmit p) s = .next (modPart (modPart (startTeam s p k c slot idx o qb) p fun q =>
      { q with evictor := none }) p fun q => { q with batch := { b with teams := b.teams.drop 1 } :: rest }) := by
    change execTeamAdmit p s = _
    unfold execTeamAdmit
    simp only [hl, show b.teams.headD 0 = idx from rfl, hseat]
  generalize startTeam s p k c slot idx o qb = v at hmem hteams hpart hgroups hexec
  refine ⟨_, hexec, fun hcarve => hmem.trans (recarve_mem hcarve), findTask_admitted hk ?_, ?_,
    ⟨_, (congrArg (fun ts => mfind ts tk) hteams).trans (mfind_mset_self ..), rfl, hktid, rfl, rfl, rfl, rfl,
    rfl, rfl, rfl, rfl, rfl, rfl, rfl⟩, fun x hx => ?_, fun w hw => ?_⟩
  · rw [getPart_modPart_self, getPart_modPart_self, hpart, hktid]
  · rw [getPart_modPart_self]
  · exact (congrArg (fun ts => mfind ts x) hteams).trans (mfind_mset_other _ _ _ _ hx)
  · obtain ⟨age, ha⟩ := hgroups w hw
    exact ⟨_, _, ha, rfl, rfl, rfl, rfl, rfl, rfl, rfl, rfl, rfl, rfl, rfl, rfl, rfl, rfl,
      entryGroup_regs k.header idx w age, fun l hl => entryGroup_lg k.header idx w age hl⟩

/-! ### Co-resident sets -/

/-- A next batch takes no more teams than are left (R342). -/
theorem nextBatch_le {h : Header} {tid : Nat} {fs gangs : SMap Nat} {pos stop d k : Nat}
    (hb : nextBatch h tid fs gangs pos stop = some (d, k)) : k ≤ stop - pos := by
  unfold nextBatch at hb
  dsimp only at hb
  split at hb
  · exact absurd hb (by simp)
  · next d' free _ =>
    have hleft : (if h.gang = 0 then stop - pos else min (stop - pos)
        ((pos / (if h.gang = 0 then 1 else setTeams h h.gang) + 1) * (if h.gang = 0 then 1 else setTeams h h.gang) - pos))
        ≤ stop - pos := by
      split
      · exact Nat.le_refl _
      · exact Nat.min_le_left _ _
    split at hb
    · exact absurd hb (by simp)
    · have := (Prod.mk.inj (Option.some.inj hb)).2
      omega

/-- The batches of a run of teams hold all of them (R342). -/
theorem cutBatches_length {n : Nat} {h : Header} {tid : Nat} {fs gangs : SMap Nat} {pos stop : Nat} {bs : List Batch}
    {gs : SMap Nat} (hc : cutBatches n h tid fs gangs pos stop = some (bs, gs)) :
    (bs.flatMap (·.teams)).length = stop - pos := by
  induction n generalizing fs gangs pos bs gs with
  | zero => exact absurd hc (by simp [cutBatches])
  | succ n ih =>
    unfold cutBatches at hc
    split at hc
    · next hge =>
      rw [← (Prod.mk.inj (Option.some.inj hc)).1]
      exact (Nat.sub_eq_zero_of_le hge).symm
    · split at hc
      · exact absurd hc (by simp)
      · next d k hnb =>
        have hle := nextBatch_le hnb
        obtain ⟨r, hr, hbr⟩ := Option.map_eq_some_iff.1 hc
        have hlen := ih (bs := r.1) (gs := r.2) hr
        rw [← (Prod.mk.inj hbr).1, List.flatMap_cons, List.length_append, hlen, List.length_map, rangeFrom_length]
        omega

/-- One team placed on a die: its task has one more team admitted, and the barrier records stay. -/
theorem seatTeam_facts {s u : State} {p tid die linear : Nat} {k : Task} (hk : findTask s p tid = some k)
    (h : seatTeam s p tid die linear = some u) :
    findTask u p tid = some { k with admitted := k.admitted + 1 } ∧ (getPart u p).gbars = (getPart s p).gbars := by
  obtain ⟨htid, hget⟩ := findTask_tid hk
  unfold seatTeam at h
  dsimp only at h
  rw [hget] at h
  obtain ⟨c, -, hc⟩ := Option.bind_eq_some_iff.1 h
  split at hc
  · next slot f _ _ =>
    obtain ⟨-, -, hpart, -⟩ := startTeam_facts s p k c slot linear f.1 f.2.1
    rw [← Option.some.inj hc]
    refine ⟨findTask_admitted hk ?_, ?_⟩
    · rw [getPart_modPart_self, hpart, htid]
    · rw [getPart_modPart_self, hpart]
  · exact absurd hc (by simp)

/-- Teams placed one at a time: each is one more of its task. -/
theorem seatAll_facts {s u : State} {p tid : Nat} {k : Task} {xs : List (Nat × Nat)} (hk : findTask s p tid = some k)
    (h : seatAll s p tid xs = some u) :
    findTask u p tid = some { k with admitted := k.admitted + xs.length } ∧ (getPart u p).gbars = (getPart s p).gbars := by
  induction xs generalizing s k with
  | nil =>
    rw [← Option.some.inj h]
    exact ⟨hk, rfl⟩
  | cons x r ih =>
    obtain ⟨v, hv, hr⟩ := Option.bind_eq_some_iff.1 h
    obtain ⟨hkv, hgv⟩ := seatTeam_facts hk hv
    obtain ⟨hku, hgu⟩ := ih hkv hr
    refine ⟨hku.trans ?_, hgu.trans hgv⟩
    dsimp only
    rw [List.length_cons, Nat.add_assoc, Nat.add_comm 1]

/-- A co-resident set is admitted whole, with its barrier records, or not at all (R10, R342, R348). -/
theorem dispatchBatch_set (s : State) (p : Nat) (k : Task) (hh : headGrid (getPart s p) = some k)
    (hk : findTask s p k.tid = some k) (hcol : k.header.col ≠ 0) (hfit : cannotFit s p k.header = false)
    (hl : liveBatches (getPart s p) = []) :
    let set := setTeams k.header k.header.col
    k.admitted % set = 0 →
    ∃ t, exec (.dispatchBatch p) s = .next t ∧ (t = s ∨
      ((∃ k', findTask t p k.tid = some k' ∧ k'.admitted = k.admitted + set)
        ∧ ∀ b ∈ gbarsFor k.header k.tid k.admitted, b ∈ (getPart t p).gbars)) := by
  intro set hset
  have he : exec (.dispatchBatch p) s = execDispatchBatch p s := rfl
  rw [he]
  unfold execDispatchBatch
  simp only [hh, hl, List.isEmpty_nil, Bool.not_true, Bool.false_eq_true, if_false, if_neg hcol, hfit,
    show setTeams k.header k.header.col = set from rfl, hset, if_true]
  split
  · exact ⟨s, rfl, .inl rfl⟩
  · split
    · exact ⟨s, rfl, .inl rfl⟩
    · next bs gangs hcut =>
      have hlen := cutBatches_length hcut
      generalize hs1 : modPart s p _ = s1
      cases hseat : seatAll s1 p k.tid (bs.flatMap fun b => b.teams.map fun x => (b.die, x)) with
      | none => exact ⟨s, rfl, .inl rfl⟩
      | some u =>
        have hk1 : findTask s1 p k.tid = some k := by
          rw [← hs1, findTask, getPart_modPart_self]; exact hk
        obtain ⟨hku, hgu⟩ := seatAll_facts hk1 hseat
        refine ⟨u, rfl, .inr ⟨⟨_, hku, ?_⟩, fun b hb => ?_⟩⟩
        · have hmul := Nat.div_add_mod k.admitted set
          have hn : (bs.flatMap fun b => b.teams.map fun x => (b.die, x)).length = (bs.flatMap (·.teams)).length := by
            simp only [List.length_flatMap, List.length_map]
          dsimp only
          rw [hn, hlen, Nat.add_mul, Nat.one_mul, Nat.mul_comm (k.admitted / set)]
          omega
        · rw [hgu, ← hs1, getPart_modPart_self]
          by_cases hin : b ∈ (getPart s p).gbars
          · exact List.mem_append_left _ hin
          · exact List.mem_append_right _ (List.mem_filter.2 ⟨hb, by simpa using hin⟩)

/-! ### Grid barriers -/

/-- A group some of whose parked splits may have gone on, as far as a barrier sees it. -/
structure Woken (g t : Group) : Prop where
  regs    : t.regs = g.regs
  res     : t.res = g.res
  halt    : t.halt = g.halt
  handler : t.handler = g.handler
  splits  : ∀ (j : Nat) x, g.splits[j]? = some x →
    ∃ y, t.splits[j]? = some y ∧ y.handler = x.handler ∧ (y.park = x.park ∨ y.park = .none)

namespace Woken

theorem refl (g : Group) : Woken g g := ⟨rfl, rfl, rfl, rfl, fun _ x hx => ⟨x, hx, rfl, .inl rfl⟩⟩

theorem trans {g t u : Group} (h : Woken g t) (k : Woken t u) : Woken g u := by
  refine ⟨k.regs.trans h.regs, k.res.trans h.res, k.halt.trans h.halt, k.handler.trans h.handler, fun j x hx => ?_⟩
  obtain ⟨y, hy, hyh, hyp⟩ := h.splits j x hx
  obtain ⟨z, hz, hzh, hzp⟩ := k.splits j y hy
  refine ⟨z, hz, hzh.trans hyh, ?_⟩
  rcases hzp with hzp | hzp
  · rw [hzp]; exact hyp
  · exact .inr hzp

end Woken

/-- Uses of scratchpad change the windows of a group's splits alone (R21). -/
theorem foldl_hearScr (use : Nat) (ms : List Split) (g : Group) :
    ∃ splits, ms.foldl (fun acc x => hearScr x use acc) g = { g with splits }
      ∧ ∀ (j : Nat) x, g.splits[j]? = some x → ∃ stale, splits[j]? = some { x with stale } := by
  induction ms generalizing g with
  | nil => exact ⟨g.splits, rfl, fun _ x hx => ⟨x.stale, hx⟩⟩
  | cons me r ih =>
    obtain ⟨splits, he, hs⟩ := ih (hearScr me use g)
    refine ⟨splits, he, fun j x hx => ?_⟩
    have hone : ∃ stale, (hearScr me use g).splits[j]? = some { x with stale } := by
      rw [hearScr, List.getElem?_map, hx, Option.map_some]
      split
      · exact ⟨_, rfl⟩
      · exact ⟨_, rfl⟩
    obtain ⟨stale, hst⟩ := hone
    obtain ⟨stale', hst'⟩ := hs j _ hst
    exact ⟨stale', hst'⟩

/-- Parked splits that go on: those that `hit` names, whatever their windows (R21). -/
theorem unparkWhere_splits (use : Nat) {hit : Split → Bool} (hhit : ∀ (x : Split) stale, hit { x with stale } = hit x) (g : Group) :
    ∃ splits, unparkWhere use hit g = { g with splits }
      ∧ ∀ (j : Nat) x, g.splits[j]? = some x → ∃ stale,
          splits[j]? = some { x with stale, park := if hit x then .none else x.park } := by
  obtain ⟨splits, he, hs⟩ := foldl_hearScr use (g.splits.filter hit) g
  refine ⟨splits.map fun x => if hit x then { x with park := .none } else x, ?_, fun j x hx => ?_⟩
  · unfold unparkWhere
    rw [he]
  · obtain ⟨stale, hst⟩ := hs j x hx
    refine ⟨stale, ?_⟩
    rw [List.getElem?_map, hst, Option.map_some, hhit]
    split <;> rfl

/-- A change of one group leaves every group as it was, or changes it. -/
theorem getGroup_modGroup_or (s : State) (gid : Nat) (f : Group → Group) (y : Nat) :
    getGroup (modGroup s gid f) y = getGroup s y ∨ getGroup (modGroup s gid f) y = f (getGroup s y) := by
  by_cases hy : y = gid
  · subst hy
    cases hg : mfind s.groups y with
    | some g => exact .inr (getGroup_modGroup_self s y f g hg)
    | none => exact .inl (by simp only [getGroup, mget, mfind_modGroup, if_true, hg, Option.map_none])
  · exact .inl (getGroup_modGroup_other s gid y f hy)

/-- An acquire by a wake changes what its group has heard, its cursors' buffers and SI copies alone. -/
theorem acquireAround_keeps (s : State) (gid core scope : Nat) :
    (acquireAround s gid core scope).parts = s.parts ∧ (acquireAround s gid core scope).teams = s.teams
    ∧ ∀ y, ∃ heard cursors, getGroup (acquireAround s gid core scope) y = { getGroup s y with heard, cursors } := by
  have hhear : ∀ y, ∃ heard, getGroup (hearAround s gid (decide (2 ≤ scope))) y = { getGroup s y with heard } := fun y => by
    rcases getGroup_modGroup_or s gid _ y with h | h
    · exact ⟨_, h⟩
    · exact ⟨_, h⟩
  unfold acquireAround acquire
  generalize hu : hearAround s gid (decide (2 ≤ scope)) = u at hhear
  have hp : u.parts = s.parts := hu ▸ rfl
  have ht : u.teams = s.teams := hu ▸ rfl
  have hacq : ∀ y, ∃ cursors, getGroup (modGroup u gid fun g =>
      { g with cursors := g.cursors.map fun c => (c.1, { c.2 with buf := [] }) }) y = { getGroup u y with cursors } := fun y => by
    rcases getGroup_modGroup_or u gid _ y with h | h
    · exact ⟨_, h⟩
    · exact ⟨_, h⟩
  have hgroups : ∀ y, ∃ heard cursors, getGroup (modGroup u gid fun g =>
      { g with cursors := g.cursors.map fun c => (c.1, { c.2 with buf := [] }) }) y = { getGroup s y with heard, cursors } :=
    fun y => by
      obtain ⟨heard, hh⟩ := hhear y
      obtain ⟨cursors, hc⟩ := hacq y
      exact ⟨heard, cursors, by rw [hc, hh]⟩
  dsimp only
  split
  · exact ⟨hp, ht, hgroups⟩
  · exact ⟨hp, ht, hgroups⟩

/-- A split that a wake at a grid barrier names: the phase that it waits for has ended, and it may go on (R289). -/
def gbarHit (s : State) (gid : Nat) (x : Split) : Bool :=
  let tm := getTeam s (teamKey gid)
  let h := (getTask s tm.part tm.tid).header
  (match x.park with
    | .gbar k p => (gbarRec s tm.part tm.tid k (setOf h tm.linear k)).any fun r => r.phase != p
    | _ => false) && wakesNow s gid x

theorem wakeGbar_eq (s : State) (gid : Nat) : wakeGbar s gid =
    if (getGroup s gid).splits.any (gbarHit s gid) then
      acquireAround (modGroup s gid (unparkWhere scrCov (gbarHit s gid))) gid (getTeam s (teamKey gid)).core 3
    else s := rfl

/-- A wake at a grid barrier leaves partitions and teams, and each group as it was but for windows, parks, and what an acquire
changes. -/
theorem wakeGbar_keeps (s : State) (gid : Nat) :
    (wakeGbar s gid).parts = s.parts ∧ (wakeGbar s gid).teams = s.teams
    ∧ ∀ y, Woken (getGroup s y) (getGroup (wakeGbar s gid) y) := by
  rw [wakeGbar_eq]
  split
  · obtain ⟨hp, ht, hg⟩ := acquireAround_keeps (modGroup s gid (unparkWhere scrCov (gbarHit s gid))) gid
      (getTeam s (teamKey gid)).core 3
    refine ⟨hp, ht, fun y => ?_⟩
    obtain ⟨heard, cursors, he⟩ := hg y
    rw [he]
    rcases getGroup_modGroup_or s gid (unparkWhere scrCov (gbarHit s gid)) y with h | h
    · rw [h]
      exact ⟨rfl, rfl, rfl, rfl, fun j x hx => ⟨x, hx, rfl, .inl rfl⟩⟩
    · obtain ⟨splits, hu, hs⟩ := unparkWhere_splits scrCov (hit := gbarHit s gid) (fun _ _ => rfl) (getGroup s y)
      rw [h, hu]
      refine ⟨rfl, rfl, rfl, rfl, fun j x hx => ?_⟩
      obtain ⟨stale, hst⟩ := hs j x hx
      refine ⟨_, hst, rfl, ?_⟩
      dsimp only
      split
      · exact .inr rfl
      · exact .inl rfl
  · exact ⟨rfl, rfl, fun y => .refl _⟩

/-- A split that a wake at a grid barrier names goes on. -/
theorem wakeGbar_wakes {s : State} {gid j : Nat} {x : Split} (hx : (getGroup s gid).splits[j]? = some x)
    (hhit : gbarHit s gid x = true) : (getGroup (wakeGbar s gid) gid).splits[j]?.map (·.park) = some .none := by
  have hany : (getGroup s gid).splits.any (gbarHit s gid) = true :=
    List.any_eq_true.2 ⟨x, List.mem_of_getElem? hx, hhit⟩
  obtain ⟨g, hg⟩ : ∃ g, mfind s.groups gid = some g := by
    cases hg : mfind s.groups gid with
    | some g => exact ⟨g, rfl⟩
    | none =>
      rw [getGroup, mget, hg] at hx
      exact absurd hx (by simp [Group.empty])
  obtain ⟨-, -, hacq⟩ := acquireAround_keeps (modGroup s gid (unparkWhere scrCov (gbarHit s gid))) gid
    (getTeam s (teamKey gid)).core 3
  obtain ⟨heard, cursors, he⟩ := hacq gid
  obtain ⟨splits, hu, hs⟩ := unparkWhere_splits scrCov (hit := gbarHit s gid) (fun _ _ => rfl) (getGroup s gid)
  obtain ⟨stale, hst⟩ := hs j x hx
  rw [wakeGbar_eq, if_pos hany, he, getGroup_modGroup_self s gid _ g hg, hu]
  dsimp only
  rw [hst, Option.map_some, if_pos hhit]

/-- Wakes one after another. -/
theorem foldl_wakeGbar_keeps (gs : List Nat) (s : State) :
    (gs.foldl wakeGbar s).parts = s.parts ∧ (gs.foldl wakeGbar s).teams = s.teams
    ∧ ∀ y, Woken (getGroup s y) (getGroup (gs.foldl wakeGbar s) y) := by
  induction gs generalizing s with
  | nil => exact ⟨rfl, rfl, fun y => .refl _⟩
  | cons x r ih =>
    obtain ⟨hp, ht, hw⟩ := wakeGbar_keeps s x
    obtain ⟨hp', ht', hw'⟩ := ih (wakeGbar s x)
    exact ⟨hp'.trans hp, ht'.trans ht, fun y => (hw y).trans (hw' y)⟩

/-- A split that a wake names is still named when other groups have been woken, unless it has gone on. -/
theorem gbarHit_woken {s t : State} {gid : Nat} {x y : Split} (hp : t.parts = s.parts) (ht : t.teams = s.teams)
    (hw : Woken (getGroup s gid) (getGroup t gid)) (hh : y.handler = x.handler) (hpark : y.park = x.park) :
    gbarHit t gid y = gbarHit s gid x := by
  have hteam : getTeam t (teamKey gid) = getTeam s (teamKey gid) := by rw [getTeam, ht, getTeam]
  have hpart : ∀ p, getPart t p = getPart s p := fun p => by rw [getPart, hp, getPart]
  unfold gbarHit wakesNow gbarRec getTask findTask
  simp only [hteam, hpart, hw.res, hw.halt, hw.handler, hh, hpark]

/-- Each split that the wake of its group names goes on in a run of wakes that reaches its group. -/
theorem foldl_wakeGbar_wakes {gs : List Nat} {s : State} {gid j : Nat} {x : Split} (hgid : gid ∈ gs)
    (hx : (getGroup s gid).splits[j]? = some x) (hhit : gbarHit s gid x = true) :
    (getGroup (gs.foldl wakeGbar s) gid).splits[j]?.map (·.park) = some .none := by
  obtain ⟨l, r, rfl⟩ := List.append_of_mem hgid
  rw [List.foldl_append, List.foldl_cons]
  obtain ⟨hp, ht, hw⟩ := foldl_wakeGbar_keeps l s
  obtain ⟨y, hy, hyh, hyp⟩ := (hw gid).splits j x hx
  generalize l.foldl wakeGbar s = u at hp ht hw hy
  have hone : (getGroup (wakeGbar u gid) gid).splits[j]?.map (·.park) = some .none := by
    rcases hyp with hyp | hyp
    · exact wakeGbar_wakes hy ((gbarHit_woken hp ht (hw gid) hyh hyp).trans hhit)
    · obtain ⟨z, hz, -, hzp⟩ := ((wakeGbar_keeps u gid).2.2 gid).splits j y hy
      rw [hz, Option.map_some]
      rcases hzp with hzp | hzp
      · rw [hzp, hyp]
      · rw [hzp]
  obtain ⟨z, hz, hzp⟩ := Option.map_eq_some_iff.1 hone
  obtain ⟨v, hv, -, hvp⟩ := ((foldl_wakeGbar_keeps r (wakeGbar u gid)).2.2 gid).splits j z hz
  rw [hv, Option.map_some]
  rcases hvp with hvp | hvp
  · rw [hvp, hzp]
  · rw [hvp]

/-- The groups of a task are on its teams. -/
theorem mem_groupsOf {s : State} {p tid gid : Nat} (h : gid ∈ groupsOf s p tid) :
    (getTeam s (teamKey gid)).part = p ∧ (getTeam s (teamKey gid)).tid = tid := by
  have hf := (List.mem_filter.1 h).2
  simp only [Bool.and_eq_true, beq_iff_eq] at hf
  exact ⟨hf.1.2, hf.2⟩

/-- The first entry that is named, after a change of the named entries that names the same ones. -/
theorem find?_map_keep {α : Type} {p : α → Bool} {f : α → α} {xs : List α} {x : α} (hf : ∀ y, p (f y) = p y)
    (h : xs.find? p = some x) : (xs.map fun y => if p y then f y else y).find? p = some (f x) := by
  have hsame : ∀ y, p (if p y then f y else y) = p y := fun y => by
    split
    · exact hf y
    · rfl
  rw [List.find?_map, show (p ∘ fun y => if p y then f y else y) = p from funext hsame, h, Option.map_some,
    if_pos (List.find?_some h)]

/-- A grid barrier arrival counts at its set's record, and its phase's end wakes the set (R289). -/
theorem gbarArrival_counts (s : State) (p idx : Nat) (m : GbarMsg) (hm : (getPart s p).msgs[idx]? = some m) :
    let q := getPart s p
    let set := setOf (getTask s p m.tid).header m.linear m.level
    let hit := fun r : GbarRec => r.tid == m.tid && r.level == m.level && r.set == set
    let after := fun r : GbarRec => if r.arr + m.lanes < r.exp then { r with arr := r.arr + m.lanes }
      else { r with arr := 0, phase := !r.phase }
    ∃ t, exec (.gbarArrival p idx) s = .next t ∧ t.mem = s.mem ∧ (∀ y k, regOf t y k = regOf s y k)
      ∧ getPart t p = { q with msgs := q.msgs.eraseIdx idx, gbars := q.gbars.map fun r => if hit r then after r else r }
      ∧ ∀ gid g (j : Nat) (x : Split) ph, gid ∈ groupsOf s p m.tid → mfind s.groups gid = some g → wakesNow s gid x = true → g.splits[j]? = some x →
          x.park = .gbar m.level ph →
          setOf (getTask s p m.tid).header (getTeam s (teamKey gid)).linear m.level = set →
          (∃ r, q.gbars.find? hit = some r ∧ (after r).phase ≠ ph) →
          (getGroup t gid).splits[j]?.map (·.park) = some .none := by
  intro q set hit after
  have he : exec (.gbarArrival p idx) s = .next ((groupsOf s p m.tid).foldl wakeGbar (modPart s p fun q =>
      { q with msgs := q.msgs.eraseIdx idx, gbars := q.gbars.map fun r => if hit r then after r else r })) := by
    change execGbarArrival p idx s = _
    unfold execGbarArrival
    simp only [hm]
    rfl
  generalize hs1 : modPart s p _ = s1 at he
  have hq1 : getPart s1 p = { q with
      msgs := q.msgs.eraseIdx idx, gbars := q.gbars.map fun r => if hit r then after r else r } := by
    rw [← hs1, getPart_modPart_self]
  have hgroups : s1.groups = s.groups := hs1 ▸ rfl
  have hteams : s1.teams = s.teams := hs1 ▸ rfl
  have hmem : s1.mem = s.mem := hs1 ▸ rfl
  have hgrp : ∀ y, getGroup s1 y = getGroup s y := fun y => by rw [getGroup, hgroups, getGroup]
  obtain ⟨hparts, -, hwoken⟩ := foldl_wakeGbar_keeps (groupsOf s p m.tid) s1
  refine ⟨_, he, ?_, fun y k => ?_, ?_, fun gid g j x ph hgid hg hnow hx hpark hset hrec => ?_⟩
  · exact (congrArg Vitals.mem (foldl_vitals wakeGbar wakeGbar_vitals _ s1)).trans hmem
  · rw [regOf, (hwoken y).regs, hgrp, regOf]
  · rw [getPart, hparts]; exact hq1
  · have hgs : getGroup s gid = g := by rw [getGroup, mget, hg]; rfl
    refine foldl_wakeGbar_wakes hgid (by rw [hgrp, hgs]; exact hx) ?_
    obtain ⟨r, hr, hph⟩ := hrec
    obtain ⟨hpart, htid⟩ := mem_groupsOf hgid
    have hteam : getTeam s1 (teamKey gid) = getTeam s (teamKey gid) := by rw [getTeam, hteams, getTeam]
    have htask : getTask s1 p m.tid = getTask s p m.tid := by rw [getTask, findTask, hq1, getTask, findTask]
    have hfind : gbarRec s1 p m.tid m.level set = some (after r) := by
      rw [gbarRec, hq1]
      exact find?_map_keep (fun r => by dsimp only [hit, after]; split <;> rfl) hr
    have hnow1 : wakesNow s1 gid x = wakesNow s gid x := by
      simp only [wakesNow, hgrp, hteam, hpart, htid, htask]
    simp only [gbarHit, hnow1, hnow, hteam, hpart, htid, htask, hpark, hset, hfind, Option.any_some, Bool.and_true]
    exact bne_iff_ne.2 hph

/-- Settles O42: the next batch, the entry state, the co-resident set, and the barrier's count. -/
theorem teamDispatch : Obligations.TeamDispatch := by
  unfold Obligations.TeamDispatch
  exact ⟨dispatchBatch_plain, teamAdmit_starts, dispatchBatch_set, gbarArrival_counts⟩

end Sys2Proof.Machine
end

section
/-!
O27. No hypothesis of the claim about barriers excludes a state whose list of groups names one group twice. The wake of a
barrier word (R286) reads the parked splits off that list entry by entry, while every other access to a group goes to its
first entry; so the wake of its own arrival can park the issuing split anew.
-/

namespace Sys2Proof.Machine

open Tests

/-- The state in which the last arrival of a BAR issues, with a BARW at the next pc, where the list of groups holds a second
entry of the group, whose split waits before an instruction. -/
def groupTwice : State :=
  { sBar (.bar enc0) 32 with
    mem := placeMem (encodeBytes (.bar enc0) ++ encodeBytes (.barw enc0))
    groups := [(0, placeGroup),
      (0, { placeGroup with splits := placeGroup.splits.map fun x => { x with park := .before [] false } })] }

/-- BAR may issue there: its guard holds, and its word is in scratchpad, aligned, with EXP not 0. -/
theorem groupTwice_ready :
    Clear formBar enc0 groupTwice (issuer groupTwice) ∧ goes formBar enc0 groupTwice (issuer groupTwice)
    ∧ (issuer groupTwice).sp.park = .none
    ∧ (uniSrc formBar enc0 groupTwice (issuer groupTwice)).a % 4 = 0
    ∧ (uniSrc formBar enc0 groupTwice (issuer groupTwice)).a + 4 ≤ (issuer groupTwice).tm.scrsize
    ∧ scrWord (issuer groupTwice).tm (uniSrc formBar enc0 groupTwice (issuer groupTwice)).a % 2 ^ 15 ≠ 0 :=
  ⟨clear (by decide +kernel), by decide +kernel⟩

/-- Its arrival ends the phase. -/
theorem groupTwice_ends :
    let a := issuer groupTwice
    let w := scrWord a.tm (uniSrc formBar enc0 groupTwice a).a
    (arrived w (laneCount a.sp.active)).testBit 31 ≠ w.testBit 31 := by decide +kernel

/-- How the issuing split is parked after the instruction. -/
def parkAfter (i : Instr) (s : State) : Option Park :=
  match exec i s with
  | .next t => (getGroup t (issuer s).gid).splits[(issuer s).k]?.map (·.park)
  | _ => none

theorem parkAfter_of_next {i : Instr} {s t : State} (h : exec i s = .next t) :
    parkAfter i s = (getGroup t (issuer s).gid).splits[(issuer s).k]?.map (·.park) := by
  unfold parkAfter
  rw [h]

/-- The issuing split stands parked before the BARW, as if it had waited there. -/
theorem groupTwice_parks : parkAfter (.bar enc0) groupTwice = some (.before [] true) := by decide +kernel

/-- Where one group stands twice in the list of groups, the BAR that ends its phase need not leave its own split unparked. -/
theorem not_barriersClaim : ¬ BarriersClaim := by
  rintro ⟨hbar, -⟩
  obtain ⟨hclear, hready⟩ := groupTwice_ready
  obtain ⟨t, o, ht, -, -, -, -, -, hpark, -⟩ := hbar enc0 groupTwice (issuer groupTwice) hclear hready
  rw [← parkAfter_of_next ht, groupTwice_parks] at hpark
  simp only [if_pos groupTwice_ends] at hpark
  exact absurd hpark (by decide)

/-- Refutes O27: with one group twice in the state's list of groups, which no hypothesis excludes, the BAR that ends its
phase wakes its own split as one that waits before the next instruction, and so leaves it parked. -/
theorem not_barriersAndFences : ¬ Obligations.BarriersAndFences := by
  unfold Obligations.BarriersAndFences
  rintro ⟨hbarriers, -⟩
  exact not_barriersClaim hbarriers

end Sys2Proof.Machine
end

section
/-!
O33. A held access whose record is still to be written takes its place in the list again when it is held anew (R359); the claim
about RESQ has every record of it follow the ones that were there.
-/

namespace Sys2Proof.Machine

open Tests

/-- The record, still to be written, of a read at 65536 by task 1 on core 0 that has been replayed. -/
def servedRead : HeldAcc := ⟨.served, 65536, false, 0, 0, 1, 0, false⟩

/-- The state in which a RESQ names that page, which is not resident. -/
def resqAgain : State := modPart sResq 0 fun q => { q with held := [servedRead] }

/-- The page that is not resident. -/
def missingPages : List Nat :=
  ((captured formResq enc0 resqAgain true 0 0).addr.filter fun x => outLane x.1).map fun x => pageBase (laneLeaf x.1) x.2

/-- RESQ may issue there: one of its pages is resident, the other is not. -/
theorem resqAgain_ready :
    Clear formResq enc0 resqAgain (issuer resqAgain) ∧ resqAgain.poison = []
    ∧ (∀ x ∈ (captured formResq enc0 resqAgain true 0 0).addr, x.2 < 2 ^ 52
      ∧ tlbHits resqAgain (party formResq enc0 resqAgain).p (party formResq enc0 resqAgain).core
          (party formResq enc0 resqAgain).team x.2 = []
      ∧ leafGate resqAgain (party formResq enc0 resqAgain).p (if enc0.M 8 8 = 1 then .write else .read) (laneLeaf x.1)
          anyPage = none
      ∧ (laneLeaf x.1).domain = false
      ∧ walk resqAgain (party formResq enc0 resqAgain).p x.2
          = if outLane x.1 then .nonres (laneLeaf x.1) else .ok (laneLeaf x.1))
    ∧ missingPages ≠ [] :=
  ⟨clear (by decide +kernel), by decide +kernel⟩

/-- How many accesses a partition holds after an instruction. -/
def heldAfter (i : Instr) (s : State) (p : Nat) : Option Nat :=
  match exec i s with
  | .next t => some (getPart t p).held.length
  | _ => none

theorem heldAfter_of_next {i : Instr} {s t : State} (h : exec i s = .next t) (p : Nat) :
    heldAfter i s p = some (getPart t p).held.length := by
  unfold heldAfter
  rw [h]

/-- The one record stands in the place of the one that was there. -/
theorem resqAgain_holds :
    heldAfter (.resq enc0) resqAgain (party formResq enc0 resqAgain).p
      = some (getPart resqAgain (party formResq enc0 resqAgain).p).held.length := by decide +kernel

/-- The record of a RESQ need not stand behind those that its partition held before. -/
theorem not_hintsClaim : ¬ HintsClaim := by
  rintro ⟨-, hresq⟩
  obtain ⟨hclear, hpoison, hpages, hmissing⟩ := resqAgain_ready
  obtain ⟨t, o, ht, -, -, -, -, hend⟩ := hresq enc0 resqAgain (issuer resqAgain) laneLeaf outLane hclear hpoison hpages
  rw [if_neg (show ¬ List.map _ (List.filter _ (memCapture _ _ _ _ _).addr) = [] from hmissing)] at hend
  obtain ⟨-, hs, hheld, hbases, -⟩ := hend
  have hlen := (heldAfter_of_next ht _).symm.trans resqAgain_holds
  have hnil : hs = [] := by
    change (getPart t (party formResq enc0 resqAgain).p).held = _ at hheld
    rw [hheld] at hlen
    simpa using hlen
  subst hnil
  cases hm : missingPages with
  | nil => exact hmissing hm
  | cons page rest =>
    change [] = missingPages.eraseDups at hbases
    simp [hm, List.eraseDups_cons] at hbases

/-- Refutes O33: a RESQ of a page for which the record of an access already served is still to be written takes that
record's place, so no record follows those that were held before. -/
theorem not_tensorsObjectsAndHints : ¬ Obligations.TensorsObjectsAndHints := by
  unfold Obligations.TensorsObjectsAndHints
  rintro ⟨-, -, -, hhints⟩
  exact not_hintsClaim hhints

end Sys2Proof.Machine
end

section
/-!
SUPPORT. Bytes at their homes where no graph pool, migration or forwarded request stands in between: what grains that a core owns
(R64), their recall (R65) and direct writes leave to be read. The statements about page views, versions and homes build on it.
-/

namespace Sys2Proof.Machine

/-! ### Maps -/

/-- Entries of a map after a change were there before, or are the changed one. -/
theorem mem_mmod {α : Type} {m : SMap α} {k : Nat} {f : α → α} {y : Nat × α} (h : y ∈ mmod m k f) :
    y ∈ m ∨ ∃ v, (k, v) ∈ m ∧ y = (k, f v) := by
  induction m with
  | nil => exact .inl h
  | cons x r ih =>
    rw [mmod] at h
    split at h
    · next hk =>
      subst hk
      rcases List.mem_cons.1 h with h | h
      · exact .inr ⟨x.2, List.mem_cons_self, h⟩
      · exact .inl (List.mem_cons_of_mem _ h)
    · rcases List.mem_cons.1 h with h | h
      · exact .inl (h ▸ List.mem_cons_self)
      · rcases ih h with h | ⟨v, hv, hy⟩
        · exact .inl (List.mem_cons_of_mem _ h)
        · exact .inr ⟨v, List.mem_cons_of_mem _ hv, hy⟩

/-- Rising keys are distinct. -/
theorem nodup_of_mwf {α : Type} {m : SMap α} (h : mwf m = true) : (mkeys m).Nodup := by
  induction m with
  | nil => exact List.nodup_nil
  | cons x r ih =>
    obtain ⟨hlt, hr⟩ := (mwf_cons x r).1 h
    refine List.nodup_cons.2 ⟨fun hx => ?_, ih hr⟩
    obtain ⟨y, hy, he⟩ := List.mem_map.1 hx
    exact absurd (hlt y hy) (by omega)

/-- An entry of a map has its key listed. -/
theorem mfind_ne_none_of_mem {α : Type} {m : SMap α} {x : Nat × α} (h : x ∈ m) : mfind m x.1 ≠ none := by
  induction m with
  | nil => exact absurd h List.not_mem_nil
  | cons y r ih =>
    rw [mfind]
    split
    · exact Option.some_ne_none _
    · next hk =>
      rcases List.mem_cons.1 h with h | h
      · exact absurd (congrArg Prod.fst h).symm hk
      · exact ih h

/-- An entry of a map without repeated keys is found. -/
theorem mfind_of_nodup {α : Type} {m : SMap α} (h : (mkeys m).Nodup) {x : Nat × α} (hx : x ∈ m) : mfind m x.1 = some x.2 := by
  induction m with
  | nil => exact absurd hx List.not_mem_nil
  | cons y r ih =>
    obtain ⟨hy, hr⟩ := List.nodup_cons.1 h
    rw [mfind]
    rcases List.mem_cons.1 hx with rfl | hx
    · exact if_pos rfl
    · rw [if_neg fun he : y.1 = x.1 => hy (List.mem_map.2 ⟨x, hx, he.symm⟩)]
      exact ih hr hx

/-- What a run of entries set one after another leaves in a map. -/
theorem mfind_foldl_mset_range {α β : Type} (f : β → α) (d : β) (bs : List β) (m : SMap α) (x y : Nat) :
    mfind (((rangeFrom x bs.length).zip bs).foldl (fun m w => mset m w.1 (f w.2)) m) y
      = if x ≤ y ∧ y < x + bs.length then some (f (bs.getD (y - x) d)) else mfind m y := by
  induction bs generalizing x m with
  | nil => exact (if_neg (by simp only [List.length_nil]; omega)).symm
  | cons b r ih =>
    rw [List.length_cons, rangeFrom, List.zip_cons_cons, List.foldl_cons, ih]
    by_cases hy : y = x
    · subst hy
      rw [if_neg (by omega), if_pos (by omega), mfind_mset_self, Nat.sub_self, List.getD_cons_zero]
    · rw [mfind_mset_other _ _ _ _ hy]
      by_cases hin : x + 1 ≤ y ∧ y < x + 1 + r.length
      · rw [if_pos hin, if_pos (by omega), show y - x = y - (x + 1) + 1 by omega, List.getD_cons_succ]
      · rw [if_neg hin, if_neg (by omega)]

/-- A list is read back place by place. -/
theorem map_getD_rangeFrom {α : Type} (bs : List α) (a : Nat) (d : α) :
    ((rangeFrom a bs.length).map fun x => bs.getD (x - a) d) = bs := by
  induction bs generalizing a with
  | nil => rfl
  | cons b r ih =>
    rw [List.length_cons, rangeFrom, List.map_cons, Nat.sub_self, List.getD_cons_zero]
    refine congrArg (b :: ·) (Eq.trans (List.map_congr_left fun x hx => ?_) (ih (a + 1)))
    have hx := (mem_rangeFrom _ _ _).1 hx
    rw [show x - a = x - (a + 1) + 1 by omega, List.getD_cons_succ]

/-- Memory after bytes have been written to distinct addresses. -/
theorem readByte_foldl_entries {ws : SMap (Byte × Nat)} (h : (mkeys ws).Nodup) (m : Memory) (x : Nat) :
    readByte (ws.foldl (fun m e => writeByte m e.1 e.2.1) m) x = ((mfind ws x).map Prod.fst).getD (readByte m x) := by
  induction ws generalizing m with
  | nil => rfl
  | cons w r ih =>
    obtain ⟨hw, hr⟩ := List.nodup_cons.1 h
    rw [List.foldl_cons, ih hr, mfind]
    by_cases hx : w.1 = x
    · subst hx
      rw [if_pos rfl, mfind_none_of_not_mem hw, readByte_writeByte_self]
      rfl
    · rw [if_neg hx, readByte_writeByte_other _ _ _ _ (Ne.symm hx)]

/-! ### Homes -/

/-- Nothing stands between a home and device memory: no graph pool, no migration, no request on its way. -/
structure Settled (s : State) : Prop where
  pools : s.pools = []
  mig   : s.mgmt.mig = none
  reqs  : s.mgmt.reqs = []

/-- A calm state is settled. -/
theorem settled_of_calm {s : State} (h : Calm s) : Settled s := ⟨h.2.1, h.2.2.1, h.2.2.2.1⟩

namespace Settled

variable {s : State} (h : Settled s)
include h

theorem homeOf (a key : Nat) : homeOf s a key = (a, key) := by rw [Machine.homeOf, h.mig]

theorem canonA (a : Nat) : canonA s a = a := by rw [Machine.canonA, h.homeOf]

theorem notePool (a : Nat) : notePool s a = s := by rw [Machine.notePool, h.pools]; rfl

theorem adoptPages (p : Nat) : adoptPages s p = s := by rw [Machine.adoptPages, h.pools]; rfl

/-- A byte that every coherent reader sees: an owner's, or the stored one. -/
theorem cohByte (a key : Nat) : cohByte s a key
    = (((ownGrain s a).bind fun g => mfind g.2.dirty a).map Prod.fst).getD (physByte s a key) := by
  unfold Machine.cohByte
  simp only [h.homeOf, h.reqs, queuedByte, Option.getD_none]
  cases ownGrain s a with
  | none => rfl
  | some g => cases hd : mfind g.2.dirty a <;> simp [hd]

/-- A stored byte under no key. -/
theorem physByte (a : Nat) : physByte s a 0 = readByte s.mem a := by
  have hno : poolOwns s a = false := by rw [poolOwns, h.pools]; rfl
  simp [Machine.physByte, hno]

/-- A byte without a key that reaches its home is stored there. -/
theorem settleByte (a : Nat) (b : Byte) : settleByte s a 0 b = { s with mem := writeByte s.mem a b } := by
  simp [Machine.settleByte, h.reqs, queuedByte, physWriteByte, h.notePool]

/-- Bytes without a key that reach their homes one after another are stored there. -/
theorem foldl_settleByte {ws : SMap (Byte × Nat)} (hk : ∀ e ∈ ws, e.2.2 = 0) :
    ws.foldl (fun acc e => Machine.settleByte acc e.1 e.2.2 e.2.1) s
      = { s with mem := ws.foldl (fun m e => writeByte m e.1 e.2.1) s.mem } := by
  induction ws generalizing s with
  | nil => rfl
  | cons w r ih =>
    rw [List.foldl_cons, hk w List.mem_cons_self, h.settleByte]
    exact ih (s := { s with mem := writeByte s.mem w.1 w.2.1 }) ⟨h.pools, h.mig, h.reqs⟩
      fun e he => hk e (List.mem_cons_of_mem _ he)

/-- A grain that comes home (R65). -/
theorem recallGrain {g : Nat} {o : OwnGrain} (ho : mfind s.own g = some o) (hk : ∀ e ∈ o.dirty, e.2.2 = 0) :
    recallGrain s g = { s with own := mdel s.own g, mem := o.dirty.foldl (fun m e => writeByte m e.1 e.2.1) s.mem } := by
  unfold Machine.recallGrain
  rw [ho]
  exact foldl_settleByte (s := { s with own := mdel s.own g }) ⟨h.pools, h.mig, h.reqs⟩ hk

end Settled

/-- Where nobody owns a grain, every reader sees the stored byte. -/
theorem cohByte_calm {s : State} (h : Calm s) (a : Nat) : cohByte s a 0 = readByte s.mem a := by
  obtain ⟨-, -, -, -, hown⟩ := id h
  rw [(settled_of_calm h).cohByte, (settled_of_calm h).physByte]
  simp [ownGrain, hown]

/-! ### Owned grains -/

/-- Aligned grains of one size that one core owns, with bytes under no key that lie in them (R64). -/
def Grains (n core : Nat) (own : SMap OwnGrain) : Prop :=
  ∀ x ∈ own, x.1 / n * n = x.1 ∧ x.2.size = n ∧ x.2.core = core ∧ mwf x.2.dirty = true
    ∧ ∀ e ∈ x.2.dirty, e.1 / n * n = x.1 ∧ e.2.2 = 0

/-- Grains in order are of one size. -/
theorem Grains.size {n core : Nat} {own : SMap OwnGrain} (h : Grains n core own) : ∀ x ∈ own, x.2.size = n :=
  fun x hx => (h x hx).2.1

/-- The byte that an owner has written at an address. -/
def dirtyAt (n : Nat) (own : SMap OwnGrain) (a : Nat) : Option (Byte × Nat) :=
  (mfind own (a / n * n)).bind fun o => mfind o.dirty a

/-- The grain of a size that covers an address. -/
def grainAt (s : State) (a n : Nat) : Option (Nat × OwnGrain) :=
  (mfind s.own (a / n * n)).bind fun o => if o.size = n then some (a / n * n, o) else none

/-- The covering grain is one of the three sizes. -/
theorem ownGrain_eq (s : State) (a : Nat) :
    ownGrain s a = (grainAt s a 32).orElse fun _ => (grainAt s a 128).orElse fun _ => grainAt s a 512 := by
  have hat : ∀ g, grainAt s a g = match mfind s.own (a / g * g) with
      | some o => if o.size = g then some (a / g * g, o) else none
      | none => none := by
    intro g
    rw [grainAt]
    cases mfind s.own (a / g * g) <;> rfl
  rw [hat, hat, hat]
  rfl

/-- The grain that covers an address, where all are of one size. -/
theorem ownGrain_of_grains {s : State} {n : Nat} (hn : n ∈ [32, 128, 512]) (h : ∀ x ∈ s.own, x.2.size = n) (a : Nat) :
    ownGrain s a = (mfind s.own (a / n * n)).map fun o => (a / n * n, o) := by
  have hself : grainAt s a n = (mfind s.own (a / n * n)).map fun o => (a / n * n, o) := by
    unfold grainAt
    cases hf : mfind s.own (a / n * n) with
    | none => rfl
    | some o => exact if_pos (h _ (mem_of_mfind hf))
  have hother : ∀ g, g ≠ n → grainAt s a g = none := by
    intro g hg
    unfold grainAt
    cases hf : mfind s.own (a / g * g) with
    | none => rfl
    | some o => exact if_neg fun hsize => hg (hsize.symm.trans (h _ (mem_of_mfind hf)))
  rw [ownGrain_eq, ← hself]
  simp only [List.mem_cons, List.not_mem_nil, or_false] at hn
  rcases hn with rfl | rfl | rfl
  · simp [hother 128, hother 512]
  · simp [hother 32, hother 512]
  · simp [hother 32, hother 128]

/-- What readers see where grains of one size are owned. -/
theorem cohByte_grains {s : State} {n : Nat} (hs : Settled s) (hn : n ∈ [32, 128, 512]) (h : ∀ x ∈ s.own, x.2.size = n)
    (a : Nat) : cohByte s a 0 = ((dirtyAt n s.own a).map Prod.fst).getD (readByte s.mem a) := by
  rw [hs.cohByte, hs.physByte, ownGrain_of_grains hn h, dirtyAt]
  cases mfind s.own (a / n * n) <;> rfl

/-- A core's write keeps its grains in order: into a grain that it owns. -/
theorem grains_mmod {n core : Nat} {own : SMap OwnGrain} (h : Grains n core own) (a : Nat) (b : Byte) :
    Grains n core (mmod own (a / n * n) fun o => { o with dirty := mset o.dirty a (b, 0) }) := by
  intro x hx
  rcases mem_mmod hx with hx | ⟨o, ho, rfl⟩
  · exact h x hx
  · obtain ⟨hbase, hsize, hcore, hwf, hin⟩ := h _ ho
    refine ⟨hbase, hsize, hcore, mwf_mset _ _ _ hwf, fun e he => ?_⟩
    rcases mem_mset _ _ _ _ he with rfl | he
    · exact ⟨rfl, rfl⟩
    · exact hin e he

/-- A core's write keeps its grains in order: into a grain that it takes. -/
theorem grains_mset {n core : Nat} (hn : 0 < n) {own : SMap OwnGrain} (h : Grains n core own) (a : Nat) (b : Byte) :
    Grains n core (mset own (a / n * n) ⟨n, core, [(a, (b, 0))]⟩) := by
  intro x hx
  rcases mem_mset _ _ _ _ hx with rfl | hx
  · refine ⟨by rw [Nat.mul_div_cancel _ hn], rfl, rfl, rfl, fun e he => ?_⟩
    rw [List.mem_singleton.1 he]
    exact ⟨rfl, rfl⟩
  · exact h x hx

/-- No grain of a block begins inside it but the block's own. -/
theorem grains_range_none {n core : Nat} (hn : 0 < n) {own : SMap OwnGrain} (h : Grains n core own) {a : Nat}
    (hno : mfind own (a / n * n) = none) :
    own.filter (fun g => decide (a / n * n ≤ g.1) && decide (g.1 < a / n * n + n)) = [] := by
  refine List.filter_eq_nil_iff.2 fun x hx hin => ?_
  simp only [Bool.and_eq_true, decide_eq_true_eq] at hin
  refine mfind_ne_none_of_mem hx ?_
  have hdiv : x.1 / n = a / n := by
    have h1 := (Nat.le_div_iff_mul_le hn).2 hin.1
    have h2 : x.1 / n < a / n + 1 := (Nat.div_lt_iff_lt_mul hn).2 (by rw [Nat.add_mul, Nat.one_mul]; exact hin.2)
    omega
  rw [← (h x hx).1, hdiv, hno]

/-- Bytes written under OWN are what their owner holds (R64). -/
theorem ownWrite_grains {n core : Nat} (hn : n ∈ [32, 128, 512]) (ws : List (Nat × Byte)) {s : State} (hs : Settled s)
    (h : Grains n core s.own) :
    ∃ own, ownWrite s core n ws 0 = { s with own } ∧ Grains n core own
      ∧ ∀ a, dirtyAt n own a = ws.foldl (fun d w => if a = w.1 then some (w.2, 0) else d) (dirtyAt n s.own a) := by
  have hpos : 0 < n := by
    simp only [List.mem_cons, List.not_mem_nil, or_false] at hn
    omega
  induction ws generalizing s with
  | nil => exact ⟨s.own, rfl, h, fun _ => rfl⟩
  | cons w r ih =>
    have hstep : ∃ own, ownWrite s core n [w] 0 = { s with own } ∧ Grains n core own
        ∧ ∀ a, dirtyAt n own a = if a = w.1 then some (w.2, 0) else dirtyAt n s.own a := by
      have hfrom : recallFrom s w.1 (some core) = s := by
        unfold recallFrom
        rw [hs.canonA, ownGrain_of_grains hn h.size]
        cases hf : mfind s.own (w.1 / n * n) with
        | none => rfl
        | some o => exact if_pos (congrArg some (h _ (mem_of_mfind hf)).2.2.1)
      unfold ownWrite
      simp only [List.foldl_cons, List.foldl_nil, hs.notePool, hs.homeOf, hfrom, ownGrain_of_grains hn h.size]
      cases hf : mfind s.own (w.1 / n * n) with
      | none =>
        have hrange : recallRange s (w.1 / n * n) n = s := by
          unfold recallRange
          rw [grains_range_none hpos h hf]
          rfl
        refine ⟨mset s.own (w.1 / n * n) ⟨n, core, [(w.1, (w.2, 0))]⟩, ?_, grains_mset hpos h _ _, fun a => ?_⟩
        · simp only [Option.map_none, hrange]
        · unfold dirtyAt
          by_cases hb : a / n * n = w.1 / n * n
          · rw [hb, mfind_mset_self, hf]
            by_cases ha : a = w.1
            · simp [ha, mfind]
            · simp [ha, mfind, Ne.symm ha]
          · rw [mfind_mset_other _ _ _ _ hb, if_neg fun ha => hb (by rw [ha])]
      | some o =>
        refine ⟨mmod s.own (w.1 / n * n) fun o => { o with dirty := mset o.dirty w.1 (w.2, 0) }, rfl, grains_mmod h _ _,
          fun a => ?_⟩
        unfold dirtyAt
        rw [mfind_mmod]
        by_cases hb : a / n * n = w.1 / n * n
        · rw [if_pos hb, hb, hf]
          by_cases ha : a = w.1
          · simp [ha]
          · simp [ha, mfind_mset_other]
        · rw [if_neg hb, if_neg fun ha => hb (by rw [ha])]
    obtain ⟨own, hw, hgr, hd⟩ := hstep
    obtain ⟨own', hw', hgr', hd'⟩ := ih (s := { s with own }) ⟨hs.pools, hs.mig, hs.reqs⟩ hgr
    refine ⟨own', ?_, hgr', fun a => ?_⟩
    · have hcons : ownWrite s core n (w :: r) 0 = ownWrite (ownWrite s core n [w] 0) core n r 0 := rfl
      rw [hcons, hw, hw']
    · rw [hd', List.foldl_cons]
      exact congrArg (List.foldl _ · r) (hd a)

/-- The last of a run of bytes written to an address, one address after another. -/
theorem foldl_last_write (bs : List Byte) (d : Option (Byte × Nat)) (x a : Nat) :
    ((rangeFrom x bs.length).zip bs).foldl (fun d w => if a = w.1 then some (w.2, 0) else d) d
      = if x ≤ a ∧ a < x + bs.length then some (bs.getD (a - x) 0, 0) else d := by
  induction bs generalizing x d with
  | nil => exact (if_neg (by simp only [List.length_nil]; omega)).symm
  | cons b r ih =>
    rw [List.length_cons, rangeFrom, List.zip_cons_cons, List.foldl_cons, ih]
    by_cases hy : a = x
    · subst hy
      rw [if_neg (by omega), if_pos rfl, if_pos (by omega), Nat.sub_self, List.getD_cons_zero]
    · rw [if_neg hy]
      by_cases hin : x + 1 ≤ a ∧ a < x + 1 + r.length
      · rw [if_pos hin, if_pos (by omega), show a - x = a - (x + 1) + 1 by omega, List.getD_cons_succ]
      · rw [if_neg hin, if_neg (by omega)]

/-- A grain that comes home changes nothing that a reader sees (R65). -/
theorem cohByte_recallGrain {s : State} {n core : Nat} (hs : Settled s) (hn : n ∈ [32, 128, 512]) (h : Grains n core s.own)
    (g a : Nat) : cohByte (recallGrain s g) a 0 = cohByte s a 0 := by
  cases hf : mfind s.own g with
  | none => rw [recallGrain, hf]
  | some o =>
    obtain ⟨-, -, -, hwf, hin⟩ := h _ (mem_of_mfind hf)
    have hgr : Grains n core (mdel s.own g) := fun x hx => h x (mem_mdel _ _ _ hx)
    rw [hs.recallGrain hf fun e he => (hin e he).2, cohByte_grains hs hn h.size,
      cohByte_grains (s := { s with own := mdel s.own g, mem := _ }) ⟨hs.pools, hs.mig, hs.reqs⟩ hn hgr.size]
    dsimp only
    rw [readByte_foldl_entries (nodup_of_mwf hwf)]
    unfold dirtyAt
    by_cases hg : a / n * n = g
    · rw [hg, mfind_mdel_self, hf]
      rfl
    · rw [mfind_mdel_other _ _ _ hg]
      have hno : mfind o.dirty a = none :=
        Option.eq_none_iff_forall_ne_some.2 fun v hv => hg (hin _ (mem_of_mfind hv)).1
      rw [hno]
      rfl

end Sys2Proof.Machine
end

section
/-!
SUPPORT. What a write and a commit leave alone on their way to device memory: the notes that they take of a task's code, of poison,
of conversions and of copies change neither a stored byte nor a version. The statements about versions, page views and homes build
on it.
-/

namespace Sys2Proof.Machine

/-- What coherent readers read from stays. -/
structure SameStore (s t : State) : Prop where
  mem   : t.mem = s.mem
  own   : t.own = s.own
  pools : t.pools = s.pools
  mgmt  : t.mgmt = s.mgmt

/-- The versions and taints of the tasks that are there stay, and so do their cards. -/
def SameVersions (s t : State) : Prop :=
  ∀ p tid k, findTask s p tid = some k → ∃ k', findTask t p tid = some k' ∧ k'.card = k.card ∧ k'.ver = k.ver ∧ k'.taint = k.taint

namespace SameStore

theorem refl (s : State) : SameStore s s := ⟨rfl, rfl, rfl, rfl⟩

theorem trans {s t u : State} (h : SameStore s t) (k : SameStore t u) : SameStore s u :=
  ⟨k.mem.trans h.mem, k.own.trans h.own, k.pools.trans h.pools, k.mgmt.trans h.mgmt⟩

variable {s t : State} (h : SameStore s t)
include h

theorem settled (hs : Settled s) : Settled t :=
  ⟨h.pools.trans hs.pools, (congrArg Mgmt.mig h.mgmt).trans hs.mig, (congrArg Mgmt.reqs h.mgmt).trans hs.reqs⟩

theorem canonA (a : Nat) : canonA t a = Machine.canonA s a := by simp only [Machine.canonA, homeOf, h.mgmt]

/-- Readers see the same bytes. -/
theorem cohByte (hs : Settled s) (a key : Nat) : cohByte t a key = Machine.cohByte s a key := by
  have hno : ∀ x, poolOwns s x = false := fun x => by rw [poolOwns, hs.pools]; rfl
  have hno' : ∀ x, poolOwns t x = false := fun x => by rw [poolOwns, h.pools, hs.pools]; rfl
  have hphys : physByte t a key = physByte s a key := by simp only [physByte, hno, hno', Bool.false_eq_true, if_false, keyPair, h.mem, h.mgmt]
  have hgrain : ownGrain t a = ownGrain s a := by simp only [ownGrain, h.own]
  rw [(h.settled hs).cohByte, hs.cohByte, hphys, hgrain]

end SameStore

namespace SameVersions

theorem refl (s : State) : SameVersions s s := fun _ _ k hk => ⟨k, hk, rfl, rfl, rfl⟩

theorem trans {s t u : State} (h : SameVersions s t) (h' : SameVersions t u) : SameVersions s u := by
  intro p tid k hk
  obtain ⟨k₁, hk₁, hcard, hver, htaint⟩ := h p tid k hk
  obtain ⟨k₂, hk₂, hcard', hver', htaint'⟩ := h' p tid k₁ hk₁
  exact ⟨k₂, hk₂, hcard'.trans hcard, hver'.trans hver, htaint'.trans htaint⟩

/-- Where the partitions stay, so do the tasks. -/
theorem of_parts {s t : State} (h : t.parts = s.parts) : SameVersions s t := fun p tid k hk =>
  ⟨k, by rw [findTask, getPart, h]; exact hk, rfl, rfl, rfl⟩

end SameVersions

/-- A task whose identifier alone stands in a window is found there. -/
theorem findTask_of_filter {s : State} {p tid : Nat} {k : Task}
    (h : ((getPart s p).window.filter fun x => x.tid == tid) = [k]) : findTask s p tid = some k := by
  rw [findTask, ← List.head?_filter, h]
  rfl

/-- A found task is the task. -/
theorem getTask_of_find {s : State} {p tid : Nat} {k : Task} (h : findTask s p tid = some k) : getTask s p tid = k := by
  rw [getTask, h]
  rfl

/-- The version of a versioned task. -/
theorem versionOf_of_find {s : State} {c : Acc} {k : Task} (h : findTask s c.p c.tid = some k) (hv : k.card.ver = true) :
    versionOf s c = k.ver := by
  rw [versionOf, getTask_of_find h]
  exact if_pos hv

/-- A change of one task leaves the versions of the others. -/
theorem findTask_modTask_of_ne {s : State} {p tid p' tid' : Nat} {F : Task → Task} (hF : ∀ t, (F t).tid = t.tid)
    (h : p' ≠ p ∨ tid' ≠ tid) : findTask (modTask s p tid F) p' tid' = findTask s p' tid' := by
  by_cases hp : p' = p
  · subst hp
    exact findTask_modTask_other _ (Ne.symm (h.resolve_left (absurd rfl))) hF
  · rw [findTask, modTask, getPart_modPart_other _ _ _ _ hp]
    rfl

/-! ### Poison, copies, counts and code -/

theorem clearPoison_store (s : State) (as : List Nat) : SameStore s (clearPoison s as) ∧ SameVersions s (clearPoison s as) := by
  unfold clearPoison
  split
  · exact ⟨.refl s, .refl s⟩
  · exact ⟨⟨rfl, rfl, rfl, rfl⟩, .of_parts rfl⟩

theorem dropSectors_store (s : State) (hit : Nat → Bool) : SameStore s (dropSectors s hit) ∧ SameVersions s (dropSectors s hit) := by
  unfold dropSectors
  split
  · exact ⟨.refl s, .refl s⟩
  · exact ⟨⟨rfl, rfl, rfl, rfl⟩, .of_parts rfl⟩

theorem dropViews_store (s : State) (l : Leaf) (phys : List Nat) :
    SameStore s (dropViews s l phys) ∧ SameVersions s (dropViews s l phys) := by
  unfold dropViews
  dsimp only
  obtain ⟨hstore, hver⟩ := dropSectors_store s fun k =>
    siView k != viewOf l && (siPhys s k).any fun a => (phys.map (· / 512)).eraseDups.contains (a / 512)
  split
  · exact ⟨hstore, hver⟩
  · exact ⟨hstore.trans ⟨rfl, rfl, rfl, rfl⟩, hver.trans (.of_parts rfl)⟩

/-- The copies that a write updates or drops are nothing but copies. -/
theorem siWrite_store (s : State) (core : Nat) (l : Leaf) (off : Nat) (bs : List Byte) (phys : List Nat) :
    SameStore s (siWrite s core l off bs phys) ∧ SameVersions s (siWrite s core l off bs phys) := by
  obtain ⟨hstore, hver⟩ := dropViews_store s l phys
  unfold siWrite
  dsimp only
  split
  · exact ⟨hstore, hver⟩
  · split
    · exact ⟨hstore.trans ((dropSectors_store _ _).1.trans ⟨rfl, rfl, rfl, rfl⟩),
        hver.trans ((dropSectors_store _ _).2.trans (.of_parts rfl))⟩
    · exact ⟨hstore.trans (dropSectors_store _ _).1, hver.trans (dropSectors_store _ _).2⟩

/-- A partition whose tasks change, but not in their identifiers, cards, versions and taints. -/
theorem modWindow_versions (s : State) (p : Nat) (f : Task → Task)
    (h : ∀ t, (f t).tid = t.tid ∧ (f t).card = t.card ∧ (f t).ver = t.ver ∧ (f t).taint = t.taint) :
    SameVersions s (modPart s p fun q => { q with window := q.window.map f }) := by
  intro p' tid k hk
  by_cases hp : p' = p
  · subst hp
    refine ⟨f k, ?_, (h k).2⟩
    rw [findTask, getPart_modPart_self, List.find?_map,
      show ((fun t : Task => t.tid == tid) ∘ f) = fun t => t.tid == tid from funext fun t => by rw [Function.comp, (h t).1]]
    exact congrArg (Option.map f) hk
  · exact ⟨k, by rw [findTask, getPart_modPart_other _ _ _ _ hp]; exact hk, rfl, rfl, rfl⟩

/-- Tasks that keep their code keep their versions. -/
theorem noteCode_store (s : State) (p : Nat) (phys : List Nat) :
    SameStore s (noteCode s p phys) ∧ SameVersions s (noteCode s p phys) := by
  unfold noteCode
  split
  · exact ⟨.refl s, .refl s⟩
  · refine ⟨⟨rfl, rfl, rfl, rfl⟩, modWindow_versions s p _ fun t => ?_⟩
    unfold keepCode
    split <;> exact ⟨rfl, rfl, rfl, rfl⟩

theorem countSat_store (s : State) (p n : Nat) : SameStore s (countSat s p n) ∧ SameVersions s (countSat s p n) := by
  unfold countSat
  split
  · exact ⟨.refl s, .refl s⟩
  · refine ⟨⟨rfl, rfl, rfl, rfl⟩, fun p' tid k hk => ⟨k, ?_, rfl, rfl, rfl⟩⟩
    rw [← hk, findTask, findTask]
    by_cases hp : p' = p
    · subst hp
      rw [getPart_modPart_self]
    · rw [getPart_modPart_other _ _ _ _ hp]

theorem taintTask_store (s : State) (c : Acc) : SameStore s (taintTask s c) := by
  unfold taintTask
  split <;> exact ⟨rfl, rfl, rfl, rfl⟩

/-- What a write does to the bytes themselves (R64): under OWN the core holds them, else they reach their homes. -/
def performWrite (s : State) (c : Acc) (l : Leaf) (ws : List (Nat × Byte)) (req : Nat) : State :=
  if l.sf = 0 && reqOf req l == 1 then ownWrite s c.core (grainBytes l.gr) ws l.key else homeWrite s ws l.key

/-- A direct write on a page of this device is its performance, between notes that change no stored byte. -/
theorem writeUnit_direct {s : State} {c : Acc} {l : Leaf} {va : Nat} {bs : List Byte} {req : Nat} (hs : Settled s)
    (hdom : l.domain = false)
    (hrs : (getTask s c.p c.tid).card.ver = true →
      verRegions (getTask s c.p c.tid) (writtenRange l va bs.length).1 (writtenRange l va bs.length).2 = []) :
    ∃ s1, SameStore s s1 ∧ SameVersions (taintTask s c) s1 ∧ SameRun s s1 ∧
      let s2 := performWrite s1 c l (encodeWrite (storedByte (taintTask s c) [] l.key) l (pageOff l va) bs).1 req
      let t := writeUnit s c l va bs req
      SameStore s2 t ∧ SameVersions s2 t ∧ t.groups = s2.groups ∧ t.teams = s2.teams := by
  have hcond : (if (getTask s c.p c.tid).card.ver then verRegions (getTask s c.p c.tid) (writtenRange l va bs.length).1
      (writtenRange l va bs.length).2 else []) = [] := by
    split
    · next hv => exact hrs hv
    · rfl
  unfold writeUnit
  simp only [hcond, List.isEmpty_nil, Bool.not_true, Bool.false_eq_true, if_false, hdom]
  rw [show (if (getTask s c.p c.tid).card.ver then modTask s c.p c.tid fun t => { t with taint := true } else s)
    = taintTask s c from rfl]
  generalize encodeWrite (storedByte (taintTask s c) [] l.key) l (pageOff l va) bs = w
  simp only [(noteCode_store (taintTask s c) c.p _).1.canonA]
  generalize w.1.map (fun x => canonA (taintTask s c) x.1) = phys
  obtain ⟨hnote, hnotev⟩ := noteCode_store (taintTask s c) c.p phys
  obtain ⟨hcount, hcountv⟩ := countSat_store (noteCode (taintTask s c) c.p phys) c.p w.2
  obtain ⟨hclear, hclearv⟩ := clearPoison_store (countSat (noteCode (taintTask s c) c.p phys) c.p w.2) phys
  have hstore := (taintTask_store s c).trans (hnote.trans (hcount.trans hclear))
  rw [(hstore.settled hs).adoptPages]
  have hrun : SameRun s (taintTask s c) := by
    unfold taintTask
    split
    · exact modWindow_same s c.p _ fun t => by split <;> exact ⟨rfl, rfl⟩
    · exact .refl s
  obtain ⟨hsi, hsiv⟩ := siWrite_store (performWrite (clearPoison (countSat (noteCode (taintTask s c) c.p phys) c.p w.2) phys) c l w.1
    req) c.core l (pageOff l va) bs phys
  have hsir := siWrite_same (performWrite (clearPoison (countSat (noteCode (taintTask s c) c.p phys) c.p w.2) phys) c l w.1
    req) c.core l (pageOff l va) bs phys
  exact ⟨_, hstore, hnotev.trans (hcountv.trans hclearv),
    hrun.trans ((noteCode_same _ _ _).trans ((countSat_same _ _ _).trans (clearPoison_same _ _))),
    hsi, hsiv, hsir.groups, hsir.teams⟩

/-- What lies between a home and its memory stays as it was. -/
theorem calm_of_same {s t : State} (h : Calm s) (hstore : SameStore s t) (hrun : SameRun s t) : Calm t :=
  ⟨hrun.poison h.1, hstore.pools.trans h.2.1, (congrArg Mgmt.mig hstore.mgmt).trans h.2.2.1,
    (congrArg Mgmt.reqs hstore.mgmt).trans h.2.2.2.1, hstore.own.trans h.2.2.2.2⟩

/-- Bytes written under no key on a RAW page are what every reader sees, whether their core owns them or they went home. -/
theorem cohByte_performWrite {s : State} (hs : Calm s) (c : Acc) {l : Leaf} (a : Nat) (bs : List Byte)
    (req : Nat) (hk : l.key = 0) :
    let t := performWrite s c l ((rangeFrom a bs.length).zip bs) req
    t.parts = s.parts ∧ Settled t ∧ Grains (grainBytes l.gr) c.core t.own
    ∧ (∀ x, cohByte t x 0 = if a ≤ x ∧ x < a + bs.length then bs.getD (x - a) 0 else readByte s.mem x)
    ∧ (l.sf = 0 → reqOf req l = 1 → t.mem = s.mem) := by
  have hset := settled_of_calm hs
  obtain ⟨-, -, -, -, hown⟩ := id hs
  have hn : grainBytes l.gr ∈ [32, 128, 512] := by
    unfold grainBytes
    split
    · decide
    · split <;> decide
  have hgr : Grains (grainBytes l.gr) c.core s.own := by
    rw [hown]
    exact fun x hx => absurd hx List.not_mem_nil
  unfold performWrite
  rw [hk]
  split
  · obtain ⟨own, hw, hgrains, hdirty⟩ := ownWrite_grains hn ((rangeFrom a bs.length).zip bs) hset hgr
    rw [hw]
    have hset' : Settled { s with own := own } := ⟨hset.pools, hset.mig, hset.reqs⟩
    refine ⟨rfl, hset', hgrains, fun x => ?_, fun _ _ => rfl⟩
    have hnone : dirtyAt (grainBytes l.gr) s.own x = none := by
      rw [dirtyAt, hown]
      rfl
    rw [cohByte_grains hset' hn hgrains.size, hdirty, foldl_last_write, hnone]
    split <;> rfl
  · next hno =>
    rw [homeWrite_calm hs]
    have hcalm : Calm { s with mem := ((rangeFrom a bs.length).zip bs).foldl (fun m w => writeByte m w.1 w.2) s.mem } := hs
    refine ⟨rfl, settled_of_calm hcalm, hgr, fun x => ?_, fun hsf hreq => absurd ?_ hno⟩
    · rw [cohByte_calm hcalm, readByte_writes]
    · simp [hsf, hreq]

end Sys2Proof.Machine
end

section
/-!
O50. A write of a versioned task within one line is one unit: it enters the version, which its quota and log hold, or goes past it
and taints the task; the commit stores the version's bytes one after another.
-/

namespace Sys2Proof.Machine

/-! ### One line -/

/-- A range within one line lies in one line of its page. -/
theorem pageOff_line (l : Leaf) {va n : Nat} (hn : 0 < n) (h : va / 64 = (va + n - 1) / 64) :
    (pageOff l va + n - 1) / 64 = pageOff l va / 64 := by
  have hbase : pageBase l va % 64 = 0 ∧ pageBase l va ≤ va := by
    unfold pageBase
    split <;> omega
  unfold pageOff
  omega

/-- A write of a versioned task within one line is one unit. -/
theorem writeAt_line {s : State} {c : Acc} {l : Leaf} {va : Nat} {bs : List Byte} (req : Nat) (hsf : l.sf = 0)
    (hne : bs ≠ []) (h : va / 64 = (va + bs.length - 1) / 64) : writeAt s c l va bs req = writeUnit s c l va bs req := by
  have hpos := List.length_pos_iff.2 hne
  have hunit : verUnit l = 64 := if_pos (.inl hsf)
  have hpieces : blockPieces 64 (bs.length / 64 + 2) va bs.length = [(va, bs.length)] := by
    simp only [blockPieces]
    rw [if_neg (by omega), show min bs.length (64 - va % 64) = bs.length by omega, Nat.sub_self, if_pos rfl]
  unfold writeAt
  rw [hunit, hpieces]
  simp

/-- On a RAW page exactly the bytes named are written. -/
theorem writtenRange_raw {l : Leaf} (va n : Nat) (h : l.sf = 0) : writtenRange l va n = (va, n) := by
  unfold writtenRange
  rw [if_pos (.inl h)]
  simp

theorem writtenLines_line {l : Leaf} (s : State) {va n : Nat} (hsf : l.sf = 0) (hdom : l.domain = false) (hn : 0 < n)
    (h : va / 64 = (va + n - 1) / 64) : (writtenLines s l va n).length = 1 := by
  have hne : n ≠ 0 := by omega
  unfold writtenLines
  rw [writtenRange_raw va n hsf, linesOf]
  simp only [hdom, hne, Bool.false_eq_true, or_false, if_false, List.length_map, rangeFrom_length, pageOff_line l hn h]
  omega

/-! ### Into the version -/

/-- The lines of tasks grow by at most one where one task takes one more. -/
theorem foldl_lines_le (ts : List Task) (tid d : Nat) (F : Task → Task) (hF : ∀ t, (F t).lines.length ≤ t.lines.length + d)
    {n m e : Nat} (h : n ≤ m + e) :
    ((ts.map fun t => if t.tid = tid then F t else t).map fun t => t.lines.length).foldl (· + ·) n
      ≤ (ts.map fun t => t.lines.length).foldl (· + ·) m + (e + d * (ts.filter fun t => t.tid == tid).length) := by
  induction ts generalizing n m e with
  | nil => simpa using h
  | cons t r ih =>
    simp only [List.map_cons, List.foldl_cons]
    have hlen := hF t
    by_cases ht : t.tid = tid
    · rw [if_pos ht, List.filter_cons_of_pos (by simp [ht]), List.length_cons]
      have hstep := @ih (n + (F t).lines.length) (m + t.lines.length) (e + d) (by omega)
      have hmul : d * ((r.filter fun t => t.tid == tid).length + 1) = d * (r.filter fun t => t.tid == tid).length + d :=
        Nat.mul_succ _ _
      omega
    · rw [if_neg ht, List.filter_cons_of_neg (by simp [ht])]
      exact ih (by omega)

/-- One more line is at most one more. -/
theorem foldl_lines_length (xs ls : List Nat) :
    (xs.foldl (fun m x => if m.contains x then m else x :: m) ls).length ≤ ls.length + xs.length := by
  induction xs generalizing ls with
  | nil => exact Nat.le_refl _
  | cons x r ih =>
    rw [List.foldl_cons, List.length_cons]
    have hstep := ih (if ls.contains x then ls else x :: ls)
    have hone : (if ls.contains x then ls else x :: ls).length ≤ ls.length + 1 := by
      split
      · omega
      · exact Nat.le_refl _
    omega

/-- A task after its version and lines have grown. -/
def Task.grown (lines : List Nat) (ws : List (Nat × Byte × Nat)) (t : Task) : Task :=
  { t with ver := ws.foldl (fun m w => mset m w.1 w.2) t.ver
           lines := lines.foldl (fun m x => if m.contains x then m else x :: m) t.lines }

/-- Where quota and log have room, bytes enter the version. -/
theorem versionWrite_room {s : State} {p tid : Nat} {k : Task} {lines : List Nat} (ws : List (Nat × Byte × Nat))
    (hk : ((getPart s p).window.filter fun x => x.tid == tid) = [k])
    (hroom : versionLines s p + lines.length ≤ (getPart s p).vquota + (getPart s p).vloglen) :
    ∃ n : Partition → Nat, versionWrite s p tid lines ws = modPart (modTask s p tid (Task.grown lines ws)) p fun q => { q with spilled := n q } := by
  have hgrow : versionLines (modTask s p tid (Task.grown lines ws)) p ≤ versionLines s p + lines.length := by
    have h := foldl_lines_le (getPart s p).window tid lines.length (Task.grown lines ws) (fun t => foldl_lines_length lines t.lines)
      (n := 0) (m := 0) (e := 0) (Nat.le_refl _)
    rw [hk] at h
    unfold versionLines modTask
    rw [getPart_modPart_self]
    simpa using h
  have hquota : (getPart (modTask s p tid (Task.grown lines ws)) p).vquota = (getPart s p).vquota
      ∧ (getPart (modTask s p tid (Task.grown lines ws)) p).vloglen = (getPart s p).vloglen := by
    unfold modTask
    rw [getPart_modPart_self]
    exact ⟨rfl, rfl⟩
  unfold versionWrite
  dsimp only
  rw [if_neg]
  · exact ⟨_, rfl⟩
  · rw [show (fun t : Task => { t with
        ver := ws.foldl (fun m w => mset m w.1 w.2) t.ver
        lines := lines.foldl (fun m x => if m.contains x then m else x :: m) t.lines }) = Task.grown lines ws from rfl]
    omega

/-- Tasks are found as before where a partition changes in its count of spilled lines. -/
theorem findTask_spilled (s : State) (p : Nat) (n : Partition → Nat) (p' tid : Nat) :
    findTask (modPart s p fun q => { q with spilled := n q }) p' tid = findTask s p' tid := by
  unfold findTask
  by_cases hp : p' = p
  · subst hp
    rw [getPart_modPart_self]
  · rw [getPart_modPart_other _ _ _ _ hp]

/-- A write into the version of a task (R152): nobody else sees it, and the task reads it. -/
theorem writeUnit_versioned {s : State} {c : Acc} {k : Task} {l : Leaf} {va : Nat} {bs : List Byte} (req : Nat) (hs : Calm s)
    (hk : ((getPart s c.p).window.filter fun x => x.tid == c.tid) = [k]) (hv : k.card.ver = true) (hsf : l.sf = 0)
    (hdom : l.domain = false) (hne : bs ≠ []) (hline : va / 64 = (va + bs.length - 1) / 64)
    (hrs : verRegions k va bs.length ≠ []) (hset : ∀ r ∈ verRegions k va bs.length, r ∉ k.settled)
    (hroom : versionLines s c.p + 2 ≤ (getPart s c.p).vquota + (getPart s c.p).vloglen) :
    let t := writeUnit s c l va bs req
    let pa := l.frame + pageOff l va
    SameStore s t ∧ (∀ p tid, p ≠ c.p ∨ tid ≠ c.tid → findTask t p tid = findTask s p tid)
    ∧ ∃ lines, findTask t c.p c.tid = some
        (Task.grown lines (((rangeFrom pa bs.length).zip bs).map fun w => (w.1, w.2, l.key)) k) := by
  have hfind := findTask_of_filter hk
  have hpos := List.length_pos_iff.2 hne
  have hsettled := settled_of_calm hs
  have hopen : (verRegions k va bs.length).find? k.settled.contains = none :=
    List.find?_eq_none.2 fun r hr => by simpa using hset r hr
  have hwords : (encodeWrite (storedByte s k.ver l.key) l (pageOff l va) bs)
      = ((rangeFrom (l.frame + pageOff l va) bs.length).zip bs, 0) := by
    unfold encodeWrite
    exact if_pos hsf
  have hcount : countSat s c.p 0 = s := rfl
  obtain ⟨n, hwrite⟩ := versionWrite_room (lines := writtenLines s l va bs.length)
    (((rangeFrom (l.frame + pageOff l va) bs.length).zip bs).map fun w => (w.1, w.2, l.key)) hk
    (by rw [writtenLines_line s hsf hdom hpos hline]; omega)
  have hunit : writeUnit s c l va bs req = versionWrite s c.p c.tid (writtenLines s l va bs.length)
      (((rangeFrom (l.frame + pageOff l va) bs.length).zip bs).map fun w => (w.1, w.2, l.key)) := by
    unfold writeUnit
    simp only [getTask_of_find hfind, hv, if_true, writtenRange_raw va _ hsf, List.isEmpty_eq_false_iff.2 hrs, Bool.not_false, hopen,
      hdom, Bool.false_eq_true, if_false, hwords, hcount, hsettled.homeOf]
  rw [hunit, hwrite]
  refine ⟨⟨rfl, rfl, rfl, rfl⟩, fun p tid hp => ?_, writtenLines s l va bs.length, ?_⟩
  · rw [findTask_spilled]
    exact findTask_modTask_of_ne (fun _ => rfl) hp
  · rw [findTask_spilled]
    exact findTask_modTask_self hfind fun _ => rfl

/-- The version's byte at an address, once a run of bytes has entered it. -/
theorem mfind_grown (lines : List Nat) (a : Nat) (bs : List Byte) (key : Nat) (k : Task) (x : Nat) :
    mfind (Task.grown lines (((rangeFrom a bs.length).zip bs).map fun w => (w.1, w.2, key)) k).ver x
      = if a ≤ x ∧ x < a + bs.length then some (bs.getD (x - a) 0, key) else mfind k.ver x := by
  unfold Task.grown
  rw [List.foldl_map]
  exact mfind_foldl_mset_range (fun b => (b, key)) 0 bs k.ver a x

/-- A task reads what stands in its version. -/
theorem freshBytes_version {s : State} (hs : Settled s) {ver : SMap (Byte × Nat)} {l : Leaf} (off : Nat) {bs : List Byte}
    (hdom : l.domain = false) (hsf : l.sf = 0)
    (h : ∀ x, l.frame + off ≤ x → x < l.frame + off + bs.length → mfind ver x = some (bs.getD (x - (l.frame + off)) 0, l.key)) :
    freshBytes s ver l off bs.length = bs := by
  unfold freshBytes deliver
  simp only [hdom, hsf, Bool.false_eq_true, if_false, if_true]
  refine Eq.trans (List.map_congr_left fun x hx => ?_) (map_getD_rangeFrom bs (l.frame + off) 0)
  obtain ⟨hlo, hhi⟩ := (mem_rangeFrom _ _ _).1 hx
  unfold storedByte
  rw [hs.canonA, h x hlo hhi]

/-! ### Past the version -/

/-- A tainted task is the task but for its taint. -/
theorem findTask_taintTask {s : State} {c : Acc} {k : Task} (h : findTask s c.p c.tid = some k) (hv : k.card.ver = true) :
    findTask (taintTask s c) c.p c.tid = some { k with taint := true } := by
  unfold taintTask
  rw [getTask_of_find h, if_pos hv]
  exact findTask_modTask_self h fun _ => rfl

/-- A write of a versioned task outside its VERR regions (R152) is direct and taints it. -/
theorem writeUnit_taints {s : State} {c : Acc} {k : Task} {l : Leaf} {va : Nat} {bs : List Byte} (req : Nat) (hs : Calm s)
    (hfind : findTask s c.p c.tid = some k) (hv : k.card.ver = true) (hsf : l.sf = 0) (hdom : l.domain = false) (hkey : l.key = 0)
    (hrs : verRegions k va bs.length = []) :
    let t := writeUnit s c l va bs req
    let pa := l.frame + pageOff l va
    (∃ k', findTask t c.p c.tid = some k' ∧ k'.card = k.card ∧ k'.ver = k.ver ∧ k'.taint = true)
    ∧ ∀ x, cohByte t x 0 = if pa ≤ x ∧ x < pa + bs.length then bs.getD (x - pa) 0 else readByte s.mem x := by
  have hregions : (getTask s c.p c.tid).card.ver = true →
      verRegions (getTask s c.p c.tid) (writtenRange l va bs.length).1 (writtenRange l va bs.length).2 = [] := by
    intro _
    rw [getTask_of_find hfind, writtenRange_raw va _ hsf]
    exact hrs
  obtain ⟨s1, hstore, hver, hrun, hstore', hver', -, -⟩ := writeUnit_direct (req := req) (settled_of_calm hs) hdom hregions
  rw [show encodeWrite (storedByte (taintTask s c) [] l.key) l (pageOff l va) bs
    = ((rangeFrom (l.frame + pageOff l va) bs.length).zip bs, 0) from if_pos hsf] at hstore' hver'
  obtain ⟨hparts, hset, -, hseen, -⟩ := cohByte_performWrite (calm_of_same hs hstore hrun) c (l := l)
    (l.frame + pageOff l va) bs req hkey
  obtain ⟨k', hk', hcard, hkver, htaint⟩ := hver.trans ((SameVersions.of_parts hparts).trans hver') _ _ _ (findTask_taintTask hfind hv)
  refine ⟨⟨k', hk', hcard, hkver, htaint⟩, fun x => ?_⟩
  rw [hstore'.cohByte hset, hseen, hstore.mem]

/-! ### The commit -/

/-- The bytes of a version go home one after another. -/
theorem foldl_commit {s : State} (hs : Calm s) {ver : SMap (Byte × Nat)} (h : ∀ e ∈ ver, e.1 < 2 ^ 60 ∧ e.2.2 = 0) :
    ver.foldl (fun acc e => if e.1 ≥ 2 ^ 60 then { acc with remote := mset acc.remote (e.1 - 2 ^ 60) e.2.1 }
      else homeWriteByte acc e.1 e.2.2 e.2.1) s
      = { s with mem := ver.foldl (fun m e => writeByte m e.1 e.2.1) s.mem } := by
  induction ver generalizing s with
  | nil => rfl
  | cons e r ih =>
    obtain ⟨hlt, hkey⟩ := h e List.mem_cons_self
    rw [List.foldl_cons, if_neg (by omega), hkey, homeWriteByte_calm hs]
    exact ih (s := { s with mem := writeByte s.mem e.1 e.2.1 }) hs fun e he => h e (List.mem_cons_of_mem _ he)

/-- A task that gives up its version has none, whether it is there or not. -/
theorem getTask_emptied (s : State) (p tid : Nat) :
    let t := modTask s p tid fun t => { t with ver := [], lines := [] }
    (getTask t p tid).ver = [] ∧ (getTask t p tid).lines = [] := by
  dsimp only
  cases h : findTask s p tid with
  | some k =>
    rw [getTask_of_find (findTask_modTask_self (F := fun t => { t with ver := [], lines := [] }) h fun _ => rfl)]
    exact ⟨rfl, rfl⟩
  | none =>
    have hno : findTask (modTask s p tid fun t => { t with ver := [], lines := [] }) p tid = none := by
      rw [findTask, modTask, getPart_modPart_self]
      refine List.find?_eq_none.2 fun t ht => ?_
      obtain ⟨t', ht', rfl⟩ := List.mem_map.1 ht
      have hne := List.find?_eq_none.1 h t' ht'
      split <;> exact hne
    unfold getTask
    rw [hno]
    exact ⟨rfl, rfl⟩

/-- The commit (R117, R154): every byte of the version is what all read, and no other changes. -/
theorem commitVersion_publishes {s : State} {p tid : Nat} {k : Task} (hs : Calm s) (hfind : findTask s p tid = some k)
    (hnodup : (mkeys k.ver).Nodup) (hver : ∀ e ∈ k.ver, e.1 < 2 ^ 60 ∧ e.2.2 = 0) :
    let t := commitVersion s p tid
    (∀ x, cohByte t x 0 = ((mfind k.ver x).map Prod.fst).getD (readByte s.mem x))
    ∧ (getTask t p tid).ver = [] ∧ (getTask t p tid).lines = [] ∧ t.groups = s.groups ∧ t.teams = s.teams := by
  have hnear : k.ver.filter (2 ^ 60 ≤ ·.1) = [] :=
    List.filter_eq_nil_iff.2 fun e he => by simpa using (hver e he).1
  unfold commitVersion
  dsimp only
  rw [getTask_of_find hfind, hnear]
  simp only [List.map_nil, runsOf, List.foldl_nil, List.foldr_nil]
  generalize (k.ver.map Prod.fst).filter (· < 2 ^ 60) = phys
  generalize (k.ver.map fun e => if e.1 ≥ 2 ^ 60 then e.1 - 2 ^ 60 else e.1) = addrs
  obtain ⟨hnote, -⟩ := noteCode_store s p phys
  have hrun := noteCode_same s p phys
  have hcalm := calm_of_same hs hnote hrun
  rw [(settled_of_calm hcalm).adoptPages, foldl_commit hcalm hver]
  generalize hstored : ({ noteCode s p phys with
    mem := k.ver.foldl (fun m e => writeByte m e.1 e.2.1) (noteCode s p phys).mem } : State) = s1
  have hcalm1 : Calm s1 := by rw [← hstored]; exact hcalm
  have hdrop : SameStore s1 (dropBlocks (clearPoison s1 phys) addrs) :=
    (clearPoison_store s1 phys).1.trans (dropSectors_store _ _).1
  have hdropr : SameRun s1 (dropBlocks (clearPoison s1 phys) addrs) :=
    (clearPoison_same s1 phys).trans (dropSectors_same _ _)
  obtain ⟨hv, hl⟩ := getTask_emptied (dropBlocks (clearPoison s1 phys) addrs) p tid
  refine ⟨fun x => ?_, hv, hl, ?_, ?_⟩
  · have hlast : SameStore s1 (modTask (dropBlocks (clearPoison s1 phys) addrs) p tid fun t => { t with ver := [], lines := [] }) :=
      hdrop.trans ⟨rfl, rfl, rfl, rfl⟩
    rw [hlast.cohByte (settled_of_calm hcalm1), cohByte_calm hcalm1, ← hstored, ← hnote.mem]
    exact readByte_foldl_entries hnodup _ _
  · exact hdropr.groups.trans (hstored ▸ hrun.groups)
  · exact hdropr.teams.trans (hstored ▸ hrun.teams)

/-- Settles O50: one unit of a write enters the version or taints, and the commit stores the version's bytes. -/
theorem versions : Obligations.Versions := by
  unfold Obligations.Versions
  refine ⟨fun s c k l va bs req hs hk hv hsf hdom hkey _ hne hline => ?_, fun s p tid k hs hk hnodup hver =>
    commitVersion_publishes hs (findTask_of_filter hk) hnodup hver⟩
  rw [writeAt_line req hsf hne hline]
  have hfind := findTask_of_filter hk
  refine ⟨fun hrs hset hroom => ?_, fun hrs => ?_⟩
  · obtain ⟨hstore, hothers, lines, hself⟩ := writeUnit_versioned req hs hk hv hsf hdom hne hline hrs hset hroom
    have hversion := versionOf_of_find (c := c) hself hv
    refine ⟨hstore.mem, hstore.cohByte (settled_of_calm hs), fun d hd => ?_, ?_, fun x hx => ?_, ?_⟩
    · rw [versionOf, getTask, hothers _ _ hd]
      rfl
    · rw [hversion]
      exact freshBytes_version (hstore.settled (settled_of_calm hs)) _ hdom hsf fun x hlo hhi => by
        rw [mfind_grown, if_pos ⟨hlo, hhi⟩]
    · rw [hversion, mfind_grown, if_neg (by omega)]
    · rw [getTask_of_find hself]
      rfl
  · obtain ⟨⟨k', hk', hcard, hver, htaint⟩, hseen⟩ := writeUnit_taints req hs hfind hv hsf hdom hkey hrs
    exact ⟨by rw [getTask_of_find hk']; exact htaint, by rw [versionOf_of_find hk' (hcard ▸ hv)]; exact hver, hseen⟩

end Sys2Proof.Machine
end

section
/-!
SUPPORT. What a walk reads (R350 to R354), and the checks of accesses that all reach their pages: nothing but the TLBs and the
counter of free choices changes, and what the TLBs come to hold is what the tables say. The replay of a held access builds on it.
-/

namespace Sys2Proof.Machine

/-- What walks and reads find stays: the bytes that readers see, the tables' roots, and the granules held. -/
structure SameView (s t : State) : Prop where
  seen    : ∀ a key, cohByte t a key = cohByte s a key
  mgmt    : t.mgmt = s.mgmt
  caps    : t.caps = s.caps
  troot   : ∀ p, (getPart t p).troot = (getPart s p).troot
  s2base  : ∀ p, (getPart t p).s2base = (getPart s p).s2base
  hg      : ∀ p, (getPart t p).hg = (getPart s p).hg
  dropped : ∀ p, (getPart t p).dropped = (getPart s p).dropped

namespace SameView

/-- Where nothing of a partition changes and readers see the same bytes. -/
theorem of_parts {s t : State} (hseen : ∀ a key, cohByte t a key = cohByte s a key) (hm : t.mgmt = s.mgmt)
    (hc : t.caps = s.caps) (hp : t.parts = s.parts) : SameView s t := by
  have hpart : ∀ p, getPart t p = getPart s p := fun p => by rw [getPart, hp, getPart]
  exact ⟨hseen, hm, hc, fun p => by rw [hpart], fun p => by rw [hpart], fun p => by rw [hpart], fun p => by rw [hpart]⟩

theorem trans {s t u : State} (h : SameView s t) (k : SameView t u) : SameView s u :=
  ⟨fun a key => (k.seen a key).trans (h.seen a key), k.mgmt.trans h.mgmt, k.caps.trans h.caps,
    fun p => (k.troot p).trans (h.troot p), fun p => (k.s2base p).trans (h.s2base p), fun p => (k.hg p).trans (h.hg p),
    fun p => (k.dropped p).trans (h.dropped p)⟩

variable {s t : State} (h : SameView s t)
include h

theorem cohRead8 (a key : Nat) : cohRead8 t a key = Machine.cohRead8 s a key := by
  simp only [Machine.cohRead8, h.seen]

theorem s2At (p g : Nat) : s2At t p g = Machine.s2At s p g := by
  simp only [Machine.s2At, h.s2base]

theorem s2Entry (p g : Nat) : s2Entry t p g = Machine.s2Entry s p g := by
  simp only [Machine.s2Entry, h.s2At, h.cohRead8]

theorem holdsPhys (p a : Nat) : holdsPhys t p a = Machine.holdsPhys s p a := by
  simp only [Machine.holdsPhys, stranded, h.hg, h.dropped, h.mgmt]

theorem readEntry (p g : Nat) : readEntry t p g = Machine.readEntry s p g := by
  simp only [Machine.readEntry, h.s2At, h.s2Entry, h.holdsPhys, h.caps, h.cohRead8]

theorem leafOf (p e : Nat) (big : Bool) : leafOf t p e big = Machine.leafOf s p e big := by
  simp only [Machine.leafOf, h.s2At, h.s2Entry, h.holdsPhys]

/-- A walk finds the same. -/
theorem walk (p va : Nat) : walk t p va = Machine.walk s p va := by
  simp only [Machine.walk, h.readEntry, h.leafOf, h.troot]

/-- The checks of a leaf find the same. -/
theorem leafGate (p : Nat) (k : AccKind) (l : Leaf) (ok : Leaf → Bool) : leafGate t p k l ok = Machine.leafGate s p k l ok := by
  simp only [Machine.leafGate, leafCheck, h.holdsPhys, h.caps]

end SameView

/-! ### One page, one walk -/

/-- The leaf of an entry is of the size that its level says. -/
theorem leafOf_big {s : State} {p e : Nat} {big : Bool} {l : Leaf} (h : leafOf s p e big = .ok l) : l.big = big := by
  unfold leafOf at h
  dsimp only at h
  repeat' split at h
  all_goals cases h
  all_goals rfl

/-- The fields of an address that a walk reads depend on its page alone: of 2 MiB, or of 64 KiB. -/
theorem bitsOf_page {va va' n hi lo : Nat} (hlo : n ≤ lo) (h : va / 2 ^ n = va' / 2 ^ n) : bitsOf va hi lo = bitsOf va' hi lo := by
  have hshift : va / 2 ^ lo = va' / 2 ^ lo := by
    rw [show lo = n + (lo - n) by omega, Nat.pow_add, ← Nat.div_div_eq_div_mul, h, Nat.div_div_eq_div_mul]
  simp only [bitsOf, Nat.shiftRight_eq_div_pow, hshift]

/-- What a walk finds below the entry of its third level: the second and third field of the address have been used. -/
def walkBelow (s : State) (p e3 field : Nat) : Xlate :=
  if !bitOf e3 0 then .fault 2 1 0
  else if bitOf e3 1 then leafOf s p e3 true
  else if !tableOk e3 256 then .fault 2 1 0
  else
    match readEntry s p (bitsOf e3 51 6 * 64 + 8 * field) with
    | .error f => .fault f.1 f.2.1 f.2.2
    | .ok e4 => if !bitOf e4 0 || !bitOf e4 1 then .fault 2 1 0 else leafOf s p e4 false

/-- A 2 MiB leaf is found whatever the field below it says. -/
theorem walkBelow_big {s : State} {p e3 field : Nat} {l : Leaf} (h : walkBelow s p e3 field = .ok l) (hb : l.big = true)
    (field' : Nat) : walkBelow s p e3 field' = .ok l := by
  unfold walkBelow at h ⊢
  by_cases h0 : (!bitOf e3 0) = true
  · rw [if_pos h0] at h
    cases h
  rw [if_neg h0] at h ⊢
  by_cases h1 : bitOf e3 1 = true
  · rw [if_pos h1] at h ⊢
    exact h
  rw [if_neg h1] at h
  repeat' split at h
  · cases h
  · cases h
  · cases h
  · exact absurd ((leafOf_big h).symm.trans hb) Bool.false_ne_true

/-- Addresses of one page have one walk. -/
theorem walk_page {s : State} {p va va' : Nat} {l : Leaf} (h : walk s p va = .ok l) (hp : pageBase l va' = pageBase l va) :
    walk s p va' = .ok l := by
  have hwalk : ∀ v, walk s p v = match readEntry s p ((getPart s p).troot + 8 * bitsOf v 51 42) with
      | .error f => .fault f.1 f.2.1 f.2.2
      | .ok e1 => if !tableOk e1 8192 then .fault 2 1 0 else
        match readEntry s p (bitsOf e1 51 6 * 64 + 8 * bitsOf v 41 32) with
        | .error f => .fault f.1 f.2.1 f.2.2
        | .ok e2 => if !tableOk e2 16384 then .fault 2 1 0 else
          match readEntry s p (bitsOf e2 51 6 * 64 + 8 * bitsOf v 31 21) with
          | .error f => .fault f.1 f.2.1 f.2.2
          | .ok e3 => walkBelow s p e3 (bitsOf v 20 16) := fun _ => rfl
  have hfields : ∀ n, n ≤ 21 → va' / 2 ^ n = va / 2 ^ n →
      bitsOf va' 51 42 = bitsOf va 51 42 ∧ bitsOf va' 41 32 = bitsOf va 41 32 ∧ bitsOf va' 31 21 = bitsOf va 31 21 :=
    fun n hn hv => ⟨bitsOf_page (by omega) hv, bitsOf_page (by omega) hv, bitsOf_page hn hv⟩
  unfold pageBase at hp
  by_cases hb : l.big = true
  · rw [if_pos hb, if_pos hb] at hp
    obtain ⟨h1, h2, h3⟩ := hfields 21 (by omega) (by omega)
    rw [hwalk] at h ⊢
    rw [h1, h2, h3]
    split at h
    · cases h
    split at h
    · cases h
    next hok1 =>
    rw [if_neg hok1]
    split at h
    · cases h
    split at h
    · cases h
    next hok2 =>
    rw [if_neg hok2]
    split at h
    · cases h
    exact walkBelow_big h hb _
  · rw [if_neg hb, if_neg hb] at hp
    obtain ⟨h1, h2, h3⟩ := hfields 16 (by omega) (by omega)
    have h4 : bitsOf va' 20 16 = bitsOf va 20 16 := bitsOf_page (n := 16) (Nat.le_refl _) (by omega)
    rw [hwalk] at h ⊢
    rw [h1, h2, h3, h4]
    exact h

/-! ### What checks leave in the TLBs -/

/-- A free choice moves the counter alone. -/
theorem choose_fresh (s : State) (n : Nat) : ∃ fresh, (choose s n).2 = { s with fresh } := by
  unfold choose
  split
  · exact ⟨s.fresh, rfl⟩
  · exact ⟨_, rfl⟩

/-- A state that differs in its TLBs and its counter of choices, the new entries being as said. -/
def Filled (P : TlbEnt → Prop) (s t : State) : Prop :=
  ∃ tlb fresh, t = { s with tlb, fresh } ∧ ∀ e ∈ tlb, e ∈ s.tlb ∨ P e

namespace Filled

variable {P Q : TlbEnt → Prop} {s t u : State}

theorem refl (s : State) : Filled P s s := ⟨s.tlb, s.fresh, rfl, fun _ h => .inl h⟩

theorem of_fresh {fresh : Nat} (h : t = { s with fresh }) : Filled P s t := ⟨s.tlb, fresh, h, fun _ h => .inl h⟩

theorem trans (h : Filled P s t) (k : Filled P t u) : Filled P s u := by
  obtain ⟨tlb, fresh, rfl, hin⟩ := h
  obtain ⟨tlb', fresh', rfl, hin'⟩ := k
  exact ⟨tlb', fresh', rfl, fun e he => (hin' e he).elim (hin e) .inr⟩

theorem imp (h : Filled P s t) (hPQ : ∀ e, P e → Q e) : Filled Q s t := by
  obtain ⟨tlb, fresh, rfl, hin⟩ := h
  exact ⟨tlb, fresh, rfl, fun e he => (hin e he).imp id (hPQ e)⟩

/-- Walks and reads find the same. -/
theorem view (h : Filled P s t) (hs : Settled s) : SameView s t := by
  obtain ⟨tlb, fresh, rfl, -⟩ := h
  exact .of_parts (SameStore.cohByte ⟨rfl, rfl, rfl, rfl⟩ hs) rfl rfl rfl

/-- The TLBs hold leaves of an address as before, and new ones. -/
theorem tlbHits (h : Filled P s t) {p core team va : Nat} {l : Leaf} (hl : l ∈ tlbHits t p core team va) :
    l ∈ Machine.tlbHits s p core team va ∨ ∃ e, P e ∧ e.leaf = l ∧ e.page = pageBase l va := by
  obtain ⟨tlb, fresh, rfl, hin⟩ := h
  obtain ⟨e, he, rfl⟩ := List.mem_map.1 hl
  obtain ⟨hmem, hhit⟩ := List.mem_filter.1 he
  rcases hin e hmem with hold | hnew
  · exact .inl (List.mem_map.2 ⟨e, List.mem_filter.2 ⟨hold, hhit⟩, rfl⟩)
  · simp only [Bool.and_eq_true, beq_iff_eq] at hhit
    exact .inr ⟨e, hnew, rfl, hhit.1.2⟩

end Filled

/-- A TLB comes to hold the entry it takes, and no other. -/
theorem tlbFill_filled (s : State) (fresh : Bool) (e : TlbEnt) :
    Filled (fun x => x.leaf = e.leaf ∧ x.page = e.page) s (tlbFill s fresh e) := by
  have htake : ∀ (t : State) (old : List TlbEnt) (x : TlbEnt), Filled (fun x => x.leaf = e.leaf ∧ x.page = e.page) s t →
      (∀ y ∈ old, y ∈ t.tlb) → x.leaf = e.leaf ∧ x.page = e.page →
      Filled (fun x => x.leaf = e.leaf ∧ x.page = e.page) s { t with tlb := old ++ [x] } := by
    intro t old x ht hold hx
    refine ht.trans ⟨_, t.fresh, rfl, fun y hy => ?_⟩
    rcases List.mem_append.1 hy with hy | hy
    · exact .inl (hold y hy)
    · rw [List.mem_singleton.1 hy]
      exact .inr hx
  have hchoice : ∀ n, Filled (fun x => x.leaf = e.leaf ∧ x.page = e.page) s (choose s n).2 := fun n => by
    obtain ⟨f, hf⟩ := choose_fresh s n
    exact .of_fresh hf
  unfold tlbFill
  split
  · exact .refl s
  · split
    · next n _ =>
      have hc : ∀ (ws : List Nat) (f : Option Nat), Filled (fun x => x.leaf = e.leaf ∧ x.page = e.page) s (match f with
          | some w => (some w, s)
          | none => let c := choose s ws.length; (ws[c.1]?, c.2) : Option Nat × State).2 := by
        intro ws f
        cases f with
        | some w => exact .refl s
        | none => exact hchoice ws.length
      dsimp only
      split
      · exact htake _ _ _ (hc _ _) (fun y hy => List.mem_of_mem_filter hy) ⟨rfl, rfl⟩
      · exact hc _ _
    · dsimp only
      split
      · exact htake s _ e (.refl s) (fun _ h => h) ⟨rfl, rfl⟩
      · split
        · exact htake _ _ e (hchoice _) (fun y hy => List.mem_of_mem_erase hy) ⟨rfl, rfl⟩
        · exact hchoice _

/-- A translation changes TLBs alone. -/
theorem translate_filled (s : State) (p core team va : Nat) : ∃ P, Filled P s (translate s p core team va).2 := by
  obtain ⟨f, hf⟩ := choose_fresh s (1 + (((tlbHits s p core team va).map Xlate.ok).filter (· != walk s p va)).length)
  unfold translate
  dsimp only
  split
  · next l _ =>
    refine ⟨fun x => x.leaf = l ∧ x.page = pageBase l va, (Filled.of_fresh hf).trans (.trans ?_ (tlbFill_filled _ _ _))⟩
    split
    · exact tlbFill_filled _ _ _
    · exact .refl _
  · exact ⟨fun _ => True, .of_fresh hf⟩

/-- A check changes TLBs alone. -/
theorem checkAcc_filled {s : State} (h : s.poison = []) (c : Acc) (k : AccKind) (lane va n : Nat) (ok : Leaf → Bool) :
    ∃ P, Filled P s (checkAcc s c k lane va n ok).2 := by
  unfold checkAcc
  dsimp only
  rw [strikeWalk_clean h]
  obtain ⟨P, hfill⟩ := translate_filled s c.p c.core c.team va
  split
  · exact ⟨P, .refl s⟩
  · split
    · exact ⟨P, .refl s⟩
    · repeat' split
      all_goals exact ⟨P, hfill⟩

/-- Where the tables and the TLBs say one thing of an address, a translation finds it. -/
theorem translate_reaches {s : State} {p core team va : Nat} {l : Leaf} (hw : walk s p va = .ok l)
    (hh : ∀ x ∈ tlbHits s p core team va, x = l) :
    ∃ t, translate s p core team va = (.ok l, t) ∧ Filled (fun x => x.leaf = l ∧ x.page = pageBase l va) s t := by
  have hold : ((tlbHits s p core team va).map Xlate.ok).filter (· != Xlate.ok l) = [] := by
    refine List.filter_eq_nil_iff.2 fun x hx => ?_
    obtain ⟨y, hy, rfl⟩ := List.mem_map.1 hx
    rw [hh y hy]
    simp
  have hone : choose s 1 = (0, s) := rfl
  unfold translate
  simp only [hold, List.length_nil, Nat.add_zero, hone, hw, if_true]
  refine ⟨_, rfl, .trans ?_ (tlbFill_filled _ _ _)⟩
  split
  · exact tlbFill_filled _ _ _
  · exact .refl s

/-- An access that reaches its page passes its checks. -/
theorem checkAcc_reaches {s : State} {c : Acc} {k : AccKind} {va n : Nat} {ok : Leaf → Bool} {l : Leaf} (hs : Settled s)
    (hp : s.poison = []) (hva : va < 2 ^ 52) (hn : va % n = 0) (hw : walk s c.p va = .ok l)
    (hh : ∀ x ∈ tlbHits s c.p c.core c.team va, x = l) (hg : leafGate s c.p k l ok = none) (hd : l.domain = false) (lane : Nat) :
    ∃ t, checkAcc s c k lane va n ok = (.ok l, t) ∧ Filled (fun x => x.leaf = l ∧ x.page = pageBase l va) s t := by
  obtain ⟨t, ht, hfill⟩ := translate_reaches hw hh
  have hgate : leafGate t c.p k l ok = none := by rw [(hfill.view hs).leafGate, hg]
  refine ⟨t, ?_, hfill⟩
  unfold checkAcc
  rw [if_neg (by omega), if_neg (by omega), strikeWalk_clean hp]
  simp only [ht, hgate, hd, Bool.false_and, Bool.false_eq_true, if_false]

/-- Accesses that all reach their pages pass their checks. -/
theorem checkLanes_reaches {c : Acc} {k : AccKind} {n : Nat} {ok : Leaf → Bool} {leaf : Nat → Leaf} {xs : List (Nat × Nat)}
    {s : State} (hs : Settled s) (hp : s.poison = [])
    (h : ∀ x ∈ xs, x.2 < 2 ^ 52 ∧ x.2 % n = 0 ∧ walk s c.p x.2 = .ok (leaf x.1)
      ∧ (∀ y ∈ tlbHits s c.p c.core c.team x.2, y = leaf x.1) ∧ leafGate s c.p k (leaf x.1) ok = none ∧ (leaf x.1).domain = false) :
    ∃ t P, checkLanes s c k ok (xs.map fun x => (x.1, x.2, n)) = (.ok (xs.map fun x => ⟨x.1, x.2, n, some (leaf x.1)⟩), t)
      ∧ Filled P s t := by
  induction xs generalizing s with
  | nil => exact ⟨s, fun _ => True, rfl, .refl s⟩
  | cons x r ih =>
    obtain ⟨hva, hn, hw, hh, hg, hd⟩ := h x List.mem_cons_self
    obtain ⟨t, ht, hfill⟩ := checkAcc_reaches hs hp hva hn hw hh hg hd x.1
    have hview := hfill.view hs
    have hset : Settled t ∧ t.poison = [] := by
      obtain ⟨tlb, fresh, rfl, -⟩ := hfill
      exact ⟨⟨hs.pools, hs.mig, hs.reqs⟩, hp⟩
    obtain ⟨u, P, hu, hfill'⟩ := ih hset.1 hset.2 fun y hy => by
      obtain ⟨hva', hn', hw', hh', hg', hd'⟩ := h y (List.mem_cons_of_mem _ hy)
      refine ⟨hva', hn', by rw [hview.walk, hw'], fun z hz => ?_, by rw [hview.leafGate, hg'], hd'⟩
      rcases hfill.tlbHits hz with hz | ⟨e, ⟨hleaf, hpage⟩, hez, hpage'⟩
      · exact hh' z hz
      · have hzl : z = leaf x.1 := hez.symm.trans hleaf
        have hsame : walk s c.p y.2 = .ok z := by
          rw [hzl] at hpage' ⊢
          exact walk_page hw (hpage'.symm.trans hpage)
        exact Xlate.ok.inj (hsame.symm.trans hw')
    refine ⟨u, fun e => (e.leaf = leaf x.1 ∧ e.page = pageBase (leaf x.1) x.2) ∨ P e, ?_,
      (hfill.imp fun _ => .inl).trans (hfill'.imp fun _ => .inr)⟩
    rw [List.map_cons, checkLanes]
    simp only [ht, hu, List.map_cons]

end Sys2Proof.Machine
end

section
/-!
SUPPORT. Reads of the byte space where no core has written a grain that it owns (R64): they deliver the coherent bytes, and what
they leave behind, grains taken and copies dropped, is nothing that a reader sees. Loads build on it.
-/

namespace Sys2Proof.Machine

/-- Nothing has been written to any owned grain. -/
def CleanOwn (own : SMap OwnGrain) : Prop := ∀ x ∈ own, x.2.dirty = []

/-- A state that differs in grains taken and in copies. -/
def Reading (s t : State) : Prop := ∃ own si, t = { s with own, si } ∧ CleanOwn own

/-- Where nothing has been written to owned grains, readers see what is stored. -/
theorem cohByte_unwritten {s : State} (hs : Settled s) (ho : CleanOwn s.own) (a key : Nat) : cohByte s a key = physByte s a key := by
  rw [hs.cohByte]
  have hgrain : ∀ n g, grainAt s a n = some g → g.2.dirty = [] := by
    intro n g hg
    obtain ⟨o, hf, ho'⟩ := Option.bind_eq_some_iff.1 hg
    split at ho'
    · rw [← Option.some.inj ho']
      exact ho _ (mem_of_mfind hf)
    · cases ho'
  have hown : ∀ g, ownGrain s a = some g → g.2.dirty = [] := by
    intro g hg
    rw [ownGrain_eq] at hg
    cases h32 : grainAt s a 32 with
    | some x =>
      rw [h32] at hg
      exact hgrain 32 g (h32.trans hg)
    | none =>
      rw [h32] at hg
      cases h128 : grainAt s a 128 with
      | some x =>
        rw [h128] at hg
        exact hgrain 128 g (h128.trans hg)
      | none =>
        rw [h128] at hg
        exact hgrain 512 g hg
  cases hg : ownGrain s a with
  | none => rfl
  | some g =>
    rw [Option.bind_some, hown g hg]
    rfl

namespace Reading

variable {s t u : State}

theorem refl (ho : CleanOwn s.own) : Reading s s := ⟨s.own, s.si, rfl, ho⟩

theorem trans (h : Reading s t) (k : Reading t u) : Reading s u := by
  obtain ⟨own, si, rfl, -⟩ := h
  obtain ⟨own', si', rfl, hc⟩ := k
  exact ⟨own', si', rfl, hc⟩

theorem clean (h : Reading s t) : CleanOwn t.own := by
  obtain ⟨own, si, rfl, hc⟩ := h
  exact hc

theorem settled (h : Reading s t) (hs : Settled s) : Settled t := by
  obtain ⟨own, si, rfl, -⟩ := h
  exact ⟨hs.pools, hs.mig, hs.reqs⟩

/-- Readers see the same bytes. -/
theorem cohByte (h : Reading s t) (hs : Settled s) (ho : CleanOwn s.own) (a key : Nat) : cohByte t a key = Machine.cohByte s a key := by
  rw [cohByte_unwritten (h.settled hs) h.clean, cohByte_unwritten hs ho]
  obtain ⟨own, si, rfl, -⟩ := h
  rfl

/-- The home serves the same bytes. -/
theorem freshBytes (h : Reading s t) (hs : Settled s) (ho : CleanOwn s.own) (ver : SMap (Byte × Nat)) (l : Leaf) (off n : Nat) :
    freshBytes t ver l off n = Machine.freshBytes s ver l off n := by
  have hrd : storedByte t ver l.key = storedByte s ver l.key := funext fun a => by
    simp only [storedByte, (h.settled hs).canonA, hs.canonA, h.cohByte hs ho]
  unfold Machine.freshBytes
  rw [hrd]
  obtain ⟨own, si, rfl, -⟩ := h
  rfl

end Reading

/-- A grain that nothing has been written to goes home without a trace. -/
theorem recallGrain_clean {s : State} (ho : CleanOwn s.own) (g : Nat) : Reading s (recallGrain s g) := by
  unfold recallGrain
  split
  · exact .refl ho
  · next o hf =>
    rw [ho _ (mem_of_mfind hf)]
    exact ⟨mdel s.own g, s.si, rfl, fun x hx => ho x (mem_mdel _ _ _ hx)⟩

theorem foldl_recallGrain_clean {s : State} (ho : CleanOwn s.own) (gs : List (Nat × OwnGrain)) :
    Reading s (gs.foldl (fun acc g => recallGrain acc g.1) s) := by
  induction gs generalizing s with
  | nil => exact .refl ho
  | cons g r ih => exact (recallGrain_clean ho g.1).trans (ih (recallGrain_clean ho g.1).clean)

/-- A core takes a grain that nothing has been written to. -/
theorem ownTake_clean {s : State} (ho : CleanOwn s.own) (core n a : Nat) : Reading s (ownTake s core n a) := by
  have hfrom : Reading s (recallFrom s a (some core)) := by
    unfold recallFrom
    split
    · split
      · exact .refl ho
      · exact recallGrain_clean ho _
    · exact .refl ho
  unfold ownTake
  dsimp only
  split
  · exact hfrom
  · have hrange := hfrom.trans (foldl_recallGrain_clean hfrom.clean ((recallFrom s a (some core)).own.filter fun g =>
      decide (canonA (recallFrom s a (some core)) a / n * n ≤ g.1)
        && decide (g.1 < canonA (recallFrom s a (some core)) a / n * n + n)))
    refine hrange.trans ⟨_, _, rfl, fun x hx => ?_⟩
    rcases mem_mset _ _ _ _ hx with rfl | hx
    · rfl
    · exact hrange.clean x hx

theorem dropSectors_reading {s : State} (ho : CleanOwn s.own) (hit : Nat → Bool) : Reading s (dropSectors s hit) := by
  unfold dropSectors
  split
  · exact .refl ho
  · exact ⟨s.own, _, rfl, ho⟩

/-- A read past a core's copies drops them. -/
theorem siPass_reading {s : State} (ho : CleanOwn s.own) (core : Nat) (l : Leaf) (off n : Nat) :
    Reading s (siPass s core l off n) := by
  have hother : Reading s (dropOther s core l off n) := by
    unfold dropOther
    split
    · exact .refl ho
    · exact dropSectors_reading ho _
  unfold siPass
  split
  · exact .refl ho
  · exact hother.trans (dropSectors_reading hother.clean _)

/-- A read under no SI on a page of this device delivers the coherent bytes (R64). -/
theorem readAt_fresh {s : State} {c : Acc} {l : Leaf} {req : Nat} (hs : Settled s) (hp : s.poison = []) (ho : CleanOwn s.own)
    (hd : l.domain = false) (hreq : reqOf req l ≠ 3) (va n : Nat) :
    (readAt s c l va n req).1 = freshBytes s (versionOf s c) l (pageOff l va) n ∧ Reading s (readAt s c l va n req).2 := by
  unfold readAt
  simp only [hp, hd, List.isEmpty_nil, Bool.true_or, if_true, Bool.false_and, Bool.false_eq_true, if_false, if_neg hreq,
    Bool.not_false, Bool.and_true]
  split
  · next h3 => exact absurd h3 hreq
  · have htake : Reading s (if decide (l.sf = 0) = true then ownTake s c.core (grainBytes l.gr) (l.frame + pageOff l va) else s) := by
      split
      · exact ownTake_clean ho _ _ _
      · exact .refl ho
    exact ⟨htake.freshBytes hs ho _ _ _ _, htake.trans (siPass_reading htake.clean _ _ _ _)⟩
  · exact ⟨rfl, siPass_reading ho _ _ _ _⟩

/-! ### Loads -/

/-- One lane of a plain load on a page that is there. -/
def ldStep (uni : Bool) (c : Acc) (e : Enc) (acc : LaneRun × State) (x : LaneAcc) : LaneRun × State :=
  match x.leaf with
  | none =>
    (acc.1.addWrites (blockWrites uni x.lane e.d.toNat (szN (e.M 10 8)) 0 ++ resWrite uni x.lane (e.M 21 19) true), acc.2)
  | some l =>
    let v := readAt acc.2 c l x.va (szBytes (e.M 10 8)) (if e.M 15 14 == 1 && reqOf (e.M 13 11) l == 3 then 2 else e.M 13 11)
    let a := acquireRead v.2 c (e.M 15 14 == 1) (e.M 18 16) l x.va
    let ws := acc.1.ws ++ blockWrites uni x.lane e.d.toNat (szN (e.M 10 8)) (extendLoad (e.M 10 8) v.1)
      ++ resWrite uni x.lane (e.M 21 19) false
    (⟨ws, acc.1.trap.orElse fun _ => a.1, [], acc.1.reads ++ plainRead v.2 (e.M 15 14 == 1) l x.lane x.va, true⟩, a.2)

theorem ldPerform_eq (uni : Bool) (s : State) (c : Acc) (e : Enc) (cap : Capture) :
    ldPerform uni s c e cap = (.done (cap.checked.foldl (ldStep uni c e) (LaneRun.start, s)).1.ws
        (cap.checked.foldl (ldStep uni c e) (LaneRun.start, s)).1.trap,
      finishAccs (cap.checked.foldl (ldStep uni c e) (LaneRun.start, s)).2 c uni cap (e.M 15 14 == 1) false (e.M 18 16)
        (cap.checked.foldl (ldStep uni c e) (LaneRun.start, s)).1) := rfl

/-- What one lane of a load writes. -/
def ldWrites (uni : Bool) (s : State) (c : Acc) (e : Enc) (leaf : Nat → Leaf) (x : Nat × Nat) : List (Nat × Word) :=
  blockWrites uni x.1 e.d.toNat (szN (e.M 10 8)) (extendLoad (e.M 10 8)
    (freshBytes s (versionOf s c) (leaf x.1) (pageOff (leaf x.1) x.2) (szBytes (e.M 10 8)))) ++ resWrite uni x.1 (e.M 21 19) false

/-- The lanes of a plain load on pages that are there write the coherent bytes, and leave nothing that a reader sees. -/
theorem foldl_ldStep {uni : Bool} {s : State} {c : Acc} {e : Enc} {leaf : Nat → Leaf} (hs : Settled s) (hp : s.poison = [])
    (ho : CleanOwn s.own) (hacq : e.M 15 14 ≠ 1) {xs : List (Nat × Nat)}
    (h : ∀ x ∈ xs, (leaf x.1).domain = false ∧ reqOf (e.M 13 11) (leaf x.1) ≠ 3) {n : Nat} {r : LaneRun} {t : State}
    (hr : r.trap = none ∧ r.lines = []) (ht : Reading s t) :
    let q := (xs.map fun x => (⟨x.1, x.2, n, some (leaf x.1)⟩ : LaneAcc)).foldl (ldStep uni c e) (r, t)
    q.1.ws = r.ws ++ xs.flatMap (ldWrites uni s c e leaf) ∧ q.1.trap = none ∧ q.1.lines = [] ∧ Reading s q.2 := by
  induction xs generalizing r t with
  | nil => exact ⟨(List.append_nil _).symm, hr.1, hr.2, ht⟩
  | cons x rest ih =>
    obtain ⟨hd, hreq⟩ := h x List.mem_cons_self
    have hplain : (e.M 15 14 == 1) = false := beq_false_of_ne hacq
    have hpois : t.poison = [] := by
      obtain ⟨own, si, rfl, -⟩ := ht
      exact hp
    have hver : versionOf t c = versionOf s c := by
      obtain ⟨own, si, rfl, -⟩ := ht
      rfl
    obtain ⟨hv, hv'⟩ := readAt_fresh (c := c) (ht.settled hs) hpois ht.clean hd hreq x.2 (szBytes (e.M 10 8))
    rw [hver, ht.freshBytes hs ho] at hv
    have hstep : ∃ reads, ldStep uni c e (r, t) ⟨x.1, x.2, n, some (leaf x.1)⟩
        = (⟨r.ws ++ ldWrites uni s c e leaf x, none, [], reads, true⟩, (readAt t c (leaf x.1) x.2 (szBytes (e.M 10 8)) (e.M 13 11)).2) := by
      refine ⟨r.reads ++ plainRead (readAt t c (leaf x.1) x.2 (szBytes (e.M 10 8)) (e.M 13 11)).2 false (leaf x.1) x.1 x.2, ?_⟩
      unfold ldStep acquireRead
      simp only [hplain, Bool.false_and, Bool.false_eq_true, if_false, hv, hr.1, ldWrites, List.append_assoc]
      rfl
    obtain ⟨reads, hstep⟩ := hstep
    rw [List.map_cons, List.foldl_cons, hstep]
    obtain ⟨hws, htrap, hlines, hread⟩ := ih (fun y hy => h y (List.mem_cons_of_mem _ hy))
      (r := ⟨r.ws ++ ldWrites uni s c e leaf x, none, [], reads, true⟩) ⟨rfl, rfl⟩ (ht.trans hv')
    exact ⟨by rw [hws, List.flatMap_cons, List.append_assoc], htrap, hlines, hread⟩

end Sys2Proof.Machine
end

section
/-!
SUPPORT. Held accesses: what their list is no part of, and a held load that is tried again where its pages are there (R359).
-/

namespace Sys2Proof.Machine

/-- A state that differs in its lists of held accesses. -/
structure SameButHeld (s t : State) : Prop where
  rest : { t with parts := s.parts } = s
  part : ∀ p, { getPart t p with held := (getPart s p).held } = getPart s p

namespace SameButHeld

variable {s t : State} (h : SameButHeld s t)
include h

/-- What the change of parts leaves of the rest of the state. -/
theorem eq_of {α : Type} (f : State → α) (hf : ∀ u parts, f { u with parts } = f u) : f t = f s :=
  (hf t s.parts).symm.trans (congrArg f h.rest)

/-- What the change of held accesses leaves of the rest of a partition. -/
theorem part_of {α : Type} (f : Partition → α) (hf : ∀ q held, f { q with held } = f q) (p : Nat) : f (getPart t p) = f (getPart s p) :=
  (hf _ _).symm.trans (congrArg f (h.part p))

theorem cohByte (a key : Nat) : cohByte t a key = Machine.cohByte s a key :=
  h.eq_of (fun u => Machine.cohByte u a key) fun _ _ => rfl

theorem view : SameView s t where
  seen := h.cohByte
  mgmt := h.eq_of State.mgmt fun _ _ => rfl
  caps := h.eq_of State.caps fun _ _ => rfl
  troot := h.part_of Partition.troot fun _ _ => rfl
  s2base := h.part_of Partition.s2base fun _ _ => rfl
  hg := h.part_of Partition.hg fun _ _ => rfl
  dropped := h.part_of Partition.dropped fun _ _ => rfl

theorem calm (hs : Calm s) : Calm t :=
  ⟨(h.eq_of State.poison fun _ _ => rfl).trans hs.1, (h.eq_of State.pools fun _ _ => rfl).trans hs.2.1,
    (congrArg Mgmt.mig h.view.mgmt).trans hs.2.2.1, (congrArg Mgmt.reqs h.view.mgmt).trans hs.2.2.2.1,
    (h.eq_of State.own fun _ _ => rfl).trans hs.2.2.2.2⟩

/-- An object-table entry reads the same. -/
theorem otRead (hp : s.poison = []) (c : Acc) (x : Nat) : (otRead t c x).1 = (Machine.otRead s c x).1 := by
  have hcache : (getPart t c.p).otcache = (getPart s c.p).otcache := h.part_of Partition.otcache (fun _ _ => rfl) c.p
  have hbase : (getPart t c.p).otbase = (getPart s c.p).otbase := h.part_of Partition.otbase (fun _ _ => rfl) c.p
  have hfresh : t.fresh = s.fresh := h.eq_of State.fresh fun _ _ => rfl
  have hpois : t.poison = [] := (h.eq_of State.poison fun _ _ => rfl).trans hp
  have hentry : (otEntry t c.p x).1 = (otEntry s c.p x).1 := by
    unfold otEntry
    simp only [hcache, hbase, h.cohByte]
    cases mfind (getPart s c.p).otcache (x % 2 ^ 16) with
    | none => rfl
    | some old =>
      have hchoose : (choose t 2).1 = (choose s 2).1 := by
        simp only [choose, hfresh]
        rfl
      simp only [apply_ite Prod.fst, hchoose]
  unfold Machine.otRead
  simp only [hcache, hbase, h.view.holdsPhys, hp, hpois, List.isEmpty_nil, if_true]
  split
  · rfl
  · rfl
  · exact congrArg Except.ok hentry

theorem tensorLane (hp : s.poison = []) (c : Acc) (st : Bool) (n : Nat) (cap : Capture) (lane : Nat) :
    (tensorLane t c st n cap lane).1 = (Machine.tensorLane s c st n cap lane).1 := by
  unfold Machine.tensorLane
  simp only [h.otRead hp]
  cases (Machine.otRead s c (mget cap.addr lane 0)).1 with
  | error e => rfl
  | ok x =>
    dsimp only
    simp only [apply_ite Prod.fst]

/-- What an instruction touches stays. -/
theorem touches (hp : s.poison = []) (c : Acc) (i : Instr) (cap : Capture) : touches t c i cap = Machine.touches s c i cap := by
  unfold Machine.touches
  simp only [h.tensorLane hp]

/-- What must be waited for stays. -/
theorem mustWait (hp : s.poison = []) (c : Acc) (earlier : List Op) (j : Instr) (cj : Capture) :
    mustWait t c earlier j cj = Machine.mustWait s c earlier j cj := by
  simp only [Machine.mustWait, mustPrecede, h.touches hp, locKeys, h.view.walk]

end SameButHeld

/-! ### The end of a wait -/

/-- The end of held accesses changes their list alone. -/
theorem dropHeld_sameButHeld (s : State) (p : Nat) (w : HeldBy) : SameButHeld s (dropHeld s p w) := by
  refine ⟨rfl, fun q => ?_⟩
  unfold dropHeld
  by_cases hq : q = p
  · subst hq
    rw [getPart_modPart_self]
  · rw [getPart_modPart_other _ _ _ _ hq]

/-- A party whose held accesses have ended has none. -/
theorem isHeld_dropHeld (s : State) (p : Nat) {w : HeldBy} (hw : w ≠ .served) : isHeld (getPart (dropHeld s p w) p) w = false := by
  unfold dropHeld isHeld
  rw [getPart_modPart_self]
  refine List.any_eq_false.2 fun x hx => ?_
  obtain ⟨y, -, hy⟩ := List.mem_filterMap.1 hx
  dsimp only at hy
  split at hy
  · next hne =>
    rw [← Option.some.inj hy]
    simpa using hne
  · split at hy
    · cases hy
    · rw [← Option.some.inj hy]
      simpa using Ne.symm hw

/-- An operation is found as what the change of its group's operations makes of it. -/
theorem findOp_modGroup {s : State} {gid op : Nat} {o : Op} (F : Op → Op) (h : findOp (getGroup s gid) op = some o)
    (hF : ∀ x, (F x).id = x.id) :
    findOp (getGroup (modGroup s gid fun g => { g with ops := g.ops.map fun x => if x.id = op then F x else x }) gid) op
      = some (F o) := by
  rw [getGroup_modGroup_of _ (findOp_some h).2]
  have hmap := find?_map_keep (p := fun x : Op => x.id == op) (f := F) (fun x => by rw [hF]) h
  simp only [beq_iff_eq] at hmap
  exact hmap

/-- What a read leaves for later fences is nothing but that. -/
theorem noteReads_keeps (s : State) (c : Acc) (xs : List (Nat × Nat × Nat)) :
    let t := noteReads s c xs
    t.mem = s.mem ∧ t.parts = s.parts ∧ ∀ y op, findOp (getGroup t y) op = findOp (getGroup s y) op := by
  have hkeep : ∀ y op, findOp (getGroup s y) op = findOp (getGroup s y) op := fun _ _ => rfl
  unfold noteReads
  split
  · exact ⟨rfl, rfl, hkeep⟩
  · next gid _ =>
    split
    · refine ⟨rfl, rfl, fun y op => ?_⟩
      rcases getGroup_modGroup_or s gid (fun g => { g with
        reads := xs.foldl (fun r x => if r.contains x then r else r ++ [x]) g.reads }) y with hy | hy
      · rw [hy]
      · rw [hy]
        rfl
    · exact ⟨rfl, rfl, hkeep⟩

/-! ### A held load -/

/-- The value of a load is what the statement calls it (R241). -/
theorem extendLoad_eq (sz : Nat) (bs : List Byte) : extendLoad sz bs = loaded sz bs := by
  unfold extendLoad loaded
  simp only [asInt_eq_intOf, wrapTo, BitVec.toNat_ofInt]

/-- The keys that a lane of a load writes. -/
theorem ldWrites_keys (s : State) (c : Acc) (e : Enc) (leaf : Nat → Leaf) (x : Nat × Nat) :
    (ldWrites false s c e leaf x).map Prod.fst
      = rangeFrom (vKey x.1 e.d.toNat) (szN (e.M 10 8)) ++ if e.M 21 19 = 0 then [] else [pKey x.1 (e.M 21 19)] := by
  unfold ldWrites blockWrites resWrite
  rw [List.map_append]
  refine congrArg₂ (· ++ ·) (blockW_keys _ _ _) ?_
  split <;> rfl

/-- Lanes of a load write different registers. -/
theorem ldWrites_nodup {s : State} {c : Acc} {e : Enc} {leaf : Nat → Leaf} {xs : SMap Nat} (hd : (mkeys xs).Nodup)
    (hl : ∀ l ∈ mkeys xs, l < 32) (hr : e.d.toNat + szN (e.M 10 8) ≤ 256) :
    ((xs.flatMap (ldWrites false s c e leaf)).map Prod.fst).Nodup := by
  have hres : e.M 21 19 < 8 := by
    unfold Enc.M bitsOf
    exact Nat.mod_lt _ (by decide)
  have hkey : ∀ x ∈ xs, ∀ k ∈ (ldWrites false s c e leaf x).map Prod.fst,
      (256 * x.1 ≤ k ∧ k < 256 * x.1 + 256) ∨ (k = pKey x.1 (e.M 21 19)) := by
    intro x _ k hk
    rw [ldWrites_keys] at hk
    rcases List.mem_append.1 hk with hk | hk
    · obtain ⟨hlo, hhi⟩ := (mem_rangeFrom _ _ _).1 hk
      unfold vKey at hlo hhi
      exact .inl ⟨by omega, by omega⟩
    · split at hk
      · exact absurd hk List.not_mem_nil
      · exact .inr (List.mem_singleton.1 hk)
  rw [List.map_flatMap, List.nodup_flatMap]
  refine ⟨fun x hx => ?_, ?_⟩
  · have hx32 := hl x.1 (List.mem_map.2 ⟨x, hx, rfl⟩)
    rw [ldWrites_keys]
    refine List.nodup_append.2 ⟨rangeFrom_nodup _ _, by split <;> simp, fun a ha b hb => ?_⟩
    obtain ⟨-, hhi⟩ := (mem_rangeFrom _ _ _).1 ha
    split at hb
    · exact absurd hb List.not_mem_nil
    · rw [List.mem_singleton.1 hb]
      unfold vKey at hhi
      unfold pKey
      omega
  · refine List.Pairwise.imp_of_mem (R := fun x y : Nat × Nat => x.1 ≠ y.1) (fun {x y} hx hy hne k hk hk' => ?_)
      (List.pairwise_map.1 hd)
    have hx32 := hl x.1 (List.mem_map.2 ⟨x, hx, rfl⟩)
    have hy32 := hl y.1 (List.mem_map.2 ⟨y, hy, rfl⟩)
    have h1 := hkey x hx k hk
    have h2 := hkey y hy k hk'
    unfold pKey at h1 h2
    omega

/-- A performed load delivers each lane's bytes. -/
theorem delivers_ldWrites {s : State} {c : Acc} {e : Enc} {leaf : Nat → Leaf} {xs : SMap Nat} (m : SMap Word)
    (hd : (mkeys xs).Nodup) (hl : ∀ l ∈ mkeys xs, l < 32) (hr : e.d.toNat + szN (e.M 10 8) ≤ 256) :
    Delivers ((xs.flatMap (ldWrites false s c e leaf)).foldl (fun m w => if fixedTrue w.1 then m else mset m w.1 w.2) m)
      (mkeys xs) (fun l => vKey l e.d.toNat) (szN (e.M 10 8)) (fun l => loaded (e.M 10 8)
        (freshBytes s (versionOf s c) (leaf l) (pageOff (leaf l) (mget xs l 0)) (szBytes (e.M 10 8)))) := by
  intro l hl' j hj
  obtain ⟨x, hx, rfl⟩ := List.mem_map.1 hl'
  have hget : mget xs x.1 0 = x.2 := by
    rw [mget, mfind_of_nodup hd hx]
    rfl
  dsimp only
  rw [hget, ← natWords_getD _ _ j hj, ← extendLoad_eq]
  refine opWrites_mem _ m _ _ (List.mem_flatMap.2 ⟨x, hx, List.mem_append_left _ (blockW_mem _ _ _ _ hj)⟩)
    (ldWrites_nodup hd hl hr) (fixedTrue_v ?_)
  have := hl x.1 hl'
  unfold vKey
  omega

/-- The home serves the same bytes where readers see the same. -/
theorem SameView.freshBytes {s t : State} (h : SameView s t) {l : Leaf} (hd : l.domain = false) (ver : SMap (Byte × Nat))
    (off n : Nat) : freshBytes t ver l off n = Machine.freshBytes s ver l off n := by
  have hrd : storedByte t ver l.key = storedByte s ver l.key := funext fun a => by
    simp only [storedByte, canonA, homeOf, h.mgmt, h.seen]
  unfold Machine.freshBytes
  simp only [hd, Bool.false_eq_true, if_false, hrd]

/-- A load whose pages are there is performed whole, or from now on piece by piece (R104), on what its checks found. -/
theorem performWhole_ld {s : State} {c : Acc} {e : Enc} {k : Capture} {leaf : Nat → Leaf} (hs : Calm s)
    (hr : Reaches s c .read anyPage k (szBytes (e.M 10 8)) leaf) (gid : Nat) (o : Op) :
    let found := { k with checked := k.addr.map fun x => ⟨x.1, x.2, szBytes (e.M 10 8), some (leaf x.1)⟩ }
    ∃ u P, Filled P s u
      ∧ (performWhole s c gid o (.ld e) k = setStage u gid o.id (.pieces (piecesOfInstr (.ld e) found) [] none)
        ∨ performWhole s c gid o (.ld e) k
          = settleReplay (ldPerform false u c e found).2 c gid o.id (ldPerform false u c e found).1) := by
  intro found
  obtain ⟨t, P, ht, hfill⟩ := checkLanes_reaches (settled_of_calm hs) hs.1 hr
  have hall : (found.checked.filter fun x => x.leaf.isNone) = [] := by
    refine List.filter_eq_nil_iff.2 fun x hx => ?_
    obtain ⟨y, -, rfl⟩ := List.mem_map.1 hx
    simp
  have hcheck : checkMem s c (.ld e) k = (.ok found, t) := by
    change checkPlain s c .read anyPage (e.M 21 19) (szBytes (e.M 10 8)) k = _
    unfold checkPlain gatherAccs
    simp only [ht]
    rw [show (k.addr.map fun x => (⟨x.1, x.2, szBytes (e.M 10 8), some (leaf x.1)⟩ : LaneAcc)) = found.checked from rfl, hall]
    simp only [List.isEmpty_nil, Bool.not_true, Bool.and_false, Bool.false_eq_true, if_false]
    rfl
  generalize hps : piecesOfInstr (.ld e) found = ps
  have hchoice : ∃ f, (if ps.length ≤ 1 then (0, t) else choose t 2).2 = { t with fresh := f } := by
    split
    · exact ⟨t.fresh, rfl⟩
    · exact choose_fresh t 2
  obtain ⟨f, hf⟩ := hchoice
  unfold performWhole
  simp only [hcheck, hps]
  generalize (if ps.length ≤ 1 then ((0, t) : Nat × State) else choose t 2) = ch at hf ⊢
  refine ⟨ch.2, P, hfill.trans (.of_fresh hf), ?_⟩
  split
  · exact .inl rfl
  · exact .inr rfl

/-- A load that is performed whole delivers the bytes that its replay found, and changes nothing that is stored. -/
theorem settleReplay_ld {s u : State} {P : TlbEnt → Prop} {c : Acc} {e : Enc} {k : Capture} {leaf : Nat → Leaf} {gid op : Nat} {o : Op}
    (hs : Calm s) (hu : Filled P s u) (hfind : findOp (getGroup s gid) op = some o) (hlost : o.lost = []) (hacq : e.M 15 14 ≠ 1)
    (hleaf : ∀ x ∈ k.addr, (leaf x.1).domain = false ∧ reqOf (e.M 13 11) (leaf x.1) ≠ 3) (hlanes : k.lanes = mkeys k.addr)
    (hnodup : (mkeys k.addr).Nodup) (h32 : ∀ l ∈ k.lanes, l < 32) (hregs : e.d.toNat + szN (e.M 10 8) ≤ 256) :
    let found := { k with checked := k.addr.map fun x => ⟨x.1, x.2, szBytes (e.M 10 8), some (leaf x.1)⟩ }
    let t := settleReplay (ldPerform false u c e found).2 c gid op (ldPerform false u c e found).1
    ∃ o', t.mem = s.mem ∧ findOp (getGroup t gid) op = some o' ∧ o'.stage = .done
      ∧ Delivers o'.writes k.lanes (fun l => vKey l e.d.toNat) (szN (e.M 10 8)) (fun l => loaded (e.M 10 8)
          (freshBytes s (versionOf s c) (leaf l) (pageOff (leaf l) (mget k.addr l 0)) (szBytes (e.M 10 8))))
      ∧ isHeld (getPart t c.p) (.op gid op) = false := by
  intro found
  have hview := hu.view (settled_of_calm hs)
  obtain ⟨tlb, fresh, rfl, -⟩ := hu
  have hown : CleanOwn s.own := by
    rw [hs.2.2.2.2]
    exact fun x hx => absurd hx List.not_mem_nil
  obtain ⟨hws, htrap, hlines, hread⟩ := foldl_ldStep (uni := false) (s := { s with tlb, fresh }) (c := c) (e := e) (leaf := leaf)
    (settled_of_calm hs) hs.1 hown hacq hleaf (n := szBytes (e.M 10 8)) (r := LaneRun.start) ⟨rfl, rfl⟩ (.refl hown)
  rw [ldPerform_eq]
  dsimp only [found]
  rw [htrap, hws]
  generalize hq : (k.addr.map fun x => (⟨x.1, x.2, szBytes (e.M 10 8), some (leaf x.1)⟩ : LaneAcc)).foldl (ldStep false c e)
    (LaneRun.start, { s with tlb, fresh }) = q at hlines hread
  have hfinish : ∃ xs, finishAccs q.2 c false found (e.M 15 14 == 1) false (e.M 18 16) q.1 = noteReads q.2 c xs := by
    refine ⟨q.1.reads.flatMap fun x => (orderLanes false found x.1).map fun l => (l, x.2), ?_⟩
    unfold finishAccs
    rw [hlines]
    simp only [beq_false_of_ne hacq, Bool.false_and, Bool.false_eq_true, if_false, List.foldl_nil]
    cases c.gid <;> rfl
  obtain ⟨xs, hfinish⟩ := hfinish
  rw [hfinish]
  obtain ⟨hmem, hparts, hops⟩ := noteReads_keeps q.2 c xs
  have hq2 : q.2.mem = s.mem ∧ q.2.groups = s.groups := by
    obtain ⟨own, si, heq, -⟩ := hread
    rw [heq]
    exact ⟨rfl, rfl⟩
  have hfind' : findOp (getGroup (dropHeld (noteReads q.2 c xs) c.p (.op gid op)) gid) op = some o := by
    refine Eq.trans (hops gid op) ?_
    rw [getGroup, hq2.2]
    exact hfind
  have hver : versionOf { s with tlb, fresh } c = versionOf s c := rfl
  have hset := findOp_modGroup (fun x => { x with
      stage := .done
      writes := (LaneRun.start.ws ++ k.addr.flatMap (ldWrites false { s with tlb, fresh } c e leaf)).foldl (fun m w =>
        if fixedTrue w.1 || x.lost.contains w.1 then m else mset m w.1 w.2) x.writes }) hfind' fun _ => rfl
  refine ⟨_, hmem.trans hq2.1, hset, rfl, ?_, isHeld_dropHeld _ _ (by simp)⟩
  have hdel := delivers_ldWrites (s := { s with tlb, fresh }) (c := c) (leaf := leaf) o.writes hnodup (hlanes ▸ h32) hregs
  dsimp only
  rw [hlost, hlanes]
  simp only [List.contains_nil, Bool.or_false]
  intro l hl j hj
  obtain ⟨x, hx, hxl⟩ := List.mem_map.1 hl
  have h := hdel l hl j hj
  dsimp only at h
  rw [hver, hview.freshBytes (hxl ▸ (hleaf x hx).1)] at h
  exact h

/-- A held load whose pages are there is performed, whole or from now on piece by piece (R77, R359). -/
theorem replayHeld_ld {s : State} {p gid op : Nat} {o : Op} {e : Enc} {k : Capture} {leaf : Nat → Leaf}
    (hfind : findOp (getGroup s gid) op = some o) (hstage : o.stage = .held (.ld e) k) (hlost : o.lost = []) (hs : Calm s)
    (hp : (accOfOp s gid o.loc).p = p)
    (hwait : mustWait s (accOfOp s gid o.loc) ((getGroup s gid).ops.takeWhile fun x => x.id != op) (.ld e) k = false)
    (hacq : e.M 15 14 ≠ 1) (hr : Reaches s (accOfOp s gid o.loc) .read anyPage k (szBytes (e.M 10 8)) leaf)
    (hreq : ∀ l ∈ k.lanes, reqOf (e.M 13 11) (leaf l) ≠ 3) (hlanes : k.lanes = mkeys k.addr) (hnodup : (mkeys k.addr).Nodup)
    (h32 : ∀ l ∈ k.lanes, l < 32) (hregs : e.d.toNat + szN (e.M 10 8) ≤ 256) :
    let c := accOfOp s gid o.loc
    let t := replayHeld s p (.op gid op)
    ∃ o', t.mem = s.mem ∧ findOp (getGroup t gid) op = some o'
      ∧ ((o'.writes = o.writes ∧ ∃ found, o'.stage = .pieces (piecesOfInstr (.ld e) { k with checked := found }) [] none)
        ∨ (o'.stage = .done
          ∧ Delivers o'.writes k.lanes (fun l => vKey l e.d.toNat) (szN (e.M 10 8)) (fun l => loaded (e.M 10 8)
              (freshBytes s (versionOf s c) (leaf l) (pageOff (leaf l) (mget k.addr l 0)) (szBytes (e.M 10 8))))))
      ∧ isHeld (getPart t p) (.op gid op) = false := by
  intro c t
  have hb := dropHeld_sameButHeld s p (.op gid op)
  have hs0 := hb.calm hs
  obtain ⟨hid, -⟩ := findOp_some hfind
  have hr0 : Reaches (dropHeld s p (.op gid op)) c .read anyPage k (szBytes (e.M 10 8)) leaf := by
    intro x hx
    obtain ⟨hva, hn, hw, hh, hg, hd⟩ := hr x hx
    exact ⟨hva, hn, by rw [hb.view.walk, hw], hh, by rw [hb.view.leafGate, hg], hd⟩
  have ht : t = performWhole (dropHeld s p (.op gid op)) c gid o (.ld e) k := by
    have hwait0 : mustWait (dropHeld s p (.op gid op)) c ((getGroup s gid).ops.takeWhile fun x => x.id != o.id) (.ld e) k = false := by
      rw [hb.mustWait hs.1, hid]
      exact hwait
    have hperf : t = performOp (dropHeld s p (.op gid op)) gid o := by
      dsimp only [t]
      unfold replayHeld
      simp only [hfind]
    rw [hperf]
    unfold performOp
    rw [hstage]
    exact if_neg (ne_true_of_eq_false hwait0)
  obtain ⟨u, P, hu, hcase⟩ := performWhole_ld hs0 hr0 gid o
  rw [ht]
  rcases hcase with hcase | hcase
  · rw [hcase, hid]
    obtain ⟨tlb, fresh, rfl, -⟩ := hu
    refine ⟨_, rfl, findOp_modGroup (fun x => { x with stage := _ }) hfind fun _ => rfl, .inl ⟨rfl, _, rfl⟩,
      isHeld_dropHeld s p (by simp)⟩
  · have hleaf : ∀ x ∈ k.addr, (leaf x.1).domain = false ∧ reqOf (e.M 13 11) (leaf x.1) ≠ 3 := fun x hx =>
      ⟨(hr x hx).2.2.2.2.2, hreq x.1 (hlanes ▸ List.mem_map.2 ⟨x, hx, rfl⟩)⟩
    obtain ⟨o', hmem, hfind', hstage', hdel, hheld⟩ := settleReplay_ld (c := c) hs0 hu hfind hlost hacq hleaf hlanes hnodup h32 hregs
    rw [hcase, hid]
    refine ⟨o', hmem, hfind', .inr ⟨hstage', ?_⟩, hp ▸ hheld⟩
    have hver : versionOf (dropHeld s p (.op gid op)) c = versionOf s c := by
      have hwin : (getPart (dropHeld s p (.op gid op)) c.p).window = (getPart s c.p).window :=
        hb.part_of Partition.window (fun _ _ => rfl) c.p
      unfold versionOf getTask findTask
      rw [hwin]
    intro l hl j hj
    obtain ⟨x, hx, hxl⟩ := List.mem_map.1 (hlanes ▸ hl)
    have h := hdel l hl j hj
    dsimp only at h
    rw [hver, hb.view.freshBytes (hxl ▸ (hleaf x hx).1)] at h
    exact h

end Sys2Proof.Machine
end

section
/-!
O36. A recall stores what its grain holds; a fault record is 32 bytes at PUT; held accesses are tried again one party after another.
-/

namespace Sys2Proof.Machine

/-! ### Events at homes -/

/-- HOME_RECALL (R65): what the grain holds is stored, and readers see what they saw. -/
theorem homeRecall_stores (s : State) (g : Nat) (o : OwnGrain) (hown : s.own = [(g, o)]) (hs : Settled s)
    (hsize : o.size ∈ [32, 128, 512]) (hg : g % o.size = 0) (hnodup : (mkeys o.dirty).Nodup)
    (hin : ∀ x ∈ o.dirty, g ≤ x.1 ∧ x.1 < g + o.size ∧ x.2.2 = 0) :
    ∃ t, exec (.homeRecall g) s = .next t ∧ { t with mem := s.mem, own := s.own } = s ∧ t.own = []
      ∧ ∀ x, cohByte t x 0 = cohByte s x 0 ∧ readByte t.mem x = cohByte s x 0 := by
  have hfind : mfind s.own g = some o := by
    rw [hown]
    exact if_pos rfl
  have hpos : 0 < o.size := by
    simp only [List.mem_cons, List.not_mem_nil, or_false] at hsize
    omega
  have hgone : mdel s.own g = [] := by
    rw [hown]
    simp [mdel]
  have hread : ∀ x, readByte (o.dirty.foldl (fun m e => writeByte m e.1 e.2.1) s.mem) x = cohByte s x 0 := by
    intro x
    rw [readByte_foldl_entries hnodup, cohByte_grains hs hsize (by rw [hown]; simp)]
    refine congrArg (fun d : Option (Byte × Nat) => (d.map Prod.fst).getD (readByte s.mem x)) ?_
    unfold dirtyAt
    rw [hown, mfind]
    by_cases hx : g = x / o.size * o.size
    · rw [if_pos hx]
      rfl
    · rw [if_neg hx]
      refine Option.eq_none_iff_forall_ne_some.2 fun v hv => hx ?_
      obtain ⟨hlo, hhi, -⟩ := hin _ (mem_of_mfind hv)
      obtain ⟨q, rfl⟩ := Nat.dvd_of_mod_eq_zero hg
      have hq : x / o.size = q := by
        refine Nat.div_eq_of_lt_le ?_ ?_
        · rw [Nat.mul_comm]; exact hlo
        · rw [Nat.add_mul, Nat.one_mul, Nat.mul_comm]; exact hhi
      rw [hq, Nat.mul_comm]
  have hexec : exec (.homeRecall g) s = .next (recallGrain s g) := rfl
  rw [hexec, hs.recallGrain hfind fun e he => (hin e he).2.2]
  refine ⟨_, rfl, rfl, hgone, fun x => ⟨?_, hread x⟩⟩
  · have hs' : Settled { s with own := mdel s.own g, mem := o.dirty.foldl (fun m e => writeByte m e.1 e.2.1) s.mem } :=
      ⟨hs.pools, hs.mig, hs.reqs⟩
    rw [cohByte_unwritten hs' (by rw [hgone]; exact fun x hx => absurd hx List.not_mem_nil), hs'.physByte]
    exact hread x

/-- CONVERTED_WRITE (R72): the home stores what the delivered bytes make. -/
theorem convertedWrite_stores (s : State) (part va : Nat) (data : List Byte) (l : Leaf) (hs : Calm s)
    (hver : (getTask s part 0).card.ver = false)
    (hok : (checkAcc s (carmineAcc s part) .write 0 va 1 anyPage).1 = .ok l) (hsf : l.sf ≠ 0) (hdom : l.domain = false)
    (hkey : l.key = 0) (hne : data ≠ []) (hpage : pageOff l va + data.length ≤ if l.big then 2 ^ 21 else 2 ^ 16) :
    ∃ t, exec (.convertedWrite part va data) s = .next t ∧ t.groups = s.groups ∧ t.teams = s.teams
      ∧ t.mem = (encodeWrite (readByte s.mem) l (pageOff l va) data).1.foldl (fun m x => writeByte m x.1 x.2) s.mem := by
  obtain ⟨P, tlb, fresh, hfill, -⟩ := checkAcc_filled hs.1 (carmineAcc s part) .write 0 va 1 anyPage
  have hver' : (getTask { s with tlb, fresh } (carmineAcc s part).p (carmineAcc s part).tid).card.ver = false := hver
  have hexec : exec (.convertedWrite part va data) s
      = .next (writeUnit { s with tlb, fresh } (carmineAcc s part) l va data 4) := by
    change execConvertedWrite part va data s = _
    unfold execConvertedWrite
    have hgo : l.sf ≠ 0 ∧ (!l.domain) = true ∧ (!data.isEmpty) = true
        ∧ pageOff l va + data.length ≤ (if l.big then 2 ^ 21 else 2 ^ 16) :=
      ⟨hsf, by simp [hdom], by simpa using hne, hpage⟩
    simp only [hok, if_pos hgo, hfill]
    rw [writeAt, if_neg (ne_true_of_eq_false hver')]
  have hcalm : Calm { s with tlb, fresh } := hs
  obtain ⟨s1, hstore, -, hrun, hstore', -, hgroups, hteams⟩ := writeUnit_direct (c := carmineAcc s part) (va := va) (bs := data)
    (req := 4) (settled_of_calm hcalm) hdom fun h => absurd (hver'.symm.trans h) Bool.false_ne_true
  have hrd : storedByte (taintTask { s with tlb, fresh } (carmineAcc s part)) [] l.key = readByte s.mem := by
    have htaint : taintTask { s with tlb, fresh } (carmineAcc s part) = { s with tlb, fresh } := by
      unfold taintTask
      exact if_neg (by rw [hver']; exact Bool.false_ne_true)
    funext a
    rw [htaint, hkey]
    exact cohByte_calm hcalm a
  have hperf : ∀ ws, performWrite s1 (carmineAcc s part) l ws 4
      = { s1 with mem := ws.foldl (fun m w => writeByte m w.1 w.2) s1.mem } := by
    intro ws
    unfold performWrite
    rw [hkey, if_neg (by simp [hsf]), homeWrite_calm (calm_of_same hcalm hstore hrun)]
  rw [hrd, hperf] at hstore' hgroups hteams
  refine ⟨_, hexec, hgroups.trans hrun.groups, hteams.trans hrun.teams, hstore'.mem.trans ?_⟩
  dsimp only
  rw [hstore.mem]

/-- Cursors of a group have their own keys. -/
theorem curKey_inj {l m l' m' : Nat} (hm : m < 8) (hm' : m' < 8) : curKey l m = curKey l' m' ↔ l = l' ∧ m = m' := by
  unfold curKey
  omega

/-- CURSOR_BUFFER_DISCARD (R95): the buffer is empty, and registers stay. -/
theorem cursorBufferDiscard_empties (s : State) (gid lane cur : Nat) (hcur : cur < 8) :
    ∃ t, exec (.cursorBufferDiscard gid lane cur) s = .next t ∧ { t with groups := s.groups } = s
      ∧ (∀ y k, regOf t y k = regOf s y k)
      ∧ ∀ l m, l < 32 → m < 8 → getCur (getGroup t gid) l m
          = if l = lane ∧ m = cur then { getCur (getGroup s gid) l m with buf := [] } else getCur (getGroup s gid) l m := by
  have hregs : ∀ y k, regOf (modGroup s gid fun g => { g with
      cursors := mmod g.cursors (curKey lane cur) fun c => { c with buf := [] } }) y k = regOf s y k := by
    intro y k
    unfold regOf
    rcases getGroup_modGroup_or s gid (fun g => { g with
      cursors := mmod g.cursors (curKey lane cur) fun c => { c with buf := [] } }) y with hy | hy <;> rw [hy]
  refine ⟨_, rfl, rfl, hregs, fun l m hl hm => ?_⟩
  cases hg : mfind s.groups gid with
  | none =>
    have hno : getGroup (modGroup s gid fun g => { g with
        cursors := mmod g.cursors (curKey lane cur) fun c => { c with buf := [] } }) gid = Group.empty := by
      rw [getGroup, mget, mfind_modGroup, if_pos rfl, hg]
      rfl
    have hempty : getGroup s gid = Group.empty := by
      rw [getGroup, mget, hg]
      rfl
    rw [hno, hempty]
    split <;> rfl
  | some g =>
    rw [getGroup_modGroup_of _ hg, show getGroup s gid = g by rw [getGroup, mget, hg]; rfl]
    unfold getCur mget
    dsimp only
    rw [mfind_mmod]
    by_cases hlm : l = lane ∧ m = cur
    · rw [if_pos hlm, if_pos ((curKey_inj hm hcur).2 hlm), hlm.1, hlm.2]
      cases mfind g.cursors (curKey lane cur) <;> rfl
    · rw [if_neg hlm, if_neg fun hk => hlm ((curKey_inj hm hcur).1 hk)]

/-! ### Bytes of records -/

theorem leBytes_length (n x : Nat) : (leBytes n x).length = n := by
  induction n generalizing x with
  | zero => rfl
  | succ n ih => rw [leBytes, List.length_cons, ih]

/-- The bytes of a number hold it. -/
theorem leNat_leBytes (n x : Nat) : leNat (leBytes n x) = x % 256 ^ n := by
  induction n generalizing x with
  | zero => rw [Nat.pow_zero, Nat.mod_one]; rfl
  | succ n ih =>
    rw [leBytes, leNat, ih, BitVec.toNat_ofNat, show 256 ^ (n + 1) = 2 ^ 8 * 256 ^ n from Nat.pow_succ', Nat.mod_mul]
    rfl

/-- Bytes are read from where a run of them has been written. -/
theorem readBytes_run {m : Memory} {a : Nat} {bs : List Byte} (h : ∀ y, a ≤ y → y < a + bs.length → readByte m y = bs.getD (y - a) 0)
    {k n : Nat} (hk : k + n ≤ bs.length) : readBytes m (a + k) n = (bs.drop k).take n := by
  induction n generalizing k with
  | zero => rw [List.take_zero]; rfl
  | succ n ih =>
    rw [readBytes, h (a + k) (by omega) (by omega), Nat.add_assoc, ih (by omega), Nat.add_sub_cancel_left,
      List.drop_eq_getElem_cons (by omega : k < bs.length), List.take_succ_cons, List.getD_eq_getElem _ _ (by omega)]

/-- Bit 2 of the word that names the access of a fault record. -/
theorem infoWord_write {resq source : Nat} (w : Bool) (core : Nat) (hs : source ≤ 4) (hr : resq % 8 = 0) :
    ((if w then 4 else 0) + resq + core / 64 * 2 ^ 4 + (if source = 4 then 2 ^ 13 else source + core % 64 * 2 ^ 6)) / 4 % 2
      = if w then 1 else 0 := by
  cases w <;> simp only [Bool.false_eq_true, if_false, if_true] <;> split <;> omega

/-- Word 4 of a fault record says in bit 2 whether the access writes (R358). -/
theorem faultRecord_write (h : HeldAcc) (hs : h.source ≤ 4) :
    (leNat (((faultRecord h).drop 16).take 4)).testBit 2 = h.write := by
  obtain ⟨info, hinfo, hw⟩ : ∃ info, ((faultRecord h).drop 16).take 4 = leBytes 4 info
      ∧ info / 4 % 2 = if h.write then 1 else 0 := by
    refine ⟨_, rfl, infoWord_write h.write h.core hs ?_⟩
    split <;> rfl
  rw [hinfo, leNat_leBytes, show 256 ^ 4 = 2 ^ 32 by norm_num, Nat.testBit_mod_two_pow, Nat.testBit_eq_decide_div_mod_eq]
  cases hwr : h.write <;> simp [hw, hwr]

/-! ### The fault buffer -/

/-- How a held access is marked as its record leaves the device's hands (R359). -/
def markHeld (idx : Nat) (h : HeldAcc) (hs : List HeldAcc) : List HeldAcc :=
  if h.who = .served then hs.eraseIdx idx else hs.set idx { h with recorded := true }

/-- A partition with a held access so marked. -/
def markPart (idx : Nat) (h : HeldAcc) (q : Partition) : Partition := { q with held := markHeld idx h q.held }

/-- Memory with a fault record. -/
def recordMem (m : Memory) (at_ : Nat) (h : HeldAcc) : Memory :=
  ((rangeFrom at_ 32).zip (faultRecord h)).foldl (fun m w => writeByte m w.1 w.2) m

/-- A fault record stands where it was written (R358), and no other byte changes. -/
theorem recordMem_reads (m : Memory) (at_ : Nat) (h : HeldAcc) :
    leNat (readBytes (recordMem m at_ h) at_ 8) = h.va % 2 ^ 64 ∧ leNat (readBytes (recordMem m at_ h) (at_ + 8) 4) = h.gen % 2 ^ 32
    ∧ leNat (readBytes (recordMem m at_ h) (at_ + 12) 4) = h.tid % 2 ^ 32
    ∧ (h.source ≤ 4 → (leNat (readBytes (recordMem m at_ h) (at_ + 16) 4)).testBit 2 = h.write)
    ∧ ∀ x, (x < at_ ∨ at_ + 32 ≤ x) → readByte (recordMem m at_ h) x = readByte m x := by
  have hlen : (faultRecord h).length = 32 := rfl
  have hmem : ∀ y, readByte (recordMem m at_ h) y
      = if at_ ≤ y ∧ y < at_ + (faultRecord h).length then (faultRecord h).getD (y - at_) 0 else readByte m y :=
    fun y => readByte_writes (faultRecord h) m at_ y
  have hrun : ∀ k n, k + n ≤ 32 → readBytes (recordMem m at_ h) (at_ + k) n = ((faultRecord h).drop k).take n := fun k n hk =>
    readBytes_run (fun y hlo hhi => (hmem y).trans (if_pos ⟨hlo, hhi⟩)) (hlen ▸ hk)
  have hva : ((faultRecord h).drop 0).take 8 = leBytes 8 h.va := rfl
  have hgen : ((faultRecord h).drop 8).take 4 = leBytes 4 h.gen := rfl
  have htid : ((faultRecord h).drop 12).take 4 = leBytes 4 h.tid := rfl
  refine ⟨?_, ?_, ?_, fun hs => ?_, fun x hx => ?_⟩
  · exact (congrArg leNat ((hrun 0 8 (by omega)).trans hva)).trans (leNat_leBytes 8 h.va)
  · exact (congrArg leNat ((hrun 8 4 (by omega)).trans hgen)).trans (leNat_leBytes 4 h.gen)
  · exact (congrArg leNat ((hrun 12 4 (by omega)).trans htid)).trans (leNat_leBytes 4 h.tid)
  · rw [hrun 16 4 (by omega), faultRecord_write h hs]
  · rw [hmem, hlen, if_neg (by omega)]

/-- A change of a partition is what it makes of that partition. -/
theorem modPart_congr {s : State} {p : Nat} {f g : Partition → Partition} (h : f (getPart s p) = g (getPart s p)) :
    modPart s p f = modPart s p g := by
  unfold modPart
  rw [h]

/-- The model's mark of a held access (R359). -/
def markRaw (idx : Nat) (h : HeldAcc) (q : Partition) : Partition :=
  if h.who == .served then { q with held := q.held.eraseIdx idx }
  else { q with held := q.held.modify idx fun h => { h with recorded := true } }

theorem markRaw_eq {idx : Nat} {h : HeldAcc} {q : Partition} (hh : q.held[idx]? = some h) : markRaw idx h q = markPart idx h q := by
  unfold markRaw markPart markHeld
  by_cases hw : h.who = .served
  · rw [if_pos (beq_iff_eq.2 hw), if_pos hw]
  · rw [if_neg (mt beq_iff_eq.1 hw), if_neg hw, modify_eq_set_of _ hh]

/-- FAULT_RECORD of an access that is held and not recorded. -/
theorem faultRecord_eq {s : State} {p idx at_ : Nat} {h : HeldAcc} {q : Partition} (hq : getPart s p = q)
    (hat : q.fbbase + 32 * (q.fbput % fbSlots q) = at_) (hh : q.held[idx]? = some h) (hr : h.recorded = false) (hs : Calm s) :
    exec (.faultRecord p idx) s
      = .next (if h.gen ≠ q.fbgen then modPart s p (markPart idx h)
        else if fbFull q then s
        else if !holdsPhys s p at_ then reportFault (modPart s p (markPart idx h)) p
          ⟨13, 1, BitVec.ofNat 32 (at_ / 64), BitVec.ofNat 32 (at_ / 2 ^ 33), 0xFFFFFFFF#32⟩
        else modPart { s with mem := recordMem s.mem at_ h } p fun q =>
          { markPart idx h q with fbput := (q.fbput + 1) % 2 ^ 32 }) := by
  have hmem : homeWrite s ((rangeFrom at_ 32).zip (faultRecord h)) 0 = { s with mem := recordMem s.mem at_ h } :=
    homeWrite_calm hs _
  have hraw := markRaw_eq (hq.symm ▸ hh : (getPart s p).held[idx]? = some h)
  have hmark : modPart s p (markRaw idx h) = modPart s p (markPart idx h) := modPart_congr hraw
  have hlast : ∀ m, modPart { s with mem := m } p (fun q => { markRaw idx h q with fbput := (q.fbput + 1) % 2 ^ 32 })
      = modPart { s with mem := m } p fun q => { markPart idx h q with fbput := (q.fbput + 1) % 2 ^ 32 } := fun m =>
    modPart_congr (s := { s with mem := m }) (congrArg (fun x : Partition => { x with fbput := ((getPart s p).fbput + 1) % 2 ^ 32 }) hraw)
  rw [← hmark, ← hlast, ← hmem]
  change execFaultRecord p idx s = _
  unfold execFaultRecord
  simp only [hq, hh, hr, hat, Bool.false_eq_true, if_false]
  unfold markRaw
  split
  · rfl
  · split
    · rfl
    · split <;> rfl

theorem faultRecord_outcomes (s : State) (p idx : Nat) (h : HeldAcc) (hh : (getPart s p).held[idx]? = some h)
    (hr : h.recorded = false) (hs : Calm s) :
    let q := getPart s p
    let slots := 2 ^ (if 6 ≤ q.fbsize ∧ q.fbsize ≤ 16 then q.fbsize else 6)
    let at_ := q.fbbase + 32 * (q.fbput % slots)
    let full := (q.fbput + 2 ^ 32 - q.fbget) % 2 ^ 32 = slots
    let marked := if h.who = .served then q.held.eraseIdx idx else q.held.set idx { h with recorded := true }
    (h.gen ≠ q.fbgen → ∃ t, exec (.faultRecord p idx) s = .next t ∧ t.mem = s.mem ∧ getPart t p = { q with held := marked })
    ∧ (h.gen = q.fbgen → full → exec (.faultRecord p idx) s = .next s)
    ∧ (h.gen = q.fbgen → ¬ full → holdsPhys s p at_ = false → ∃ t, exec (.faultRecord p idx) s = .next t ∧ t.mem = s.mem
      ∧ getPart t p = { q with held := marked }
      ∧ t.mgmt.faults = s.mgmt.faults ++ [(p, ⟨13, 1, BitVec.ofNat 32 (at_ / 64), BitVec.ofNat 32 (at_ / 2 ^ 33), 0xFFFFFFFF#32⟩)])
    ∧ (h.gen = q.fbgen → ¬ full → holdsPhys s p at_ = true → ∃ t, exec (.faultRecord p idx) s = .next t
      ∧ getPart t p = { q with held := marked, fbput := (q.fbput + 1) % 2 ^ 32 }
      ∧ leNat (readBytes t.mem at_ 8) = h.va % 2 ^ 64 ∧ leNat (readBytes t.mem (at_ + 8) 4) = h.gen % 2 ^ 32
      ∧ leNat (readBytes t.mem (at_ + 12) 4) = h.tid % 2 ^ 32
      ∧ (h.source ≤ 4 → (leNat (readBytes t.mem (at_ + 16) 4)).testBit 2 = h.write)
      ∧ ∀ x, (x < at_ ∨ at_ + 32 ≤ x) → readByte t.mem x = readByte s.mem x) := by
  intro q slots at_ full marked
  have hexec := faultRecord_eq (s := s) (p := p) (at_ := at_) rfl rfl hh hr hs
  have hfull : fbFull (getPart s p) = true ↔ full := beq_iff_eq
  refine ⟨fun hgen => ?_, fun hgen hf => ?_, fun hgen hf hno => ?_, fun hgen hf hyes => ?_⟩
  · rw [if_pos hgen] at hexec
    exact ⟨_, hexec, rfl, getPart_modPart_self _ _ _⟩
  · rw [hexec, if_neg (not_not.2 hgen), if_pos (hfull.2 hf)]
  · rw [if_neg (not_not.2 hgen), if_neg (mt hfull.1 hf), if_pos (by rw [hno]; rfl)] at hexec
    exact ⟨_, hexec, rfl, getPart_modPart_self s p (markPart idx h), rfl⟩
  · rw [if_neg (not_not.2 hgen), if_neg (mt hfull.1 hf), if_neg (by rw [hyes]; exact Bool.false_ne_true)] at hexec
    obtain ⟨hva, hgen', htid, hwrite, hother⟩ := recordMem_reads s.mem at_ h
    generalize ht : modPart { s with mem := recordMem s.mem at_ h } p
      (fun q => { markPart idx h q with fbput := (q.fbput + 1) % 2 ^ 32 }) = t at hexec
    have hmem : t.mem = recordMem s.mem at_ h := by
      rw [← ht]
      unfold modPart
      dsimp only
    have hpart : getPart t p = { markPart idx h q with fbput := (q.fbput + 1) % 2 ^ 32 } := by
      rw [← ht, getPart_modPart_self]
      generalize recordMem s.mem at_ h = m
      rfl
    rw [← hmem] at hva hgen' htid hwrite hother
    exact ⟨t, hexec, hpart, hva, hgen', htid, hwrite, hother⟩

/-! ### Accesses tried again -/

/-- What the end of a party's held accesses leaves of one of them. -/
def keepHeld (w : HeldBy) (gen : Nat) (x : HeldAcc) : Option HeldAcc :=
  if x.who ≠ w then some x else if x.recorded = true ∨ x.gen ≠ gen then none else some { x with who := .served }

/-- The list of held accesses after a party's have ended. -/
theorem getPart_dropHeld (s : State) (p : Nat) (w : HeldBy) :
    getPart (dropHeld s p w) p = { getPart s p with held := (getPart s p).held.filterMap (keepHeld w (getPart s p).fbgen) } := by
  unfold dropHeld
  rw [getPart_modPart_self]
  refine congrArg (fun hs => { getPart s p with held := hs }) (congrArg (List.filterMap · _) (funext fun x => ?_))
  simp only [keepHeld, bne_iff_ne, Bool.or_eq_true]

/-- A party that is no operation of a group has its held accesses ended (R359). -/
theorem replayHeld_eq {s : State} {p : Nat} {w : HeldBy} (h : ∀ g o, w ≠ .op g o ∧ w ≠ .resq g o) :
    replayHeld s p w = dropHeld s p w := by
  unfold replayHeld
  split
  · next g o => exact absurd rfl (h g o).1
  · next g o => exact absurd rfl (h g o).2
  · rfl

theorem heldAccessReplay_ends (s : State) (p idx : Nat) (h : HeldAcc) (hh : (getPart s p).held[idx]? = some h)
    (hw : ∀ g o, h.who ≠ .op g o ∧ h.who ≠ .resq g o) (hserved : h.who ≠ .served) :
    ∃ t, exec (.heldAccessReplay p idx) s = .next t ∧ { t with parts := s.parts } = s
      ∧ let keep := fun x : HeldAcc => if x.who ≠ h.who then some x
          else if x.recorded = true ∨ x.gen ≠ (getPart s p).fbgen then none else some { x with who := HeldBy.served }
        getPart t p = { getPart s p with held := (getPart s p).held.filterMap keep } := by
  refine ⟨dropHeld s p h.who, ?_, rfl, getPart_dropHeld s p h.who⟩
  change execHeldAccessReplay p idx s = _
  unfold execHeldAccessReplay
  simp only [hh]
  rw [← replayHeld_eq hw]
  split
  · next g o he => exact absurd he (hw g o).2
  · next he => exact absurd he hserved
  · rfl

/-- Held accesses of an older generation are gone once their parties have been tried again. -/
theorem foldl_replayHeld {p gen : Nat} (ws : List HeldBy) {s : State} (hgen : (getPart s p).fbgen = gen)
    (hold : ∀ h ∈ (getPart s p).held, h.gen ≠ gen) (hw : ∀ w ∈ ws, ∀ g o, w ≠ .op g o ∧ w ≠ .resq g o) :
    let t := ws.foldl (fun acc w => replayHeld acc p w) s
    { t with parts := s.parts } = s
    ∧ getPart t p = { getPart s p with held := (getPart s p).held.filter fun h => !ws.contains h.who } := by
  induction ws generalizing s with
  | nil =>
    refine ⟨rfl, ?_⟩
    simp only [List.foldl_nil, List.contains_nil, Bool.not_false, List.filter_true]
  | cons w r ih =>
    have hdrop : (getPart s p).held.filterMap (keepHeld w gen) = (getPart s p).held.filter fun h => h.who != w := by
      rw [← List.filterMap_eq_filter]
      refine List.filterMap_congr fun x hx => ?_
      unfold keepHeld Option.guard
      by_cases hx' : x.who = w
      · simp [hx', hold x hx]
      · simp [hx']
    have hpart := getPart_dropHeld s p w
    rw [hgen, hdrop] at hpart
    rw [List.foldl_cons, replayHeld_eq (hw w List.mem_cons_self)]
    obtain ⟨hrest, hheld⟩ := ih (s := dropHeld s p w) (by rw [hpart]; exact hgen)
      (fun h hh => hold h (by rw [hpart] at hh; exact List.mem_of_mem_filter hh)) fun x hx => hw x (List.mem_cons_of_mem _ hx)
    refine ⟨congrArg (fun t : State => { t with parts := s.parts }) hrest, ?_⟩
    rw [hheld, hpart]
    dsimp only
    rw [List.filter_filter]
    refine congrArg (fun hs => { getPart s p with held := hs }) (congrArg (List.filter · _) (funext fun x => ?_))
    rw [List.contains_cons, Bool.not_or, Bool.and_comm]
    rfl

theorem fbgenWrite_replays (s : State) (p : Nat) (v : Word) :
    (v.toNat = (getPart s p).fbgen → exec (.fbgenWrite p v) s = .next s)
    ∧ (v.toNat ≠ (getPart s p).fbgen → (∀ h ∈ (getPart s p).held, h.gen ≠ v.toNat ∧ ∀ g o, h.who ≠ .op g o ∧ h.who ≠ .resq g o) →
      ∃ t, exec (.fbgenWrite p v) s = .next t ∧ { t with parts := s.parts } = s
        ∧ getPart t p = { getPart s p with fbgen := v.toNat, held := [] }) := by
  refine ⟨fun hv => if_pos hv, fun hv hheld => ?_⟩
  generalize hs1 : modPart s p (fun q => { q with fbgen := v.toNat }) = s1
  have hpart : getPart s1 p = { getPart s p with fbgen := v.toNat } := by rw [← hs1, getPart_modPart_self]
  have hmem : ∀ w ∈ ((getPart s p).held.map (·.who)).eraseDups, ∃ h ∈ (getPart s p).held, h.who = w := fun w hw =>
    List.mem_map.1 (List.mem_eraseDups.1 hw)
  obtain ⟨hrest, hp⟩ := foldl_replayHeld (((getPart s p).held.map (·.who)).eraseDups) (s := s1) (p := p) (gen := v.toNat)
    (by rw [hpart]) (fun h hh => (hheld h (by rw [hpart] at hh; exact hh)).1) fun w hw => by
      obtain ⟨h, hh, rfl⟩ := hmem w hw
      exact (hheld h hh).2
  have hexec : exec (.fbgenWrite p v) s
      = .next ((((getPart s p).held.map (·.who)).eraseDups).foldl (fun acc w => replayHeld acc p w) s1) := by
    rw [← hs1]
    exact if_neg hv
  refine ⟨_, hexec, ?_, ?_⟩
  · refine (congrArg (fun t : State => { t with parts := s.parts }) hrest).trans ?_
    rw [← hs1]
    rfl
  · rw [hp, hpart]
    refine congrArg (fun hs => { getPart s p with fbgen := v.toNat, held := hs }) (List.filter_eq_nil_iff.2 fun x hx => ?_)
    have hin : x.who ∈ ((getPart s p).held.map (·.who)).eraseDups := List.mem_eraseDups.2 (List.mem_map.2 ⟨x, hx, rfl⟩)
    simp [hin]

/-- Settles O36: recalls and converted writes at their homes, the fault record, and held accesses tried again. -/
theorem homesAndFaults : Obligations.HomesAndFaults := by
  unfold Obligations.HomesAndFaults
  refine ⟨⟨fun s g o hown hpools hmig hreqs => homeRecall_stores s g o hown ⟨hpools, hmig, hreqs⟩, convertedWrite_stores,
    fun s gid lane cur _ hcur => cursorBufferDiscard_empties s gid lane cur hcur⟩,
    faultRecord_outcomes, heldAccessReplay_ends, ?_, fbgenWrite_replays⟩
  intro s p idx h gid op o e k leaf hh hwho hfind hstage hlost hs
  dsimp only
  intro hp hwait hacq hr hreq hlanes hnodup h32 hregs
  obtain ⟨o', hmem, hfind', hcase, hheld⟩ := replayHeld_ld hfind hstage hlost hs hp hwait hacq hr hreq hlanes hnodup h32 hregs
  refine ⟨_, o', ?_, hmem, hfind', hcase, hheld⟩
  change execHeldAccessReplay p idx s = _
  unfold execHeldAccessReplay
  simp only [hh, hwho]

end Sys2Proof.Machine
end

section
/-!
SUPPORT. Converted pages (R69 to R72): which bytes an element is read from, what bytes laid over others are read as, and how the
elements of a block lie in its bytes. The statement about page views builds on it.
-/

namespace Sys2Proof.Machine

/-! ### Bytes laid over others -/

/-- Bytes as they are read once writes have been made to them, one after another. -/
def overlay (rd : Nat → Byte) (ws : List (Nat × Byte)) : Nat → Byte :=
  ws.foldl (fun m x a => if a = x.1 then x.2 else m a) rd

/-- A byte that nothing is written to stays. -/
theorem overlay_of_not_mem {ws : List (Nat × Byte)} {a : Nat} (h : ∀ w ∈ ws, w.1 ≠ a) (rd : Nat → Byte) :
    overlay rd ws a = rd a := by
  unfold overlay
  induction ws generalizing rd with
  | nil => rfl
  | cons w r ih =>
    rw [List.foldl_cons, ih fun x hx => h x (List.mem_cons_of_mem _ hx)]
    exact if_neg (h w List.mem_cons_self).symm

/-- A byte that all its writes agree on is read as they say. -/
theorem overlay_of_mem {ws : List (Nat × Byte)} {a : Nat} {v : Byte} (hin : ∃ w ∈ ws, w.1 = a) (h : ∀ w ∈ ws, w.1 = a → w.2 = v)
    (rd : Nat → Byte) : overlay rd ws a = v := by
  induction ws generalizing rd with
  | nil =>
    obtain ⟨w, hw, -⟩ := hin
    exact absurd hw List.not_mem_nil
  | cons w r ih =>
    by_cases hr : ∃ x ∈ r, x.1 = a
    · exact ih hr (fun x hx => h x (List.mem_cons_of_mem _ hx)) _
    · have hw : w.1 = a := by
        obtain ⟨x, hx, hxa⟩ := hin
        rcases List.mem_cons.1 hx with rfl | hx
        · exact hxa
        · exact absurd ⟨x, hx, hxa⟩ hr
      refine (overlay_of_not_mem (fun x hx hxa => hr ⟨x, hx, hxa⟩) _).trans ?_
      exact (if_pos hw.symm).trans (h w List.mem_cons_self hw)

/-- The entries of a run. -/
theorem mem_zip_range {β : Type} {bs : List β} {x : Nat} {w : Nat × β} (d : β) (h : w ∈ (rangeFrom x bs.length).zip bs) :
    x ≤ w.1 ∧ w.1 < x + bs.length ∧ w.2 = bs.getD (w.1 - x) d := by
  induction bs generalizing x with
  | nil => exact absurd h List.not_mem_nil
  | cons b r ih =>
    rw [List.length_cons, rangeFrom, List.zip_cons_cons] at h
    rcases List.mem_cons.1 h with rfl | h
    · refine ⟨Nat.le_refl _, by rw [List.length_cons]; omega, ?_⟩
      rw [Nat.sub_self, List.getD_cons_zero]
    · obtain ⟨hlo, hhi, hv⟩ := ih h
      refine ⟨by omega, by rw [List.length_cons]; omega, ?_⟩
      rw [hv, show w.1 - x = w.1 - (x + 1) + 1 by omega, List.getD_cons_succ]

/-- A run has an entry at each of its places. -/
theorem exists_zip_range {β : Type} {bs : List β} {x a : Nat} (hlo : x ≤ a) (hhi : a < x + bs.length) :
    ∃ w ∈ (rangeFrom x bs.length).zip bs, w.1 = a := by
  have hmem : a ∈ ((rangeFrom x bs.length).zip bs).map Prod.fst := by
    rw [List.map_fst_zip (by rw [rangeFrom_length])]
    exact (mem_rangeFrom _ _ _).2 ⟨hlo, hhi⟩
  obtain ⟨w, hw, rfl⟩ := List.mem_map.1 hmem
  exact ⟨w, hw, rfl⟩

/-- The entry of a run at an address. -/
theorem mfind_zip_range {β : Type} (bs : List β) (x a : Nat) (d : β) :
    mfind ((rangeFrom x bs.length).zip bs) a = if x ≤ a ∧ a < x + bs.length then some (bs.getD (a - x) d) else none := by
  split
  · next h =>
    obtain ⟨w, hw, rfl⟩ := exists_zip_range h.1 h.2
    have hnodup : (mkeys ((rangeFrom x bs.length).zip bs)).Nodup := by
      unfold mkeys
      rw [List.map_fst_zip (by rw [rangeFrom_length])]
      exact rangeFrom_nodup _ _
    rw [mfind_of_nodup hnodup hw, (mem_zip_range d hw).2.2]
  · next h =>
    refine mfind_none_of_not_mem fun hmem => h ?_
    obtain ⟨w, hw, rfl⟩ := List.mem_map.1 hmem
    exact ⟨(mem_zip_range d hw).1, (mem_zip_range d hw).2.1⟩

/-! ### Bits of elements -/

/-- The bytes of a number. -/
theorem leBytes_getD (n x k : Nat) (h : k < n) : (leBytes n x).getD k 0 = BitVec.ofNat 8 (x / 256 ^ k) := by
  induction n generalizing x k with
  | zero => exact absurd h (Nat.not_lt_zero k)
  | succ n ih =>
    rw [leBytes]
    cases k with
    | zero => rw [List.getD_cons_zero, Nat.pow_zero, Nat.div_one]
    | succ k => rw [List.getD_cons_succ, ih _ _ (by omega), Nat.div_div_eq_div_mul, Nat.pow_succ, Nat.mul_comm]

/-- A bit of a byte of a number is a bit of the number. -/
theorem testBit_byte {q r : Nat} (x : Nat) (hr : r < 8) : (BitVec.ofNat 8 (x / 256 ^ q)).toNat.testBit r = x.testBit (8 * q + r) := by
  rw [BitVec.toNat_ofNat, Nat.testBit_mod_two_pow, show (256 : Nat) = 2 ^ 8 from rfl, ← Nat.pow_mul, Nat.testBit_div_two_pow,
    Nat.add_comm, decide_eq_true hr, Bool.true_and]

/-- A bit of packed elements is a bit of the element that it lies in (R34). -/
theorem testBit_packBits {w t : Nat} (ht : t < w) (xs : List Nat) (j : Nat) :
    (packBits w xs).testBit (w * j + t) = (xs.getD j 0).testBit t := by
  induction xs generalizing j with
  | nil => simp [packBits]
  | cons x r ih =>
    have hlow : x % 2 ^ w < 2 ^ w := Nat.mod_lt _ (Nat.two_pow_pos w)
    rw [packBits, Nat.add_comm, Nat.testBit_two_pow_mul_add _ hlow]
    cases j with
    | zero => rw [Nat.mul_zero, Nat.zero_add, if_pos ht, List.getD_cons_zero, Nat.testBit_mod_two_pow, decide_eq_true ht, Bool.true_and]
    | succ j =>
      rw [Nat.mul_succ, if_neg (by omega), show w * j + w + t - w = w * j + t by omega, ih, List.getD_cons_succ]

/-- The bits of an element lie in the bytes that its place names (R34, R70). -/
theorem testBit_elemBits {w : Nat} (hw : w ≤ 8) (rd : Nat → Byte) (a j t : Nat) :
    (elemBits rd w a j).testBit t = (decide (t < w) && (rd (a + (w * j + t) / 8)).toNat.testBit ((w * j + t) % 8)) := by
  unfold elemBits
  rw [Nat.testBit_mod_two_pow]
  by_cases ht : t < w
  · rw [decide_eq_true ht, Bool.true_and, Bool.true_and, Nat.testBit_shiftRight]
    have hpair : leNat [rd (a + w * j / 8), rd (a + w * j / 8 + 1)]
        = 2 ^ 8 * (rd (a + w * j / 8 + 1)).toNat + (rd (a + w * j / 8)).toNat := by
      simp only [leNat]
      omega
    rw [hpair, Nat.testBit_two_pow_mul_add _ (BitVec.isLt _)]
    by_cases hlow : w * j % 8 + t < 8
    · rw [if_pos hlow, show (w * j + t) / 8 = w * j / 8 by omega, show (w * j + t) % 8 = w * j % 8 + t by omega]
    · rw [if_neg hlow, show a + (w * j + t) / 8 = a + w * j / 8 + 1 by omega, show (w * j + t) % 8 = w * j % 8 + t - 8 by omega]
  · rw [decide_eq_false ht, Bool.false_and, Bool.false_and]

/-- An element reads the same where its bytes are the same. -/
theorem elemBits_congr {w : Nat} (hw : w ≤ 8) {rd rd' : Nat → Byte} {a j : Nat}
    (h : ∀ t < w, rd' (a + (w * j + t) / 8) = rd (a + (w * j + t) / 8)) : elemBits rd' w a j = elemBits rd w a j := by
  refine Nat.eq_of_testBit_eq fun t => ?_
  rw [testBit_elemBits hw, testBit_elemBits hw]
  by_cases ht : t < w
  · rw [h t ht]
  · rw [decide_eq_false ht, Bool.false_and, Bool.false_and]

/-- Packed elements are read back, as far as they have bits. -/
theorem elemBits_packed {w : Nat} (hw : w ≤ 8) {rd : Nat → Byte} {a j : Nat} {xs : List Nat}
    (h : ∀ t < w, rd (a + (w * j + t) / 8) = BitVec.ofNat 8 (packBits w xs / 256 ^ ((w * j + t) / 8))) :
    elemBits rd w a j = xs.getD j 0 % 2 ^ w := by
  refine Nat.eq_of_testBit_eq fun t => ?_
  rw [testBit_elemBits hw, Nat.testBit_mod_two_pow]
  by_cases ht : t < w
  · rw [h t ht, testBit_byte _ (Nat.mod_lt _ (by decide)), Nat.div_add_mod, testBit_packBits ht]
  · rw [decide_eq_false ht, Bool.false_and, Bool.false_and]

theorem elemBits_lt (rd : Nat → Byte) (w a j : Nat) : elemBits rd w a j < 2 ^ w := Nat.mod_lt _ (Nat.two_pow_pos w)

/-! ### Blocks -/

/-- Where the scale of a block of an MX page is stored (R70). -/
def scaleAt (l : Leaf) (b : Nat) : Nat := l.frame + b / 32 * chunkBytes l.sf + 128 * sfBits l.sf + b % 32

/-- Where the elements of a block of an MX page are stored (R70). -/
def elemsAt (l : Leaf) (b : Nat) : Nat := l.frame + b / 32 * chunkBytes l.sf + b % 32 * sfBits l.sf * 4

/-- The element bits and the chunk of an MX format. -/
theorem sfBits_mx {sf : Nat} (h : sf ∈ [1, 2, 3, 5]) :
    sf ≠ 0 ∧ sf ≠ 4 ∧ sfBits sf = (if sf = 2 then 6 else if sf = 3 then 4 else 8) ∧ chunkBytes sf = 128 * sfBits sf + 32 := by
  simp only [List.mem_cons, List.not_mem_nil, or_false] at h
  rcases h with rfl | rfl | rfl | rfl <;> exact ⟨by decide, by decide, rfl, rfl⟩

theorem sfBits_le {sf : Nat} (h : sf ∈ [1, 2, 3, 5]) : sfBits sf ≤ 8 := by
  simp only [List.mem_cons, List.not_mem_nil, or_false] at h
  rcases h with rfl | rfl | rfl | rfl <;> decide

theorem dfCode_eq (df : Nat) : dfCode df = if df = 1 then 3 else if df = 2 then 2 else 0 := by
  unfold dfCode
  split
  · rfl
  · rfl
  · next h1 h2 => rw [if_neg h1, if_neg h2]

/-- An element of an MX page, in its block (R71). -/
theorem elemPattern_mx {l : Leaf} (h : l.sf ∈ [1, 2, 3, 5]) (rd : Nat → Byte) (i : Nat) :
    elemPattern rd l i = pageRound (dfCode l.df) (mxValue (sfCode l.sf) (rd (scaleAt l (i / 32))).toNat
      (elemBits rd (sfBits l.sf) (elemsAt l (i / 32)) (i % 32))) := by
  unfold elemPattern mxLoc scaleAt elemsAt
  simp only [(sfBits_mx h).2.1, if_false, Nat.mod_eq_of_lt (elemBits_lt _ _ _ _), show i / 1024 = i / 32 / 32 by omega,
    show i % 1024 / 32 = i / 32 % 32 by omega]

/-- Where the scale of an element's block is, counted from its chunk (R70). -/
theorem scaleAt_of_index {l : Leaf} (h : l.sf ∈ [1, 2, 3, 5]) (i : Nat) :
    scaleAt l (i / 32) = l.frame + i / 1024 * (128 * sfBits l.sf + 32) + 128 * sfBits l.sf + i % 1024 / 32 := by
  unfold scaleAt
  rw [(sfBits_mx h).2.2.2, show i / 32 / 32 = i / 1024 by omega, show i / 32 % 32 = i % 1024 / 32 by omega]

/-- The element bits of an MX format are one of three. -/
theorem sfBits_cases {sf : Nat} (h : sf ∈ [1, 2, 3, 5]) : sfBits sf = 4 ∨ sfBits sf = 6 ∨ sfBits sf = 8 := by
  simp only [List.mem_cons, List.not_mem_nil, or_false] at h
  rcases h with rfl | rfl | rfl | rfl <;> decide

/-- The bits of an element, counted from its chunk (R70). -/
theorem elemBits_of_index {l : Leaf} (h : l.sf ∈ [1, 2, 3, 5]) (rd : Nat → Byte) (i : Nat) :
    let chunk := l.frame + i / 1024 * (128 * sfBits l.sf + 32)
    let bit := sfBits l.sf * (i % 1024)
    elemBits rd (sfBits l.sf) (elemsAt l (i / 32)) (i % 32)
      = leNat [rd (chunk + bit / 8), rd (chunk + bit / 8 + 1)] / 2 ^ (bit % 8) % 2 ^ sfBits l.sf := by
  intro chunk bit
  have hbit : bit = 8 * (i / 32 % 32 * sfBits l.sf * 4) + sfBits l.sf * (i % 32) := by
    have hi : i % 1024 = 32 * (i / 32 % 32) + i % 32 := by omega
    change sfBits l.sf * (i % 1024) = _
    rw [hi, Nat.mul_add]
    congr 1
    ring
  have helems : elemsAt l (i / 32) = chunk + i / 32 % 32 * sfBits l.sf * 4 := by
    unfold elemsAt
    rw [(sfBits_mx h).2.2.2, show i / 32 / 32 = i / 1024 by omega]
  have hplace : elemsAt l (i / 32) + sfBits l.sf * (i % 32) / 8 = chunk + bit / 8 := by
    rw [hbit, Nat.mul_add_div (by decide), helems, Nat.add_assoc]
  have hshift : bit % 8 = sfBits l.sf * (i % 32) % 8 := by
    rw [hbit, Nat.mul_add_mod]
  unfold elemBits
  dsimp only
  rw [hplace, ← hshift, Nat.shiftRight_eq_div_pow]

/-- The bytes of a block's elements. -/
theorem elemByte_lt {w j t : Nat} (hj : j < 32) (ht : t < w) : (w * j + t) / 8 < 4 * w := by
  have hmul : w * j + t < w * 32 := calc
    w * j + t < w * j + w := by omega
    _ = w * (j + 1) := (Nat.mul_succ _ _).symm
    _ ≤ w * 32 := Nat.mul_le_mul_left _ (by omega)
  omega

/-- A place has one row and one column. -/
theorem row_column {n c c' o o' : Nat} (h : c * n + o = c' * n + o') (ho : o < n) (ho' : o' < n) : c = c' ∧ o = o' := by
  have hdiv : ∀ x y, y < n → (x * n + y) / n = x := fun x y hy => by
    rw [Nat.mul_comm, Nat.mul_add_div (by omega), Nat.div_eq_of_lt hy, Nat.add_zero]
  have hc : c = c' := (hdiv c o ho).symm.trans ((congrArg (· / n) h).trans (hdiv c' o' ho'))
  subst hc
  exact ⟨rfl, Nat.add_left_cancel h⟩

/-- Scales and elements of blocks do not meet, nor do those of different blocks. -/
theorem blocks_apart {l : Leaf} (h : l.sf ∈ [1, 2, 3, 5]) {b b' q q' : Nat} (hq : q < 4 * sfBits l.sf) (hq' : q' < 4 * sfBits l.sf) :
    elemsAt l b + q ≠ scaleAt l b' ∧ (scaleAt l b = scaleAt l b' → b = b') ∧ (elemsAt l b + q = elemsAt l b' + q' → b = b') := by
  obtain ⟨-, -, -, hchunk⟩ := sfBits_mx h
  have hrow : ∀ x, b / 32 * chunkBytes l.sf + b % 32 * sfBits l.sf * 4 + x = b / 32 * (128 * sfBits l.sf + 32) + (b % 32 * (4 * sfBits l.sf) + x) := by
    intro x
    rw [hchunk, Nat.mul_assoc (b % 32), Nat.mul_comm (sfBits l.sf) 4, Nat.add_assoc]
  have hrow' : ∀ x, b' / 32 * chunkBytes l.sf + b' % 32 * sfBits l.sf * 4 + x
      = b' / 32 * (128 * sfBits l.sf + 32) + (b' % 32 * (4 * sfBits l.sf) + x) := by
    intro x
    rw [hchunk, Nat.mul_assoc (b' % 32), Nat.mul_comm (sfBits l.sf) 4, Nat.add_assoc]
  have hcol : ∀ r x, r < 32 → x < 4 * sfBits l.sf → r * (4 * sfBits l.sf) + x < 128 * sfBits l.sf := by
    intro r x hr hx
    have := Nat.mul_le_mul_right (4 * sfBits l.sf) (show r + 1 ≤ 32 by omega)
    rw [Nat.add_mul] at this
    omega
  have hb := hcol (b % 32) q (Nat.mod_lt _ (by decide)) hq
  have hb' := hcol (b' % 32) q' (Nat.mod_lt _ (by decide)) hq'
  unfold elemsAt scaleAt
  refine ⟨fun he => ?_, fun he => ?_, fun he => ?_⟩
  · have hplace : b / 32 * (128 * sfBits l.sf + 32) + (b % 32 * (4 * sfBits l.sf) + q)
        = b' / 32 * (128 * sfBits l.sf + 32) + (128 * sfBits l.sf + b' % 32) := by
      rw [← hrow q, ← hchunk]
      omega
    have := (row_column hplace (by omega) (by omega)).2
    omega
  · have hplace : b / 32 * (128 * sfBits l.sf + 32) + (128 * sfBits l.sf + b % 32)
        = b' / 32 * (128 * sfBits l.sf + 32) + (128 * sfBits l.sf + b' % 32) := by
      rw [← hchunk]
      omega
    have := row_column hplace (by omega) (by omega)
    omega
  · have hplace : b / 32 * (128 * sfBits l.sf + 32) + (b % 32 * (4 * sfBits l.sf) + q)
        = b' / 32 * (128 * sfBits l.sf + 32) + (b' % 32 * (4 * sfBits l.sf) + q') := by
      rw [← hrow q, ← hrow' q']
      omega
    obtain ⟨hchunks, hin⟩ := row_column hplace (by omega) (by omega)
    have := (row_column hin hq hq').1
    omega

/-- What a block reads once its scale and its elements have been stored. -/
theorem elemPattern_stored {l : Leaf} (h : l.sf ∈ [1, 2, 3, 5]) (rd : Nat → Byte) (b scale : Nat) {xs : List Nat} (hxs : xs.length = 32) :
    let after := overlay rd ((scaleAt l b, BitVec.ofNat 8 scale) :: packedBytes (sfBits l.sf) (elemsAt l b) xs)
    (∀ j < 32, elemPattern after l (32 * b + j)
      = pageRound (dfCode l.df) (mxValue (sfCode l.sf) (scale % 256) (xs.getD j 0 % 2 ^ sfBits l.sf)))
    ∧ ∀ i, i / 32 ≠ b → elemPattern after l i = elemPattern rd l i := by
  intro after
  have hw8 := sfBits_le h
  have hlen : (leBytes (sfBits l.sf * xs.length / 8) (packBits (sfBits l.sf) xs)).length = sfBits l.sf * 4 := by
    rw [leBytes_length, hxs]
    omega
  have hpacked : packedBytes (sfBits l.sf) (elemsAt l b) xs
      = (rangeFrom (elemsAt l b) (leBytes (sfBits l.sf * xs.length / 8) (packBits (sfBits l.sf) xs)).length).zip
          (leBytes (sfBits l.sf * xs.length / 8) (packBits (sfBits l.sf) xs)) := by
    rw [leBytes_length]
    rfl
  have hplace : ∀ w ∈ packedBytes (sfBits l.sf) (elemsAt l b) xs, elemsAt l b ≤ w.1 ∧ w.1 < elemsAt l b + sfBits l.sf * 4
      ∧ w.2 = BitVec.ofNat 8 (packBits (sfBits l.sf) xs / 256 ^ (w.1 - elemsAt l b)) := by
    intro w hw
    rw [hpacked] at hw
    obtain ⟨hlo, hhi, hv⟩ := mem_zip_range 0 hw
    rw [hlen] at hhi
    rw [leBytes_getD _ _ _ (by rw [hxs]; omega)] at hv
    exact ⟨hlo, hhi, hv⟩
  have hscale : ∀ w ∈ (scaleAt l b, BitVec.ofNat 8 scale) :: packedBytes (sfBits l.sf) (elemsAt l b) xs,
      w.1 = scaleAt l b → w.2 = BitVec.ofNat 8 scale := by
    intro w hw he
    rcases List.mem_cons.1 hw with rfl | hw
    · rfl
    · obtain ⟨hlo, hhi, -⟩ := hplace w hw
      refine absurd ?_ (blocks_apart h (b := b) (b' := b) (q := w.1 - elemsAt l b) (q' := w.1 - elemsAt l b) (by omega) (by omega)).1
      rw [← he]
      omega
  refine ⟨fun j hj => ?_, fun i hi => ?_⟩
  · have hread : elemBits after (sfBits l.sf) (elemsAt l b) j = xs.getD j 0 % 2 ^ sfBits l.sf := by
      refine elemBits_packed hw8 fun t ht => ?_
      have hq := elemByte_lt hj ht
      refine overlay_of_mem ?_ (fun w hw he => ?_) rd
      · have hlen4 : (sfBits l.sf * j + t) / 8 < (leBytes (sfBits l.sf * xs.length / 8) (packBits (sfBits l.sf) xs)).length := by
          rw [hlen]
          omega
        obtain ⟨w, hw, he⟩ := exists_zip_range (Nat.le_add_right (elemsAt l b) _) (Nat.add_lt_add_left hlen4 (elemsAt l b))
        exact ⟨w, List.mem_cons_of_mem _ (hpacked ▸ hw), he⟩
      · rcases List.mem_cons.1 hw with rfl | hw
        · exact absurd he.symm (blocks_apart h hq hq).1
        · rw [(hplace w hw).2.2, he, Nat.add_sub_cancel_left]
    have hread' : after (scaleAt l b) = BitVec.ofNat 8 scale := overlay_of_mem ⟨_, List.mem_cons_self, rfl⟩ hscale rd
    rw [elemPattern_mx h, show (32 * b + j) / 32 = b by omega, show (32 * b + j) % 32 = j by omega, hread, hread', BitVec.toNat_ofNat]
  · have hkeep : ∀ a, a ≠ scaleAt l b → (∀ q < 4 * sfBits l.sf, a ≠ elemsAt l b + q) → after a = rd a := by
      intro a hs he
      refine overlay_of_not_mem (fun w hw ha => ?_) rd
      rcases List.mem_cons.1 hw with rfl | hw
      · exact hs ha.symm
      · obtain ⟨hlo, hhi, -⟩ := hplace w hw
        exact he (w.1 - elemsAt l b) (by omega) (by omega)
    have hfirst : 0 < 4 * sfBits l.sf := by
      rcases sfBits_cases h with hw | hw | hw <;> rw [hw] <;> decide
    have hscale' : after (scaleAt l (i / 32)) = rd (scaleAt l (i / 32)) :=
      hkeep _ (fun he => hi ((blocks_apart h hfirst hfirst).2.1 he)) fun q hq he => (blocks_apart h hq hq).1 he.symm
    have hread : elemBits after (sfBits l.sf) (elemsAt l (i / 32)) (i % 32) = elemBits rd (sfBits l.sf) (elemsAt l (i / 32)) (i % 32) := by
      refine elemBits_congr hw8 fun t ht => ?_
      have hq := elemByte_lt (Nat.mod_lt i (by decide : 0 < 32)) ht
      exact hkeep _ (blocks_apart h hq hq).1 fun q' hq' he => hi ((blocks_apart h hq hq').2.2 he)
    rw [elemPattern_mx h, elemPattern_mx h, hscale', hread]

/-! ### Writes -/

/-- Whether a write of `n` bytes at a page offset touches element `i` of `d` bytes. -/
def Touches (off n d i : Nat) : Prop := ∃ k < d, off ≤ i * d + k ∧ i * d + k < off + n

/-- The elements that a write touches are consecutive. -/
theorem touches_iff {off n d i : Nat} (hd : 0 < d) (hn : 0 < n) : Touches off n d i ↔ off / d ≤ i ∧ i ≤ (off + n - 1) / d := by
  have hlo : off / d ≤ i ↔ off < (i + 1) * d := by
    rw [← Nat.lt_succ_iff, Nat.div_lt_iff_lt_mul hd]
  rw [hlo, Nat.le_div_iff_mul_le hd, Nat.add_mul, Nat.one_mul]
  constructor
  · rintro ⟨k, hk, h1, h2⟩
    omega
  · rintro ⟨h1, h2⟩
    by_cases ho : off ≤ i * d
    · exact ⟨0, hd, by omega, by omega⟩
    · exact ⟨off - i * d, by omega, by omega, by omega⟩

/-- An element with written bytes in place (R72 step 1). -/
def patOf (off : Nat) (bs : List Byte) (d old i : Nat) : Nat :=
  leNat ((List.range d).map fun k =>
    if off ≤ i * d + k ∧ i * d + k < off + bs.length then bs.getD (i * d + k - off) 0 else BitVec.ofNat 8 (old / 256 ^ k))

theorem mergedPattern_eq (rd : Nat → Byte) (l : Leaf) (off : Nat) (bs : List Byte) (i : Nat) :
    mergedPattern rd l ((rangeFrom off bs.length).zip bs) i = patOf off bs (dfBytes l.df) (elemPattern rd l i) i := by
  unfold mergedPattern patOf
  refine congrArg leNat (List.map_congr_left fun k _ => ?_)
  rw [mget, mfind_zip_range bs off (i * dfBytes l.df + k) 0]
  split <;> rfl

/-- What lists gathered one after another are. -/
theorem foldl_gather {α : Type} (f : Nat → List α) (g : Nat → Nat) (xs : List Nat) (acc : List α × Nat) :
    (xs.foldl (fun acc i => (acc.1 ++ f i, acc.2 + g i)) acc).1 = acc.1 ++ xs.flatMap f := by
  induction xs generalizing acc with
  | nil => exact (List.append_nil _).symm
  | cons x r ih => rw [List.foldl_cons, ih, List.flatMap_cons, List.append_assoc]

theorem dfBytes_pos (df : Nat) : 0 < dfBytes df := by
  unfold dfBytes
  split <;> decide

/-- A BF16 value is read from 16 bits. -/
theorem fval_bf16_mod (p : Nat) : fval 3 (p % 2 ^ 16) = fval 3 p := by
  have h1 : p % 2 ^ 16 % 2 ^ 7 = p % 2 ^ 7 := Nat.mod_mod_of_dvd _ (by decide)
  have h2 : (p % 2 ^ 16) >>> 7 % 2 ^ 8 = p >>> 7 % 2 ^ 8 := by
    simp only [Nat.shiftRight_eq_div_pow]
    omega
  have h3 : (p % 2 ^ 16).testBit (8 + 7) = p.testBit (8 + 7) := by
    rw [Nat.testBit_mod_two_pow]
    rfl
  unfold fval
  simp only [show ¬ (3 = 14) by decide, if_false, ffOf, h1, h2, h3]

/-! ### Pages of BF16 -/

/-- What an element of a page stored as BF16 is written as (R72). -/
def bf16Of (rd : Nat → Byte) (l : Leaf) (off : Nat) (bs : List Byte) (i : Nat) : Nat :=
  pageRound 3 (fval (dfCode l.df) (patOf off bs (dfBytes l.df) (elemPattern rd l i) i))

theorem elemPattern_half {l : Leaf} (h : l.sf = 4) (rd : Nat → Byte) (i : Nat) :
    elemPattern rd l i = pageRound (dfCode l.df) (fval 3 (leNat [rd (l.frame + 2 * i), rd (l.frame + 2 * i + 1)])) := by
  unfold elemPattern
  rw [if_pos h]

theorem encodeWrite_half {l : Leaf} (h : l.sf = 4) (rd : Nat → Byte) (off : Nat) (bs : List Byte) :
    let d := dfBytes l.df
    (encodeWrite rd l off bs).1 = (rangeFrom (off / d) ((off + bs.length - 1) / d - off / d + 1)).flatMap fun i =>
      (rangeFrom (l.frame + 2 * i) 2).zip (leBytes 2 (bf16Of rd l off bs i)) := by
  unfold encodeWrite
  rw [if_neg (by omega)]
  simp only [h, if_true, foldl_gather, List.nil_append, mergedPattern_eq]
  rfl

/-- Each written element of a page stored as BF16 is rounded, and no other changes (R72). -/
theorem encodeWrite_half_reads {l : Leaf} (h : l.sf = 4) (rd : Nat → Byte) (off : Nat) {bs : List Byte} (hne : bs ≠ []) (i : Nat) :
    let after := overlay rd (encodeWrite rd l off bs).1
    (Touches off bs.length (dfBytes l.df) i → elemPattern after l i = pageRound (dfCode l.df) (fval 3 (bf16Of rd l off bs i)))
    ∧ (¬ Touches off bs.length (dfBytes l.df) i → elemPattern after l i = elemPattern rd l i) := by
  intro after
  have hlen : ∀ j, (leBytes 2 (bf16Of rd l off bs j)).length = 2 := fun _ => rfl
  have hentry : ∀ w ∈ (encodeWrite rd l off bs).1, ∃ j, Touches off bs.length (dfBytes l.df) j ∧ l.frame + 2 * j ≤ w.1
      ∧ w.1 < l.frame + 2 * j + 2 ∧ w.2 = BitVec.ofNat 8 (bf16Of rd l off bs j / 256 ^ (w.1 - (l.frame + 2 * j))) := by
    intro w hw
    rw [encodeWrite_half h] at hw
    obtain ⟨j, hj, hw⟩ := List.mem_flatMap.1 hw
    obtain ⟨hjlo, hjhi⟩ := (mem_rangeFrom _ _ _).1 hj
    have hle : off / dfBytes l.df ≤ (off + bs.length - 1) / dfBytes l.df :=
      Nat.div_le_div_right (by have := List.length_pos_iff.2 hne; omega)
    obtain ⟨hlo, hhi, hv⟩ := mem_zip_range (bs := leBytes 2 (bf16Of rd l off bs j)) 0 hw
    rw [hlen] at hhi
    rw [leBytes_getD _ _ _ (by omega)] at hv
    exact ⟨j, (touches_iff (dfBytes_pos _) (List.length_pos_iff.2 hne)).2 ⟨hjlo, by omega⟩, hlo, hhi, hv⟩
  refine ⟨fun ht => ?_, fun ht => ?_⟩
  · have hread : ∀ k < 2, after (l.frame + 2 * i + k) = BitVec.ofNat 8 (bf16Of rd l off bs i / 256 ^ k) := by
      intro k hk
      refine overlay_of_mem ?_ (fun w hw he => ?_) rd
      · obtain ⟨hlo, hhi⟩ := (touches_iff (dfBytes_pos _) (List.length_pos_iff.2 hne)).1 ht
        obtain ⟨w, hw, he⟩ := exists_zip_range (bs := leBytes 2 (bf16Of rd l off bs i)) (Nat.le_add_right (l.frame + 2 * i) k)
          (by rw [hlen]; omega)
        refine ⟨w, ?_, he⟩
        rw [encodeWrite_half h]
        exact List.mem_flatMap.2 ⟨i, (mem_rangeFrom _ _ _).2 ⟨hlo, by omega⟩, hlen i ▸ hw⟩
      · obtain ⟨j, -, hlo, hhi, hv⟩ := hentry w hw
        have hij : j = i := by omega
        rw [hv, he, hij, Nat.add_sub_cancel_left]
    have hpair : leNat [after (l.frame + 2 * i), after (l.frame + 2 * i + 1)] = bf16Of rd l off bs i % 2 ^ 16 := by
      rw [← Nat.add_zero (l.frame + 2 * i), hread 0 (by decide), hread 1 (by decide)]
      exact (congrArg leNat (by rw [Nat.pow_zero, Nat.div_one, Nat.pow_one]; rfl)).trans (leNat_leBytes 2 _)
    rw [elemPattern_half h, hpair, fval_bf16_mod]
  · have hkeep : ∀ k < 2, after (l.frame + 2 * i + k) = rd (l.frame + 2 * i + k) := by
      intro k hk
      refine overlay_of_not_mem (fun w hw he => ?_) rd
      obtain ⟨j, hj, hlo, hhi, -⟩ := hentry w hw
      have hij : j = i := by omega
      exact ht (hij ▸ hj)
    rw [elemPattern_half h, elemPattern_half h, hkeep 1 (by decide)]
    exact congrArg (fun x => pageRound (dfCode l.df) (fval 3 (leNat [x, rd (l.frame + 2 * i + 1)]))) (hkeep 0 (by decide))

/-! ### Blocks written -/

/-- Values written to some places of a block. -/
def blockWritten (t : Nat → Bool) (v : Nat → XVal) : SMap XVal := ((List.range 32).filter t).map fun j => (j, v j)

theorem mfind_blockWritten (t : Nat → Bool) (v : Nat → XVal) {j : Nat} (hj : j < 32) :
    mfind (blockWritten t v) j = if t j then some (v j) else none := by
  have hkeys : mkeys (blockWritten t v) = (List.range 32).filter t := by
    unfold mkeys blockWritten
    rw [List.map_map]
    exact List.map_id _
  split
  · next ht =>
    exact mfind_of_nodup (m := blockWritten t v) (x := (j, v j)) (hkeys ▸ List.nodup_range.filter t)
      (List.mem_map.2 ⟨j, List.mem_filter.2 ⟨List.mem_range.2 hj, ht⟩, rfl⟩)
  · next ht =>
    exact mfind_none_of_not_mem fun hmem => ht (List.mem_filter.1 (hkeys ▸ hmem)).2

/-- All places of a block are written. -/
theorem blockWritten_whole (t : Nat → Bool) (v : Nat → XVal) : (blockWritten t v).length ≥ 32 ↔ ∀ j < 32, t j = true := by
  have hlen : (blockWritten t v).length = ((List.range 32).filter t).length := List.length_map _
  rw [hlen]
  constructor
  · intro h j hj
    have hall : ((List.range 32).filter t).length = (List.range 32).length :=
      Nat.le_antisymm (List.length_filter_le _ _) (by rw [List.length_range]; exact h)
    exact List.length_filter_eq_length_iff.1 hall j (List.mem_range.2 hj)
  · intro h
    rw [List.filter_eq_self.2 fun j hj => h j (List.mem_range.1 hj), List.length_range]

section Merge

variable {t : Nat → Bool} {v val : Nat → XVal} {ef scale : Nat} {elems : List Nat}
  (hval : ∀ j < 32, val j = if t j then v j else mxValue ef scale (elems.getD j 0))
include hval

/-- The merged values of a block (R72 step 3). -/
theorem merged_eq : ((List.range 32).map fun j => (mfind (blockWritten t v) j).getD (mxValue ef scale (elems.getD j 0)))
    = (List.range 32).map val := by
  refine List.map_congr_left fun j hj => ?_
  have hj := List.mem_range.1 hj
  rw [mfind_blockWritten t v hj, hval j hj]
  split <;> rfl

/-- A block that is written whole, or whose values do not all fit its scale, is encoded afresh (R72). -/
theorem mxMerge_encode (h : (∀ j < 32, t j = true)
      ∨ (scale ≠ 255 ∧ ¬ ∀ j < 32, mxFits ef ((scale : Int) - 127) (val j) = true)) :
    mxMerge ef scale elems (blockWritten t v) = mxEncode none ef ((List.range 32).map val) := by
  unfold mxMerge
  by_cases hw : ∀ j < 32, t j = true
  · rw [if_pos ((blockWritten_whole t v).2 hw)]
    unfold blockWritten
    rw [List.filter_eq_self.2 fun j hj => hw j (List.mem_range.1 hj), List.map_map]
    refine congrArg (mxEncode none ef) (List.map_congr_left fun j hj => ?_)
    have hj := List.mem_range.1 hj
    rw [hval j hj, if_pos (hw j hj)]
    rfl
  · obtain ⟨hscale, hfits⟩ := h.resolve_left hw
    rw [if_neg (mt (blockWritten_whole t v).1 hw), if_neg hscale]
    dsimp only
    rw [merged_eq hval, if_neg]
    rw [List.all_map, List.all_eq_true]
    exact fun hall => hfits fun j hj => hall j (List.mem_range.2 hj)

/-- A block whose values all fit its scale keeps it (R72 step 4). -/
theorem mxMerge_fits (hw : ¬ ∀ j < 32, t j = true) (hscale : scale ≠ 255)
    (hfits : ∀ j < 32, mxFits ef ((scale : Int) - 127) (val j) = true) :
    mxMerge ef scale elems (blockWritten t v) = (scale, (List.range 32).map fun j =>
      if t j then mxElem none ef ((scale : Int) - 127) (val j) else elems.getD j 0) := by
  unfold mxMerge
  rw [if_neg (mt (blockWritten_whole t v).1 hw), if_neg hscale]
  dsimp only
  rw [merged_eq hval, if_pos]
  · refine congrArg (Prod.mk scale) (List.map_congr_left fun j hj => ?_)
    have hj := List.mem_range.1 hj
    rw [mfind_blockWritten t v hj, hval j hj]
    cases t j <;> rfl
  · rw [List.all_map, List.all_eq_true]
    exact fun j hj => hfits j (List.mem_range.1 hj)

end Merge

/-- A NaN block written in part stays (R72 step 2). -/
theorem mxMerge_nan {t : Nat → Bool} {v : Nat → XVal} {ef : Nat} {elems : List Nat} (hw : ¬ ∀ j < 32, t j = true) :
    mxMerge ef 255 elems (blockWritten t v) = (255, elems) := by
  unfold mxMerge
  rw [if_neg (mt (blockWritten_whole t v).1 hw), if_pos rfl]

theorem mxEncode_length (ef : Nat) (xs : List XVal) : (mxEncode none ef xs).2.length = xs.length := by
  unfold mxEncode
  split <;> exact List.length_map _

/-! ### Pages of MX -/

/-- The elements of a block as they are stored. -/
def storedElems (rd : Nat → Byte) (l : Leaf) (b : Nat) : List Nat :=
  (List.range 32).map fun j => elemBits rd (sfBits l.sf) (elemsAt l b) j % 2 ^ sfBits l.sf

/-- Whether a write touches element `j` of block `b`. -/
def blockTouched (l : Leaf) (off : Nat) (bs : List Byte) (b j : Nat) : Bool :=
  (List.range (dfBytes l.df)).any fun k => decide (off ≤ (32 * b + j) * dfBytes l.df + k)
    && decide ((32 * b + j) * dfBytes l.df + k < off + bs.length)

/-- The value of element `j` of block `b`, with written bytes in place. -/
def blockValue (rd : Nat → Byte) (l : Leaf) (off : Nat) (bs : List Byte) (b j : Nat) : XVal :=
  fval (dfCode l.df) (patOf off bs (dfBytes l.df) (elemPattern rd l (32 * b + j)) (32 * b + j))

/-- What a write that lies in one block of an MX page makes of the block (R72). -/
def blockAfter (rd : Nat → Byte) (l : Leaf) (off : Nat) (bs : List Byte) (b : Nat) : Nat × List Nat :=
  mxMerge (sfCode l.sf) (rd (scaleAt l b)).toNat (storedElems rd l b) (blockWritten (blockTouched l off bs b) (blockValue rd l off bs b))

theorem blockTouched_iff (l : Leaf) (off : Nat) (bs : List Byte) (b j : Nat) :
    blockTouched l off bs b j = true ↔ Touches off bs.length (dfBytes l.df) (32 * b + j) := by
  unfold blockTouched Touches
  simp only [List.any_eq_true, List.mem_range, Bool.and_eq_true, decide_eq_true_eq]

theorem getD_map_range {α : Type} (f : Nat → α) {n j : Nat} {d : α} (h : j < n) : ((List.range n).map f).getD j d = f j := by
  rw [List.getD_eq_getElem?_getD, List.getElem?_map, List.getElem?_range h]
  rfl

theorem storedElems_getD {j : Nat} (hj : j < 32) (rd : Nat → Byte) (l : Leaf) (b : Nat) :
    (storedElems rd l b).getD j 0 = elemBits rd (sfBits l.sf) (elemsAt l b) j := by
  unfold storedElems
  rw [getD_map_range _ hj, Nat.mod_eq_of_lt (elemBits_lt _ _ _ _)]

theorem blockAfter_length (rd : Nat → Byte) (l : Leaf) (off : Nat) (bs : List Byte) (b : Nat) :
    (blockAfter rd l off bs b).2.length = 32 := by
  have hmap : ∀ {α : Type} (f : Nat → α), ((List.range 32).map f).length = 32 := fun f => by rw [List.length_map, List.length_range]
  unfold blockAfter
  generalize hws : blockWritten _ _ = ws
  have hwhole : (ws.map (·.2)).length = ws.length := List.length_map _
  have hle : ws.length ≤ 32 := by
    rw [← hws]
    unfold blockWritten
    rw [List.length_map]
    exact (List.length_filter_le _ _).trans_eq List.length_range
  unfold mxMerge
  dsimp only
  split
  · rw [mxEncode_length, hwhole]
    omega
  · split
    · exact hmap _
    · split
      · exact hmap _
      · rw [mxEncode_length]
        exact hmap _

theorem encodeWrite_mx {l : Leaf} (h : l.sf ∈ [1, 2, 3, 5]) (rd : Nat → Byte) {off b : Nat} {bs : List Byte}
    (hlo : off / dfBytes l.df / 32 = b) (hhi : (off + bs.length - 1) / dfBytes l.df / 32 = b) :
    (encodeWrite rd l off bs).1 = (scaleAt l b, BitVec.ofNat 8 (blockAfter rd l off bs b).1)
      :: packedBytes (sfBits l.sf) (elemsAt l b) (blockAfter rd l off bs b).2 := by
  obtain ⟨h0, h4, -, -⟩ := sfBits_mx h
  have hloc : mxLoc l (32 * b) = (scaleAt l b, elemsAt l b, 0) := by
    unfold mxLoc scaleAt elemsAt
    simp only [show 32 * b / 1024 = b / 32 by omega, show 32 * b % 1024 / 32 = b % 32 by omega, Nat.mul_mod_right]
  have hhas : ∀ a, mhas ((rangeFrom off bs.length).zip bs) a = (decide (off ≤ a) && decide (a < off + bs.length)) := by
    intro a
    rw [mhas, mfind_zip_range bs off a 0, ← Bool.decide_and]
    split
    · next hin => rw [decide_eq_true hin]; rfl
    · next hin => rw [decide_eq_false hin]; rfl
  unfold encodeWrite
  rw [if_neg h0]
  dsimp only
  rw [if_neg h4, hlo, hhi, Nat.sub_self, foldl_gather]
  simp only [rangeFrom, List.flatMap_cons, List.flatMap_nil, List.append_nil, List.nil_append, mxBlockWrite, hloc, hhas, mergedPattern_eq]
  rfl

end Sys2Proof.Machine
end

section
/-!
O15. Copies serve a read or are passed by; a write under OWN is held in its core's grains; an element of a converted page is read
from its bits and its block's scale; a write of converted bytes encodes one block, or each element of a BF16 page.
-/

namespace Sys2Proof.Machine

/-- A read that resolves to SI (R64) is served by the home or by the core's copies. -/
theorem cachedReads : CachedReadsClaim := by
  intro s c l va n req hp hdom hreq off
  have hread : readAt s c l va n req = siRead s c.core (versionOf s c) l off n := by
    unfold readAt
    simp only [hp, hdom, hreq, List.isEmpty_nil, Bool.true_or, Bool.false_and, Bool.false_eq_true, if_true, if_false]
    rfl
  dsimp only
  rw [hread]
  unfold siRead
  extract_lets fresh base held copy ch
  split
  · exact .inl rfl
  · split
    · next hcopy =>
      rw [Bool.and_eq_true] at hcopy
      exact .inr ⟨List.all_eq_true.1 hcopy.1, rfl⟩
    · split
      · exact .inl rfl
      · exact .inl rfl

/-- A write under OWN (R64, R65): every reader sees it, memory has not changed, and no recall changes what readers see. -/
theorem ownedWrites : OwnedWritesClaim := by
  intro s c l va bs req hs hver hsf hkey hdom hgr hreq pa t
  have hunit : t = writeUnit s c l va bs req := if_neg (ne_true_of_eq_false hver)
  obtain ⟨s1, hstore, -, hrun, hstore', -, -, -⟩ := writeUnit_direct (c := c) (va := va) (bs := bs) (req := req) (settled_of_calm hs)
    hdom fun h => absurd (hver.symm.trans h) Bool.false_ne_true
  rw [show encodeWrite (storedByte (taintTask s c) [] l.key) l (pageOff l va) bs = ((rangeFrom pa bs.length).zip bs, 0)
    from if_pos hsf] at hstore'
  obtain ⟨-, hset, hgrains, hseen, hmem⟩ := cohByte_performWrite (calm_of_same hs hstore hrun) c pa bs req hkey
  rw [← hunit] at hstore'
  have hn : grainBytes l.gr ∈ [32, 128, 512] := by
    unfold grainBytes
    split
    · decide
    · split <;> decide
  refine ⟨fun x => ?_, fun x => ?_, fun g x => ?_⟩
  · rw [hstore'.cohByte hset, hseen, hstore.mem]
  · rw [hstore'.mem, hmem hsf hreq, hstore.mem]
  · exact cohByte_recallGrain (hstore'.settled hset) hn (hstore'.own ▸ hgrains) g x

/-- A byte of a list that is made place by place. -/
theorem getD_map_rangeFrom (f : Nat → Byte) (a : Nat) {n k : Nat} (hk : k < n) : ((rangeFrom a n).map f).getD k 0 = f (a + k) := by
  induction n generalizing a k with
  | zero => exact absurd hk (Nat.not_lt_zero k)
  | succ n ih =>
    rw [rangeFrom, List.map_cons]
    cases k with
    | zero => rfl
    | succ k => rw [List.getD_cons_succ, ih _ (by omega), show a + 1 + k = a + (k + 1) by omega]

/-- Reads of pages in every format (R69 to R71). -/
theorem convertedReads : ConvertedReadsClaim := by
  intro rd l off n k hk d i byte code
  have hcode : dfCode l.df = code := dfCode_eq l.df
  have hconv : l.sf ≠ 0 → (deliver rd l off n).getD k 0 = byte (elemPattern rd l i) := by
    intro h0
    unfold deliver
    rw [if_neg h0]
    exact getD_map_rangeFrom _ off hk
  refine ⟨fun h => ?_, fun h => ?_, fun h => ?_⟩
  · unfold deliver
    rw [if_pos h]
    exact getD_map_rangeFrom rd (l.frame + off) hk
  · rw [hconv (by omega), elemPattern_half h, hcode]
  · obtain ⟨h0, -, hbits, -⟩ := sfBits_mx h
    intro w chunk bit raw
    have hscale : scaleAt l (i / 32) = chunk + 128 * w + i % 1024 / 32 := by
      rw [scaleAt_of_index h, hbits]
    have hraw : elemBits rd (sfBits l.sf) (elemsAt l (i / 32)) (i % 32) = raw := by
      rw [elemBits_of_index h, hbits]
    rw [hconv h0, elemPattern_mx h, hcode, hscale, hraw]

/-- Writes of converted pages (R72). -/
theorem convertedWrites : ConvertedWritesClaim := by
  intro rd l off bs b _ hne d code after old new touched pat hlo hhi
  have hd : dfBytes l.df = d := rfl
  have hcode : dfCode l.df = code := dfCode_eq l.df
  have hpat : ∀ i, patOf off bs (dfBytes l.df) (elemPattern rd l i) i = pat i := fun i => by rw [hd]; rfl
  have htouched : ∀ i, Touches off bs.length (dfBytes l.df) i ↔ touched i := fun i => by rw [hd]; rfl
  refine ⟨fun h i => ?_, fun h => ?_⟩
  · obtain ⟨hin, hout⟩ := encodeWrite_half_reads h rd off hne i
    unfold bf16Of at hin
    rw [htouched, hpat, hcode] at hin
    rw [htouched] at hout
    exact ⟨hin, hout⟩
  · obtain ⟨-, -, hbits, hchunk⟩ := sfBits_mx h
    intro ef w chunk scale raw value whole val hval fits q
    have hscale : rd (scaleAt l b) = rd (chunk + 128 * w + b % 32) := by
      unfold scaleAt
      rw [hchunk, hbits]
    have helems : elemsAt l b = chunk + b % 32 * w * 4 := by
      unfold elemsAt
      rw [hchunk, hbits]
    have hstored : ∀ j < 32, (storedElems rd l b).getD j 0 = raw j := by
      intro j hj
      rw [storedElems_getD hj, helems, hbits]
    have hall : (∀ j < 32, blockTouched l off bs b j = true) ↔ whole :=
      forall₂_congr fun j _ => (blockTouched_iff l off bs b j).trans (htouched _)
    have hmerged : ∀ j < 32, val j = if blockTouched l off bs b j then blockValue rd l off bs b j
        else mxValue ef (rd (scaleAt l b)).toNat ((storedElems rd l b).getD j 0) := by
      intro j hj
      have ht := (blockTouched_iff l off bs b j).trans (htouched _)
      split
      · next h1 =>
        rw [(hval j hj).1 (ht.1 h1)]
        unfold blockValue
        rw [hcode, hpat]
      · next h1 => rw [(hval j hj).2 (mt ht.2 h1), hscale, hstored j hj]
    obtain ⟨hin, hout⟩ := elemPattern_stored h rd b (blockAfter rd l off bs b).1 (blockAfter_length rd l off bs b)
    have hafter : overlay rd ((scaleAt l b, BitVec.ofNat 8 (blockAfter rd l off bs b).1)
        :: packedBytes (sfBits l.sf) (elemsAt l b) (blockAfter rd l off bs b).2) = after := by
      rw [← encodeWrite_mx h rd (by rw [hd]; exact hlo) (by rw [hd]; exact hhi)]
      rfl
    rw [hafter, hcode, hbits] at hin
    rw [hafter] at hout
    refine ⟨fun hfresh j hj => ?_, fun hpart hnan j hj => ?_, fun hpart hnum hfits j hj => ?_, fun i hi => hout i hi⟩
    · have hblock : blockAfter rd l off bs b = q :=
        mxMerge_encode hmerged (hfresh.imp hall.2 fun ⟨h1, h2⟩ => by rw [hscale]; exact ⟨h1, h2⟩)
      rw [hblock] at hin
      exact hin j hj
    · have hnan' : (rd (scaleAt l b)).toNat = 255 := by rw [hscale]; exact hnan
      have hblock : blockAfter rd l off bs b = (255, storedElems rd l b) := by
        unfold blockAfter
        rw [hnan']
        exact mxMerge_nan (mt hall.1 hpart)
      rw [hblock] at hin
      exact hin j hj
    · have hscale' : (rd (scaleAt l b)).toNat = scale := by rw [hscale]
      have hblock : blockAfter rd l off bs b = (scale, (List.range 32).map fun j =>
          if blockTouched l off bs b j then mxElem none ef ((scale : Int) - 127) (val j) else (storedElems rd l b).getD j 0) := by
        unfold blockAfter
        rw [hscale'] at hmerged ⊢
        exact mxMerge_fits hmerged (mt hall.1 hpart) hnum hfits
      have hlt : scale % 256 = scale := Nat.mod_eq_of_lt (BitVec.isLt _)
      have hj' := hin j hj
      rw [hblock, hlt, getD_map_range _ hj] at hj'
      have ht := (blockTouched_iff l off bs b j).trans (htouched _)
      refine ⟨fun h1 => ?_, fun h1 => ?_⟩
      · rw [if_pos (ht.2 h1)] at hj'
        exact hj'
      · rw [if_neg (mt ht.1 h1), hstored j hj] at hj'
        refine hj'.trans ?_
        have hraw : raw j % 2 ^ w = raw j := Nat.mod_eq_of_lt (elemBits_lt _ _ _ _)
        refine Eq.trans ?_ (elemPattern_mx h rd (32 * b + j)).symm
        rw [show (32 * b + j) / 32 = b by omega, show (32 * b + j) % 32 = j by omega, hcode, hscale', hraw, helems, hbits]

/-- Settles O15: a copy holds what it read; a write under OWN is one write of its core's grains, which a recall brings home; a
delivered element is its bits and its block's scale; and a write that lies in one block stores what R72 makes of the block. -/
theorem pageViews : Obligations.PageViews := by
  unfold Obligations.PageViews
  exact ⟨cachedReads, ownedWrites, convertedReads, convertedWrites⟩

end Sys2Proof.Machine
end

section
/-!
SUPPORT. Scratchpad and its full-empty bits (R59 to R61): what the model's writes of scratchpad, its fills and its waits leave as it was,
and what a class V operation that goes outstanding after them is. The statement about scratchpad loads and stores builds on it.
-/

namespace Sys2Proof.Machine

/-! ### What accesses of scratchpad leave as it was -/

/-- A group keeps its operations, its registers and where its splits are. -/
structure GroupKept (g h : Group) : Prop where
  ops  : h.ops = g.ops
  regs : h.regs = g.regs
  pcs  : h.splits.map (·.pc) = g.splits.map (·.pc)

/-- Nothing but a team's scratchpad, and what is not seen of groups, changed. -/
structure ScrKept (tk : Nat) (s t : State) : Prop where
  memory : t.mem = s.mem
  parts  : t.parts = s.parts
  others : ∀ k, k ≠ tk → mfind t.teams k = mfind s.teams k
  listed : (mfind t.teams tk).isSome = (mfind s.teams tk).isSome
  team   : ∃ scr full, getTeam t tk = { getTeam s tk with scr, full }
  groups : ∀ gid, Option.Rel GroupKept (mfind s.groups gid) (mfind t.groups gid)

theorem GroupKept.refl (g : Group) : GroupKept g g := ⟨rfl, rfl, rfl⟩

theorem GroupKept.trans {g h k : Group} (h1 : GroupKept g h) (h2 : GroupKept h k) : GroupKept g k :=
  ⟨h2.ops.trans h1.ops, h2.regs.trans h1.regs, h2.pcs.trans h1.pcs⟩

theorem groupKept_refl (x : Option Group) : Option.Rel GroupKept x x := by
  cases x with
  | none => exact .none
  | some g => exact .some (.refl g)

/-- A split's change that leaves its program counter is not seen. -/
theorem groupKept_modify (g : Group) (k : Nat) {f : Split → Split} (hf : ∀ x, (f x).pc = x.pc) :
    GroupKept g { g with splits := g.splits.modify k f } := by
  refine ⟨rfl, rfl, List.ext_getElem? fun j => ?_⟩
  simp only [List.getElem?_map, List.getElem?_modify]
  cases g.splits[j]? with
  | none => rfl
  | some x =>
    simp only [Option.map_some]
    split
    · exact congrArg some (hf x)
    · rfl

namespace ScrKept

variable {tk : Nat} {s t u : State}

/-- A state with the same memory, partitions, teams and groups. -/
theorem of_fields (hm : t.mem = s.mem) (hp : t.parts = s.parts) (ht : t.teams = s.teams) (hg : t.groups = s.groups) : ScrKept tk s t where
  memory := hm
  parts := hp
  others k _ := by rw [ht]
  listed := by rw [ht]
  team := ⟨(Machine.getTeam s tk).scr, (Machine.getTeam s tk).full, by rw [Machine.getTeam, ht]; rfl⟩
  groups gid := by rw [hg]; exact groupKept_refl _

theorem refl (s : State) : ScrKept tk s s := of_fields rfl rfl rfl rfl

theorem trans (h : ScrKept tk s t) (k : ScrKept tk t u) : ScrKept tk s u where
  memory := k.memory.trans h.memory
  parts := k.parts.trans h.parts
  others x hx := (k.others x hx).trans (h.others x hx)
  listed := k.listed.trans h.listed
  team := by
    obtain ⟨_, _, ht⟩ := h.team
    obtain ⟨scr, full, hu⟩ := k.team
    exact ⟨scr, full, by rw [hu, ht]⟩
  groups gid := by
    have h1 := h.groups gid
    have h2 := k.groups gid
    generalize mfind s.groups gid = x at h1 ⊢
    generalize mfind t.groups gid = y at h1 h2
    generalize mfind u.groups gid = z at h2 ⊢
    cases h1 with
    | none => exact h2
    | some hk =>
      cases h2 with
      | some hk' => exact .some (hk.trans hk')

theorem foldl {α : Type} {f : State → α → State} {xs : List α} (h : ∀ s, ∀ x ∈ xs, ScrKept tk s (f s x)) (s : State) :
    ScrKept tk s (xs.foldl f s) := by
  induction xs generalizing s with
  | nil => exact refl s
  | cons x r ih =>
    exact (h s x List.mem_cons_self).trans (ih (fun s y hy => h s y (List.mem_cons_of_mem _ hy)) _)

theorem modGroup (s : State) (gid : Nat) {f : Group → Group} (hf : ∀ g, GroupKept g (f g)) : ScrKept tk s (modGroup s gid f) where
  memory := rfl
  parts := rfl
  others _ _ := rfl
  listed := rfl
  team := ⟨_, _, rfl⟩
  groups j := by
    rw [mfind_modGroup]
    split
    · next hj =>
      subst hj
      cases mfind s.groups j with
      | none => exact .none
      | some g => exact .some (hf g)
    · exact groupKept_refl _

theorem modTeam (s : State) {f : Team → Team} (hf : ∀ t, ∃ scr full, f t = { t with scr, full }) : ScrKept tk s (modTeam s tk f) where
  memory := rfl
  parts := rfl
  others k hk := by
    unfold Machine.modTeam
    rw [mfind_mmod, if_neg hk]
  listed := by
    unfold Machine.modTeam
    rw [mfind_mmod, if_pos rfl, Option.isSome_map]
  team := by
    unfold getTeam mget Machine.modTeam
    rw [mfind_mmod, if_pos rfl]
    cases mfind s.teams tk with
    | none => exact ⟨_, _, rfl⟩
    | some t => exact hf t
  groups gid := groupKept_refl _

/-- No register changed. -/
theorem regOf (h : ScrKept tk s t) (gid k : Nat) : regOf t gid k = Machine.regOf s gid k := by
  unfold Machine.regOf getGroup mget
  have hg := h.groups gid
  generalize mfind s.groups gid = x at hg
  generalize mfind t.groups gid = y at hg
  cases hg with
  | none => rfl
  | some hk => exact congrArg (fun m => (mfind m k).getD 0) hk.regs

end ScrKept

/-- A team's scratchpad, listed or not, after a change of it. -/
theorem getTeam_modTeam (s : State) (tk : Nat) (f : Team → Team) :
    getTeam (modTeam s tk f) tk = f (getTeam s tk) ∨ (mfind s.teams tk = none ∧ getTeam (modTeam s tk f) tk = getTeam s tk) := by
  unfold getTeam mget modTeam
  rw [mfind_mmod, if_pos rfl]
  cases mfind s.teams tk with
  | none => exact .inr ⟨rfl, rfl⟩
  | some t => exact .inl rfl

/-! ### Operations that go outstanding after that -/

section Outstanding

variable {f : Form} {e : Enc} {s u : State} {a : At} (h : Clear f e s a) {tk : Nat} (hu : ScrKept tk (book s a e) u)
  (ws : List (Nat × Word)) (st : Stage) (ind gr : Bool)
include h hu

/-- The issuing group, before the operation goes outstanding. -/
theorem issuer_kept : ∃ g, mfind u.groups a.gid = some g ∧ GroupKept (bookGroup s a e a.g) g := by
  have hg := hu.groups a.gid
  rw [(iss_facts h).2.2.2.2.2.1] at hg
  generalize mfind u.groups a.gid = y at hg
  cases hg with
  | some hk => exact ⟨_, rfl, hk⟩

/-- The operation is the group's last, and the split has gone on. -/
theorem sent_kept : WentOn (outstanding u (issOf f e s a) ws st ind gr) a e
    ∧ ∃ o, Sent s (outstanding u (issOf f e s a) ws st ind gr) a e o ∧ o.stage = st ∧ o.writes = opWrites ws := by
  obtain ⟨g, hg, hkept⟩ := issuer_kept h hu
  have hgid := (iss_facts h).1
  obtain ⟨splits, hgrp, hpc⟩ := outstanding_group u (issOf f e s a) ws st ind gr g (by rw [hgid]; exact hg)
  rw [hgid] at hgrp
  have hgt : getGroup (outstanding u (issOf f e s a) ws st ind gr) a.gid = _ := congrArg (·.getD Group.empty) hgrp
  have hgs : getGroup s a.gid = a.g := by rw [getGroup, mget, (curAt_some h.issuer).2]; rfl
  have hage : (issOf f e s a).a.sp.age = a.sp.age := by
    rw [show (issOf f e s a).a = _ from (issuedAt_eq e h.issuer).2]; rfl
  refine ⟨?_, ⟨g.nextOp, (issOf f e s a).a.sp.age, flagOf e, opWrites ws, ind || isIndigo f, isOchre f, gr, (issOf f e s a).loc,
    (issOf f e s a).a.sp.issued, u.cycle, [], st⟩, ⟨?_, rfl, hage, fun k => ?_⟩, rfl, rfl⟩
  · rw [WentOn, hgt]
    refine (hpc a.k).trans (Eq.trans ?_ (bookGroup_pc h))
    rw [← List.getElem?_map, ← List.getElem?_map, hkept.pcs]
  · rw [hgt, hgs]
    exact congrArg (· ++ _) hkept.ops
  · rw [regOf, hgt, regOf, hgs]
    exact congrArg (fun m => mget m k 0) hkept.regs

/-- Registers that an operation leaves, of every group. -/
theorem regOf_outstanding (gid k : Nat) : regOf (outstanding u (issOf f e s a) ws st ind gr) gid k = regOf s gid k := by
  have hout : regOf (outstanding u (issOf f e s a) ws st ind gr) gid k = regOf u gid k := by
    unfold outstanding regOf
    rcases getGroup_modGroup_or u (issOf f e s a).a.gid _ gid with hg | hg
    · rw [hg]
    · rw [hg]
      split <;> rfl
  rw [hout, hu.regOf]
  unfold regOf getGroup mget
  by_cases hg : gid = a.gid
  · rw [hg, (iss_facts h).2.2.2.2.2.1, (curAt_some h.issuer).2]
    rfl
  · rw [book_others s a e gid hg]

/-- The state in which it goes outstanding, as `ScrStored` has it. -/
theorem scrStored_kept (htk : tk = teamKey a.gid) {byte : Nat → Byte → Prop} (hb : ∀ x, byte x (scrByte (getTeam u tk) x)) :
    ScrStored s (outstanding u (issOf f e s a) ws st ind gr) a e byte := by
  subst htk
  have hteam : ∀ x : State, x.teams = s.teams → getTeam x (teamKey a.gid) = a.tm := fun x hx => by
    rw [getTeam, hx, (atOf_some (curAt_some h.issuer).1).2.2.2.2.1]
    rfl
  have hteams : (book s a e).teams = s.teams := book_field s a e (·.teams) fun _ _ _ => rfl
  obtain ⟨scr, full, ht⟩ := hu.team
  refine ⟨fun g k => regOf_outstanding h hu ws st ind gr g k, hu.memory.trans (book_mem s a e), hu.parts.trans ?_, fun k hk => ?_,
    ⟨scr, full, ?_⟩, hb⟩
  · exact book_field s a e (·.parts) fun _ _ _ => rfl
  · exact (hu.others k hk).trans (by rw [hteams])
  · rw [← hteam _ hteams]
    exact ht

end Outstanding

/-! ### Bytes and full bits -/

/-- A byte after a write of scratchpad. -/
theorem scrByte_scrWrite {s : State} {tk : Nat} {t : Team} (ht : mfind s.teams tk = some t) (a : Nat) (bs : List Byte) (x : Nat) :
    scrByte (getTeam (scrWrite s tk a bs) tk) x
      = if a ≤ x ∧ x < a + bs.length then bs.getD (x - a) 0 else scrByte (getTeam s tk) x := by
  unfold scrWrite
  rw [getTeam_modTeam_self s tk _ t ht]
  unfold scrByte
  dsimp only
  generalize (getTeam s tk).scr = m
  induction bs generalizing a m with
  | nil => exact (if_neg (by simp only [List.length_nil]; omega)).symm
  | cons b r ih =>
    rw [List.length_cons, rangeFrom, List.zip_cons_cons, List.foldl_cons, ih, mget_mput]
    by_cases hx : x = a
    · subst hx
      rw [if_neg (by omega), if_pos rfl, if_pos (by omega), Nat.sub_self, List.getD_cons_zero]
    · rw [if_neg hx]
      by_cases hin : a + 1 ≤ x ∧ x < a + 1 + r.length
      · rw [if_pos hin, if_pos (by omega), show x - a = x - (a + 1) + 1 by omega, List.getD_cons_succ]
      · rw [if_neg hin, if_neg (by omega)]

theorem scrWrite_kept (s : State) (tk a : Nat) (bs : List Byte) : ScrKept tk s (scrWrite s tk a bs) :=
  ScrKept.modTeam s fun t => ⟨_, t.full, rfl⟩

theorem scrWrite_full (s : State) (tk a : Nat) (bs : List Byte) : (getTeam (scrWrite s tk a bs) tk).full = (getTeam s tk).full := by
  unfold scrWrite
  rcases getTeam_modTeam s tk _ with h | ⟨-, h⟩ <;> rw [h]

theorem mfind_teams_scrWrite {s : State} {tk : Nat} (h : mfind s.teams tk ≠ none) (a : Nat) (bs : List Byte) :
    mfind (scrWrite s tk a bs).teams tk ≠ none := by
  unfold scrWrite modTeam
  rw [mfind_mmod, if_pos rfl]
  cases ht : mfind s.teams tk with
  | none => exact absurd ht h
  | some t => exact Option.some_ne_none _

/-- A write covers an address. -/
def Covers (w : Nat × List Byte) (x : Nat) : Prop := w.1 ≤ x ∧ x < w.1 + w.2.length

/-- A byte after writes of scratchpad: one of those that cover it, else as it was. -/
theorem scrByte_writes {tk : Nat} (ws : List (Nat × List Byte)) {s : State} (ht : ws ≠ [] → mfind s.teams tk ≠ none) (x : Nat) :
    let b := scrByte (getTeam (ws.foldl (fun acc u => scrWrite acc tk u.1 u.2) s) tk) x
    (∃ w ∈ ws, Covers w x ∧ b = w.2.getD (x - w.1) 0) ∨ ((∀ w ∈ ws, ¬ Covers w x) ∧ b = scrByte (getTeam s tk) x) := by
  induction ws generalizing s with
  | nil => exact .inr ⟨fun _ h => absurd h List.not_mem_nil, rfl⟩
  | cons w r ih =>
    have hs := ht (List.cons_ne_nil _ _)
    obtain ⟨t, htm⟩ := Option.ne_none_iff_exists'.1 hs
    have hstep := scrByte_scrWrite htm w.1 w.2 x
    rcases ih (fun _ => mfind_teams_scrWrite hs w.1 w.2) with ⟨y, hy, hc, hb⟩ | ⟨hno, hb⟩
    · exact .inl ⟨y, List.mem_cons_of_mem _ hy, hc, hb⟩
    · by_cases hc : Covers w x
      · exact .inl ⟨w, List.mem_cons_self, hc, hb.trans (hstep.trans (if_pos hc))⟩
      · refine .inr ⟨fun y hy => ?_, hb.trans (hstep.trans (if_neg hc))⟩
        rcases List.mem_cons.1 hy with rfl | hy
        · exact hc
        · exact hno y hy

theorem foldl_scrWrite_full (tk : Nat) (ws : List (Nat × List Byte)) (s : State) :
    (getTeam (ws.foldl (fun acc u => scrWrite acc tk u.1 u.2) s) tk).full = (getTeam s tk).full := by
  induction ws generalizing s with
  | nil => rfl
  | cons w r ih => rw [List.foldl_cons, ih, scrWrite_full]

theorem foldl_scrWrite_kept (tk : Nat) (ws : List (Nat × List Byte)) (s : State) :
    ScrKept tk s (ws.foldl (fun acc u => scrWrite acc tk u.1 u.2) s) :=
  ScrKept.foldl (fun s w _ => scrWrite_kept s tk w.1 w.2) s

theorem foldl_scrWrite_groups (tk : Nat) (ws : List (Nat × List Byte)) (s : State) :
    (ws.foldl (fun acc u => scrWrite acc tk u.1 u.2) s).groups = s.groups := by
  induction ws generalizing s with
  | nil => rfl
  | cons w r ih => rw [List.foldl_cons, ih]; rfl

/-- Full bits after a fill, with no one served. -/
theorem isFull_markFull {s : State} {tk : Nat} (ht : mfind s.teams tk ≠ none) (gs : List Nat) (g : Nat) :
    isFull (getTeam (markFull s tk gs) tk) g = (isFull (getTeam s tk) g || decide (g ∈ gs)) := by
  obtain ⟨t, htm⟩ := Option.ne_none_iff_exists'.1 ht
  unfold markFull
  rw [getTeam_modTeam_self s tk _ t htm]
  unfold isFull
  dsimp only
  generalize (getTeam s tk).full = m
  induction gs generalizing m with
  | nil => simp
  | cons y r ih =>
    rw [List.foldl_cons, ih]
    by_cases hg : g = y
    · subst hg
      simp
    · rw [mget_mset_other _ _ _ _ _ hg]
      simp [hg]

/-- Full bits after they have been cleared. -/
theorem isFull_markEmpty {s : State} {tk : Nat} (ht : mfind s.teams tk ≠ none) (gs : List Nat) (g : Nat) :
    isFull (getTeam (markEmpty s tk gs) tk) g = (isFull (getTeam s tk) g && !decide (g ∈ gs)) := by
  obtain ⟨t, htm⟩ := Option.ne_none_iff_exists'.1 ht
  unfold markEmpty
  rw [getTeam_modTeam_self s tk _ t htm]
  unfold isFull
  dsimp only
  generalize (getTeam s tk).full = m
  induction gs generalizing m with
  | nil => simp
  | cons y r ih =>
    rw [List.foldl_cons, ih]
    by_cases hg : g = y
    · subst hg
      simp [mget]
    · rw [mget, mfind_mdel_other _ _ _ hg]
      simp [hg, mget]

/-! ### Fills -/

/-- Nothing but full bits, and which waits have been granted, changed. -/
structure Granted (tk : Nat) (s t : State) : Prop where
  kept : ScrKept tk s t
  scr  : (getTeam t tk).scr = (getTeam s tk).scr

namespace Granted

variable {tk : Nat} {s t u : State}

theorem refl (s : State) : Granted tk s s := ⟨.refl s, rfl⟩

theorem trans (h : Granted tk s t) (k : Granted tk t u) : Granted tk s u := ⟨h.kept.trans k.kept, k.scr.trans h.scr⟩

theorem setPark (s : State) (gid k : Nat) (got : SMap Byte) (granted : Bool) : Granted tk s (setPark s gid k got granted) :=
  ⟨ScrKept.modGroup s gid fun g => groupKept_modify g k fun _ => rfl, rfl⟩

theorem marks (s : State) (f : Team → SMap Bool) : Granted tk s (modTeam s tk fun t => { t with full := f t }) := by
  refine ⟨ScrKept.modTeam s fun t => ⟨t.scr, f t, rfl⟩, ?_⟩
  rcases getTeam_modTeam s tk (fun t => { t with full := f t }) with h | ⟨-, h⟩ <;> rw [h]

theorem grantWaits (s : State) (tk : Nat) : Granted tk s (grantWaits s tk) := by
  unfold Machine.grantWaits
  generalize parkedOf s tk = xs
  induction xs generalizing s with
  | nil => exact refl s
  | cons x r ih =>
    rw [List.foldl_cons]
    refine Granted.trans ?_ (ih _)
    split
    · exact setPark _ _ _ _ _
    · exact setPark _ _ _ _ _
    · exact refl _

theorem choose (s : State) (n : Nat) : Granted tk s (choose s n).2 := by
  obtain ⟨fresh, h⟩ := choose_fresh s n
  rw [h]
  exact ⟨.of_fields rfl rfl rfl rfl, rfl⟩

theorem grantTakes (n : Nat) (s : State) (tk : Nat) : Granted tk s (grantTakes n s tk) := by
  induction n generalizing s with
  | zero => exact refl s
  | succ n ih =>
    unfold Machine.grantTakes
    dsimp only
    split
    · exact refl s
    · exact (((choose s _).trans (setPark _ _ _ _ _)).trans (marks _ _)).trans (ih _)

theorem fill (s : State) (tk : Nat) (gs : List Nat) : Granted tk s (fill s tk gs) := by
  unfold Machine.fill
  dsimp only
  split
  · exact refl s
  · split
    · exact marks s _
    · exact ((marks s _).trans (grantWaits _ tk)).trans (grantTakes _ _ tk)

end Granted

/-- Where nobody waits, a fill sets full bits alone. -/
theorem fill_unparked {s : State} {tk : Nat} (h : parkedOf s tk = []) (gs : List Nat) :
    fill s tk gs = if gs = [] then s else markFull s tk gs := by
  have hm : parkedOf (markFull s tk gs) tk = [] := h
  unfold fill
  dsimp only
  rw [hm]
  cases gs <;> rfl

/-- Who waits depends on the groups' splits alone. -/
theorem parkedOf_modGroup (s : State) (gid : Nat) {f : Group → Group} (hf : ∀ g, (f g).splits = g.splits ∧ (f g).res = g.res) (tk : Nat) :
    parkedOf (modGroup s gid f) tk = parkedOf s tk := by
  unfold parkedOf modGroup
  dsimp only
  generalize s.groups = gs
  induction gs with
  | nil => rfl
  | cons x r ih =>
    obtain ⟨j, g⟩ := x
    unfold mmod
    split
    · next hj =>
      simp only [List.filter_cons, (hf g).2]
      split
      · simp only [List.flatMap_cons, (hf g).1]
      · rfl
    · simp only [List.filter_cons]
      split
      · simp only [List.flatMap_cons, ih]
      · exact ih

/-! ### Winners of one address -/

theorem mem_pickWinners {α : Type} (n : Nat) (s : State) {xs : List (Nat × α)} {w : Nat × α} (h : w ∈ (pickWinners n s xs).1) : w ∈ xs := by
  induction n generalizing s xs with
  | zero => exact h
  | succ n ih =>
    cases xs with
    | nil => exact h
    | cons x r =>
      unfold pickWinners at h
      rcases List.mem_cons.1 h with rfl | h
      · rw [List.getD_eq_getElem?_getD]
        cases hw : (x :: r.filter fun y => y.1 == x.1)[(choose s (x :: r.filter fun y => y.1 == x.1).length).1]? with
        | none => exact List.mem_cons_self
        | some y =>
          rcases List.mem_cons.1 (List.mem_of_getElem? hw) with rfl | hy
          · exact List.mem_cons_self
          · exact List.mem_cons_of_mem _ (List.mem_filter.1 hy).1
      · exact List.mem_cons_of_mem _ (List.mem_filter.1 (ih _ h)).1

/-- Each key has its winner. -/
theorem exists_winner {α : Type} (n : Nat) (s : State) {xs : List (Nat × α)} (hn : xs.length ≤ n) {x : Nat × α} (hx : x ∈ xs) :
    ∃ w ∈ (pickWinners n s xs).1, w.1 = x.1 := by
  induction n generalizing s xs with
  | zero => exact ⟨x, hx, rfl⟩
  | succ n ih =>
    cases xs with
    | nil => exact absurd hx List.not_mem_nil
    | cons y r =>
      unfold pickWinners
      dsimp only
      by_cases hk : x.1 = y.1
      · refine ⟨_, List.mem_cons_self, ?_⟩
        rw [hk, List.getD_eq_getElem?_getD]
        cases hw : (y :: r.filter fun z => z.1 == y.1)[(choose s (y :: r.filter fun z => z.1 == y.1).length).1]? with
        | none => rfl
        | some z =>
          rcases List.mem_cons.1 (List.mem_of_getElem? hw) with rfl | hz
          · rfl
          · exact beq_iff_eq.1 (List.mem_filter.1 hz).2
      · have hr : x ∈ r.filter fun z => z.1 != y.1 := by
          rcases List.mem_cons.1 hx with rfl | hx
          · exact absurd rfl hk
          · exact List.mem_filter.2 ⟨hx, bne_iff_ne.2 hk⟩
        obtain ⟨w, hw, hwk⟩ := ih (choose s (y :: r.filter fun z => z.1 == y.1).length).2
          ((List.length_filter_le _ _).trans (Nat.le_of_succ_le_succ hn)) hr
        exact ⟨w, List.mem_cons_of_mem _ hw, hwk⟩

theorem pickWinners_fresh {α : Type} (n : Nat) (s : State) (xs : List (Nat × α)) : ∃ fresh, (pickWinners n s xs).2 = { s with fresh } := by
  induction n generalizing s xs with
  | zero => exact ⟨s.fresh, rfl⟩
  | succ n ih =>
    cases xs with
    | nil => exact ⟨s.fresh, rfl⟩
    | cons x r =>
      unfold pickWinners
      dsimp only
      obtain ⟨fresh, h⟩ := choose_fresh s (x :: r.filter fun y => y.1 == x.1).length
      rw [h]
      obtain ⟨fresh', h'⟩ := ih { s with fresh } (r.filter fun y => y.1 != x.1)
      exact ⟨fresh', h'⟩

end Sys2Proof.Machine
end

section
/-!
O10. A load of scratchpad reads its parties' bytes; a store writes, of the accesses of one address, one; a fill grants first the waits
and then one take after another; a wait reads what it saw.
-/

namespace Sys2Proof.Machine

/-! ### What a memory instruction captures -/

theorem capture_addr {s : State} {i : Iss} {wide : Bool} {nb nc l : Nat} (hl : l ∈ (memCapture s i wide nb nc).lanes) :
    (l, mget (memCapture s i wide nb nc).addr l 0) ∈ (memCapture s i wide nb nc).addr := by
  have hget := mget_results (ls := parties s i)
    (fun l => if wide then effAddr64 i.e (srcA s i.a i.f i.e (srcLane i l)) else effAddr32 i.e (srcA s i.a i.f i.e (srcLane i l))) 0 l
  rw [if_pos (show l ∈ parties s i from hl)] at hget
  exact List.mem_map.2 ⟨l, hl, congrArg (Prod.mk l) hget.symm⟩

theorem capture_mem {s : State} {i : Iss} {wide : Bool} {nb nc : Nat} {x : Nat × Nat} (hx : x ∈ (memCapture s i wide nb nc).addr) :
    x.1 ∈ (memCapture s i wide nb nc).lanes ∧ mget (memCapture s i wide nb nc).addr x.1 0 = x.2 := by
  obtain ⟨l, hl, rfl⟩ := List.mem_map.1 hx
  refine ⟨hl, ?_⟩
  have hget := mget_results (ls := parties s i)
    (fun l => if wide then effAddr64 i.e (srcA s i.a i.f i.e (srcLane i l)) else effAddr32 i.e (srcA s i.a i.f i.e (srcLane i l))) 0 l
  rw [if_pos hl] at hget
  exact hget

/-- What is done for each address is done for each party. -/
theorem capture_flatMap {α : Type} (s : State) (i : Iss) (wide : Bool) (nb nc : Nat) (F : Nat → Nat → List α) :
    (memCapture s i wide nb nc).addr.flatMap (fun x => F x.1 x.2)
      = (memCapture s i wide nb nc).lanes.flatMap fun l => F l (mget (memCapture s i wide nb nc).addr l 0) := by
  have haddr : (memCapture s i wide nb nc).addr
      = (memCapture s i wide nb nc).lanes.map fun l => (l, mget (memCapture s i wide nb nc).addr l 0) := by
    have hl : (memCapture s i wide nb nc).lanes = (memCapture s i wide nb nc).addr.map Prod.fst := by
      unfold memCapture
      dsimp only
      rw [List.map_map]
      exact (List.map_id _).symm
    rw [hl, List.map_map]
    refine (List.map_id _).symm.trans (List.map_congr_left fun x hx => ?_)
    exact congrArg (Prod.mk x.1) (capture_mem hx).2.symm
  generalize hk : memCapture s i wide nb nc = k at haddr ⊢
  conv_lhs => rw [haddr]
  rw [List.flatMap_map]

theorem parties_nodup (s : State) (i : Iss) : (parties s i).Nodup := by
  unfold parties
  split
  · split
    · exact List.nodup_singleton 0
    · exact List.nodup_nil
  · exact participants_nodup _ _ _

/-! ### Issue -/

/-- A memory instruction is held, or is performed as it issues. -/
theorem memIssue_cases (instr : Instr) (k : Capture) (i : Iss) (s : State) : ∃ fresh,
    memIssue instr k i s = outstanding { s with fresh } i [] (.held instr k) false false
    ∨ memIssue instr k i s = settle (performMem { s with fresh } (accOf i) instr k).2 i instr k false
        (performMem { s with fresh } (accOf i) instr k).1 := by
  unfold memIssue
  dsimp only
  generalize mustWait _ _ _ _ _ = later
  cases later with
  | true => exact ⟨s.fresh, .inl rfl⟩
  | false =>
    simp only [Bool.false_or, Bool.false_eq_true, if_false]
    obtain ⟨fresh, hc⟩ := choose_fresh s 2
    rw [hc]
    split
    · exact ⟨fresh, .inl rfl⟩
    · exact ⟨fresh, .inr rfl⟩

/-- Blocks that do not meet are all that is delivered. -/
theorem delivers_blocks {ls : List Nat} {key : Nat → Nat} {n : Nat} {val : Nat → Nat} (hd : ls.Nodup)
    (hf : ∀ l ∈ ls, ∀ j < n, fixedTrue (key l + j) = false)
    (hinj : ∀ l ∈ ls, ∀ m ∈ ls, ∀ j < n, ∀ i < n, key l + j = key m + i → l = m) :
    Delivers (opWrites (ls.flatMap fun l => blockW (key l) n (val l))) ls key n val
    ∧ Only (opWrites (ls.flatMap fun l => blockW (key l) n (val l))) (ls.map fun l => (key l, n)) := by
  refine ⟨delivers_of (fun l hl w hw => List.mem_flatMap.2 ⟨l, hl, hw⟩) (blocks_nodup hd hinj) hf, fun k hk => ?_⟩
  obtain ⟨w, hw, rfl⟩ := opWrites_some _ [] k hk rfl
  obtain ⟨l, hl, hw⟩ := List.mem_flatMap.1 hw
  obtain ⟨j, hj, rfl⟩ := mem_blockW _ _ _ _ hw
  exact ⟨_, List.mem_map.2 ⟨l, hl, rfl⟩, by simp only; omega, by simp only; omega⟩

/-- Accesses inside the scratchpad pass their checks. -/
theorem scrChecks_none (c : Acc) {tm : Team} (wr : Bool) {n : Nat} {xs : List (Nat × Nat)}
    (h : ∀ x ∈ xs, x.2 % n = 0 ∧ x.2 + n ≤ tm.scrsize) : scrChecks c tm wr n xs = none := by
  refine List.findSome?_eq_none_iff.2 fun x hx => ?_
  obtain ⟨h1, h2⟩ := h x hx
  unfold scrCheck
  rw [if_neg (not_not.2 h1), if_neg (Nat.not_lt.2 h2)]

/-- The registers of a load's destination: lanes have different ones, and none reads as a constant. -/
def DestFree (uni : Bool) (e : Enc) (ls : List Nat) : Prop :=
  (∀ l ∈ ls, ∀ j < szN (e.M 10 8), fixedTrue (destKey uni e l + j) = false)
  ∧ ∀ l ∈ ls, ∀ m ∈ ls, ∀ j < szN (e.M 10 8), ∀ i < szN (e.M 10 8), destKey uni e l + j = destKey uni e m + i → l = m

theorem szN_cases (n : Nat) : szN n = 1 ∨ szN n = 2 ∨ szN n = 4 := by
  unfold szN
  split
  · exact .inr (.inl rfl)
  · split
    · exact .inr (.inr rfl)
    · exact .inl rfl

theorem destFree_lds {e : Enc} {s : State} {a : At} (h : Clear formLds e s a) :
    DestFree false e (parties (book s a e) (issOf formLds e s a)) := by
  have hbad := (field_legal h.legal (dest_named (f := formLds) e (encCtxOf s a).fmt rfl)).1
  have hbound : e.d.toNat + szN (e.M 10 8) ≤ 256 := by
    simp only [formLds, roleOperandBad, Bool.or_eq_false_iff, decide_eq_false_iff_not] at hbad
    omega
  refine ⟨fun l hl j hj => fixedTrue_v ?_, fun l _ m _ j hj i hi he => (vKey_inj hbound hj hi he).1⟩
  have hl32 := lt_of_participant (show l ∈ participants _ _ _ from hl)
  unfold vKey
  omega

theorem destFree_slds {e : Enc} {s : State} {a : At} (h : Clear formSlds e s a) :
    DestFree true e (parties (book s a e) (issOf formSlds e s a)) := by
  obtain ⟨hbad, hspec⟩ := field_legal h.legal (dest_named (f := formSlds) e (encCtxOf s a).fmt rfl)
  have hbound : e.d.toNat + szN (e.M 10 8) ≤ 128 := by
    simp only [formSlds, roleSpecialBad, decide_eq_false_iff_not] at hspec
    simp only [formSlds, roleOperandBad] at hbad
    rcases szN_cases (e.M 10 8) with hn | hn | hn
    · omega
    · rw [hn] at hbad ⊢
      simp at hbad
      omega
    · rw [hn] at hbad ⊢
      simp at hbad
      omega
  have hzero : ∀ l ∈ parties (book s a e) (issOf formSlds e s a), l = 0 := by
    intro l hl
    unfold parties at hl
    rw [if_pos (show (issOf formSlds e s a).f.uni = true from rfl)] at hl
    split at hl
    · exact List.mem_singleton.1 hl
    · exact absurd hl List.not_mem_nil
  refine ⟨fun l _ j hj => ?_, fun l hl m hm _ _ _ _ _ => (hzero l hl).trans (hzero m hm).symm⟩
  refine fixedTrue_v (l := 32) (d := e.d.toNat) (j := j) ?_
  unfold vKey
  omega

/-! ### Loads -/

/-- The state that a load of scratchpad goes outstanding in: as the bookkeeping of issue left it, but for who waits. -/
structure Issuing (s u : State) (a : At) (e : Enc) : Prop where
  rest   : { u with groups := s.groups, cores := s.cores, fresh := s.fresh } = s
  others : ∀ g, g ≠ a.gid → mfind u.groups g = mfind s.groups g
  group  : ∃ splits, mfind u.groups a.gid = some { bookGroup s a e a.g with splits }
  cores  : ∀ n, ∃ latches, getCore u n = { getCore s n with latches }
  kept   : ScrKept (teamKey a.gid) (book s a e) u

theorem Issuing.fresh {s u : State} {a : At} {e : Enc} (h : Issuing s u a e) (fresh : Nat) : Issuing s { u with fresh } a e where
  rest := h.rest
  others := h.others
  group := h.group
  cores := h.cores
  kept := h.kept.trans (.of_fields rfl rfl rfl rfl)

theorem issuing_book {f : Form} {e : Enc} {s : State} {a : At} (h : Clear f e s a) : Issuing s (book s a e) a e where
  rest := congrArg (fun u : State => { u with fresh := s.fresh }) (book_rest s a e)
  others := book_others s a e
  group := ⟨_, (iss_facts h).2.2.2.2.2.1⟩
  cores := book_cores s a e
  kept := .refl _

theorem issuing_unpark {f : Form} {e : Enc} {s : State} {a : At} (h : Clear f e s a) :
    Issuing s (unpark (book s a e) (issOf f e s a)) a e where
  rest := congrArg (fun u : State => { u with fresh := s.fresh }) (book_rest s a e)
  others g hg := by
    unfold unpark modSplit
    rw [mfind_modGroup, (iss_facts h).1, if_neg hg, book_others s a e g hg]
  group := by
    unfold unpark modSplit
    rw [mfind_modGroup, (iss_facts h).1, if_pos rfl, (iss_facts h).2.2.2.2.2.1]
    exact ⟨_, rfl⟩
  cores := book_cores s a e
  kept := ScrKept.modGroup (book s a e) (issOf f e s a).a.gid fun g => groupKept_modify g (issOf f e s a).a.k fun _ => rfl

theorem loadFrame_outstanding {f : Form} {e : Enc} {s u : State} {a : At} (h : Clear f e s a) (hu : Issuing s u a e)
    (ws : List (Nat × Word)) (st : Stage) (ind gr : Bool) : LoadFrame s (outstanding u (issOf f e s a) ws st ind gr) a e := by
  obtain ⟨splits, hg⟩ := hu.group
  have hgid := (iss_facts h).1
  obtain ⟨splits', hgrp, -⟩ := outstanding_group u (issOf f e s a) ws st ind gr _ (by rw [hgid]; exact hg)
  rw [hgid] at hgrp
  have hgt : getGroup (outstanding u (issOf f e s a) ws st ind gr) a.gid = _ := congrArg (·.getD Group.empty) hgrp
  have hgs : getGroup s a.gid = a.g := by rw [getGroup, mget, (curAt_some h.issuer).2]; rfl
  refine ⟨?_, fun g hg => ?_, ?_, fun k => ?_, hu.cores⟩
  · exact congrArg (fun x : State => { x with tlb := s.tlb, si := s.si }) hu.rest
  · refine Eq.trans ?_ (hu.others g hg)
    unfold outstanding
    rw [mfind_modGroup, if_neg (by rw [hgid]; exact hg)]
  · rw [hgt, hgs]
    exact ⟨_, _, _, _, _, _, _, rfl⟩
  · rw [hgt, hgs]
    exact bookGroup_flags s a e a.g k

/-- What a performed load of scratchpad writes: each party its block. -/
theorem ldsPerform_plain {uni : Bool} {u : State} {c : Acc} {e : Enc} {s : State} {i : Iss} (hq : uni = false → e.M 12 11 = 0) :
    ldsPerform uni [] u c e (memCapture s i false 0 0) = (.done ((memCapture s i false 0 0).lanes.flatMap fun l =>
      blockW (destKey uni e l) (szN (e.M 10 8)) (loaded (e.M 10 8)
        (scrRead (getTeam u c.team) (mget (memCapture s i false 0 0).addr l 0) (szBytes (e.M 10 8))))) none, u) := by
  have hstate : (!uni && e.M 12 11 != 0 && !(memCapture s i false 0 0).lanes.isEmpty) = false := by
    cases uni with
    | true => rfl
    | false => rw [hq rfl]; rfl
  unfold ldsPerform
  dsimp only
  rw [hstate, if_neg Bool.false_ne_true, capture_flatMap s i false 0 0
    fun l x => blockWrites uni l e.d.toNat (szN (e.M 10 8)) (extendLoad (e.M 10 8) (seenBytes (getTeam u c.team) [] x (szBytes (e.M 10 8))))]
  refine congrArg (fun ws => (Perf.done ws none, u)) (List.flatMap_congr fun l _ => ?_)
  rw [extendLoad_eq]
  cases uni <;> rfl

/-- A load of scratchpad that has issued, held or performed. -/
theorem load_sent {mk : Enc → Instr} {f : Form} {uni : Bool} {e : Enc} {s u : State} {a : At} (h : Clear f e s a)
    (hu : Issuing s u a e) (hfree : DestFree uni e (parties (book s a e) (issOf f e s a)))
    (hp : ∀ v : State, getTeam v (teamKey a.gid) = a.tm → performMem v (accOf (issOf f e s a)) (mk e)
        (memCapture (book s a e) (issOf f e s a) false 0 0)
      = ldsPerform uni [] v (accOf (issOf f e s a)) e (memCapture (book s a e) (issOf f e s a) false 0 0))
    (hq : uni = false → e.M 12 11 = 0) :
    let k := memCapture (book s a e) (issOf f e s a) false 0 0
    let t := memIssue (mk e) k (issOf f e s a) u
    ∃ o, LoadFrame s t a e ∧ WentOn t a e ∧ Sent s t a e o ∧ NowOrLater o (mk e) k
      (Delivers o.writes k.lanes (destKey uni e) (szN (e.M 10 8))
          (fun l => loaded (e.M 10 8) (scrRead a.tm (mget k.addr l 0) (szBytes (e.M 10 8))))
        ∧ Only o.writes (k.lanes.map fun l => (destKey uni e l, szN (e.M 10 8)))) := by
  intro k t
  obtain ⟨fresh, ht⟩ := memIssue_cases (mk e) k (issOf f e s a) u
  change t = _ ∨ t = _ at ht
  clear_value t
  have hteam : getTeam { u with fresh } (teamKey a.gid) = a.tm := by
    have := congrArg (fun x : State => getTeam x (teamKey a.gid)) (hu.fresh fresh).rest
    exact Eq.trans this (atOf_some (curAt_some h.issuer).1).2.2.2.2.1.symm
  rcases ht with ht | ht
  · have hsent := sent_kept h (hu.fresh fresh).kept [] (.held (mk e) k) false false
    rw [← ht] at hsent
    obtain ⟨hw, o, hs, hst, hws⟩ := hsent
    exact ⟨o, ht ▸ loadFrame_outstanding h (hu.fresh fresh) _ _ _ _, hw, hs, .inl ⟨hst, hws⟩⟩
  · have hgid := (iss_facts h).1
    rw [hp _ hteam, ldsPerform_plain hq] at ht
    rw [show (accOf (issOf f e s a)).team = teamKey a.gid from congrArg teamKey hgid, hteam] at ht
    obtain ⟨hd, ho⟩ := delivers_blocks (val := fun l => loaded (e.M 10 8) (scrRead a.tm (mget k.addr l 0) (szBytes (e.M 10 8))))
      (parties_nodup (book s a e) (issOf f e s a)) hfree.1 hfree.2
    have hsent := sent_kept h (hu.fresh fresh).kept (k.lanes.flatMap fun l => blockW (destKey uni e l) (szN (e.M 10 8))
      (loaded (e.M 10 8) (scrRead a.tm (mget k.addr l 0) (szBytes (e.M 10 8))))) .done false false
    have ht' : t = outstanding { u with fresh } (issOf f e s a) _ .done false false := ht
    rw [← ht'] at hsent
    obtain ⟨hw, o, hs, hst, hws⟩ := hsent
    refine ⟨o, ht' ▸ loadFrame_outstanding h (hu.fresh fresh) _ _ _ _, hw, hs, .inr ⟨hst, ?_⟩⟩
    rw [hws]
    exact ⟨hd, ho⟩

/-- A load without a wait does not wait. -/
theorem execLds_plain {e : Enc} {s : State} {a : At} (h : Clear formLds e s a) (hq : e.M 12 11 = 0) :
    exec (.lds e) s = .next (memIssue (.lds e) (memCapture (book s a e) (issOf formLds e s a) false 0 0) (issOf formLds e s a)
      (unpark (book s a e) (issOf formLds e s a))) := by
  have hwait : ∀ got, waitOf (book s a e) (issOf formLds e s a).a (.lds e) got = .none := fun got => by
    change ldsWait _ _ e = _
    unfold ldsWait
    dsimp only
    rw [hq]
    rfl
  have heff : ∀ got, ldsEffect got (issOf formLds e s a) (unpark (book s a e) (issOf formLds e s a))
      = memIssue (.lds e) (memCapture (book s a e) (issOf formLds e s a) false 0 0) (issOf formLds e s a)
          (unpark (book s a e) (issOf formLds e s a)) := fun got => if_pos hq
  change issueWait formLds e (.lds e) s ldsEffect = _
  unfold issueWait
  rw [gate_clear h]
  dsimp only
  split
  · rw [heff]
  · rw [hwait]
    exact congrArg _ (heff _)

/-- Checked accesses of scratchpad are performed. -/
theorem performMem_scr {c : Acc} {tm : Team} {wr : Bool} {n : Nat} {k : Capture} {v : State} {i : Instr}
    (hin : ∀ x ∈ k.addr, x.2 % n = 0 ∧ x.2 + n ≤ tm.scrsize)
    (hi : checkMem v c i k = checkScr v (scrChecks c (getTeam v c.team) wr n k.addr) k) (ht : getTeam v c.team = tm) :
    performMem v c i k = runMem v c i k := by
  unfold performMem
  rw [hi, ht, scrChecks_none c wr hin]
  rfl

/-- Loads of scratchpad (R247, R277). -/
theorem scratchLoads : ScratchLoadsClaim := by
  refine ⟨?_, ?_⟩
  · intro e s a h hq s1 k n hin
    have hteam : (accOf (issOf formLds e s a)).team = teamKey a.gid := congrArg teamKey (iss_facts h).1
    obtain ⟨o, ho⟩ := load_sent (mk := .lds) h (issuing_unpark h) (destFree_lds h)
      (fun v hv => performMem_scr (wr := false) hin rfl ((congrArg (getTeam v) hteam).trans hv)) hq
    exact ⟨_, o, execLds_plain h (hq rfl), ho⟩
  · intro e s a h _ s1 k n hin
    have hteam : (accOf (issOf formSlds e s a)).team = teamKey a.gid := congrArg teamKey (iss_facts h).1
    obtain ⟨o, ho⟩ := load_sent (mk := .slds) h (issuing_book h) (destFree_slds h)
      (fun v hv => performMem_scr (wr := false) hin rfl ((congrArg (getTeam v) hteam).trans hv)) fun hf => Bool.noConfusion hf
    exact ⟨_, o, issue_clear h _, ho⟩

/-! ### Stores -/

theorem szBytes_cases (n : Nat) : szBytes n = 1 ∨ szBytes n = 2 ∨ szBytes n = 4 ∨ szBytes n = 8 ∨ szBytes n = 16 := by
  unfold szBytes
  split <;> simp

/-- The length of every half of an access. -/
def halfBytes (n : Nat) : Nat := if n > 8 then 8 else n

/-- A half is a run of the access's bytes. -/
theorem halves_run {bs : List Byte} {sz : Nat} (hl : bs.length = szBytes sz) {h : Nat × List Byte} (hh : h ∈ halves bs) :
    h.2.length = halfBytes (szBytes sz) ∧ h.1 + h.2.length ≤ bs.length ∧ ∀ j < h.2.length, h.2.getD j 0 = bs.getD (h.1 + j) 0 := by
  have hsz := szBytes_cases sz
  unfold halves at hh
  unfold halfBytes
  rw [← hl] at hsz ⊢
  split at hh
  · next hlong =>
    rw [if_pos hlong]
    rcases List.mem_cons.1 hh with rfl | hh
    · have hlen : (bs.take 8).length = 8 := by rw [List.length_take]; omega
      refine ⟨hlen, by dsimp only; omega, fun j hj => ?_⟩
      dsimp only at hj ⊢
      rw [List.getD_eq_getElem?_getD, List.getElem?_take_of_lt (by omega), Nat.zero_add, List.getD_eq_getElem?_getD]
    · obtain rfl := List.mem_singleton.1 hh
      have hlen : (bs.drop 8).length = 8 := by rw [List.length_drop]; omega
      refine ⟨hlen, by dsimp only; omega, fun j _ => ?_⟩
      dsimp only
      rw [List.getD_eq_getElem?_getD, List.getElem?_drop, List.getD_eq_getElem?_getD]
  · next hshort =>
    rw [if_neg hshort]
    obtain rfl := List.mem_singleton.1 hh
    exact ⟨rfl, by dsimp only; omega, fun j _ => by rw [Nat.zero_add]⟩

/-- Each byte of an access lies in a half. -/
theorem exists_half {bs : List Byte} {j : Nat} (hj : j < bs.length) : ∃ h ∈ halves bs, h.1 ≤ j ∧ j < h.1 + h.2.length := by
  unfold halves
  split
  · by_cases h8 : j < 8
    · exact ⟨_, List.mem_cons_self, Nat.zero_le j, by rw [List.length_take]; omega⟩
    · exact ⟨_, List.mem_cons_of_mem _ List.mem_cons_self, by dsimp only; omega, by rw [List.length_drop]; dsimp only; omega⟩
  · exact ⟨_, List.mem_cons_self, Nat.zero_le j, by dsimp only; omega⟩

theorem halves_ne_nil (bs : List Byte) : halves bs ≠ [] := by
  unfold halves
  split <;> exact List.cons_ne_nil _ _

/-- The accesses of a store, half by half. -/
def storeUnits (n : Nat) (k : Capture) : List (Nat × List Byte) :=
  k.addr.flatMap fun x => (halves (leBytes n (wordsNat (mget k.data x.1 [])))).map fun h => (x.2 + h.1, h.2)

theorem storeUnits_eq_nil {n : Nat} {k : Capture} (h : storeUnits n k = []) : k.addr = [] := by
  unfold storeUnits at h
  cases hk : k.addr with
  | nil => rfl
  | cons x r =>
    rw [hk, List.flatMap_cons] at h
    exact absurd (List.map_eq_nil_iff.1 (List.append_eq_nil_iff.1 h).1) (halves_ne_nil _)

/-- The winners' bytes are what a store leaves (R5). -/
theorem storedScr_winners {s : State} {i : Iss} {nb sz tk : Nat} {tm : Team} {v : State} (ht : getTeam v tk = tm)
    (hlisted : (memCapture s i false nb 0).addr ≠ [] → mfind v.teams tk ≠ none) (x : Nat) :
    let k := memCapture s i false nb 0
    let w := pickWinners (storeUnits (szBytes sz) k).length v (storeUnits (szBytes sz) k)
    storedScr tm k (szBytes sz) x (scrByte (getTeam (w.1.foldl (fun acc u => scrWrite acc tk u.1 u.2) w.2) tk) x) := by
  intro k w
  have hw2 : w.2.teams = v.teams := by
    obtain ⟨fresh, h⟩ := pickWinners_fresh (storeUnits (szBytes sz) k).length v (storeUnits (szBytes sz) k)
    exact (congrArg State.teams h :)
  have hunit : ∀ u ∈ storeUnits (szBytes sz) k, ∃ l ∈ k.lanes, ∃ h ∈ halves (leBytes (szBytes sz) (wordsNat (mget k.data l []))),
      u = (mget k.addr l 0 + h.1, h.2) := by
    intro u hu
    obtain ⟨y, hy, hu⟩ := List.mem_flatMap.1 hu
    obtain ⟨h, hh, rfl⟩ := List.mem_map.1 hu
    obtain ⟨hl, hget⟩ := capture_mem hy
    exact ⟨y.1, hl, h, hh, by rw [hget]⟩
  have hrun := fun l => @halves_run (leBytes (szBytes sz) (wordsNat (mget k.data l []))) sz (leBytes_length _ _)
  have hne : w.1 ≠ [] → mfind w.2.teams tk ≠ none := fun hw => by
    rw [hw2]
    refine hlisted fun hk => hw ?_
    refine List.eq_nil_iff_forall_not_mem.2 fun y hy => ?_
    obtain ⟨z, hz, -⟩ := List.mem_flatMap.1 (mem_pickWinners _ _ hy)
    rw [hk] at hz
    exact List.not_mem_nil hz
  rcases scrByte_writes w.1 hne x with ⟨u, hu, hc, hb⟩ | ⟨hno, hb⟩
  · obtain ⟨l, hl, h, hh, rfl⟩ := hunit u (mem_pickWinners _ _ hu)
    obtain ⟨-, hend, hget⟩ := hrun l hh
    rw [leBytes_length] at hend
    unfold Covers at hc
    dsimp only at hc hb
    have hlo : mget k.addr l 0 ≤ x := by omega
    have hhi : x < mget k.addr l 0 + szBytes sz := by omega
    have hplace : h.1 + (x - (mget k.addr l 0 + h.1)) = x - mget k.addr l 0 := by omega
    have hbyte := hget (x - (mget k.addr l 0 + h.1)) (by omega)
    rw [hplace] at hbyte
    exact .inl ⟨l, hl, hlo, hhi, hb.trans hbyte⟩
  · refine .inr ⟨fun l hl ⟨hlo', hhi'⟩ => ?_, hb.trans (by rw [getTeam, hw2]; exact congrArg (scrByte · x) ht)⟩
    dsimp only at hlo' hhi'
    obtain ⟨h, hh, hlo, hhi⟩ := exists_half (bs := leBytes (szBytes sz) (wordsNat (mget k.data l []))) (j := x - mget k.addr l 0)
      (by rw [leBytes_length]; omega)
    have hu : (mget k.addr l 0 + h.1, h.2) ∈ storeUnits (szBytes sz) k :=
      List.mem_flatMap.2 ⟨_, capture_addr hl, List.mem_map.2 ⟨h, hh, rfl⟩⟩
    obtain ⟨u, huw, hkey⟩ := exists_winner _ v (Nat.le_refl _) hu
    obtain ⟨l', -, h', hh', rfl⟩ := hunit u (mem_pickWinners _ _ huw)
    have hlen : h'.2.length = h.2.length := (hrun l' hh').1.trans (hrun l hh).1.symm
    dsimp only at hkey
    have hfirst : mget k.addr l' 0 + h'.1 ≤ x := by omega
    have hlast : x < mget k.addr l' 0 + h'.1 + h'.2.length := by omega
    exact hno _ huw ⟨hfirst, hlast⟩

/-- A state in which a store's bytes stand, and nothing else has changed. -/
structure BytesStand (tk : Nat) (tm : Team) (k : Capture) (n : Nat) (v m : State) : Prop where
  kept   : ScrKept tk v m
  splits : ∀ g j, splitOf m g j = splitOf v g j
  parked : parkedOf m tk = parkedOf v tk
  full   : (getTeam m tk).full = tm.full
  bytes  : ∀ x, storedScr tm k n x (scrByte (getTeam m tk) x)

/-- A release of scratchpad is seen in no split. -/
theorem noteRelease_stands {tk : Nat} {tm : Team} {k : Capture} {n : Nat} {v m : State} (h : BytesStand tk tm k n v m) (c : Acc) (scope : Nat) :
    BytesStand tk tm k n v (noteRelease m c scope []) := by
  unfold noteRelease
  split
  · exact ⟨h.kept.trans (.of_fields rfl rfl rfl rfl), h.splits, h.parked, h.full, h.bytes⟩
  · next gid _ =>
    dsimp only
    generalize hr : recordScope m c scope _ = r
    have hm : ScrKept tk m r := hr ▸ .of_fields rfl rfl rfl rfl
    have hgroups : r.groups = m.groups := hr ▸ rfl
    have hteams : r.teams = m.teams := hr ▸ rfl
    refine ⟨(h.kept.trans hm).trans (ScrKept.modGroup r gid fun g => ⟨rfl, rfl, rfl⟩), fun g j => ?_, ?_, ?_, fun x => ?_⟩
    · refine Eq.trans ?_ (h.splits g j)
      have hget : getGroup r g = getGroup m g := by rw [getGroup, hgroups]; rfl
      unfold splitOf
      rcases getGroup_modGroup_or r gid (fun g => { g with dirty := [] }) g with hg | hg <;> rw [hg, hget]
    · rw [parkedOf_modGroup r gid (f := fun g => { g with dirty := [] }) fun g => ⟨rfl, rfl⟩]
      refine Eq.trans ?_ h.parked
      unfold parkedOf
      rw [hgroups]
    · refine Eq.trans ?_ h.full
      unfold getTeam
      exact congrArg (fun ts => (mget ts tk Team.empty).full) hteams
    · have := h.bytes x
      unfold getTeam at this ⊢
      exact hteams ▸ this

/-- What a store that is performed does: its bytes, and, without KEEP, a fill. -/
theorem stsPerform_stands {uni : Bool} {s : State} {i : Iss} {nb : Nat} {e : Enc} {tm : Team} {v : State} {c : Acc} (ht : getTeam v c.team = tm)
    (hlisted : (memCapture s i false nb 0).addr ≠ [] → mfind v.teams c.team ≠ none) :
    let k := memCapture s i false nb 0
    let n := szBytes (e.M 10 8)
    let gs := (k.addr.flatMap fun x => granules x.2 n).eraseDups
    ∃ m, BytesStand c.team tm k n v m
      ∧ stsPerform uni v c e k = (.done [] none, if (uni || e.M 11 11 == 1) = true then m else fill m c.team gs) := by
  intro k n gs
  obtain ⟨fresh, hfresh⟩ := pickWinners_fresh (storeUnits n k).length v (storeUnits n k)
  have hbytes := storedScr_winners (sz := e.M 10 8) ht hlisted
  dsimp only at hbytes
  have hstands : BytesStand c.team tm k n v ((pickWinners (storeUnits n k).length v (storeUnits n k)).1.foldl
      (fun acc u => scrWrite acc c.team u.1 u.2) (pickWinners (storeUnits n k).length v (storeUnits n k)).2) := by
    refine ⟨?_, fun g j => ?_, ?_, ?_, hbytes⟩
    · refine ScrKept.trans ?_ (foldl_scrWrite_kept _ _ _)
      rw [hfresh]
      exact .of_fields rfl rfl rfl rfl
    · unfold splitOf getGroup
      rw [foldl_scrWrite_groups, hfresh]
    · unfold parkedOf
      rw [foldl_scrWrite_groups, hfresh]
    · rw [foldl_scrWrite_full, hfresh]
      exact congrArg Team.full ht
  have hperform : stsPerform uni v c e k = (.done [] none, if uni || e.M 11 11 == 1 || (storeUnits n k).isEmpty then
      (pickWinners (storeUnits n k).length v (storeUnits n k)).1.foldl (fun acc u => scrWrite acc c.team u.1 u.2)
        (pickWinners (storeUnits n k).length v (storeUnits n k)).2
    else fill (noteRelease ((pickWinners (storeUnits n k).length v (storeUnits n k)).1.foldl (fun acc u => scrWrite acc c.team u.1 u.2)
        (pickWinners (storeUnits n k).length v (storeUnits n k)).2) c 1 []) c.team gs) := rfl
  by_cases hkeep : (uni || e.M 11 11 == 1) = true
  · refine ⟨_, hstands, hperform.trans ?_⟩
    rw [hkeep, Bool.true_or]
    rfl
  · rw [Bool.eq_false_of_not_eq_true hkeep, Bool.false_or] at hperform
    cases hu : (storeUnits n k).isEmpty with
    | true =>
      have hgs : gs = [] := by
        change (k.addr.flatMap _).eraseDups = []
        rw [storeUnits_eq_nil (List.isEmpty_iff.1 hu)]
        rfl
      refine ⟨_, hstands, hperform.trans ?_⟩
      rw [hu, if_neg hkeep, hgs]
      rfl
    | false =>
      refine ⟨_, noteRelease_stands hstands c 1, hperform.trans ?_⟩
      rw [hu, if_neg hkeep]
      rfl

/-- What goes outstanding leaves who waits. -/
theorem park_outstanding (u : State) (i : Iss) (ws : List (Nat × Word)) (st : Stage) (ind gr : Bool) (g j : Nat) :
    (splitOf (outstanding u i ws st ind gr) g j).park = (splitOf u g j).park := by
  unfold outstanding splitOf
  rcases getGroup_modGroup_or u i.a.gid _ g with hg | hg
  · rw [hg]
  · rw [hg]
    split
    · simp only [hearScr, List.getD_eq_getElem?_getD, List.getElem?_map]
      cases (getGroup u g).splits[j]? with
      | none => rfl
      | some x =>
        simp only [Option.map_some, Option.getD_some]
        split <;> rfl
    · rfl

/-- A team in whose scratchpad an access lies is listed. -/
theorem team_listed {e : Enc} {s : State} {a : At} {f : Form} (h : Clear f e s a) {k : Capture} {sz : Nat}
    (hin : InScratch a k (szBytes sz)) (hne : k.addr ≠ []) : mfind s.teams (teamKey a.gid) ≠ none := by
  intro hnone
  obtain ⟨x, hx⟩ := List.exists_mem_of_ne_nil _ hne
  have htm := (atOf_some (curAt_some h.issuer).1).2.2.2.2.1
  rw [getTeam, mget, hnone] at htm
  have hfit := (hin x hx).2
  rw [htm] at hfit
  have hpos := szBytes_cases sz
  change x.2 + szBytes sz ≤ 0 at hfit
  omega

/-- What a store of scratchpad leaves in the state `t`, whose operation is `o`: it is held, or its bytes stand, and without KEEP the
granules have been filled. -/
def StoreLeaves (i : Instr) (uni : Bool) (s t : State) (a : At) (e : Enc) (k : Capture) (o : Op) : Prop :=
  let n := szBytes (e.M 10 8)
  (o.stage = .held i k ∧ ScrStored s t a e (fun x b => b = scrByte a.tm x) ∧ (getTeam t (teamKey a.gid)).full = a.tm.full)
  ∨ (o.stage = .done ∧ ScrStored s t a e (storedScr a.tm k n)
    ∧ ((uni = true ∨ e.M 11 11 = 1) → (getTeam t (teamKey a.gid)).full = a.tm.full)
    ∧ (uni = false → e.M 11 11 = 0 → parkedOf (book s a e) (teamKey a.gid) = [] → ∀ g,
        isFull (getTeam t (teamKey a.gid)) g = (isFull a.tm g || decide (∃ l ∈ k.lanes, g ∈ granules (mget k.addr l 0) n)))
    ∧ (uni = false → e.M 11 11 = 0 →
        let gs := (k.addr.flatMap fun x => granules x.2 n).eraseDups
        ∃ m, (∀ g j, splitOf m g j = splitOf (book s a e) g j) ∧ (getTeam m (teamKey a.gid)).full = a.tm.full
          ∧ (∀ x, scrByte (getTeam m (teamKey a.gid)) x = scrByte (getTeam t (teamKey a.gid)) x)
          ∧ (∀ g j, (splitOf t g j).park = (splitOf (fill m (teamKey a.gid) gs) g j).park)
          ∧ (getTeam t (teamKey a.gid)).full = (getTeam (fill m (teamKey a.gid) gs) (teamKey a.gid)).full))

/-- The store goes outstanding where its bytes stand. -/
theorem stored_outstanding {f : Form} {e : Enc} {s v m u : State} {a : At} (h : Clear f e s a) {k : Capture} {n : Nat}
    (hv : ScrKept (teamKey a.gid) (book s a e) v) (hm : BytesStand (teamKey a.gid) a.tm k n v m) (hu : Granted (teamKey a.gid) m u) :
    let t := outstanding u (issOf f e s a) [] .done false false
    ScrStored s t a e (storedScr a.tm k n) ∧ WentOn t a e ∧ ∃ o, Sent s t a e o ∧ o.stage = .done ∧ o.writes = [] := by
  intro t
  have hkept := (hv.trans hm.kept).trans hu.kept
  refine ⟨scrStored_kept h hkept _ _ _ _ rfl fun x => ?_, sent_kept h hkept [] .done false false⟩
  have hb := hm.bytes x
  unfold scrByte at hb ⊢
  rw [hu.scr]
  exact hb

/-- Where nobody waits, the granules that are touched become full. -/
theorem isFull_fill_unparked {s : State} {i : Iss} {nb n tk : Nat} {m : State} {g : Nat} (hparked : parkedOf m tk = [])
    (hlisted : (memCapture s i false nb 0).addr ≠ [] → mfind m.teams tk ≠ none) :
    let k := memCapture s i false nb 0
    isFull (getTeam (fill m tk (k.addr.flatMap fun x => granules x.2 n).eraseDups) tk) g
      = (isFull (getTeam m tk) g || decide (∃ l ∈ k.lanes, g ∈ granules (mget k.addr l 0) n)) := by
  intro k
  have hmem : g ∈ (k.addr.flatMap fun x => granules x.2 n).eraseDups ↔ ∃ l ∈ k.lanes, g ∈ granules (mget k.addr l 0) n := by
    rw [List.mem_eraseDups, List.mem_flatMap]
    constructor
    · rintro ⟨x, hx, hg⟩
      obtain ⟨hl, hget⟩ := capture_mem hx
      exact ⟨x.1, hl, hget ▸ hg⟩
    · rintro ⟨l, hl, hg⟩
      exact ⟨_, capture_addr hl, hg⟩
  rw [fill_unparked hparked, ← decide_eq_decide.2 hmem]
  split
  · next hnil => rw [decide_eq_false (by rw [hnil]; exact List.not_mem_nil), Bool.or_false]
  · next hne => exact isFull_markFull (hlisted fun hk : k.addr = [] => hne (by rw [hk]; rfl)) _ g

/-- A store of scratchpad that has issued, held or performed. -/
theorem store_sent {mk : Enc → Instr} {f : Form} {uni : Bool} {e : Enc} {s : State} {a : At} (h : Clear f e s a)
    (hin : InScratch a (memCapture (book s a e) (issOf f e s a) false (szN (e.M 10 8)) 0) (szBytes (e.M 10 8)))
    (hp : ∀ v : State, getTeam v (teamKey a.gid) = a.tm → performMem v (accOf (issOf f e s a)) (mk e)
        (memCapture (book s a e) (issOf f e s a) false (szN (e.M 10 8)) 0)
      = stsPerform uni v (accOf (issOf f e s a)) e (memCapture (book s a e) (issOf f e s a) false (szN (e.M 10 8)) 0)) :
    let k := memCapture (book s a e) (issOf f e s a) false (szN (e.M 10 8)) 0
    let t := memIssue (mk e) k (issOf f e s a) (book s a e)
    ∃ o, WentOn t a e ∧ Sent s t a e o ∧ o.writes = [] ∧ StoreLeaves (mk e) uni s t a e k o := by
  intro k t
  obtain ⟨fresh, ht⟩ := memIssue_cases (mk e) k (issOf f e s a) (book s a e)
  change t = _ ∨ t = _ at ht
  clear_value t
  have hteams : (book s a e).teams = s.teams := book_field s a e (·.teams) fun _ _ _ => rfl
  obtain ⟨v, hv⟩ : ∃ v, v = { book s a e with fresh } := ⟨_, rfl⟩
  rw [← hv] at ht
  have hteam : getTeam v (teamKey a.gid) = a.tm := by
    refine Eq.trans ?_ (atOf_some (curAt_some h.issuer).1).2.2.2.2.1.symm
    rw [hv]
    exact congrArg (fun ts => mget ts (teamKey a.gid) Team.empty) hteams
  have hlisted : k.addr ≠ [] → mfind v.teams (teamKey a.gid) ≠ none := fun hne hnone =>
    team_listed h hin hne (by rw [← hteams]; rw [hv] at hnone; exact hnone)
  have hfresh : ScrKept (teamKey a.gid) (book s a e) v := hv ▸ .of_fields rfl rfl rfl rfl
  have hsplits : ∀ g j, splitOf v g j = splitOf (book s a e) g j := fun g j => by rw [hv]; rfl
  have hparked : parkedOf v (teamKey a.gid) = parkedOf (book s a e) (teamKey a.gid) := by rw [hv]; rfl
  clear hv
  rcases ht with rfl | ht
  · obtain ⟨hw, o, hs, hst, hws⟩ := sent_kept h hfresh [] (.held (mk e) k) false false
    refine ⟨o, hw, hs, hws, .inl ⟨hst, scrStored_kept h hfresh _ _ _ _ rfl fun x => by rw [hteam], ?_⟩⟩
    exact congrArg Team.full hteam
  · have htk : (accOf (issOf f e s a)).team = teamKey a.gid := congrArg teamKey (iss_facts h).1
    obtain ⟨m, hm, hperf⟩ := stsPerform_stands (uni := uni) (e := e) (v := v) (c := accOf (issOf f e s a)) (tm := a.tm)
      (s := book s a e) (i := issOf f e s a) (nb := szN (e.M 10 8)) (htk ▸ hteam) (htk ▸ hlisted)
    rw [hp _ hteam, hperf] at ht
    rw [htk] at hm ht
    by_cases hkeep : (uni || e.M 11 11 == 1) = true
    · rw [if_pos hkeep] at ht
      change t = outstanding m (issOf f e s a) [] .done false false at ht
      subst ht
      obtain ⟨hbytes, hw, o, hs, hst, hws⟩ := stored_outstanding h hfresh hm (.refl m)
      have hnot : uni = false → e.M 11 11 = 0 → False := fun h1 h2 => by
        rw [h1, h2] at hkeep
        exact Bool.false_ne_true hkeep
      exact ⟨o, hw, hs, hws, .inr ⟨hst, hbytes, fun _ => hm.full, fun h1 h2 => (hnot h1 h2).elim, fun h1 h2 => (hnot h1 h2).elim⟩⟩
    · rw [if_neg hkeep] at ht
      change t = outstanding (fill m _ _) (issOf f e s a) [] .done false false at ht
      subst ht
      have hfill := Granted.fill m (teamKey a.gid) (k.addr.flatMap fun x => granules x.2 (szBytes (e.M 10 8))).eraseDups
      obtain ⟨hbytes, hw, o, hs, hst, hws⟩ := stored_outstanding h hfresh hm hfill
      have hnot : ¬ (uni = true ∨ e.M 11 11 = 1) := fun hor => hkeep <| by
        rcases hor with h1 | h1
        · rw [h1]; rfl
        · rw [h1]; exact Bool.or_true _
      refine ⟨o, hw, hs, hws, .inr ⟨hst, hbytes, fun hor => absurd hor hnot, fun _ _ hpk g => ?_, fun _ _ => ?_⟩⟩
      · refine (isFull_fill_unparked (hm.parked.trans (hparked.trans hpk)) fun hne hnone => ?_).trans ?_
        · have hsome := hm.kept.listed
          rw [hnone, Option.isSome_eq_false_iff.2 (Option.isNone_none)] at hsome
          exact hlisted hne (Option.isSome_eq_false_iff.1 hsome.symm |> Option.isNone_iff_eq_none.1)
        · unfold isFull
          rw [hm.full]
      · exact ⟨m, fun g j => (hm.splits g j).trans (hsplits g j), hm.full, fun x => congrArg (fun r => mget r x 0) hfill.scr.symm,
          park_outstanding _ _ _ _ _ _, rfl⟩

/-- Stores of scratchpad (R248, R277). -/
theorem scratchStores : ScratchStoresClaim := by
  refine ⟨?_, ?_⟩
  · intro e s a h s1 k n hin
    have hteam : (accOf (issOf formSts e s a)).team = teamKey a.gid := congrArg teamKey (iss_facts h).1
    obtain ⟨o, ho⟩ := store_sent (mk := .sts) (uni := false) h hin fun v hv =>
      performMem_scr (wr := true) hin rfl ((congrArg (getTeam v) hteam).trans hv)
    exact ⟨_, o, issue_clear h _, ho⟩
  · intro e s a h s1 k n hin
    have hteam : (accOf (issOf formSsts e s a)).team = teamKey a.gid := congrArg teamKey (iss_facts h).1
    obtain ⟨o, ho⟩ := store_sent (mk := .ssts) (uni := true) h hin fun v hv =>
      performMem_scr (wr := true) hin rfl ((congrArg (getTeam v) hteam).trans hv)
    exact ⟨_, o, issue_clear h _, ho⟩

/-! ### Fills -/

/-- A fill where splits wait. -/
theorem fill_parked {s : State} {tk : Nat} {gs : List Nat} (hgs : gs ≠ []) {x : Nat × Nat × SMap Byte} {r : List (Nat × Nat × SMap Byte)}
    (h : parkedOf (markFull s tk gs) tk = x :: r) :
    fill s tk gs = grantTakes (r.length + 1) (grantWaits (markFull s tk gs) tk) tk := by
  unfold fill
  rw [if_neg (by rw [List.isEmpty_iff]; exact hgs)]
  dsimp only
  rw [h, List.length_cons, if_neg (Nat.succ_ne_zero _)]

theorem grantTakes_unparked {s : State} {tk : Nat} (h : parkedOf s tk = []) (n : Nat) : grantTakes n s tk = s := by
  cases n with
  | zero => rfl
  | succ n =>
    unfold grantTakes
    rw [h]
    rfl

/-- The takes that may be granted. -/
def openTakes (s : State) (tk : Nat) : List (Nat × Nat × SMap Byte × List Nat) :=
  (parkedOf s tk).filterMap fun x =>
    match parkedWait s x with
    | .ready got (g :: gs) => some (x.1, x.2.1, got, g :: gs)
    | _ => none

/-- A take is granted: its split goes on, and its granules are empty. -/
def takeOpen (s : State) (tk : Nat) (x : Nat × Nat × SMap Byte × List Nat) : State :=
  markEmpty (setPark s x.1 x.2.1 x.2.2.1 true) tk x.2.2.2

theorem grantTakes_succ (s : State) (tk n : Nat) : grantTakes (n + 1) s tk
    = (openTakes s tk)[(choose s (openTakes s tk).length).1]?.elim s
        fun x => grantTakes n (takeOpen (choose s (openTakes s tk).length).2 tk x) tk := by
  have helim : ∀ (o : Option (Nat × Nat × SMap Byte × List Nat)) (F : Nat × Nat × SMap Byte × List Nat → State),
      (match o with | none => s | some x => F x) = o.elim s F := fun o F => by cases o <;> rfl
  exact helim _ fun x => grantTakes n (takeOpen (choose s (openTakes s tk).length).2 tk x) tk

theorem grantTakes_none {s : State} {tk : Nat} (h : openTakes s tk = []) (n : Nat) : grantTakes n s tk = s := by
  cases n with
  | zero => rfl
  | succ n =>
    rw [grantTakes_succ, h]
    rfl

/-- One take is open: it is granted. -/
theorem grantTakes_one {s : State} {tk gid k : Nat} {got : SMap Byte} {gs : List Nat} (h : openTakes s tk = [(gid, k, got, gs)]) (n : Nat) :
    grantTakes (n + 1) s tk = grantTakes n (markEmpty (setPark s gid k got true) tk gs) tk := by
  rw [grantTakes_succ, h]
  rfl

/-- Two takes are open: one of them is granted. -/
theorem grantTakes_two {s : State} {tk : Nat} {x y : Nat × Nat × SMap Byte × List Nat} (h : openTakes s tk = [x, y]) (n : Nat) :
    let s1 := { s with fresh := s.fresh + 1 }
    ∃ z, (z = x ∨ z = y) ∧ grantTakes (n + 1) s tk = grantTakes n (markEmpty (setPark s1 z.1 z.2.1 z.2.2.1 true) tk z.2.2.2) tk := by
  intro s1
  have heq := grantTakes_succ s tk n
  have hchoose : choose s 2 = (Config.freeChoice s.fresh % 2, s1) := rfl
  rw [h, List.length_cons, List.length_cons, List.length_nil, hchoose] at heq
  rcases Nat.mod_two_eq_zero_or_one (Config.freeChoice s.fresh) with h0 | h1
  · exact ⟨x, .inl rfl, by rw [heq, h0]; rfl⟩
  · exact ⟨y, .inr rfl, by rw [heq, h1]; rfl⟩

/-- What a fill does first for a split that waits: it is granted, unless it would take (R61). -/
def grantWait (s : State) (x : Nat × Nat × SMap Byte) : State :=
  match parkedWait s x with
  | .ready got [] => setPark s x.1 x.2.1 got true
  | .no got => setPark s x.1 x.2.1 got false
  | _ => s

theorem grantWaits_eq (s : State) (tk : Nat) : grantWaits s tk = (parkedOf s tk).foldl grantWait s := rfl

theorem grantWait_plain {s : State} {x : Nat × Nat × SMap Byte} {got : SMap Byte} (h : parkedWait s x = .ready got []) :
    grantWait s x = setPark s x.1 x.2.1 got true := by
  unfold grantWait
  rw [h]

theorem grantWait_take {s : State} {x : Nat × Nat × SMap Byte} {got : SMap Byte} {g : Nat} {r : List Nat}
    (h : parkedWait s x = .ready got (g :: r)) : grantWait s x = s := by
  unfold grantWait
  rw [h]

theorem openTakes_take {s : State} {tk : Nat} {x : Nat × Nat × SMap Byte} {got : SMap Byte} {g : Nat} {r : List Nat}
    (hp : parkedOf s tk = [x]) (h : parkedWait s x = .ready got (g :: r)) : openTakes s tk = [(x.1, x.2.1, got, g :: r)] := by
  unfold openTakes
  rw [hp, List.filterMap_cons, h]
  rfl

/-- A take that lost waits on. -/
theorem openTakes_closed {s : State} {tk : Nat} {x : Nat × Nat × SMap Byte} (hp : parkedOf s tk = [x])
    (h : ∀ got r, parkedWait s x ≠ .ready got r) : openTakes s tk = [] := by
  unfold openTakes
  rw [hp, List.filterMap_cons]
  split
  · rfl
  · next heq =>
    split at heq
    · next hw => exact absurd hw (h _ _)
    · exact absurd heq (Option.some_ne_none _).symm

/-- A granule that a take clears is empty. -/
theorem isFull_taken (s : State) (tk g : Nat) : isFull (getTeam (markEmpty s tk [g]) tk) g = false := by
  rcases getTeam_modTeam s tk (fun t => { t with full := [g].foldl mdel t.full }) with h | ⟨hnone, h⟩
  · unfold markEmpty
    rw [h]
    unfold isFull
    rw [List.foldl_cons, List.foldl_nil, mget, mfind_mdel_self]
    rfl
  · unfold markEmpty
    rw [h, getTeam, mget, hnone]
    rfl

/-- Fills (R61). -/
theorem fills : FillsClaim := by
  intro s tk gs hgs hteam m given
  refine ⟨fun g => isFull_markFull (Option.isSome_iff_ne_none.1 hteam) gs g, fun h => ?_, fun x got h hw hrest => ?_,
    fun x got g r h hw hrest => ?_, ?_, ?_⟩
  · exact (fill_unparked (s := s) h gs).trans (if_neg hgs)
  · rw [fill_parked hgs h, grantWaits_eq, h, List.foldl_cons, List.foldl_nil, grantWait_plain hw]
    exact grantTakes_unparked hrest _
  · rw [fill_parked hgs h, grantWaits_eq, h, List.foldl_cons, List.foldl_nil, grantWait_take hw, List.length_nil,
      grantTakes_one (openTakes_take h hw)]
    rfl
  · intro x y gx gy g r h hx hy hleft t hrest
    rw [fill_parked hgs h, grantWaits_eq, h, List.foldl_cons, List.foldl_cons, List.foldl_nil, grantWait_plain hx,
      grantWait_take hy, List.length_cons, grantTakes_one (openTakes_take hleft hy)]
    exact grantTakes_unparked hrest _
  · intro x y gx gy g h hx hy m1 tx ty hleft hright hy' hx'
    have htakes : openTakes m tk = [(x.1, x.2.1, gx, [g]), (y.1, y.2.1, gy, [g])] := by
      unfold openTakes
      rw [h, List.filterMap_cons, hx, List.filterMap_cons, hy]
      rfl
    obtain ⟨z, hz, hgrant⟩ := grantTakes_two htakes 1
    have hfill : fill s tk gs = grantTakes (1 + 1) m tk := by
      rw [fill_parked hgs h, grantWaits_eq, h, List.foldl_cons, List.foldl_cons, List.foldl_nil, grantWait_take hx,
        grantWait_take hy, List.length_cons, List.length_nil]
    rw [hgrant] at hfill
    rcases hz with rfl | rfl
    · rw [hfill, grantTakes_none (openTakes_closed hleft hy')]
      exact ⟨.inl rfl, isFull_taken _ tk g⟩
    · rw [hfill, grantTakes_none (openTakes_closed hright hx')]
      exact ⟨.inr rfl, isFull_taken _ tk g⟩

/-! ### Waits -/

/-- A snapshot holds bytes as they are. -/
theorem mfind_snapshot {tm : Team} (gs : List Nat) {got : SMap Byte} (hgot : ∀ x b, mfind got x = some b → b = scrByte tm x) {x : Nat}
    {b : Byte} (h : mfind (snapshot tm got gs) x = some b) : b = scrByte tm x := by
  have hset : ∀ (as : List Nat) (m : SMap Byte), (∀ x b, mfind m x = some b → b = scrByte tm x) →
      ∀ x b, mfind (as.foldl (fun m2 a => mset m2 a (scrByte tm a)) m) x = some b → b = scrByte tm x := by
    intro as
    induction as with
    | nil => exact fun m hm => hm
    | cons a r ih =>
      refine fun m hm => ih _ fun x b hb => ?_
      by_cases hx : x = a
      · rw [hx, mfind_mset_self] at hb
        rw [hx]
        exact (Option.some.inj hb).symm
      · rw [mfind_mset_other _ _ _ _ hx] at hb
        exact hm x b hb
  unfold snapshot at h
  induction gs generalizing got with
  | nil => exact hgot x b h
  | cons g r ih => exact ih (hset _ _ hgot) h

/-- What a wait has seen is what stands. -/
theorem seenBytes_snapshot {tm tm' : Team} (hscr : tm'.scr = tm.scr) (gs : List Nat) (a n : Nat) :
    seenBytes tm' (snapshot tm [] gs) a n = scrRead tm a n := by
  refine List.map_congr_left fun x _ => ?_
  cases h : mfind (snapshot tm [] gs) x with
  | none => exact congrArg (fun m => mget m x 0) hscr
  | some b => exact mfind_snapshot gs (fun _ _ hb => by cases hb) h

/-- The wait of a load whose accesses lie in the scratchpad (R247). -/
theorem ldsWait_static {e : Enc} {s : State} {a : At} (h : Clear formLds e s a) (hq : e.M 12 11 ≠ 0)
    (hin : InScratch a (memCapture (book s a e) (issOf formLds e s a) false 0 0) (szBytes (e.M 10 8)))
    (hne : (memCapture (book s a e) (issOf formLds e s a) false 0 0).lanes ≠ []) :
    let k := memCapture (book s a e) (issOf formLds e s a) false 0 0
    let gs := k.lanes.flatMap fun l => granules (mget k.addr l 0) (szBytes (e.M 10 8))
    ldsWait (book s a e) (issOf formLds e s a).a e = staticWait a.tm gs (if e.M 12 11 = 2 then gs else []) := by
  intro k gs
  have htm : (issOf formLds e s a).a.tm = a.tm := (iss_facts h).2.2.2.2.1
  have haddr : k.addr = (participants (book s a e) (issOf formLds e s a).a e).map fun l =>
      (l, scrAddr (book s a e) (issOf formLds e s a).a formLds e l) := rfl
  have hgs : k.addr.flatMap (fun x => granules x.2 (szBytes (e.M 10 8))) = gs :=
    capture_flatMap (book s a e) (issOf formLds e s a) false 0 0 fun _ x => granules x (szBytes (e.M 10 8))
  have hnone : (k.addr.any fun x => (scrCheck (accAt (issOf formLds e s a).a 0) a.tm x.1 false x.2 (szBytes (e.M 10 8))).isSome) = false := by
    refine List.any_eq_false.2 fun x hx => ?_
    obtain ⟨h1, h2⟩ := hin x hx
    unfold scrCheck
    rw [if_neg (not_not.2 h1), if_neg (Nat.not_lt.2 h2)]
    exact Bool.false_ne_true
  have hsome : k.addr.isEmpty = false := by
    cases hl : k.lanes with
    | nil => exact absurd hl hne
    | cons l r =>
      have hmem : l ∈ k.lanes := hl ▸ List.mem_cons_self
      exact List.isEmpty_eq_false_iff.2 (List.ne_nil_of_mem (capture_addr hmem))
  unfold ldsWait
  dsimp only
  rw [htm, ← haddr, hgs, hnone, hsome, beq_eq_false_iff_ne.2 hq]
  rfl

theorem ldsEffect_checked {got : SMap Byte} {i : Iss} {u : State} {k : Capture} (hq : i.e.M 12 11 ≠ 0) (hcap : memCapture u i false 0 0 = k)
    (hcheck : checkMem u (accOf i) (.lds i.e) k = (.ok k, u)) :
    ldsEffect got i u = settle (ldsPerform false got u (accOf i) i.e k).2 i (.lds i.e) k false (ldsPerform false got u (accOf i) i.e k).1 := by
  unfold ldsEffect
  dsimp only
  rw [hcap, if_neg hq, hcheck]

/-- What a load under a wait has seen is delivered, and it acquires (R105, R247). -/
theorem ldsEffect_ready {e : Enc} {s : State} {a : At} (h : Clear formLds e s a) (hq : e.M 12 11 ≠ 0) {gs : List Nat} {u : State}
    (hin : InScratch a (memCapture (book s a e) (issOf formLds e s a) false 0 0) (szBytes (e.M 10 8)))
    (hne : (memCapture (book s a e) (issOf formLds e s a) false 0 0).lanes ≠ [])
    (hu : Granted (teamKey a.gid) (book s a e) u)
    (hcap : memCapture u (issOf formLds e s a) false 0 0 = memCapture (book s a e) (issOf formLds e s a) false 0 0) :
    let k := memCapture (book s a e) (issOf formLds e s a) false 0 0
    ldsEffect (snapshot a.tm [] gs) (issOf formLds e s a) u
      = outstanding (acquireAround u (issOf formLds e s a).a.gid (issOf formLds e s a).a.tm.core 1) (issOf formLds e s a)
          (k.lanes.flatMap fun l => blockW (destKey false e l) (szN (e.M 10 8))
            (loaded (e.M 10 8) (scrRead a.tm (mget k.addr l 0) (szBytes (e.M 10 8))))) .done false false := by
  intro k
  have htk : (accOf (issOf formLds e s a)).team = teamKey a.gid := congrArg teamKey (iss_facts h).1
  have hbook : getTeam (book s a e) (teamKey a.gid) = a.tm := by
    refine Eq.trans ?_ (atOf_some (curAt_some h.issuer).1).2.2.2.2.1.symm
    exact congrArg (fun ts => mget ts (teamKey a.gid) Team.empty) (book_field s a e (·.teams) fun _ _ _ => rfl)
  obtain ⟨scr, full, hteam⟩ := hu.kept.team
  have hscr := hu.scr
  rw [hbook] at hteam hscr
  have hsize : (getTeam u (teamKey a.gid)).scrsize = a.tm.scrsize := by rw [hteam]
  have hcheck : checkMem u (accOf (issOf formLds e s a)) (.lds e) k = (.ok k, u) := by
    change checkScr u (scrChecks _ (getTeam u (accOf (issOf formLds e s a)).team) false (szBytes (e.M 10 8)) k.addr) k = _
    rw [htk, scrChecks_none _ false fun x hx => hsize ▸ hin x hx]
    rfl
  have hws : (k.addr.flatMap fun x => blockWrites false x.1 e.d.toNat (szN (e.M 10 8)) (extendLoad (e.M 10 8)
      (seenBytes (getTeam u (accOf (issOf formLds e s a)).team) (snapshot a.tm [] gs) x.2 (szBytes (e.M 10 8)))))
      = k.lanes.flatMap fun l => blockW (destKey false e l) (szN (e.M 10 8))
          (loaded (e.M 10 8) (scrRead a.tm (mget k.addr l 0) (szBytes (e.M 10 8)))) := by
    rw [htk, capture_flatMap (book s a e) (issOf formLds e s a) false 0 0 fun l x => blockWrites false l e.d.toNat (szN (e.M 10 8))
      (extendLoad (e.M 10 8) (seenBytes (getTeam u (teamKey a.gid)) (snapshot a.tm [] gs) x (szBytes (e.M 10 8))))]
    refine List.flatMap_congr fun l _ => ?_
    rw [extendLoad_eq, seenBytes_snapshot hscr]
    rfl
  have hacq : (!false && e.M 12 11 != 0 && !k.lanes.isEmpty) = true := by
    rw [bne_iff_ne.2 hq, List.isEmpty_eq_false_iff.2 hne]
    rfl
  have hperf : ldsPerform false (snapshot a.tm [] gs) u (accOf (issOf formLds e s a)) e k
      = (.done (k.lanes.flatMap fun l => blockW (destKey false e l) (szN (e.M 10 8))
          (loaded (e.M 10 8) (scrRead a.tm (mget k.addr l 0) (szBytes (e.M 10 8))))) none,
        acquireAround u (issOf formLds e s a).a.gid (issOf formLds e s a).a.tm.core 1) := by
    unfold ldsPerform
    dsimp only
    rw [hws, hacq]
    rfl
  rw [ldsEffect_checked (i := issOf formLds e s a) hq hcap hcheck]
  change settle (ldsPerform false (snapshot a.tm [] gs) u (accOf (issOf formLds e s a)) e k).2 _ _ _ _
    (ldsPerform false (snapshot a.tm [] gs) u (accOf (issOf formLds e s a)) e k).1 = _
  rw [hperf]
  rfl

/-- An acquire at .team changes what its group has heard, and its cursors' buffers. -/
theorem acquireAround_kept (tk : Nat) (u : State) (gid core : Nat) : ScrKept tk u (acquireAround u gid core 1) := by
  have hhear : ScrKept tk u (hearAround u gid (decide (2 ≤ 1))) := by
    unfold hearAround hearWhere hearRecs
    exact ScrKept.modGroup _ _ fun _ => ⟨rfl, rfl, rfl⟩
  unfold acquireAround acquire
  dsimp only
  rw [if_neg (by decide)]
  exact hhear.trans (ScrKept.modGroup _ _ fun _ => ⟨rfl, rfl, rfl⟩)

section Waiting

variable {f : Form} {e : Enc} {i : Instr} {s : State} {a : At} {eff : SMap Byte → Iss → State → State} (h : Clear f e s a)
  (hpark : (issOf f e s a).a.sp.park = .none)
include h hpark

/-- A wait that is satisfied at issue. -/
theorem issueWait_ready {got : SMap Byte} {take : List Nat} (hw : waitOf (book s a e) (issOf f e s a).a i [] = .ready got take) :
    issueWait f e i s eff = .next (eff got (issOf f e s a)
      (markEmpty (unpark (book s a e) (issOf f e s a)) (teamKey (issOf f e s a).a.gid) take)) := by
  unfold issueWait
  rw [gate_clear h]
  dsimp only
  rw [hpark]
  dsimp only
  rw [hw]

/-- A wait that is not: the split parks. -/
theorem issueWait_no {got : SMap Byte} (hw : waitOf (book s a e) (issOf f e s a).a i [] = .no got) :
    issueWait f e i s eff = .next (setPark s a.gid a.k got false) := by
  unfold issueWait
  rw [gate_clear h]
  dsimp only
  rw [hpark]
  dsimp only
  rw [hw]
  dsimp only
  rw [(iss_facts h).1, (iss_facts h).2.1, show (book s a e).fresh = s.fresh from book_field s a e (·.fresh) fun _ _ _ => rfl]

end Waiting

/-- Waits of scratchpad loads (R247, R61). -/
theorem scratchWaits : ScratchWaitsClaim := by
  intro e s a h hq hpark s1 k n gs hin hne
  have hp : (issOf formLds e s a).a.sp.park = .none := by
    rw [show (issOf formLds e s a).a = _ from (issuedAt_eq e h.issuer).2]
    exact hpark
  have hgid := (iss_facts h).1
  have hwait : waitOf s1 (issOf formLds e s a).a (.lds e) [] = staticWait a.tm gs (if e.M 12 11 = 2 then gs else []) :=
    ldsWait_static h hq hin hne
  refine ⟨fun hfull => ?_, fun ⟨g, hg, hempty⟩ => ?_⟩
  · have hready : staticWait a.tm gs (if e.M 12 11 = 2 then gs else [])
        = .ready (snapshot a.tm [] gs) (if e.M 12 11 = 2 then gs else []) := by
      unfold staticWait
      rw [if_pos (List.all_eq_true.2 hfull)]
    have hexec : exec (.lds e) s = _ := issueWait_ready (eff := ldsEffect) h hp (hwait.trans hready)
    obtain ⟨u, hu⟩ : ∃ u, u = markEmpty (unpark s1 (issOf formLds e s a)) (teamKey (issOf formLds e s a).a.gid)
        (if e.M 12 11 = 2 then gs else []) := ⟨_, rfl⟩
    rw [← hu] at hexec
    rw [hgid] at hu
    have hunpark : Granted (teamKey a.gid) s1 (unpark s1 (issOf formLds e s a)) :=
      ⟨(issuing_unpark h).kept, rfl⟩
    have hgranted : Granted (teamKey a.gid) s1 u := hu ▸ hunpark.trans (Granted.marks _ _)
    have hcap : memCapture u (issOf formLds e s a) false 0 0 = k := by
      rw [hu]
      rfl
    have hbook : getTeam s1 (teamKey a.gid) = a.tm := by
      refine Eq.trans ?_ (atOf_some (curAt_some h.issuer).1).2.2.2.2.1.symm
      exact congrArg (fun ts => mget ts (teamKey a.gid) Team.empty) (book_field s a e (·.teams) fun _ _ _ => rfl)
    have hlisted : mfind (unpark s1 (issOf formLds e s a)).teams (teamKey a.gid) ≠ none := by
      have hmem := List.exists_mem_of_ne_nil _ hne
      obtain ⟨l, hl⟩ := hmem
      have hteams : (unpark s1 (issOf formLds e s a)).teams = s.teams := book_field s a e (·.teams) fun _ _ _ => rfl
      rw [hteams]
      exact team_listed h hin (List.ne_nil_of_mem (capture_addr hl))
    rw [ldsEffect_ready h hq hin hne hgranted hcap] at hexec
    have hkept := hgranted.kept.trans (acquireAround_kept (teamKey a.gid) u (issOf formLds e s a).a.gid (issOf formLds e s a).a.tm.core)
    obtain ⟨hw, o, hs, hst, hws⟩ := sent_kept h hkept (k.lanes.flatMap fun l => blockW (destKey false e l) (szN (e.M 10 8))
      (loaded (e.M 10 8) (scrRead a.tm (mget k.addr l 0) (szBytes (e.M 10 8))))) .done false false
    refine ⟨_, o, hexec, hw, hs, hst, ?_, fun x => ?_, fun g => ?_⟩
    · rw [hws]
      exact (delivers_blocks (parties_nodup s1 (issOf formLds e s a)) (destFree_lds h).1 (destFree_lds h).2).1
    · refine (congrArg (fun m => mget m x 0) hgranted.scr).trans ?_
      rw [hbook]
      rfl
    · refine (show _ = isFull (getTeam u (teamKey a.gid)) g from rfl).trans ?_
      rw [hu, isFull_markEmpty hlisted]
      have hsame : getTeam (unpark s1 (issOf formLds e s a)) (teamKey a.gid) = a.tm := hbook
      rw [hsame]
      by_cases h2 : e.M 12 11 = 2
      · rw [if_pos h2, h2]
        rfl
      · rw [if_neg h2, beq_eq_false_iff_ne.2 h2, decide_eq_false List.not_mem_nil]
        rfl
  · have hno : staticWait a.tm gs (if e.M 12 11 = 2 then gs else []) = .no [] := by
      unfold staticWait
      rw [if_neg]
      exact fun hall => Bool.false_ne_true (hempty.symm.trans (List.all_eq_true.1 hall g hg))
    exact issueWait_no (eff := ldsEffect) h hp (hwait.trans hno)

/-- Settles O10: a store's bytes are those of the winners; a fill grants the waits, then one open take after another; and a wait reads
its snapshot, which is what stands. -/
theorem scratchLoadsAndStores : Obligations.ScratchLoadsAndStores := by
  unfold Obligations.ScratchLoadsAndStores
  exact ⟨scratchLoads, scratchStores, fills, scratchWaits⟩

end Sys2Proof.Machine
end
